-- ==== Sys2Proof/Word.lean ====
section
/-! DEFINITION. The word types of the Beyryn and its sparse finite maps. -/
namespace Sys2Proof

/-- A byte of any memory. -/
abbrev Byte := BitVec 8
/-- An instruction or literal word (R47). -/
abbrev Word32 := BitVec 32
/-- The value of a scalar register (R100). -/
abbrev Word := BitVec 64
/-- The value of a vector register or latch, and of a scratchpad line: 1 KiB (R131, R170). -/
abbrev Line := BitVec 8192
/-- The value of a predicate, one bit per byte position (R136). -/
abbrev Pred := BitVec 1024
/-- The value of a scale register: sixteen `sc8` bytes (R167). -/
abbrev Scales := BitVec 128

/-- A sparse total map from numbers: a list of key and value pairs; a key that is not
listed has the map's default value, which the reader of the map names. -/
abbrev FMap (α : Type) := List (Nat × α)

/-- Field [hi:lo] of a number (R5). -/
def field (hi lo w : Nat) : Nat := w / 2 ^ lo % 2 ^ (hi + 1 - lo)

/-- Bit `i` of a number. -/
def bitOf (i w : Nat) : Bool := w / 2 ^ i % 2 == 1

/-- A number's bits [k-1:0] read as a two's-complement value (R64, `sext`). -/
def signed (k w : Nat) : Int :=
  if w % 2 ^ k < 2 ^ (k - 1) then ((w % 2 ^ k : Nat) : Int) else ((w % 2 ^ k : Nat) : Int) - 2 ^ k

/-- An integer modulo 2^64 (R102). -/
def word (i : Int) : Word := BitVec.ofInt 64 i

/-- 0 or 1. -/
def bit (b : Bool) : Nat := if b then 1 else 0

/-- `x` divided by `y`, rounded up. -/
def ceilDiv (x y : Nat) : Nat := (x + y - 1) / y

end Sys2Proof
end

