-- ==== Sys2Proof/Machine/Flags.lean ====
section
/-! DEFINITION. The float flags of `FPFLAGS` and every computation of them (R159, R160). -/
namespace Sys2Proof.Machine
open Sys2Proof

/-- Invalid (R160). -/
def flagNV : Nat := 1
/-- Divide-by-zero. -/
def flagDZ : Nat := 2
/-- Overflow. -/
def flagOF : Nat := 4
/-- Underflow. -/
def flagUF : Nat := 8
/-- Inexact. -/
def flagNX : Nat := 16

/-- `NV` when a condition holds. -/
def nvIf (b : Bool) : Nat := if b then flagNV else 0
/-- The flags of several results combine (R160). -/
def orAll : List Nat → Nat
  | [] => 0
  | f :: r => f ||| orAll r
/-- The flags of the enabled elements (R160). -/
def orEnabled : List Bool → List Nat → Nat
  | e :: es, f :: fs => (if e then f else 0) ||| orEnabled es fs
  | _, _ => 0
/-- Sticky flags after an OR masked by `FPCTRL.FEN` (R160). -/
def stick (old f fen : Nat) : Nat := old ||| (f &&& fen)
/-- Underflow is raised when the result is tiny and inexact; overflow raises inexact too (R159). -/
def roundFlags (ovf tiny inexact : Bool) : Nat :=
  (if ovf then flagOF ||| flagNX else 0) ||| (if tiny && inexact then flagUF else 0) |||
  (if inexact then flagNX else 0)

end Sys2Proof.Machine
end

