-- ==== Sys2Proof/Syntax.lean ====
section
/-! DEFINITION. The instructions: one constructor for each row of spec/opcode_table.json. The first
172 are the slot operations of the opcode map (R65); the others are the steps of the device that have
no encoding (spec/95): what an engine, a home, the hub, the host or the package does by itself. -/
namespace Sys2Proof

/-- The element formats of F words that arithmetic accepts (R55, R161) and of scalar floats (R116). -/
inductive SfFmt | f32 | bf16 | f16
  deriving DecidableEq, Repr

/-- All float formats (R153, R156). -/
inductive FFmt | f32 | bf16 | f16 | e4m3 | e5m2 | pw8
  deriving DecidableEq, Repr

/-- The integer formats of I words (R55). -/
inductive IFmt | i8 | i16 | i32 | n8 | n16 | n32
  deriving DecidableEq, Repr

/-- The element formats of P words (R55). -/
inductive PFmt | i8 | i16 | i32 | f32 | n8 | n16 | n32 | bf16
  deriving DecidableEq, Repr

/-- Rounding modes (R56). -/
inductive RMode | rne | rtz | rup | rdn
  deriving DecidableEq, Repr

/-- Conditions of BC, against zero (R87). -/
inductive BCond | eq | ne | lt | ge | gt | le
  deriving DecidableEq, Repr

/-- Tests of BP (R87). -/
inductive BTest | any | all | none | nall
  deriving DecidableEq, Repr

/-- Conditions of SCMP (R106). -/
inductive SCond | eq | ne | lt | ge | ltn | gen
  deriving DecidableEq, Repr

/-- Conditions of SFCMP and VFCMP (R118, R164). -/
inductive FCond | eq | lt | le | un
  deriving DecidableEq, Repr

/-- Conditions of VCMP (R141). -/
inductive VCond | eq | ne | lt | le
  deriving DecidableEq, Repr

/-- Modes of MOVL (R108). -/
inductive MovMode | lo | lz | hi | hk
  deriving DecidableEq, Repr

/-- Widths of EXT (R109). -/
inductive ExtW | w8 | w16 | w32
  deriving DecidableEq, Repr

/-- Conversions of SFCVT (R117). -/
inductive SfConv
  | f32bf16 | f32f16 | bf16f32 | f16f32 | f32i32 | f32n32 | f32i64 | f32n64
  | i32f32 | n32f32 | i64f32 | n64f32
  deriving DecidableEq, Repr

/-- Sizes of memory accesses (R182). -/
inductive MSize | b1 | b2 | b4 | b8 | b16
  deriving DecidableEq, Repr

/-- The operations of AMO and GAMO (R186). -/
inductive AmoOp
  | addI64 | addI32 | andI64 | orI64 | xorI64 | minI64 | maxI64 | minN64 | maxN64
  | swapI64 | swapI32 | casI64 | casI32 | faddF32 | faddBf16
  deriving DecidableEq, Repr

/-- The kinds of PSTAT (R189). -/
inductive PstatKind | stale | poison | health
  deriving DecidableEq, Repr

/-- The patterns of VSHUF (R147). -/
inductive Shuf | ziplo | ziphi | even | odd | rev
  deriving DecidableEq, Repr

/-- The operations of VRED and VSCAN (R149). -/
inductive RedOp | sum | min | max
  deriving DecidableEq, Repr

/-- The destination of VFCVT (R166). -/
inductive CvtDst | f32 | bf16 | f16 | e4m3 | e5m2 | i32 | i16 | i8
  deriving DecidableEq, Repr

/-- The source of VFCVT (R166). -/
inductive CvtSrc | f32 | bf16 | f16 | e4m3 | e5m2 | pw8 | i32 | i8
  deriving DecidableEq, Repr

/-- The ends of BCOPY and TCOPY (R213): scratchpad to scratchpad, global to scratchpad,
scratchpad to global. -/
inductive Ends | ss | gs | sg
  deriving DecidableEq, Repr

/-- The value sizes of BFILL (R220). -/
inductive FillSize | b1 | b2 | b4 | b8
  deriving DecidableEq, Repr

/-- The operations of EVCTL (R129). -/
inductive EvOp | start | stop | clear | restart
  deriving DecidableEq, Repr

/-- The scopes of FENCE (R279, R284). -/
inductive Scope | core | gang | die | pkg | pod
  deriving DecidableEq, Repr

/-- The second operand of an A, E or X form: a scalar, or literal word `k` of the bundle (R57). -/
inductive Src
  | reg (n : Nat)
  | lit (k : Nat)
  deriving DecidableEq, Repr

/-- The offset of an M form: `off5`, or literal word `k` (R50, R57). -/
inductive MOff
  | imm (i : Int)
  | lit (k : Nat)
  deriving DecidableEq, Repr

/-- A memory operand: base scalar and offset (R29, R50). -/
structure Ea where
  base : Nat
  off  : MOff
  deriving DecidableEq, Repr

/-- A vector operand: its register, and whether the position's latch supplies it (R63, R134). -/
structure VReg where
  n    : Nat
  held : Bool
  deriving DecidableEq, Repr

/-- A vector operand b: a register or its latch, or literal word `k` (R57, R63). -/
inductive VSrc
  | vec (r : VReg)
  | lit (k : Nat)
  deriving DecidableEq, Repr

/-- The predicate of a slot: register `pr`, sense `ps` (R54). -/
structure PredG where
  pr : Nat
  ps : Bool
  deriving DecidableEq, Repr

/-- What a scan rotation scans: a rotation position of a core, or a column strip of a die's array (R342). -/
inductive ScanUnit
  | core (c pos : Nat)
  | strip (die s : Nat)
  deriving DecidableEq, Repr

/-- The scope of a debug halt (R274). -/
inductive DbgScope
  | gang (g : Nat)
  | die (d : Nat)
  deriving DecidableEq, Repr

/-- A register of the management window that has no behaviour of its own (R119; R171, R236, R315, R332,
R349, R367, R369, R377); `sys` is a core's system register by its number, and `read` reads one there (log 65). -/
inductive MgmtReg
  | courseMap (core : Nat)
  | trapVec (core : Nat)
  | breakpoint (core : Nat)
  | slot (ccw : Bool) (n : Nat)
  | ilim (reg : Nat)
  | vstep (cluster : Nat)
  | route (n : Nat)
  | portWheel (port n : Nat) (out : Bool)
  | wtc
  | sys (core k : Nat)
  | read (core k : Nat)
  | routeRead (n : Nat)
  | keyRead (port n : Nat)
  deriving DecidableEq, Repr

/-- Where a bit error arises (R340; R172, R178, R329). A `slot` is one of 2048: the clockwise ring's, then the other's. -/
inductive ErrSite
  | row (core row : Nat)
  | mortar (core line : Nat)
  | sreg (core n : Nat)
  | vreg (core n : Nat)
  | pred (core n : Nat)
  | scale (core n : Nat)
  | latch (core pos k : Nat)
  | tile (die n : Nat)
  | word (core w : Nat)
  | supReg (core n : Nat)
  | handlerWord (core w : Nat)
  | slot (k : Nat)
  deriving DecidableEq, Repr

/-- What a device repair restores (R181, R352). -/
inductive Repair
  | course (core course : Nat)
  | phases (reg : Nat)
  deriving DecidableEq, Repr

/-- The kinds of a pod request (R364): anything else is refused. `corrupt` is one that still fails its link check after
the link's retries (R368). -/
inductive PodKind
  | read
  | write (mask : BitVec 64) (data : BitVec 512)
  | poisoned (mask : BitVec 64)
  | atomic (op : AmoOp) (v w : Word)
  | corrupt
  | other
  deriving DecidableEq, Repr

/-- What a request of the host port or a mailbox command names first, with the tenant that asks (R359, R360). -/
structure Asked (α : Type) where
  from_ : Nat
  arg : α
  deriving DecidableEq, Repr
/-- A cluster's measured energy in nanojoules, and that of its die's array (R356). -/
structure Energy where
  cores : Nat
  arrays : Nat
  deriving DecidableEq, Repr

/-- One constructor for each row of spec/opcode_table.json, in the table's order. -/
inductive Instr
  -- C: the sequencer (R85)
  | br (off : Int)
  | bri (a : Nat)
  | bc (c : BCond) (a : Nat) (off : Int)
  | bp (m : BTest) (p : Nat) (off : Int)
  | call (off : Int)
  | calli (a : Nat)
  | ret
  | loop (a stg : Nat) (off : Int)
  | lend
  | lbrk (k : Nat)
  | brswap (a : Nat)
  | trap (k : Nat)
  | halt
  | rft
  | rstrt
  | pwin (a m : Nat)
  -- A: scalar arithmetic (R105-R118)
  | add (d a : Nat) (b : Src)
  | sub (d a : Nat) (b : Src)
  | and (d a : Nat) (b : Src)
  | or (d a : Nat) (b : Src)
  | xor (d a : Nat) (b : Src)
  | andn (d a : Nat) (b : Src)
  | shl (d a : Nat) (b : Src)
  | shr (d a : Nat) (b : Src)
  | sar (d a : Nat) (b : Src)
  | rol (d a : Nat) (b : Src)
  | min (d a : Nat) (b : Src)
  | max (d a : Nat) (b : Src)
  | minn (d a : Nat) (b : Src)
  | maxn (d a : Nat) (b : Src)
  | scmp (c : SCond) (d a : Nat) (b : Src)
  | sel (d a : Nat) (b : Src) (c : Nat)
  | movl (m : MovMode) (d a : Nat) (b : Src)
  | ext (w : ExtW) (sx : Bool) (d a : Nat)
  | bfx (sx : Bool) (d a : Nat) (b : Src)
  | bfi (d a : Nat) (b : Src)
  | clz (d a : Nat)
  | ctz (d a : Nat)
  | popc (d a : Nat)
  | lea (d a : Nat) (b : Src) (sh : Nat)
  | lidx (d a : Nat) (b : Src) (depth : Nat)
  | smix (d a : Nat) (b : Src)
  | mul (d a : Nat) (b : Src)
  | mulh (d a : Nat) (b : Src)
  | mulhn (d a : Nat) (b : Src)
  | madd (d a : Nat) (b : Src)
  | div (d a : Nat) (b : Src)
  | divn (d a : Nat) (b : Src)
  | rem (d a : Nat) (b : Src)
  | remn (d a : Nat) (b : Src)
  | sfadd (fmt : SfFmt) (rm : RMode) (d a : Nat) (b : Src)
  | sfmul (fmt : SfFmt) (rm : RMode) (d a : Nat) (b : Src)
  | sfma (fmt : SfFmt) (rm : RMode) (d a : Nat) (b : Src)
  | sfcvt (c : SfConv) (rm : RMode) (d a : Nat)
  | sfcmp (fmt : SfFmt) (c : FCond) (d a : Nat) (b : Src)
  -- M: scratchpad and global memory (R182-R189, R205-R208)
  | lds (sz : MSize) (sx : Bool) (t : Nat) (ea : Ea)
  | sts (sz : MSize) (bulk : Bool) (t : Nat) (ea : Ea)
  | ldv (t : Nat) (ea : Ea)
  | stv (t : Nat) (ea : Ea)
  | ldr (k t : Nat) (ea : Ea)
  | str (k : Nat) (bulk : Bool) (t : Nat) (ea : Ea)
  | ldb (sz : MSize) (t : Nat) (ea : Ea)
  | amo (op : AmoOp) (t : Nat) (ea : Ea)
  | pseal (t : Nat) (ea : Ea)
  | pstat (k : PstatKind) (t : Nat) (ea : Ea)
  | gld (sz : MSize) (sx : Bool) (t : Nat) (ea : Ea)
  | gst (sz : MSize) (t : Nat) (ea : Ea)
  | gldv (t : Nat) (ea : Ea)
  | gstv (t : Nat) (ea : Ea)
  | gamo (op : AmoOp) (t : Nat) (ea : Ea)
  -- F: vector float (R162-R169)
  | vfadd (fmt : SfFmt) (rm : RMode) (d : Nat) (a : VReg) (b : VSrc) (g : PredG)
  | vfsub (fmt : SfFmt) (rm : RMode) (d : Nat) (a : VReg) (b : VSrc) (g : PredG)
  | vfmul (fmt : SfFmt) (rm : RMode) (d : Nat) (a : VReg) (b : VSrc) (g : PredG)
  | vfma (fmt : SfFmt) (rm : RMode) (d : Nat) (a : VReg) (b : VSrc) (c : VReg) (g : PredG)
  | vfms (fmt : SfFmt) (rm : RMode) (d : Nat) (a : VReg) (b : VSrc) (c : VReg) (g : PredG)
  | vfnma (fmt : SfFmt) (rm : RMode) (d : Nat) (a : VReg) (b : VSrc) (c : VReg) (g : PredG)
  | vfmin (fmt : SfFmt) (d : Nat) (a : VReg) (b : VSrc) (g : PredG)
  | vfmax (fmt : SfFmt) (d : Nat) (a : VReg) (b : VSrc) (g : PredG)
  | vfabs (fmt : SfFmt) (d : Nat) (a : VReg) (g : PredG)
  | vfneg (fmt : SfFmt) (d : Nat) (a : VReg) (g : PredG)
  | vfcmp (fmt : SfFmt) (c : FCond) (p : Nat) (a : VReg) (b : VSrc) (g : PredG)
  | vfrcp (fmt : SfFmt) (rm : RMode) (d : Nat) (a : VReg) (g : PredG)
  | vfrsq (fmt : SfFmt) (rm : RMode) (d : Nat) (a : VReg) (g : PredG)
  | vfexp2 (fmt : SfFmt) (rm : RMode) (d : Nat) (a : VReg) (g : PredG)
  | vfcvt (dst : CvtDst) (src : CvtSrc) (rm : RMode) (sat : Bool) (part d : Nat) (a : VReg) (g : PredG)
  | vfscl (fmt : SfFmt) (rm : RMode) (bc inv : Bool) (d : Nat) (a : VReg) (b : Src) (g : PredG)
  -- I: vector integer (R139-R145)
  | vadd (fmt : IFmt) (sat : Bool) (d : Nat) (a : VReg) (b : VSrc) (g : PredG)
  | vsub (fmt : IFmt) (sat : Bool) (d : Nat) (a : VReg) (b : VSrc) (g : PredG)
  | vmul (fmt : IFmt) (sat : Bool) (d : Nat) (a : VReg) (b : VSrc) (g : PredG)
  | vmulh (fmt : IFmt) (d : Nat) (a : VReg) (b : VSrc) (g : PredG)
  | vdot4 (sgn acc : Bool) (d : Nat) (a : VReg) (b : VSrc) (c : VReg) (g : PredG)
  | vshl (fmt : IFmt) (d : Nat) (a : VReg) (b : VSrc) (g : PredG)
  | vshr (fmt : IFmt) (d : Nat) (a : VReg) (b : VSrc) (g : PredG)
  | vsar (fmt : IFmt) (d : Nat) (a : VReg) (b : VSrc) (g : PredG)
  | vand (fmt : IFmt) (d : Nat) (a : VReg) (b : VSrc) (g : PredG)
  | vor (fmt : IFmt) (d : Nat) (a : VReg) (b : VSrc) (g : PredG)
  | vxor (fmt : IFmt) (d : Nat) (a : VReg) (b : VSrc) (g : PredG)
  | vandn (fmt : IFmt) (d : Nat) (a : VReg) (b : VSrc) (g : PredG)
  | vmin (fmt : IFmt) (d : Nat) (a : VReg) (b : VSrc) (g : PredG)
  | vmax (fmt : IFmt) (d : Nat) (a : VReg) (b : VSrc) (g : PredG)
  | vabs (fmt : IFmt) (sat : Bool) (d : Nat) (a : VReg) (g : PredG)
  | vcmp (fmt : IFmt) (c : VCond) (p : Nat) (a : VReg) (b : VSrc) (g : PredG)
  | vsel (fmt : IFmt) (d : Nat) (a : VReg) (b : VSrc) (p : Nat) (g : PredG)
  | vsat (fmt : IFmt) (k d : Nat) (a : VReg) (g : PredG)
  | vcvt (fmt src : IFmt) (sat : Bool) (part d : Nat) (a : VReg) (g : PredG)
  | vclz (fmt : IFmt) (d : Nat) (a : VReg) (g : PredG)
  | vpopc (fmt : IFmt) (d : Nat) (a : VReg) (g : PredG)
  | vidx (fmt : IFmt) (step d : Nat) (b : VSrc) (g : PredG)
  | vsmix (sgn : Bool) (d : Nat) (a : VReg) (b : VSrc) (g : PredG)
  | vbcs (fmt : IFmt) (d : Nat) (b : Src) (g : PredG)
  -- P: permute, reduction and predicates (R146-R152)
  | vperm (fmt : PFmt) (d : Nat) (a : VReg) (b : VSrc) (g : PredG)
  | vrot (fmt : PFmt) (d : Nat) (a : VReg) (b : Src) (g : PredG)
  | vshuf (fmt : PFmt) (pat : Shuf) (d : Nat) (a : VReg) (b : VSrc) (g : PredG)
  | vrmg (fmt : PFmt) (d : Nat) (a : VReg) (b : VSrc) (c : Nat) (g : PredG)
  | vwin (fmt : PFmt) (k d : Nat) (a : VReg) (b : VSrc) (g : PredG)
  | vred (fmt : PFmt) (op : RedOp) (rm : RMode) (sat : Bool) (d : Nat) (a : VReg) (g : PredG)
  | vscan (fmt : PFmt) (op : RedOp) (ex : Bool) (rm : RMode) (sat : Bool) (d : Nat) (a : VReg) (g : PredG)
  | vpack (fmt : PFmt) (rm : RMode) (sat : Bool) (d : Nat) (a : VReg) (b : VSrc) (g : PredG)
  | vunpk (fmt : PFmt) (hi : Bool) (d : Nat) (a : VReg) (g : PredG)
  | vext (fmt : PFmt) (d : Nat) (a : VReg) (b : Src)
  | vins (fmt : PFmt) (d a : Nat) (b : Src)
  | pand (d a b : Nat)
  | por (d a b : Nat)
  | pxor (d a b : Nat)
  | pnot (d a : Nat)
  | pmov (p2v : Bool) (d : Nat) (a : VReg)
  -- E: engines, queues, synchronisation, matrix array, carousel
  | bcopy (e : Ends) (d : Nat) (x : Src) (c : Nat)
  | tcopy (e : Ends) (d : Nat) (x : Src) (c : Nat)
  | bfill (glb : Bool) (sz : FillSize) (d : Nat) (v : Src) (c : Nat)
  | bchk (k a : Nat) (b : Src)
  | ifill (hb : Bool) (a : Nat) (b : Src)
  | send (lane v : Nat) (p : Src)
  | sends (a : Nat) (p : Src)
  | recv (v : Nat) (p : Src)
  | recvs (t : Nat) (p : Src)
  | mcast (lane v : Nat) (p : Src)
  | signal (a : Nat) (b : Src)
  | bararr (t : Nat) (b : Src)
  | bardrp (t : Nat) (b : Src)
  | barwt (a : Nat) (b : Src)
  | dqpush (t a : Nat) (b : Src)
  | dqpop (t : Nat) (b : Src)
  | dqsteal (t : Nat) (b : Src)
  | launch (t a : Nat)
  | twait (b : Src)
  | sigwt (a : Nat) (b : Src)
  | mlease (t : Nat)
  | mrel
  | mcfg
  | tload (m tr q : Bool) (n a : Nat) (b : Src)
  | tstore (m : Bool) (tile a : Nat) (b : Src)
  | tzero (tile : Nat)
  | mma (as z : Bool) (acc a w : Nat)
  | tcvt (rm : RMode) (sat : Bool) (n acc : Nat) (k : Src)
  | tscl (n a : Nat) (b : Src)
  | cboard (ccw : Bool) (a : Nat) (n : Src)
  | calight (ccw cp : Bool) (t a : Nat) (n : Src)
  | ccatch (ccw : Bool) (t a : Nat) (n : Src)
  | ccatchv (ccw : Bool) (t a : Nat) (n : Src)
  | crepl (ccw : Bool) (t a : Nat) (n : Src)
  | crost (ccw : Bool) (t : Nat) (n : Src)
  -- X: system
  | srr (d k : Nat)
  | srw (k : Nat) (b : Src)
  | rdtt (d : Nat)
  | rdwt (d : Nat)
  | scld (n a : Nat) (b : Src)
  | fence (sc : Scope)
  | ifence
  | cropen (b : Src)
  | crclose
  | scangap
  | evctl (op : EvOp) (die : Bool) (b : Src)
  -- the steps of a core and its gang without an encoding
  | emptyBundle
  | zeroWeightCycle
  | areaFallThrough
  | misdirectedTransfer
  | exposedWrite (core : Nat)
  | resultArrival (id : Nat)
  | postedCommit (id line : Nat)
  | late (core id : Nat)
  | amoCoveredWrite (core : Nat)
  | trapinst (core : Nat)
  | engineStart (id : Nat)
  | engineSourceRead (id k : Nat)
  | engineGlobalPerform (id k : Nat)
  | engineComplete (id : Nat)
  | homePerform (id k : Nat)
  | retryResend (id : Nat)
  | homeDown (die : Nat)
  | poisonedResponse (id : Nat)
  | leaseRevocation (lid die : Nat)
  | wheelSlot (die : Nat) (out : Bool)
  | signalAdd (id : Nat)
  | watchGrant (gang : Nat)
  | barrierBatch (bar : Nat)
  | dequeApply (id : Nat)
  | collectiveRelease (gang : Nat)
  | leaseDurationExpiry (die : Nat)
  | scanLimitExpiry (gang : Nat)
  | scanFail (u : ScanUnit)
  | scanConfirm (task : Nat)
  | unitClearance (u : ScanUnit)
  | ifillComplete (id : Nat)
  | arrayCommit (id : Nat)
  | mcfgCommit (id : Nat)
  | mortarSweep (core course : Nat)
  | ringPassage (ccw : Bool) (slot stop : Nat)
  | rosterRequest (id : Nat)
  | cfull (id : Nat)
  | cmiss (id : Nat)
  -- the sorting office
  | admitTask
  | priorityAging (task : Nat)
  | residency (task : Nat)
  | hypervisorRetry (task : Nat)
  | hypervisorDecline (task : Nat)
  | placement (task : Nat)
  | launchFill (task : Nat)
  | dispatch (task : Nat)
  | taskComplete (gang : Nat)
  | boundWriteback (task : Nat)
  | completionRecordWrite (task : Nat)
  | preemptRequest (gang : Nat)
  | preemptStop (gang : Nat)
  | preemptResume (task : Nat)
  | kill (task : Nat)
  | cancel (task : Asked Nat)
  | debugHalt (sc : Asked DbgScope)
  | debugRelease (sc : Asked DbgScope)
  | classChangeApply (gang : Nat)
  | classChangeTimeout (gang : Nat)
  -- bricks, power and thermal control
  | brickRetire (core course brick : Nat)
  | brickHardFail (core course brick : Nat)
  | courseLost (core course brick : Nat)
  | courseFailing (core course brick : Nat)
  | limiterSample (reg imeas : Nat)
  | phaseLoss (reg : Nat)
  | thermalTrip (die sensor : Nat)
  | thermalTripEnd (die sensor : Nat)
  | undervoltRetreat (dom : Nat)
  | heartbeat (rel : Bool)
  | heartbeatMiss
  | safeTable
  | freqTableWrite (dom mhz : Nat)
  | enmeasUpdate (cluster : Nat) (nj : Energy)
  | reliabilityRestart
  | clcfgWrite (n : Nat) (v : Word)
  | domclsWrite (v : BitVec 16)
  | isetWrite (b : Bool) (v : Word)
  | registerWrite (r : MgmtReg) (v : BitVec 128)
  -- tenancy, host, pods and management
  | tenantRecordWrite (ten : Asked Nat) (v : BitVec 384)
  | dequeAllot (ten : Asked Nat) (id cap : Nat)
  | slotWithdraw (ccw : Asked Bool) (n : Nat)
  | keyTableWrite (port : Asked Nat) (n : Nat) (v : BitVec 128)
  | mirrorRingSet (ten : Asked Nat) (addr : Nat)
  | amoflagsReadClear (die : Asked Nat) (ten : Nat)
  | hostPut (addr : Asked Nat) (data : List (BitVec 128))
  | hostGet (addr : Asked Nat) (n : Nat)
  | hostAtomic (addr : Asked Nat) (op : AmoOp) (v w : Word)
  | launchWindowPost (from_ ten prio : Nat) (addr : Word)
  | podRequest (port : Nat) (k : PodKind) (tagged : Bool) (ten : Nat) (key : Word) (va : Nat)
  | podAck (id : Nat) (ok : Bool)
  | firmwareUpdate (rel : Asked Bool) (version leaf : Nat) (image sig : Nat)
  | attestationRequest (nonce : Asked (BitVec 256))
  | dieReset (die : Asked Nat)
  | powerOnReset
  | softError (site : ErrSite) (dbl : Bool) (bitNo : Nat)
  | deviceRepair (r : Repair)
  | memoryPlaneReset (die : Nat)
  | portDropOut (port : Nat)
  deriving DecidableEq, Repr

end Sys2Proof
end

