-- ==== Sys2Proof/WellFormed.lean ====
section
/-! DEFINITION. Which slot operations have an encoding: every operand within the field that holds it
(R49-R58 and the form's own rule). The steps without an encoding are well formed as they stand. -/
namespace Sys2Proof

/-- A scalar register's number (R100). -/
def sOk (n : Nat) : Bool := n < 64
/-- A vector register's number (R131). -/
def vOk (n : Nat) : Bool := n < 384
/-- A predicate's number (R136). -/
def pOk (n : Nat) : Bool := n < 16
/-- A predicate as a destination: not `p0` (R60). -/
def pdOk (n : Nat) : Bool := 0 < n && n < 16
/-- A scalar or a literal word (R57). -/
def Src.ok : Src → Bool
  | .reg n => n < 64
  | .lit k => k < 3
/-- A scale register or a literal word (R169). -/
def Src.okScale : Src → Bool
  | .reg n => n < 16
  | .lit k => k < 3
/-- An offset (R50). -/
def MOff.ok : MOff → Bool
  | .imm i => -16 ≤ i && i < 16
  | .lit k => k < 3
/-- A memory operand (R29). -/
def Ea.ok (e : Ea) : Bool := e.base < 64 && e.off.ok
/-- A vector operand (R131). -/
def VReg.ok (r : VReg) : Bool := r.n < 384
/-- A vector operand b (R57). -/
def VSrc.ok : VSrc → Bool
  | .vec r => r.n < 384
  | .lit k => k < 3
/-- A slot's predicate: `(!p0)` is rejected (R58). -/
def PredG.ok (g : PredG) : Bool := g.pr < 16 && !(g.ps && g.pr == 0)
/-- A branch offset: a signed 17-bit word count (R53). -/
def offOk (i : Int) : Bool := -65536 ≤ i && i < 65536
/-- Bytes of an element (R182, R63). -/
def MSize.bytes : MSize → Nat
  | .b1 => 1 | .b2 => 2 | .b4 => 4 | .b8 => 8 | .b16 => 16
def IFmt.bytes : IFmt → Nat
  | .i8 | .n8 => 1 | .i16 | .n16 => 2 | .i32 | .n32 => 4
def CvtDst.bytes : CvtDst → Nat
  | .f32 | .i32 => 4 | .bf16 | .f16 | .i16 => 2 | .e4m3 | .e5m2 | .i8 => 1
def CvtSrc.bytes : CvtSrc → Nat
  | .f32 | .i32 => 4 | .bf16 | .f16 => 2 | .e4m3 | .e5m2 | .pw8 | .i8 => 1
/-- The number of parts of a conversion between widths (R143). -/
def parts (ws wd : Nat) : Nat := max (ws / wd) (wd / ws)
/-- Signed loads extend 1, 2 or 4 bytes (R183). -/
def MSize.signOk (z : MSize) (sx : Bool) : Bool := !sx || z.bytes ≤ 4
/-- A pair names an even scalar (R183). -/
def pairOk (z : MSize) (t : Nat) : Bool := z != .b16 || t % 2 == 0
/-- A CAS names an even scalar (R186). -/
def casOk (op : AmoOp) (t : Nat) : Bool := !(op == .casI64 || op == .casI32) || t % 2 == 0
/-- The float source equals the float destination of a VFCVT (R166). -/
def cvtSame : CvtDst → CvtSrc → Bool
  | .f32, .f32 | .bf16, .bf16 | .f16, .f16 | .e4m3, .e4m3 | .e5m2, .e5m2 => true
  | _, _ => false
def CvtDst.isInt : CvtDst → Bool
  | .i32 | .i16 | .i8 => true
  | _ => false
def CvtSrc.isInt : CvtSrc → Bool
  | .i32 | .i8 => true
  | _ => false
/-- The conversions of R166 that are always exact. -/
def cvtExact : CvtDst → CvtSrc → Bool
  | .f32, .bf16 | .f32, .f16 => true
  | .f32, s | .bf16, s | .f16, s => s == .e4m3 || s == .e5m2 || s == .pw8 || s == .i8
  | _, _ => false
/-- The exact scalar conversions of R117. -/
def SfConv.exact : SfConv → Bool
  | .bf16f32 | .f16f32 => true
  | _ => false
/-- Whether a P form's format is float (R55). -/
def PFmt.isFloat : PFmt → Bool
  | .f32 | .bf16 => true
  | _ => false
/-- System registers that exist (R121). -/
def sysAssigned (k : Nat) : Bool :=
  k ≤ 6 || k == 0x10 || k == 0x11 || (0x20 ≤ k && k ≤ 0x22) || k == 0x30 || k == 0x31 ||
  (0x40 ≤ k && k ≤ 0x44) || (0x50 ≤ k && k ≤ 0x54) || (0x60 ≤ k && k ≤ 0x73) ||
  (0x80 ≤ k && k ≤ 0x8F) || (0xA0 ≤ k && k ≤ 0xBF)
/-- System registers that an SRW may name: those whose write entry is task or supervisor (R121, R125). -/
def sysWritable (k : Nat) : Bool :=
  k == 0x10 || k == 0x11 || k == 0x41 || (0x60 ≤ k && k ≤ 0x73) || (0x80 ≤ k && k ≤ 0x8F) ||
  (0xA0 ≤ k && k ≤ 0xBF)

/-- Whether an instruction's operands fit their fields, by the rule of its form. -/
def Instr.wellFormed : Instr → Bool
  | .br o | .call o => offOk o
  | .bri a | .calli a | .brswap a => sOk a
  | .bc _ a o => sOk a && offOk o
  | .bp _ p o => pOk p && offOk o
  | .ret | .lend | .halt | .rft | .rstrt => true
  | .loop a stg o => sOk a && stg < 8 && offOk o
  | .lbrk k => k < 6
  | .trap k => k < 65536
  | .pwin a m => sOk a && m < 256
  | .add d a b | .sub d a b | .and d a b | .or d a b | .xor d a b | .andn d a b | .shl d a b
  | .shr d a b | .sar d a b | .rol d a b | .min d a b | .max d a b | .minn d a b | .maxn d a b
  | .bfi d a b | .smix d a b | .mul d a b | .mulh d a b | .mulhn d a b | .madd d a b
  | .div d a b | .divn d a b | .rem d a b | .remn d a b => sOk d && sOk a && b.ok
  | .scmp _ d a b => sOk d && sOk a && b.ok
  | .sel d a b c => sOk d && sOk a && b.ok && sOk c
  | .movl m d a b => sOk d && sOk a && b.ok && (m == .hk || a == 0)
  | .ext _ _ d a | .clz d a | .ctz d a | .popc d a => sOk d && sOk a
  | .bfx _ d a b => sOk d && sOk a && b.ok
  | .lea d a b sh => sOk d && sOk a && b.ok && sh < 16
  | .lidx d a b n => sOk d && sOk a && b.ok && n < 6
  | .sfadd _ _ d a b | .sfmul _ _ d a b | .sfma _ _ d a b | .sfcmp _ _ d a b => sOk d && sOk a && b.ok
  | .sfcvt c rm d a => sOk d && sOk a && (!c.exact || rm == .rne)
  | .lds z sx t ea | .gld z sx t ea => sOk t && ea.ok && z.signOk sx && pairOk z t
  | .sts z _ t ea | .gst z t ea => sOk t && ea.ok && pairOk z t
  | .ldv t ea | .stv t ea | .gldv t ea | .gstv t ea | .ldb _ t ea => vOk t && ea.ok
  | .ldr k t ea => k < 4 && vOk t && ea.ok
  | .str k _ t ea => k < 4 && vOk t && ea.ok
  | .amo op t ea | .gamo op t ea => sOk t && ea.ok && casOk op t
  | .pseal t ea | .pstat _ t ea => sOk t && ea.ok
  | .vfadd _ _ d a b g | .vfsub _ _ d a b g | .vfmul _ _ d a b g => vOk d && a.ok && b.ok && g.ok
  | .vfma _ _ d a b c g | .vfms _ _ d a b c g | .vfnma _ _ d a b c g =>
      vOk d && a.ok && b.ok && c.ok && g.ok
  | .vfmin _ d a b g | .vfmax _ d a b g => vOk d && a.ok && b.ok && g.ok
  | .vfabs _ d a g | .vfneg _ d a g => vOk d && a.ok && g.ok
  | .vfcmp _ _ p a b g => pdOk p && a.ok && b.ok && g.ok
  | .vfrcp _ _ d a g | .vfrsq _ _ d a g | .vfexp2 _ _ d a g => vOk d && a.ok && g.ok
  | .vfcvt dst src rm sat part d a g =>
      vOk d && a.ok && g.ok && !cvtSame dst src && !(dst.isInt && src.isInt) && !(sat && dst.isInt) &&
      part < parts src.bytes dst.bytes && !(cvtExact dst src && (sat || rm != .rne))
  | .vfscl _ _ bcst _ d a b g =>
      vOk d && a.ok && b.okScale && g.ok && (match b with | .lit _ => !bcst | .reg _ => true)
  | .vadd _ _ d a b g | .vsub _ _ d a b g | .vmul _ _ d a b g => vOk d && a.ok && b.ok && g.ok
  | .vmulh _ d a b g | .vshl _ d a b g | .vshr _ d a b g | .vsar _ d a b g | .vand _ d a b g
  | .vor _ d a b g | .vxor _ d a b g | .vandn _ d a b g | .vmin _ d a b g | .vmax _ d a b g =>
      vOk d && a.ok && b.ok && g.ok
  | .vdot4 _ acc d a b c g => vOk d && a.ok && b.ok && g.ok && (if acc then c.ok else c.n == 0 && !c.held)
  | .vabs f _ d a g => vOk d && a.ok && g.ok && (f == .i8 || f == .i16 || f == .i32)
  | .vcmp _ _ p a b g => pdOk p && a.ok && b.ok && g.ok
  | .vsel _ d a b p g => vOk d && a.ok && b.ok && pOk p && g.ok
  | .vsat f k d a g => vOk d && a.ok && g.ok && 1 ≤ k && k ≤ 8 * f.bytes
  | .vcvt f s _ part d a g => vOk d && a.ok && g.ok && part < parts s.bytes f.bytes
  | .vclz _ d a g | .vpopc _ d a g => vOk d && a.ok && g.ok
  | .vidx _ step d b g => vOk d && b.ok && g.ok && step < 64
  | .vsmix _ d a b g => vOk d && a.ok && b.ok && g.ok
  | .vbcs _ d b g => vOk d && b.ok && g.ok
  | .vperm _ d a b g => vOk d && a.ok && b.ok && g.ok
  | .vrot _ d a b g => vOk d && a.ok && b.ok && g.ok
  | .vshuf _ pat d a b g =>
      vOk d && a.ok && g.ok && (if pat == .rev then b == .vec ⟨0, false⟩ else b.ok)
  | .vrmg _ d a b c g => vOk d && a.ok && b.ok && sOk c && g.ok
  | .vwin _ k d a b g => vOk d && a.ok && b.ok && g.ok && k < 64
  | .vred f _ rm _ d a g => vOk d && a.ok && g.ok && (f.isFloat || rm == .rne)
  | .vscan f _ _ rm _ d a g => vOk d && a.ok && g.ok && (f.isFloat || rm == .rne)
  | .vpack f rm _ d a b g =>
      vOk d && a.ok && b.ok && g.ok && (f == .f32 || rm == .rne) &&
      (f == .i16 || f == .i32 || f == .n16 || f == .n32 || f == .f32)
  | .vunpk f _ d a g =>
      vOk d && a.ok && g.ok && (f == .i8 || f == .i16 || f == .n8 || f == .n16 || f == .bf16)
  | .vext _ d a b => sOk d && a.ok && b.ok
  | .vins _ d a b => vOk d && sOk a && b.ok
  | .pand d a b | .por d a b | .pxor d a b => pdOk d && pOk a && pOk b
  | .pnot d a => pdOk d && pOk a
  | .pmov p2v d a => if p2v then vOk d && pOk a.n && !a.held else pdOk d && a.ok
  | .bcopy _ d s c | .tcopy _ d s c => sOk d && s.ok && sOk c
  | .bfill _ _ d v c => sOk d && v.ok && sOk c
  | .bchk k a b => k < 4 && sOk a && b.ok
  | .ifill _ a b => sOk a && b.ok
  | .send l v p | .mcast l v p => l < 4 && vOk v && p.ok
  | .sends a p => sOk a && p.ok
  | .recv v p => vOk v && p.ok
  | .recvs t p => sOk t && p.ok
  | .signal a b | .barwt a b | .sigwt a b => sOk a && b.ok
  | .bararr t b | .bardrp t b => sOk t && b.ok
  | .dqpush t a b => sOk t && sOk a && b.ok
  | .dqpop t b | .dqsteal t b => sOk t && t % 2 == 0 && b.ok
  | .launch t a => sOk t && sOk a
  | .twait b => b.ok
  | .mlease t => sOk t
  | .mrel | .mcfg => true
  | .tload m tr q n a b => n < 16 && sOk a && b.ok && !(m && (tr || q))
  | .tstore _ tile a b => tile < 20 && sOk a && b.ok
  | .tzero tile => tile < 20
  | .mma _ _ acc a w => acc < 4 && a < 16 && w < 16
  | .tcvt _ _ n acc k => n < 16 && acc < 4 && k.ok
  | .tscl n a b => n < 16 && sOk a && b.ok
  | .cboard _ a n => sOk a && n.ok
  | .calight _ cp t a n => sOk t && sOk a && n.ok && (cp || a == 0)
  | .ccatch _ t a n | .ccatchv _ t a n | .crepl _ t a n => sOk t && sOk a && n.ok
  | .crost _ t n => sOk t && n.ok
  | .srr d k => sOk d && k < 4096 && sysAssigned k
  | .srw k b => k < 4096 && sysWritable k && b.ok
  | .rdtt d | .rdwt d => sOk d
  | .scld n a b => n < 16 && sOk a && b.ok
  | .fence _ | .ifence | .crclose | .scangap => true
  | .cropen b => b.ok
  | .evctl _ _ b => b.ok
  | _ => true

end Sys2Proof
end

