-- ==== Sys2Proof/Machine/Fp.lean ====
section
/-! DEFINITION. Float formats and arithmetic: exact values, one rounding, flags (R153-R169, R187). -/
namespace Sys2Proof.Machine
open Sys2Proof

/-- A float format: exponent bits, fraction bits, bias, and whether it is `e4m3`, which has no infinity (R153). -/
structure FSpec where
  eb : Nat
  fb : Nat
  bias : Nat
  e4 : Bool
  deriving DecidableEq, Repr

def specF32 : FSpec := { eb := 8, fb := 23, bias := 127, e4 := false }
def specBf16 : FSpec := { eb := 8, fb := 7, bias := 127, e4 := false }
def specF16 : FSpec := { eb := 5, fb := 10, bias := 15, e4 := false }
def specE4m3 : FSpec := { eb := 4, fb := 3, bias := 7, e4 := true }
def specE5m2 : FSpec := { eb := 5, fb := 2, bias := 15, e4 := false }
def sfSpec : SfFmt → FSpec
  | .f32 => specF32 | .bf16 => specBf16 | .f16 => specF16
def sfBytes : SfFmt → Nat
  | .f32 => 4 | .bf16 => 2 | .f16 => 2

/-- A float value: a NaN, an infinity, or (-1)^neg * m * 2^e exactly. -/
inductive FVal
  | nan (signalling : Bool)
  | inf (neg : Bool)
  | fin (neg : Bool) (m : Nat) (e : Int)
  deriving DecidableEq, Repr

/-- Bits of a format. -/
def FSpec.bits (f : FSpec) : Nat := 1 + f.eb + f.fb
def FSpec.signBit (f : FSpec) : Nat := 2 ^ (f.eb + f.fb)
/-- The canonical NaN (R153). -/
def FSpec.nan (f : FSpec) : Nat :=
  if f.e4 then 0x7F else (2 ^ f.eb - 1) * 2 ^ f.fb + 2 ^ (f.fb - 1)
/-- The greatest finite magnitude (R153). -/
def FSpec.maxFin (f : FSpec) : Nat :=
  if f.e4 then 0x7E else (2 ^ f.eb - 2) * 2 ^ f.fb + (2 ^ f.fb - 1)
/-- An infinity's bits; in `e4m3` an infinite result is the NaN (R159). -/
def FSpec.inf (f : FSpec) (neg : Bool) : Nat :=
  if f.e4 then 0x7F else bit neg * f.signBit + (2 ^ f.eb - 1) * 2 ^ f.fb
def FSpec.signed (f : FSpec) (neg : Bool) (mag : Nat) : Nat := bit neg * f.signBit + mag

/-- The value of an encoding (R153, R154). -/
def FSpec.decode (f : FSpec) (x : Nat) : FVal :=
  let neg := x / f.signBit % 2 == 1
  let e := x / 2 ^ f.fb % 2 ^ f.eb
  let m := x % 2 ^ f.fb
  if f.e4 then
    if e == 15 && m == 7 then .nan false
    else if e == 0 then .fin neg m (1 - (f.bias : Int) - f.fb)
    else .fin neg (m + 2 ^ f.fb) ((e : Int) - f.bias - f.fb)
  else if e == 2 ^ f.eb - 1 then
    if m == 0 then .inf neg else .nan (m < 2 ^ (f.fb - 1))
  else if e == 0 then .fin neg m (1 - (f.bias : Int) - f.fb)
  else .fin neg (m + 2 ^ f.fb) ((e : Int) - f.bias - f.fb)

/-- A `pw8` byte's value in sixty-fourths; zero decodes as +0 (R156). -/
def pw8Term (s e : Nat) : Int := if e == 7 then 0 else (if s == 1 then -1 else 1) * ((2 : Int) ^ (6 - e))
def pw8Int (x : Nat) : Int := pw8Term (x / 128 % 2) (x / 16 % 8) + pw8Term (x / 8 % 2) (x % 8)
def pw8Val (x : Nat) : FVal := .fin (pw8Int x < 0) (pw8Int x).natAbs (-6)

/-- Bits of a number. -/
def bitLen (n : Nat) : Nat := if n == 0 then 0 else Nat.log2 n + 1

/-- Whether a magnitude n + r/2^s of which `n` is kept rounds up (R159). -/
def roundsUp (rm : RMode) (neg : Bool) (n r half : Nat) : Bool :=
  match rm with
  | .rne => half < r || (r == half && n % 2 == 1)
  | .rtz => false
  | .rup => r != 0 && !neg
  | .rdn => r != 0 && neg

/-- The magnitude m * 2^e as a multiple of 2^q, rounded; and whether that was inexact. -/
def roundAt (rm : RMode) (neg : Bool) (m : Nat) (e q : Int) : Nat × Bool :=
  if q ≤ e then (m * 2 ^ (e - q).toNat, false)
  else
    let s := (q - e).toNat
    let n := m / 2 ^ s
    let r := m % 2 ^ s
    (if roundsUp rm neg n r (2 ^ (s - 1)) then n + 1 else n, r != 0)

/-- The exact value (-1)^neg * m * 2^e, not zero, rounded once to a format (R159): bits and flags. -/
def FSpec.roundNZ (f : FSpec) (rm : RMode) (neg : Bool) (m : Nat) (e : Int) (sat : Bool) : Nat × Nat :=
  let emin : Int := 1 - f.bias
  let top : Int := (bitLen m : Int) - 1 + e
  let qu := top - f.fb
  let (nu, _) := roundAt rm neg m e qu
  let tiny : Bool := (if nu == 2 ^ (f.fb + 1) then top + 1 else top) < emin
  let q := max qu (emin - f.fb)
  let (n, inexact) := roundAt rm neg m e q
  let (n1, q1) := if n == 2 ^ (f.fb + 1) then (2 ^ f.fb, q + 1) else (n, q)
  if n1 < 2 ^ f.fb then (f.signed neg n1, roundFlags false tiny inexact)
  else
    let mag : Nat := (q1 + f.fb + f.bias).toNat * 2 ^ f.fb + (n1 - 2 ^ f.fb)
    if f.maxFin < mag then
      let toInf : Bool := match rm with
        | .rne => true
        | .rtz => false
        | .rup => !neg
        | .rdn => neg
      (if sat || !toInf then f.signed neg f.maxFin else f.inf neg, roundFlags true tiny true)
    else (f.signed neg mag, roundFlags false tiny inexact)

/-- As `roundNZ`, a zero keeping its sign. -/
def FSpec.round (f : FSpec) (rm : RMode) (neg : Bool) (m : Nat) (e : Int) (sat : Bool) : Nat × Nat :=
  if m == 0 then (f.signed neg 0, 0) else f.roundNZ rm neg m e sat

/-- A magnitude strictly between m and m + 1 units of 2^e, where m has bits to spare, rounded. -/
def FSpec.roundSticky (f : FSpec) (rm : RMode) (neg : Bool) (m : Nat) (e : Int) (exact : Bool) : Nat × Nat :=
  if exact then f.round rm neg m e false else f.round rm neg (2 * m + 1) (e - 1) false

/-! ## Exact arithmetic -/

def sInt (neg : Bool) (m : Nat) : Int := if neg then -(m : Int) else m
/-- The exact sum of two finite values; an exact zero has the sign of R159. -/
def addFin (rm : RMode) (n1 : Bool) (m1 : Nat) (e1 : Int) (n2 : Bool) (m2 : Nat) (e2 : Int) : Bool × Nat × Int :=
  let e := min e1 e2
  let t := sInt n1 m1 * 2 ^ (e1 - e).toNat + sInt n2 m2 * 2 ^ (e2 - e).toNat
  if t == 0 then (if m1 == 0 && m2 == 0 && n1 == n2 then n1 else rm == .rdn, 0, e)
  else (t < 0, t.natAbs, e)

def FVal.isNan : FVal → Bool
  | .nan _ => true
  | _ => false
def FVal.isSig : FVal → Bool
  | .nan s => s
  | _ => false
def FVal.neg : FVal → FVal
  | .nan s => .nan s
  | .inf n => .inf (!n)
  | .fin n m e => .fin (!n) m e

/-- a + b of two values, neither a NaN; the canonical NaN and invalid where infinities cancel (R162). -/
def FSpec.addV (f : FSpec) (rm : RMode) (a b : FVal) : Nat × Nat :=
  match a, b with
  | .nan _, _ | _, .nan _ => (f.nan, 0)
  | .inf n, .inf k => if n == k then (f.inf n, 0) else (f.nan, flagNV)
  | .inf n, .fin .. => (f.inf n, 0)
  | .fin .., .inf n => (f.inf n, 0)
  | .fin n1 m1 e1, .fin n2 m2 e2 =>
    let (n, m, e) := addFin rm n1 m1 e1 n2 m2 e2
    f.round rm n m e false

/-- a × b, exact; `none` for 0 × ∞. -/
def mulV (a b : FVal) : Option FVal :=
  match a, b with
  | .nan s, _ => some (.nan s)
  | _, .nan s => some (.nan s)
  | .inf n, .inf k => some (.inf (n != k))
  | .inf n, .fin k m _ => if m == 0 then none else some (.inf (n != k))
  | .fin k m _, .inf n => if m == 0 then none else some (.inf (n != k))
  | .fin n m e, .fin k m' e' => some (.fin (n != k) (m * m') (e + e'))

/-- Addition, by the rows of R162. -/
def FSpec.add (f : FSpec) (rm : RMode) (x y : Nat) : Nat × Nat :=
  let a := f.decode x
  let b := f.decode y
  if a.isSig || b.isSig then (f.nan, flagNV)
  else if a.isNan || b.isNan then (f.nan, 0)
  else f.addV rm a b
/-- Negation of an encoding's sign. -/
def FSpec.flip (f : FSpec) (x : Nat) : Nat := (x % 2 ^ f.bits) ^^^ f.signBit
/-- Subtraction: a + (−b), a NaN b staying a NaN. -/
def FSpec.sub (f : FSpec) (rm : RMode) (x y : Nat) : Nat × Nat := f.add rm x (f.flip y)
/-- Multiplication, by the rows of R162. -/
def FSpec.mul (f : FSpec) (rm : RMode) (x y : Nat) : Nat × Nat :=
  let a := f.decode x
  let b := f.decode y
  if a.isSig || b.isSig then (f.nan, flagNV)
  else
    match mulV a b with
    | none => (f.nan, flagNV)
    | some (.nan _) => (f.nan, 0)
    | some (.inf n) => (f.inf n, 0)
    | some (.fin n m e) => f.round rm n m e false
/-- a × b + c rounded once, by the rows of R162. -/
def FSpec.fma (f : FSpec) (rm : RMode) (x y z : Nat) : Nat × Nat :=
  let a := f.decode x
  let b := f.decode y
  let c := f.decode z
  if a.isSig || b.isSig || c.isSig then (f.nan, flagNV)
  else
    match mulV a b with
    | none => (f.nan, flagNV)
    | some p => if p.isNan || c.isNan then (f.nan, 0) else f.addV rm p c
/-- a × b − c. -/
def FSpec.fms (f : FSpec) (rm : RMode) (x y z : Nat) : Nat × Nat := f.fma rm x y (f.flip z)
/-- c − a × b. -/
def FSpec.fnma (f : FSpec) (rm : RMode) (x y z : Nat) : Nat × Nat := f.fma rm (f.flip x) y z

/-- Order of two values that are not NaNs: a sign-ordered key, −0 below +0. -/
def ltFin (n1 : Bool) (m1 : Nat) (e1 : Int) (n2 : Bool) (m2 : Nat) (e2 : Int) : Bool :=
  let e := min e1 e2
  sInt n1 m1 * 2 ^ (e1 - e).toNat < sInt n2 m2 * 2 ^ (e2 - e).toNat
/-- a < b for values that are not NaNs, −0 = +0. -/
def FVal.lt : FVal → FVal → Bool
  | .inf n, .inf k => n && !k
  | .inf n, .fin .. => n
  | .fin .., .inf n => !n
  | .fin n m e, .fin k m' e' => ltFin n m e k m' e'
  | _, _ => false
def FVal.isNegZero : FVal → Bool
  | .fin true 0 _ => true
  | _ => false
def FVal.isPosZero : FVal → Bool
  | .fin false 0 _ => true
  | _ => false
/-- a below b with −0 below +0 (R149, R162). -/
def FVal.below (a b : FVal) : Bool := a.lt b || (a.isNegZero && b.isPosZero)
/-- minimumNumber and maximumNumber (R162). -/
def FSpec.minMax (f : FSpec) (wantMax : Bool) (x y : Nat) : Nat × Nat :=
  let a := f.decode x
  let b := f.decode y
  let fl := nvIf (a.isSig || b.isSig)
  if a.isNan && b.isNan then (f.nan, fl)
  else if a.isNan then (y % 2 ^ f.bits, fl)
  else if b.isNan then (x % 2 ^ f.bits, fl)
  else (if (if wantMax then a.below b else b.below a) then y % 2 ^ f.bits else x % 2 ^ f.bits, fl)

/-- The comparisons of R118 and R164: whether it holds, and the flags. -/
def FSpec.cmp (f : FSpec) (c : FCond) (x y : Nat) : Bool × Nat :=
  let a := f.decode x
  let b := f.decode y
  let un := a.isNan || b.isNan
  let sig := a.isSig || b.isSig
  match c with
  | .eq => (!un && !a.lt b && !b.lt a, nvIf sig)
  | .lt => (!un && a.lt b, nvIf un)
  | .le => (!un && !b.lt a, nvIf un)
  | .un => (un, nvIf sig)

/-! ## Reciprocal, reciprocal square root, power of two (R165) -/

def FSpec.rcp (f : FSpec) (rm : RMode) (x : Nat) : Nat × Nat :=
  match f.decode x with
  | .nan s => (f.nan, nvIf s)
  | .inf n => (f.signed n 0, 0)
  | .fin n m e =>
    if m == 0 then (f.inf n, flagDZ)
    else
      let k := bitLen m + 64
      f.roundSticky rm n (2 ^ k / m) (-(k : Int) - e) (2 ^ k % m == 0)

/-- The integer square root, one bit at a time from bit `k - 1` down. -/
def isqrtFrom (n : Nat) : Nat → Nat → Nat
  | 0, r => r
  | k + 1, r =>
    let t := r + 2 ^ k
    isqrtFrom n k (if t * t ≤ n then t else r)
def isqrt (n : Nat) : Nat := isqrtFrom n (bitLen n / 2 + 1) 0

def FSpec.rsq (f : FSpec) (rm : RMode) (x : Nat) : Nat × Nat :=
  match f.decode x with
  | .nan s => (f.nan, nvIf s)
  | .inf n => if n then (f.nan, flagNV) else (0, 0)
  | .fin n m e =>
    if m == 0 then (f.inf n, flagDZ)
    else if n then (f.nan, flagNV)
    else
      let (m1, e1) := if e % 2 == 0 then (m, e) else (2 * m, e - 1)
      let k := bitLen m1 + 64
      let q := 2 ^ (2 * k) / m1
      let r := isqrt q
      f.roundSticky rm false r (-(k : Int) - e1 / 2) (r * r * m1 == 2 ^ (2 * k))

/-- Fraction bits of the working precision of 2^f. -/
def expPrec : Nat := 512
/-- 2 to the fraction 0.b1…bk, whose bits are the low `k` bits of `v`, in units of 2^-expPrec, rounded down:
from the lowest bit up, r ← sqrt(r × 2^b). Error below 2^-500, so that one rounding is right (DEDUCED, log 7). -/
def exp2Frac (v : Nat) : Nat → Nat
  | 0 => 2 ^ expPrec
  | k + 1 => exp2Step v k (2 ^ expPrec) (k + 1)
where
  exp2Step (v top r : Nat) : Nat → Nat
    | 0 => r
    | j + 1 =>
      let i := top - j
      exp2Step v top (isqrt ((if v / 2 ^ i % 2 == 1 then 2 * r else r) * 2 ^ expPrec)) j

/-- 2^a, correctly rounded; exact for an integer a (R165). -/
def FSpec.exp2 (f : FSpec) (rm : RMode) (x : Nat) : Nat × Nat :=
  match f.decode x with
  | .nan s => (f.nan, nvIf s)
  | .inf n => if n then (0, 0) else (f.inf false, 0)
  | .fin n m e =>
    if m == 0 then f.round rm false 1 0 false
    else if 0 ≤ e || m % 2 ^ (-e).toNat == 0 then
      let i := sInt n (if 0 ≤ e then m * 2 ^ (min e 64).toNat else m / 2 ^ (-e).toNat)
      f.round rm false 1 (max (min i 100000) (-100000)) false
    else
      let k := (-e).toNat
      let t := sInt n m
      let i := t.fdiv (2 ^ k)
      let fr := (t.fmod (2 ^ k)).toNat
      f.roundSticky rm false (exp2Frac fr k) (max (min i 100000) (-100000) - expPrec) false

/-! ## Conversions (R117, R166) -/

/-- A value converted to a format (R166). -/
def FSpec.convert (f : FSpec) (rm : RMode) (sat : Bool) : FVal → Nat × Nat
  | .nan s => (f.nan, nvIf s)
  | .inf n => (if sat then f.signed n f.maxFin else f.inf n, 0)
  | .fin n m e => f.round rm n m e sat
/-- A value rounded to an integer between two bounds (R117, R166): NaN gives 0, out of range the bound. -/
def toInt (rm : RMode) (lo hi : Int) : FVal → Int × Nat
  | .nan _ => (0, flagNV)
  | .inf n => (if n then lo else hi, flagNV)
  | .fin n m e =>
    let (k, inexact) := roundAt rm n m e 0
    let i := sInt n k
    if i < lo then (lo, flagNV) else if hi < i then (hi, flagNV) else (i, if inexact then flagNX else 0)
/-- An integer as a value. -/
def intVal (i : Int) : FVal := .fin (i < 0) i.natAbs 0

/-- Scaling by 2^(k − 127), or by its inverse; 255 is the NaN scale (R157, R169). -/
def FSpec.scale (f : FSpec) (rm : RMode) (inv : Bool) (k x : Nat) : Nat × Nat :=
  if k == 255 then (f.nan, flagNV)
  else
    match f.decode x with
    | .nan s => (f.nan, nvIf s)
    | .inf n => (f.inf n, 0)
    | .fin n m e => f.round rm n m (e + (if inv then 127 - (k : Int) else (k : Int) - 127)) false

/-- The float add of AMO and GAMO: an exact zero sum of opposite signs is +0 (R187, R208). -/
def FSpec.amoAdd (f : FSpec) (x y : Nat) : Nat × Nat := f.add .rne x y

end Sys2Proof.Machine
end

