-- ==== Sys2Proof/Decode.lean ====
section
/-! DEFINITION. The slot words, the decoder of each class with the rejection codes of R66, the decoder
of a bundle, and the encoder, all written from the encoding tables of the spec (R43-R58, R65). -/
namespace Sys2Proof

/-- The classes of slot operations (R46). -/
inductive Cls | c | a | m | f | i | p | e | x
  deriving DecidableEq, Repr

/-- What the decoder answers: an instruction, or the lowest code of R66 that rejects the word. -/
inductive Verdict
  | ok (i : Instr)
  | bad (code : Nat)
  deriving DecidableEq, Repr

/-- One check: the code it rejects with, and whether it holds. -/
def ck (code : Nat) (b : Bool) : Nat × Bool := (code, b)

/-- The lowest code among the failed checks, 0 when none failed (R66). -/
def failing : List (Nat × Bool) → Nat
  | [] => 0
  | (c, ok) :: rest =>
    let r := failing rest
    if ok then r else if r == 0 then c else min c r

/-- An instruction, unless one of its checks failed. -/
def judge (i : Instr) (cs : List (Nat × Bool)) : Verdict :=
  match failing cs with
  | 0 => .ok i
  | c => .bad c

/-- As `judge`, where a field's code may name nothing: then its own check fails too. -/
def judgeWith {α : Type} (o : Option α) (code : Nat) (k : α → Instr) (cs : List (Nat × Bool)) : Verdict :=
  match o with
  | some v => judge (k v) cs
  | none => .bad (failing ((code, false) :: cs))

/-! ## The words -/

/-- A C word (R53, R85). -/
structure CWord where
  op : Nat
  lo : Nat
  deriving DecidableEq, Repr
/-- An A word (R49). -/
structure AWord where
  op : Nat
  sd : Nat
  sa : Nat
  sb : Nat
  ls : Nat
  m6 : Nat
  deriving DecidableEq, Repr
/-- An M word (R50). -/
structure MWord where
  op : Nat
  rt : Nat
  sb : Nat
  ls : Nat
  off5 : Nat
  q : Nat
  deriving DecidableEq, Repr
/-- An E word (R51). -/
structure EWord where
  op : Nat
  sa : Nat
  sb : Nat
  sc : Nat
  ls : Nat
  m6 : Nat
  deriving DecidableEq, Repr
/-- An X word (R52). -/
structure XWord where
  op : Nat
  s1 : Nat
  s2 : Nat
  ls : Nat
  k12 : Nat
  deriving DecidableEq, Repr
/-- An F, I or P word (R54). -/
structure VWord where
  op : Nat
  fmt : Nat
  rm : Nat
  sat : Nat
  vd : Nat
  va : Nat
  vb : Nat
  vc : Nat
  ha : Nat
  hb : Nat
  hc : Nat
  pr : Nat
  ps : Nat
  ls : Nat
  m6 : Nat
  deriving DecidableEq, Repr

def CWord.ofNat (w : Nat) : CWord := { op := field 31 26 w, lo := field 25 0 w }
def CWord.toNat (x : CWord) : Nat := x.op * 2 ^ 26 + x.lo
def AWord.ofNat (w : Nat) : AWord :=
  { op := field 31 26 w, sd := field 25 20 w, sa := field 19 14 w, sb := field 13 8 w,
    ls := field 7 6 w, m6 := field 5 0 w }
def AWord.toNat (x : AWord) : Nat :=
  x.op * 2 ^ 26 + x.sd * 2 ^ 20 + x.sa * 2 ^ 14 + x.sb * 2 ^ 8 + x.ls * 2 ^ 6 + x.m6
def MWord.ofNat (w : Nat) : MWord :=
  { op := field 31 26 w, rt := field 25 17 w, sb := field 16 11 w, ls := field 10 9 w,
    off5 := field 8 4 w, q := field 3 0 w }
def MWord.toNat (x : MWord) : Nat :=
  x.op * 2 ^ 26 + x.rt * 2 ^ 17 + x.sb * 2 ^ 11 + x.ls * 2 ^ 9 + x.off5 * 2 ^ 4 + x.q
def EWord.ofNat (w : Nat) : EWord :=
  { op := field 31 26 w, sa := field 25 20 w, sb := field 19 14 w, sc := field 13 8 w,
    ls := field 7 6 w, m6 := field 5 0 w }
def EWord.toNat (x : EWord) : Nat :=
  x.op * 2 ^ 26 + x.sa * 2 ^ 20 + x.sb * 2 ^ 14 + x.sc * 2 ^ 8 + x.ls * 2 ^ 6 + x.m6
def XWord.ofNat (w : Nat) : XWord :=
  { op := field 31 26 w, s1 := field 25 20 w, s2 := field 19 14 w, ls := field 13 12 w, k12 := field 11 0 w }
def XWord.toNat (x : XWord) : Nat :=
  x.op * 2 ^ 26 + x.s1 * 2 ^ 20 + x.s2 * 2 ^ 14 + x.ls * 2 ^ 12 + x.k12
def VWord.ofNat (w : Nat) : VWord :=
  { op := field 63 58 w, fmt := field 57 55 w, rm := field 54 53 w, sat := field 52 52 w,
    vd := field 51 43 w, va := field 42 34 w, vb := field 33 25 w, vc := field 24 16 w,
    ha := field 15 15 w, hb := field 14 14 w, hc := field 13 13 w, pr := field 12 9 w,
    ps := field 8 8 w, ls := field 7 6 w, m6 := field 5 0 w }
def VWord.toNat (x : VWord) : Nat :=
  x.op * 2 ^ 58 + x.fmt * 2 ^ 55 + x.rm * 2 ^ 53 + x.sat * 2 ^ 52 + x.vd * 2 ^ 43 + x.va * 2 ^ 34 +
  x.vb * 2 ^ 25 + x.vc * 2 ^ 16 + x.ha * 2 ^ 15 + x.hb * 2 ^ 14 + x.hc * 2 ^ 13 + x.pr * 2 ^ 9 +
  x.ps * 2 ^ 8 + x.ls * 2 ^ 6 + x.m6

/-! ## The codes of the enumerations -/

/-- R56. -/
def rmOf : Nat → RMode
  | 0 => .rne | 1 => .rtz | 2 => .rup | _ => .rdn
def rmCode : RMode → Nat
  | .rne => 0 | .rtz => 1 | .rup => 2 | .rdn => 3
/-- R116, R161. -/
def sfFmtOf : Nat → Option SfFmt
  | 0 => some .f32 | 1 => some .bf16 | 2 => some .f16 | _ => none
def sfFmtCode : SfFmt → Nat
  | .f32 => 0 | .bf16 => 1 | .f16 => 2
/-- The I column of R55. -/
def iFmtOf : Nat → Option IFmt
  | 0 => some .i8 | 1 => some .i16 | 2 => some .i32 | 4 => some .n8 | 5 => some .n16 | 6 => some .n32
  | _ => none
def iFmtCode : IFmt → Nat
  | .i8 => 0 | .i16 => 1 | .i32 => 2 | .n8 => 4 | .n16 => 5 | .n32 => 6
/-- The P column of R55. -/
def pFmtOf : Nat → PFmt
  | 0 => .i8 | 1 => .i16 | 2 => .i32 | 3 => .f32 | 4 => .n8 | 5 => .n16 | 6 => .n32 | _ => .bf16
def pFmtCode : PFmt → Nat
  | .i8 => 0 | .i16 => 1 | .i32 => 2 | .f32 => 3 | .n8 => 4 | .n16 => 5 | .n32 => 6 | .bf16 => 7
/-- R87. -/
def bCondOf : Nat → Option BCond
  | 0 => some .eq | 1 => some .ne | 2 => some .lt | 3 => some .ge | 4 => some .gt | 5 => some .le
  | _ => none
def bCondCode : BCond → Nat
  | .eq => 0 | .ne => 1 | .lt => 2 | .ge => 3 | .gt => 4 | .le => 5
def bTestOf : Nat → BTest
  | 0 => .any | 1 => .all | 2 => .none | _ => .nall
def bTestCode : BTest → Nat
  | .any => 0 | .all => 1 | .none => 2 | .nall => 3
/-- R106. -/
def sCondOf : Nat → Option SCond
  | 0 => some .eq | 1 => some .ne | 2 => some .lt | 3 => some .ge | 4 => some .ltn | 5 => some .gen
  | _ => none
def sCondCode : SCond → Nat
  | .eq => 0 | .ne => 1 | .lt => 2 | .ge => 3 | .ltn => 4 | .gen => 5
/-- R118, R164. -/
def fCondOf : Nat → FCond
  | 0 => .eq | 1 => .lt | 2 => .le | _ => .un
def fCondCode : FCond → Nat
  | .eq => 0 | .lt => 1 | .le => 2 | .un => 3
/-- R141. -/
def vCondOf : Nat → VCond
  | 0 => .eq | 1 => .ne | 2 => .lt | _ => .le
def vCondCode : VCond → Nat
  | .eq => 0 | .ne => 1 | .lt => 2 | .le => 3
/-- R108. -/
def movOf : Nat → MovMode
  | 0 => .lo | 1 => .lz | 2 => .hi | _ => .hk
def movCode : MovMode → Nat
  | .lo => 0 | .lz => 1 | .hi => 2 | .hk => 3
/-- R109. -/
def extOf : Nat → Option ExtW
  | 0 => some .w8 | 1 => some .w16 | 2 => some .w32 | _ => none
def extCode : ExtW → Nat
  | .w8 => 0 | .w16 => 1 | .w32 => 2
/-- R117. -/
def sfConvOf : Nat → Option SfConv
  | 0 => some .f32bf16 | 1 => some .f32f16 | 2 => some .bf16f32 | 3 => some .f16f32 | 4 => some .f32i32
  | 5 => some .f32n32 | 6 => some .f32i64 | 7 => some .f32n64 | 8 => some .i32f32 | 9 => some .n32f32
  | 10 => some .i64f32 | 11 => some .n64f32 | _ => none
def sfConvCode : SfConv → Nat
  | .f32bf16 => 0 | .f32f16 => 1 | .bf16f32 => 2 | .f16f32 => 3 | .f32i32 => 4 | .f32n32 => 5
  | .f32i64 => 6 | .f32n64 => 7 | .i32f32 => 8 | .n32f32 => 9 | .i64f32 => 10 | .n64f32 => 11
/-- R182. -/
def sizeOf' : Nat → Option MSize
  | 0 => some .b1 | 1 => some .b2 | 2 => some .b4 | 3 => some .b8 | 4 => some .b16 | _ => none
def sizeCode : MSize → Nat
  | .b1 => 0 | .b2 => 1 | .b4 => 2 | .b8 => 3 | .b16 => 4
/-- R186. -/
def amoOf : Nat → Option AmoOp
  | 0 => some .addI64 | 1 => some .addI32 | 2 => some .andI64 | 3 => some .orI64 | 4 => some .xorI64
  | 5 => some .minI64 | 6 => some .maxI64 | 7 => some .minN64 | 8 => some .maxN64 | 9 => some .swapI64
  | 10 => some .swapI32 | 11 => some .casI64 | 12 => some .casI32 | 13 => some .faddF32
  | 14 => some .faddBf16 | _ => none
def amoCode : AmoOp → Nat
  | .addI64 => 0 | .addI32 => 1 | .andI64 => 2 | .orI64 => 3 | .xorI64 => 4 | .minI64 => 5 | .maxI64 => 6
  | .minN64 => 7 | .maxN64 => 8 | .swapI64 => 9 | .swapI32 => 10 | .casI64 => 11 | .casI32 => 12
  | .faddF32 => 13 | .faddBf16 => 14
/-- R189. -/
def pstatOf : Nat → Option PstatKind
  | 0 => some .stale | 1 => some .poison | 2 => some .health | _ => none
def pstatCode : PstatKind → Nat
  | .stale => 0 | .poison => 1 | .health => 2
/-- R147. -/
def shufOf : Nat → Option Shuf
  | 0 => some .ziplo | 1 => some .ziphi | 2 => some .even | 3 => some .odd | 4 => some .rev | _ => none
def shufCode : Shuf → Nat
  | .ziplo => 0 | .ziphi => 1 | .even => 2 | .odd => 3 | .rev => 4
/-- R149. -/
def redOf : Nat → Option RedOp
  | 0 => some .sum | 1 => some .min | 2 => some .max | _ => none
def redCode : RedOp → Nat
  | .sum => 0 | .min => 1 | .max => 2
/-- R166: `m6`[5] and `fmt`. -/
def cvtDstOf : Nat → Nat → Option CvtDst
  | 0, 0 => some .f32 | 0, 1 => some .bf16 | 0, 2 => some .f16 | 0, 3 => some .e4m3 | 0, 4 => some .e5m2
  | 1, 0 => some .i32 | 1, 1 => some .i16 | 1, 3 => some .i8 | _, _ => none
def cvtDstCode : CvtDst → Nat
  | .f32 | .i32 => 0 | .bf16 | .i16 => 1 | .f16 => 2 | .e4m3 | .i8 => 3 | .e5m2 => 4
def cvtSrcOf : Nat → CvtSrc
  | 0 => .f32 | 1 => .bf16 | 2 => .f16 | 3 => .e4m3 | 4 => .e5m2 | 5 => .pw8 | 6 => .i32 | _ => .i8
def cvtSrcCode : CvtSrc → Nat
  | .f32 => 0 | .bf16 => 1 | .f16 => 2 | .e4m3 => 3 | .e5m2 => 4 | .pw8 => 5 | .i32 => 6 | .i8 => 7
/-- The most parts of a conversion that has a format of so many bytes at one end: a part not below them is below no number of
parts (R143). -/
def anyParts (n : Nat) : Nat := if n == 2 then 2 else 4
/-- R213: `m6`[3:0]. -/
def endsOf : Nat → Option Ends
  | 0 => some .ss | 1 => some .gs | 4 => some .sg | _ => none
def endsCode : Ends → Nat
  | .ss => 0 | .gs => 1 | .sg => 4
/-- R220. -/
def fillOf : Nat → FillSize
  | 0 => .b1 | 1 => .b2 | 2 => .b4 | _ => .b8
def fillCode : FillSize → Nat
  | .b1 => 0 | .b2 => 1 | .b4 => 2 | .b8 => 3
/-- R129. -/
def evOf : Nat → EvOp
  | 0 => .start | 1 => .stop | 2 => .clear | _ => .restart
def evCode : EvOp → Nat
  | .start => 0 | .stop => 1 | .clear => 2 | .restart => 3
/-- R284. -/
def scopeOf : Nat → Option Scope
  | 0 => some .core | 1 => some .gang | 2 => some .die | 3 => some .pkg | 4 => some .pod | _ => none
def scopeCode : Scope → Nat
  | .core => 0 | .gang => 1 | .die => 2 | .pkg => 3 | .pod => 4

/-! ## Shared operands of the decoder -/

/-- The operand that `ls` may replace by a literal word (R57). -/
def srcOf (ls r : Nat) : Src := if ls == 0 then .reg r else .lit (ls - 1)
/-- The field a literal replaces is zero (R57, code 2). -/
def replaced (ls r : Nat) : Nat × Bool := (ck 2 (ls == 0 || r == 0))
/-- A field that the form does not use is zero (R58, code 2). -/
def zero (n : Nat) : Nat × Bool := (ck 2 (n == 0))
def offOf (w : Nat) : Int := signed 17 w
/-- The offset of an M word (R50). -/
def moffOf (x : MWord) : MOff := if x.ls == 0 then .imm (signed 5 x.off5) else .lit (x.ls - 1)
def eaOf (x : MWord) : Ea := { base := x.sb, off := moffOf x }
/-- The checks of every M word: a literal replaces `off5`. -/
def mChk (x : MWord) : Nat × Bool := replaced x.ls x.off5
/-- A scalar in `rt`: bits [25:23] are zero (R50). -/
def mScalar (x : MWord) : Nat × Bool := (ck 2 (x.rt < 64))
/-- A vector in `rt` (R182). -/
def mVector (x : MWord) : Nat × Bool := (ck 3 (x.rt < 384))
def predOf (x : VWord) : PredG := { pr := x.pr, ps := x.ps == 1 }
def vaOf (x : VWord) : VReg := { n := x.va, held := x.ha == 1 }
def vcOf (x : VWord) : VReg := { n := x.vc, held := x.hc == 1 }
def vbOf (x : VWord) : VSrc := if x.ls == 0 then .vec { n := x.vb, held := x.hb == 1 } else .lit (x.ls - 1)
/-- A predicable slot: `(!p0)` is code 3 (R66). -/
def cPred (x : VWord) : List (Nat × Bool) := [(ck 3 (!(x.ps == 1 && x.pr == 0)))]
/-- A slot that is not predicable (R58). -/
def noPred (x : VWord) : List (Nat × Bool) := [zero x.pr, zero x.ps]
def cVd (x : VWord) : List (Nat × Bool) := [(ck 3 (x.vd < 384))]
def cVa (x : VWord) : List (Nat × Bool) := [(ck 3 (x.va < 384))]
/-- A vector b, held or literal (R57): a held b with a literal is code 5. -/
def cVb (x : VWord) : List (Nat × Bool) :=
  [replaced x.ls x.vb, (ck 5 (x.ls == 0 || x.hb == 0)), (ck 3 (x.vb < 384))]
def cVc (x : VWord) : List (Nat × Bool) := [(ck 3 (x.vc < 384))]
def noVa (x : VWord) : List (Nat × Bool) := [zero x.va, zero x.ha]
def noVb (x : VWord) : List (Nat × Bool) := [zero x.vb, zero x.hb, zero x.ls]
def noVc (x : VWord) : List (Nat × Bool) := [zero x.vc, zero x.hc]
/-- A scalar b: the low 6 bits, no hold (R54, R135). -/
def cSb (x : VWord) : List (Nat × Bool) := [(ck 2 (x.vb < 64)), replaced x.ls x.vb, zero x.hb]
/-- A predicate destination: its low 4 bits, not `p0` (R60, codes 2 and 3). -/
def cPd (x : VWord) : List (Nat × Bool) := [(ck 2 (x.vd < 16)), (ck 3 (x.vd % 16 != 0))]
/-- No rounding: `rm` is 00 (R56, code 4). -/
def noRm (x : VWord) : List (Nat × Bool) := [(ck 4 (x.rm == 0))]
def noSat (x : VWord) : List (Nat × Bool) := [zero x.sat]
def noM6 (x : VWord) : List (Nat × Bool) := [zero x.m6]

/-! ## The classes -/

/-- The C forms (R85, R232, R336, R337). -/
def decodeC (x : CWord) : Verdict :=
  let off := offOf x.lo
  let a := field 25 20 x.lo
  match x.op with
  | 0x00 => judge (.br off) [zero (field 25 17 x.lo)]
  | 0x01 => judge (.bri a) [zero (field 19 0 x.lo)]
  | 0x02 => judgeWith (bCondOf (field 19 17 x.lo)) 2 (fun c => .bc c a off) []
  | 0x03 => judge (.bp (bTestOf (field 21 20 x.lo)) (field 25 22 x.lo) off) [zero (field 19 17 x.lo)]
  | 0x04 => judge (.call off) [zero (field 25 17 x.lo)]
  | 0x05 => judge (.calli a) [zero (field 19 0 x.lo)]
  | 0x06 => judge .ret [zero x.lo]
  | 0x07 => judge (.loop a (field 19 17 x.lo) off) []
  | 0x08 => judge .lend [zero x.lo]
  | 0x09 => judge (.lbrk (field 2 0 x.lo)) [zero (field 25 3 x.lo), (ck 2 (field 2 0 x.lo < 6))]
  | 0x0A => judge (.brswap a) [zero (field 19 0 x.lo)]
  | 0x0B => judge (.trap (field 15 0 x.lo)) [zero (field 25 16 x.lo)]
  | 0x0C => judge .halt [zero x.lo]
  | 0x0D => judge .rft [zero x.lo]
  | 0x0E => judge .rstrt [zero x.lo]
  | 0x0F => judge (.pwin a (field 19 12 x.lo)) [zero (field 11 0 x.lo)]
  | _ => .bad 1

/-- The A forms (R97, R102-R118). -/
def decodeA (x : AWord) : Verdict :=
  let b := srcOf x.ls x.sb
  let cb := replaced x.ls x.sb
  let nb := [zero x.sb, zero x.ls]
  let m0 := zero x.m6
  let d := x.sd
  let a := x.sa
  match x.op with
  | 0x00 => judge (.add d a b) [cb, m0]
  | 0x01 => judge (.sub d a b) [cb, m0]
  | 0x02 => judge (.and d a b) [cb, m0]
  | 0x03 => judge (.or d a b) [cb, m0]
  | 0x04 => judge (.xor d a b) [cb, m0]
  | 0x05 => judge (.andn d a b) [cb, m0]
  | 0x06 => judge (.shl d a b) [cb, m0]
  | 0x07 => judge (.shr d a b) [cb, m0]
  | 0x08 => judge (.sar d a b) [cb, m0]
  | 0x09 => judge (.rol d a b) [cb, m0]
  | 0x0A => judge (.min d a b) [cb, m0]
  | 0x0B => judge (.max d a b) [cb, m0]
  | 0x0C => judge (.minn d a b) [cb, m0]
  | 0x0D => judge (.maxn d a b) [cb, m0]
  | 0x0E => judgeWith (sCondOf (field 2 0 x.m6)) 2 (fun c => .scmp c d a b) [cb, zero (field 5 3 x.m6)]
  | 0x0F => judge (.sel d a b x.m6) [cb]
  | 0x10 => judge (.movl (movOf (field 1 0 x.m6)) d a b)
              [cb, zero (field 5 2 x.m6), (ck 2 (field 1 0 x.m6 == 3 || a == 0))]
  | 0x11 => judgeWith (extOf (field 1 0 x.m6)) 2 (fun w => .ext w (bitOf 2 x.m6) d a)
              (zero (field 5 3 x.m6) :: nb)
  | 0x12 => judge (.bfx (bitOf 0 x.m6) d a b) [cb, zero (field 5 1 x.m6)]
  | 0x13 => judge (.bfi d a b) [cb, m0]
  | 0x14 => judge (.clz d a) (m0 :: nb)
  | 0x15 => judge (.ctz d a) (m0 :: nb)
  | 0x16 => judge (.popc d a) (m0 :: nb)
  | 0x17 => judge (.lea d a b (field 3 0 x.m6)) [cb, zero (field 5 4 x.m6)]
  | 0x18 => judge (.lidx d a b (field 2 0 x.m6)) [cb, zero (field 5 3 x.m6), (ck 2 (field 2 0 x.m6 < 6))]
  | 0x19 => judge (.smix d a b) [cb, m0]
  | 0x20 => judge (.mul d a b) [cb, m0]
  | 0x21 => judge (.mulh d a b) [cb, m0]
  | 0x22 => judge (.mulhn d a b) [cb, m0]
  | 0x23 => judge (.madd d a b) [cb, m0]
  | 0x24 => judge (.div d a b) [cb, m0]
  | 0x25 => judge (.divn d a b) [cb, m0]
  | 0x26 => judge (.rem d a b) [cb, m0]
  | 0x27 => judge (.remn d a b) [cb, m0]
  | 0x28 => judgeWith (sfFmtOf (field 4 2 x.m6)) 4 (fun f => .sfadd f (rmOf (field 1 0 x.m6)) d a b)
              [cb, zero (field 5 5 x.m6)]
  | 0x29 => judgeWith (sfFmtOf (field 4 2 x.m6)) 4 (fun f => .sfmul f (rmOf (field 1 0 x.m6)) d a b)
              [cb, zero (field 5 5 x.m6)]
  | 0x2A => judgeWith (sfFmtOf (field 4 2 x.m6)) 4 (fun f => .sfma f (rmOf (field 1 0 x.m6)) d a b)
              [cb, zero (field 5 5 x.m6)]
  | 0x2B =>
    match sfConvOf (field 5 2 x.m6) with
    | some c => judge (.sfcvt c (rmOf (field 1 0 x.m6)) d a) ((ck 2 (!c.exact || field 1 0 x.m6 == 0)) :: nb)
    | none => .bad (failing ((ck 4 (false)) :: nb))
  | 0x2C => judgeWith (sfFmtOf (field 4 2 x.m6)) 4 (fun f => .sfcmp f (fCondOf (field 1 0 x.m6)) d a b)
              [cb, zero (field 5 5 x.m6)]
  | _ => .bad 1

/-- The M forms (R182-R189, R205-R207). -/
def decodeM (x : MWord) : Verdict :=
  let ea := eaOf x
  let lo := field 2 0 x.q
  let hi := bitOf 3 x.q
  match x.op with
  | 0x00 =>
    match sizeOf' lo with
    | some z => judge (.lds z hi x.rt ea) [mChk x, mScalar x, (ck 2 (z.signOk hi)), (ck 2 (pairOk z x.rt))]
    | none => .bad 2
  | 0x01 =>
    match sizeOf' lo with
    | some z => judge (.sts z hi x.rt ea) [mChk x, mScalar x, (ck 2 (pairOk z x.rt))]
    | none => .bad 2
  | 0x02 => judge (.ldv x.rt ea) [mChk x, mVector x, zero x.q]
  | 0x03 => judge (.stv x.rt ea) [mChk x, mVector x, zero x.q]
  | 0x04 => judge (.ldr (field 1 0 x.q) x.rt ea) [mChk x, mVector x, zero (field 3 2 x.q)]
  | 0x05 => judge (.str (field 1 0 x.q) hi x.rt ea) [mChk x, mVector x, zero (field 2 2 x.q)]
  | 0x06 => judgeWith (sizeOf' lo) 2 (fun z => .ldb z x.rt ea) [mChk x, mVector x, zero (field 3 3 x.q)]
  | 0x07 =>
    match amoOf x.q with
    | some o => judge (.amo o x.rt ea) [mChk x, mScalar x, (ck 2 (casOk o x.rt))]
    | none => .bad 2
  | 0x08 => judge (.pseal x.rt ea) [mChk x, mScalar x, zero x.q]
  | 0x09 => judgeWith (pstatOf (field 1 0 x.q)) 2 (fun k => .pstat k x.rt ea)
              [mChk x, mScalar x, zero (field 3 2 x.q)]
  | 0x10 =>
    match sizeOf' lo with
    | some z => judge (.gld z hi x.rt ea) [mChk x, mScalar x, (ck 2 (z.signOk hi)), (ck 2 (pairOk z x.rt))]
    | none => .bad 2
  | 0x11 =>
    match sizeOf' lo with
    | some z => judge (.gst z x.rt ea) [mChk x, mScalar x, zero (field 3 3 x.q), (ck 2 (pairOk z x.rt))]
    | none => .bad 2
  | 0x12 => judge (.gldv x.rt ea) [mChk x, mVector x, zero x.q]
  | 0x13 => judge (.gstv x.rt ea) [mChk x, mVector x, zero x.q]
  | 0x14 =>
    match amoOf x.q with
    | some o => judge (.gamo o x.rt ea) [mChk x, mScalar x, (ck 2 (casOk o x.rt))]
    | none => .bad 2
  | _ => .bad 1

/-- The F forms (R161-R169). -/
def decodeF (x : VWord) : Verdict :=
  let g := predOf x
  let a := vaOf x
  let b := vbOf x
  let c := vcOf x
  let rm := rmOf x.rm
  let f := sfFmtOf x.fmt
  let two := noSat x ++ noM6 x ++ cVd x ++ cVa x ++ cVb x ++ noVc x ++ cPred x
  let three := noSat x ++ noM6 x ++ cVd x ++ cVa x ++ cVb x ++ cVc x ++ cPred x
  let one := noSat x ++ noM6 x ++ cVd x ++ cVa x ++ noVb x ++ noVc x ++ cPred x
  match x.op with
  | 0x00 => judgeWith f 4 (fun f => .vfadd f rm x.vd a b g) two
  | 0x01 => judgeWith f 4 (fun f => .vfsub f rm x.vd a b g) two
  | 0x02 => judgeWith f 4 (fun f => .vfmul f rm x.vd a b g) two
  | 0x03 => judgeWith f 4 (fun f => .vfma f rm x.vd a b c g) three
  | 0x04 => judgeWith f 4 (fun f => .vfms f rm x.vd a b c g) three
  | 0x05 => judgeWith f 4 (fun f => .vfnma f rm x.vd a b c g) three
  | 0x06 => judgeWith f 4 (fun f => .vfmin f x.vd a b g) (noRm x ++ two)
  | 0x07 => judgeWith f 4 (fun f => .vfmax f x.vd a b g) (noRm x ++ two)
  | 0x08 => judgeWith f 4 (fun f => .vfabs f x.vd a g) (noRm x ++ one)
  | 0x09 => judgeWith f 4 (fun f => .vfneg f x.vd a g) (noRm x ++ one)
  | 0x0A => judgeWith f 4 (fun f => .vfcmp f (fCondOf x.rm) x.vd a b g)
              (noSat x ++ noM6 x ++ cPd x ++ cVa x ++ cVb x ++ noVc x ++ cPred x)
  | 0x0B => judgeWith f 4 (fun f => .vfrcp f rm x.vd a g) one
  | 0x0C => judgeWith f 4 (fun f => .vfrsq f rm x.vd a g) one
  | 0x0D => judgeWith f 4 (fun f => .vfexp2 f rm x.vd a g) one
  | 0x0E =>
    let src := cvtSrcOf (field 2 0 x.m6)
    let part := field 4 3 x.m6
    let sat := x.sat == 1
    let common := cVd x ++ cVa x ++ noVb x ++ noVc x ++ cPred x
    match cvtDstOf (field 5 5 x.m6) x.fmt with
    | some dst =>
      judge (.vfcvt dst src rm sat part x.vd a g)
        ([(ck 2 (!cvtSame dst src)), (ck 2 (!(dst.isInt && src.isInt))), (ck 2 (!(sat && dst.isInt))),
          (ck 2 (part < parts src.bytes dst.bytes)), (ck 2 (!(cvtExact dst src && sat))),
          (ck 4 (!(cvtExact dst src && x.rm != 0)))] ++ common)
    | none =>
      let int := field 5 5 x.m6 == 1
      .bad (failing ([(ck 4 false), (ck 2 (!(int && src.isInt))), (ck 2 (!(int && sat))),
        (ck 2 (part < anyParts src.bytes))] ++ common))
  | 0x0F => judgeWith f 4
      (fun f => .vfscl f rm (bitOf 0 x.m6) (bitOf 1 x.m6) x.vd a (srcOf x.ls x.vb) g)
      (noSat x ++ [zero (field 5 2 x.m6), (ck 2 (x.vb < 16)), replaced x.ls x.vb, zero x.hb,
        (ck 2 (x.ls == 0 || !bitOf 0 x.m6))] ++ cVd x ++ cVa x ++ noVc x ++ cPred x)
  | _ => .bad 1

/-- The I forms (R138-R145). DESIGN CHOICE: a `VSAT` of a reserved `fmt` has no `E` to bound its `k` by; code 2 goes to a `k` that no format
has, outside 1 to 32, and code 4 to the rest (R142, R66; log 82). -/
def decodeI (x : VWord) : Verdict :=
  let g := predOf x
  let a := vaOf x
  let b := vbOf x
  let f := iFmtOf x.fmt
  let sat := x.sat == 1
  let two := noRm x ++ noM6 x ++ cVd x ++ cVa x ++ cVb x ++ noVc x ++ cPred x
  let one := noRm x ++ noM6 x ++ cVd x ++ cVa x ++ noVb x ++ noVc x ++ cPred x
  match x.op with
  | 0x00 => judgeWith f 4 (fun f => .vadd f sat x.vd a b g) two
  | 0x01 => judgeWith f 4 (fun f => .vsub f sat x.vd a b g) two
  | 0x02 => judgeWith f 4 (fun f => .vmul f sat x.vd a b g) two
  | 0x03 => judgeWith f 4 (fun f => .vmulh f x.vd a b g) (noSat x ++ two)
  | 0x04 =>
    judge (.vdot4 (x.fmt == 0) sat x.vd a b (vcOf x) g)
      ([(ck 4 (x.fmt == 0 || x.fmt == 4))] ++ noRm x ++ noM6 x ++ cVd x ++ cVa x ++ cVb x ++
       (if sat then cVc x else noVc x) ++ cPred x)
  | 0x05 => judgeWith f 4 (fun f => .vshl f x.vd a b g) (noSat x ++ two)
  | 0x06 => judgeWith f 4 (fun f => .vshr f x.vd a b g) (noSat x ++ two)
  | 0x07 => judgeWith f 4 (fun f => .vsar f x.vd a b g) (noSat x ++ two)
  | 0x08 => judgeWith f 4 (fun f => .vand f x.vd a b g) (noSat x ++ two)
  | 0x09 => judgeWith f 4 (fun f => .vor f x.vd a b g) (noSat x ++ two)
  | 0x0A => judgeWith f 4 (fun f => .vxor f x.vd a b g) (noSat x ++ two)
  | 0x0B => judgeWith f 4 (fun f => .vandn f x.vd a b g) (noSat x ++ two)
  | 0x0C => judgeWith f 4 (fun f => .vmin f x.vd a b g) (noSat x ++ two)
  | 0x0D => judgeWith f 4 (fun f => .vmax f x.vd a b g) (noSat x ++ two)
  | 0x0E => judgeWith f 4 (fun f => .vabs f sat x.vd a g) ((ck 4 (x.fmt < 3)) :: one)
  | 0x0F => judgeWith f 4 (fun f => .vcmp f (vCondOf x.rm) x.vd a b g)
              (noSat x ++ noM6 x ++ cPd x ++ cVa x ++ cVb x ++ noVc x ++ cPred x)
  | 0x10 => judgeWith f 4 (fun f => .vsel f x.vd a b x.vc g)
              (noSat x ++ noRm x ++ noM6 x ++ cVd x ++ cVa x ++ cVb x ++ [(ck 2 (x.vc < 16)), zero x.hc] ++ cPred x)
  | 0x11 =>
    let common := noSat x ++ noRm x ++ cVd x ++ cVa x ++ noVb x ++ noVc x ++ cPred x
    match f with
    | some f => judge (.vsat f x.m6 x.vd a g) ((ck 2 (1 ≤ x.m6 && x.m6 ≤ 8 * f.bytes)) :: common)
    | none => .bad (failing ((ck 4 false) :: (ck 2 (1 ≤ x.m6 && x.m6 ≤ 32)) :: common))
  | 0x12 =>
    let common := noRm x ++ [zero (field 5 5 x.m6)] ++ cVd x ++ cVa x ++ noVb x ++ noVc x ++ cPred x
    match f, iFmtOf (field 2 0 x.m6) with
    | some f, some s =>
      judge (.vcvt f s sat (field 4 3 x.m6) x.vd a g)
        ((ck 2 (field 4 3 x.m6 < parts s.bytes f.bytes)) :: common)
    | some k, none | none, some k => .bad (failing ((ck 4 false) :: (ck 2 (field 4 3 x.m6 < anyParts k.bytes)) :: common))
    | none, none => .bad (failing ((ck 4 false) :: common))
  | 0x13 => judgeWith f 4 (fun f => .vclz f x.vd a g) (noSat x ++ one)
  | 0x14 => judgeWith f 4 (fun f => .vpopc f x.vd a g) (noSat x ++ one)
  | 0x15 => judgeWith f 4 (fun f => .vidx f x.m6 x.vd b g)
              (noSat x ++ noRm x ++ cVd x ++ noVa x ++ cVb x ++ noVc x ++ cPred x)
  | 0x16 => judge (.vsmix (x.fmt == 2) x.vd a b g) ((ck 4 (x.fmt == 2 || x.fmt == 6)) :: noSat x ++ two)
  | 0x17 => judgeWith f 4 (fun f => .vbcs f x.vd (srcOf x.ls x.vb) g)
              (noSat x ++ noRm x ++ noM6 x ++ cVd x ++ noVa x ++ cSb x ++ noVc x ++ cPred x)
  | _ => .bad 1

/-- The P forms (R146-R152). -/
def decodeP (x : VWord) : Verdict :=
  let g := predOf x
  let a := vaOf x
  let b := vbOf x
  let f := pFmtOf x.fmt
  let sat := x.sat == 1
  let rm := rmOf x.rm
  let sb := srcOf x.ls x.vb
  let rmF : Nat × Bool := (ck 4 (f.isFloat || x.rm == 0))
  let pp := [(ck 4 (x.fmt == 0))] ++ noRm x ++ noSat x ++ noM6 x ++ noVc x ++ noPred x ++ cPd x ++
    [(ck 2 (x.va < 16)), zero x.ha, zero x.hb, zero x.ls]
  match x.op with
  | 0x00 => judge (.vperm f x.vd a b g)
      (noRm x ++ noSat x ++ noM6 x ++ cVd x ++ cVa x ++ cVb x ++ noVc x ++ cPred x)
  | 0x01 => judge (.vrot f x.vd a sb g)
      (noRm x ++ noSat x ++ noM6 x ++ cVd x ++ cVa x ++ cSb x ++ noVc x ++ cPred x)
  | 0x02 =>
    judgeWith (shufOf x.m6) 2 (fun s => .vshuf f s x.vd a b g)
      (noRm x ++ noSat x ++ cVd x ++ cVa x ++ (if x.m6 == 4 then noVb x else cVb x) ++ noVc x ++ cPred x)
  | 0x03 => judge (.vrmg f x.vd a b x.vc g)
      (noRm x ++ noSat x ++ noM6 x ++ cVd x ++ cVa x ++ cVb x ++ [(ck 2 (x.vc < 64)), zero x.hc] ++ cPred x)
  | 0x04 => judge (.vwin f x.m6 x.vd a b g)
      (noRm x ++ noSat x ++ cVd x ++ cVa x ++ cVb x ++ noVc x ++ cPred x)
  | 0x05 => judgeWith (redOf (field 1 0 x.m6)) 2 (fun o => .vred f o rm sat x.vd a g)
      ([rmF, zero (field 5 2 x.m6)] ++ cVd x ++ cVa x ++ noVb x ++ noVc x ++ cPred x)
  | 0x06 => judgeWith (redOf (field 1 0 x.m6)) 2 (fun o => .vscan f o (bitOf 2 x.m6) rm sat x.vd a g)
      ([rmF, zero (field 5 3 x.m6)] ++ cVd x ++ cVa x ++ noVb x ++ noVc x ++ cPred x)
  | 0x07 => judge (.vpack f rm sat x.vd a b g)
      ([(ck 4 (x.fmt == 1 || x.fmt == 2 || x.fmt == 5 || x.fmt == 6 || x.fmt == 3)), (ck 4 (x.fmt == 3 || x.rm == 0))] ++
       noM6 x ++ cVd x ++ cVa x ++ cVb x ++ noVc x ++ cPred x)
  | 0x08 => judge (.vunpk f (bitOf 0 x.m6) x.vd a g)
      ([(ck 4 (x.fmt == 0 || x.fmt == 1 || x.fmt == 4 || x.fmt == 5 || x.fmt == 7)), zero (field 5 1 x.m6)] ++
       noRm x ++ noSat x ++ cVd x ++ cVa x ++ noVb x ++ noVc x ++ cPred x)
  | 0x09 => judge (.vext f x.vd a sb)
      (noRm x ++ noSat x ++ noM6 x ++ [(ck 2 (x.vd < 64))] ++ cVa x ++ cSb x ++ noVc x ++ noPred x)
  | 0x0A => judge (.vins f x.vd x.va sb)
      (noRm x ++ noSat x ++ noM6 x ++ cVd x ++ [(ck 2 (x.va < 64)), zero x.ha] ++ cSb x ++ noVc x ++ noPred x)
  | 0x0B => judge (.pand x.vd x.va x.vb) ((ck 2 (x.vb < 16)) :: pp)
  | 0x0C => judge (.por x.vd x.va x.vb) ((ck 2 (x.vb < 16)) :: pp)
  | 0x0D => judge (.pxor x.vd x.va x.vb) ((ck 2 (x.vb < 16)) :: pp)
  | 0x0E => judge (.pnot x.vd x.va) (zero x.vb :: pp)
  | 0x0F =>
    judge (.pmov (bitOf 0 x.m6) x.vd a)
      ([(ck 4 (x.fmt == 0)), zero (field 5 1 x.m6)] ++ noRm x ++ noSat x ++ noVb x ++ noVc x ++ noPred x ++
       (if bitOf 0 x.m6 then cVd x ++ [(ck 2 (x.va < 16)), zero x.ha] else cPd x ++ cVa x))
  | _ => .bad 1

/-- The E forms (R213-R229, R241-R244, R257, R277, R278, R305, R320). -/
def decodeE (x : EWord) : Verdict :=
  let b := srcOf x.ls x.sb
  let cb := replaced x.ls x.sb
  let nb := [zero x.sb, zero x.ls]
  let m0 := zero x.m6
  let vr := x.sa + 64 * field 2 0 x.m6
  let ccw := bitOf 0 x.m6
  let mAll := [zero x.sa, zero x.sb, zero x.ls, m0]
  match x.op with
  | 0x00 => judgeWith (endsOf (field 3 0 x.m6)) 2 (fun e => .bcopy e x.sa b x.sc) [cb, zero (field 5 4 x.m6)]
  | 0x01 => judgeWith (endsOf (field 3 0 x.m6)) 2 (fun e => .tcopy e x.sa b x.sc) [cb, zero (field 5 4 x.m6)]
  | 0x02 => judge (.bfill (bitOf 2 x.m6) (fillOf (field 5 4 x.m6)) x.sa b x.sc)
              [cb, zero (field 1 0 x.m6), zero (field 3 3 x.m6)]
  | 0x03 => judge (.bchk (field 1 0 x.m6) x.sa b) [cb, zero x.sc, zero (field 5 2 x.m6)]
  | 0x04 => judge (.ifill (bitOf 0 x.m6) x.sa b) [cb, zero x.sc, zero (field 5 1 x.m6)]
  | 0x08 => judge (.send (field 4 3 x.m6) vr b) [cb, zero x.sc, (ck 3 (vr < 384)), zero (field 5 5 x.m6)]
  | 0x09 => judge (.sends x.sa b) [cb, zero x.sc, m0]
  | 0x0A => judge (.recv vr b) [cb, zero x.sc, (ck 3 (vr < 384)), zero (field 5 3 x.m6)]
  | 0x0B => judge (.recvs x.sc b) [cb, zero x.sa, m0]
  | 0x0C => judge (.mcast (field 4 3 x.m6) vr b) [cb, zero x.sc, (ck 3 (vr < 384)), zero (field 5 5 x.m6)]
  | 0x0D => judge (.signal x.sa b) [cb, zero x.sc, m0]
  | 0x10 => judge (.bararr x.sc b) [cb, zero x.sa, m0]
  | 0x11 => judge (.bardrp x.sc b) [cb, zero x.sa, m0]
  | 0x12 => judge (.barwt x.sa b) [cb, zero x.sc, m0]
  | 0x13 => judge (.dqpush x.sc x.sa b) [cb, m0]
  | 0x14 => judge (.dqpop x.sc b) [cb, zero x.sa, m0, (ck 2 (x.sc % 2 == 0))]
  | 0x15 => judge (.dqsteal x.sc b) [cb, zero x.sa, m0, (ck 2 (x.sc % 2 == 0))]
  | 0x16 => judge (.launch x.sc x.sa) (m0 :: nb)
  | 0x17 => judge (.twait b) [cb, zero x.sa, zero x.sc, m0]
  | 0x18 => judge (.sigwt x.sa b) [cb, zero x.sc, m0]
  | 0x20 => judge (.mlease x.sc) mAll
  | 0x21 => judge .mrel (zero x.sc :: mAll)
  | 0x22 => judge .mcfg (zero x.sc :: mAll)
  | 0x23 =>
    let m := bitOf 0 x.m6
    let tr := bitOf 1 x.m6
    let q := bitOf 2 x.m6
    judge (.tload m tr q (field 3 0 x.sc) x.sa b)
      [cb, zero (field 5 4 x.sc), zero (field 5 3 x.m6), (ck 2 (!(m && (tr || q))))]
  | 0x24 => judge (.tstore (bitOf 0 x.m6) (field 4 0 x.sc) x.sa b)
      [cb, zero (field 5 5 x.sc), zero (field 5 1 x.m6), (ck 3 (field 4 0 x.sc < 20))]
  | 0x25 => judge (.tzero (field 4 0 x.sc)) (zero (field 5 5 x.sc) :: (ck 3 (field 4 0 x.sc < 20)) :: mAll)
  | 0x26 => judge (.mma (bitOf 0 x.m6) (bitOf 1 x.m6) (field 1 0 x.sc) (field 3 0 x.sa) (field 3 0 x.sb))
      [(ck 5 (x.ls == 0)), zero (field 5 4 x.sa), zero (field 5 4 x.sb), zero (field 5 2 x.sc), zero (field 5 2 x.m6)]
  | 0x27 => judge (.tcvt (rmOf (field 1 0 x.m6)) (bitOf 2 x.m6) (field 3 0 x.sc) (field 1 0 x.sa) b)
      [cb, zero (field 5 2 x.sa), zero (field 5 4 x.sc), zero (field 5 3 x.m6)]
  | 0x28 => judge (.tscl (field 3 0 x.sc) x.sa b) [cb, zero (field 5 4 x.sc), m0]
  | 0x30 => judge (.cboard ccw x.sa b) [cb, zero x.sc, zero (field 5 1 x.m6)]
  | 0x31 => judge (.calight ccw (bitOf 1 x.m6) x.sc x.sa b)
      [cb, zero (field 5 2 x.m6), (ck 2 (bitOf 1 x.m6 || x.sa == 0))]
  | 0x32 => judge (.ccatch ccw x.sc x.sa b) [cb, zero (field 5 1 x.m6)]
  | 0x33 => judge (.ccatchv ccw x.sc x.sa b) [cb, zero (field 5 1 x.m6)]
  | 0x34 => judge (.crepl ccw x.sc x.sa b) [cb, zero (field 5 1 x.m6)]
  | 0x35 => judge (.crost ccw x.sc b) [cb, zero x.sa, zero (field 5 1 x.m6)]
  | _ => .bad 1

/-- The X forms (R125-R129, R168, R231, R284, R341, R342). -/
def decodeX (x : XWord) : Verdict :=
  let b := srcOf x.ls x.s2
  let cb := replaced x.ls x.s2
  let nb := [zero x.s2, zero x.ls]
  match x.op with
  | 0x00 => judge (.srr x.s1 x.k12) ((ck 2 (sysAssigned x.k12)) :: nb)
  | 0x01 => judge (.srw x.k12 b) [cb, zero x.s1, (ck 2 (sysWritable x.k12))]
  | 0x02 => judge (.rdtt x.s1) (zero x.k12 :: nb)
  | 0x03 => judge (.rdwt x.s1) (zero x.k12 :: nb)
  | 0x04 => judge (.scld (field 3 0 x.k12) x.s1 b) [cb, zero (field 11 4 x.k12)]
  | 0x05 => judgeWith (scopeOf (field 2 0 x.k12)) 2 (fun s => .fence s)
              (zero x.s1 :: zero (field 11 3 x.k12) :: nb)
  | 0x06 => judge .ifence (zero x.s1 :: zero x.k12 :: nb)
  | 0x07 => judge (.cropen b) [cb, zero x.s1, zero x.k12]
  | 0x08 => judge .crclose (zero x.s1 :: zero x.k12 :: nb)
  | 0x09 => judge .scangap (zero x.s1 :: zero x.k12 :: nb)
  | 0x0A => judge (.evctl (evOf (field 1 0 x.k12)) (bitOf 2 x.k12) b) [cb, zero x.s1, zero (field 11 3 x.k12)]
  | _ => .bad 1

/-- The decoder of one class: total on every word. -/
def decodeCls (k : Cls) (w : Nat) : Verdict :=
  match k with
  | .c => decodeC (CWord.ofNat w)
  | .a => decodeA (AWord.ofNat w)
  | .m => decodeM (MWord.ofNat w)
  | .f => decodeF (VWord.ofNat w)
  | .i => decodeI (VWord.ofNat w)
  | .p => decodeP (VWord.ofNat w)
  | .e => decodeE (EWord.ofNat w)
  | .x => decodeX (XWord.ofNat w)

/-! ## Positions and bundles -/

/-- The class of a position (R46). -/
def clsAt (pos : Nat) : Cls :=
  if pos == 0 then .c else if pos ≤ 3 then .a else if pos ≤ 6 then .m else if pos ≤ 10 then .f
  else if pos ≤ 12 then .i else if pos == 13 then .p else if pos == 14 then .e else .x

/-- Words of a position's slot (R46). -/
def slotWords (pos : Nat) : Nat := if 7 ≤ pos && pos ≤ 13 then 2 else 1

/-- The opcode of a slot word (R49-R54). -/
def opAt (pos w : Nat) : Nat := if slotWords pos == 2 then field 63 58 w else field 31 26 w

/-- `sa2`-only forms stand in `sa2`, `mp2`-only forms in `mp2` (R46, code 1). -/
def posOk (pos w : Nat) : Bool :=
  if pos == 1 || pos == 2 then opAt pos w < 0x20
  else if pos == 4 || pos == 5 then opAt pos w < 0x10
  else true

/-- Matrix commands (R9). -/
def isMatrix : Instr → Bool
  | .mlease .. | .mrel | .mcfg | .tload .. | .tstore .. | .tzero .. | .mma .. | .tcvt .. | .tscl .. => true
  | _ => false

/-- The forms that a handler image may not hold (R334). -/
def taskOnly : Instr → Bool
  | .barwt .. | .sigwt .. | .twait .. | .scangap | .fence .pod
  | .send .. | .sends .. | .recv .. | .recvs .. | .mcast ..
  | .bcopy .. | .tcopy .. | .bfill .. | .bchk ..
  | .cboard .. | .calight .. | .ccatch .. | .ccatchv .. | .crepl .. | .crost ..
  | .ifill .. | .ifence | .brswap .. | .trap .. | .cropen .. | .crclose => true
  | i => isMatrix i

/-- The forms of a handler image only (R334). -/
def handlerOnly : Instr → Bool
  | .rft | .rstrt => true
  | _ => false

/-- An opcode that an image of this kind may not hold, whatever the other fields of its word say (R334). -/
def opForbidden (handler : Bool) (pos w : Nat) : Bool :=
  let op := opAt pos w
  match clsAt pos with
  | .c => if handler then op == 0x0A || op == 0x0B else op == 0x0D || op == 0x0E
  | .e => handler && (op < 0x0D || op == 0x12 || op == 0x17 || op == 0x18 || 0x20 ≤ op)
  | .x => handler && (op == 0x05 && field 2 0 w == 4 || (0x06 ≤ op && op ≤ 0x09))
  | _ => false

/-- The literal index a slot word selects, 0 for none (R57). -/
def litField (pos w : Nat) : Nat :=
  match clsAt pos with
  | .c => 0
  | .m => field 10 9 w
  | .x => field 13 12 w
  | _ => field 7 6 w

/-- The header of a bundle (R43). -/
structure Header where
  pm : Nat
  lc : Nat
  rp : Bool
  yp : Bool
  rsv : Bool
  jb : Nat
  dw : Nat
  deriving DecidableEq, Repr

def Header.ofNat (w : Nat) : Header :=
  { pm := field 31 16 w, lc := field 15 14 w, rp := bitOf 13 w, yp := bitOf 12 w, rsv := bitOf 11 w,
    jb := field 10 8 w, dw := field 7 0 w }

/-- The positions present, in ascending order (R43). -/
def Header.positions (h : Header) : List Nat := (List.range 16).filter (fun p => bitOf p h.pm)

/-- Words before the literals (R47). -/
def Header.slotLen (h : Header) : Nat := (h.positions.map slotWords).foldl (· + ·) 1

/-- Words of the bundle (R47). -/
def Header.len (h : Header) : Nat := h.slotLen + h.lc

/-- A bundle as fetched: its header, its slots by position, its literal words, its length. -/
structure Bundle where
  hdr : Header
  slots : List (Nat × Instr)
  lits : List Nat
  deriving DecidableEq, Repr

def Bundle.len (b : Bundle) : Nat := b.hdr.len

/-- Where an image runs: the kind of core and whether it is a handler image (R9, R334). -/
structure Site where
  mx : Bool
  handler : Bool
  deriving DecidableEq, Repr

/-- The slot word at each present position; `rd k` is word `k` of the bundle. -/
def slotWordsOf (rd : Nat → Nat) : List Nat → Nat → List (Nat × Nat)
  | [], _ => []
  | p :: ps, k =>
    if slotWords p == 2 then (p, rd k + 2 ^ 32 * rd (k + 1)) :: slotWordsOf rd ps (k + 2)
    else (p, rd k) :: slotWordsOf rd ps (k + 1)

/-- The verdict on one slot (R66 codes 1 to 5 and 7). -/
def slotVerdict (site : Site) (pos w : Nat) : Verdict :=
  match decodeCls (clsAt pos) w with
  | .bad c => if posOk pos w && !opForbidden site.handler pos w then .bad c else .bad 1
  | .ok i =>
    if !posOk pos w then .bad 1
    else if site.handler && taskOnly i then .bad 1
    else if !site.handler && handlerOnly i then .bad 1
    else if !site.mx && isMatrix i then .bad 7
    else .ok i

def verdictCode : Verdict → Nat
  | .ok _ => 0
  | .bad c => c

/-- The lowest of a bundle's codes 1 to 5 and 7, 0 when it has none (R66). -/
def bundleCode (site : Site) (rd : Nat → Nat) : Nat :=
  let h := Header.ofNat (rd 0)
  let ws := slotWordsOf rd h.positions 1
  let sel := ws.map (fun pw => litField pw.1 pw.2)
  failing ((ck 2 (!h.rsv)) ::
    (ws.map (fun pw => let c := verdictCode (slotVerdict site pw.1 pw.2); (c, c == 0)) ++
     sel.map (fun l => (ck 5 (l ≤ h.lc))) ++
     (List.range h.lc).map (fun j => (ck 5 (sel.contains (j + 1))))))

/-- The slots that decode, by position. -/
def okSlots (site : Site) (ws : List (Nat × Nat)) : List (Nat × Instr) :=
  ws.filterMap fun pw =>
    match slotVerdict site pw.1 pw.2 with
    | .ok i => some (pw.1, i)
    | .bad _ => none

/-- The bundle whose word `k` is `rd k`; its slots are those that decode. -/
def decodeBundle (site : Site) (rd : Nat → Nat) : Bundle :=
  let h := Header.ofNat (rd 0)
  { hdr := h, slots := okSlots site (slotWordsOf rd h.positions 1),
    lits := (List.range h.lc).map (fun j => rd (h.slotLen + j)) }

/-! ## The encoder -/

def srcLs : Src → Nat
  | .reg _ => 0
  | .lit k => k + 1
def srcReg : Src → Nat
  | .reg n => n
  | .lit _ => 0
/-- Bits of a two's-complement field. -/
def bitsOf (k : Nat) (i : Int) : Nat := (i % (2 ^ k : Int)).toNat
def encC (op lo : Nat) : Nat := CWord.toNat { op := op, lo := lo }
def encA (op d a : Nat) (b : Src) (m6 : Nat) : Nat :=
  AWord.toNat { op := op, sd := d, sa := a, sb := srcReg b, ls := srcLs b, m6 := m6 }
def encM (op rt : Nat) (ea : Ea) (q : Nat) : Nat :=
  MWord.toNat (match ea.off with
    | .imm i => { op := op, rt := rt, sb := ea.base, ls := 0, off5 := bitsOf 5 i, q := q }
    | .lit k => { op := op, rt := rt, sb := ea.base, ls := k + 1, off5 := 0, q := q })
def encE (op sa : Nat) (b : Src) (sc m6 : Nat) : Nat :=
  EWord.toNat { op := op, sa := sa, sb := srcReg b, sc := sc, ls := srcLs b, m6 := m6 }
def encX (op s1 : Nat) (b : Src) (k12 : Nat) : Nat :=
  XWord.toNat { op := op, s1 := s1, s2 := srcReg b, ls := srcLs b, k12 := k12 }
def vsrcN : VSrc → Nat
  | .vec r => r.n
  | .lit _ => 0
def vsrcH : VSrc → Nat
  | .vec r => bit r.held
  | .lit _ => 0
def vsrcLs : VSrc → Nat
  | .vec _ => 0
  | .lit k => k + 1
def noReg : VReg := { n := 0, held := false }
def noB : VSrc := .vec noReg
def noG : PredG := { pr := 0, ps := false }
def encV (op fmt rm sat vd : Nat) (a : VReg) (b : VSrc) (c : VReg) (g : PredG) (m6 : Nat) : Nat :=
  VWord.toNat { op := op, fmt := fmt, rm := rm, sat := sat, vd := vd, va := a.n, vb := vsrcN b, vc := c.n,
                ha := bit a.held, hb := vsrcH b, hc := bit c.held, pr := g.pr, ps := bit g.ps,
                ls := vsrcLs b, m6 := m6 }
/-- A scalar or scale operand in the place of `vb`. -/
def asVb : Src → VSrc
  | .reg n => .vec { n := n, held := false }
  | .lit k => .lit k
def asVc (n : Nat) : VReg := { n := n, held := false }
def encF (op : Nat) (f : SfFmt) (rm vd : Nat) (a : VReg) (b : VSrc) (c : VReg) (g : PredG) : Nat :=
  encV op (sfFmtCode f) rm 0 vd a b c g 0
def encI (op : Nat) (f : IFmt) (sat vd : Nat) (a : VReg) (b : VSrc) (g : PredG) : Nat :=
  encV op (iFmtCode f) 0 sat vd a b noReg g 0
def encP (op : Nat) (f : PFmt) (rm sat vd : Nat) (a : VReg) (b : VSrc) (c : VReg) (g : PredG) (m6 : Nat) : Nat :=
  encV op (pFmtCode f) rm sat vd a b c g m6

/-- The class of a slot operation; the other steps have none. -/
def clsOf : Instr → Option Cls
  | .br .. | .bri .. | .bc .. | .bp .. | .call .. | .calli .. | .ret | .loop .. | .lend | .lbrk ..
  | .brswap .. | .trap .. | .halt | .rft | .rstrt | .pwin .. => some .c
  | .add .. | .sub .. | .and .. | .or .. | .xor .. | .andn .. | .shl .. | .shr .. | .sar .. | .rol ..
  | .min .. | .max .. | .minn .. | .maxn .. | .scmp .. | .sel .. | .movl .. | .ext .. | .bfx .. | .bfi ..
  | .clz .. | .ctz .. | .popc .. | .lea .. | .lidx .. | .smix .. | .mul .. | .mulh .. | .mulhn ..
  | .madd .. | .div .. | .divn .. | .rem .. | .remn .. | .sfadd .. | .sfmul .. | .sfma .. | .sfcvt ..
  | .sfcmp .. => some .a
  | .lds .. | .sts .. | .ldv .. | .stv .. | .ldr .. | .str .. | .ldb .. | .amo .. | .pseal .. | .pstat ..
  | .gld .. | .gst .. | .gldv .. | .gstv .. | .gamo .. => some .m
  | .vfadd .. | .vfsub .. | .vfmul .. | .vfma .. | .vfms .. | .vfnma .. | .vfmin .. | .vfmax .. | .vfabs ..
  | .vfneg .. | .vfcmp .. | .vfrcp .. | .vfrsq .. | .vfexp2 .. | .vfcvt .. | .vfscl .. => some .f
  | .vadd .. | .vsub .. | .vmul .. | .vmulh .. | .vdot4 .. | .vshl .. | .vshr .. | .vsar .. | .vand ..
  | .vor .. | .vxor .. | .vandn .. | .vmin .. | .vmax .. | .vabs .. | .vcmp .. | .vsel .. | .vsat ..
  | .vcvt .. | .vclz .. | .vpopc .. | .vidx .. | .vsmix .. | .vbcs .. => some .i
  | .vperm .. | .vrot .. | .vshuf .. | .vrmg .. | .vwin .. | .vred .. | .vscan .. | .vpack .. | .vunpk ..
  | .vext .. | .vins .. | .pand .. | .por .. | .pxor .. | .pnot .. | .pmov .. => some .p
  | .bcopy .. | .tcopy .. | .bfill .. | .bchk .. | .ifill .. | .send .. | .sends .. | .recv .. | .recvs ..
  | .mcast .. | .signal .. | .bararr .. | .bardrp .. | .barwt .. | .dqpush .. | .dqpop .. | .dqsteal ..
  | .launch .. | .twait .. | .sigwt .. | .mlease .. | .mrel | .mcfg | .tload .. | .tstore .. | .tzero ..
  | .mma .. | .tcvt .. | .tscl .. | .cboard .. | .calight .. | .ccatch .. | .ccatchv .. | .crepl ..
  | .crost .. => some .e
  | .srr .. | .srw .. | .rdtt .. | .rdwt .. | .scld .. | .fence .. | .ifence | .cropen .. | .crclose
  | .scangap | .evctl .. => some .x
  | _ => none

/-- The word of a slot operation, from the same tables; 0 for a step without an encoding. -/
def encode : Instr → Nat
  | .br o => encC 0x00 (bitsOf 17 o)
  | .bri a => encC 0x01 (a * 2 ^ 20)
  | .bc c a o => encC 0x02 (a * 2 ^ 20 + bCondCode c * 2 ^ 17 + bitsOf 17 o)
  | .bp m p o => encC 0x03 (p * 2 ^ 22 + bTestCode m * 2 ^ 20 + bitsOf 17 o)
  | .call o => encC 0x04 (bitsOf 17 o)
  | .calli a => encC 0x05 (a * 2 ^ 20)
  | .ret => encC 0x06 0
  | .loop a stg o => encC 0x07 (a * 2 ^ 20 + stg * 2 ^ 17 + bitsOf 17 o)
  | .lend => encC 0x08 0
  | .lbrk k => encC 0x09 k
  | .brswap a => encC 0x0A (a * 2 ^ 20)
  | .trap k => encC 0x0B k
  | .halt => encC 0x0C 0
  | .rft => encC 0x0D 0
  | .rstrt => encC 0x0E 0
  | .pwin a m => encC 0x0F (a * 2 ^ 20 + m * 2 ^ 12)
  | .add d a b => encA 0x00 d a b 0
  | .sub d a b => encA 0x01 d a b 0
  | .and d a b => encA 0x02 d a b 0
  | .or d a b => encA 0x03 d a b 0
  | .xor d a b => encA 0x04 d a b 0
  | .andn d a b => encA 0x05 d a b 0
  | .shl d a b => encA 0x06 d a b 0
  | .shr d a b => encA 0x07 d a b 0
  | .sar d a b => encA 0x08 d a b 0
  | .rol d a b => encA 0x09 d a b 0
  | .min d a b => encA 0x0A d a b 0
  | .max d a b => encA 0x0B d a b 0
  | .minn d a b => encA 0x0C d a b 0
  | .maxn d a b => encA 0x0D d a b 0
  | .scmp c d a b => encA 0x0E d a b (sCondCode c)
  | .sel d a b c => encA 0x0F d a b c
  | .movl m d a b => encA 0x10 d a b (movCode m)
  | .ext w sx d a => encA 0x11 d a (.reg 0) (extCode w + 4 * bit sx)
  | .bfx sx d a b => encA 0x12 d a b (bit sx)
  | .bfi d a b => encA 0x13 d a b 0
  | .clz d a => encA 0x14 d a (.reg 0) 0
  | .ctz d a => encA 0x15 d a (.reg 0) 0
  | .popc d a => encA 0x16 d a (.reg 0) 0
  | .lea d a b sh => encA 0x17 d a b sh
  | .lidx d a b n => encA 0x18 d a b n
  | .smix d a b => encA 0x19 d a b 0
  | .mul d a b => encA 0x20 d a b 0
  | .mulh d a b => encA 0x21 d a b 0
  | .mulhn d a b => encA 0x22 d a b 0
  | .madd d a b => encA 0x23 d a b 0
  | .div d a b => encA 0x24 d a b 0
  | .divn d a b => encA 0x25 d a b 0
  | .rem d a b => encA 0x26 d a b 0
  | .remn d a b => encA 0x27 d a b 0
  | .sfadd f rm d a b => encA 0x28 d a b (4 * sfFmtCode f + rmCode rm)
  | .sfmul f rm d a b => encA 0x29 d a b (4 * sfFmtCode f + rmCode rm)
  | .sfma f rm d a b => encA 0x2A d a b (4 * sfFmtCode f + rmCode rm)
  | .sfcvt c rm d a => encA 0x2B d a (.reg 0) (4 * sfConvCode c + rmCode rm)
  | .sfcmp f c d a b => encA 0x2C d a b (4 * sfFmtCode f + fCondCode c)
  | .lds z sx t ea => encM 0x00 t ea (sizeCode z + 8 * bit sx)
  | .sts z bulk t ea => encM 0x01 t ea (sizeCode z + 8 * bit bulk)
  | .ldv t ea => encM 0x02 t ea 0
  | .stv t ea => encM 0x03 t ea 0
  | .ldr k t ea => encM 0x04 t ea k
  | .str k bulk t ea => encM 0x05 t ea (k + 8 * bit bulk)
  | .ldb z t ea => encM 0x06 t ea (sizeCode z)
  | .amo o t ea => encM 0x07 t ea (amoCode o)
  | .pseal t ea => encM 0x08 t ea 0
  | .pstat k t ea => encM 0x09 t ea (pstatCode k)
  | .gld z sx t ea => encM 0x10 t ea (sizeCode z + 8 * bit sx)
  | .gst z t ea => encM 0x11 t ea (sizeCode z)
  | .gldv t ea => encM 0x12 t ea 0
  | .gstv t ea => encM 0x13 t ea 0
  | .gamo o t ea => encM 0x14 t ea (amoCode o)
  | .vfadd f rm d a b g => encF 0x00 f (rmCode rm) d a b noReg g
  | .vfsub f rm d a b g => encF 0x01 f (rmCode rm) d a b noReg g
  | .vfmul f rm d a b g => encF 0x02 f (rmCode rm) d a b noReg g
  | .vfma f rm d a b c g => encF 0x03 f (rmCode rm) d a b c g
  | .vfms f rm d a b c g => encF 0x04 f (rmCode rm) d a b c g
  | .vfnma f rm d a b c g => encF 0x05 f (rmCode rm) d a b c g
  | .vfmin f d a b g => encF 0x06 f 0 d a b noReg g
  | .vfmax f d a b g => encF 0x07 f 0 d a b noReg g
  | .vfabs f d a g => encF 0x08 f 0 d a noB noReg g
  | .vfneg f d a g => encF 0x09 f 0 d a noB noReg g
  | .vfcmp f c p a b g => encF 0x0A f (fCondCode c) p a b noReg g
  | .vfrcp f rm d a g => encF 0x0B f (rmCode rm) d a noB noReg g
  | .vfrsq f rm d a g => encF 0x0C f (rmCode rm) d a noB noReg g
  | .vfexp2 f rm d a g => encF 0x0D f (rmCode rm) d a noB noReg g
  | .vfcvt dst src rm sat part d a g =>
      encV 0x0E (cvtDstCode dst) (rmCode rm) (bit sat) d a noB noReg g
        (cvtSrcCode src + 8 * part + 32 * bit dst.isInt)
  | .vfscl f rm bcst inv d a b g =>
      encV 0x0F (sfFmtCode f) (rmCode rm) 0 d a (asVb b) noReg g (bit bcst + 2 * bit inv)
  | .vadd f sat d a b g => encI 0x00 f (bit sat) d a b g
  | .vsub f sat d a b g => encI 0x01 f (bit sat) d a b g
  | .vmul f sat d a b g => encI 0x02 f (bit sat) d a b g
  | .vmulh f d a b g => encI 0x03 f 0 d a b g
  | .vdot4 sgn acc d a b c g => encV 0x04 (if sgn then 0 else 4) 0 (bit acc) d a b c g 0
  | .vshl f d a b g => encI 0x05 f 0 d a b g
  | .vshr f d a b g => encI 0x06 f 0 d a b g
  | .vsar f d a b g => encI 0x07 f 0 d a b g
  | .vand f d a b g => encI 0x08 f 0 d a b g
  | .vor f d a b g => encI 0x09 f 0 d a b g
  | .vxor f d a b g => encI 0x0A f 0 d a b g
  | .vandn f d a b g => encI 0x0B f 0 d a b g
  | .vmin f d a b g => encI 0x0C f 0 d a b g
  | .vmax f d a b g => encI 0x0D f 0 d a b g
  | .vabs f sat d a g => encI 0x0E f (bit sat) d a noB g
  | .vcmp f c p a b g => encV 0x0F (iFmtCode f) (vCondCode c) 0 p a b noReg g 0
  | .vsel f d a b p g => encV 0x10 (iFmtCode f) 0 0 d a b (asVc p) g 0
  | .vsat f k d a g => encV 0x11 (iFmtCode f) 0 0 d a noB noReg g k
  | .vcvt f s sat part d a g => encV 0x12 (iFmtCode f) 0 (bit sat) d a noB noReg g (iFmtCode s + 8 * part)
  | .vclz f d a g => encI 0x13 f 0 d a noB g
  | .vpopc f d a g => encI 0x14 f 0 d a noB g
  | .vidx f step d b g => encV 0x15 (iFmtCode f) 0 0 d noReg b noReg g step
  | .vsmix sgn d a b g => encV 0x16 (if sgn then 2 else 6) 0 0 d a b noReg g 0
  | .vbcs f d b g => encV 0x17 (iFmtCode f) 0 0 d noReg (asVb b) noReg g 0
  | .vperm f d a b g => encP 0x00 f 0 0 d a b noReg g 0
  | .vrot f d a b g => encP 0x01 f 0 0 d a (asVb b) noReg g 0
  | .vshuf f s d a b g => encP 0x02 f 0 0 d a b noReg g (shufCode s)
  | .vrmg f d a b c g => encP 0x03 f 0 0 d a b (asVc c) g 0
  | .vwin f k d a b g => encP 0x04 f 0 0 d a b noReg g k
  | .vred f o rm sat d a g => encP 0x05 f (rmCode rm) (bit sat) d a noB noReg g (redCode o)
  | .vscan f o ex rm sat d a g => encP 0x06 f (rmCode rm) (bit sat) d a noB noReg g (redCode o + 4 * bit ex)
  | .vpack f rm sat d a b g => encP 0x07 f (rmCode rm) (bit sat) d a b noReg g 0
  | .vunpk f hi d a g => encP 0x08 f 0 0 d a noB noReg g (bit hi)
  | .vext f d a b => encP 0x09 f 0 0 d a (asVb b) noReg noG 0
  | .vins f d a b => encP 0x0A f 0 0 d (asVc a) (asVb b) noReg noG 0
  | .pand d a b => encV 0x0B 0 0 0 d (asVc a) (.vec (asVc b)) noReg noG 0
  | .por d a b => encV 0x0C 0 0 0 d (asVc a) (.vec (asVc b)) noReg noG 0
  | .pxor d a b => encV 0x0D 0 0 0 d (asVc a) (.vec (asVc b)) noReg noG 0
  | .pnot d a => encV 0x0E 0 0 0 d (asVc a) noB noReg noG 0
  | .pmov p2v d a => encV 0x0F 0 0 0 d a noB noReg noG (bit p2v)
  | .bcopy e d s c => encE 0x00 d s c (endsCode e)
  | .tcopy e d s c => encE 0x01 d s c (endsCode e)
  | .bfill glb z d v c => encE 0x02 d v c (4 * bit glb + 16 * fillCode z)
  | .bchk k a b => encE 0x03 a b 0 k
  | .ifill hb a b => encE 0x04 a b 0 (bit hb)
  | .send l v p => encE 0x08 (v % 64) p 0 (v / 64 + 8 * l)
  | .sends a p => encE 0x09 a p 0 0
  | .recv v p => encE 0x0A (v % 64) p 0 (v / 64)
  | .recvs t p => encE 0x0B 0 p t 0
  | .mcast l v p => encE 0x0C (v % 64) p 0 (v / 64 + 8 * l)
  | .signal a b => encE 0x0D a b 0 0
  | .bararr t b => encE 0x10 0 b t 0
  | .bardrp t b => encE 0x11 0 b t 0
  | .barwt a b => encE 0x12 a b 0 0
  | .dqpush t a b => encE 0x13 a b t 0
  | .dqpop t b => encE 0x14 0 b t 0
  | .dqsteal t b => encE 0x15 0 b t 0
  | .launch t a => encE 0x16 a (.reg 0) t 0
  | .twait b => encE 0x17 0 b 0 0
  | .sigwt a b => encE 0x18 a b 0 0
  | .mlease t => encE 0x20 0 (.reg 0) t 0
  | .mrel => encE 0x21 0 (.reg 0) 0 0
  | .mcfg => encE 0x22 0 (.reg 0) 0 0
  | .tload m tr q n a b => encE 0x23 a b n (bit m + 2 * bit tr + 4 * bit q)
  | .tstore m tile a b => encE 0x24 a b tile (bit m)
  | .tzero tile => encE 0x25 0 (.reg 0) tile 0
  | .mma as z acc a w => encE 0x26 a (.reg w) acc (bit as + 2 * bit z)
  | .tcvt rm sat n acc k => encE 0x27 acc k n (rmCode rm + 4 * bit sat)
  | .tscl n a b => encE 0x28 a b n 0
  | .cboard ccw a n => encE 0x30 a n 0 (bit ccw)
  | .calight ccw cp t a n => encE 0x31 a n t (bit ccw + 2 * bit cp)
  | .ccatch ccw t a n => encE 0x32 a n t (bit ccw)
  | .ccatchv ccw t a n => encE 0x33 a n t (bit ccw)
  | .crepl ccw t a n => encE 0x34 a n t (bit ccw)
  | .crost ccw t n => encE 0x35 0 n t (bit ccw)
  | .srr d k => encX 0x00 d (.reg 0) k
  | .srw k b => encX 0x01 0 b k
  | .rdtt d => encX 0x02 d (.reg 0) 0
  | .rdwt d => encX 0x03 d (.reg 0) 0
  | .scld n a b => encX 0x04 a b n
  | .fence s => encX 0x05 0 (.reg 0) (scopeCode s)
  | .ifence => encX 0x06 0 (.reg 0) 0
  | .cropen b => encX 0x07 0 b 0
  | .crclose => encX 0x08 0 (.reg 0) 0
  | .scangap => encX 0x09 0 (.reg 0) 0
  | .evctl o die b => encX 0x0A 0 b (evCode o + 4 * bit die)
  | _ => 0

/-! ## The table's words -/

/-- Bits of its word that a form of a 32-bit class fixes (the masks of spec/opcode_table.json). -/
def fixedBits : Instr → Nat
  | .ret .. | .lend .. | .halt .. | .rft .. | .rstrt .. | .mrel .. | .mcfg .. | .ifence ..
  | .crclose .. | .scangap .. => 32
  | .lbrk .. | .fence .. => 29
  | .tzero .. => 27
  | .bri .. | .calli .. | .brswap .. | .mlease .. | .rdtt .. | .rdwt .. => 26
  | .twait .. | .cropen .. => 24
  | .evctl .. => 21
  | .clz .. | .ctz .. | .popc .. | .launch .. | .mma .. => 20
  | .pwin .. | .sends .. | .recvs .. | .signal .. | .bararr .. | .bardrp .. | .barwt .. | .dqpop ..
  | .dqsteal .. | .sigwt .. => 18
  | .ext .. | .ifill .. | .cboard .. | .crost .. => 17
  | .trap .. | .bchk .. => 16
  | .br .. | .call .. | .recv .. | .tcvt .. => 15
  | .sfcvt .. | .tscl .. | .srr .. | .scld .. => 14
  | .pseal .. | .send .. | .mcast .. => 13
  | .add .. | .sub .. | .and .. | .or .. | .xor .. | .andn .. | .shl .. | .shr .. | .sar ..
  | .rol .. | .min .. | .max .. | .minn .. | .maxn .. | .bfi .. | .smix .. | .mul .. | .mulh ..
  | .mulhn .. | .madd .. | .div .. | .divn .. | .rem .. | .remn .. | .dqpush .. | .tstore ..
  | .srw .. => 12
  | .bfx .. | .pstat .. | .tload .. | .ccatch .. | .ccatchv .. | .crepl .. => 11
  | .movl .. | .ldv .. | .stv .. | .gst .. | .gldv .. | .gstv .. | .calight .. => 10
  | .bp .. | .scmp .. | .lidx .. | .lds .. | .sts .. | .amo .. | .gld .. | .gamo .. => 9
  | .lea .. | .ldr .. | .bcopy .. | .tcopy .. | .bfill .. => 8
  | .sfadd .. | .sfmul .. | .sfma .. | .sfcmp .. | .str .. | .ldb .. => 7
  | .bc .. | .loop .. | .sel .. => 6
  | _ => 0

/-- Among the classes that accept a word, the reading whose form fixes the most bits, the first of equals. -/
def bestOf (w : Nat) : List Cls → Option (Cls × Instr)
  | [] => none
  | k :: ks =>
    match decodeCls k w, bestOf w ks with
    | .ok i, some r => if fixedBits r.2 ≤ fixedBits i then some (k, i) else some r
    | .ok i, none => some (k, i)
    | .bad _, r => r

/-- The class and instruction of a word that stands alone. The classes number their opcodes apart, so one
word may belong to several: the form that fixes the most bits of it is taken (DESIGN CHOICE, log 5). -/
def classify (nbits w : Nat) : Option (Cls × Instr) :=
  if nbits ≤ 32 then bestOf (w % 2 ^ 32) [.c, .x, .e, .m, .a]
  else bestOf (w % 2 ^ 64) [.f, .i, .p]

/-- The instruction the decoder reads from a word of the opcode table. -/
def decodeTableWord (nbits w : Nat) : Option Instr := (classify nbits w).map (·.2)

end Sys2Proof
end

