-- ==== Sys2Proof/Config.lean ====
section
/-! DEFINITION. What an implementation fixes and the spec leaves open: free values without a body, and the
shape of a parsed task image, whose byte layout the spec does not give. -/
namespace Sys2Proof

/-- A scratchpad region of a member (R37, R202): its base, its size, and the lease index and offset it is bound to. -/
structure Region where
  base : Nat
  size : Nat
  bound : Option (Nat × Nat)
  deriving DecidableEq, Repr, Inhabited

/-- One member's stream (R34, R37): its core kind, its words from word 0, its regions and their initial bytes. -/
structure MemImg where
  mx : Bool
  words : List Word32
  regions : List Region
  bytes : List (Nat × Byte)
  deriving DecidableEq, Repr, Inhabited

/-- A `.lease` (R198): base address, size in bytes, rights rd, wr, at, cb in bits 0 to 3. -/
structure LeaseDecl where
  va : Nat
  size : Nat
  rights : Nat
  deriving DecidableEq, Repr, Inhabited

/-- A `.group` (R34, R249): entry id and, if given, the member list. -/
structure GroupDecl where
  id : Nat
  members : Option (List Nat)
  deriving DecidableEq, Repr, Inhabited

/-- A `.barrier` (R34, R250): id, expected count, bound group. -/
structure BarDecl where
  id : Nat
  exp : Nat
  grp : Option Nat
  deriving DecidableEq, Repr, Inhabited

/-- An `.overlay`'s bytes in global memory (R38, R233): lease index, offset, words. -/
structure OverlayDecl where
  lease : Nat
  off : Nat
  words : List Word32
  deriving DecidableEq, Repr, Inhabited

/-- A task image as the sorting office reads it (R34, R263). -/
structure Image where
  cls : Nat
  members : List MemImg
  leases : List LeaseDecl
  groups : List GroupDecl
  bars : List BarDecl
  overlays : List OverlayDecl
  deriving DecidableEq, Repr, Inhabited

/-- A handler image and a launch image are lists of words; a task image is bytes whose layout no rule gives:
its reading is free (log 3). -/
opaque Config.imageOf : List Byte → Image

/-- A byte that a rule says is written without saying its value: draw `k`, place `i` (log 3). -/
opaque Config.freeByte : Nat → Nat → Byte

/-- A choice that the spec leaves to the implementation, by draw (log 3). -/
opaque Config.freeNat : Nat → Nat

/-- Whether bring-up verifies both firmware images of the boot store (R377), by draw (log 3). -/
opaque Config.bootOk : Nat → Bool

/-- Whether a unit passes the scan of bring-up (R377), by draw and by its place among the units (log 3). -/
opaque Config.scanOk : Nat → Nat → Bool

/-- Whether the update key accepts a firmware image's signature (R375), by image and signature numbers (log 3). -/
opaque Config.signatureOk : Nat → Nat → Bool

/-- The SHAKE256 digest of a firmware image (R376; log 3). -/
opaque Config.digest : Nat → BitVec 256

/-- The device's signature over an attestation answer (R376; log 3). -/
opaque Config.sign : List Nat → Nat → Nat

/-- The serial number of a die in the device identity record (R376; log 3). -/
opaque Config.serial : Nat → Nat

/-- Where the slots of a carousel direction stand relative to the stops, in passages of two ring cycles, when the clock is 0
(R314; log 34). -/
opaque Config.ringPhase : Bool → Nat

/-- The undervolt retreat threshold of a power domain, in corrected errors per millisecond (R354; log 54). -/
opaque Config.retreatAt : Nat → Nat

/-- The predictive-failure threshold of a brick, in corrected errors per millisecond (R180, R354; log 54). -/
opaque Config.failureAt : Nat

end Sys2Proof
end

