-- ==== Sys2Proof/Machine/State.lean ====
section
/-! DEFINITION. The state of the machine as plain data, the reasons a step can stop, and the state after reset. -/
namespace Sys2Proof.Machine
open Sys2Proof

/-- A step that the machine cannot take at all. Nobody raises one: every meaning answers a next state. Safe. -/
inductive Fault
  /-- Raised by no meaning; the type is closed and kept for the interface. Safe. -/
  | stuck
  deriving DecidableEq, Repr

/-- Why a step has no meaning in the model. -/
inductive Refusal
  /-- Raised by an arm of exec whose instruction has no meaning yet. Safe: nothing is claimed of it. -/
  | notModelled (mnemonic : String)
  deriving DecidableEq, Repr

/-! ## Memory -/

/-- The byte memories (R64): global memory, and every core's data scratchpad, mortar banks, instruction
scratchpad and handler store, each in one flat numbering. -/
inductive Space | glb | spd | mortar | isp | hst
  deriving DecidableEq, Repr

/-- All byte memories, each in canonical form: addresses rising, no zero byte listed. An unlisted byte is
zero, as every memory is after bring-up (R170, R377, R378). -/
structure Mems where
  glb : List Host.Cell
  spd : List Host.Cell
  mortar : List Host.Cell
  isp : List Host.Cell
  hst : List Host.Cell
  deriving DecidableEq, Repr

/-- One write to a byte memory: bytes from an address up, or a run of zeros. -/
inductive MemW
  | bytes (sp : Space) (a : Nat) (bs : List Byte)
  | clear (sp : Space) (a n : Nat)
  deriving DecidableEq, Repr

/-! ## A core -/

/-- An entry of the loop stack (R83). -/
structure LoopEntry where
  start : Nat
  exit : Nat
  stg : Nat
  rem : Nat
  idx : Nat
  deriving DecidableEq, Repr

/-- Where issue stands (R59, R83, R84): the next bundle, the transfer and join bubbles owed before it, the
beats spent on it, and a transfer to a bad target: its `TRAPINFO` and the transferring bundle (R67). -/
structure Seq where
  pc : Nat
  owedT : Nat
  owedJ : Nat
  beat : Nat
  last : Nat
  bad : Option (Nat × Nat)
  deriving DecidableEq, Repr

/-- What falls due at an exposed latency (R12, R60, R126). -/
inductive RegW
  | s (n : Nat) (v : Word)
  | sup (n : Nat) (v : Word)
  | v (n : Nat) (x : Line) (m : Line)
  | p (n : Nat) (x : Pred) (m : Pred)
  | sc (n : Nat) (x : Scales)
  | flags (f : Nat)
  | srw (k : Nat) (v : Word)
  | evctl (op : EvOp) (die : Bool) (mask : Nat)
  | ifence
  | cropen (target : Nat)
  | crclose
  | lease (take : Bool)
  deriving DecidableEq, Repr

/-- An exposed-latency effect: when it falls due, when and where it was issued. -/
structure Pend where
  due : Nat
  issue : Nat
  pos : Nat
  w : RegW
  deriving DecidableEq, Repr

/-- The resumable state of a core (R10, R122): what pre-emption saves and a restart point captures. -/
structure CoreCtx where
  seq : Seq
  halted : Bool
  loops : List LoopEntry
  sregs : FMap Word
  sup : FMap Word
  vregs : FMap Line
  preds : FMap Pred
  scales : FMap Scales
  latches : FMap Line
  fpflags : Nat
  fpctrl : Nat
  evcsel : FMap Nat
  evc : FMap Nat
  crDepth : Nat
  ucore : Nat
  ukind : Nat
  crvec : FMap Nat
  crLoops : List (List LoopEntry)
  halfAct : Bool
  halfA : Nat
  halfB : Nat
  deriving DecidableEq, Repr

/-- The last instruction fill (R227). -/
structure IfStat where
  valid : Bool
  busy : Bool
  half : Bool
  fenced : Bool
  code : Nat
  addr : Nat
  deriving DecidableEq, Repr

/-- An entry of an operand queue (R237). -/
structure QEntry where
  posted : Nat
  sender : Nat
  seq : Nat
  data : Line
  deriving DecidableEq, Repr

/-- An AMO between its issue and its covered write (R186): course reservation and the write. `prior` marks one that a handler's
last bundle issued, before every bundle of the TTC cycle that `issue` names (R336). -/
structure AmoW where
  issue : Nat
  course : Nat
  addr : Nat
  n : Nat
  value : Nat
  void : Bool
  sup : Bool
  prior : Bool
  deriving DecidableEq, Repr

/-- A PSEAL in progress (R188). `dirty` lists the lines that a bulk write made stale after their read cycle. -/
structure SealOp where
  issue : Nat
  course : Nat
  line : Nat
  n : Nat
  dirty : List Nat
  sup : Bool
  prior : Bool
  deriving DecidableEq, Repr

/-- Health of a physical course (R180, R181): failed bricks in the order they failed, and the failing mark. -/
structure Course where
  bricks : List Nat
  failing : Bool
  deriving DecidableEq, Repr

/-- How an access loads its course (R173). -/
inductive AccKind | read | covered | bulk | line
  deriving DecidableEq, Repr

/-- An access of one cycle to the scratchpad: its row (the first of a line), and the position that makes it; 16 for
deliveries, engines, command reads and seals, 17 for the reservation of an AMO (R173, R174). -/
structure Access where
  row : Nat
  kind : AccKind
  pos : Nat
  deriving DecidableEq, Repr

/-- The array lease of a die (R299, R300): holder's core, grant cycle, commands issued. -/
structure ArrayLease where
  holder : Option Nat
  grant : Nat
  count : Nat
  deriving DecidableEq, Repr

/-- The restart state of a core (R338). -/
structure Restart where
  pc : Nat
  ttc : Nat
  ctx : CoreCtx
  tshape : FMap Nat
  lease : ArrayLease
  scanBase : Nat
  deriving DecidableEq, Repr

/-- Everything one core holds. `evq` counts the events of the cycle in progress (R128), `popq` its queue pops (R237),
`staleQ` the lines that become stale at its end (R176), `accq` the deliveries and engine reads of it (R174): the
model's own (log 2), and `rebuilds` the rows that it serves by reconstruction (R173). `touched` lists the courses accessed in the last cycle; `sweep` lists the courses whose sweep has read a
line, as twice the line, plus 1 once a cycle without an access has followed (R177). `dws` is the sum of the `DW` issued since the last energy sample (R356). -/
structure Core where
  ctx : CoreCtx
  hseq : Seq
  ifstat : IfStat
  ifsum : Nat
  startMap : List Nat
  hstart : List Nat
  resInvalid : Bool
  hstInvalid : Bool
  trapvec : Nat
  trappc : Nat
  cause : Nat
  ends : Bool
  event : Bool
  trapcore : Nat
  trapinfo : Nat
  rstpc : Nat
  rstvalid : Bool
  restart : Option Restart
  pend : List Pend
  hpend : List Pend
  win : List Nat
  evq : FMap Nat
  popq : FMap Nat
  staleQ : List Nat
  accq : List Access
  rebuilds : List Nat
  touched : List Nat
  sweep : FMap Nat
  dws : Nat
  stale : List Nat
  poison : List Nat
  courses : FMap Course
  xm : Nat
  regions : List Region
  marks : List Nat
  amos : List AmoW
  seals : List SealOp
  queues : FMap (List QEntry)
  lanes : FMap (Option Nat)
  checkers : FMap (Nat × Nat)
  groups : List Nat
  gang : Option Nat
  member : Nat
  scanPos : Nat
  outOfPlace : Bool
  breakpoint : Option Nat
  deriving DecidableEq, Repr

/-! ## Gangs -/

/-- What a member waits for at a collective wait (R253); `met` is a wait whose unit has found its condition to hold (R254, R259). -/
inductive Wait
  | bar (id target : Nat)
  | sig (pa home : Nat) (v : Nat)
  | task (no : Nat)
  | pod (since : Nat)
  | scan
  | met
  deriving DecidableEq, Repr

/-- Where a gang stands (R11, R254, R269, R333). -/
inductive GStat
  | running
  | held (waits : List (Nat × Wait)) (since : Nat)
  | handler (core : Nat)
  | ended
  deriving DecidableEq, Repr

/-- An event trap that is due or pending (R331, R381). -/
structure EventTrap where
  due : Nat
  core : Nat
  issue : Nat
  pos : Nat
  cause : Nat
  info : Nat
  pc : Option Nat
  deriving DecidableEq, Repr

/-- A change of domain class on its way to a gang: the class, the domains of its members' clusters, and when it reached the gang
clock controller (R80, R348). -/
structure ClassChange where
  cls : Nat
  doms : List Nat
  since : Nat
  deriving DecidableEq, Repr

/-- A gang (R262): its identity, its clock, where it stands. `stretch` is the largest step of its regulators as its clock has
taken it (R350); `doms` are the domains in force for its clusters and `domNext` the changes on their way, oldest first (R348); `clocks` counts its TTC cycles by their clock in kHz (R356); `hevents` are the traps that its handler's own operations raise (R334, R381). -/
structure Gang where
  live : Bool
  tenant : Nat
  task : Nat
  members : List Nat
  cls : Nat
  hcls : Nat
  hasHandler : Bool
  domCls : Nat
  doms : List Nat
  domNext : List ClassChange
  sh : Nat
  ttc : Nat
  hcyc : Nat
  stat : GStat
  dbg : Bool
  dbgSince : Nat
  preempt : Bool
  scanBase : Nat
  stretch : Nat
  events : List EventTrap
  hevents : List EventTrap
  enmeas : Nat
  khz : Nat
  why : Nat
  half : Bool
  halfPhase : Bool
  nextAt : Nat
  cycles : Nat
  wallRun : Nat
  clocks : FMap Nat
  thr : FMap Nat
  deriving DecidableEq, Repr

/-! ## Operations in flight -/

/-- One access to bytes of global memory: virtual and machine address, bytes, home, lease id (R200, R201). -/
structure Acc where
  va : Nat
  pa : Nat
  n : Nat
  home : Nat
  lid : Nat
  pod : Bool
  deriving DecidableEq, Repr

/-- An end of an engine command (R212): a core's scratchpad, or global memory. -/
inductive End
  | spd (core : Nat)
  | glb
  deriving DecidableEq, Repr

/-- A stretch of an engine command: destination and source addresses and bytes, or a pattern repeated. -/
structure Seg where
  d : Nat
  s : Option Nat
  n : Nat
  pat : List Byte
  deriving DecidableEq, Repr

/-- A copy or fill (R213-R222): its ends, its stretches, and the mask line if any. -/
structure EngCmd where
  dst : End
  src : End
  segs : List Seg
  mask : Option (Nat × List Byte)
  deriving DecidableEq, Repr

/-- Deque requests (R260). -/
inductive DqOp | push | pop | steal
  deriving DecidableEq, Repr

/-- Carousel commands that occupy a catch register (R319). -/
inductive CarKind | board | alight | catch_ | catchv | repl
  deriving DecidableEq, Repr

/-- How far a carousel command has come (R318, R321). -/
inductive CarState
  | armed
  | refused (reason : Nat)
  | done (ver : Nat) (poison : Bool)
  deriving DecidableEq, Repr

structure CarCmd where
  kind : CarKind
  ccw : Bool
  cp : Bool
  rt : Nat
  line : Nat
  name : Nat
  ver : Nat
  st : CarState
  deriving DecidableEq, Repr

/-- What an operation does when it performs and when it commits. -/
inductive FOp
  | gload (line : Bool) (sz : MSize) (sx : Bool) (rt : Nat)
  | gstore
  | gamo (op : AmoOp) (rt : Nat) (v w : Word)
  | signal (v : Word)
  | eng (c : EngCmd)
  | ifill (half : Bool) (n : Nat)
  | send (targets : List Nat) (que seq : Nat)
  | bar (drop : Bool) (rt id : Nat)
  | deq (op : DqOp) (rt id : Nat) (v : Word)
  | launch (rt : Nat)
  | roster (ccw : Bool) (rt name : Nat)
  | car (c : CarCmd)
  | tload (m tr q : Bool) (tile first n line : Nat)
  | tstore (line : Nat)
  | tscl (tile g n line : Nat)
  | tzero (tile : Nat)
  | mma (acc : Nat) (out : FMap Nat)
  | tcvt (tile : Nat) (out : FMap Nat)
  | mcfg (shapes : FMap Nat)
  deriving DecidableEq, Repr

/-- An operation in flight (R12): when it was issued and falls due, the accesses it makes at homes, the parts
performed, the links that each part has crossed (R236), the bytes it carries, and whether it has arrived or, for an engine
command, started. `toSup` is whether its result goes to the supervisor file (R334). `held` marks one that the package delays; `retryAt` is when a refused request is to be sent again (R203). -/
structure Flight where
  id : Nat
  gang : Nat
  core : Nat
  pos : Nat
  issue : Nat
  sup : Bool
  toSup : Bool
  start : Nat
  posted : Nat
  done : Nat
  op : FOp
  accs : List Acc
  src : List Byte
  got : FMap (List Byte)
  badParts : List Nat
  parts : List Nat
  lines : List Nat
  hops : FMap Nat
  res : Nat
  flags : Nat
  arrived : Bool
  held : Bool
  refusals : Nat
  retryAt : Option Nat
  down : Bool
  deriving DecidableEq, Repr

/-! ## Dies -/

/-- An entry of a range lease table (R199). -/
structure Rle where
  vbase : Nat
  pages : Nat
  pbase : Nat
  rd : Bool
  wr : Bool
  at_ : Bool
  cb : Bool
  place : Nat
  home : Nat
  lid : Nat
  ten : Nat
  gang : Nat
  deriving DecidableEq, Repr

/-- A tile (R295): its elements, its invalid rows, its scale plane. Unlisted elements hold the format's zero,
unlisted rows are valid, unlisted scale bytes are 127 (R296). -/
structure Tile where
  elems : FMap Nat
  invalid : List Nat
  scale : FMap Nat
  deriving DecidableEq, Repr

/-- A slot of a time wheel (R236, R367). -/
structure WSlot where
  own : Bool
  ten : Nat
  gang : Nat
  deriving DecidableEq, Repr

/-- Everything one die holds. -/
structure Die where
  rlt : List Rle
  lids : List Nat
  revoked : List Nat
  up : Bool
  amoflags : FMap Nat
  wheelOut : FMap WSlot
  wheelIn : FMap WSlot
  wheelPosOut : Nat
  wheelPosIn : Nat
  devsel : FMap Nat
  devc : FMap Nat
  tshape : FMap Nat
  shapes : FMap Nat
  tiles : FMap Tile
  lease : ArrayLease
  streamEnd : Nat
  mcfgAt : Option Nat
  arrayGang : Option Nat
  strip : Nat
  arrayOut : Bool
  trip : Bool
  tripSince : Nat
  deriving DecidableEq, Repr

/-! ## The hub -/

/-- A group-table entry (R248, R265): member cores and their tasks, the tenant, the holding tasks, and the tasks to which
residency has assigned it and that are still to be placed. -/
structure Group where
  mem : List (Nat × Nat)
  ten : Nat
  holders : List Nat
  claims : List Nat
  deriving DecidableEq, Repr

inductive BarState | free | held | drained
  deriving DecidableEq, Repr

/-- A barrier (R250): `exp0` is the count that its first launch gave. -/
structure Barrier where
  exp : Nat
  exp0 : Nat
  cnt : Nat
  dpend : Nat
  ph : Nat
  grp : Option Nat
  ten : Nat
  st : BarState
  holders : List Nat
  deriving DecidableEq, Repr

/-- A deque (R255): entries from bottom to top. -/
structure Deque where
  ten : Option Nat
  cap : Nat
  items : List Word
  owner : Option Nat
  deriving DecidableEq, Repr

/-- A carousel slot (R314, R315). -/
structure Slot where
  own : Bool
  ten : Nat
  full : Bool
  name : Nat
  ver : Nat
  poison : Bool
  withdraw : Bool
  data : List Byte
  deriving DecidableEq, Repr

/-- Where a task stands in the sorting office (R265). -/
inductive Stage
  | queued | admitted | resident | placed | filled | run | saved | ending | closed
  deriving DecidableEq, Repr

/-- A saved array: its die, tiles, shape registers, committed shapes, lease, the end of the last multiply's stream and the
commit of a pending MCFG (R270, R298, R303, R313). -/
structure SavedArray where
  die : Nat
  tiles : FMap Tile
  tshape : FMap Nat
  shapes : FMap Nat
  lease : ArrayLease
  streamEnd : Nat
  mcfgAt : Option Nat
  deriving DecidableEq, Repr

/-- A pre-empted gang's context (R270). -/
structure Saved where
  gang : Gang
  gid : Nat
  cores : List (Nat × Core)
  spd : List (Nat × List Host.Cell)
  mortar : List (Nat × List Host.Cell)
  isp : List (Nat × List Host.Cell)
  arrays : List SavedArray
  crcs : List Nat
  deriving DecidableEq, Repr

/-- A task (R263, R275): the address of its launch record and the record as read, the hub cycle of its post and its poster (0
the host, k + 1 core k; R361), whether the record has been taken from its queue, its image, what it holds, and the fields of its completion record. -/
structure Task where
  no : Nat
  ten : Nat
  prio : Nat
  addr : Nat
  lrec : BitVec 2048
  order : Nat
  hubAt : Nat
  from_ : Nat
  seen : Bool
  stage : Stage
  eligible : Option Nat
  predf : Bool
  predsSeen : List (Nat × Nat)
  image : Image
  runs : List Rle
  s2wait : Option (Nat × Nat)
  lids : List Nat
  cores : List Nat
  gid : Nat
  saved : Option Saved
  kind : Nat
  code : Nat
  vcode : Nat
  info : Nat
  ipc : Nat
  icore : Nat
  barw : Bool
  degr : Bool
  conf : Bool
  susp : Bool
  preempts : Nat
  ran : Bool
  wstart : Nat
  wend : Nat
  ttcEnd : Nat
  energy : Nat
  mhz : Nat
  thr : FMap Nat
  wbDone : Bool
  crecPa : Option (Nat × Nat)
  useStart : Nat
  used : List ScanUnit
  deriving DecidableEq, Repr

/-- A regulator (R349). -/
structure Reg where
  imeas : Nat
  ilim : Nat
  phok : Nat
  step : Nat
  low : Nat
  derated : Bool
  deriving DecidableEq, Repr

/-- A cluster's configuration (R348). -/
structure ClCfg where
  reg : Nat
  dom : Nat
  vstep : Nat
  retr : Bool
  deriving DecidableEq, Repr

/-- Corrected errors of a domain or a brick in one millisecond of WTC, and whether the retreat has been made in it (R354). -/
structure ErrRate where
  ms : Nat
  n : Nat
  hit : Bool
  deriving DecidableEq, Repr

/-- A firmware image in force (R371, R375). -/
structure Fw where
  version : Nat
  leaf : Nat
  image : Nat
  minVersion : Nat
  beat : Nat
  updating : Bool
  deriving DecidableEq, Repr

/-- An entry of the event log (R372). -/
structure LogEntry where
  seq : Nat
  cls : Nat
  die : Nat
  ten : Nat
  wtc : Nat
  data : Nat
  deriving DecidableEq, Repr

/-- What the device has answered to the host or a pod peer, or written to the host (R360-R366, R374, R376). -/
inductive Answer
  | data (ok : Bool) (bs : List Byte)
  | status (n : Nat)
  | retry (ns : Nat)
  | error
  | notify (addr : Nat)
  | mirror (ten : Nat) (addr : Nat) (bs : List Byte)
  | outbound (id port peer ten key addr : Nat) (k : PodKind)
  | identity (part stepping : Nat) (serials versions : List Nat) (digests : List (BitVec 256)) (nonce : BitVec 256) (leaves : Nat)
    (sig : Nat)
  | stage2 (ia va task : Nat)
  deriving DecidableEq, Repr

/-- A pod route (R369). -/
structure Route where
  valid : Bool
  ports : Nat
  peer : Nat
  ten : Nat
  key : Nat
  ref : Nat
  deriving DecidableEq, Repr

/-- A tenant key table entry (R365). -/
structure KeyEntry where
  valid : Bool
  rights : Nat
  gang : Nat
  ten : Nat
  key : Nat
  miss : Nat
  deriving DecidableEq, Repr

/-- A pod port: key table, link state, wheels and their positions, requests refused by the link, and the responses that wait to
leave, oldest first: each with its request's tenant, and the number that the next operation had when it began to wait (R367). -/
structure Port where
  keys : FMap KeyEntry
  up : Bool
  wheelOut : FMap WSlot
  wheelIn : FMap WSlot
  wheelPosOut : Nat
  wheelPosIn : Nat
  refused : FMap Nat
  resp : List (Nat × Answer × Nat)
  deriving DecidableEq, Repr

def Port.idle : Port :=
  { keys := [], up := true, wheelOut := [], wheelIn := [], wheelPosOut := 0, wheelPosIn := 0, refused := [], resp := [] }

/-- A pod operation with requests that are to leave or wait for their acknowledgements (R370), one for each 64-byte block: `left`
have left and `togo` are still to leave. `after` is the first TTC whose bundles come after it. A gang of 4096 is none: its task has
ended. -/
structure PodOut where
  id : Nat
  gang : Nat
  core : Nat
  after : Nat
  route : Nat
  port : Nat
  ten : Nat
  left : Nat
  togo : Nat
  deriving DecidableEq, Repr

/-- Everything of the hub die and of the package. `ringAt` counts the passages of two ring cycles that the carousel's ring has made
in each direction (R314), `nominal` when a cluster came to its nominal voltage (R354), `relWait` the retirements and clearances that
wait for the reliability image (R371), `bootBad` the images, the reliability image as true, that failed as they were loaded at power-on
(R377). -/
structure Hub where
  iseta : Nat
  isetb : Nat
  groups : FMap Group
  barriers : FMap Barrier
  deques : FMap Deque
  watches : List (Nat × Nat)
  tenants : FMap (BitVec 384)
  tasks : List Task
  rr : FMap Nat
  outcomes : FMap (List (Nat × Nat))
  faults : List (Nat × Nat × Nat)
  slots : FMap Slot
  pendBoards : List (Nat × Bool × Nat)
  ringAt : Nat
  clcfg : FMap ClCfg
  domcls : Nat
  regs : FMap Reg
  freq : FMap Nat
  frozen : Bool
  safe : Bool
  goodBeats : Nat
  uvUntil : FMap Nat
  errs : FMap ErrRate
  nominal : FMap Nat
  relWait : List Instr
  bootBad : List Bool
  ports : FMap Port
  routes : FMap Route
  podOut : List PodOut
  log : List LogEntry
  seq : Nat
  mirrors : FMap Nat
  fw : FMap Fw
  leaves : Nat
  mailOpen : Bool
  out : List Answer
  nextLid : Nat
  order : Nat
  deriving DecidableEq, Repr

/-! ## The whole -/

/-- The slot being issued: its core, position, literal words, bundle address and the word after the bundle,
issue cycle, whether it issues at supervisor level, whether the bundle holds a BRSWAP, and the lines that its catches deliver, each
with its commit cycle (R223). The model's own (log 2). -/
structure Ctx where
  core : Nat
  pos : Nat
  lits : List Nat
  pc : Nat
  nxt : Nat
  issue : Nat
  sup : Bool
  swap : Bool
  catches : List (Nat × Nat)
  deriving DecidableEq, Repr

/-- The trap or consumption that a slot has just taken; the cycle driver reads it. The model's own (log 2). -/
inductive Abort
  | trap (core cause info pc : Nat)
  | consume (core kind addr : Nat)
  deriving DecidableEq, Repr

/-- One entry of the order in which the outside world and the asynchronous agents act (log 1). -/
inductive Turn
  | ev (i : Instr)
  | cycle (gang : Nat)
  | pass (fs : Nat)
  deriving DecidableEq, Repr

/-- Everything but the byte memories. `now` counts femtoseconds; WTC is its nanoseconds from a reference (R127). -/
structure World where
  cores : FMap Core
  gangs : FMap Gang
  dies : FMap Die
  hub : Hub
  flights : List Flight
  gpoison : List Nat
  softErrs : List (ErrSite × Bool × Nat)
  cur : Ctx
  script : List Turn
  now : Nat
  wtcRef : Nat
  draws : Nat
  nextId : Nat
  abort : Option Abort
  deriving DecidableEq, Repr

/-- The machine. -/
structure State where
  w : World
  mem : Mems
  deriving DecidableEq, Repr

/-- What a meaning does: the new world and its writes to the byte memories, in order. -/
structure Act where
  w : World
  out : List MemW
  deriving DecidableEq, Repr

/-! ## Values at reset -/

def Seq.zero : Seq := { pc := 0, owedT := 0, owedJ := 0, beat := 0, last := 0, bad := none }

/-- A core at task start (R83, R101, R131, R160, R225): `FEN` is 0x1F, half A active, half B empty. -/
def CoreCtx.zero : CoreCtx :=
  { seq := Seq.zero, halted := false, loops := [], sregs := [], sup := [], vregs := [], preds := [],
    scales := [], latches := [], fpflags := 0, fpctrl := 0x1F, evcsel := [], evc := [], crDepth := 0,
    ucore := 0, ukind := 0, crvec := [], crLoops := [], halfAct := false, halfA := 1, halfB := 0 }

def IfStat.zero : IfStat :=
  { valid := false, busy := false, half := false, fenced := false, code := 0, addr := 0 }

def ArrayLease.free : ArrayLease := { holder := none, grant := 0, count := 0 }

/-- A core after bring-up (R378). -/
def Core.zero : Core :=
  { ctx := CoreCtx.zero, hseq := Seq.zero, ifstat := IfStat.zero, ifsum := 0, startMap := [], hstart := [],
    resInvalid := false, hstInvalid := false, trapvec := 0, trappc := 0, cause := 0, ends := false, event := false, trapcore := 0,
    trapinfo := 0, rstpc := 0, rstvalid := false, restart := none, pend := [], hpend := [], win := [],
    evq := [], popq := [], staleQ := [], accq := [], rebuilds := [], touched := [], sweep := [], dws := 0,
    stale := [], poison := [], courses := [], xm := 0, regions := [], marks := [], amos := [], seals := [],
    queues := [], lanes := [], checkers := [], groups := [], gang := none, member := 0, scanPos := 0,
    outOfPlace := false, breakpoint := none }

/-- No gang under this number. The nominal clock is 3.6 GHz (R15, R124). -/
def Gang.zero : Gang :=
  { live := false, tenant := 0, task := 0, members := [], cls := 0, hcls := 0, hasHandler := false,
    domCls := 0, doms := [], domNext := [], sh := 1024, ttc := 0, hcyc := 0, stat := .running,
    dbg := false, dbgSince := 0, preempt := false, scanBase := 0, stretch := 0, events := [], hevents := [], enmeas := 0, khz := 3600000,
    why := 0, half := false, halfPhase := false, nextAt := 0, cycles := 0, wallRun := 0, clocks := [], thr := [] }

def Tile.cleared : Tile := { elems := [], invalid := [], scale := [] }

def Die.zero : Die :=
  { rlt := [], lids := [], revoked := [], up := true, amoflags := [], wheelOut := [],
    wheelIn := [], wheelPosOut := 0, wheelPosIn := 0, devsel := [], devc := [], tshape := [], shapes := [], tiles := [],
    lease := ArrayLease.free, streamEnd := 0, mcfgAt := none, arrayGang := none, strip := 0,
    arrayOut := false, trip := false, tripSince := 0 }

/-- The hub after bring-up (R197, R348, R349, R378). -/
def Hub.zero : Hub :=
  { iseta := 1 + 0x76543210 * 2 ^ 4, isetb := 0x00007654 * 2 ^ 4, groups := [], barriers := [], deques := [],
    watches := [], tenants := [], tasks := [], rr := [], outcomes := [], faults := [], slots := [],
    pendBoards := [], ringAt := 0, clcfg := [], domcls := 0, regs := [], freq := [], frozen := false, safe := false,
    goodBeats := 0, uvUntil := [], errs := [], nominal := [], relWait := [], bootBad := [], ports := [], routes := [], podOut := [], log := [], seq := 0, mirrors := [],
    fw := [], leaves := 0, mailOpen := true, out := [], nextLid := 0, order := 0 }

def Ctx.zero : Ctx := { core := 0, pos := 0, lits := [], pc := 0, nxt := 0, issue := 0, sup := false, swap := false, catches := [] }

def Mems.zero : Mems := { glb := [], spd := [], mortar := [], isp := [], hst := [] }

def World.zero : World :=
  { cores := [], gangs := [], dies := [], hub := Hub.zero, flights := [], gpoison := [], softErrs := [],
    cur := Ctx.zero, script := [], now := 0, wtcRef := 0, draws := 0, nextId := 0, abort := none }

/-- The machine when bring-up has completed (R377, R378). -/
def State.reset : State := { w := World.zero, mem := Mems.zero }

end Sys2Proof.Machine
end

