-- ==== Sys2Proof/Machine/Maps.lean ====
section
/-! DEFINITION. The sparse maps and the byte memories: reading and writing them. -/
namespace Sys2Proof.Machine
open Sys2Proof

/-- The value of key `k`; a key that is not listed has the value `d`. -/
def fget {α : Type} (m : FMap α) (d : α) (k : Nat) : α :=
  match m with
  | [] => d
  | e :: r => if e.1 == k then e.2 else fget r d k

/-- The map without key `k`. -/
def fdel {α : Type} (m : FMap α) (k : Nat) : FMap α := m.filter (fun e => e.1 != k)

/-- An entry put before the first greater key. -/
def fins {α : Type} (m : FMap α) (k : Nat) (v : α) : FMap α :=
  match m with
  | [] => [(k, v)]
  | e :: r => if k < e.1 then (k, v) :: e :: r else e :: fins r k v

/-- The map with key `k` listed with value `v`. -/
def fput {α : Type} (m : FMap α) (k : Nat) (v : α) : FMap α := fins (fdel m k) k v

/-- The map with value `v` at `k`, where the value `d` is not listed. -/
def fset {α : Type} [DecidableEq α] (m : FMap α) (d : α) (k : Nat) (v : α) : FMap α :=
  if v = d then fdel m k else fput m k v

/-- A set of numbers, rising: with `k`. -/
def sadd (l : List Nat) (k : Nat) : List Nat :=
  match l with
  | [] => [k]
  | e :: r => if k == e then e :: r else if k < e then k :: e :: r else e :: sadd r k

/-- A set of numbers without `k`. -/
def sdel (l : List Nat) (k : Nat) : List Nat := l.filter (fun e => e != k)

/-- An element put before the first of a greater key. -/
def insertBy {α : Type} (key : α → Nat) (x : α) : List α → List α
  | [] => [x]
  | y :: r => if key x < key y then x :: y :: r else y :: insertBy key x r
/-- A list by rising key; equal keys keep their order. -/
def sortBy {α : Type} (key : α → Nat) (l : List α) : List α := l.foldl (fun a x => insertBy key x a) []

/-! ## Bytes -/

/-- The byte at an address: zero where none is listed. -/
def cellAt (m : List Host.Cell) (a : Nat) : Byte :=
  match m with
  | [] => 0
  | e :: r => if e.1 == a then e.2 else cellAt r a

/-- The cells of `n` bytes from `a`. -/
def slice (m : List Host.Cell) (a n : Nat) : List Host.Cell :=
  m.filter (fun e => decide (a ≤ e.1) && decide (e.1 < a + n))

/-- The `n` bytes from `a`. -/
def bytesAt (m : List Host.Cell) (a n : Nat) : List Byte :=
  let s := slice m a n
  (List.range n).map (fun i => cellAt s (a + i))

/-- The listed cells of bytes written from `a`: those that are not zero. -/
def newCells (a : Nat) (bs : List Byte) : List Host.Cell :=
  match bs with
  | [] => []
  | b :: r => if b == 0 then newCells (a + 1) r else (a, b) :: newCells (a + 1) r

/-- The memory with the bytes `bs` from `a`, in canonical form. -/
def writeBytes (m : List Host.Cell) (a : Nat) (bs : List Byte) : List Host.Cell :=
  m.filter (fun e => decide (e.1 < a)) ++ newCells a bs ++ m.filter (fun e => decide (a + bs.length ≤ e.1))

/-- The memory with `n` zero bytes from `a`. -/
def clearBytes (m : List Host.Cell) (a n : Nat) : List Host.Cell :=
  m.filter (fun e => decide (e.1 < a)) ++ m.filter (fun e => decide (a + n ≤ e.1))

/-- A little-endian number (R36, R64). -/
def leNat : List Byte → Nat
  | [] => 0
  | b :: r => b.toNat + 256 * leNat r

/-- The low `n` bytes of a number, little-endian. -/
def leBytes : Nat → Nat → List Byte
  | 0, _ => []
  | n + 1, v => BitVec.ofNat 8 v :: leBytes n (v / 256)

/-- Addresses rise strictly above `lo`, and no byte listed is zero. -/
def canonFrom (lo : Nat) : List Host.Cell → Bool
  | [] => true
  | e :: r => decide (lo ≤ e.1) && e.2 != 0 && canonFrom (e.1 + 1) r

/-- The canonical form of a byte memory. -/
def canon (m : List Host.Cell) : Bool := canonFrom 0 m

/-- Every byte memory is in canonical form. -/
def Memory.wf (m : Mems) : Bool := canon m.glb && canon m.spd && canon m.mortar && canon m.isp && canon m.hst

def Mems.cells (m : Mems) : Space → List Host.Cell
  | .glb => m.glb
  | .spd => m.spd
  | .mortar => m.mortar
  | .isp => m.isp
  | .hst => m.hst

def Mems.setCells (m : Mems) (sp : Space) (c : List Host.Cell) : Mems :=
  match sp with
  | .glb => { m with glb := c }
  | .spd => { m with spd := c }
  | .mortar => { m with mortar := c }
  | .isp => { m with isp := c }
  | .hst => { m with hst := c }

/-- One write (R64: `mem` as a destination). -/
def Mems.apply (m : Mems) : MemW → Mems
  | .bytes sp a bs => m.setCells sp (writeBytes (m.cells sp) a bs)
  | .clear sp a n => m.setCells sp (clearBytes (m.cells sp) a n)

/-- Writes in order. -/
def Mems.applyAll (m : Mems) : List MemW → Mems
  | [] => m
  | x :: r => Mems.applyAll (m.apply x) r

/-- The byte of a space at a flat address. -/
def Mems.byte (m : Mems) (sp : Space) (a : Nat) : Byte := cellAt (m.cells sp) a

/-- `mem(sp, a, n)` as bytes. -/
def Mems.bytes (m : Mems) (sp : Space) (a n : Nat) : List Byte := bytesAt (m.cells sp) a n

/-- `mem(sp, a, n)` as a number. -/
def Mems.num (m : Mems) (sp : Space) (a n : Nat) : Nat := leNat (m.bytes sp a n)

/-- What a meaning did, as a state. -/
def State.commit (s : State) (a : Act) : State := { w := a.w, mem := s.mem.applyAll a.out }

/-- The answer of every meaning: the next state. -/
def done (s : State) (a : Act) : Host.Outcome State Fault Refusal := .next (s.commit a)

/-- An action that writes no memory. -/
def only (w : World) : Act := { w := w, out := [] }

/-- A second action after a first. -/
def State.andThen (s : State) (a : Act) (f : State → Act) : Act :=
  let b := f (s.commit a)
  { w := b.w, out := a.out ++ b.out }

/-! ## Places in the flat memories -/

/-- A scratchpad byte of a core: 21 bits (R170). -/
def spdAt (core addr : Nat) : Nat := core * 2 ^ 21 + addr % 2 ^ 21
/-- A mortar row's first byte: course and line (R170). -/
def mortarAt (core course line : Nat) : Nat := core * 2 ^ 19 + course * 2 ^ 14 + line * 2 ^ 8
/-- An instruction word's first byte (R225). -/
def ispAt (core word : Nat) : Nat := core * 2 ^ 18 + 4 * (word % 2 ^ 16)
/-- A handler-store word's first byte (R334). -/
def hstAt (core word : Nat) : Nat := core * 2 ^ 14 + 4 * (word % 2 ^ 12)

end Sys2Proof.Machine
end

