-- ==== Sys2Proof/Machine/Ops.lean ====
section
/-! DEFINITION. The named operations: reaching cores, gangs and dies, reading and posting registers, counting
events, logging, taking an exception and returning from one, consuming an error, leases and homes. -/
namespace Sys2Proof.Machine
open Sys2Proof

/-! ## Places -/

/-- The die of a core id (R8). -/
def dieOf (core : Nat) : Nat := core / 8
/-- The 48 ids that name a core (R8). -/
def coreExists (core : Nat) : Bool :=
  (32 ≤ core && core < 64) || (core < 32 && core % 8 < 4)
/-- A control core of an MX die (R7). -/
def isMx (core : Nat) : Bool := core < 32 && core % 8 < 4
/-- Every core id, rising. -/
def allCores : List Nat := (List.range 64).filter coreExists

def World.core (w : World) (k : Nat) : Core := fget w.cores Core.zero k
def World.setCore (w : World) (k : Nat) (c : Core) : World := { w with cores := fput w.cores k c }
def World.modCore (w : World) (k : Nat) (f : Core → Core) : World := w.setCore k (f (w.core k))
def World.modCtx (w : World) (k : Nat) (f : CoreCtx → CoreCtx) : World :=
  w.modCore k (fun c => { c with ctx := f c.ctx })
def World.gang (w : World) (k : Nat) : Gang := fget w.gangs Gang.zero k
def World.setGang (w : World) (k : Nat) (g : Gang) : World := { w with gangs := fput w.gangs k g }
def World.modGang (w : World) (k : Nat) (f : Gang → Gang) : World := w.setGang k (f (w.gang k))
def World.die (w : World) (k : Nat) : Die := fget w.dies Die.zero k
def World.setDie (w : World) (k : Nat) (d : Die) : World := { w with dies := fput w.dies k d }
def World.modDie (w : World) (k : Nat) (f : Die → Die) : World := w.setDie k (f (w.die k))
def World.modHub (w : World) (f : Hub → Hub) : World := { w with hub := f w.hub }
/-- The wall-time counter in nanoseconds (R127). -/
def World.wtc (w : World) : Nat := (w.now / 1000000 + w.wtcRef) % 2 ^ 64
/-- The gang number of a core; 4096, which no gang has, for a core without one. -/
def World.gangOf (w : World) (core : Nat) : Nat := (w.core core).gang.getD 4096
def World.gangAt (w : World) (core : Nat) : Gang := w.gang (w.gangOf core)
/-- The tenant a core runs for. -/
def World.tenOf (w : World) (core : Nat) : Nat := (w.gangAt core).tenant
/-- The numbers of the gangs that exist, rising. -/
def World.liveGangs (w : World) : List Nat := (w.gangs.filter (fun e => e.2.live)).map (·.1)
def World.task? (w : World) (ten no : Nat) : Option Task :=
  w.hub.tasks.find? (fun t => t.ten == ten && t.no == no && t.stage != .closed && !t.cores.isEmpty)
/-- Change the open tasks that a test selects. -/
def World.modTask (w : World) (p : Task → Bool) (f : Task → Task) : World :=
  w.modHub (fun h => { h with tasks := h.tasks.map (fun t => if p t then f t else t) })
/-- The open task of a gang: it has been placed. -/
def isTaskOf (g : Gang) (t : Task) : Bool :=
  t.ten == g.tenant && t.no == g.task && t.stage != .closed && !t.cores.isEmpty

/-! ## The slot being issued -/

def World.cc (w : World) : Core := w.core w.cur.core
def World.onCur (w : World) (f : Core → Core) : World := w.modCore w.cur.core f
def World.onCtx (w : World) (f : CoreCtx → CoreCtx) : World := w.modCtx w.cur.core f

/-- `rd(sN)` of a core at a level: `s0` reads zero, and a handler has a file of its own (R60, R100, R334). -/
def sreg (c : Core) (sup : Bool) (n : Nat) : Word :=
  if n == 0 then 0 else if sup then fget c.ctx.sup 0 n else fget c.ctx.sregs 0 n
def World.rdS (w : World) (n : Nat) : Word := sreg w.cc w.cur.sup n
/-- `rd(vN)` (R131). -/
def World.rdV (w : World) (n : Nat) : Line := fget w.cc.ctx.vregs 0 n
/-- `rd(pN)`: `p0` reads all ones (R60, R136). -/
def preg (c : Core) (n : Nat) : Pred := if n == 0 then BitVec.allOnes 1024 else fget c.ctx.preds 0 n
def World.rdP (w : World) (n : Nat) : Pred := preg w.cc n
/-- `rd(scN)` (R167). -/
def World.rdSc (w : World) (n : Nat) : Scales := fget w.cc.ctx.scales 0 n
/-- Literal word `k` of the bundle (R57). -/
def World.lit (w : World) (k : Nat) : Nat := w.cur.lits.getD k 0 % 2 ^ 32
/-- A literal word sign-extended to 64 bits (R64). -/
def sext32 (n : Nat) : Word := (BitVec.ofNat 32 n).signExtend 64
/-- Operand b, the literal sign-extended (R102). -/
def World.src (w : World) : Src → Word
  | .reg n => w.rdS n
  | .lit k => sext32 (w.lit k)
/-- Operand b, the literal zero-extended (R116, R223, R238). -/
def World.srcZ (w : World) : Src → Word
  | .reg n => w.rdS n
  | .lit k => BitVec.ofNat 64 (w.lit k)

/-! ## Exposed-latency writes (R12, R64) -/

/-- An effect due `lat` cycles after issue, on the clock of the slot's level (R334). -/
def World.post (w : World) (lat : Nat) (r : RegW) : World :=
  let p : Pend := { due := w.cur.issue + lat, issue := w.cur.issue, pos := w.cur.pos, w := r }
  w.onCur (fun c => if w.cur.sup then { c with hpend := c.hpend ++ [p] } else { c with pend := c.pend ++ [p] })
/-- `wr_at(issue + lat, sN, v)`: a write to `s0` falls due as any other and is then discarded (R60). -/
def World.wrS (w : World) (lat n : Nat) (v : Word) : World :=
  w.post lat (if w.cur.sup then .sup n v else .s n v)
def World.wrV (w : World) (lat n : Nat) (x m : Line) : World := w.post lat (.v n x m)
def World.wrP (w : World) (lat n : Nat) (x m : Pred) : World := w.post lat (.p n x m)
def allV : Line := BitVec.allOnes 8192
def allP : Pred := BitVec.allOnes 1024
/-- Flags ORed into `FPFLAGS` at the result's cycle (R160). -/
def World.orFlags (w : World) (lat f : Nat) : World := w.post lat (.flags f)

/-! ## Counting (R128, R130) -/

/-- `n` events of source `src` on a core in this cycle. -/
def Core.count (c : Core) (src n : Nat) : Core := { c with evq := fput c.evq src (fget c.evq 0 src + n) }
def World.count (w : World) (core src n : Nat) : World := w.modCore core (fun c => c.count src n)
/-- Add to a counter of a core: a wrap sets `OVF` (R128). -/
def CoreCtx.bump (c : CoreCtx) (src n j : Nat) : CoreCtx :=
  let sel := fget c.evcsel 0 j
  if field 5 0 sel == src && bitOf 6 sel && src != 0 then
    let v := fget c.evc 0 j + n
    let c1 := { c with evc := fput c.evc j (v % 2 ^ 48) }
    if 2 ^ 48 ≤ v then { c1 with evcsel := fput c.evcsel j (sel ||| 2 ^ 7) } else c1
  else c
def bumpAll (c : CoreCtx) (src n : Nat) : List Nat → CoreCtx
  | [] => c
  | j :: r => bumpAll (c.bump src n j) src n r
def flushAll (c : CoreCtx) : FMap Nat → CoreCtx
  | [] => c
  | e :: r => flushAll (bumpAll c e.1 e.2 (List.range 8)) r
/-- A sweep that has read a line goes on in the next cycle only, and where that has no access to its course (R177). -/
def sweepAfter (touched : List Nat) (l : FMap Nat) : FMap Nat :=
  (l.filter (fun e => e.2 % 2 == 0 && !touched.contains e.1)).map (fun e => (e.1, e.2 + 1))
/-- The end of a cycle: its events are added, its bulk writes have made their lines stale (R128, R176). -/
def Core.flush (c : Core) : Core :=
  let t := c.accq.foldl (fun l a => sadd l (a.row / 256)) []
  { c with ctx := flushAll c.ctx c.evq, evq := [], popq := [], staleQ := [], accq := [], rebuilds := [], touched := t,
           sweep := sweepAfter t c.sweep, stale := c.staleQ.foldl sadd c.stale }
/-- Events that belong to no cycle's bundles, as a gap or a hold: counted at once (R128). -/
def World.countNow (w : World) (core src n : Nat) : World :=
  w.modCtx core (fun c => bumpAll c src n (List.range 8))
/-- The events of a core that are waiting for the end of a cycle are counted. -/
def World.counts (w : World) (core : Nat) : World := w.modCore core (fun c => { c with ctx := flushAll c.ctx c.evq, evq := [] })
/-- Add to a die counter whose source and tenant match (R130). -/
def Die.bump (d : Die) (src ten n j : Nat) : Die :=
  let sel := fget d.devsel 0 j
  if field 4 0 sel == src && bitOf 5 sel && src != 0 && field 31 16 sel == ten then
    let v := fget d.devc 0 j + n
    let d1 := { d with devc := fput d.devc j (v % 2 ^ 48) }
    if 2 ^ 48 ≤ v then { d1 with devsel := fput d.devsel j (sel ||| 2 ^ 6) } else d1
  else d
def bumpDie (d : Die) (src ten n : Nat) : List Nat → Die
  | [] => d
  | j :: r => bumpDie (d.bump src ten n j) src ten n r
def World.countDie (w : World) (die src ten n : Nat) : World :=
  w.modDie die (fun d => bumpDie d src ten n (List.range 16))

/-! ## The event log (R372-R374) -/

def World.answer (w : World) (a : Answer) : World := w.modHub (fun h => { h with out := h.out ++ [a] })
/-- The number of the entry after another (R372). -/
def nextSeq (n : Nat) : Nat := (n + 1) % 2 ^ 32
/-- The 64 bytes of an entry (R372). -/
def LogEntry.image (e : LogEntry) : List Byte :=
  leBytes 64 (e.seq % 2 ^ 32 + e.cls % 2 ^ 8 * 2 ^ 32 + e.die % 2 ^ 4 * 2 ^ 40 + e.ten % 2 ^ 16 * 2 ^ 48 + e.wtc % 2 ^ 64 * 2 ^ 64 +
    e.data * 2 ^ 128)
/-- What is written to a slot of a mirror: four parts of 16 bytes, the part of bits [127:0] last (R374). -/
def mirrorParts (t addr : Nat) (bs : List Byte) : List Answer :=
  [1, 2, 3, 0].map (fun k => .mirror t (addr + 16 * k) ((bs.drop (16 * k)).take 16))
/-- The slot of an entry in the mirror of a tenant, if it has one (R374). -/
def Hub.mirrorSlot (h : Hub) (t : Nat) (e : LogEntry) : Option Nat :=
  (h.mirrors.find? (fun x => x.1 == t)).map (fun x => x.2 + e.seq % 8192 * 64)
/-- An entry goes to the mirror of a tenant. -/
def Hub.mirrorTo (h : Hub) (t : Nat) (e : LogEntry) : Hub :=
  match h.mirrorSlot t e with
  | some a => { h with out := h.out ++ mirrorParts t a e.image }
  | none => h
/-- The slot of an entry that has been renumbered is cleared in the mirror of a tenant that is not to have the entry now there. -/
def Hub.mirrorClear (h : Hub) (e : LogEntry) : Hub :=
  match if e.ten == 0 then none else h.mirrorSlot e.ten e with
  | some a => { h with out := h.out ++ mirrorParts e.ten a (List.replicate 64 0) }
  | none => h
/-- An entry goes to the mirror of its tenant and to the hypervisor's. -/
def Hub.mirrorEntry (h : Hub) (e : LogEntry) : Hub := if e.ten == 0 then h.mirrorTo 0 e else (h.mirrorTo e.ten e).mirrorTo 0 e
/-- An entry in a log, the newest first: of one WTC the dies ascend, so those of higher dies come after it (R372). -/
def logInsert (e : LogEntry) : List LogEntry → List LogEntry
  | [] => [e]
  | x :: r =>
    if x.wtc == e.wtc && e.die < x.die then { x with seq := nextSeq x.seq } :: logInsert { e with seq := x.seq } r
    else e :: x :: r
/-- An event enters the log; what is new in the log goes to the mirrors, and where an entry has been renumbered its old slot is
cleared first (log 66). -/
def World.logEvent (w : World) (cls die ten data : Nat) : World :=
  let n := nextSeq w.hub.seq
  let e : LogEntry := { seq := n, cls := cls, die := die, ten := ten, wtc := w.wtc, data := data }
  let kept := w.hub.log.filter (fun x => x.seq % 8192 != n % 8192)
  let all := (logInsert e kept.reverse).reverse
  let moved := kept.filter (fun x => !all.contains x)
  w.modHub (fun h => (all.filter (fun x => !kept.contains x)).foldl Hub.mirrorEntry
    (moved.foldl Hub.mirrorClear { h with seq := n, log := all }))

/-! ## Issue (R83, R84, R67, R225-R226) -/

/-- The area of a word: resident 0, half A 1, half B 2 (R48). -/
def areaOf (word : Nat) : Nat := if word < 4096 then 0 else if word < 34816 then 1 else 2
/-- The first word after an area (R48). -/
def areaEnd (area : Nat) : Nat := if area == 0 then 4096 else if area == 1 then 34816 else 65536
/-- Whether fetch succeeds in the area of a word: resident, or the ACTIVE half (R225, R340). -/
def areaOpen (c : Core) (word : Nat) : Bool :=
  match areaOf word with
  | 0 => !c.resInvalid
  | 1 => c.ctx.halfA == 1
  | _ => c.ctx.halfB == 1
/-- The misdirected-transfer `TRAPINFO` of a target, if it is bad (R67). -/
def badTarget (c : Core) (sup : Bool) (t : Nat) : Option Nat :=
  if sup then (if c.hstInvalid then some (t + 2 ^ 16) else if t < 4096 && c.hstart.contains t then none else some t)
  else if !areaOpen c t then some (t + 2 ^ 16)
  else if c.startMap.contains t then none else some t
/-- A word of the store that a level fetches from. -/
def fetchWord (m : Mems) (core : Nat) (sup : Bool) (word : Nat) : Nat :=
  if sup then m.num .hst (hstAt core word) 4 else m.num .isp (ispAt core word) 4
/-- The header of the bundle at a word. -/
def headerAt (m : Mems) (core : Nat) (sup : Bool) (word : Nat) : Header :=
  Header.ofNat (fetchWord m core sup word)

def Core.seq (c : Core) (sup : Bool) : Seq := if sup then c.hseq else c.ctx.seq
def Core.setSeq (c : Core) (sup : Bool) (q : Seq) : Core :=
  if sup then { c with hseq := q } else { c with ctx := { c.ctx with seq := q } }
def World.setSeq (w : World) (core : Nat) (sup : Bool) (q : Seq) : World :=
  w.modCore core (fun c => c.setSeq sup q)

/-- A store that fetch fails in: an area that is idle or invalid, or a handler store in error (R225, R340). -/
def shut (c : Core) (sup : Bool) (t : Nat) : Bool := if sup then c.hstInvalid else !areaOpen c t
/-- The misdirected-transfer `TRAPINFO` of a direct target, which fill has checked but for the state of its area (R67, R225). -/
def badDirect (c : Core) (sup : Bool) (t : Nat) : Option Nat := if shut c sup t then some (t + 2 ^ 16) else none
/-- A taken transfer to `t` from the bundle at `pc`, `fixed` cycles of its own (R84), with what its check finds: a direct one adds the
target's `JB`, an indirect one max(`JB`, 2); of a bad target nothing is read, and its `JB` counts as 0 (R67, R77). -/
def arrivalBy (bad : Option Nat) (m : Mems) (core : Nat) (sup : Bool) (pc t fixed : Nat) (indirect : Bool) : Seq :=
  let jb := (headerAt m core sup t).jb
  match bad with
  | some info => { pc := t, owedT := fixed, owedJ := if indirect then 2 else 0, beat := 0, last := pc, bad := some (info, pc) }
  | none => { pc := t, owedT := fixed, owedJ := if indirect then max jb 2 else jb, beat := 0, last := pc, bad := none }
/-- A direct transfer's target has been checked by the fill, an indirect one's is checked now. -/
def arrival (m : Mems) (c : Core) (core : Nat) (sup : Bool) (pc t fixed : Nat) (indirect : Bool) : Seq :=
  arrivalBy (if indirect then badTarget c sup t else badDirect c sup t) m core sup pc t fixed indirect
/-- Fall-through to the word after the bundle at `pc` (R67, R226). -/
def fallSeq (m : Mems) (c : Core) (core : Nat) (sup : Bool) (pc nxt : Nat) : Seq :=
  if sup then
    match badTarget c sup nxt with
    | some info => { pc := nxt, owedT := 0, owedJ := 0, beat := 0, last := pc, bad := some (info, pc) }
    | none => { pc := nxt, owedT := 0, owedJ := 0, beat := 0, last := pc, bad := none }
  else if 65536 ≤ nxt then { pc := 0, owedT := 0, owedJ := 2, beat := 0, last := pc, bad := some (0, pc) }
  else if areaOf nxt != areaOf pc then arrival m c core sup pc nxt 0 true
  else
    match badTarget c sup nxt with
    | some info => { pc := nxt, owedT := 0, owedJ := 0, beat := 0, last := pc, bad := some (info, pc) }
    | none => { pc := nxt, owedT := 0, owedJ := 0, beat := 0, last := pc, bad := none }
/-- The next bundle is the target of a taken transfer of the slot being issued. -/
def State.jump (s : State) (w : World) (t fixed : Nat) (indirect : Bool) : World :=
  w.setSeq s.w.cur.core s.w.cur.sup
    (arrival s.mem (s.w.core s.w.cur.core) s.w.cur.core s.w.cur.sup s.w.cur.pc t fixed indirect)
/-- The next bundle is one that the loop stack names: a refill of its half may have left it unmarked since the loop was opened, so
that it is checked as an indirect target is (R67, R228). -/
def State.loopJump (s : State) (w : World) (t fixed : Nat) : World :=
  let c := s.w.core s.w.cur.core
  w.setSeq s.w.cur.core s.w.cur.sup
    (arrivalBy (badTarget c s.w.cur.sup t) s.mem s.w.cur.core s.w.cur.sup s.w.cur.pc t fixed false)
/-- The next bundle is the one after. -/
def State.fall (s : State) (w : World) : World :=
  w.setSeq s.w.cur.core s.w.cur.sup
    (fallSeq s.mem (s.w.core s.w.cur.core) s.w.cur.core s.w.cur.sup s.w.cur.pc s.w.cur.nxt)

/-! ## Clusters, domains and classes (R69, R80, R347, R348) -/

/-- Window allowance of a class (R69). -/
def classW8 (c : Nat) : Nat := if c == 0 then 36864 else if c == 1 then 27648 else if c == 2 then 18432 else 12288
def classB (c : Nat) : Nat := classW8 c / 6
/-- The class of the image that a level runs (R80). -/
def Gang.clsAt (g : Gang) (sup : Bool) : Nat := if sup then g.hcls else g.cls

def clusterOf (core : Nat) : Nat := 4 * dieOf core + (if isMx core then core % 8 else core % 8 / 2)
def World.clCfg (w : World) (n : Nat) : ClCfg := fget w.hub.clcfg { reg := n % 4, dom := 0, vstep := 0, retr := false } n
def World.domOf (w : World) (core : Nat) : Nat := (w.clCfg (clusterOf core)).dom
/-- The class of a domain. -/
def World.domClass (w : World) (dom : Nat) : Nat := w.hub.domcls / 2 ^ (2 * dom) % 4
/-- The lowest class, of the smallest `W8`, of the domains of some cores (R80). -/
def World.classFor (w : World) (cores : List Nat) : Nat := (cores.map (fun k => w.domClass (w.domOf k))).foldl max 0

/-! ## The gang clock (R80, R252, R350-R357) -/

def World.reg (w : World) (n : Nat) : Reg :=
  fget w.hub.regs { imeas := 0, ilim := 720, phok := 36, step := 0, low := 0, derated := false } n
/-- The regulators of a gang's clusters. -/
def World.regsOf (w : World) (g : Gang) : List Reg := g.members.map (fun k => w.reg (w.clCfg (clusterOf k)).reg)
def maxStep (l : List Reg) : Nat := (l.map (fun r => r.step)).foldl max 0
/-- The stretch of a gang: the largest step of its regulators; a gang that is held or stopped keeps the one it had until its
TTC resumes (R350). -/
def World.stretchOf (w : World) (g : Gang) : Nat :=
  match g.stat with
  | .running => if g.dbg then g.stretch else maxStep (w.regsOf g)
  | _ => g.stretch
/-- The class-scaled clock of the level that a gang runs at, in kHz. -/
def Gang.classKhz (g : Gang) (sup : Bool) : Nat :=
  min 3600000 (3600000 * classW8 g.domCls / classW8 (g.clsAt sup))
def World.limitedKhz (w : World) (g : Gang) (sup : Bool) : Nat := g.classKhz sup * (16 - w.stretchOf g) / 16
/-- The frequency table's ceiling of a domain: 3600 MHz where the firmware has written none (log 13). -/
def World.ceiling (w : World) (dom : Nat) : Nat := fget w.hub.freq 3600 dom
/-- The ceiling of the domains in force for a gang (R348, R353). -/
def World.tableKhz (w : World) (g : Gang) : Nat := (g.doms.map (fun d => w.ceiling d * 1000)).foldl min 3600000
def World.tripKhz (w : World) (g : Gang) : Nat := if g.members.any (fun k => (w.die (dieOf k)).trip) then 600000 else 3600000
def World.safeKhz (w : World) : Nat := if w.hub.safe then 2400000 else 3600000
def handling (g : Gang) : Bool :=
  match g.stat with
  | .handler _ => true
  | _ => false
/-- A gang's clock before half rate and the throttle unit. -/
def World.lowestKhz (w : World) (g : Gang) : Nat :=
  min (min (w.limitedKhz g (handling g)) (w.tableKhz g)) (min (w.tripKhz g) w.safeKhz)
/-- A gang's own clock. -/
def World.ownKhz (w : World) (g : Gang) : Nat := if g.half then w.lowestKhz g / 2 else w.lowestKhz g
/-- The cores of a group. -/
def Group.cores (g : Group) : List Nat := g.mem.foldl (fun l e => sadd l e.1) []
def World.group (w : World) (n : Nat) : Group := fget w.hub.groups { mem := [], ten := 0, holders := [], claims := [] } n
/-- The cores of the groups that bind barriers and hold a core of a gang. -/
def World.unitCores (w : World) (g : Gang) : List Nat :=
  (w.hub.barriers.filterMap (fun b =>
    match b.2.grp with
    | some n => if b.2.st != .free && (w.group n).cores.any (fun k => g.members.contains k) then some (w.group n).cores else none
    | none => none)).flatten
/-- The lowest own clock of a gang's throttle units. -/
def World.unitKhz (w : World) (g : Gang) : Nat :=
  let cs := w.unitCores g
  ((w.gangs.filter (fun e => e.2.live && e.2.members.any (fun k => cs.contains k))).map (fun e => w.ownKhz e.2)).foldl min
    (w.ownKhz g)
/-- `GCLK.WHY` (R124, R351). -/
def World.why (w : World) (g : Gang) (f : Nat) : Nat :=
  if g.half then 6
  else if f < w.ownKhz g then 4
  else if f == 3600000 then 0
  else if w.tripKhz g == f || w.tableKhz g == f then 1
  else if w.limitedKhz g (handling g) == f && w.stretchOf g != 0 then
    if (w.regsOf g).any (fun r => r.derated) then 3 else 2
  else if w.limitedKhz g (handling g) == f then 5
  else 7
/-- The clock that a gang takes for its next cycle. -/
def World.reclock (w : World) (gid : Nat) : World :=
  let g := w.gang gid
  let f := w.unitKhz g
  w.modGang gid (fun x => { x with khz := f, why := w.why g f, stretch := w.stretchOf g })

/-- The length of a gang cycle in femtoseconds: 10^12 / kHz, rounded up (log 4). -/
def Gang.period (g : Gang) : Nat := ceilDiv 1000000000000 (max g.khz 1)
/-- The restart gap: eight gang-clock cycles without issue (R78), at the clock of the level that goes on. -/
def Gang.gap (g : Gang) (now : Nat) : Gang := { g with nextAt := max g.nextAt now + 8 * g.period }
/-- After a gap, issue restarts from an empty energy window on every member (R78, R79); the gap is counted
under core event 0x0B (R128). -/
def World.restartGap (w : World) (gid : Nat) : World :=
  let w1 := (w.reclock gid).modGang gid (fun g => g.gap w.now)
  (w.gang gid).members.foldl (fun a k => (a.countNow k 0x0B 1).modCore k (fun c => { c with win := [] })) w1

/-! ## Ending a task (R272, R275) -/

/-- The `TTC` of a record: the last cycle begun. A trap belongs to the cycle that it stops; other ends come between cycles (R275,
R346; log 24). -/
def Gang.lastTtc (g : Gang) (kind : Nat) : Nat := if kind == 2 then g.ttc else g.ttc - 1
/-- The whole gang cycles that elapse in a span of femtoseconds at the clock that a gang has. -/
def Gang.cyclesIn (g : Gang) (dt : Nat) : Nat := dt * g.khz / 1000000000000
/-- The end of a debug halt: its cycles are added to the gang's throttle counts (R274, R357). -/
def Gang.endHalt (g : Gang) (now : Nat) : Gang :=
  if g.dbg then { g with dbg := false, thr := fput g.thr 6 (fget g.thr 0 6 + g.cyclesIn (now - g.dbgSince)) } else g
/-- The watches of some cores are free (R261). -/
def World.unwatch (w : World) (cores : List Nat) : World :=
  w.modHub (fun h => { h with watches := h.watches.filter (fun y => !cores.contains y.1) })
/-- The gang stops for good: its watches are free, and its task ends with these fields, to be closed by the sorting office. -/
def World.endTask (w : World) (gid kind code info ipc icore : Nat) : World :=
  let g := w.gang gid
  let w1 := (w.modGang gid (fun g => { g.endHalt w.now with stat := .ended })).unwatch g.members
  w1.modTask (isTaskOf g) (fun t =>
    { t with stage := .ending, kind := kind, code := code, info := info, ipc := ipc, icore := icore,
             ttcEnd := g.lastTtc kind })

/-! ## Taking an exception (R61, R331-R335) -/

/-- Causes whose handler cannot continue the task (R331). -/
def causeEnds (cause info : Nat) : Bool :=
  cause == 10 || cause == 16 || cause == 18 || cause == 19 ||
  (cause == 1 && bitOf 17 info && field 20 18 info == 5)
/-- Event traps (R331). -/
def causeIsEvent (cause : Nat) : Bool := cause == 3 || cause == 13 || cause == 14 || cause == 16 || cause == 19

/-- The trapping core enters its supervisor handler: the trap registers are set, fetch goes to
`TRAPVEC.VEC` of the handler store, handler cycles count from 0 (R333, R334, R335). -/
def Core.enterHandler (c : Core) (core cause info pc : Nat) : Core :=
  { (c.count 0x34 1) with
    cause := cause, ends := causeEnds cause info, event := causeIsEvent cause, trapcore := core,
    trapinfo := info % 2 ^ 64, trappc := pc % 2 ^ 16,
    hseq := { Seq.zero with pc := c.trapvec, last := c.trapvec }, hpend := [], win := [],
    ctx := { c.ctx with seq := { c.ctx.seq with owedT := 0, owedJ := 0, beat := 99, bad := none } } }

/-- Taking a trap on a core (R333): the gang stops with TTC frozen and the core enters its handler. A trap
inside a handler, or of a tenant without one, ends the task (R334); a gang that has ended takes none. MLEASE of reasons 1 and 2 frees the array lease
(R300); ENERGY is logged (R79). -/
def World.takeTrap (w : World) (core cause info pc : Nat) : World :=
  let gid := w.gangOf core
  let g := w.gang gid
  let wf := if cause == 12 && (info % 8 == 1 || info % 8 == 2) then
      w.modDie (dieOf core) (fun d => { d with lease := ArrayLease.free }) else w
  let w0 := if cause == 18 then wf.logEvent 5 (dieOf core) g.tenant (info % 2 ^ 64 + core * 2 ^ 64) else wf
  match g.stat with
  | .ended => w
  | .handler _ => (w0.count core 0x34 1).endTask gid 2 cause info pc core
  | _ =>
    let w1 := w0.modCore core (fun c => c.enterHandler core cause info pc)
    if g.live && !g.hasHandler then w1.endTask gid 2 cause info pc core
    else (w1.modGang gid (fun g => { g with stat := .handler core, hcyc := 0, hevents := [] })).restartGap gid

/-- A trap at the issue of the slot: the rest of the description is not performed (R64). -/
def World.trap (w : World) (cause info : Nat) : World :=
  { (w.takeTrap w.cur.core cause info w.cur.pc) with abort := some (.trap w.cur.core cause info w.cur.pc) }

/-! ## Discarding work, unwinding and consuming an error (R230, R339, R341) -/

/-- A fill that is discarded leaves its half INVALID with code 16 (R230). -/
def Core.dropFill (c : Core) (half : Bool) : Core :=
  { c with ifstat := { c.ifstat with busy := false, valid := false, code := 16, addr := 0 },
           ctx := if half then { c.ctx with halfB := 5 } else { c.ctx with halfA := 5 } }
/-- Global writes already sent may or may not perform when work is discarded (R341): free, by draw. -/
def isSent : FOp → Bool
  | .gstore | .signal _ => true
  | .gamo _ rt _ _ => rt == 0
  | _ => false
def keepSent (draw : Nat) (f : Flight) : Bool := isSent f.op && Config.freeNat (draw + f.id) % 2 == 1
def dropFills (w : World) : List Flight → World
  | [] => w
  | f :: r =>
    match f.op with
    | .ifill half _ => dropFills (w.modCore f.core (fun c => c.dropFill half)) r
    | _ => dropFills w r
/-- A pending board: tenant, direction, name. -/
def pends (ccw : Bool) (ten : Nat) (x : Nat × Bool × Nat) : Bool := x.1 == ten && x.2.1 == ccw
/-- The first of some pending boards leaves the list. -/
def unpend (ten : Nat) (ccw : Bool) (name : Nat) : List (Nat × Bool × Nat) → List (Nat × Bool × Nat)
  | [] => []
  | x :: r => if pends ccw ten x && x.2.2 == name then r else x :: unpend ten ccw name r
/-- Accepted boards that are abandoned are no longer pending (R317, R330). -/
def World.abandon (w : World) : List Flight → World
  | [] => w
  | f :: r =>
    match f.op with
    | .car c =>
      if c.kind == .board && f.arrived && c.st == .armed then
        World.abandon (w.modHub (fun h => { h with pendBoards := unpend (w.gang f.gang).tenant c.ccw c.name h.pendBoards })) r
      else w.abandon r
    | _ => w.abandon r
/-- Some operations have nothing more to send: those of whose requests none waits for an acknowledgement are gone. -/
def PodOut.cut (ids : List Nat) (l : List PodOut) : List PodOut :=
  (l.map (fun p => if ids.contains p.id then { p with togo := 0 } else p)).filter (fun p => 0 < p.left + p.togo)
/-- Requests to a pod peer that have not left are gone with their operations (R370). -/
def World.unsent (w : World) (fs : List Flight) : World :=
  w.modHub (fun h => { h with podOut := PodOut.cut (fs.map (fun f => f.id)) h.podOut })
/-- Issued before every bundle of a TTC cycle: in an earlier cycle, or by a handler's last bundle, whose operations have a position
of 32 or more in the cycle in which TTC resumed. -/
def priorTo (r issue pos : Nat) : Bool := issue < r || (issue == r && 32 ≤ pos)
/-- What a rewind to cycle `r` discards: everything issued after it, and what the handler's own bundles have in flight (R339); an unwind,
without a cycle, discards everything (R341). -/
def Flight.goneBy (gid : Nat) (r : Option Nat) (f : Flight) : Bool := f.gang == gid && (f.sup || !(r.any (fun t => priorTo t f.issue f.pos)))
/-- Discard what a gang has in flight: what was issued after a cycle, where nothing at or before it is due, or everything. -/
def World.discard (w : World) (gid : Nat) (r : Option Nat) (keep : Bool) : World :=
  let gone (f : Flight) : Bool := f.goneBy gid r
  let kept (f : Flight) : Bool := !gone f || (keep && keepSent w.draws f)
  let lost := w.flights.filter (fun f => !kept f)
  let w1 := ((dropFills w (w.flights.filter gone)).abandon lost).unsent lost
  { w1 with flights := w1.flights.filter kept, draws := w1.draws + 1 }

/-- One member's part of an unwind to depth `d` (R341). DESIGN CHOICE: R341 has each member enter the region's handler and does not say
whether one that has halted issues again (R98): it stays halted, and keeps what it is given (log 77). -/
def Core.unwind (c : Core) (q : Seq) (d consumer kind : Nat) : Core :=
  { c with pend := [], hpend := [], seals := [], amos := c.amos.map (fun a => { a with void := true }), win := [],
           ctx := { c.ctx with seq := q, loops := c.ctx.crLoops.getD d [], crDepth := d,
                               crLoops := c.ctx.crLoops.take d, ucore := consumer, ukind := kind } }
def unwindAll (m : Mems) (w : World) (d consumer kind : Nat) : List Nat → World
  | [] => w
  | k :: r =>
    let c := w.core k
    let q := arrival m c k false c.ctx.seq.pc (fget c.ctx.crvec 0 d) 0 true
    unwindAll m (w.setCore k (c.unwind q d consumer kind)) d consumer kind r

/-- The array commands that a gang had under way are gone: no shape change and no multiply of theirs is pending (R313,
R339, R341). -/
def dropArrays (w : World) : List Nat → World
  | [] => w
  | k :: r => dropArrays (if isMx k then w.modDie (dieOf k) (fun d => { d with mcfgAt := none, streamEnd := 0 }) else w) r

/-- An uncorrectable error is consumed on a core (R341): with a region open the gang unwinds to it; with none
it takes CONTAIN. Kinds: 1 scratchpad, 2 poison, 3 register, latch or tile. An unwind discards the other consumptions of
the cycle. The gang goes on at its TTC, out of a handler too. -/
def World.consume (m : Mems) (w : World) (core kind addr : Nat) : World :=
  let gid := w.gangOf core
  let d := (w.core core).ctx.crDepth
  if d == 0 then
    w.takeTrap core 16 (kind + (if kind == 1 then addr % 2 ^ 21 * 4 else 0)) (w.core core).ctx.seq.pc
  else
    let w1 := dropArrays (unwindAll m (w.discard gid none true) (d - 1) core kind (w.gang gid).members) (w.gang gid).members
    (w1.modGang gid (fun g => { g with stat := (if handling g then .running else g.stat), hevents := [],
                                       events := g.events.filter (fun e => e.cause != 16) })).restartGap gid

/-- A slot consumes an error at its issue. -/
def State.consumed (s : State) (w : World) (kind addr : Nat) : World :=
  { (World.consume s.mem w s.w.cur.core kind addr) with abort := some (.consume s.w.cur.core kind addr) }

/-! ## Returning from an exception (R336, R338, R339) -/

/-- Change every operation in flight. -/
def World.mapFlights (w : World) (f : Flight → Flight) : World := { w with flights := w.flights.map f }
/-- What the handler's last bundle still has due moves to TTC, at the same distance. -/
def Pend.rebase (p : Pend) (hcyc ttc : Nat) : Pend := { p with due := p.due - hcyc + ttc, issue := ttc, pos := p.pos % 32 + 32 }
def Flight.rebase (f : Flight) (hcyc ttc : Nat) : Flight :=
  { f with sup := false, issue := ttc, pos := f.pos % 32 + 32, start := f.start - hcyc + ttc, posted := f.posted - hcyc + ttc,
           done := f.done - hcyc + ttc }
def AmoW.rebase (a : AmoW) (ttc : Nat) : AmoW := if a.sup then { a with sup := false, issue := ttc, prior := true } else a
def SealOp.rebase (x : SealOp) (ttc : Nat) : SealOp := if x.sup then { x with sup := false, issue := ttc, prior := true } else x
/-- Every member but one re-issues its suppressed bundle; the trapping core issues at `TRAPPC.PC` (R336). DESIGN CHOICE: a target
that is no bundle start raises ILLEGAL, and R67's `TRAPPC`, the transferring bundle, would be a word of the handler store; the model
gives the target itself (log 61). -/
def Core.resumeAt (c : Core) (pc hcyc ttc : Nat) : Core :=
  let q := c.ctx.seq
  let bad := badTarget c false pc
  { c with hpend := [], pend := c.pend ++ c.hpend.map (fun p => p.rebase hcyc ttc),
           amos := c.amos.map (fun a => a.rebase ttc), seals := c.seals.map (fun x => x.rebase ttc), ctx := { c.ctx with seq :=
      { pc := pc, owedT := 0, owedJ := 0, beat := if pc == q.pc then q.beat else 99, last := q.last,
        bad := bad.map (fun info => (info, pc)) } } }

/-- RFT: TTC resumes at t after a restart gap; a task-ending cause ends the task (R336). -/
def World.rft (w : World) (core : Nat) : World :=
  let gid := w.gangOf core
  let g := w.gang gid
  let c := w.core core
  if c.ends then w.endTask gid 2 c.cause c.trapinfo c.trappc core
  else
    let w1 := w.modCore core (fun c => c.resumeAt c.trappc g.hcyc g.ttc)
    let w2 := w1.mapFlights (fun f => if f.gang == gid && f.sup then f.rebase g.hcyc g.ttc else f)
    (w2.modGang gid (fun g => { g with stat := .running })).restartGap gid

/-- One member takes its restart state (R339). -/
def Core.rewind (c : Core) : Core :=
  match c.restart with
  | none => c
  | some r =>
    let q : Seq := { pc := r.pc, owedT := 0, owedJ := 0, beat := 99, last := r.pc, bad := none }
    { c with ctx := { r.ctx with seq := q }, pend := [], hpend := [], amos := [], seals := [], lanes := [], win := [] }
def rewindAll (w : World) : List Nat → World
  | [] => w
  | k :: r => rewindAll (w.modCore k Core.rewind) r
/-- The array lease and the shape registers return to what the restart point captured; no array command was under way then
(R10, R313, R338). -/
def rewindLeases (w : World) : List Nat → World
  | [] => w
  | k :: r =>
    match (w.core k).restart with
    | some s => rewindLeases (if isMx k then w.modDie (dieOf k) (fun d =>
        { d with lease := s.lease, tshape := s.tshape, mcfgAt := none, streamEnd := 0 }) else w) r
    | none => rewindLeases w r

/-- An event that a rewind to cycle `r` discards with its operation, one still in flight, or a TRAP that issues again (R339). -/
def World.eventGone (w : World) (gid r : Nat) (e : EventTrap) : Bool :=
  (e.cause == 15 && r ≤ e.issue) ||
    w.flights.any (fun f => f.goneBy gid (some r) && !f.sup && f.core == e.core && f.issue == e.issue && f.pos == e.pos)
/-- The events that stay pending over a rewind are due when TTC resumes, each at a later stop (R381). DEDUCED: those whose operation
is not discarded (log 78). -/
def World.stillDue (w : World) (gid r : Nat) (l : List EventTrap) : List EventTrap :=
  (l.filter (fun e => !w.eventGone gid r e)).map (fun e => { e with due := min e.due r })
/-- RSTRT: every member rewinds to its restart point (R336, R339), and what is pending of operations that it keeps stays so (R381). Pod operations that have left come before every bundle issued
from then on (R282). -/
def World.rstrt (w : World) (core : Nat) : World :=
  let gid := w.gangOf core
  let c := w.core core
  let g := w.gang gid
  match c.rstvalid, c.restart with
  | true, some r =>
    let w1 := rewindAll (rewindLeases (w.discard gid (some r.ttc) false) g.members) g.members
    let w2 := (dropFills w1 (w.flights.filter (fun f => f.goneBy gid (some r.ttc)))).modHub (fun h =>
      { h with podOut := h.podOut.map (fun p => if p.gang == gid then { p with after := 0 } else p) })
    (w2.modGang gid (fun g => { g with stat := .running, ttc := r.ttc, scanBase := r.scanBase,
                                       events := w.stillDue gid r.ttc g.events })).restartGap gid
  | _, _ => w.endTask gid 2 c.cause c.trapinfo c.trappc core

/-! ## Leases and homes (R196, R199-R201) -/

/-- Rights: 0 read, 1 write, 2 atomic, 3 board (R194, R200). -/
def Rle.grants (e : Rle) (right : Nat) : Bool :=
  if right == 0 then e.rd else if right == 1 then e.wr else if right == 2 then e.at_ else e.cb
def Rle.lo (e : Rle) : Nat := e.vbase * 2 ^ 16
def Rle.hi (e : Rle) : Nat := (e.vbase + e.pages) * 2 ^ 16
def Rle.covers (e : Rle) (va : Nat) : Bool := e.lo ≤ va && va < e.hi
/-- The run lies at these machine addresses. -/
def Rle.pa (e : Rle) (va : Nat) : Nat := e.pbase * 2 ^ 16 + (va - e.lo)
/-- The entries of a die that are a gang's (R200). -/
def entriesOf (w : World) (die gid ten : Nat) : List Rle :=
  (w.die die).rlt.filter (fun e => e.gang == gid && e.ten == ten && e.pages != 0)
def World.entries (w : World) (core : Nat) : List Rle :=
  entriesOf w (dieOf core) (w.gangOf core) (w.tenOf core)
/-- The entry that one access hits: its right granted and every byte within the run (R200). -/
def hit (es : List Rle) (va n right : Nat) : Option Rle :=
  es.find? (fun e => e.covers va && va + n ≤ e.hi && e.grants right)
/-- The lowest byte of a span that no entry with the right covers (R200). -/
def uncovered (es : List Rle) (right : Nat) (va stop : Nat) : Nat → Option Nat
  | 0 => if va < stop then some va else none
  | fuel + 1 =>
    if stop ≤ va then none
    else
      match es.find? (fun e => e.covers va && e.grants right) with
      | some e => uncovered es right e.hi stop fuel
      | none => some va
/-- `TRAPINFO` of a LEASE trap at a byte (R200). -/
def leaseInfo (es : List Rle) (va right : Nat) : Nat :=
  va % 2 ^ 48 + right * 2 ^ 48 + bit (es.any (fun e => e.covers va)) * 2 ^ 50
/-- The index of a granule in an interleave set (R196). -/
def homeIndex (n8 : Bool) (pa : Nat) : Nat :=
  if n8 then field 14 12 pa ^^^ field 17 15 pa ^^^ field 20 18 pa
  else field 13 12 pa ^^^ field 15 14 pa ^^^ field 17 16 pa ^^^ field 19 18 pa
def setMember (iset pa : Nat) : Nat :=
  let i := homeIndex (bitOf 0 iset) pa
  iset / 2 ^ (4 + 4 * i) % 16
/-- The home of a byte by its run's placement (R196). DESIGN CHOICE: R16 gives each home a capacity and no rule says what a machine
address beyond it names; the model holds a byte at every address, with no bound for a home (log 60). -/
def homeOf (h : Hub) (place home pa : Nat) : Nat :=
  match place with
  | 0 => setMember h.iseta pa
  | 1 => setMember h.isetb pa
  | 2 => home
  | _ => 8
/-- A machine address of the pod window (R369). -/
def podPa (e : Rle) (pa : Nat) : Bool := e.place == 3 && bitOf 51 pa
/-- An access through an entry. -/
def accOf (w : World) (e : Rle) (va n : Nat) : Acc :=
  let pa := e.pa va
  { va := va, pa := pa, n := n, home := homeOf w.hub e.place e.home pa, lid := e.lid, pod := podPa e pa }

/-! ## Operations in flight -/

/-- An operation of the slot being issued, in flight from now. -/
def World.fly (w : World) (start posted doneAt : Nat) (op : FOp) (accs : List Acc) (src : List Byte) : World :=
  { w with
    flights := w.flights ++ [{
      id := w.nextId, gang := w.gangOf w.cur.core, core := w.cur.core, pos := w.cur.pos, issue := w.cur.issue,
      sup := w.cur.sup, toSup := w.cur.sup, start := start, posted := posted, done := doneAt, op := op, accs := accs, src := src,
      got := [], badParts := [], parts := [], lines := [], hops := [], res := 0, flags := 0, arrived := false, held := false,
      refusals := 0, retryAt := none, down := false }],
    nextId := w.nextId + 1 }
def World.flight? (w : World) (id : Nat) : Option Flight := w.flights.find? (fun f => f.id == id)
def World.setFlight (w : World) (f : Flight) : World :=
  { w with flights := w.flights.map (fun x => if x.id == f.id then f else x) }
def World.dropFlight (w : World) (id : Nat) : World :=
  { w with flights := w.flights.filter (fun x => x.id != id) }
/-- The kind code of R285 [40:37]. -/
def FOp.kind : FOp → Nat
  | .gload .. | .gstore => 0
  | .gamo .. => 1
  | .eng _ => 2
  | .ifill .. => 3
  | .signal _ => 4
  | .bar .. | .deq .. | .launch _ => 5
  | .send .. => 6
  | .roster .. | .car _ => 7
  | _ => 8
def isSend : FOp → Bool
  | .send .. => true
  | _ => false
/-- Commands held by the block-transfer engine of a core's quota (R210). -/
def isEng : FOp → Bool
  | .eng _ => true
  | _ => false
def isCar : FOp → Bool
  | .car _ => true
  | _ => false
/-- The clock that a slot's latencies count: TTC, or handler cycles (R334). -/
def World.clock (w : World) (gid : Nat) (sup : Bool) : Nat :=
  if sup then (w.gang gid).hcyc else (w.gang gid).ttc

/-! ## The release check and FENCE (R244, R279, R284, R285) -/

/-- What an operation's effects can touch: 0 core, 1 gang, 2 die, 3 package, 4 pod (R279). -/
def Flight.reach (f : Flight) : Nat :=
  match f.op with
  | .gload .. | .gstore | .gamo .. | .signal _ | .ifill .. =>
      if f.accs.any (fun a => a.pod) then 4 else if f.accs.all (fun a => a.home == dieOf f.core) then 2 else 3
  | .eng c =>
      if c.dst != .glb && c.src != .glb then 1
      else if f.accs.all (fun a => a.home == dieOf f.core) then 2 else 3
  | .send .. => 1
  | .bar .. | .deq .. | .launch _ | .car _ | .roster .. => 3
  | _ => 1
/-- The time a promise judges an operation by: C for an engine command (R284). -/
def Flight.promised (f : Flight) : Nat := if isEng f.op then f.done else f.posted
/-- The forms that the release check covers (R244). -/
def Flight.released (f : Flight) : Bool :=
  match f.op with
  | .gload .. | .gstore | .gamo .. | .ifill .. | .signal _ => true
  | .eng c => c.dst == .glb || c.src == .glb
  | _ => false
/-- The latest of some times, with its kind. -/
def latest : List (Nat × Nat) → Nat × Nat
  | [] => (0, 0)
  | e :: r => let l := latest r; if l.1 ≤ e.1 then e else l
/-- `TRAPINFO` of a FENCE trap (R285). -/
def fenceInfo (m issue scope kind : Nat) (release : Bool) : Nat :=
  min (m - issue) 0xFFFFFFFF + scope * 2 ^ 33 + bit release * 2 ^ 36 + kind * 2 ^ 37
/-- A time of the task's clock as the slot's level counts it: in a handler TTC stands still (R334). -/
def World.asDue (w : World) (sup : Bool) (t : Nat) : Nat :=
  if w.cur.sup && !sup then w.cur.issue + (t - (w.gangAt w.cur.core).ttc) else t
/-- The operations of the slot's core issued before it; in a handler, the task's too. -/
def World.earlier (w : World) : List Flight :=
  w.flights.filter (fun f => f.core == w.cur.core && f.gang == w.gangOf w.cur.core &&
    (if w.cur.sup then !f.sup || f.issue < w.cur.issue else !f.sup && priorTo w.cur.issue f.issue f.pos))
/-- The release check's trap, if it fails (R244). -/
def World.releaseFails (w : World) : Option Nat :=
  let l := latest ((w.earlier.filter Flight.released).map (fun f => (w.asDue f.sup f.promised, f.op.kind)))
  if w.cur.issue < l.1 then some (fenceInfo l.1 w.cur.issue 3 l.2 true) else none

end Sys2Proof.Machine
end

