-- ==== Sys2Proof/Machine/Operands.lean ====
section
/-! DEFINITION. The operand forms: vector elements, enables, operand latches, literals and addresses (R50, R57, R63, R134-R138, R182). -/
namespace Sys2Proof.Machine
open Sys2Proof

/-! ## Elements (R63, R131) -/

/-- `n` elements of `w` bytes of a number, from element 0 up. -/
def elemsN (w : Nat) : Nat → Nat → List Nat
  | 0, _ => []
  | n + 1, x => x % 2 ^ (8 * w) :: elemsN w n (x / 2 ^ (8 * w))
/-- The elements of a vector value. -/
def elems (w : Nat) (x : Line) : List Nat := elemsN w (1024 / w) x.toNat
/-- The number whose elements of `k` bits are these. -/
def joinN (k : Nat) : List Nat → Nat
  | [] => 0
  | e :: r => e % 2 ^ k + 2 ^ k * joinN k r
/-- The vector value with these elements; the rest is zero. -/
def lineOf (w : Nat) (es : List Nat) : Line := BitVec.ofNat 8192 (joinN (8 * w) es)
/-- The bits of the elements that are enabled. -/
def laneMask (w : Nat) (en : List Bool) : Line := lineOf w (en.map (fun b => if b then 2 ^ (8 * w) - 1 else 0))
/-- The predicate bits of elements of `w` bytes (R137). -/
def predOfBits (w : Nat) (bs : List Bool) : Pred :=
  BitVec.ofNat 1024 (joinN w (bs.map (fun b => if b then 2 ^ w - 1 else 0)))
/-- Bit i × `w` of a predicate, for `n` elements. -/
def predBits (w n : Nat) (p : Pred) : List Bool := (elemsN' w n p.toNat)
where
  elemsN' (w : Nat) : Nat → Nat → List Bool
    | 0, _ => []
    | n + 1, x => (x % 2 == 1) :: elemsN' w n (x / 2 ^ w)
/-- `en[i]` for the elements of `w` bytes (R63). -/
def World.en (w : World) (g : PredG) (bytes : Nat) : List Bool :=
  if g.pr == 0 then List.replicate (1024 / bytes) true
  else (predBits bytes (1024 / bytes) (w.rdP g.pr)).map (fun b => b != g.ps)
/-- Element `i` of a list of elements, 0 beyond its end. -/
def at0 (l : List Nat) (i : Nat) : Nat := l.getD i 0

/-! ## Operands and latches (R63, R134) -/

/-- The latch of operand `k` (0 a, 1 b, 2 c) of the position being issued. -/
def World.latch (w : World) (k : Nat) : Line := fget w.cc.ctx.latches 0 (3 * w.cur.pos + k)
/-- Operand `k` as fetched: the latch, or the register. -/
def World.vop (w : World) (k : Nat) (r : VReg) : Line := if r.held then w.latch k else w.rdV r.n
/-- A non-held read records the register's value in its latch. -/
def World.record (w : World) (k : Nat) (r : VReg) (x : Line) : World :=
  if r.held then w
  else
    { (w.onCtx (fun c => { c with latches := fset c.latches 0 (3 * w.cur.pos + k) x })) with
      softErrs := w.softErrs.filter (fun e => decide (e.1 ≠ .latch w.cur.core w.cur.pos k)) }
/-- The literal word's low 8 × `w` bits in every element (R138, R161). -/
def repeated (w v : Nat) : Line := lineOf w (List.replicate (1024 / w) v)
/-- Operand b as fetched: a register, its latch, or a literal repeated. -/
def World.vsrc (w : World) (bytes : Nat) : VSrc → Line
  | .vec r => w.vop 1 r
  | .lit k => repeated bytes (w.lit k)
/-- A literal leaves the latch unchanged. -/
def World.recordB (w : World) : VSrc → Line → World
  | .vec r, x => w.record 1 r x
  | .lit _, _ => w
/-- The state after a slot of one vector operand has recorded it. -/
def World.rec1 (w : World) (a : VReg) : World := w.record 0 a (w.vop 0 a)
/-- After a slot of two. -/
def World.rec2 (w : World) (a : VReg) (b : VSrc) : World := (w.rec1 a).recordB b (w.vsrc 1 b)
/-- After a slot of three. -/
def World.rec3 (w : World) (a : VReg) (b : VSrc) (c : VReg) : World := (w.rec2 a b).record 2 c (w.vop 2 c)

/-- `wr_at(issue + lat, vd, d, en)` by elements of `w` bytes. -/
def World.wrLanes (w : World) (lat d bytes : Nat) (es : List Nat) (en : List Bool) : World :=
  w.wrV lat d (lineOf bytes es) (laneMask bytes en)
/-- The same for a predicate: all `w` bits of an element. -/
def World.wrBits (w : World) (lat p bytes : Nat) (bs en : List Bool) : World :=
  w.wrP lat p (predOfBits bytes bs) (predOfBits bytes en)

/-! ## Integer elements (R138, R158) -/

def iSigned : IFmt → Bool
  | .i8 | .i16 | .i32 => true
  | _ => false
/-- An element's value: signed or unsigned by its width in bytes. -/
def elemVal (sgn : Bool) (w e : Nat) : Int := if sgn then signed (8 * w) e else ((e % 2 ^ (8 * w) : Nat) : Int)
/-- The low 8 × `w` bits of an integer. -/
def elemOf (w : Nat) (i : Int) : Nat := (i % (2 ^ (8 * w) : Nat)).toNat
/-- `sat(x, f)` (R64). -/
def satVal (sgn : Bool) (w : Nat) (i : Int) : Int :=
  if sgn then max (-(2 ^ (8 * w - 1) : Int)) (min i (2 ^ (8 * w - 1) - 1)) else max 0 (min i (2 ^ (8 * w) - 1))
/-- An exact result reduced, or clamped with `.sat`. -/
def narrow (sat sgn : Bool) (w : Nat) (i : Int) : Nat := elemOf w (if sat then satVal sgn w i else i)

def pBytes : PFmt → Nat
  | .i8 | .n8 => 1 | .i16 | .n16 | .bf16 => 2 | .i32 | .n32 | .f32 => 4
def pSigned : PFmt → Bool
  | .i8 | .i16 | .i32 => true
  | _ => false
/-- The float format of a float P form. -/
def pSpec : PFmt → FSpec
  | .bf16 => specBf16
  | _ => specF32

/-! ## Addresses (R50, R182, R205) -/

/-- The offset of an M form, in its unit. -/
def World.moff (w : World) : MOff → Int
  | .imm i => i
  | .lit k => signed 32 (w.lit k)
/-- (rd(sb) + off × unit) mod 2^64. -/
def World.ea (w : World) (e : Ea) (unit : Nat) : Nat :=
  ((w.rdS e.base).toNat + w.moff e.off * unit : Int) % (2 ^ 64 : Int) |>.toNat
/-- An address with the low bits of an alignment cleared. -/
def aligned (a n : Nat) : Nat := a / n * n

end Sys2Proof.Machine
end

