-- ==== Sys2Proof/Machine/Transfer.lean ====
section
/-! DEFINITION. What an operation in flight reads and delivers, and when: the pieces of an engine command, its source
and destination lines, and the lines of catches and tile stores (R214-R216, R223, R307, R322). -/
namespace Sys2Proof.Machine
open Sys2Proof

/-! ## The pieces of an engine command (R214-R221) -/

def isSpd : End → Bool
  | .spd _ => true
  | .glb => false
/-- Bytes up to the next boundary: lines in a scratchpad, 16-byte parts in global memory. -/
def toEdge (e : End) (a : Nat) : Nat := if isSpd e then 1024 - a % 1024 else 16 - a % 16
/-- A stretch cut so that each piece lies in one line or part at both ends. -/
def cut (dst src : End) : Nat → Seg → List Seg
  | 0, _ => []
  | fuel + 1, g =>
    if g.n == 0 then []
    else
      let n0 := min g.n (toEdge dst g.d)
      let n := match g.s with
        | some a => min n0 (toEdge src a)
        | none => n0
      let rest : Seg := { d := g.d + n, s := g.s.map (· + n), n := g.n - n,
                          pat := g.pat.drop (n % g.pat.length) ++ g.pat.take (n % g.pat.length) }
      { g with n := n } :: cut dst src fuel rest
/-- The pieces in order. -/
def EngCmd.pieces (c : EngCmd) : List Seg := (c.segs.map (fun g => cut c.dst c.src (g.n + 1) g)).flatten
/-- The distinct numbers of a list, by first appearance. -/
def firsts : List Nat → List Nat → List Nat
  | seen, [] => seen.reverse
  | seen, x :: r => if seen.contains x then firsts seen r else firsts (x :: seen) r
/-- A scratchpad line number of an address (R212: modulo 2^21). -/
def lineOfAddr (a : Nat) : Nat := a % 2 ^ 21 / 1024
/-- The destination lines of a scratchpad destination, in order of first touch; the mask line last, even where it is a line of the
tile too (R222). -/
def EngCmd.dstLines (c : EngCmd) : List Nat :=
  if isSpd c.dst then
    let m := (c.mask.map (fun m => lineOfAddr m.1)).toList
    (firsts [] (c.pieces.map (fun g => lineOfAddr g.d))).filter (fun l => !m.contains l) ++ m
  else []
/-- The source lines of a scratchpad source, in order of first touch. -/
def EngCmd.srcLines (c : EngCmd) : List Nat :=
  if isSpd c.src then firsts [] (c.pieces.filterMap (fun g => g.s.map lineOfAddr)) else []
/-- Bytes moved. -/
def EngCmd.bytes (c : EngCmd) : Nat := (c.segs.map (fun g => g.n)).sum
/-- The dies that a command's lines cross between, from one scratchpad to another (R235). -/
def EngCmd.crosses (c : EngCmd) : Option (Nat × Nat) :=
  match c.src, c.dst with
  | .spd a, .spd b => if a / 8 == b / 8 then none else some (a / 8, b / 8)
  | _, _ => none
/-- A command whose delivered bytes come to its core in parts: from global memory, or from another die. -/
def EngCmd.sends (c : EngCmd) : Bool := !isSpd c.src || c.crosses.isSome
/-- The address of a stretch at the end from which a command's parts are numbered: its global end, or the source of lines that
cross dies. -/
def EngCmd.glbEnd (c : EngCmd) (g : Seg) : Option Nat :=
  if !isSpd c.dst then some g.d else if !isSpd c.src || c.crosses.isSome then g.s else none
/-- `n` bytes from an address, cut into 16-byte parts. -/
def cut16 : Nat → Nat → Nat → List (Nat × Nat)
  | 0, _, _ => []
  | fuel + 1, a, n =>
    if n == 0 then [] else (a, min n (16 - a % 16)) :: cut16 fuel (a + min n (16 - a % 16)) (n - min n (16 - a % 16))
def EngCmd.segParts (c : EngCmd) (g : Seg) : List (Nat × Nat) :=
  match c.glbEnd g with
  | some a => cut16 (g.n / 16 + 2) a g.n
  | none => []
/-- The parts a command reads or writes at its global end, or sends to another die, whole 16-byte parts but at the ends of a stretch: their virtual addresses and
bytes, in order (R214). -/
def EngCmd.parts (c : EngCmd) : List (Nat × Nat) := (c.segs.map c.segParts).flatten
/-- A piece, the part that it belongs to, and its place in that part. -/
structure Piece where
  seg : Seg
  part : Nat
  off : Nat
  deriving DecidableEq, Repr
def EngCmd.piecesFrom (c : EngCmd) : Nat → List Seg → List Piece
  | _, [] => []
  | base, g :: r =>
    (cut c.dst c.src (g.n + 1) g).map (fun p =>
      match c.glbEnd g, c.glbEnd p with
      | some a, some b => { seg := p, part := base + (b / 16 - a / 16), off := b - max a (b / 16 * 16) }
      | _, _ => { seg := p, part := base, off := 0 }) ++ c.piecesFrom (base + (c.segParts g).length) r
/-- The pieces in order, with their parts. -/
def EngCmd.parted (c : EngCmd) : List Piece := c.piecesFrom 0 c.segs

/-! ## Deliveries (R12, R216, R307, R322) -/

/-- The scratchpad lines that an operation delivers on a core, in the order they commit. -/
def Flight.lineList (f : Flight) : List Nat :=
  match f.op with
  | .eng c => c.dstLines
  | .tstore l => (List.range (f.src.length / 1024)).map (fun i => (l + i) % 2048)
  | .car c =>
    match c.kind with
    | .catch_ | .catchv => (List.range 4).map (fun i => (c.line + i) % 2048)
    | .alight => if c.cp then (List.range 4).map (fun i => (c.line + i) % 2048) else []
    | _ => []
  | _ => []
/-- The core whose scratchpad takes them. -/
def Flight.lineCore (f : Flight) : Nat :=
  match f.op with
  | .eng { dst := .spd k, .. } => k
  | _ => f.core
/-- The cycle of the first: lines of a tile store start at t + 32 (R307). -/
def Flight.firstCommit (f : Flight) : Nat :=
  match f.op with
  | .tstore _ => f.issue + 32
  | _ => f.posted
/-- The place of a value in a list. -/
def placeOf (x : Nat) : List Nat → Option Nat
  | [] => none
  | y :: r => if x == y then some 0 else (placeOf x r).map (· + 1)
/-- The commit cycle of an operation's delivery to a line of a core. -/
def Flight.commitAt (f : Flight) (core line : Nat) : Option Nat :=
  if f.lineCore == core then (placeOf line f.lineList).map (fun i => f.firstCommit + i) else none
/-- The latest commit cycle of a gang's deliveries to a line. -/
def World.lastCommit (w : World) (gid core line : Nat) : Nat :=
  (w.flights.filterMap (fun f => if f.gang == gid then f.commitAt core line else none)).foldl max 0

/-! ## The early-read checkers (R223) -/

/-- Whether a checker's range touches a row. -/
def armedOver (row : Nat) (r : Nat × Nat) : Bool := row * 256 < r.1 + r.2 && r.1 < row * 256 + 256
/-- The lowest armed checker over a row. -/
def Core.checkerOver (c : Core) (row : Nat) : Option Nat :=
  (List.range 4).find? (fun k => armedOver row (fget c.checkers (0, 0) k))
/-- The latest commit cycle of what the slot's own bundle catches into a line: a catch counts from its issue cycle (R223). -/
def World.catchCommit (w : World) (line : Nat) : Nat := ((w.cur.catches.filter (fun e => e.1 == line)).map (·.2)).foldl max 0
/-- The EARLY trap's `TRAPINFO` for the first of `n` rows from `row` that a checker guards and a delivery is still due to. -/
def World.early (w : World) (row : Nat) : Nat → Option Nat
  | 0 => none
  | n + 1 =>
    let t := (w.gangAt w.cur.core).ttc
    let c := max (w.lastCommit (w.gangOf w.cur.core) w.cur.core (row / 4)) (w.catchCommit (row / 4))
    match w.cc.checkerOver row with
    | some k => if t < c then some (row * 256 + k * 2 ^ 21 + min (c - t) 511 * 2 ^ 23) else w.early (row + 1) n
    | none => w.early (row + 1) n
/-- The rows that `n` aligned bytes lie in. -/
def rowsOf (n : Nat) : Nat := if n ≤ 256 then 1 else n / 256

end Sys2Proof.Machine
end

