-- ==== Sys2Proof/Machine/Scratch.lean ====
section
/-! DEFINITION. The data scratchpad: its rows, their errors and parity states, and the scratchpad forms LDS to PSTAT
(R170-R189). -/
namespace Sys2Proof.Machine
open Sys2Proof

/-! ## Rows and courses (R170, R171, R180, R181)

A row has a number, address / 256: its course is row / 256, its line row / 4, its brick row % 4. -/

def rowCourse (row : Nat) : Nat := row / 256
def rowLine (row : Nat) : Nat := row / 4
def rowBrick (row : Nat) : Nat := row % 4
def Course.healthy : Course := { bricks := [], failing := false }
/-- The health of a logical course: its physical course is the number exclusive-or `XM` (R171). -/
def Core.health (c : Core) (course : Nat) : Course := fget c.courses Course.healthy (course ^^^ c.xm)
def Course.degraded (x : Course) : Bool := !x.bricks.isEmpty
def Course.lost (x : Course) : Bool := 2 ≤ x.bricks.length
/-- A row of a failed brick. -/
def Core.rowFailed (c : Core) (row : Nat) : Bool := (c.health (rowCourse row)).bricks.contains (rowBrick row)
/-- A row of a failed brick of a lost course: reads consume, writes perform nothing (R181). -/
def Core.rowLost (c : Core) (row : Nat) : Bool := (c.health (rowCourse row)).lost && c.rowFailed row

/-! ## Errors and reading (R172, R178) -/

/-- The errors at a site: whether double, and the bit number. -/
def World.errsAt (w : World) (t : ErrSite) : List (Bool × Nat) :=
  w.softErrs.filterMap (fun e => if e.1 = t then some e.2 else none)
def World.clearErrs (w : World) (t : ErrSite) : World :=
  { w with softErrs := w.softErrs.filter (fun e => decide (e.1 ≠ t)) }
def hasDouble (l : List (Bool × Nat)) : Bool := l.any (fun e => e.1)
/-- The 32-bit words that bytes `lo` to `lo + n - 1` of a row touch. -/
def wordSpan (lo n : Nat) : List Nat := (List.range ((lo + n + 3) / 4 - lo / 4)).map (lo / 4 + ·)
/-- Errors in some words. -/
def pickWords (ws : List Nat) (l : List (Bool × Nat)) : List (Bool × Nat) := l.filter (fun e => ws.contains (e.2 / 32))
/-- Errors in the words that bytes `lo` to `lo + n - 1` of a row touch. -/
def inWords (lo n : Nat) (l : List (Bool × Nat)) : List (Bool × Nat) := pickWords (wordSpan lo n) l
/-- The other rows of a row's line. -/
def otherRows (row : Nat) : List Nat := ((List.range 4).map (fun b => row / 4 * 4 + b)).filter (fun r => r != row)
/-- Whether a reconstruction of a row would meet an uncorrectable error in what it reads (R178). -/
def World.faultyRest (w : World) (k row : Nat) : Bool :=
  let c := w.core k
  (otherRows row).any (fun r => c.poison.contains r || hasDouble (w.errsAt (.row k r))) ||
    hasDouble (w.errsAt (.mortar k (rowLine row)))
def World.poisonRow (w : World) (k row : Nat) : World :=
  w.modCore k (fun c => { c with poison := sadd c.poison row })
/-- Corrected errors enter the rate of their domain in the millisecond of WTC (R354). -/
def ErrRate.add (r : ErrRate) (ms n : Nat) : ErrRate :=
  if r.ms == ms then { r with n := r.n + n } else { ms := ms, n := n, hit := false }
def World.errRate (w : World) (dom : Nat) : ErrRate := fget w.hub.errs { ms := 0, n := 0, hit := false } dom
/-- Errors corrected in a memory of a core's die (die event 0x0E, R130). -/
def World.fixed (w : World) (k n : Nat) : World :=
  if n == 0 then w
  else
    let d := w.domOf k
    (w.countDie (dieOf k) 0x0E (w.tenOf k) n).modHub (fun h =>
      { h with errs := fput h.errs d ((w.errRate d).add (w.now / 1000000000000) n) })
/-- The key of a brick in the error rates, above the domains: core, physical course, brick. -/
def brickKey (core course brick : Nat) : Nat := 1024 + core * 128 + course % 32 * 4 + brick % 4
/-- Errors corrected in a row enter the rate of its brick (R180, R354). -/
def World.worn (w : World) (k row n : Nat) : World :=
  if n == 0 then w
  else
    let b := brickKey k (rowCourse row ^^^ (w.core k).xm) (rowBrick row)
    w.modHub (fun h => { h with errs := fput h.errs b ((w.errRate b).add (w.now / 1000000000000) n) })
/-- Words or rows of a scratchpad corrected (core event 0x22, R172, R178). -/
def World.corrected (w : World) (k n : Nat) : World := if n == 0 then w else (w.count k 0x22 n).fixed k n
/-- Single-bit errors. -/
def singles (l : List (Bool × Nat)) : List (Bool × Nat) := l.filter (fun e => !e.1)
/-- The correctable errors that a reconstruction meets in some words of the other rows and of the mortar row (R172). -/
def World.restErrs (w : World) (k row : Nat) (ws : List Nat) : Nat :=
  (((otherRows row).map (fun r => (singles (pickWords ws (w.errsAt (.row k r)))).length)).sum) +
    (singles (pickWords ws (w.errsAt (.mortar k (rowLine row))))).length
/-- What a reconstruction corrects: each row's errors enter the rate of its brick (R172, R180). -/
def World.mendRest (w : World) (k row : Nat) (ws : List Nat) : World :=
  ((otherRows row).foldl (fun a r => a.worn k r (singles (pickWords ws (w.errsAt (.row k r)))).length) w).corrected k (w.restErrs k row ws)
/-- A row served by reconstruction (core event 0x21, die event 0x03). -/
def World.rebuilt (w : World) (k : Nat) : World := (w.count k 0x21 1).countDie (dieOf k) 0x03 (w.tenOf k) 1

/-- The error state after a read of some bytes of a row: `bad` when it consumes an uncorrectable error. -/
structure Look where
  w : World
  bad : Bool
  deriving DecidableEq, Repr

/-- Read some words of a row: one that its cycle serves by reconstruction is not read itself (R173); single errors are corrected, a row
with a double error, of a fresh line of a healthy course, is put right whole by reconstruction, a row of the failed brick of a degraded course is rebuilt; every other error is consumed, and the
row poisoned (R172, R178, R180). -/
def World.lookWords (w : World) (k row : Nat) (ws : List Nat) : Look :=
  let c := w.core k
  let errs := pickWords ws (w.errsAt (.row k row))
  if c.poison.contains row || c.rowLost row then { w := w.poisonRow k row, bad := true }
  else if c.rebuilds.contains row then { w := w, bad := false }
  else if c.rowFailed row then
    if w.faultyRest k row then { w := w.poisonRow k row, bad := true }
    else { w := (w.rebuilt k).mendRest k row ws, bad := false }
  else if hasDouble errs then
    if (c.health (rowCourse row)).degraded || c.stale.contains (rowLine row) || w.faultyRest k row then
      { w := w.poisonRow k row, bad := true }
    else
      let n := (w.errsAt (.row k row)).length
      { w := (((w.clearErrs (.row k row)).corrected k n).worn k row n).mendRest k row (wordSpan 0 256), bad := false }
  else { w := (w.corrected k errs.length).worn k row errs.length, bad := false }
/-- Words of a row are read with nothing consumed: what can be corrected is (R172). -/
def World.quietRead (w : World) (k row : Nat) (ws : List Nat) : World :=
  let l := w.lookWords k row ws
  let n := (singles (pickWords ws (w.errsAt (.row k row)))).length
  if l.bad then (w.worn k row n).corrected k n else l.w
/-- Read bytes `lo` to `lo + n - 1` of a row. -/
def World.lookRow (w : World) (k row lo n : Nat) : Look := w.lookWords k row (wordSpan lo n)
def World.lookRows (w : World) (k row : Nat) : Nat → Look
  | 0 => { w := w, bad := false }
  | n + 1 =>
    let a := w.lookRow k row 0 256
    let b := a.w.lookRows k (row + 1) n
    { w := b.w, bad := a.bad || b.bad }
/-- Read `n` bytes at scratchpad address `la` of core `k`: within a row, or whole rows. -/
def World.look (w : World) (k la n : Nat) : Look :=
  if n ≤ 256 then w.lookRow k (la / 256) (la % 256) n else w.lookRows k (la / 256) (n / 256)
/-- Whether a sub-row write meets an uncorrectable error anywhere in its row (R178). -/
def World.lookWrite (w : World) (k la n : Nat) : Look :=
  if n < 256 && !(w.core k).rowLost (la / 256) then
    let r := w.lookRow k (la / 256) 0 256
    if r.bad then r else { w := w, bad := false }
  else { w := w, bad := false }

/-! ## Writing (R176, R179) -/

inductive WKind | self | covered | bulk
  deriving DecidableEq, Repr

/-- Written marks of the lines of bound regions (R202). -/
def Core.bound (c : Core) (line : Nat) : Bool :=
  c.regions.any (fun r => r.bound.isSome && r.base < (line + 1) * 1024 && line * 1024 < r.base + r.size)
def Core.mark (c : Core) (line : Nat) : Core :=
  if c.bound line then { c with marks := sadd c.marks line } else c
/-- A bulk write makes a line stale from the end of its cycle; a seal that has already read the line notes it. -/
def Core.makeStale (c : Core) (line ttc hcyc : Nat) : Core :=
  { c with staleQ := sadd c.staleQ line,
           seals := c.seals.map (fun x =>
             let j := (line % 64 + 64 - x.line) % 64
             if x.course == line / 64 && j < x.n && x.issue + 2 + 2 * j < (if x.sup then hcyc else ttc)
             then { x with dirty := sadd x.dirty line } else x) }
def Core.freshen (c : Core) (line : Nat) : Core :=
  { c with stale := sdel c.stale line, staleQ := sdel c.staleQ line }
/-- Exclusive-or of bytes. -/
def xorBytes : List Byte → List Byte → List Byte
  | x :: xs, y :: ys => (x ^^^ y) :: xorBytes xs ys
  | xs, [] => xs
  | [], ys => ys
/-- The parity row of a line's bytes. -/
def parity (bs : List Byte) : List Byte :=
  xorBytes (xorBytes (bs.take 256) ((bs.drop 256).take 256)) (xorBytes ((bs.drop 512).take 256) ((bs.drop 768).take 256))
/-- The mortar row's byte that covers a scratchpad address. -/
def mortarOf (k la : Nat) : Nat := mortarAt k (la / 65536 % 32) (la / 1024 % 64) + la % 256

/-- What a row's write leaves of its errors: words written are right again, a whole row has no poison. -/
def World.wroteRow (w : World) (k row lo n : Nat) : World :=
  let w1 := { w with softErrs := w.softErrs.filter (fun e =>
    !(decide (e.1 = .row k row) && lo / 4 ≤ e.2.2 / 32 && e.2.2 / 32 < (lo + n + 3) / 4)) }
  if n == 256 then w1.modCore k (fun c => { c with poison := sdel c.poison row }) else w1

/-- A write of part of a row corrects what it reads: the words it merges into, and for a covered write the old words and those
of the mortar row; for a failed brick, the words that rebuild them (R172, R176, R180). -/
def World.writeMends (w : World) (k row lo n : Nat) (covered : Bool) : World :=
  if covered && (w.core k).rowFailed row then w.mendRest k row (wordSpan lo n)
  else
    let own := if covered || n < 4 then w.quietRead k row (wordSpan lo n) else w
    if covered then own.corrected k (singles (inWords lo n (w.errsAt (.mortar k (rowLine row))))).length else own
/-- The words of a mortar row that a covered write rewrites are right again, but where it could not read them; the row of a failed brick
written whole needs nothing of them (R172, R178, R180). -/
def World.wroteMortar (w : World) (k line lo n : Nat) (whole : Bool) : World :=
  { w with softErrs := w.softErrs.filter (fun e =>
      !(decide (e.1 = .mortar k line) && (whole || !e.2.1) && (wordSpan lo n).contains (e.2.2 / 32))) }

/-- A write of at most a row; `n` is what a bulk write counts as rows marked stale. DESIGN CHOICE: R128 and R130 count a row marked stale
and R176 makes the whole line stale; each row that a bulk write writes counts one, whether or not its line was stale before (log 79). -/
def State.storeRowN (s : State) (k la : Nat) (bs : List Byte) (bulk : Bool) (n : Nat) : Act :=
  let row := la / 256
  let c := s.w.core k
  let g := s.w.gangAt k
  let h := c.health (rowCourse row)
  if c.rowLost row then only s.w
  else
    let covered := !(bulk && !h.degraded) && !h.lost
    let w0 := s.w.writeMends k row (la % 256) bs.length covered
    let w := (w0.modCore k (fun c => c.mark (rowLine row))).wroteRow k row (la % 256) bs.length
    let cell := MemW.bytes .spd (spdAt k la) bs
    if bulk && !h.degraded then
      { w := ((w.modCore k (fun c => c.makeStale (rowLine row) g.ttc g.hcyc)).count k 0x24 n).countDie (dieOf k) 0x05 (w.tenOf k) n,
        out := [cell] }
    else if h.lost then { w := w, out := [cell] }
    else
      let old := s.mem.bytes .spd (spdAt k la) bs.length
      let par := s.mem.bytes .mortar (mortarOf k la) bs.length
      { w := w.wroteMortar k (rowLine row) (la % 256) bs.length (c.rowFailed row && bs.length == 256),
        out := [cell, .bytes .mortar (mortarOf k la) (xorBytes par (xorBytes old bs))] }
/-- A write of at most a row by a slot. -/
def State.storeRow (s : State) (k la : Nat) (bs : List Byte) (bulk : Bool) : Act := s.storeRowN k la bs bulk 1
/-- The rows of a line whose bytes a whole-line write stores: a lost row keeps its own. -/
def keepLost (c : Core) (k line : Nat) (m : Mems) (bs : List Byte) : List Byte :=
  ((List.range 4).map (fun b =>
    if c.rowLost (line * 4 + b) then m.bytes .spd (spdAt k (line * 1024 + b * 256)) 256
    else (bs.drop (b * 256)).take 256)).flatten
/-- A self-sealing write of a whole line: the line is fresh and its rows lose poison. -/
def State.storeLine (s : State) (k la : Nat) (bs : List Byte) : Act :=
  let line := la / 1024
  let c := s.w.core k
  let w := s.w.modCore k (fun c => (c.mark line).freshen line)
  let w1 := ((List.range 4).filter (fun b => !c.rowLost (line * 4 + b))).foldl (fun w b => w.wroteRow k (line * 4 + b) 0 256) w
  let new := keepLost c k line s.mem bs
  let cell := MemW.bytes .spd (spdAt k (line * 1024)) new
  if (c.health (line / 64)).lost then { w := w1, out := [cell] }
  else { w := w1.clearErrs (.mortar k line), out := [cell, .bytes .mortar (mortarOf k (line * 1024)) (parity new)] }
/-- A write of `bs` at `la` (R176). -/
def State.store (s : State) (k la : Nat) (bs : List Byte) (kind : WKind) : Act :=
  match kind with
  | .self => s.storeLine k la bs
  | .covered => s.storeRow k la bs false
  | .bulk => s.storeRow k la bs true

/-! ## Addresses and results of the forms (R182, R183) -/

/-- `la` of a form of unit and alignment `u`. -/
def World.la (w : World) (e : Ea) (u : Nat) : Nat := aligned (w.ea e u % 2 ^ 21) u
/-- The value of a scratchpad access. -/
def State.spd (s : State) (k la n : Nat) : Nat := s.mem.num .spd (spdAt k la) n
/-- A slot's row or line access is counted (event 0x20). -/
def World.counted (w : World) : World := w.count w.cur.core 0x20 1
/-- The result of a scalar load: extended, or a pair (R183). -/
def World.loaded (w : World) (lat : Nat) (z : MSize) (sx : Bool) (t v : Nat) : World :=
  match z with
  | .b16 => (w.wrS lat t (BitVec.ofNat 64 v)).wrS lat (t + 1) (BitVec.ofNat 64 (v / 2 ^ 64))
  | _ => w.wrS lat t (if sx then word (signed (8 * z.bytes) v) else BitVec.ofNat 64 (v % 2 ^ (8 * z.bytes)))
/-- What a scalar store stores. -/
def World.stored (w : World) (z : MSize) (t : Nat) : List Byte :=
  match z with
  | .b16 => leBytes 8 (w.rdS t).toNat ++ leBytes 8 (w.rdS (t + 1)).toNat
  | _ => leBytes z.bytes (w.rdS t).toNat
/-- A load of `n` bytes at `la`: EARLY where a checker guards it, or an error consumed, or what `f` does with the value. -/
def State.loadAct (s : State) (la n : Nat) (f : World → Nat → World) : Act :=
  match s.w.early (la / 256) (rowsOf n) with
  | some info => only (s.w.trap 9 info)
  | none =>
    let k := s.w.cur.core
    let l := s.w.counted.look k la n
    if l.bad then only (s.consumed l.w 1 la) else only (f l.w (s.spd k la n))
/-- A store of bytes at `la`, or an error consumed. -/
def State.storeAct (s : State) (w : World) (la : Nat) (bs : List Byte) (kind : WKind) : Act :=
  let k := s.w.cur.core
  let l := w.counted.lookWrite k la bs.length
  if l.bad then only (s.consumed l.w 1 la) else State.store { s with w := l.w } k la bs kind

def execLds (z : MSize) (sx : Bool) (t : Nat) (e : Ea) (s : State) : Host.Outcome State Fault Refusal :=
  done s (s.loadAct (s.w.la e z.bytes) z.bytes (fun w v => w.loaded 4 z sx t v))
def execSts (z : MSize) (bulk : Bool) (t : Nat) (e : Ea) (s : State) : Host.Outcome State Fault Refusal :=
  done s (s.storeAct s.w (s.w.la e z.bytes) (s.w.stored z t) (if bulk then .bulk else .covered))
def execLdv (t : Nat) (e : Ea) (s : State) : Host.Outcome State Fault Refusal :=
  done s (s.loadAct (s.w.la e 1024) 1024 (fun w v => w.wrV 5 t (BitVec.ofNat 8192 v) allV))
def execStv (t : Nat) (e : Ea) (s : State) : Host.Outcome State Fault Refusal :=
  done s (s.storeAct s.w (s.w.la e 1024) (leBytes 1024 (s.w.rdV t).toNat) .self)
/-- Row `k` of a vector value. -/
def rowAt (k v : Nat) : Line := BitVec.ofNat 8192 (v % 2 ^ 2048 * 2 ^ (2048 * k))
def execLdr (k t : Nat) (e : Ea) (s : State) : Host.Outcome State Fault Refusal :=
  done s (s.loadAct (s.w.la e 256) 256 (fun w v => w.wrV 5 t (rowAt k v) (rowAt k (2 ^ 2048 - 1))))
def execStr (k : Nat) (bulk : Bool) (t : Nat) (e : Ea) (s : State) : Host.Outcome State Fault Refusal :=
  done s (s.storeAct s.w (s.w.la e 256) (leBytes 256 ((s.w.rdV t).toNat / 2 ^ (2048 * k))) (if bulk then .bulk else .covered))
def execLdb (z : MSize) (t : Nat) (e : Ea) (s : State) : Host.Outcome State Fault Refusal :=
  done s (s.loadAct (s.w.la e z.bytes) z.bytes (fun w v => w.wrV 5 t (repeated z.bytes v) allV))

/-! ## Atomics (R186, R187) -/

def amoBytes : AmoOp → Nat
  | .addI32 | .swapI32 | .casI32 | .faddF32 => 4
  | .faddBf16 => 2
  | _ => 8
/-- The new value and the flags: `v` and `x` are rd(rt) and rd(rt + 1). -/
def amoNew (op : AmoOp) (old : Nat) (v x : Word) : Nat × Nat :=
  let o : Word := BitVec.ofNat 64 old
  let n := v.toNat % 2 ^ (8 * amoBytes op)
  match op with
  | .addI64 => ((o + v).toNat, 0)
  | .addI32 => ((old + n) % 2 ^ 32, 0)
  | .andI64 => ((o &&& v).toNat, 0)
  | .orI64 => ((o ||| v).toNat, 0)
  | .xorI64 => ((o ^^^ v).toNat, 0)
  | .minI64 => ((if v.slt o then v else o).toNat, 0)
  | .maxI64 => ((if o.slt v then v else o).toNat, 0)
  | .minN64 => ((if v.ult o then v else o).toNat, 0)
  | .maxN64 => ((if o.ult v then v else o).toNat, 0)
  | .swapI64 | .swapI32 => (n, 0)
  | .casI64 => ((if o == v then x else o).toNat, 0)
  | .casI32 => (if old == n then x.toNat % 2 ^ 32 else old, 0)
  | .faddF32 => specF32.amoAdd old n
  | .faddBf16 => specBf16.amoAdd old n
/-- The old value as returned: sign-extended for the 32-bit integer forms (R186). -/
def amoOld (op : AmoOp) (old : Nat) : Word :=
  match op with
  | .addI32 | .swapI32 | .casI32 => word (signed 32 old)
  | _ => BitVec.ofNat 64 old
/-- AMO: read at issue, write two cycles later as a covered write, result at issue + 6. -/
def amoAct (op : AmoOp) (t : Nat) (e : Ea) (s : State) : Act :=
  let n := amoBytes op
  let la := s.w.la e n
  s.loadAct la n (fun w old =>
    let r := amoNew op old (s.w.rdS t) (s.w.rdS (t + 1))
    let a : AmoW := { issue := w.cur.issue, course := la / 65536, addr := la, n := n, value := r.1, void := false,
                      sup := w.cur.sup, prior := false }
    ((w.onCur (fun c => { c with amos := c.amos ++ [a] })).wrS 6 t (amoOld op old)).orFlags 6 r.2)
def execAmo (op : AmoOp) (t : Nat) (e : Ea) (s : State) : Host.Outcome State Fault Refusal := done s (amoAct op t e s)

/-! ## Sealing and status (R188, R189) -/

/-- PSEAL: its cycles, its parity writes and its end fall due on the clock. -/
def psealAct (t : Nat) (e : Ea) (s : State) : World :=
  let la := s.w.la e 1024
  let n := min (s.w.rdS t).toNat 64
  if n == 0 then s.w
  else
    let x : SealOp := { issue := s.w.cur.issue, course := la / 65536, line := la / 1024 % 64, n := n, dirty := [],
                        sup := s.w.cur.sup, prior := false }
    s.w.onCur (fun c => { c with seals := c.seals ++ [x] })
def execPseal (t : Nat) (e : Ea) (s : State) : Host.Outcome State Fault Refusal := done s (only (psealAct t e s))

/-- The number with these bits set. -/
def sumBits (l : List Nat) : Nat := l.foldr (fun i n => 2 ^ i ||| n) 0
/-- Lines of a course, by their number in it, that a set of line numbers holds. -/
def linesIn (course : Nat) (l : List Nat) : List Nat := (l.filter (fun x => x / 64 == course)).map (· % 64)
/-- Lines of a course with a poisoned row. -/
def Core.poisonLines (c : Core) (course : Nat) : List Nat :=
  linesIn course (c.poison.foldl (fun l r => sadd l (rowLine r)) [])
/-- The state of a course that PSTAT reports. -/
def Core.pstat (c : Core) (kind : PstatKind) (course : Nat) : Nat :=
  match kind with
  | .stale => sumBits (linesIn course c.stale)
  | .poison => sumBits (c.poisonLines course)
  | .health =>
    let h := c.health course
    bit h.degraded + 2 * h.bricks.getD 0 0 + 2 ^ 3 * (linesIn course c.stale).length +
      2 ^ 10 * (c.poisonLines course).length + 2 ^ 17 * bit h.failing + 2 ^ 18 * bit h.lost +
      2 ^ 19 * h.bricks.getD 1 0 + 2 ^ 21 * sumBits h.bricks
def execPstat (k : PstatKind) (t : Nat) (e : Ea) (s : State) : Host.Outcome State Fault Refusal :=
  done s (only (s.w.wrS 2 t (BitVec.ofNat 64 (s.w.cc.pstat k (s.w.la e 65536 / 65536)))))

end Sys2Proof.Machine
end

