-- ==== Sys2Proof/Machine/Global.lean ====
section
/-! DEFINITION. The global forms GLD, GST, GLDV, GSTV and GAMO at their issue (R200, R205-R208, R370); what they do at
their homes and at their posted times stands with the deliveries. -/
namespace Sys2Proof.Machine
open Sys2Proof

/-- `va` of a form of unit and alignment `u` (R205). -/
def World.va (w : World) (e : Ea) (u : Nat) : Nat := aligned (w.ea e u) u
/-- The access of a form, or its LEASE trap's `TRAPINFO`: no entry hits, or the pod window does not admit the form
(R200, R370). -/
def World.access (w : World) (va n right : Nat) (podOk : Bool) : Except Nat Acc :=
  let es := w.entries w.cur.core
  match hit es va n right with
  | none => .error (leaseInfo es va right)
  | some e =>
    let a := accOf w e va n
    if a.pod && !podOk then .error (va % 2 ^ 48 + right * 2 ^ 48 + 2 ^ 50) else .ok a
/-- Base latency by the home: the issuing die's own, or another (R205). -/
def World.homeBase (w : World) (home : Nat) : Nat := if home == dieOf w.cur.core then 420 else 520
/-- A global form issued is counted (events 0x28 and 0x29). -/
def World.globalCounted (w : World) (home : Nat) : World :=
  let w1 := w.count w.cur.core 0x28 1
  if home == dieOf w.cur.core then w1 else w1.count w.cur.core 0x29 1
def Route.none : Route := { valid := false, ports := 0, peer := 0, ten := 0, key := 0, ref := 0 }
def World.route (w : World) (n : Nat) : Route := fget w.hub.routes Route.none n
/-- The port that a request takes, of those that its route may use: the device's choice (log 3); 16 where there is none. -/
def Route.port (r : Route) (draw : Nat) : Nat :=
  let l := (List.range 16).filter (fun k => bitOf k r.ports)
  l.getD (Config.freeNat draw % max l.length 1) 16
/-- A pod operation's requests, one for each 64-byte block, wait to leave and for their acknowledgements (R284, R364, R370). -/
def World.podSent (w : World) (a : Acc) : World :=
  if a.pod then
    let n := field 50 46 a.pa
    { (w.modHub (fun h => { h with podOut := h.podOut ++
      [{ id := w.nextId, gang := w.gangOf w.cur.core, core := w.cur.core,
         after := if w.cur.sup then (w.gangAt w.cur.core).ttc else w.cur.issue + 1, route := n,
         port := (w.route n).port w.draws, ten := w.tenOf w.cur.core, left := 0, togo := ceilDiv a.n 64 }] })) with draws := w.draws + 1 }
  else w
/-- Issue a global form of `n` bytes whose posted time is `lat` of its home after issue. -/
def globalAct (va n right : Nat) (podOk : Bool) (lat : Nat → Nat) (op : FOp) (src : List Byte) (s : State) : World :=
  match s.w.access va n right podOk with
  | .error info => s.w.trap 10 info
  | .ok a =>
    let t := s.w.cur.issue + lat a.home
    ((s.w.globalCounted a.home).podSent a).fly s.w.cur.issue t t op [a] src
/-- 420 or 520 + ceil(z / 64). -/
def State.memLat (s : State) (n : Nat) (home : Nat) : Nat := s.w.homeBase home + ceilDiv n 64

/-- The operations of the host's and the pod ports' atomics, the `q` codes 0 to 12 (R360, R364). -/
def hostOp : AmoOp → Bool
  | .faddF32 | .faddBf16 => false
  | _ => true

def execGld (z : MSize) (sx : Bool) (t : Nat) (e : Ea) (s : State) : Host.Outcome State Fault Refusal :=
  done s (only (globalAct (s.w.va e z.bytes) z.bytes 0 false (s.memLat z.bytes) (.gload false z sx t) [] s))
def execGst (z : MSize) (t : Nat) (e : Ea) (s : State) : Host.Outcome State Fault Refusal :=
  done s (only (globalAct (s.w.va e z.bytes) z.bytes 1 true (s.memLat z.bytes) .gstore (s.w.stored z t) s))
def execGldv (t : Nat) (e : Ea) (s : State) : Host.Outcome State Fault Refusal :=
  done s (only (globalAct (s.w.va e 1024) 1024 0 false (s.memLat 1024) (.gload true .b16 false t) [] s))
def execGstv (t : Nat) (e : Ea) (s : State) : Host.Outcome State Fault Refusal :=
  done s (only (globalAct (s.w.va e 1024) 1024 1 true (s.memLat 1024) .gstore (leBytes 1024 (s.w.rdV t).toNat) s))
/-- GAMO: 560 cycles wherever its home; the returning form is not admitted to the pod window. -/
def execGamo (op : AmoOp) (t : Nat) (e : Ea) (s : State) : Host.Outcome State Fault Refusal :=
  done s (only (globalAct (s.w.va e (amoBytes op)) (amoBytes op) 2 (t == 0) (fun _ => 560)
    (.gamo op t (s.w.rdS t) (s.w.rdS (t + 1))) [] s))

end Sys2Proof.Machine
end

