-- ==== Sys2Proof/Machine/Queue.lean ====
section
/-! DEFINITION. The operand queues, SEND to MCAST, and SIGNAL (R237-R244). -/
namespace Sys2Proof.Machine
open Sys2Proof

/-! ## Queues (R237-R239) -/

/-- The entries present in a queue of a core, head first: by posted time, then by sender. -/
def Core.queue (c : Core) (q : Nat) : List QEntry := fget c.queues [] q
/-- An entry takes its place. -/
def qIns (e : QEntry) : List QEntry → List QEntry
  | [] => [e]
  | x :: r => if e.posted < x.posted || (e.posted == x.posted && e.sender < x.sender) then e :: x :: r else x :: qIns e r
/-- The `n` oldest entries leave at a receive's issue: their reservations end with its cycle. -/
def Core.pop (c : Core) (q n : Nat) : Core :=
  { (c.count 0x2B n) with
    queues := fset c.queues [] q ((c.queue q).drop n), popq := fput c.popq q (fget c.popq 0 q + n) }
/-- A send in flight to a queue of a core. -/
def sendsTo (k q : Nat) (f : Flight) : Bool :=
  match f.op with
  | .send ts que _ => ts.contains k && que == q
  | _ => false
/-- The reserved count of a queue: entries sent and not popped before this cycle. -/
def World.reserved (w : World) (k q : Nat) : Nat :=
  let c := w.core k
  (c.queue q).length + (w.flights.filter (sendsTo k q)).length + fget c.popq 0 q

/-! ## Postmarks (R238, R242) -/

def pmCore (m : Nat) : Nat := field 6 0 m
def pmQue (m : Nat) : Nat := field 10 8 m
def pmSeq (m : Nat) : Nat := field 31 16 m
def pmClean (m : Nat) : Bool := field 7 7 m == 0 && field 15 11 m == 0
def queueInfo (reason : Nat) : Nat := 2 ^ 33 + reason * 2 ^ 34
/-- `TRAPINFO` of a POSTMARK trap: what was expected, and the head found. -/
def postmarkInfo (core que seq : Nat) (h : Option QEntry) : Nat :=
  core + que * 2 ^ 8 + seq * 2 ^ 16 +
    match h with
    | none => 2 ^ 32
    | some e => e.sender * 2 ^ 33 + e.seq * 2 ^ 40
/-- An entry is the one that a receive expects. -/
def matches_ (core seq : Nat) (h : Option QEntry) : Bool :=
  match h with
  | none => false
  | some e => e.sender == core && e.seq == seq

/-! ## Sending (R240, R241) -/

/-- The cycles since a vector send that still holds a lane, if any. -/
def Core.laneBusy (c : Core) (lane t : Nat) : Option Nat :=
  match fget c.lanes none lane with
  | some u => if u < t && t < u + 4 then some (t - u) else none
  | none => none
/-- The lowest core with a full queue. -/
def World.fullQueue (w : World) (q : Nat) (ts : List Nat) : Option Nat := ts.find? (fun k => 16 ≤ w.reserved k q)
/-- Post one entry to every target, each counted (R128). `checks` are the ILLEGAL reasons; `lane` is the vector form's. -/
def sendAct (checks : List (Nat × Bool)) (ts : List Nat) (pm : Nat) (lane : Option Nat) (data : List Byte) (s : State) :
    World :=
  let k := s.w.cur.core
  let q := pmQue pm
  match failing checks with
  | 0 =>
    match s.w.fullQueue q ts with
    | some x => s.w.trap 11 (x + q * 2 ^ 8 + 16 * 2 ^ 16)
    | none =>
      match lane.bind (fun l => (s.w.cc.laneBusy l s.w.cur.issue).map (fun d => (l, d))) with
      | some b => s.w.trap 11 (2 ^ 30 + b.1 * 2 ^ 28 + b.2 * 2 ^ 24)
      | none =>
        let t := s.w.cur.issue + if ts.all (fun x => dieOf x == dieOf k) then 16 else 80
        let w := (s.w.count k 0x2C ts.length).onCur (fun c =>
          match lane with
          | some l => { c with lanes := fput c.lanes l (some s.w.cur.issue) }
          | none => c)
        w.fly s.w.cur.issue t t (.send ts q (pmSeq pm)) [] data
  | r => s.w.trap 1 (queueInfo r)
/-- The checks of SEND and SENDS. -/
def sendChecks (g : Gang) (pm : Nat) : List (Nat × Bool) := [ck 1 (g.members.contains (pmCore pm)), ck 3 (pmClean pm)]
def lineBytes (x : Line) : List Byte := leBytes 1024 x.toNat
def execSend (lane v : Nat) (p : Src) (s : State) : Host.Outcome State Fault Refusal :=
  let pm := (s.w.srcZ p).toNat
  done s (only (sendAct (sendChecks (s.w.gangAt s.w.cur.core) pm) [pmCore pm] pm (some lane) (lineBytes (s.w.rdV v)) s))
/-- The scalar in bytes 0 to 7, zero above. -/
def scalarEntry (x : Word) : List Byte := leBytes 1024 x.toNat
def execSends (a : Nat) (p : Src) (s : State) : Host.Outcome State Fault Refusal :=
  let pm := (s.w.srcZ p).toNat
  done s (only (sendAct (sendChecks (s.w.gangAt s.w.cur.core) pm) [pmCore pm] pm none (scalarEntry (s.w.rdS a)) s))
/-- MCAST: all members of a held group (log 15). -/
def execMcast (lane v : Nat) (p : Src) (s : State) : Host.Outcome State Fault Refusal :=
  let pm := (s.w.srcZ p).toNat
  let g := s.w.group (field 7 0 pm)
  let mem := (s.w.gangAt s.w.cur.core).members
  done s (only (sendAct [ck 1 (g.cores.all (fun k => mem.contains k)), ck 2 (!g.holders.isEmpty),
      ck 3 (field 15 11 pm == 0)] g.cores pm (some lane) (lineBytes (s.w.rdV v)) s))

/-! ## Receiving (R241) -/

/-- Pop the head and hand its data to `f`, or trap. -/
def recvAct (p : Src) (f : World → Line → World) (s : State) : World :=
  let pm := (s.w.srcZ p).toNat
  let q := pmQue pm
  let h := (s.w.cc.queue q).head?
  if !pmClean pm then s.w.trap 1 (queueInfo 3)
  else
    match h with
    | none => s.w.trap 4 (postmarkInfo (pmCore pm) q (pmSeq pm) none)
    | some e =>
      if matches_ (pmCore pm) (pmSeq pm) (some e) then f (s.w.onCur (fun c => c.pop q 1)) e.data
      else s.w.trap 4 (postmarkInfo (pmCore pm) q (pmSeq pm) (some e))
def execRecv (v : Nat) (p : Src) (s : State) : Host.Outcome State Fault Refusal :=
  done s (only (recvAct p (fun w x => w.wrV 3 v x allV) s))
def execRecvs (t : Nat) (p : Src) (s : State) : Host.Outcome State Fault Refusal :=
  done s (only (recvAct p (fun w x => w.wrS 3 t (x.setWidth 64)) s))

/-! ## Signals (R244) -/

/-- The release check before an effect of package scope. -/
def World.releasing (w : World) (f : World → World) : World :=
  match w.releaseFails with
  | some info => w.trap 8 info
  | none => f w
def signalAct (a : Nat) (b : Src) (s : State) : World :=
  let va := aligned (s.w.rdS a).toNat 8
  match s.w.access va 8 2 true with
  | .error info => s.w.trap 10 info
  | .ok x =>
    let t := s.w.cur.issue + 520
    s.w.releasing (fun w => (w.podSent x).fly w.cur.issue t t (.signal (s.w.src b)) [x] [])
def execSignal (a : Nat) (b : Src) (s : State) : Host.Outcome State Fault Refusal := done s (only (signalAct a b s))

end Sys2Proof.Machine
end

