-- ==== Sys2Proof/Machine/Matrix.lean ====
section
/-! DEFINITION. The matrix array's commands at their issue: leases, shapes, tiles and the multiply (R295-R312). -/
namespace Sys2Proof.Machine
open Sys2Proof

/-! ## Shapes (R297) -/

def shRows (x : Nat) : Nat := field 10 0 x
def shCols (x : Nat) : Nat := field 21 11 x
def shFmt (x : Nat) : Nat := field 25 22 x
/-- Bytes of an element of a format code. -/
def fmtBytes (f : Nat) : Nat := if f == 4 then 2 else if f == 5 then 4 else 1
/-- The format's zero (R296). -/
def fmtZero (f : Nat) : Nat := if f == 1 then 0x77 else 0
/-- A well-formed shape of a tile code. -/
def shapeOk (code x : Nat) : Bool :=
  if shFmt x == 0 then shRows x == 0 && shCols x == 0
  else 1 ≤ shRows x && 1 ≤ shCols x && shRows x ≤ 1024 && shCols x ≤ 1024 &&
    (if code < 16 then shFmt x ≤ 4 && shCols x * fmtBytes (shFmt x) ≤ 1024 else shFmt x == 5)
def Die.shape (d : Die) (code : Nat) : Nat := fget d.shapes 0 code
def Die.tile (d : Die) (code : Nat) : Tile := fget d.tiles Tile.cleared code
def Tile.at (t : Tile) (z r c : Nat) : Nat := fget t.elems z (r * 1024 + c)
def Tile.sp (t : Tile) (g j : Nat) : Nat := fget t.scale 127 (g * 1024 + j)
def Tile.valid (t : Tile) (r : Nat) : Bool := !t.invalid.contains r
/-- The bytes of a row, little-endian. -/
def Tile.row (t : Tile) (shape r : Nat) : List Byte :=
  ((List.range (shCols shape)).map (fun c => leBytes (fmtBytes (shFmt shape)) (t.at (fmtZero (shFmt shape)) r c))).flatten

/-! ## The lease and the checks of a command (R299-R303, R312) -/

def mInfo (reason : Nat) : Nat := 2 ^ 36 + reason * 2 ^ 37
/-- `TRAPINFO` of MLEASE. -/
def leaseTrapInfo (l : ArrayLease) (reason wait : Nat) : Nat :=
  reason + min wait 255 * 2 ^ 3 + (match l.holder with | some k => k % 8 | none => 7) * 2 ^ 11 + l.count % 128 * 2 ^ 14
/-- The lease check that fails, with its `TRAPINFO`: for reason 3 the wait ends with the stream and with a pending MCFG. -/
def leaseFails (d : Die) (core t : Nat) (mma : Bool) : Option Nat :=
  let l := d.lease
  if l.holder != some core then some (leaseTrapInfo l 0 0)
  else if 64 ≤ l.count then some (leaseTrapInfo l 1 0)
  else if l.grant + 16384 ≤ t then some (leaseTrapInfo l 2 0)
  else if mma && t < d.streamEnd then some (leaseTrapInfo l 3 (max d.streamEnd (d.mcfgAt.getD 0) - t))
  else
    match d.mcfgAt with
    | some p => if t < p then some (leaseTrapInfo l 4 (p - t)) else none
    | none => none
/-- A matrix command: its lease checks, its ILLEGAL reasons in order, then what it does, counted under the lease. -/
def matAct (mma : Bool) (checks : Die → List (Nat × Bool)) (f : State → Die → World) (s : State) : World :=
  let k := s.w.cur.core
  let d := s.w.die (dieOf k)
  match leaseFails d k s.w.cur.issue mma with
  | some info => s.w.trap 12 info
  | none =>
    match failing (checks d) with
    | 0 =>
      f { s with w := s.w.modDie (dieOf k) (fun d => { d with lease := { d.lease with count := d.lease.count + 1 } }) } d
    | r => s.w.trap 1 (mInfo r)
/-- A tile with a double error is consumed by the command that reads it; single errors are corrected (R130, R340). -/
def State.readsTiles (s : State) (codes : List Nat) (w : World) : World :=
  let k := s.w.cur.core
  let es := (codes.map (fun c => s.w.errsAt (.tile (dieOf k) c))).flatten
  if hasDouble es then s.consumed s.w 3 0 else w.fixed k es.length
/-- Change the operation just put in flight. -/
def World.lastFlight (w : World) (f : Flight → Flight) : World :=
  { w with flights := w.flights.dropLast ++ (w.flights.getLast?.map f).toList }
/-- A matrix command in flight, with `src` bytes and flags, posted `lat` after issue. -/
def World.array (w : World) (lat : Nat) (op : FOp) (src : List Byte) (flags : Nat) : World :=
  let t := w.cur.issue + lat
  (w.fly w.cur.issue t t op [] src).lastFlight (fun f => { f with flags := flags })
/-- A line that a command reads at its issue, an access of its slot, kept for its delivery; an uncorrectable error is consumed. -/
def State.firstLine (s : State) (line : Nat) (w : World) : World :=
  let k := s.w.cur.core
  let l := w.counted.look k (line * 1024) 1024
  if l.bad then s.consumed l.w 1 (line * 1024)
  else l.w.lastFlight (fun f => { f with got := fput f.got 0 (s.mem.bytes .spd (spdAt k (line * 1024)) 1024) })
def arrayOp : FOp → Bool
  | .tload .. | .tstore .. | .tscl .. | .tzero .. | .mma .. | .tcvt .. | .mcfg .. => true
  | _ => false

/-- MLEASE: another core of the die that takes the lease in this cycle, at a lower index, has it (R299). -/
def mleaseAct (t : Nat) (s : State) : World :=
  let k := s.w.cur.core
  let l := (s.w.die (dieOf k)).lease
  let claim (p : Pend) : Bool := p.issue == s.w.cur.issue && p.w == .lease true
  let taken := ((List.range 4).map (fun i => dieOf k * 8 + i)).any (fun x => (s.w.core x).pend.any claim)
  if l.holder == some k then s.w.wrS 1 t 2
  else if l.holder.isSome || taken then s.w.wrS 1 t 0
  else (s.w.wrS 1 t 1).post 1 (.lease true)
def execMlease (t : Nat) (s : State) : Host.Outcome State Fault Refusal := done s (only (mleaseAct t s))
def mrelAct (s : State) : World :=
  if (s.w.die (dieOf s.w.cur.core)).lease.holder == some s.w.cur.core then s.w.post 1 (.lease false) else s.w
def execMrel (s : State) : Host.Outcome State Fault Refusal := done s (only (mrelAct s))

/-- MCFG: commits 32 cycles after the last outstanding array command of the die (R298). -/
def mcfgAct (s : State) : World :=
  matAct false
    (fun d => [ck 5 ((List.range 20).all (fun j => shapeOk j (fget d.tshape 0 j)))])
    (fun s d =>
      let k := s.w.cur.core
      let t := s.w.cur.issue
      let last := ((s.w.flights.filter (fun f => arrayOp f.op && f.gang == s.w.gangOf k && dieOf f.core == dieOf k)).map (fun f => f.posted)).foldl max t
      (s.w.array (last + 32 - t) (.mcfg d.tshape) [] 0).modDie (dieOf k) (fun d => { d with mcfgAt := some (last + 32) })) s
def execMcfg (s : State) : Host.Outcome State Fault Refusal := done s (only (mcfgAct s))

/-! ## Loading and storing (R306-R309) -/

def lineNo (x : Word) : Nat := field 20 10 x.toNat
/-- The entries that TLOAD pops: the first that is absent or wrong, by its place. -/
def badEntry (core seq : Nat) (es : List QEntry) : Nat → Nat → Option Nat
  | 0, _ => none
  | n + 1, j =>
    match es with
    | [] => some j
    | e :: r => if e.sender == core && e.seq == (seq + j) % 65536 then badEntry core seq r n (j + 1) else some j
def tloadAct (m tr q : Bool) (tile a : Nat) (b : Src) (s : State) : World :=
  let spec := (s.w.src b).toNat
  let f := field 10 0 spec
  let n := field 21 11 spec
  matAct false
    (fun d =>
      let x := d.shape tile
      [ck 1 (shFmt x != 0),
       ck 4 (1 ≤ n && f + n ≤ (if tr then shCols x else shRows x) && (!tr || shRows x * fmtBytes (shFmt x) ≤ 1024) &&
         (!q || n ≤ 16))])
    (fun s _ =>
      let line := lineNo (s.w.rdS a)
      let len := if m then n + 1 else n
      if q then
        let pm := (s.w.rdS a).toNat
        let es := s.w.cc.queue (pmQue pm)
        match badEntry (pmCore pm) (pmSeq pm) es n 0 with
        | some j => s.w.trap 4 (postmarkInfo (pmCore pm) (pmQue pm) ((pmSeq pm + j) % 65536) es[j]?)
        | none =>
          (s.w.onCur (fun c => c.pop (pmQue pm) n)).array (32 + n) (.tload m tr true tile f n line)
            ((es.take n).map (fun e => lineBytes e.data)).flatten 0
      else s.firstLine line (s.w.array (32 + len) (.tload m tr false tile f n line) [] 0)) s
def execTload (m tr q : Bool) (n a : Nat) (b : Src) (s : State) : Host.Outcome State Fault Refusal :=
  done s (only (tloadAct m tr q n a b s))
/-- A row padded with zeros to `q` lines. -/
def padTo (n : Nat) (bs : List Byte) : List Byte := bs.take n ++ List.replicate (n - bs.length) 0
def tstoreAct (m : Bool) (tile a : Nat) (b : Src) (s : State) : World :=
  let spec := (s.w.src b).toNat
  let f := field 10 0 spec
  let n := field 21 11 spec
  matAct false
    (fun d => [ck 1 (shFmt (d.shape tile) != 0), ck 4 (1 ≤ n && f + n ≤ shRows (d.shape tile))])
    (fun s d =>
      let x := d.shape tile
      let t := d.tile tile
      let q := ceilDiv (shCols x * fmtBytes (shFmt x)) 1024
      let rows := ((List.range n).map (fun j => padTo (q * 1024) (t.row x (f + j)))).flatten
      let mask : List Byte := padTo 1024 ((List.range n).map (fun j => if t.valid (f + j) then 1 else 0))
      let len := q * n + bit m
      s.readsTiles [tile] (s.w.array (32 + len) (.tstore (lineNo (s.w.rdS a))) (if m then rows ++ mask else rows) 0)) s
def execTstore (m : Bool) (tile a : Nat) (b : Src) (s : State) : Host.Outcome State Fault Refusal :=
  done s (only (tstoreAct m tile a b s))
def tzeroAct (tile : Nat) (s : State) : World := matAct false (fun _ => []) (fun s _ => s.w.array 32 (.tzero tile) [] 0) s
def execTzero (tile : Nat) (s : State) : Host.Outcome State Fault Refusal := done s (only (tzeroAct tile s))
def tsclAct (tile a : Nat) (b : Src) (s : State) : World :=
  let spec := (s.w.src b).toNat
  let g := field 4 0 spec
  let n := field 10 5 spec
  matAct false
    (fun d => [ck 1 (shFmt (d.shape tile) != 0), ck 4 (1 ≤ n && g + n ≤ 32)])
    (fun s _ =>
      let line := lineNo (s.w.rdS a)
      s.firstLine line (s.w.array (32 + n) (.tscl tile g n line) [] 0)) s
def execTscl (n a : Nat) (b : Src) (s : State) : Host.Outcome State Fault Refusal := done s (only (tsclAct n a b s))

/-! ## The multiply (R302, R310) -/

/-- The rate of a format pair. -/
def mmaRate (fa fw : Nat) : Option Nat :=
  match fa, fw with
  | 2, 1 | 3, 1 | 4, 1 => some 1
  | 2, 2 | 3, 3 => some 2
  | 4, 4 => some 4
  | _, _ => none
/-- The value of an element of a format code. -/
def fmtValue (f x : Nat) : FVal :=
  match f with
  | 1 => pw8Val x
  | 2 => specE4m3.decode x
  | 3 => specE5m2.decode x
  | 4 => specBf16.decode x
  | _ => specF32.decode x
def FVal.isInf (neg : Bool) : FVal → Bool
  | .inf n => n == neg
  | _ => false
/-- The exact sum of finite values. -/
def sumFin : List FVal → FVal
  | [] => .fin false 0 0
  | [x] => x
  | .fin n m e :: r =>
    match sumFin r with
    | .fin n' m' e' => let x := addFin .rne n m e n' m' e'; .fin x.1 x.2.1 x.2.2
    | y => y
  | x :: _ => x
/-- A chunk's exact sum and its flags (R310, special values). DEDUCED: where several of R310's rows meet in one chunk, a NaN goes before
an infinity, and invalid is raised if any of them raises it (log 33). -/
def chunkSum (ps : List (FVal × FVal)) : FVal × Nat :=
  let xs := ps.map (fun p => mulV p.1 p.2)
  let vs := xs.filterMap id
  let sig := ps.any (fun p => p.1.isSig || p.2.isSig)
  let clash := vs.any (FVal.isInf true) && vs.any (FVal.isInf false)
  let fl := nvIf (sig || clash || xs.any Option.isNone)
  if clash || xs.any Option.isNone || vs.any FVal.isNan then (.nan false, fl)
  else if vs.any (FVal.isInf true) then (.inf true, fl)
  else if vs.any (FVal.isInf false) then (.inf false, fl)
  else (sumFin vs, fl)
/-- A value times 2^e. -/
def FVal.times2 (e : Int) : FVal → FVal
  | .fin n m x => .fin n m (x + e)
  | v => v
/-- One accumulation: the scaled sum added with one rounding. -/
def accumulate (c : Nat) (s : FVal) : Nat × Nat :=
  let x := specF32.decode c
  if x.isNan || s.isNan then (specF32.nan, nvIf x.isSig) else specF32.addV .rne x s
/-- The operands of a multiply. -/
structure MmaArgs where
  fa : Nat
  fw : Nat
  k : Nat
  as : Bool
  a : Tile
  w : Tile
  deriving DecidableEq, Repr
/-- The contributing pairs of chunk `g`. -/
def MmaArgs.pairs (x : MmaArgs) (m n g : Nat) : List (FVal × FVal) :=
  (((List.range (min x.k (32 * g + 32) - 32 * g)).map (· + 32 * g)).filter (fun k => x.w.valid k)).map (fun k =>
    (fmtValue x.fa (x.a.at (fmtZero x.fa) m k), fmtValue x.fw (x.w.at (fmtZero x.fw) k n)))
/-- The element (m, n) over some chunks, with flags. -/
def MmaArgs.elem (x : MmaArgs) (m n : Nat) : List Nat → Nat → Nat → Nat × Nat
  | [], c, fl => (c, fl)
  | g :: r, c, fl =>
    let sw := x.w.sp g n
    let sa := if x.as then x.a.sp 0 m else 127
    let p := chunkSum (x.pairs m n g)
    let bad := sw == 255 || sa == 255
    let s := if bad then FVal.nan false else p.1.times2 ((sw : Int) - 127 + ((sa : Int) - 127))
    let y := accumulate c s
    x.elem m n r y.1 (fl ||| p.2 ||| nvIf bad ||| y.2)
/-- A row of the result. -/
def MmaArgs.row (x : MmaArgs) (z : Bool) (c : FMap Nat) (cols m : Nat) : List ((Nat × Nat) × Nat) :=
  (List.range cols).map (fun n =>
    let old := if z then 0 else fget c 0 (m * 1024 + n)
    let y := if x.a.valid m then x.elem m n (List.range (ceilDiv x.k 32)) old 0 else (old, 0)
    ((m * 1024 + n, y.1), y.2))
/-- The accumulator's input: the last result or clear that the same core has pending on it, else what is committed. -/
def World.accInput (w : World) (tile : Nat) : FMap Nat :=
  let mine (f : Flight) : Option (FMap Nat) :=
    if f.core == w.cur.core && f.gang == w.gangOf w.cur.core then
      match f.op with
      | .mma t out => if t == tile then some out else none
      | .tzero t => if t == tile then some [] else none
      | _ => none
    else none
  match (w.flights.filterMap mine).getLast? with
  | some m => m
  | none => ((w.die (dieOf w.cur.core)).tile tile).elems
def mmaAct (as z : Bool) (acc a w : Nat) (s : State) : World :=
  matAct true
    (fun d =>
      let xa := d.shape a
      let xw := d.shape w
      let xc := d.shape (16 + acc)
      [ck 1 (shFmt xa != 0 && shFmt xw != 0 && shFmt xc != 0),
       ck 2 (shRows xa == shRows xc && shCols xa == shRows xw && shCols xw == shCols xc),
       ck 3 (mmaRate (shFmt xa) (shFmt xw)).isSome])
    (fun s d =>
      let xa := d.shape a
      let xw := d.shape w
      let x : MmaArgs := { fa := shFmt xa, fw := shFmt xw, k := shCols xa, as := as, a := d.tile a, w := d.tile w }
      let span := (mmaRate x.fa x.fw).getD 1 * x.k
      let c := s.w.accInput (16 + acc)
      let rows := ((List.range (shRows xa)).map (x.row z c (shCols xw))).flatten
      let out : FMap Nat := (rows.map (·.1)).filter (fun e => e.2 != 0)
      s.readsTiles (if z then [a, w] else [a, w, 16 + acc])
        ((s.w.array (64 + span) (.mma (16 + acc) out) [] (orAll (rows.map (·.2)))).modDie (dieOf s.w.cur.core)
          (fun d => { d with streamEnd := s.w.cur.issue + span }))) s
def execMma (as z : Bool) (acc a w : Nat) (s : State) : Host.Outcome State Fault Refusal :=
  done s (only (mmaAct as z acc a w s))

/-! ## TCVT (R311) -/

def fmtSpec (f : Nat) : FSpec := if f == 2 then specE4m3 else if f == 3 then specE5m2 else specBf16
/-- One element converted. -/
def tcvtElem (rm : RMode) (sat : Bool) (f k x : Nat) : Nat × Nat :=
  if k == 255 then ((fmtSpec f).nan, flagNV)
  else (fmtSpec f).convert rm sat ((specF32.decode x).times2 ((k : Int) - 127))
def tcvtAct (rm : RMode) (sat : Bool) (tile acc : Nat) (b : Src) (s : State) : World :=
  let k := (s.w.src b).toNat % 256
  matAct false
    (fun d =>
      let x := d.shape tile
      let y := d.shape (16 + acc)
      [ck 1 (shFmt x != 0 && shFmt y != 0), ck 2 (shRows x == shRows y && shCols x == shCols y), ck 3 (shFmt x != 1)])
    (fun s d =>
      let x := d.shape tile
      let t := d.tile (16 + acc)
      let es := ((List.range (shRows x)).map (fun m => (List.range (shCols x)).map (fun n =>
        ((m * 1024 + n), tcvtElem rm sat (shFmt x) k (t.at 0 m n))))).flatten
      let out : FMap Nat := (es.map (fun e => (e.1, e.2.1))).filter (fun e => e.2 != 0)
      s.readsTiles [16 + acc] (s.w.array (64 + shRows x) (.tcvt tile out) [] (orAll (es.map (fun e => e.2.2))))) s
def execTcvt (rm : RMode) (sat : Bool) (n acc : Nat) (k : Src) (s : State) : Host.Outcome State Fault Refusal :=
  done s (only (tcvtAct rm sat n acc k s))

end Sys2Proof.Machine
end

