-- ==== Sys2Proof/Machine/Carousel.lean ====
section
/-! DEFINITION. The carousel commands at their issue (R318-R325); what the ring and the roster do stands with the
ring's steps. -/
namespace Sys2Proof.Machine
open Sys2Proof

/-- Catch registers of a core (R319). -/
def carQuota (core : Nat) : Nat := if isMx core then 16 else 8
/-- Registers in use: a command holds one from its issue until its posted time; so do those of a pre-empted gang, which go on at the stop
(R330). -/
def World.carHeld (w : World) (core : Nat) : Nat :=
  (w.flights.filter (fun f => f.core == core && isCar f.op &&
    (if f.gang == w.gangOf core then w.cur.issue else (w.gang f.gang).ttc) < f.posted)).length
/-- The name operand (R320). -/
def World.carName (w : World) (n : Src) : Nat := (w.srcZ n).toNat
/-- The virtual addresses of the bytes of four lines from `line` that lie in a region bound without CB (R202, R321). -/
def noBoard (c : Core) (im : Image) (line : Nat) : List Nat :=
  ((List.range 4).map (fun j =>
    let lo := (line + j) % 2048 * 1024
    c.regions.filterMap (fun r =>
      match r.bound with
      | none => none
      | some b =>
        match im.leases[b.1]? with
        | none => none
        | some l =>
          if bitOf 3 l.rights then none
          else if r.base < lo + 1024 && lo < r.base + r.size then some (l.va + b.2 + (max lo r.base - r.base)) else none))).flatten
/-- The lowest of some numbers. -/
def lowest : List Nat → Option Nat
  | [] => none
  | x :: r => match lowest r with | some y => some (min x y) | none => some x
/-- The image of the gang's task. -/
def World.imageOf (w : World) (core : Nat) : Image :=
  match w.task? (w.gangAt core).tenant (w.gangAt core).task with
  | some t => t.image
  | none => default
/-- A carousel command: LEASE of its source, QUEUE of the registers, then in flight for its watch. -/
def carAct (kind : CarKind) (ccw cp : Bool) (t : Nat) (line : Nat) (n : Src) (s : State) : World :=
  let k := s.w.cur.core
  let nm := s.w.carName n
  let reads := kind == .board || kind == .repl
  let bad := if reads then lowest (noBoard s.w.cc (s.w.imageOf k) line) else none
  match bad with
  | some va => s.w.trap 10 (va % 2 ^ 48 + 3 * 2 ^ 48 + 2 ^ 50)
  | none =>
    if carQuota k ≤ s.w.carHeld k then s.w.trap 11 (s.w.carHeld k + 2 ^ 31 + 2 ^ 32)
    else
      let p := s.w.cur.issue + if kind == .catchv then 8256 else 4160
      let op : CarCmd := { kind := kind, ccw := ccw, cp := cp, rt := t, line := line, name := nm % 2 ^ 24,
                           ver := field 31 24 nm, st := .armed }
      let w := s.w.fly s.w.cur.issue p p (.car op) [] []
      if reads then s.firstLine line w else w
def execCboard (ccw : Bool) (a : Nat) (n : Src) (s : State) : Host.Outcome State Fault Refusal :=
  done s (only (carAct .board ccw false 0 (lineNo (s.w.rdS a)) n s))
def execCalight (ccw cp : Bool) (t a : Nat) (n : Src) (s : State) : Host.Outcome State Fault Refusal :=
  done s (only (carAct .alight ccw cp t (lineNo (s.w.rdS a)) n s))
def execCcatch (ccw : Bool) (t a : Nat) (n : Src) (s : State) : Host.Outcome State Fault Refusal :=
  done s (only (carAct .catch_ ccw false t (lineNo (s.w.rdS a)) n s))
def execCcatchv (ccw : Bool) (t a : Nat) (n : Src) (s : State) : Host.Outcome State Fault Refusal :=
  done s (only (carAct .catchv ccw false t (lineNo (s.w.rdS a)) n s))
def execCrepl (ccw : Bool) (t a : Nat) (n : Src) (s : State) : Host.Outcome State Fault Refusal :=
  done s (only (carAct .repl ccw false t (lineNo (s.w.rdS a)) n s))
/-- CROST reads the roster within 160 cycles. -/
def execCrost (ccw : Bool) (t : Nat) (n : Src) (s : State) : Host.Outcome State Fault Refusal :=
  done s (only (s.w.fly s.w.cur.issue (s.w.cur.issue + 160) (s.w.cur.issue + 160)
    (.roster ccw t (s.w.carName n % 2 ^ 24)) [] []))

end Sys2Proof.Machine
end

