-- ==== Sys2Proof/Machine/Engine.lean ====
section
/-! DEFINITION. The block-transfer engine's commands at their issue, and IFILL (R210-R223, R229). -/
namespace Sys2Proof.Machine
open Sys2Proof

/-! ## Operands (R212, R213) -/

/-- `TRAPINFO` of an engine command's ILLEGAL (R213). -/
def engInfo (reason : Nat) : Nat := 2 ^ 21 + reason * 2 ^ 22
/-- An operand's end and address: a scratchpad's core and byte, or a virtual address. -/
def endOf (glb : Bool) (v : Word) : End × Nat :=
  if glb then (.glb, v.toNat) else (.spd (field 27 21 v.toNat), v.toNat % 2 ^ 21)
/-- The faults of a scratchpad operand: a core that is no member, bits [63:28] not zero. -/
def operandFaults (g : Gang) (glb : Bool) (v : Word) : List (Nat × Bool) :=
  if glb then []
  else [ck 3 (g.members.contains (field 27 21 v.toNat)), ck 4 (field 63 28 v.toNat == 0)]
/-- The faults of a control scalar: reserved bits, a length above 2^21 after its low four bits are cleared. -/
def controlFaults (c : Word) : List (Nat × Bool) :=
  [ck 1 (field 39 22 c.toNat == 0), ck 2 (aligned (field 21 0 c.toNat) 16 ≤ 2 ^ 21)]
def controlLen (c : Word) : Nat := aligned (field 21 0 c.toNat) 16
def controlDly (c : Word) : Nat := field 63 40 c.toNat

/-! ## Leases of a command (R200, R212, R370) -/

/-- An entry whose run lies in the pod window. -/
def Rle.podRun (e : Rle) : Bool := podPa e (e.pbase * 2 ^ 16)
/-- The lowest byte of some stretches that the leases do not admit. -/
def lowestBad (es : List Rle) (right : Nat) : List (Nat × Nat) → Option Nat
  | [] => none
  | r :: rs =>
    let a := uncovered (es.filter (fun e => !e.podRun)) right r.1 (r.1 + r.2) (es.length + 1)
    match a, lowestBad es right rs with
    | some x, some y => some (min x y)
    | some x, none => some x
    | none, y => y
/-- The accesses of a stretch, cut at the ends of runs and of 4 KiB granules. -/
def accsFrom (w : World) (es : List Rle) (right : Nat) : Nat → Nat → Nat → List Acc
  | 0, _, _ => []
  | fuel + 1, va, stop =>
    if stop ≤ va then []
    else
      match es.find? (fun e => e.covers va && e.grants right) with
      | none => []
      | some e =>
        let m := min (min stop e.hi) ((va / 4096 + 1) * 4096)
        accOf w e va (m - va) :: accsFrom w es right fuel m stop
def accsOf (w : World) (es : List Rle) (right : Nat) (r : Nat × Nat) : List Acc :=
  accsFrom w es right (r.2 / 4096 + 2 * es.length + 2) r.1 (r.1 + r.2)

/-! ## Timing and issue (R210, R211, R214) -/

/-- Commands a core may hold: 64 on an MX die, 32 on a VS die (R210). -/
def engQuota (core : Nat) : Nat := if isMx core then 64 else 32
/-- The commands of a core that occupy the buffer. -/
def World.engHeld (w : World) (core : Nat) : Nat :=
  (w.flights.filter (fun f => f.core == core && f.gang == w.gangOf core && isEng f.op)).length
def endOn (die : Nat) : End → Bool
  | .spd k => dieOf k == die
  | .glb => true
/-- Base latency, posted time and completion of a command that starts at `s` (R214). -/
def engTimes (die sh s bytes : Nat) (c : EngCmd) (fill : Bool) (accs : List Acc) : Nat × Nat :=
  let nd := c.dstLines.length
  let ns := c.srcLines.length
  let near := endOn die c.dst && endOn die c.src && accs.all (fun a => a.home == die)
  let glb := !(isSpd c.dst && (fill || isSpd c.src))
  let base := if glb then (if near then 420 else 520) else if near then 12 else 40
  let rate := ceilDiv bytes (max sh 1)
  if isSpd c.dst then
    if fill then (s + base, s + base + nd)
    else
      let x := if isSpd c.src then max ns nd else max nd rate
      (s + base + x - nd, s + base + x)
  else
    let x := if fill then rate else max ns rate
    (s + base + x, s + base + x)
/-- The stretches at an end: `true` for the destination's. -/
def EngCmd.ends (c : EngCmd) (dst : Bool) : List (Nat × Nat) :=
  if dst then c.segs.map (fun g => (g.d, g.n)) else c.segs.filterMap (fun g => g.s.map (fun a => (a, g.n)))
/-- The global stretches of a command, with the right they need. -/
def EngCmd.global (c : EngCmd) : List (Nat × Nat) × Nat :=
  if !isSpd c.dst then (c.ends true, 1) else if !isSpd c.src then (c.ends false, 0) else ([], 0)
/-- The LEASE or the QUEUE trap of a command that has something to do: its cause and `TRAPINFO` (R200, R211). -/
def engFails (c : EngCmd) (s : State) : Option (Nat × Nat) :=
  let k := s.w.cur.core
  let es := s.w.entries k
  if c.segs.isEmpty then none
  else
    match lowestBad es c.global.2 c.global.1 with
    | some a => some (10, leaseInfo es a c.global.2)
    | none => if engQuota k ≤ s.w.engHeld k then some (11, s.w.engHeld k + 2 ^ 31) else none
/-- An accepted command: its leases, its place in the buffer, its times. A command with nothing to do takes no entry. -/
def engIssue (c : EngCmd) (fill : Bool) (dly bytes : Nat) (s : State) : World :=
  let k := s.w.cur.core
  let es := s.w.entries k
  let g := s.w.gangAt k
  let w := s.w.count k 0x2A 1
  match engFails c s with
  | some x => s.w.trap x.1 x.2
  | none =>
    if c.segs.isEmpty then w
    else
      let accs := (c.global.1.map (accsOf s.w es c.global.2)).flatten
      let st := s.w.cur.issue + 4 + dly
      let t := engTimes (dieOf k) g.sh st bytes c fill accs
      w.fly st t.1 t.2 (.eng c) accs []

/-! ## BCOPY and BFILL (R219, R220) -/

def endsSrcGlb : Ends → Bool
  | .gs => true
  | _ => false
def endsDstGlb : Ends → Bool
  | .sg => true
  | _ => false
def bcopyAct (e : Ends) (d : Nat) (b : Src) (c : Nat) (s : State) : World :=
  let g := s.w.gangAt s.w.cur.core
  let dv := s.w.rdS d
  let sv := s.w.src b
  let cv := s.w.rdS c
  match failing (controlFaults cv ++ operandFaults g (endsDstGlb e) dv ++ operandFaults g (endsSrcGlb e) sv) with
  | 0 =>
    let dst := endOf (endsDstGlb e) dv
    let src := endOf (endsSrcGlb e) sv
    let len := controlLen cv
    let seg : Seg := { d := aligned dst.2 16, s := some (aligned src.2 16), n := len, pat := [] }
    engIssue { dst := dst.1, src := src.1, segs := if len == 0 then [] else [seg], mask := none } false
      (controlDly cv) len s
  | r => s.w.trap 1 (engInfo r)
def execBcopy (e : Ends) (d : Nat) (b : Src) (c : Nat) (s : State) : Host.Outcome State Fault Refusal :=
  done s (only (bcopyAct e d b c s))
def fillBytes : FillSize → Nat
  | .b1 => 1 | .b2 => 2 | .b4 => 4 | .b8 => 8
def bfillAct (glb : Bool) (z : FillSize) (d : Nat) (v : Src) (c : Nat) (s : State) : World :=
  let g := s.w.gangAt s.w.cur.core
  let dv := s.w.rdS d
  let cv := s.w.rdS c
  match failing (controlFaults cv ++ operandFaults g glb dv) with
  | 0 =>
    let dst := endOf glb dv
    let len := controlLen cv
    let seg : Seg := { d := aligned dst.2 16, s := none, n := len, pat := leBytes (fillBytes z) (s.w.src v).toNat }
    engIssue { dst := dst.1, src := dst.1, segs := if len == 0 then [] else [seg], mask := none } true
      (controlDly cv) len s
  | r => s.w.trap 1 (engInfo r)
def execBfill (glb : Bool) (z : FillSize) (d : Nat) (v : Src) (c : Nat) (s : State) :
    Host.Outcome State Fault Refusal := done s (only (bfillAct glb z d v c s))

/-! ## TCOPY and its record (R221, R222) -/

/-- A tensor layout record. -/
structure Layout where
  dim0 : Nat
  dim1 : Nat
  scols : Nat
  srows : Nat
  esz : Nat
  mask : Bool
  fl : Bool
  rsv : Nat
  fill : Nat
  sstr : Int
  dstr : Nat
  dly : Nat
  deriving DecidableEq, Repr
def Layout.ofNat (r : Nat) : Layout :=
  { dim0 := field 15 0 r, dim1 := field 31 16 r, scols := min (field 47 32 r) (field 15 0 r),
    srows := min (field 63 48 r) (field 31 16 r), esz := field 65 64 r, mask := bitOf 66 r, fl := bitOf 67 r,
    rsv := field 95 68 r + field 511 280 r, fill := field 127 96 r, sstr := signed 64 (field 191 128 r),
    dstr := field 255 192 r, dly := field 279 256 r }
def Layout.w (l : Layout) : Nat := 2 ^ l.esz
/-- Not malformed. -/
def Layout.ok (l : Layout) : Bool :=
  1 ≤ l.dim0 && l.dim0 ≤ 1024 && 1 ≤ l.dim1 && l.dim1 ≤ 1024 && l.esz < 3 && l.dim0 * l.w ≤ 1024 && l.rsv == 0 &&
    l.sstr % (l.w : Int) == 0 && l.dstr % 16 == 0 && l.dim0 * l.w ≤ l.dstr
/-- The stretches of row `r`: in-bounds elements copied, the others filled in a scratchpad and left alone in global
memory. -/
def Layout.row (l : Layout) (dst src : Nat) (spd : Bool) (modulus : Nat) (r : Nat) : List Seg :=
  let n := if r < l.srows then l.scols else 0
  let a : Nat := (((src : Int) + r * l.sstr) % (modulus : Int)).toNat
  let copy : Seg := { d := dst + r * l.dstr, s := some a, n := n * l.w, pat := [] }
  let rest : Seg := { d := dst + r * l.dstr + n * l.w, s := none, n := (l.dim0 - n) * l.w,
                      pat := leBytes l.w (if l.fl then l.fill else 0) }
  (if n == 0 then [] else [copy]) ++ (if spd && n < l.dim0 then [rest] else [])
def Layout.segs (l : Layout) (dst src : Nat) (spd : Bool) (modulus : Nat) : List Seg :=
  ((List.range l.dim1).map (l.row dst src spd modulus)).flatten
/-- The mask line: the first aligned line at or after the tile's end; byte r is 1 when row r is in bounds. -/
def Layout.maskLine (l : Layout) (dst : Nat) : Nat × List Byte :=
  (ceilDiv (dst + (l.dim1 - 1) * l.dstr + l.dim0 * l.w) 1024 * 1024,
   (List.range 1024).map (fun r => if r < l.srows && r < l.dim1 then 1 else 0))
/-- TCOPY: an error in its record is consumed only where no check fails (R381). -/
def tcopyAct (e : Ends) (d : Nat) (b : Src) (c : Nat) (s : State) : World :=
  let k := s.w.cur.core
  let g := s.w.gangAt k
  let dv := s.w.rdS d
  let sv := s.w.src b
  let ra := aligned ((s.w.rdS c).toNat % 2 ^ 21) 64
  let l := Layout.ofNat (s.spd k ra 64)
  match failing (operandFaults g (endsDstGlb e) dv ++ operandFaults g (endsSrcGlb e) sv ++ [ck 5 l.ok]) with
  | 0 =>
    let look := s.w.look k ra 64
    let dst := endOf (endsDstGlb e) dv
    let src := endOf (endsSrcGlb e) sv
    let spd := !endsDstGlb e
    let cmd : EngCmd := { dst := dst.1, src := src.1,
                          segs := l.segs dst.2 src.2 spd (if endsSrcGlb e then 2 ^ 64 else 2 ^ 21),
                          mask := if spd && l.mask then some (l.maskLine dst.2) else none }
    if look.bad && (engFails cmd s).isNone then s.consumed look.w 1 ra
    else engIssue cmd false l.dly (l.dim0 * l.dim1 * l.w) { s with w := look.w }
  | r => s.w.trap 1 (engInfo r)
def execTcopy (e : Ends) (d : Nat) (b : Src) (c : Nat) (s : State) : Host.Outcome State Fault Refusal :=
  done s (only (tcopyAct e d b c s))

/-! ## BCHK (R210, R223) -/

def bchkAct (k a : Nat) (b : Src) (s : State) : World :=
  let base := field 20 8 (s.w.rdS a).toNat * 256
  let len := (s.w.srcZ b).toNat
  (s.w.count s.w.cur.core 0x2A 1).onCur (fun c => { c with checkers := fset c.checkers (0, 0) k (if len == 0 then (0, 0) else (base, len)) })
def execBchk (k a : Nat) (b : Src) (s : State) : Host.Outcome State Fault Refusal := done s (only (bchkAct k a b s))

/-! ## IFILL (R229) -/

def ifillInfo (reason : Nat) : Nat := 2 ^ 26 + reason * 2 ^ 27
/-- First word of a half. -/
def halfBase (b : Bool) : Nat := if b then 34816 else 4096
/-- A fill begins: the half is FILLING, its start-map bits are clear. -/
def Core.startFill (c : Core) (b : Bool) : Core :=
  { c with ctx := if b then { c.ctx with halfB := 2 } else { c.ctx with halfA := 2 },
           startMap := c.startMap.filter (fun x => areaOf x != (if b then 2 else 1)),
           ifstat := { valid := false, busy := true, half := b, fenced := false, code := 0, addr := 0 } }
def ifillAct (b : Bool) (a : Nat) (n : Src) (s : State) : World :=
  let k := s.w.cur.core
  let c := s.w.cc
  let es := s.w.entries k
  let va := aligned (s.w.rdS a).toNat 64
  let len := (s.w.src n).toNat
  let active := c.ctx.halfAct == b || s.w.cur.swap
  match failing [ck 1 (!active), ck 2 (1 ≤ len && len ≤ 30720), ck 3 (!c.ifstat.busy)] with
  | 0 =>
    match lowestBad es 0 [(va, 4 * len)] with
    | some x => s.w.trap 10 (leaseInfo es x 0)
    | none =>
      let t := s.w.cur.issue + 480 + ceilDiv (4 * len) 64
      (s.w.onCur (fun c => c.startFill b)).fly s.w.cur.issue t t (.ifill b len) (accsOf s.w es 0 (va, 4 * len)) []
  | r => s.w.trap 1 (ifillInfo r)
def execIfill (b : Bool) (a : Nat) (n : Src) (s : State) : Host.Outcome State Fault Refusal :=
  done s (only (ifillAct b a n s))

end Sys2Proof.Machine
end

