-- ==== Sys2Proof/Machine/Seq.lean ====
section
/-! DEFINITION. The C forms: the sequencer, hardware loops, stage predicates, half swaps, TRAP and the returns
from a handler (R83-R98, R232, R336, R337). -/
namespace Sys2Proof.Machine
open Sys2Proof

/-- `pc` plus a branch offset. -/
def target (pc : Nat) (off : Int) : Nat := (((pc : Int) + off) % 65536).toNat
def State.target (s : State) (off : Int) : Nat := Sys2Proof.Machine.target s.w.cur.pc off
/-- The conditions of BC against zero (R87). -/
def bcondHolds (c : BCond) (x : Int) : Bool :=
  match c with
  | .eq => x == 0
  | .ne => x != 0
  | .lt => x < 0
  | .ge => 0 ≤ x
  | .gt => 0 < x
  | .le => x ≤ 0
/-- The tests of BP over all 1024 bits (R87). -/
def btestHolds (m : BTest) (p : Pred) : Bool :=
  match m with
  | .any => p != 0
  | .all => p == BitVec.allOnes 1024
  | .none => p == 0
  | .nall => p != BitVec.allOnes 1024

/-- A direct branch: taken with one bubble and the target's `JB`, or not (R84, R86). -/
def State.branch (s : State) (w : World) (taken : Bool) (off : Int) : World :=
  if taken then s.jump w (s.target off) 1 false else s.fall w
/-- An indirect transfer goes to the low 16 bits of a scalar (R88). -/
def State.indirect (s : State) (w : World) (n : Nat) : World :=
  s.jump w ((s.w.rdS n).toNat % 65536) 1 true
/-- CALL and CALLI write the return address at issue + 1 (R89). -/
def World.link (w : World) : World := w.wrS 1 63 (BitVec.ofNat 64 w.cur.nxt)

def execBr (o : Int) (s : State) : Host.Outcome State Fault Refusal := done s (only (s.branch s.w true o))
def execBri (a : Nat) (s : State) : Host.Outcome State Fault Refusal := done s (only (s.indirect s.w a))
def execBc (c : BCond) (a : Nat) (o : Int) (s : State) : Host.Outcome State Fault Refusal :=
  done s (only (s.branch s.w (bcondHolds c (s.w.rdS a).toInt) o))
def execBp (m : BTest) (p : Nat) (o : Int) (s : State) : Host.Outcome State Fault Refusal :=
  done s (only (s.branch s.w (btestHolds m (s.w.rdP p)) o))
def execCall (o : Int) (s : State) : Host.Outcome State Fault Refusal := done s (only (s.branch s.w.link true o))
def execCalli (a : Nat) (s : State) : Host.Outcome State Fault Refusal := done s (only (s.indirect s.w.link a))
def execRet (s : State) : Host.Outcome State Fault Refusal := done s (only (s.indirect s.w 63))

/-! ## Hardware loops (R90-R92) -/

/-- `TRAPINFO` of a loop kind (R94). -/
def loopInfo (pc kind : Nat) : Nat := pc % 2 ^ 16 + 2 ^ 17 + kind * 2 ^ 18
def World.trapLoop (w : World) (kind : Nat) : World := w.trap 1 (loopInfo w.cur.pc kind)
def World.setLoops (w : World) (l : List LoopEntry) : World := w.onCtx (fun c => { c with loops := l })
/-- All ones or all zeros. -/
def fullP (b : Bool) : Pred := if b then BitVec.allOnes 1024 else 0
/-- Write stage predicates `p8` up at issue + 1. -/
def World.setWindow (w : World) (k : Nat) : List Pred → World
  | [] => w
  | v :: r => (w.wrP 1 k v allP).setWindow (k + 1) r
/-- LOOP opens a loop: the first trip enables stage 0 alone. DESIGN CHOICE: R334 does not name the loop stack among what a handler
shares with the task or has for itself; a handler's loops stand on the task's stack (log 64). -/
def loopAct (a stg : Nat) (off : Int) (s : State) : World :=
  let n := (s.w.rdS a).toNat
  let loops := s.w.cc.ctx.loops
  if 2 ^ 31 - 1 < n then s.w.trapLoop 3
  else if n == 0 then s.jump s.w (s.target off) 1 false
  else if 6 ≤ loops.length then s.w.trapLoop 0
  else
    let e : LoopEntry := { start := s.w.cur.nxt, exit := s.target off, stg := stg, rem := n + stg, idx := 0 }
    let w := s.w.setLoops (e :: loops)
    s.fall (if stg == 0 then w else w.setWindow 8 ((List.range 8).map (fun k => fullP (k == 0))))
/-- The rotation of the stage window at a LEND: it reads `p8` to `p14` at issue (R91, R96). -/
def World.rotate (w : World) (e : LoopEntry) : World :=
  if e.stg == 0 then w
  else w.setWindow 8 (fullP (e.idx + 1 + e.stg < e.rem + e.idx) :: (List.range 7).map (fun k => w.rdP (8 + k)))
/-- LEND closes a trip of the innermost loop. -/
def lendAct (s : State) : World :=
  match s.w.cc.ctx.loops with
  | [] => s.w.trapLoop 1
  | e :: r =>
    if s.w.cur.nxt != e.exit then s.w.trapLoop 2
    else
      let w := s.w.rotate e
      if 1 < e.rem then s.loopJump (w.setLoops ({ e with rem := e.rem - 1, idx := e.idx + 1 } :: r)) e.start 0
      else s.fall (w.setLoops r)
/-- LBRK leaves `k + 1` loops: the encoded count is one less (R92). -/
def lbrkAct (k : Nat) (s : State) : World :=
  let loops := s.w.cc.ctx.loops
  match loops[k]? with
  | none => s.w.trapLoop 1
  | some e => s.loopJump (s.w.setLoops (loops.drop (k + 1))) e.exit 1

def execLoop (a stg : Nat) (off : Int) (s : State) : Host.Outcome State Fault Refusal :=
  done s (only (loopAct a stg off s))
def execLend (s : State) : Host.Outcome State Fault Refusal := done s (only (lendAct s))
def execLbrk (k : Nat) (s : State) : Host.Outcome State Fault Refusal := done s (only (lbrkAct k s))
/-- PWIN sets the whole stage window (R95). -/
def pwinAct (a m : Nat) (s : State) : World :=
  let v := (s.w.rdS a).toNat ||| m
  s.fall (s.w.setWindow 8 ((List.range 8).map (fun k => fullP (bitOf k v))))
def execPwin (a m : Nat) (s : State) : Host.Outcome State Fault Refusal := done s (only (pwinAct a m s))

/-! ## Halting, half swaps, traps and returns -/

/-- HALT ends the member's timetable; in a handler it ends the task with the handled cause (R98). -/
def haltAct (s : State) : World :=
  let k := s.w.cur.core
  let c := s.w.core k
  if s.w.cur.sup then s.w.endTask (s.w.gangOf k) 2 c.cause c.trapinfo c.trappc k
  else s.w.modCtx k (fun x => { x with halted := true, loops := [] })
def execHalt (s : State) : Host.Outcome State Fault Refusal := done s (only (haltAct s))

/-- BRSWAP enters the ARMED idle half; the old active half becomes ARMED (R232). -/
def brswapAct (a : Nat) (s : State) : World :=
  let t := (s.w.rdS a).toNat % 65536
  let c := s.w.cc
  let toB := !c.ctx.halfAct
  let st := if toB then c.ctx.halfB else c.ctx.halfA
  if st != 4 || areaOf t != (if toB then 2 else 1) then s.w.trap 1 (t + 2 ^ 16)
  else if !c.startMap.contains t then s.w.trap 1 t
  else
    let w := s.w.onCtx (fun x => { x with halfAct := toB, halfA := if toB then 4 else 1, halfB := if toB then 1 else 4 })
    w.setSeq w.cur.core w.cur.sup (arrival s.mem w.cc w.cur.core w.cur.sup w.cur.pc t 4 true)
def execBrswap (a : Nat) (s : State) : Host.Outcome State Fault Refusal := done s (only (brswapAct a s))

/-- TRAP: its bundle issues whole, and TRAPINST is taken at issue + 1 with `TRAPPC` = `nxt` (R337). -/
def trapAct (k : Nat) (s : State) : World :=
  let e : EventTrap := { due := s.w.cur.issue + 1, core := s.w.cur.core, issue := s.w.cur.issue, pos := 0,
                         cause := 15, info := k, pc := some s.w.cur.nxt }
  s.fall (s.w.modGang (s.w.gangOf s.w.cur.core) (fun g => { g with events := g.events ++ [e] }))
def execTrap (k : Nat) (s : State) : Host.Outcome State Fault Refusal := done s (only (trapAct k s))
def execRft (s : State) : Host.Outcome State Fault Refusal := done s (only (s.w.rft s.w.cur.core))
def execRstrt (s : State) : Host.Outcome State Fault Refusal := done s (only (s.w.rstrt s.w.cur.core))

end Sys2Proof.Machine
end

