-- ==== Sys2Proof/Machine/Sync.lean ====
section
/-! DEFINITION. The synchronisation forms at their issue: barriers, deques, LAUNCH, and the collective waits BARWT,
TWAIT and SIGWT (R253-R261, R277, R278). -/
namespace Sys2Proof.Machine
open Sys2Proof

/-- The low bits of an id operand. -/
def World.idOf (w : World) (b : Src) (bits : Nat) : Nat := (w.src b).toNat % 2 ^ bits
/-- A request to the synchronisation engine: its result falls due 1536 cycles after issue. -/
def World.request (w : World) (op : FOp) (accs : List Acc) : World :=
  w.fly w.cur.issue (w.cur.issue + 1536) (w.cur.issue + 1536) op accs []
def barAct (drop : Bool) (t : Nat) (b : Src) (s : State) : World :=
  s.w.releasing (fun w => w.request (.bar drop t (s.w.idOf b 12)) [])
def execBararr (t : Nat) (b : Src) (s : State) : Host.Outcome State Fault Refusal := done s (only (barAct false t b s))
def execBardrp (t : Nat) (b : Src) (s : State) : Host.Outcome State Fault Refusal := done s (only (barAct true t b s))
def dqAct (op : DqOp) (t : Nat) (v : Word) (b : Src) (s : State) : World :=
  s.w.request (.deq op t (s.w.idOf b 10) v) []
def execDqpush (t a : Nat) (b : Src) (s : State) : Host.Outcome State Fault Refusal :=
  done s (only (dqAct .push t (s.w.rdS a) b s))
def execDqpop (t : Nat) (b : Src) (s : State) : Host.Outcome State Fault Refusal := done s (only (dqAct .pop t 0 b s))
def execDqsteal (t : Nat) (b : Src) (s : State) : Host.Outcome State Fault Refusal :=
  done s (only (dqAct .steal t 0 b s))
def launchAct (t a : Nat) (s : State) : World :=
  match s.w.access (aligned (s.w.rdS a).toNat 256) 256 0 false with
  | .error info => s.w.trap 10 info
  | .ok x => s.w.releasing (fun w => w.request (.launch t) [x])
def execLaunch (t a : Nat) (s : State) : Host.Outcome State Fault Refusal := done s (only (launchAct t a s))

/-! ## Collective waits (R253, R254) -/

/-- A member that has halted has no wait at this cycle: the wait is ILLEGAL of loop kind 100 (R94). -/
def World.someHalted (w : World) : Bool :=
  (w.gangAt w.cur.core).members.any (fun k => (w.core k).ctx.halted)
/-- The member's wait joins the hold that follows the cycle. -/
def Gang.wait (g : Gang) (core now : Nat) (x : Wait) : Gang :=
  match g.stat with
  | .held l since => { g with stat := .held (l ++ [(core, x)]) since }
  | _ => { g with stat := .held [(core, x)] now }
def World.collective (w : World) (x : Wait) : World :=
  if w.someHalted then w.trapLoop 4
  else w.modGang (w.gangOf w.cur.core) (fun g => g.wait w.cur.core w.now x)
/-- BARWT: the target phase is the low 16 bits of `rd(sa)` (R259). -/
def execBarwt (a : Nat) (b : Src) (s : State) : Host.Outcome State Fault Refusal :=
  done s (only (s.w.collective (.bar (s.w.idOf b 12) ((s.w.rdS a).toNat % 2 ^ 16))))
def execTwait (b : Src) (s : State) : Host.Outcome State Fault Refusal :=
  done s (only (s.w.collective (.task (s.w.idOf b 32))))
/-- SIGWT: ILLEGAL comes before LEASE (R381); a literal is the value that it holds, zero-extended (R261). -/
def sigwtAct (a : Nat) (b : Src) (s : State) : World :=
  if s.w.someHalted then s.w.trapLoop 4
  else
    match s.w.access (aligned (s.w.rdS a).toNat 8) 8 0 false with
    | .error info => s.w.trap 10 info
    | .ok x => s.w.collective (.sig x.pa x.home (s.w.srcZ b).toNat)
def execSigwt (a : Nat) (b : Src) (s : State) : Host.Outcome State Fault Refusal := done s (only (sigwtAct a b s))

end Sys2Proof.Machine
end

