-- ==== Sys2Proof/Machine/Home.lean ====
section
/-! DEFINITION. The homes: where the parts of global accesses perform, in the coherence order, and what a home does
when it is down or a lease is revoked there (R196, R201-R204, R206-R209, R214, R236, R244, R291). -/
namespace Sys2Proof.Machine
open Sys2Proof

/-! ## Doing several things in order -/

/-- Actions one after another, each from the state that the ones before leave. -/
def State.inOrder (s : State) : List (State → Act) → Act
  | [] => only s.w
  | f :: r => s.andThen (f s) (fun t => t.inOrder r)

/-! ## Parts (R206, R214, R291) -/

/-- A part of an access: its machine and virtual address, its bytes, its home and lease id; `first` when no part before
it in the access touches the same 64-byte block. -/
structure Part where
  pa : Nat
  va : Nat
  n : Nat
  home : Nat
  lid : Nat
  first : Bool
  pod : Bool
  deriving DecidableEq, Repr
def accAt : List Acc → Nat → Option (Acc × Nat)
  | [], _ => none
  | a :: r, off => if off < a.n then some (a, off) else accAt r (off - a.n)
def Acc.part (a : Acc) (off n : Nat) (first : Bool) : Part :=
  { pa := a.pa + off, va := a.va + off, n := n, home := a.home, lid := a.lid, first := first, pod := a.pod }
/-- The other dies to which an entry is sent. -/
def Flight.sendDies (f : Flight) (targets : List Nat) : List Nat := ((targets.map dieOf).dedup).filter (fun d => d != dieOf f.core)
/-- Part `k` of an operation: 16 bytes of an access or of a line that crosses dies, or a flit of an entry for another die. -/
def Flight.partAt (f : Flight) (k : Nat) : Option Part :=
  match f.op with
  | .send ts _ _ => ((f.sendDies ts)[k / 16]?).map (fun d =>
      { pa := 0, va := 0, n := 64, home := d, lid := 0, first := true, pod := false })
  | .eng c =>
    match c.parts[k]?, c.crosses with
    | none, _ => none
    | some p, some d => some { pa := 0, va := p.1, n := p.2, home := d.2, lid := 0,
                               first := k == 0 || (c.parts.getD (k - 1) (0, 0)).1 / 64 != p.1 / 64, pod := false }
    | some p, none =>
      (f.accs.find? (fun a => a.va ≤ p.1 && p.1 < a.va + a.n)).map (fun a =>
        a.part (p.1 - a.va) p.2 (k == 0 || (c.parts.getD (k - 1) (0, 0)).1 / 64 != p.1 / 64))
  | _ => (accAt f.accs (16 * k)).map (fun x =>
      x.1.part x.2 (min 16 (x.1.n - x.2)) (k == 0 || (x.1.va + x.2) % 64 == 0))
def Flight.partCount (f : Flight) : Nat :=
  match f.op with
  | .send ts _ _ => 16 * (f.sendDies ts).length
  | .eng c => if f.accs.isEmpty && c.crosses.isNone then 0 else c.parts.length
  | _ => ceilDiv ((f.accs.map (fun a => a.n)).sum) 16
def Flight.missing (f : Flight) : List Nat := (List.range f.partCount).filter (fun k => !f.parts.contains k)
/-- Writes and atomics carry their lease id to be discarded after a revocation (R201). -/
def FOp.writes : FOp → Bool
  | .gstore | .gamo .. | .signal _ => true
  | .eng c => !isSpd c.dst
  | _ => false
/-- The six operations of the issuing core that R209 orders. -/
def FOp.global : FOp → Bool
  | .gload .. | .gstore | .gamo .. | .signal _ => true
  | _ => false

/-! ## The order of R209 -/

def accOverlap (a b : Acc) : Bool := a.pa < b.pa + b.n && b.pa < a.pa + a.n
/-- `g` performs before `f`: both of one core, `g` issued earlier; writes to one home in order (rule 2), a load after a
store or atomic to the same location (rule 3). -/
def precedes (g f : Flight) : Bool :=
  g.core == f.core && g.gang == f.gang && g.id < f.id && g.op.global && g.op.writes && f.op.global &&
    (if f.op.writes then g.accs.any (fun a => f.accs.any (fun b => a.home == b.home))
     else g.accs.any (fun a => f.accs.any (fun b => accOverlap a b)))
/-- The unperformed operations that must perform before the ones listed, from a list in falling order. -/
def chainOf : List Flight → List Flight → List Flight
  | need, [] => need
  | need, g :: r => if need.any (fun f => precedes g f) then chainOf (g :: need) r else chainOf need r
/-- An operation with what R209 puts before it, in order of issue. -/
def World.chain (w : World) (f : Flight) : List Flight :=
  chainOf [f] ((w.flights.filter (fun g => g.id < f.id && !g.missing.isEmpty)).reverse)

/-! ## Performing (R201, R203, R204, R206-R208, R244) -/

def byteSpan (a n : Nat) : List Nat := (List.range n).map (a + ·)
def World.unpoison (w : World) (a n : Nat) : World :=
  { w with gpoison := w.gpoison.filter (fun x => !(decide (a ≤ x) && decide (x < a + n))) }
def World.poisonedAt (w : World) (a n : Nat) : Bool := w.gpoison.any (fun x => decide (a ≤ x) && decide (x < a + n))
/-- Flits that cross from one die to another: sent by the one, received by the other (R130). -/
def World.crossed (w : World) (a b ten n : Nat) : World := (w.countDie a 0x0C ten n).countDie b 0x0D ten n
/-- The dies that an operation's own lines cross between. -/
def Flight.crosses (f : Flight) : Option (Nat × Nat) :=
  match f.op with
  | .eng c => c.crosses
  | _ => none
/-- The die whose link an operation's data takes: that of an engine command's scratchpad, of the source where lines cross dies
(log 52). -/
def Flight.dataDie (f : Flight) : Nat :=
  match f.op with
  | .eng c =>
    match c.dst, c.src with
    | .spd k, .spd j => if dieOf j == dieOf k then dieOf k else dieOf j
    | .spd k, _ => dieOf k
    | _, .spd k => dieOf k
    | _, _ => dieOf f.core
  | _ => dieOf f.core
/-- A home request is counted per 64-byte block; one that crosses links, as a flit each way, the request's and the
response's (R130, R235; log 52). DESIGN CHOICE: R130 counts a home request once, on arrival, and does not say whether one that is refused
and sent again counts again: it does, at each arrival (log 52). -/
def World.homeCounted (w : World) (p : Part) (die data ten : Nat) : World :=
  if p.first then
    let w1 := w.countDie p.home (if p.home == die then 1 else 2) ten 1
    if p.home == data then w1 else (w1.crossed data p.home ten 1).crossed p.home data ten 1
  else w
/-- Key of a source line whose bytes are kept from before a line that commits ahead of its read (R215, R219). -/
def earlyKey (k : Nat) : Nat := 2 ^ 40 + k
/-- Source line `i` of a command as read, or as kept. -/
def Flight.lineBytes (f : Flight) (i : Nat) : List Byte :=
  if (f.got.map (·.1)).contains i then fget f.got [] i else fget f.got [] (earlyKey i)
/-- The bytes of an engine command's piece from its captured source lines, or its pattern. -/
def Flight.pieceBytes (f : Flight) (c : EngCmd) (g : Seg) : List Byte :=
  match g.s with
  | none => (List.range g.n).map (fun i => g.pat.getD (i % g.pat.length) 0)
  | some a =>
    match placeOf (lineOfAddr a) c.srcLines with
    | some i => ((f.lineBytes i).drop (a % 1024)).take g.n
    | none => []
/-- The pieces of part `k`. -/
def EngCmd.inPart (c : EngCmd) (k : Nat) : List Piece := c.parted.filter (fun x => x.part == k)
/-- What a part of a write stores. -/
def Flight.partBytes (f : Flight) (k : Nat) : List Byte :=
  match f.op with
  | .eng c => ((c.inPart k).map (fun x => f.pieceBytes c x.seg)).flatten
  | _ => (f.src.drop (16 * k)).take 16
/-- Key of a global part in `Flight.got`. -/
def partKey (k : Nat) : Nat := 2 ^ 20 + k
/-- Watches see every write to their words: the first that meets the condition completes the wait (R261). -/
def watchMet (m : Mems) (w : World) (core : Nat) : Bool :=
  match (w.gangAt core).stat with
  | .held l _ => l.any (fun x => x.1 == core && (match x.2 with | .sig pa _ v => v ≤ m.num .glb pa 8 | _ => false))
  | _ => false
def World.settle (w : World) (m : Mems) : World :=
  w.modHub (fun h => { h with watches := h.watches.map (fun x => if watchMet m w x.1 then (x.1, 1) else x) })
def State.settled (s : State) (a : Act) : Act := { a with w := a.w.settle (s.commit a).mem }
/-- A write of bytes at a machine address: it ends poison there, and the watches see it. -/
def State.glbWrite (s : State) (w : World) (pa : Nat) (bs : List Byte) : Act :=
  s.settled { w := w.unpoison pa bs.length, out := [.bytes .glb pa bs] }
/-- Requests of a pod operation that are refused or fail add to its route's `REF`, saturating, and are counted against its tenant at
the port (R368, R370). -/
def World.podFailed (w : World) (p : PodOut) (n : Nat) : World :=
  let r := w.route p.route
  w.modHub (fun h =>
    let x := fget h.ports Port.idle p.port
    { h with routes := fput h.routes p.route { r with ref := min (r.ref + n) 65535 },
             ports := fput h.ports p.port { x with refused := fput x.refused p.ten (fget x.refused 0 p.ten + n) } })
/-- A pod operation's entry takes its new counts, and goes where no request of it is left. -/
def World.setPodOut (w : World) (p : PodOut) : World :=
  w.modHub (fun h => { h with podOut := (h.podOut.map (fun q => if q.id == p.id then p else q)).filter (fun q => 0 < q.left + q.togo) })
/-- The request that a block of a pod operation is: a write of 64 bytes under a mask, or an atomic of 8 bytes; none for an operation
that the ports do not support (R364). -/
def Flight.podKind (f : Flight) (k : Nat) (p : Part) : Option PodKind :=
  match f.op with
  | .gstore =>
    let bs := (f.src.drop (16 * k)).take (64 - p.pa % 64)
    some (.write (BitVec.ofNat 64 ((2 ^ bs.length - 1) * 2 ^ (p.pa % 64))) (BitVec.ofNat 512 (leNat bs * 2 ^ (8 * (p.pa % 64)))))
  | .signal v => some (.atomic .addI64 v 0)
  | .gamo op _ v x => if hostOp op then some (.atomic op v x) else none
  | _ => none
/-- The address at the peer that a block's request names (R369). -/
def podAddr (p : Part) : PodKind → Nat
  | .write .. => p.pa % 2 ^ 46 / 64 * 64
  | _ => p.pa % 2 ^ 46
/-- A block's request leaves by its port, with its route's peer and key and the operation's tenant; a port that has dropped out, or
one that does not support it, refuses it (R364, R368, R369). -/
def World.podLeaves (w : World) (f : Flight) (k : Nat) (p : Part) : World :=
  match w.hub.podOut.find? (fun q => q.id == f.id) with
  | none => w
  | some q =>
    match f.podKind k p, (fget w.hub.ports Port.idle q.port).up with
    | some x, true =>
      let r := w.route q.route
      (w.answer (.outbound f.id q.port r.peer q.ten r.key (podAddr p x) x)).setPodOut { q with left := q.left + 1, togo := q.togo - 1 }
    | _, _ => (w.podFailed q 1).setPodOut { q with togo := q.togo - 1 }
/-- The parts of the 64-byte block that part `k` lies in, from `k` on. -/
def Flight.flit (f : Flight) (k : Nat) : List Nat :=
  if isSend f.op then [k]
  else ((List.range 4).map (k + ·)).filter (fun j => j < f.partCount &&
    (f.partAt j).map (fun p => (p.va / 64, p.home)) == (f.partAt k).map (fun p => (p.va / 64, p.home)))
/-- An engine's request for bytes whose range is not resident at a home is refused with a hint of 1 to 65,535 ns, the home's
choice (log 3); it is sent again when the hint has expired (R203). -/
def World.refused (w : World) (f : Flight) (home ten : Nat) : World :=
  let at_ := w.now + (Config.freeNat w.draws % 65535 + 1) * 1000000
  let w1 := (w.countDie home 0x04 ten 1).setFlight { f with held := true, refusals := f.refusals + 1, retryAt := some at_ }
  { w1 with draws := w.draws + 1 }
/-- A part of an operation performs at its home. A home that is down, or poisoned bytes, answer with poison; a revoked
write or atomic is discarded; an engine's request to a range that is not resident is refused, to be sent again. A flit of a
sent entry reaches its die. -/
def State.performPart (s : State) (f : Flight) (k : Nat) : Act :=
  if f.parts.contains k then only s.w
  else
    match f.partAt k with
    | none => only s.w
    | some p =>
      let ten := (s.w.gang f.gang).tenant
      let home := s.w.die p.home
      let w := s.w.homeCounted p (dieOf f.core) f.dataDie ten
      let g : Flight := { f with parts := sadd f.parts k }
      let bad : Flight := { g with badParts := sadd f.badParts k }
      if isSend f.op then only ((s.w.crossed (dieOf f.core) p.home ten 1).setFlight g)
      else if f.crosses.isSome then only ((if p.first then s.w.crossed f.dataDie p.home ten 1 else s.w).setFlight g)
      else if p.pod then
        only (if f.op.writes && home.revoked.contains p.lid then
                (w.unsent [f]).setFlight { g with parts := List.range f.partCount }
              else (w.podLeaves f k p).setFlight { g with parts := (f.flit k).foldl sadd g.parts })
      else if !home.up then only (w.setFlight { bad with down := true })
      else if f.op.writes && home.revoked.contains p.lid then only (w.setFlight g)
      else if isEng f.op && (home.revoked.contains p.lid || !home.lids.contains p.lid) then only (w.refused f p.home ten)
      else
        match f.op with
        | .gstore => s.glbWrite (w.setFlight g) p.pa (f.partBytes k)
        | .signal v =>
          if s.w.poisonedAt p.pa 8 then only (w.setFlight bad)
          else s.glbWrite (w.setFlight g) p.pa (leBytes 8 (s.mem.num .glb p.pa 8 + v.toNat))
        | .gamo op _ v x =>
          if s.w.poisonedAt p.pa p.n then only (w.setFlight bad)
          else
            let old := s.mem.num .glb p.pa p.n
            let r := amoNew op old v x
            let w1 := if r.2 == 0 then w else w.modDie p.home (fun d =>
              { d with amoflags := fput d.amoflags ten (fget d.amoflags 0 ten ||| r.2) })
            s.glbWrite (w1.setFlight { g with res := old, flags := r.2 }) p.pa (leBytes p.n r.1)
        | .eng c =>
          if isSpd c.dst then
            if s.w.poisonedAt p.pa p.n then only (w.setFlight bad)
            else only (w.setFlight { g with got := fput f.got (partKey k) (s.mem.bytes .glb p.pa p.n) })
          else s.glbWrite (w.setFlight g) p.pa (f.partBytes k)
        | _ =>
          if s.w.poisonedAt p.pa p.n then only (w.setFlight bad)
          else only (w.setFlight { g with got := fput f.got (partKey k) (s.mem.bytes .glb p.pa p.n) })
/-- An operation whose accesses have all performed has arrived. -/
def Flight.performed (f : Flight) : Bool := f.missing.isEmpty
/-- An operation whose accesses may perform: an engine command once it has started (R217, R246). -/
def Flight.begun (f : Flight) : Bool := !isEng f.op || f.arrived

/-! ## The steps of a home -/

/-- A part performs at its home; what goes to a pod peer leaves by its port alone (R367). -/
def homePerformAct (id k : Nat) (s : State) : Act :=
  match s.w.flight? id with
  | some f =>
    if !isEng f.op && !f.accs.any (fun a => a.pod) && ((s.w.chain f).all (fun g => g.id == f.id)) then s.performPart f k else only s.w
  | none => only s.w
def execHomePerform (id k : Nat) (s : State) : Host.Outcome State Fault Refusal := done s (homePerformAct id k s)
/-- The source lines that a part of an engine write needs have been read. -/
def Flight.canPerform (f : Flight) (c : EngCmd) (k : Nat) : Bool :=
  (c.inPart k).all (fun x =>
    match x.seg.s, isSpd c.src with
    | some a, true => (placeOf (lineOfAddr a) c.srcLines).any (fun i => (f.got.map (·.1)).contains i)
    | _, _ => true)
/-- A part of an engine command performs at one cycle from S on, once the command has started (R214, R217). -/
def engPerformAct (id k : Nat) (s : State) : Act :=
  match s.w.flight? id with
  | some f =>
    match f.op with
    | .eng c =>
      if f.arrived && !f.held && (isSpd c.dst || f.canPerform c k) then s.performPart f k
      else only s.w
    | _ => only s.w
  | none => only s.w

/-! ## Link wheels (R235, R236, R367) -/

/-- The links that part `k` has crossed: its request the issuing die's and the home's, its response the home's and the issuing
die's. A part that has performed has its request behind it. -/
def Flight.hop (f : Flight) (k : Nat) : Nat :=
  let h := fget f.hops 0 k
  if f.parts.contains k then max h 2 else h
/-- The link that part `k` crosses next, and whether outwards: a die's to the hub or from it, or a pod port's, 16 above its
number. The second tier stands at the hub and has no link; an entry sent or a line that crosses dies has no response. -/
def World.nextLink (w : World) (f : Flight) (k : Nat) : Option (Nat × Bool) :=
  match f.partAt k with
  | none => none
  | some p =>
    let back := !p.pod && !isSend f.op && f.crosses.isNone
    if p.home == f.dataDie then none
    else
      match f.hop k with
      | 0 => some (f.dataDie, true)
      | 1 => if p.pod then (w.hub.podOut.find? (fun q => q.id == f.id)).map (fun q => (16 + q.port, true))
             else if p.home == 8 then none else some (p.home, false)
      | 2 => if back then some (if p.home == 8 then (f.dataDie, false) else (p.home, true)) else none
      | 3 => if back && p.home != 8 then some (f.dataDie, false) else none
      | _ => none
/-- Part `k` waits for a slot of a link: what R209 puts before it has performed, an engine command has started, and the bytes it
sends have been read. Back comes what has performed, or the refusal of what has been refused; nothing else of a refused command moves
until it is sent again (R203). -/
def World.waitsFor (w : World) (link : Nat) (out : Bool) (f : Flight) (k : Nat) : Bool :=
  w.nextLink f k == some (link, out) && f.begun &&
    (if 2 ≤ f.hop k then f.parts.contains k || f.retryAt.isSome else f.retryAt.isNone) &&
    (match f.op with
     | .eng c => (isSpd c.dst && c.crosses.isNone) || f.canPerform c k
     | _ => f.parts.contains k || isSend f.op || (w.chain f).all (fun g => g.id == f.id))
/-- The oldest part of an operation that waits for a slot of a link. -/
def World.waiting (w : World) (link : Nat) (out : Bool) (f : Flight) : Option Nat :=
  if f.held && f.retryAt.isNone then none else (List.range f.partCount).find? (w.waitsFor link out f)
/-- A part of an operation performs, where what R209 puts before it has. -/
def State.performNow (k id : Nat) (s : State) : Act :=
  match s.w.flight? id with
  | some f =>
    if f.held then only s.w
    else if isEng f.op then engPerformAct id k s
    else if isSend f.op || (s.w.chain f).all (fun g => g.id == f.id) then s.performPart f k
    else only s.w
  | none => only s.w
/-- Part `k` crosses a link. A request that has come to its home performs there. -/
def State.hops (s : State) (f : Flight) (k : Nat) : Act :=
  let h := f.hop k
  let g : Flight := { f with hops := fput f.hops k (h + 1) }
  let home := ((f.partAt k).map (fun p => p.home)).getD 8
  if h == 1 || (h == 0 && home == 8 && !(f.accs.any (fun a => a.pod))) then
    s.andThen (only (s.w.setFlight g)) (State.performNow k f.id)
  else only (s.w.setFlight g)
/-- A flit crosses a link: the parts of one block that wait for it. -/
def State.flitHops (link : Nat) (out : Bool) (f : Flight) (k : Nat) (s : State) : Act :=
  s.inOrder (((f.flit k).filter (s.w.waitsFor link out f)).map (fun j => fun t =>
    match t.w.flight? f.id with
    | some g => t.hops g j
    | none => only t.w))
/-- A slot of a wheel is a gang's on a die's link, a tenant's on a port. -/
def WSlot.owns (x : WSlot) (port : Bool) (gid ten : Nat) : Bool :=
  x.own && x.ten == ten && (if port then x.gang == 0xFFF else x.gang == gid)
/-- The position of a wheel after a turn. -/
def turned (n : Nat) : Nat := (n + 1) % 64
/-- A die's wheel turns one slot; the flit of its owner starts in it, else the oldest waiting. -/
def linkAct (die : Nat) (out : Bool) (s : State) : Act :=
  let d := s.w.die die
  let slot := fget (if out then d.wheelOut else d.wheelIn) { own := false, ten := 0, gang := 0 } (if out then d.wheelPosOut else d.wheelPosIn)
  let w := s.w.modDie die (fun d => if out then { d with wheelPosOut := turned d.wheelPosOut } else { d with wheelPosIn := turned d.wheelPosIn })
  let ready := s.w.flights.filterMap (fun f => (s.w.waiting die out f).map (fun k => (f, k)))
  let owned := ready.find? (fun x => slot.owns false x.1.gang (s.w.gang x.1.gang).tenant)
  match owned.orElse (fun _ => ready.head?) with
  | none => only w
  | some x => State.flitHops die out x.1 x.2 { s with w := w }
/-- The first response of a tenant leaves those that wait. -/
def leaveFirst (ten : Nat) : List (Nat × Answer × Nat) → List (Nat × Answer × Nat)
  | [] => []
  | x :: r => if x.1 == ten then r else x :: leaveFirst ten r
/-- The older of a response that waits at a port and an operation whose request does: a response is older than what was issued after it
began to wait (log 52). -/
def olderOf : Option (Nat × Answer × Nat) → Option (Flight × Nat) → Option ((Nat × Answer × Nat) ⊕ (Flight × Nat))
  | some e, some z => if e.2.2 ≤ z.1.id then some (.inl e) else some (.inr z)
  | some e, none => some (.inl e)
  | none, z => z.map .inr
/-- A port's wheel turns one slot: outwards, the oldest flit of the slot's tenant leaves in it, else the oldest that waits, response or
request (R236, R367). What comes in is the peers' to send. -/
def portAct (port : Nat) (out : Bool) (s : State) : Act :=
  let x := fget s.w.hub.ports Port.idle port
  let slot := fget (if out then x.wheelOut else x.wheelIn) { own := false, ten := 0, gang := 0 } (if out then x.wheelPosOut else x.wheelPosIn)
  let y : Port := if out then { x with wheelPosOut := turned x.wheelPosOut } else { x with wheelPosIn := turned x.wheelPosIn }
  let put (y : Port) : World := s.w.modHub (fun h => { h with ports := fput h.ports port y })
  if !out then only (put y)
  else
    let ready := s.w.flights.filterMap (fun f => (s.w.waiting (16 + port) true f).map (fun k => (f, k)))
    let mine (t : Nat) : Bool := slot.owns true 0 t
    match olderOf (x.resp.find? (fun e => mine e.1)) (ready.find? (fun z => mine (s.w.gang z.1.gang).tenant)) <|>
        olderOf x.resp.head? ready.head? with
    | some (.inl e) => only ((put { y with resp := leaveFirst e.1 y.resp }).answer e.2.1)
    | some (.inr z) => State.flitHops (16 + port) true z.1 z.2 { s with w := put y }
    | none => only (put y)
/-- The wheel of a link turns: a die's below 16, a port's above. -/
def wheelAct (link : Nat) (out : Bool) (s : State) : Act :=
  if link < 16 then linkAct link out s else portAct (link % 16) out s
def execWheelSlot (die : Nat) (out : Bool) (s : State) : Host.Outcome State Fault Refusal := done s (wheelAct die out s)

/-! ## By the posted time (R12, R209) -/

/-- A request to a pod peer leaves by the posted time: the port's wheel has turned until it does, its own die's link behind it
(R367, R370). -/
def State.podTurns (port k id : Nat) : Nat → State → Act
  | 0, s =>
    match s.w.flight? id with
    | some f => s.performPart f k
    | none => only s.w
  | n + 1, s =>
    if (s.w.flight? id).any (fun f => f.parts.contains k) then only s.w
    else s.andThen (portAct port true s) (State.podTurns port k id n)
/-- As many turns as there can be flits and responses before one. -/
def World.portQueue (w : World) (port : Nat) : Nat :=
  (fget w.hub.ports Port.idle port).resp.length + (w.flights.map (fun f => f.partCount)).sum + 1
def State.podForce (k : Nat) (f : Flight) (s : State) : Act :=
  match s.w.hub.podOut.find? (fun q => q.id == f.id) with
  | none => s.performPart f k
  | some q =>
    let w := s.w.setFlight { f with hops := (f.flit k).foldl (fun m j => fput m j (max 1 (fget m 0 j))) f.hops }
    State.podTurns q.port k f.id (w.portQueue q.port) { s with w := w }
/-- A part of an operation that stands under an id performs by its posted time. -/
def State.performId (k id : Nat) (s : State) : Act :=
  match s.w.flight? id with
  | some f =>
    if isEng f.op && f.held then only s.w
    else if f.accs.any (fun a => a.pod) && !f.parts.contains k then s.podForce k f
    else s.performPart f k
  | none => only s.w
/-- All that an operation still has to perform, with what must perform before it; nothing if the package holds one of
them back. -/
def State.performAll (s : State) (f : Flight) : Act :=
  let l := s.w.chain f
  if l.any (fun g => g.held) then only s.w
  else s.inOrder ((l.map (fun g => g.missing.map (fun k => State.performId k g.id))).flatten)
/-- All that an operation can do now: an engine command performs the parts whose bytes it has. -/
def State.finish (s : State) (f : Flight) : Act :=
  if isEng f.op then s.inOrder (f.missing.map (fun k => engPerformAct f.id k)) else s.performAll f
def execEngineGlobalPerform (id k : Nat) (s : State) : Host.Outcome State Fault Refusal := done s (engPerformAct id k s)
def signalAddAct (id : Nat) (s : State) : Act :=
  match s.w.flight? id with
  | some f =>
    match f.op with
    | .signal _ => homePerformAct id 0 s
    | _ => only s.w
  | none => only s.w
def execSignalAdd (id : Nat) (s : State) : Host.Outcome State Fault Refusal := done s (signalAddAct id s)
/-- The hint of a refused request has expired. -/
def Flight.retries (f : Flight) (now : Nat) : Bool := f.retryAt.any (fun t => t ≤ now)
/-- A refused request is sent again once its hint has expired, over the links from its die (R203, R235). -/
def retryAct (id : Nat) (s : State) : World :=
  s.w.mapFlights (fun f => if f.id == id && f.retries s.w.now then
    { f with held := false, retryAt := none, hops := f.hops.filter (fun e => f.parts.contains e.1) } else f)
def execRetryResend (id : Nat) (s : State) : Host.Outcome State Fault Refusal := done s (only (retryAct id s))
/-- A request to a home that is down returns a poisoned response (R204). -/
def poisonedResponseAct (id : Nat) (s : State) : Act :=
  match s.w.flight? id with
  | some f => if f.accs.any (fun a => !(s.w.die a.home).up) then s.finish f else only s.w
  | none => only s.w
def execPoisonedResponse (id : Nat) (s : State) : Host.Outcome State Fault Refusal := done s (poisonedResponseAct id s)
/-- A task's leases may be revoked: it has ended, and what it has to write back has been written (R202, R272). -/
def Task.gone (t : Task) : Bool := t.stage == .ending && (t.kind != 0 || t.wbDone)
/-- A revocation reaches a home: of a lease of a task that has ended (R201, R272). -/
def leaseRevocationAct (lid die : Nat) (s : State) : World :=
  if s.w.hub.tasks.any (fun t => t.lids.contains lid && !t.gone) then s.w
  else s.w.modDie die (fun d => { d with revoked := sadd d.revoked lid })
def execLeaseRevocation (lid die : Nat) (s : State) : Host.Outcome State Fault Refusal :=
  done s (only (leaseRevocationAct lid die s))

/-! ## A home goes down (R204) -/

/-- The lowest virtual address of a run whose granule's home is a die. -/
def Rle.downAt (h : Hub) (die : Nat) (e : Rle) : Option Nat :=
  ((List.range (16 * e.pages)).find? (fun i => homeOf h e.place e.home (e.pa (e.lo + i * 4096)) == die)).map
    (fun i => e.lo + i * 4096)
/-- The lowest virtual address of the leases of a task whose home is a die. -/
def Task.downAt (h : Hub) (die : Nat) (t : Task) : Option Nat :=
  (t.runs.filterMap (Rle.downAt h die)).foldl (fun a x => match a with | none => some x | some y => some (min x y)) none
/-- A task holding a lease at a home that goes down ends with HOMEDOWN, tied to no bundle; so does one that has run to its end
and has its regions still to write back. A launch fails with the launch code. -/
def Task.loseHome (h : Hub) (die : Nat) (t : Task) : Task :=
  match t.stage, t.downAt h die with
  | .run, some va | .saved, some va =>
    { t with stage := .ending, kind := 2, code := 19, info := va + 2 ^ 49, ipc := 0, icore := 127,
             ttcEnd := match t.saved with | some v => v.gang.lastTtc 0 | none => t.ttcEnd }
  | .ending, some va =>
    if t.kind == 0 && !t.wbDone then { t with kind := 2, code := 19, info := va + 2 ^ 49, ipc := 0, icore := 127 } else t
  | .resident, some _ | .placed, some _ | .filled, some _ => { t with stage := .ending, kind := 1, code := 11 }
  | _, _ => t
/-- The gangs of ended tasks stop. -/
def stopGangs (w : World) : List Task → World
  | [] => w
  | t :: r =>
    let g := w.gang t.gid
    if t.stage == .ending && g.live && isTaskOf g t && g.stat != .ended then
      stopGangs (((w.modGang t.gid (fun g => { g.endHalt w.now with stat := .ended })).unwatch g.members).modTask (fun x => x.order == t.order)
        (fun x => { x with ttcEnd := g.lastTtc 0 })) r
    else stopGangs w r
/-- A memory controller goes down. -/
def homeDownAct (die : Nat) (s : State) : World :=
  let w := (s.w.modDie die (fun d => { d with up := false })).modHub (fun h =>
    { h with tasks := h.tasks.map (Task.loseHome h die) })
  stopGangs w w.hub.tasks
def execHomeDown (die : Nat) (s : State) : Host.Outcome State Fault Refusal := done s (only (homeDownAct die s))
/-- The memory plane's own reset brings the controller back. -/
def execMemoryPlaneReset (die : Nat) (s : State) : Host.Outcome State Fault Refusal :=
  done s (only (s.w.modDie die (fun d => { d with up := true })))


end Sys2Proof.Machine
end

