-- ==== Sys2Proof/Machine/SyncEng.lean ====
section
/-! DEFINITION. The synchronisation engine: batches on a barrier, deque operations, watches, the posting of launch
records, and the release of a held gang (R250-R261, R263, R277, R278, R284, R342). -/
namespace Sys2Proof.Machine
open Sys2Proof

/-! ## Barriers (R250, R251) -/

def Barrier.unheld : Barrier :=
  { exp := 0, exp0 := 0, cnt := 0, dpend := 0, ph := 0, grp := none, ten := 0, st := .free, holders := [] }
def World.barrier (w : World) (id : Nat) : Barrier := fget w.hub.barriers Barrier.unheld id
/-- An arrival or a drop that counts. -/
def Barrier.arrive (b : Barrier) (drop : Bool) : Barrier :=
  let b1 : Barrier := { b with cnt := b.cnt + 1, dpend := b.dpend + bit drop }
  if b1.exp ≤ b1.cnt then
    { b1 with ph := (b.ph + 1) % 2 ^ 16, exp := b1.exp - b1.dpend, cnt := 0, dpend := 0,
              st := if b1.exp - b1.dpend == 0 then .drained else b1.st }
  else b1
/-- The result of a request with this value. -/
def Flight.answered (f : Flight) (v : Nat) : Flight := { f with res := v, arrived := true }
/-- One request of a batch. -/
def World.barApply (w : World) (drop : Bool) (id : Nat) (f : Flight) : World :=
  let b := w.barrier id
  if b.st != .held || b.ten != (w.gang f.gang).tenant then w.setFlight (f.answered (2 ^ 63))
  else if (match b.grp with | some g => !(w.group g).cores.contains f.core | none => false) then
    w.setFlight (f.answered (2 ^ 62))
  else (w.modHub (fun h => { h with barriers := fput h.barriers id (b.arrive drop) })).setFlight (f.answered b.ph)
def barBatch (w : World) (id : Nat) : List Flight → World
  | [] => w
  | f :: r =>
    match f.op with
    | .bar drop _ _ => barBatch (w.barApply drop id f) id r
    | _ => barBatch w id r
/-- A request to a barrier that has not been applied. -/
def waitsAtBar (id : Nat) (f : Flight) : Bool :=
  match f.op with
  | .bar _ _ k => k == id && !f.arrived && !f.held
  | _ => false
/-- The requests that wait at one barrier are applied in ascending order of the issuing core. -/
def barrierBatchAct (id : Nat) (s : State) : World :=
  barBatch s.w id (sortBy (fun f => f.core) (s.w.flights.filter (waitsAtBar id)))
def execBarrierBatch (bar : Nat) (s : State) : Host.Outcome State Fault Refusal := done s (only (barrierBatchAct bar s))

/-! ## Deques (R255, R256, R260) -/

def Deque.unallotted : Deque := { ten := none, cap := 0, items := [], owner := none }
def World.deque (w : World) (id : Nat) : Deque := fget w.hub.deques Deque.unallotted id
/-- The owner that a push or pop of a gang finds or becomes. -/
def Deque.claim (d : Deque) (gid : Nat) : Deque := { d with owner := some (d.owner.getD gid) }
/-- A deque operation of a gang and tenant: the deque after it, its value, its status. -/
def Deque.apply (d : Deque) (op : DqOp) (gid ten : Nat) (v : Word) : Deque × Word × Nat :=
  if d.ten != some ten then (d, 0, 4)
  else
    match op with
    | .steal =>
      match d.items.reverse with
      | [] => (d, 0, 1)
      | x :: r => ({ d with items := r.reverse }, x, 0)
    | .push =>
      let c := d.claim gid
      if c.owner != some gid then (d, 0, 3)
      else if c.cap ≤ c.items.length then (c, 0, 2)
      else ({ c with items := v :: c.items }, 0, 0)
    | .pop =>
      let c := d.claim gid
      if c.owner != some gid then (d, 0, 3)
      else
        match c.items with
        | [] => (c, 0, 1)
        | x :: r => ({ c with items := r }, x, 0)
/-- A request is applied; its value and status stand in `res`, the status above 2^64. -/
def World.deqApply (w : World) (f : Flight) : World :=
  match f.op with
  | .deq op _ id v =>
    if f.arrived then w
    else
      let r := (w.deque id).apply op f.gang (w.gang f.gang).tenant v
      (w.modHub (fun h => { h with deques := fput h.deques id r.1 })).setFlight
        (f.answered (r.2.1.toNat + 2 ^ 64 * r.2.2))
  | _ => w
/-- A request to a deque that has not been applied. -/
def waitsAtDeq (id : Nat) (f : Flight) : Bool :=
  match f.op with
  | .deq _ _ k _ => k == id && !f.arrived && !f.held
  | _ => false
/-- The requests that wait at one deque are applied in ascending order of the issuing core (R256). -/
def World.deqBatch (w : World) (id : Nat) : World :=
  (sortBy (fun f => f.core) (w.flights.filter (waitsAtDeq id))).foldl World.deqApply w
def dequeApplyAct (id : Nat) (s : State) : World :=
  match s.w.flight? id with
  | some f =>
    match f.op with
    | .deq _ _ k _ => if f.held then s.w else s.w.deqBatch k
    | _ => s.w
  | none => s.w
def execDequeApply (id : Nat) (s : State) : Host.Outcome State Fault Refusal := done s (only (dequeApplyAct id s))

/-! ## Posting a launch record (R263, R264, R277) -/

/-- A task that has only been posted. Until it is placed it has, for a `GANGID`, a mark of its own above them all (log 71). -/
def Task.posted (ten prio addr no order hubAt from_ : Nat) : Task :=
  { no := no, ten := ten, prio := prio, addr := addr, lrec := 0, order := order, hubAt := hubAt, from_ := from_, seen := false,
    stage := .queued, eligible := none,
    predf := false, predsSeen := [], image := default, runs := [], s2wait := none, lids := [], cores := [], gid := 8192 + order,
    saved := none, kind := 0, code := 0, vcode := 0, info := 0, ipc := 0, icore := 0, barw := false, degr := false,
    conf := false, susp := false, preempts := 0, ran := false, wstart := 0, wend := 0, ttcEnd := 0, energy := 0, mhz := 0, thr := [],
    wbDone := false, crecPa := none, useStart := 0, used := [] }
/-- The records in one queue of a tenant. -/
def World.queueLen (w : World) (ten prio : Nat) : Nat :=
  (w.hub.tasks.filter (fun t => t.stage == .queued && t.ten == ten && t.prio == prio)).length
/-- The hub's cycle: a nanosecond (log 53). -/
def World.hubCycle (w : World) : Nat := w.now / 1000000
/-- A record is posted in a hub cycle by the host, poster 0, or by core k, poster k + 1. -/
def World.postTask (w : World) (at_ from_ ten prio addr no : Nat) : World :=
  w.modHub (fun h =>
    { h with tasks := h.tasks ++ [Task.posted ten prio addr no h.order at_ from_], order := h.order + 1 })
/-- Whether a record of one queue was posted before another: of one hub cycle the host's, in order, then by core (R361). -/
def Task.postedBefore (a b : Task) : Bool :=
  if a.hubAt != b.hubAt then a.hubAt < b.hubAt else if a.from_ != b.from_ then a.from_ < b.from_ else a.order < b.order
/-- A pending, running or pre-empted task of a tenant under a number; a failed duplicate names none (R264). -/
def isOpen (ten no : Nat) (t : Task) : Bool :=
  t.ten == ten && t.no == no && t.stage != .closed && !(t.kind == 1 && t.code == 15)
def isLaunch : FOp → Bool
  | .launch _ => true
  | _ => false
/-- A LAUNCH reaches the sorting office in a hub cycle with the record that it has read: its `flags` are that cycle's number plus
1 (R277, R361). -/
def World.launchReach (w : World) (f : Flight) : World :=
  if f.arrived || !f.missing.isEmpty || f.flags != 0 then w else w.setFlight { f with flags := w.hubCycle + 1 }
/-- LAUNCH posts the record that it has read: a full queue, a duplicate number, or done. -/
def World.launchPost (w : World) (f : Flight) : World :=
  if f.arrived || !f.missing.isEmpty then w
  else
    let r := leNat (((List.range 16).map (fun k => fget f.got [] (partKey k))).flatten)
    let ten := (w.gang f.gang).tenant
    let prio := field 98 96 r
    let no := field 1503 1472 r
    if 64 ≤ w.queueLen ten prio then w.setFlight (f.answered 1)
    else if w.hub.tasks.any (isOpen ten no) then w.setFlight (f.answered 2)
    else
      match f.accs with
      | a :: _ => (w.postTask (if f.flags == 0 then w.hubCycle else f.flags - 1) (f.core + 1) ten prio a.va no).setFlight (f.answered (2 ^ 32 * no))
      | [] => w
/-- The LAUNCHes of hub cycles that are over are applied, after the host's posts of those cycles and by core (R361). -/
def World.launchesDue (w : World) : World :=
  (sortBy (fun f => f.flags) (sortBy (fun f => f.core) (w.flights.filter (fun f =>
    isLaunch f.op && !f.arrived && !f.held && f.flags != 0 && f.flags ≤ w.hubCycle)))).foldl World.launchPost w

/-! ## Watches (R261) -/

/-- Whether a member of a gang waits for a signal, and has no watch. -/
def needsWatch (h : Hub) (x : Nat × Wait) : Bool :=
  match x.2 with
  | .sig .. => !(h.watches.any (fun y => y.1 == x.1))
  | _ => false
/-- The wait of a member, met or not by memory as it stands. -/
def sigNow (m : Mems) (x : Wait) : Bool :=
  match x with
  | .sig pa _ v => v ≤ m.num .glb pa 8
  | _ => false
def grantWatches (m : Mems) (w : World) : List (Nat × Wait) → World
  | [] => w
  | x :: r =>
    if needsWatch w.hub x && w.hub.watches.length < 1024 then
      grantWatches m (w.modHub (fun h => { h with watches := h.watches ++ [(x.1, bit (sigNow m x.2))] })) r
    else grantWatches m w r
def Gang.waits (g : Gang) : List (Nat × Wait) :=
  match g.stat with
  | .held l _ => l
  | _ => []
/-- A barrier that a wait of a tenant is released from at once: free, or another's. -/
def Barrier.foreign (b : Barrier) (ten : Nat) : Bool := b.st == .free || b.ten != ten
/-- The condition of BARWT (R259). -/
def Barrier.past (b : Barrier) (t : Nat) : Bool := b.st == .drained || (b.ph + 2 ^ 16 - t % 2 ^ 16) % 2 ^ 16 < 32768
/-- A wait on a barrier or a task whose unit finds its condition to hold as things stand. -/
def World.found (w : World) (ten : Nat) (x : Nat × Wait) : Bool :=
  match x.2 with
  | .bar id t => (w.barrier id).foreign ten || (w.barrier id).past t
  | .task no => !(w.hub.tasks.any (isOpen ten no))
  | _ => false
/-- A barrier wait that names a free or foreign barrier marks the record. -/
def World.barWaited (w : World) (g : Gang) (l : List (Nat × Wait)) : Bool :=
  l.any (fun x => match x.2 with | .bar id _ => (w.barrier id).foreign g.tenant | _ => false)
/-- The units judge the waits of a held gang: one whose condition holds is met, whatever comes after (R254, R259). -/
def World.judged (w : World) (gid : Nat) : World :=
  let g := w.gang gid
  match g.stat with
  | .held l since =>
    let w1 := if w.barWaited g l then w.modTask (isTaskOf g) (fun t => { t with barw := true }) else w
    w1.modGang gid (fun g => { g with stat := .held (l.map (fun x => if w.found g.tenant x then (x.1, .met) else x)) since })
  | _ => w
/-- The waits of a held gang reach their units: what is met is marked so, and SIGWTs take free watches; a word that already
meets its condition completes at once. -/
def watchGrantAct (gid : Nat) (s : State) : World :=
  let w := s.w.judged gid
  grantWatches s.mem w (w.gang gid).waits
def execWatchGrant (gang : Nat) (s : State) : Host.Outcome State Fault Refusal := done s (only (watchGrantAct gang s))

/-! ## The release of a held gang (R254, R259, R278, R284, R342) -/

/-- Whether a member's wait holds. -/
def World.waitMet (w : World) (g : Gang) (since : Nat) (x : Nat × Wait) : Bool :=
  match x.2 with
  | .bar .. | .task _ => w.found g.tenant x
  | .met => true
  | .sig .. => w.hub.watches.any (fun y => y.1 == x.1 && y.2 == 1)
  | .pod t => !(w.hub.podOut.any (fun p => p.gang == w.gangOf x.1 && p.after ≤ t))
  | .scan => since + 2048 * g.period ≤ w.now
def World.canRelease (w : World) (gid : Nat) : Bool :=
  let g := w.gang gid
  match g.stat with
  | .held l since => g.live && !g.dbg && !g.preempt && since < w.now && l.all (w.waitMet g since)
  | _ => false
/-- A unit has passed a scan: what other tasks used of it before is confirmed (R343). -/
def World.passed (w : World) (gid : Nat) (u : ScanUnit) : World :=
  w.modTask (fun t => !isTaskOf (w.gang gid) t) (fun t => { t with used := t.used.filter (fun x => x != u) })
/-- The scan of some cores at a gap: each its next unit in rotation, whatever wait its member holds (R253, R342). -/
def scanned (gid : Nat) (w : World) : List Nat → World
  | [] => w
  | k :: r => scanned gid ((w.passed gid (.core k (w.core k).scanPos)).modCore k (fun c => { c with scanPos := (c.scanPos + 1) % 8 })) r
/-- The arrays of a gang that no core leases and no command uses scan their next strip. -/
def World.arrayIdle (w : World) (gid d : Nat) : Bool :=
  (w.die d).arrayGang == some gid && (w.die d).lease.holder == none &&
    !(w.flights.any (fun f => arrayOp f.op && f.gang == gid && dieOf f.core == d))
def scanArrays (gid : Nat) (w : World) : List Nat → World
  | [] => w
  | d :: r =>
    scanArrays gid (if w.arrayIdle gid d then
      (w.passed gid (.strip d (w.die d).strip)).modDie d (fun x => { x with strip := (x.strip + 1) % 16 }) else w) r
def isScan (x : Nat × Wait) : Bool := x.2 == .scan
/-- The gang cycles of a hold (core event 0x07): those that elapse after cycle t, in which the waits issue. DESIGN CHOICE: R128 does
not say how a hold that is no whole number of gang cycles long counts its broken cycle, which is left out, nor whether the cycles of a
debug halt within the hold count, which they do (log 68). -/
def Gang.heldCycles (g : Gang) (dt : Nat) : Nat := g.cyclesIn dt - 1
/-- The gang goes on at t + 1: each member's release and held cycles are counted, its watches are free. -/
def World.release (w : World) (gid : Nat) : World :=
  let g := w.gang gid
  match g.stat with
  | .held l since =>
    let cyc := g.heldCycles (w.now - since)
    let w1 := g.members.foldl (fun a k => (a.countNow k 0x06 1).countNow k 0x07 cyc) w
    let w2 := w1.unwatch g.members
    let w3 := if w.barWaited g l then w2.modTask (isTaskOf g) (fun t => { t with barw := true }) else w2
    let w4 := if l.any isScan then
        (scanArrays gid (scanned gid w3 g.members) (List.range 4)).modGang gid (fun g => { g with scanBase := g.ttc - 1 }) else w3
    w4.modGang gid (fun g => { g with stat := .running, nextAt := max g.nextAt w.now })
  | _ => w
def collectiveReleaseAct (gid : Nat) (s : State) : World := if s.w.canRelease gid then s.w.release gid else s.w
def execCollectiveRelease (gang : Nat) (s : State) : Host.Outcome State Fault Refusal :=
  done s (only (collectiveReleaseAct gang s))

end Sys2Proof.Machine
end

