-- ==== Sys2Proof/Machine/Bundle.lean ====
section
/-! DEFINITION. The bundle that a core issues next: its words, weights, the registers it reads, its beats, and
whether it issues in this cycle (R43, R46, R59, R70-R72, R132). -/
namespace Sys2Proof.Machine
open Sys2Proof

/-! ## Fetching -/

def siteOf (core : Nat) (handler : Bool) : Site := { mx := isMx core, handler := handler }
/-- The bundle at a word of the store that a level fetches from. -/
def State.bundleAt (s : State) (core : Nat) (sup : Bool) (pc : Nat) : Bundle :=
  decodeBundle (siteOf core sup) (fun k => fetchWord s.mem core sup (pc + k))
/-- A bundle that decodes: a fetched word whose marks the fill path set always does (log 9). -/
def State.codeAt (s : State) (core : Nat) (sup : Bool) (pc : Nat) : Nat :=
  bundleCode (siteOf core sup) (fun k => fetchWord s.mem core sup (pc + k))
/-- The bundle that a level of a core issues next. -/
def State.next (s : State) (core : Nat) (sup : Bool) : Bundle := s.bundleAt core sup ((s.w.core core).seq sup).pc

/-! ## Weights (R70-R72) -/

/-- The weight of an operation. -/
def Instr.weight : Instr → Nat
  | .br .. | .bri .. | .bc .. | .bp .. | .call .. | .calli .. | .ret | .loop .. | .lend | .lbrk ..
  | .brswap .. | .trap .. | .halt | .rft | .rstrt | .pwin .. => 40
  | .smix .. => 60
  | .mul .. | .mulh .. | .mulhn .. | .madd .. | .sfma .. => 90
  | .div .. | .divn .. | .rem .. | .remn .. => 160
  | .sfadd .. | .sfmul .. | .sfcmp .. | .sfcvt .. => 70
  | .add .. | .sub .. | .and .. | .or .. | .xor .. | .andn .. | .shl .. | .shr .. | .sar .. | .rol ..
  | .min .. | .max .. | .minn .. | .maxn .. | .scmp .. | .sel .. | .movl .. | .ext .. | .bfx .. | .bfi ..
  | .clz .. | .ctz .. | .popc .. | .lea .. | .lidx .. => 30
  | .lds .. | .sts .. => 120
  | .ldb .. => 140
  | .ldr .. | .str .. => 260
  | .ldv .. | .stv .. => 620
  | .amo .. => 300
  | .pseal .. => 900
  | .pstat .. => 40
  | .gld .. | .gst .. => 200
  | .gldv .. | .gstv .. => 700
  | .gamo .. => 240
  | .vfadd .. | .vfsub .. => 700
  | .vfmul .. => 900
  | .vfma .. | .vfms .. | .vfnma .. => 1300
  | .vfmin .. | .vfmax .. | .vfcmp .. => 500
  | .vfabs .. | .vfneg .. => 250
  | .vfrcp .. | .vfrsq .. | .vfexp2 .. => 1100
  | .vfcvt .. => 600
  | .vfscl .. => 400
  | .vadd .. | .vsub .. | .vmin .. | .vmax .. | .vabs .. => 450
  | .vmul .. | .vmulh .. => 800
  | .vdot4 .. => 900
  | .vshl .. | .vshr .. | .vsar .. | .vcmp .. => 350
  | .vand .. | .vor .. | .vxor .. | .vandn .. | .vsel .. => 300
  | .vsat .. | .vcvt .. => 500
  | .vclz .. | .vpopc .. => 400
  | .vidx .. | .vbcs .. => 150
  | .vsmix .. => 700
  | .vperm .. => 900
  | .vrot .. | .vshuf .. | .vrmg .. | .vwin .. | .vpack .. | .vunpk .. => 600
  | .vred .. => 800
  | .vscan .. => 950
  | .vext .. | .vins .. => 200
  | .pand .. | .por .. | .pxor .. | .pnot .. => 40
  | .pmov .. => 150
  | .send .. | .mcast .. => 400
  | .sends .. => 160
  | .recv .. => 300
  | .recvs .. => 140
  | .tload .. | .tstore .. => 200
  | .bcopy .. | .tcopy .. | .bfill .. | .bchk .. | .ifill .. | .signal .. | .bararr .. | .bardrp .. | .barwt ..
  | .dqpush .. | .dqpop .. | .dqsteal .. | .launch .. | .twait .. | .sigwt .. | .mlease .. | .mrel | .mcfg
  | .tzero .. | .mma .. | .tcvt .. | .tscl .. | .cboard .. | .calight .. | .ccatch .. | .ccatchv .. | .crepl ..
  | .crost .. => 150
  | .scld .. => 120
  | .srr .. | .srw .. | .rdtt .. | .rdwt .. | .fence .. | .ifence | .cropen .. | .crclose | .evctl .. => 40
  | _ => 0

/-! ## Registers read (R63, R132, R340) -/

/-- Scalars, unheld vector registers, predicates, scale registers and latches that a slot reads. -/
structure Reads where
  s : List Nat
  v : List Nat
  p : List Nat
  sc : List Nat
  lat : List Nat
  deriving DecidableEq, Repr
def Reads.none : Reads := { s := [], v := [], p := [], sc := [], lat := [] }
def rdScalars (l : List Nat) : Reads := { Reads.none with s := l }
def Src.reads : Src → List Nat
  | .reg n => [n]
  | .lit _ => []
def rdA (a : Nat) (b : Src) : Reads := rdScalars (a :: Src.reads b)
def rdM (e : Ea) (l : List Nat) : Reads := rdScalars (e.base :: l)
/-- A vector operand in place `k`. -/
def Reads.vec (r : Reads) (k : Nat) (x : VReg) : Reads :=
  if x.held then { r with lat := r.lat ++ [k] } else { r with v := r.v ++ [x.n] }
def Reads.vsrc (r : Reads) (x : VSrc) : Reads :=
  match x with
  | .vec y => r.vec 1 y
  | .lit _ => r
def Reads.guard (r : Reads) (g : PredG) : Reads := { r with p := r.p ++ [g.pr] }
def Reads.scalars (r : Reads) (l : List Nat) : Reads := { r with s := r.s ++ l }
def rdV1 (a : VReg) (g : PredG) : Reads := (Reads.none.vec 0 a).guard g
def rdV2 (a : VReg) (b : VSrc) (g : PredG) : Reads := ((Reads.none.vec 0 a).vsrc b).guard g
def rdV3 (a : VReg) (b : VSrc) (c : VReg) (g : PredG) : Reads := (((Reads.none.vec 0 a).vsrc b).vec 2 c).guard g
/-- The words of a scalar value that a store or an atomic reads. -/
def pairOf (z : MSize) (t : Nat) : List Nat := if z == .b16 then [t, t + 1] else [t]

/-- What a slot reads. -/
def Instr.reads : Instr → Reads
  | .bri a | .calli a | .brswap a | .loop a _ _ | .pwin a _ | .bc _ a _ => rdScalars [a]
  | .bp _ p _ => { Reads.none with p := [p] }
  | .ret => rdScalars [63]
  | .lend => { Reads.none with p := [8, 9, 10, 11, 12, 13, 14] }
  | .add _ a b | .sub _ a b | .and _ a b | .or _ a b | .xor _ a b | .andn _ a b | .shl _ a b | .shr _ a b
  | .sar _ a b | .rol _ a b | .min _ a b | .max _ a b | .minn _ a b | .maxn _ a b | .scmp _ _ a b | .movl _ _ a b
  | .bfx _ _ a b | .lea _ a b _ | .lidx _ a b _ | .smix _ a b | .mul _ a b | .mulh _ a b | .mulhn _ a b
  | .div _ a b | .divn _ a b | .rem _ a b | .remn _ a b | .sfadd _ _ _ a b | .sfmul _ _ _ a b
  | .sfcmp _ _ _ a b => rdA a b
  | .sel _ a b c => (rdA a b).scalars [c]
  | .bfi d a b | .madd d a b | .sfma _ _ d a b => (rdA a b).scalars [d]
  | .ext _ _ _ a | .clz _ a | .ctz _ a | .popc _ a | .sfcvt _ _ _ a => rdScalars [a]
  | .lds _ _ _ e | .ldv _ e | .ldr _ _ e | .ldb _ _ e | .pstat _ _ e | .gld _ _ _ e | .gldv _ e => rdM e []
  | .sts z _ t e | .gst z t e => rdM e (pairOf z t)
  | .stv t e | .str _ _ t e | .gstv t e => { rdM e [] with v := [t] }
  | .amo op t e | .gamo op t e => rdM e (if op == .casI64 || op == .casI32 then [t, t + 1] else [t])
  | .pseal t e => rdM e [t]
  | .vfadd _ _ _ a b g | .vfsub _ _ _ a b g | .vfmul _ _ _ a b g | .vfmin _ _ a b g | .vfmax _ _ a b g
  | .vfcmp _ _ _ a b g => rdV2 a b g
  | .vfma _ _ _ a b c g | .vfms _ _ _ a b c g | .vfnma _ _ _ a b c g => rdV3 a b c g
  | .vfabs _ _ a g | .vfneg _ _ a g | .vfrcp _ _ _ a g | .vfrsq _ _ _ a g | .vfexp2 _ _ _ a g
  | .vfcvt _ _ _ _ _ _ a g => rdV1 a g
  | .vfscl _ _ _ _ _ a b g => { rdV1 a g with sc := Src.reads b }
  | .vadd _ _ _ a b g | .vsub _ _ _ a b g | .vmul _ _ _ a b g | .vmulh _ _ a b g | .vshl _ _ a b g | .vshr _ _ a b g
  | .vsar _ _ a b g | .vand _ _ a b g | .vor _ _ a b g | .vxor _ _ a b g | .vandn _ _ a b g | .vmin _ _ a b g
  | .vmax _ _ a b g | .vcmp _ _ _ a b g | .vsmix _ _ a b g => rdV2 a b g
  | .vdot4 _ acc _ a b c g => if acc then rdV3 a b c g else rdV2 a b g
  | .vabs _ _ _ a g | .vsat _ _ _ a g | .vcvt _ _ _ _ _ a g | .vclz _ _ a g | .vpopc _ _ a g => rdV1 a g
  | .vsel _ _ a b p g => { rdV2 a b g with p := [p, g.pr] }
  | .vidx _ _ _ b g => (Reads.none.vsrc b).guard g
  | .vbcs _ _ b g => (rdScalars (Src.reads b)).guard g
  | .vperm _ _ a b g | .vwin _ _ _ a b g | .vpack _ _ _ _ a b g => rdV2 a b g
  | .vshuf _ pat _ a b g => if pat == .rev then rdV1 a g else rdV2 a b g
  | .vrmg _ _ a b c g => (rdV2 a b g).scalars [c]
  | .vrot _ _ a b g => (rdV1 a g).scalars (Src.reads b)
  | .vred _ _ _ _ _ a g | .vscan _ _ _ _ _ _ a g | .vunpk _ _ _ a g => rdV1 a g
  | .vext _ _ a b => (Reads.none.vec 0 a).scalars (Src.reads b)
  | .vins _ _ a b => rdA a b
  | .pand _ a b | .por _ a b | .pxor _ a b => { Reads.none with p := [a, b] }
  | .pnot _ a => { Reads.none with p := [a] }
  | .pmov p2v _ a => if p2v then { Reads.none with p := [a.n] } else Reads.none.vec 0 a
  | .bcopy _ d x c | .tcopy _ d x c | .bfill _ _ d x c => (rdScalars [d, c]).scalars (Src.reads x)
  | .bchk _ a b | .ifill _ a b | .signal a b | .barwt a b | .sigwt a b | .dqpush _ a b | .sends a b
  | .tload _ _ _ _ a b | .tstore _ _ a b | .tscl _ a b | .cboard _ a b | .calight _ _ _ a b | .ccatch _ _ a b
  | .ccatchv _ _ a b | .crepl _ _ a b | .scld _ a b => rdA a b
  | .send _ v p | .mcast _ v p => { rdScalars (Src.reads p) with v := [v] }
  | .recv _ p | .recvs _ p | .bararr _ p | .bardrp _ p | .dqpop _ p | .dqsteal _ p | .twait p | .tcvt _ _ _ _ p
  | .crost _ _ p | .srw _ p | .cropen p | .evctl _ _ p => rdScalars (Src.reads p)
  | .launch _ a => rdScalars [a]
  | _ => Reads.none
/-- What a slot reads as its core stands: LEND reads predicates only for a loop with stages (R91). -/
def CoreCtx.readsNow (c : CoreCtx) (i : Instr) : Reads :=
  match i with
  | .lend => if (c.loops.head?).any (fun e => e.stg != 0) then Instr.reads i else Reads.none
  | _ => Instr.reads i
/-- Held operands (R70). -/
def Instr.held (i : Instr) : Nat := (Instr.reads i).lat.length
/-- A slot's share of its bundle's weight. -/
def Instr.share (i : Instr) : Nat := Instr.weight i - 60 * Instr.held i
/-- The weight of a bundle. -/
def Bundle.weight (b : Bundle) : Nat := 120 + (b.slots.map (fun x => Instr.share x.2)).sum
def Bundle.declared (b : Bundle) : Nat := ceilDiv (Bundle.weight b) 32
def Bundle.held (b : Bundle) : Nat := (b.slots.map (fun x => Instr.held x.2)).sum

/-! ## Beats (R132) -/

/-- The vector registers that count for the banks: SEND and MCAST read theirs too (R241). -/
def Bundle.ports (b : Bundle) : List Nat := (b.slots.map (fun x => (Instr.reads x.2).v)).flatten.foldl sadd []
def bankLoad (l : List Nat) (k : Nat) : Nat := (l.filter (fun r => r % 6 == k)).length
def Bundle.beats (b : Bundle) : Nat :=
  ((List.range 6).map (fun k => ceilDiv (bankLoad (Bundle.ports b) k) 2)).foldl max 1

/-! ## Readiness -/

/-- A sequencer record that has spent every cycle it owes before the bundle, or the trap that stands in its place. -/
def Seq.ready (q : Seq) (beats : Nat) : Bool := q.owedT == 0 && q.owedJ == 0 && (q.bad.isSome || beats ≤ q.beat + 1)
/-- Whether a level of a core issues in this cycle. -/
def State.ready (s : State) (core : Nat) (sup : Bool) : Bool :=
  let q := (s.w.core core).seq sup
  (sup || !(s.w.core core).ctx.halted) && q.ready (Bundle.beats (s.next core sup))
/-- The operation in a position of the bundle that a member issues in this cycle. -/
def State.issuing (s : State) (core pos : Nat) : Option Instr :=
  if s.ready core false && ((s.w.core core).seq false).bad.isNone then
    ((s.next core false).slots.find? (fun x => x.1 == pos)).map (·.2)
  else none

end Sys2Proof.Machine
end

