-- ==== Sys2Proof/Machine/Sys.lean ====
section
/-! DEFINITION. The system forms: system registers, time, SCLD, fences, containment regions and event control
(R119-R129, R168, R231, R284, R341, R342). -/
namespace Sys2Proof.Machine
open Sys2Proof

/-! ## Reading system registers (R121-R124) -/

def allowCls (g : Gang) (sup : Bool) : Nat :=
  g.clsAt sup + g.domCls * 2 ^ 4 + min 4096 (4096 * classW8 g.domCls / classW8 (g.clsAt sup)) * 2 ^ 16
/-- `GRPSET` of a core's groups, by slot. -/
def grpSet (l : List Nat) : Nat := joinN 8 (l.take 4) + 2 ^ 32 * (2 ^ (min l.length 4) - 1)
def ifStatus (x : IfStat) : Nat :=
  bit x.valid + bit x.busy * 2 + bit x.half * 4 + bit x.fenced * 8 + x.code * 16 + x.addr * 2 ^ 16
/-- The value of a system register as a core reads it. -/
def World.sysReg (w : World) (core : Nat) (sup : Bool) (k : Nat) : Nat :=
  let c := w.core core
  let g := w.gangAt core
  let d := w.die (dieOf core)
  if k == 0 then core
  else if k == 1 then w.gangOf core % 4096
  else if k == 2 then g.task % 2 ^ 32 + g.tenant % 2 ^ 16 * 2 ^ 32
  else if k == 3 then grpSet c.groups
  else if k == 4 then allowCls g sup
  else if k == 5 then g.khz / 1000 + g.why * 2 ^ 13
  else if k == 6 then g.enmeas
  else if k == 0x10 then c.ctx.fpflags
  else if k == 0x11 then c.ctx.fpctrl
  else if k == 0x20 then bit c.ctx.halfAct + c.ctx.halfA * 2 + c.ctx.halfB * 16
  else if k == 0x21 then ifStatus c.ifstat
  else if k == 0x22 then c.ifsum
  else if k == 0x30 then c.xm
  else if k == 0x31 then
    sumBits ((List.range 32).filter (fun x => (c.health x).degraded)) + bit g.half * 2 ^ 32
  else if k == 0x40 then c.trapvec
  else if k == 0x41 then c.trappc
  else if k == 0x42 then c.cause + bit c.ends * 2 ^ 5 + bit c.event * 2 ^ 6 + c.trapcore * 2 ^ 7
  else if k == 0x43 then c.trapinfo
  else if k == 0x44 then c.rstpc + bit c.rstvalid * 2 ^ 16
  else if k == 0x50 then c.ctx.crDepth + c.ctx.ucore * 2 ^ 3 + c.ctx.ukind * 2 ^ 10
  else if k ≤ 0x54 then fget c.ctx.crvec 0 (k - 0x51)
  else if k ≤ 0x73 then if isMx core then fget d.tshape 0 (k - 0x60) else 0
  else if k ≤ 0x87 then fget c.ctx.evcsel 0 (k - 0x80)
  else if k ≤ 0x8F then fget c.ctx.evc 0 (k - 0x88)
  else if k ≤ 0xAF then fget d.devsel 0 (k - 0xA0)
  else fget d.devc 0 (k - 0xB0)
/-- Readable at task level. -/
def taskReads (k : Nat) : Bool := !(0x40 ≤ k && k ≤ 0x44) && !(0xA0 ≤ k && k ≤ 0xAF)
/-- Writable at task level. -/
def taskWrites (k : Nat) : Bool := k != 0x41 && k < 0xA0
/-- A die counter that another tenant's events feed. -/
def World.foreignCounter (w : World) (core k : Nat) : Bool :=
  0xB0 ≤ k && field 31 16 (fget (w.die (dieOf core)).devsel 0 (k - 0xB0)) != w.tenOf core
def srrAct (d k : Nat) (s : State) : World :=
  let sup := s.w.cur.sup
  if !sup && !taskReads k then s.w.trap 2 k
  else if !sup && s.w.foreignCounter s.w.cur.core k then s.w.wrS 2 d 0
  else s.w.wrS 2 d (BitVec.ofNat 64 (s.w.sysReg s.w.cur.core sup k))
def execSrr (d k : Nat) (s : State) : Host.Outcome State Fault Refusal := done s (only (srrAct d k s))
/-- SRW: the value applies at the start of issue + 2. -/
def srwAct (k : Nat) (b : Src) (s : State) : World :=
  if !s.w.cur.sup && !taskWrites k then s.w.trap 2 (k + 2 ^ 12) else s.w.post 2 (.srw k (s.w.src b))
def execSrw (k : Nat) (b : Src) (s : State) : Host.Outcome State Fault Refusal := done s (only (srwAct k b s))

/-! ## Time (R127) -/

def execRdtt (d : Nat) (s : State) : Host.Outcome State Fault Refusal :=
  done s (only (s.w.wrS 1 d (BitVec.ofNat 64 (s.w.gangAt s.w.cur.core).ttc)))
def execRdwt (d : Nat) (s : State) : Host.Outcome State Fault Refusal :=
  done s (only (s.w.wrS 1 d (BitVec.ofNat 64 s.w.wtc)))

/-! ## SCLD (R168) -/

def execScld (n a : Nat) (b : Src) (s : State) : Host.Outcome State Fault Refusal :=
  done s (s.loadAct (aligned ((s.w.rdS a + s.w.src b).toNat % 2 ^ 21) 16) 16
    (fun w v => w.post 4 (.sc n (BitVec.ofNat 128 v))))

/-! ## Fences (R231, R284) -/

def scopeReach : Scope → Nat
  | .core => 0 | .gang => 1 | .die => 2 | .pkg => 3 | .pod => 4
/-- A seal's posted time (R188). -/
def SealOp.posted (x : SealOp) : Nat := x.issue + 4 + 2 * x.n
/-- The register writes, atomics and seals of a level of a core that are still due: of core reach. -/
def World.coreDue (w : World) (core : Nat) (sup : Bool) : List (Nat × Nat) :=
  let c := w.core core
  let past (n pos : Nat) : Bool := w.cur.sup != sup || priorTo w.cur.issue n pos
  let ts : List Nat := ((if sup then c.hpend else c.pend).filter (fun (p : Pend) => past p.issue p.pos)).map (fun p => p.due) ++
    (c.seals.filter (fun (x : SealOp) => x.sup == sup && past x.issue (32 * bit x.prior))).map SealOp.posted ++
    (c.amos.filter (fun (x : AmoW) => x.sup == sup && past x.issue (32 * bit x.prior) && !x.void)).map (fun x => x.issue + 2)
  ts.map (fun t => (w.asDue sup t, 9))
/-- The promise that a scope makes at this issue: the latest posted time of what it covers, and its kind. -/
def World.promise (w : World) (sc : Scope) : Nat × Nat :=
  latest (((w.earlier.filter (fun f => f.reach ≤ scopeReach sc)).map (fun f => (w.asDue f.sup f.promised, f.op.kind))) ++
    w.coreDue w.cur.core w.cur.sup ++ (if w.cur.sup then w.coreDue w.cur.core false else []))
def fenceAct (sc : Scope) (s : State) : World :=
  if sc == .pod && s.w.someHalted then s.w.trapLoop 4
  else
    let m := s.w.promise sc
    if s.w.cur.issue < m.1 then s.w.trap 8 (fenceInfo m.1 s.w.cur.issue (scopeReach sc) m.2 false)
    else if sc == .pod then s.w.collective (.pod s.w.cur.issue)
    else s.w
def execFence (sc : Scope) (s : State) : Host.Outcome State Fault Refusal := done s (only (fenceAct sc s))
/-- The posted time of the core's fill in flight. -/
def World.fillPosted (w : World) (core : Nat) : Nat :=
  match w.flights.find? (fun f => f.core == core && f.gang == w.gangOf core && (match f.op with | .ifill .. => true | _ => false)) with
  | some f => f.posted
  | none => 0
/-- IFENCE: the FENCE trap of a fill in flight, of kind 3 (R231, R285), or the half is armed. -/
def ifenceAct (s : State) : World :=
  if s.w.cc.ifstat.busy then
    s.w.trap 8 (min (s.w.fillPosted s.w.cur.core - s.w.cur.issue) 0xFFFFFFFF + 2 ^ 32 + 3 * 2 ^ 37)
  else s.w.post 1 .ifence
def execIfence (s : State) : Host.Outcome State Fault Refusal := done s (only (ifenceAct s))

/-! ## Containment regions (R339, R341) -/

def isRegionForm : Option Instr → Bool
  | some (.cropen _) | some .crclose => true
  | _ => false
/-- Every other member issues one of the two forms in this cycle. -/
def State.regionTogether (s : State) : Bool :=
  (s.w.gangAt s.w.cur.core).members.all (fun k => k == s.w.cur.core || isRegionForm (s.issuing k 15))
def crInfo (reason : Nat) : Nat := 2 ^ 41 + reason * 2 ^ 42
def cropenAct (b : Src) (s : State) : World :=
  match failing [ck 1 s.regionTogether, ck 2 (s.w.cc.ctx.crDepth < 4)] with
  | 0 => s.w.post 1 (.cropen ((s.w.src b).toNat % 2 ^ 16))
  | r => s.w.trap 1 (crInfo r)
def execCropen (b : Src) (s : State) : Host.Outcome State Fault Refusal := done s (only (cropenAct b s))
def crcloseAct (s : State) : World :=
  match failing [ck 1 s.regionTogether, ck 3 (0 < s.w.cc.ctx.crDepth)] with
  | 0 => s.w.post 1 .crclose
  | r => s.w.trap 1 (crInfo r)
def execCrclose (s : State) : Host.Outcome State Fault Refusal := done s (only (crcloseAct s))

/-! ## Scan gaps and event control (R129, R342) -/

def execScangap (s : State) : Host.Outcome State Fault Refusal := done s (only (s.w.collective .scan))
/-- EVCTL: it names no register, so `TRAPINFO`[11:0] is zero (log 16). -/
def evctlAct (op : EvOp) (die : Bool) (b : Src) (s : State) : World :=
  if die && !s.w.cur.sup then s.w.trap 2 (2 ^ 12 + 2 ^ 13)
  else s.w.post 1 (.evctl op die ((s.w.src b).toNat % 2 ^ 16))
def execEvctl (op : EvOp) (die : Bool) (b : Src) (s : State) : Host.Outcome State Fault Refusal :=
  done s (only (evctlAct op die b s))

end Sys2Proof.Machine
end

