-- ==== Sys2Proof/Machine/Paths.lean ====
section
/-! DEFINITION. An image as the verifier reads it: its bundles, its control flow, its windows and its lanes (R66, R72-R78, R93,
R226, R240). -/
namespace Sys2Proof.Machine
open Sys2Proof

/-! ## An image as the verifier reads it -/

/-- What the verifier knows of a fill: the core's kind and image, the class, the greatest yield interval, the end of the last
area it fills, the word at which the image is entered with nothing before it (none for an overlay), the core, the gang's
other members' streams, the cores of the groups that the task sets, and whether any of its streams or overlays sends, or opens a
containment region. -/
structure Fill where
  site : Site
  cls : Nat
  yint : Nat
  stop : Nat
  entry : Option Nat
  me : Nat
  peers : List (Nat × List Word32)
  groups : List (Nat × List Nat)
  sends : Bool
  opens : Bool
  deriving DecidableEq, Repr
/-- A bundle of an image at its word address, with its codes 1 to 7, its weight and its beats. -/
structure Placed where
  addr : Nat
  b : Bundle
  code : Nat
  weight : Nat
  beats : Nat
  deriving DecidableEq, Repr
def Placed.next (x : Placed) : Nat := x.addr + Bundle.len x.b
/-- The end of the area in which a bundle stands. -/
def Fill.areaStop (f : Fill) (addr : Nat) : Nat :=
  if addr < 4096 then min 4096 f.stop else if addr < 34816 then min 34816 f.stop else f.stop
/-- The lowest of two codes, 0 for none. -/
def lowCode (a b : Nat) : Nat := if a == 0 then b else if b == 0 then a else min a b
/-- The first pass: every bundle in order, with the lowest of its codes 1 to 7. DESIGN CHOICE: R66 does not say which codes
besides 6 a bundle has that the image's end cuts off; its missing words are read as zero (log 50). -/
def Fill.bundles (f : Fill) : Nat → Nat → List Nat → List Placed
  | 0, _, _ => []
  | _, _, [] => []
  | fuel + 1, addr, ws =>
    let rd (k : Nat) : Nat := ws.getD k 0
    let b := decodeBundle f.site rd
    let n := Bundle.len b
    let cross := f.areaStop addr < addr + n || ws.length < n
    { addr := addr, b := b, code := lowCode (bundleCode f.site rd) (if cross then 6 else 0),
      weight := Bundle.weight b, beats := Bundle.beats b } ::
      f.bundles fuel (addr + n) (ws.drop n)

/-! ## Control flow (R75, R84, R93) -/

def Placed.ctl (x : Placed) : Option Instr := (x.b.slots.find? (fun e => e.1 == 0)).map (·.2)
/-- The word that a direct transfer names: none where it lies outside 0 to 65,535 (R85). -/
def Placed.direct (x : Placed) (o : Int) : Option Nat :=
  if 0 ≤ (x.addr : Int) + o && (x.addr : Int) + o < 65536 then some (target x.addr o) else none
def Placed.loopExit (x : Placed) : Option Nat :=
  match x.ctl with
  | some (.loop _ _ o) => x.direct o
  | _ => none
/-- The LOOP that a LEND closes: the one before it whose exit is the word after the LEND's bundle. DESIGN CHOICE: where two
name that exit, R93 does not say which is meant, and the nearest before the LEND is taken (log 51). -/
def loopOf (img : List Placed) (x : Placed) : Option Placed :=
  (img.filter (fun l => l.addr < x.addr && l.loopExit == some x.next)).getLast?
/-- The LOOPs that enclose a bundle, innermost first. -/
def enclosing (img : List Placed) (x : Placed) : List Placed :=
  (img.filter (fun l => match l.loopExit with | some e => l.addr < x.addr && x.next ≤ e | none => false)).reverse
/-- The direct taken edges out of a bundle: target and the transfer's own bubbles. -/
def taken (img : List Placed) (x : Placed) : List (Nat × Nat) :=
  match x.ctl with
  | some (.br o) | some (.bc _ _ o) | some (.bp _ _ o) | some (.call o) | some (.loop _ _ o) =>
    ((x.direct o).map (fun t => (t, 1))).toList
  | some .lend => match loopOf img x with | some l => [(l.next, 0)] | none => []
  | some (.lbrk k) =>
    match (enclosing img x)[k]? with
    | some l => match l.loopExit with | some e => [(e, 1)] | none => []
    | none => []
  | _ => []
/-- Whether a bundle may fall through. DESIGN CHOICE: R75 does not name the bundle after a TRAP, which issues only after a stop and
a restart gap (R337, R78); it counts as a fall-through successor with no bubble (log 75). -/
def falls (x : Placed) : Bool :=
  match x.ctl with
  | some (.br _) | some (.call _) | some (.bri _) | some (.calli _) | some .ret | some (.lbrk _) | some (.brswap _)
  | some .halt | some .rft | some .rstrt => false
  | _ => true
/-- An edge of the image's control flow: from a bundle to a bundle, with the bubbles of the transfer; `direct` when it
is a direct taken edge, to which the target's `JB` applies. -/
structure Edge where
  src : Placed
  dst : Placed
  bub : Nat
  direct : Bool
  deriving DecidableEq, Repr
def bundleAt? (img : List Placed) (a : Nat) : Option Placed := img.find? (fun x => x.addr == a)
def edgesOf (img : List Placed) (x : Placed) : List Edge :=
  ((taken img x).filterMap (fun t => (bundleAt? img t.1).map (fun y =>
      ({ src := x, dst := y, bub := t.2, direct := true } : Edge)))) ++
    (if falls x && areaOf x.next == areaOf x.addr then
      ((bundleAt? img x.next).map (fun y => ({ src := x, dst := y, bub := 0, direct := false } : Edge))).toList
     else [])
def edges (img : List Placed) : List Edge := (img.map (edgesOf img)).flatten
/-- The fall-through out of an area: an indirect arrival whose target the image gives (R226). -/
def crossing (img : List Placed) (x : Placed) : Option Edge :=
  if falls x && areaOf x.next != areaOf x.addr then
    (bundleAt? img x.next).map (fun y => { src := x, dst := y, bub := max y.b.hdr.jb 2, direct := false })
  else none
/-- A transfer whose target the image does not give (R75). -/
def indirect (x : Placed) : Bool :=
  match x.ctl with
  | some (.bri _) | some (.calli _) | some .ret | some (.brswap _) => true
  | _ => false

/-! ## Windows (R75-R77) -/

/-- The zero-weight cycles of an edge, where `jb` gives each bundle's join bubbles. -/
def Edge.gap (e : Edge) (jb : Placed → Nat) : Nat :=
  e.bub + (if e.direct then jb e.dst else 0) + (e.dst.beats - 1)
def maxOf (l : List Nat) : Nat := l.foldl max 0
/-- The most that the `r` cycles before a bundle's issue weigh, over every sequence and every indirect arrival. -/
def before (es : List Edge) (jb : Placed → Nat) (b : Nat) : Nat → Nat → Placed → Nat
  | 0, _, _ => 0
  | fuel + 1, r, x =>
    maxOf ((b * (r - (max (jb x) 2 + (x.beats - 1)))) ::
      (es.filter (fun e => e.dst.addr == x.addr)).map (fun e =>
        let g := e.gap jb
        if r < g + 1 then 0 else e.src.weight + before es jb b fuel (r - g - 1) e.src))
/-- The most that the `r` cycles after a bundle's issue weigh. -/
def after (es : List Edge) (jb : Placed → Nat) : Nat → Nat → Placed → Nat
  | 0, _, _ => 0
  | fuel + 1, r, x =>
    maxOf ((es.filter (fun e => e.src.addr == x.addr)).map (fun e =>
      let g := e.gap jb
      if r < g + 1 then 0 else e.dst.weight + after es jb fuel (r - g - 1) e.dst))
def carried (x : Placed) : Nat := x.b.hdr.jb
/-- Whether every window that a direct taken edge into a bundle enters fits, with `j` join bubbles before it (R76). -/
def joinFits (es : List Edge) (b w8 : Nat) (x : Placed) (j : Nat) : Bool :=
  let jb (y : Placed) : Nat := if y.addr == x.addr then j else carried y
  (es.filter (fun e => e.dst.addr == x.addr && e.direct)).all (fun e =>
    (List.range 8).all (fun k =>
      let g := e.gap jb
      let r := 7 - k
      let back := if r < g + 1 then 0 else e.src.weight + before es jb b 8 (r - g - 1) e.src
      after es jb 8 k x + x.weight + back ≤ w8))
/-- The join bubbles of a bundle, if some number up to 7 fits. -/
def joinBubbles (es : List Edge) (b w8 : Nat) (x : Placed) : Option Nat := (List.range 8).find? (joinFits es b w8 x)

/-! ## Lanes (R240) -/

/-- The lanes that a bundle's vector sends take. -/
def sendLanes (x : Placed) : List Nat :=
  x.b.slots.filterMap (fun e => match e.2 with | .send l _ _ => some l | .mcast l _ _ => some l | _ => none)
/-- Whether a send on a lane issues in the `r` cycles before a bundle, on some sequence. -/
def laneBefore (es : List Edge) (lane : Nat) : Nat → Nat → Placed → Bool
  | 0, _, _ => false
  | fuel + 1, r, x =>
    (es.filter (fun e => e.dst.addr == x.addr)).any (fun e =>
      let g := e.gap carried
      g + 1 ≤ r && ((sendLanes e.src).contains lane || laneBefore es lane fuel (r - g - 1) e.src))

end Sys2Proof.Machine
end

