-- ==== Sys2Proof/Machine/Points.lean ====
section
/-! DEFINITION. What the verifier decides of yield and restart points along every issue sequence (R45, R243, R253, R268, R338,
R380): it runs the members' streams together, cycle by cycle, and follows one thing at a time through them (log 6). -/
namespace Sys2Proof.Machine
open Sys2Proof

/-! ## What a form leaves outstanding -/

/-- The latencies of a form's exposed-latency register writes, one for each register (R12). A LEND's are those of a loop with
stages (R91). -/
def Instr.writes : Instr → List Nat
  | .call _ | .calli _ => [1]
  | .loop _ stg _ => if stg == 0 then [] else List.replicate 8 1
  | .lend | .pwin .. => List.replicate 8 1
  | .add .. | .sub .. | .and .. | .or .. | .xor .. | .andn .. | .shl .. | .shr .. | .sar .. | .rol .. | .min .. | .max ..
  | .minn .. | .maxn .. | .scmp .. | .sel .. | .movl .. | .ext .. | .bfx .. | .bfi .. | .clz .. | .ctz .. | .popc ..
  | .lea .. | .lidx .. => [1]
  | .smix .. => [2]
  | .mul .. | .mulh .. | .mulhn .. | .madd .. => [3]
  | .div .. | .divn .. | .rem .. | .remn .. => [16]
  | .sfadd .. | .sfmul .. | .sfma .. | .sfcvt .. | .sfcmp .. => [4]
  | .lds z .. => if z == .b16 then [4, 4] else [4]
  | .ldv .. | .ldr .. | .ldb .. => [5]
  | .amo .. => [6]
  | .pstat .. => [2]
  | .vfadd .. | .vfsub .. | .vfmul .. | .vfma .. | .vfms .. | .vfnma .. | .vfmin .. | .vfmax .. | .vfabs .. | .vfneg ..
  | .vfcmp .. => [4]
  | .vfrcp .. | .vfrsq .. | .vfexp2 .. => [8]
  | .vfcvt .. | .vfscl .. => [3]
  | .vadd .. | .vsub .. | .vshl .. | .vshr .. | .vsar .. | .vand .. | .vor .. | .vxor .. | .vandn .. | .vmin .. | .vmax ..
  | .vabs .. | .vcmp .. | .vsel .. | .vclz .. | .vpopc .. | .vidx .. | .vbcs .. => [2]
  | .vmul .. | .vmulh .. | .vdot4 .. => [4]
  | .vsat .. | .vcvt .. | .vsmix .. => [3]
  | .vperm .. => [4]
  | .vrot .. | .vshuf .. | .vrmg .. | .vwin .. | .vpack .. | .vunpk .. | .vext .. | .vins .. => [3]
  | .vred .. => [6]
  | .vscan .. => [8]
  | .pand .. | .por .. | .pxor .. | .pnot .. => [1]
  | .pmov .. => [2]
  | .recv .. | .recvs .. => [3]
  | .mlease _ | .rdtt _ | .rdwt _ => [1]
  | .srr .. | .srw .. => [2]
  | .scld .. => [4]
  | _ => []
/-- Whether a form sends entries to queues. -/
def Instr.sends : Instr → Bool
  | .send .. | .sends .. | .mcast .. => true
  | _ => false
/-- The reach of a form, as a scope's code, and the longest that it can be outstanding for any operand values: to its posted time,
an engine command's to its completion, a catch's to the last of its four lines (R322) (R188, R205, R214, R229, R240, R244, R250, R279, R297-R311, R318). A BCOPY or BFILL moves at
most 2^21 bytes and a TCOPY 2^20, at 64 or more in a cycle; an MMA's rate times K is at most 2048, since a row of A takes at most
1024 bytes; the latest command before an MCFG is a TSTORE of 4129 cycles, issued a cycle earlier. -/
def Instr.span : Instr → Option (Nat × Nat)
  | .pseal .. => some (0, 132)
  | .send .. | .sends .. | .mcast .. => some (1, 80)
  | .gld .. => some (3, 521)
  | .gldv .. => some (3, 536)
  | .gst .. => some (4, 521)
  | .gstv .. => some (4, 536)
  | .gamo _ t _ => some (if t == 0 then 4 else 3, 560)
  | .signal .. => some (4, 520)
  | .bcopy e .. => some (if e == .ss then (1, 4 + (2 ^ 24 - 1) + 40 + 2048) else (3, 4 + (2 ^ 24 - 1) + 520 + 32768))
  | .tcopy e .. => some (if e == .ss then (1, 4 + (2 ^ 24 - 1) + 40 + 2048) else (3, 4 + (2 ^ 24 - 1) + 520 + 16384))
  | .bfill glb .. => some (if glb then (3, 4 + (2 ^ 24 - 1) + 520 + 32768) else (1, 4 + (2 ^ 24 - 1) + 40 + 2048))
  | .ifill .. => some (3, 2400)
  | .bararr .. | .bardrp .. | .dqpush .. | .dqpop .. | .dqsteal .. | .launch .. => some (3, 1536)
  | .tload _ _ q .. => some (1, if q then 48 else 1057)
  | .tstore .. => some (1, 4129)
  | .tzero _ => some (1, 32)
  | .tscl .. => some (1, 64)
  | .mma .. => some (1, 2112)
  | .tcvt .. => some (1, 1088)
  | .mcfg => some (1, 4160)
  | .cboard .. | .crepl .. => some (3, 4160)
  | .calight .. | .ccatch .. => some (3, 4163)
  | .ccatchv .. => some (3, 8259)
  | .crost .. => some (3, 160)
  | _ => none
def isWait : Instr → Bool
  | .barwt .. | .sigwt .. | .twait .. | .scangap => true
  | .fence sc => sc == .pod
  | _ => false
def Placed.instrs (x : Placed) : List Instr := x.b.slots.map (·.2)
def Placed.waits (x : Placed) : Bool := x.instrs.any isWait
/-- The bundle carries a mark that every member must carry at the same TTC. -/
def Placed.marked (x : Placed) : Bool := x.b.hdr.yp || x.b.hdr.rp || x.waits
/-- One more than the scope of the bundle's FENCE, 0 without one. -/
def Placed.fence (x : Placed) : Nat :=
  maxOf (x.instrs.map (fun i => match i with | .fence sc => scopeReach sc + 1 | _ => 0))
/-- A reservation: the sender, the receiver, the queue, the sequence number (R238, R239). -/
structure QKey where
  src : Nat
  dst : Nat
  que : Nat
  seq : Nat
  deriving DecidableEq, Repr
/-- A literal postmark of the bundle. -/
def Placed.literal (x : Placed) : Src → Option Nat
  | .lit k => some (x.b.lits.getD k 0)
  | .reg _ => none
/-- The reservations that a bundle's sends make; none stands for one whose postmark or targets the image does not give. -/
def Fill.reserves (f : Fill) (core : Nat) (x : Placed) : List (Option QKey) :=
  let key (pm k : Nat) : Option QKey := some { src := core, dst := k, que := pmQue pm, seq := pmSeq pm }
  (x.instrs.map (fun i => match i with
    | .send _ _ p | .sends _ p => match x.literal p with | some pm => [key pm (pmCore pm)] | none => [none]
    | .mcast _ _ p =>
      match x.literal p with
      | some pm => match f.groups.find? (fun g => g.1 == field 7 0 pm) with | some g => g.2.map (key pm) | none => [none]
      | none => [none]
    | _ => [])).flatten
/-- The reservations that a bundle's receives release. -/
def Placed.releases (core : Nat) (x : Placed) : List QKey :=
  (x.instrs.map (fun i => match i with
    | .recv _ p | .recvs _ p =>
      ((x.literal p).map (fun pm => ({ src := pmCore pm, dst := core, que := pmQue pm, seq := pmSeq pm } : QKey))).toList
    | _ => [])).flatten
def Placed.count (x : Placed) (p : Instr → Bool) : Nat := (x.instrs.filter p).length

/-! ## The members' streams, run together -/

/-- A member's stream. -/
structure Stream where
  core : Nat
  img : List Placed
  es : List Edge
  deriving DecidableEq, Repr
/-- Where a member stands: some cycles before a bundle issues, past its last bundle, or where the image does not say. -/
inductive At | bundle (addr left : Nat) | ended | lost
  deriving DecidableEq, Repr
/-- The bundle that a member issues in this cycle. -/
def Stream.issues (m : Stream) : At → Option Placed
  | .bundle a 0 => bundleAt? m.img a
  | _ => none
/-- Where a member may stand a cycle later. -/
def Stream.moves (m : Stream) : At → List At
  | .bundle a (n + 1) => [.bundle a n]
  | .bundle a 0 =>
    match bundleAt? m.img a with
    | none => [.ended]
    | some x =>
      if indirect x then [.lost]
      else
        let l := m.es.filter (fun e => e.src.addr == a) ++ (crossing m.img x).toList
        if l.isEmpty then [.ended] else l.map (fun e => .bundle e.dst.addr (e.gap carried))
  | .ended => [.ended]
  | .lost => [.lost]
/-- Every choice of one from each. -/
def choices {α : Type} : List (List α) → List (List α)
  | [] => [[]]
  | l :: r => (l.map (fun a => (choices r).map (fun t => a :: t))).flatten

/-- What is followed along a sequence: nothing yet; an operation of a member, with the cycles it is still outstanding; the
register writes of a member that fall due in each coming cycle; a reservation's entries; a reservation that nothing releases;
what an unknown history of a member left, of this reach and above; each member's open regions, innermost first, by the handler's
word where the image gives it; the cycles since the last yield point; a sequence whose cycles cannot be counted (R253). -/
inductive Track
  | free
  | op (m : Nat) (send : Bool) (reach left : Nat)
  | writes (m : Nat) (due : List Nat)
  | queue (k : QKey) (n : Nat)
  | kept
  | past (m reach : Nat)
  | regions (open_ : List (List (Option Nat)))
  | since (n : Nat)
  | uncounted
  deriving DecidableEq, Repr
/-- The bundles of a cycle, by member. -/
abbrev Issued := List (Option Placed)
def Issued.of (l : Issued) (m : Nat) : List Placed := (l.getD m none).toList
def Issued.fence (l : Issued) (m : Nat) : Nat := maxOf ((l.of m).map Placed.fence)
/-- One more write in `n` cycles. -/
def addDue : List Nat → Nat → List Nat
  | [], 0 => [1]
  | [], n + 1 => 0 :: addDue [] n
  | d :: r, 0 => (d + 1) :: r
  | d :: r, n + 1 => d :: addDue r n
/-- The writes of a bundle's slots; a LEND rotates the stage window only if a LOOP that it can close has stages (R91, R93). -/
def Placed.writes (img : List Placed) (x : Placed) : List Nat :=
  let staged (l : Placed) : Bool := match l.ctl with | some (.loop _ stg _) => stg != 0 | _ => false
  (x.instrs.map (fun i =>
    if i == .lend && !(img.any (fun l => staged l && l.addr < x.addr && l.loopExit == some x.next)) then [] else Instr.writes i)).flatten
/-- A bundle's writes join those already due. -/
def Placed.due (img : List Placed) (x : Placed) (l : List Nat) : List Nat := (x.writes img).foldl (fun l n => addDue l (n - 1)) l
/-- A member's due writes once its bundle of a cycle has issued; a FENCE leaves none of those before it (R380). -/
def Issued.due (ms : List Stream) (l : Issued) (m : Nat) (due : List Nat) : List Nat :=
  (l.of m).foldl (fun d x => x.due ((ms[m]?).map (fun s => s.img)).toList.flatten d) (if 0 < l.fence m then [] else due)
/-- A member's open regions after its bundle (R341); a fifth traps. -/
def Placed.regions (x : Placed) (st : List (Option Nat)) : List (Option Nat) :=
  x.instrs.foldl (fun st i => match i with
    | .cropen b => if st.length < 4 then (x.literal b).map (· % 2 ^ 16) :: st else st
    | .crclose => st.drop 1
    | _ => st) st
/-- The reservations made in a cycle, and those released. -/
def Fill.made (f : Fill) (ms : List Stream) (l : Issued) : List (Option QKey) :=
  ((ms.zip l).map (fun x => match x.2 with | some b => f.reserves x.1.core b | none => [])).flatten
def released (ms : List Stream) (l : Issued) : List QKey :=
  ((ms.zip l).map (fun x => match x.2 with | some b => b.releases x.1.core | none => [])).flatten
/-- Restart points: what is outstanding besides sends breaks nothing without one. -/
def restarts (ms : List Stream) : Bool := ms.any (fun m => m.img.any (fun x => x.b.hdr.rp))
/-- The operations of a bundle of a member, as they are followed from the next cycle on. -/
def Placed.begun (m : Nat) (rp : Bool) (x : Placed) : List Track :=
  x.instrs.filterMap (fun i => match Instr.span i with
    | some p => if p.2 < 2 || !(rp || Instr.sends i) then none else some (.op m (Instr.sends i) p.1 (p.2 - 1))
    | none => none)
/-- What is followed a cycle later. A FENCE ends what its member has outstanding within its scope (R380). -/
def Fill.follow (f : Fill) (ms : List Stream) (l : Issued) : Track → List Track
  | .free =>
    .free :: (((List.range l.length).map (fun m => ((l.of m).map (Placed.begun m (restarts ms))).flatten)).flatten ++
      (if (f.made ms l).contains none then [.kept] else []))
  | .op m snd reach left => if reach < l.fence m || left ≤ 1 then [] else [.op m snd reach (left - 1)]
  | .writes m due => [.writes m ((l.due ms m due).drop 1)]
  | .queue k n => [.queue k (min 17 (n - List.count k (released ms l) + List.count (some k) (f.made ms l)))]
  | .kept => [.kept]
  | .past m reach => if 4 < max reach (l.fence m) then [] else [.past m (max reach (l.fence m))]
  | .regions st => [.regions (List.zipWith (fun b s => (b.toList).foldl (fun s x => Placed.regions x s) s) l st)]
  | .uncounted => [.uncounted]
  | .since n => [.since (if (l.of 0).any (fun x => x.b.hdr.yp) then 1 else min (n + 1) (f.yint + 1))]

/-! ## The conditions at a point -/

/-- A condition of a yield point that what is followed breaks, the point's own bundles having issued (R243, R268). -/
def Fill.yieldBreaks (f : Fill) (ms : List Stream) (l : Issued) : Track → Bool
  | .free => l.any (fun b => b.any (fun x => x.instrs.any Instr.sends))
  | .op m snd reach _ => snd && l.fence m ≤ reach
  | .writes m due => 64 < (l.due ms m due).sum
  | .queue k n => 0 < n + (f.made ms l).count (some k)
  | .kept => true
  | .past m reach => let r := max reach (l.fence m); r == 0 || (f.sends && r ≤ 1)
  | .regions _ | .uncounted => false
  | .since n => f.yint != 0 && f.yint < n
/-- A condition of a restart point that what is followed breaks, before the point's own bundles issue (R338). -/
def restartBreaks (l : Issued) : Track → Bool
  | .free | .since _ | .uncounted => false
  | .op m _ reach _ => l.fence m ≤ reach
  | .writes m due => l.fence m == 0 && 0 < due.sum
  | .queue _ n => 0 < n
  | .kept => true
  | .past m reach => max reach (l.fence m) ≤ 4
  | .regions st => st.any (fun r => !r.isEmpty)
/-- The members together with what is followed. -/
structure Joint where
  at_ : List At
  tr : Track
  deriving DecidableEq, Repr
def Joint.issued (ms : List Stream) (j : Joint) : Issued := List.zipWith Stream.issues ms j.at_
/-- The bundle of the stream in question at which a condition fails in this cycle: every member carries its marks at the same
TTC, one that has ended too (R253, R268, R338). -/
def Fill.breaks (f : Fill) (ms : List Stream) (j : Joint) : Option Nat :=
  let l := j.issued ms
  match l with
  | some x :: r =>
    let apart (p : Placed → Bool) : Bool := p x && r.any (fun b => !b.any p)
    if (j.tr == .uncounted && x.marked) || apart Placed.waits || apart (fun y => y.b.hdr.yp) || apart (fun y => y.b.hdr.rp) ||
        (x.b.hdr.yp && f.yieldBreaks ms l j.tr) || (x.b.hdr.rp && restartBreaks l j.tr) then some x.addr else none
  | _ => none
/-- Every reservation whose parties and sequence number the streams give. -/
def Fill.keys (f : Fill) (ms : List Stream) : List QKey :=
  ((ms.map (fun m => (m.img.map (fun x => (f.reserves m.core x).filterMap id)).flatten)).flatten).eraseDups
/-- What is followed from the first bundle on. -/
def Fill.tracks (f : Fill) (ms : List Stream) : List Track :=
  .free :: (List.range ms.length).map (fun m => .writes m []) ++ (f.keys ms).map (fun k => .queue k 0)
/-- With no region open. -/
def noRegions (ms : List Stream) : Track := .regions (ms.map (fun _ => []))
/-- What an unknown history leaves a member: everything issued before is outstanding, and no interval can be counted (R380). -/
def Fill.unknown (f : Fill) (ms : List Stream) : List Track :=
  f.tracks ms ++ (List.range ms.length).map (fun m => Track.past m 0) ++ [Track.since (f.yint + 1)] ++ (if f.sends then [.kept] else [])
/-- An arrival at any bundle of a gang's one stream with an unknown history. Where the task's streams and overlays hold a CROPEN,
up to four regions may be open (R341, R380). -/
def Fill.arrivals (f : Fill) (ms : List Stream) : List Joint :=
  let ts := f.unknown ms ++ (List.range (if f.opens then 5 else 1)).map (fun d => Track.regions (ms.map (fun _ => List.replicate d none)))
  ((ms.map (fun m => m.img)).flatten.map (fun x => ts.map (fun t => ({ at_ := [.bundle x.addr 0], tr := t } : Joint)))).flatten
/-- A member at the word at which its stream is entered. -/
def Stream.start (m : Stream) (entry : Nat) : At :=
  match bundleAt? m.img entry with
  | some x => .bundle entry (x.beats - 1)
  | none => .ended
def Fill.starts (f : Fill) (ms : List Stream) : List Joint :=
  match f.entry with
  | some a => (f.tracks ms ++ [Track.since 0, noRegions ms]).map (fun t => { at_ := ms.map (fun m => Stream.start m a), tr := t })
  | none => f.arrivals ms
/-- A member at the handler of a region: the indirect arrival of an unwind (R77, R341). -/
def Stream.unwound (m : Stream) (t : Option Nat) : At :=
  match t.bind (bundleAt? m.img) with
  | some x => .bundle x.addr (max x.b.hdr.jb 2 + (x.beats - 1))
  | none => .lost
/-- An error consumed with `d` regions open: every member enters its handler of the innermost. What was issued before is unknown from
then on, but for the regions; a gang of several members cannot count the cycle (R253). -/
def Fill.unwinds (f : Fill) (ms : List Stream) (st : List (List (Option Nat))) (d : Nat) : List Joint :=
  let at_ := List.zipWith (fun m r => Stream.unwound m ((r.reverse[d - 1]?).getD none)) ms st
  let ts := if ms.length == 1 then .regions (st.map (fun r => (r.reverse.take (d - 1)).reverse)) :: f.unknown ms else [.uncounted]
  ts.map (fun t => { at_ := at_, tr := t })
/-- The unwinds that may come in a cycle. -/
def Fill.unwoundFrom (f : Fill) (ms : List Stream) (j : Joint) : List Joint :=
  match j.tr with
  | .regions st => (((st.map List.length).eraseDups.filter (fun d => d != 0)).map (f.unwinds ms st)).flatten
  | _ => []
/-- The members whose move falls through into the next area: an indirect arrival, before which nothing is known (R44, R226, R380). -/
def crossed (ms : List Stream) (l : Issued) (a : List At) : List Nat :=
  (List.range ms.length).filter (fun m =>
    match ms[m]?, l.of m, a[m]? with
    | some s, [x], some p => (crossing s.img x).any (fun e => p == .bundle e.dst.addr (e.gap carried))
    | _, _, _ => false)
/-- What an area's end leaves unknown of those members' history; cycles and open regions are still counted. -/
def Fill.crossings (f : Fill) (ms : List Stream) (l : Issued) (a : List At) (tr : Track) : List Track :=
  let c := crossed ms l a
  if tr == .free && !c.isEmpty then c.map (fun m => Track.past m 0) ++ (if f.sends then [.kept] else []) else []
/-- The joint states that may follow. -/
def Fill.nexts (f : Fill) (ms : List Stream) (j : Joint) : List Joint :=
  if j.at_ == [.lost] then f.arrivals ms
  else
    let l := j.issued ms
    f.unwoundFrom ms j ++ ((choices (List.zipWith Stream.moves ms j.at_)).map (fun a =>
      (f.follow ms l j.tr ++ f.crossings ms l a j.tr).map (fun t => ({ at_ := a, tr := t } : Joint)))).flatten
/-- Everything that can be reached: `seen` grows by what follows from `front`, until nothing new does. -/
def explore {α : Type} [DecidableEq α] (next : α → List α) : Nat → List α → List α → List α
  | 0, seen, _ => seen
  | _ + 1, seen, [] => seen
  | fuel + 1, seen, x :: r =>
    let new := ((next x).filter (fun y => !seen.contains y)).eraseDups
    explore next fuel (new ++ seen) (new ++ r)
/-- The gang's streams, the one in question first; another member's that does not decode is rejected for itself. -/
def Fill.streams (f : Fill) (img : List Placed) : List Stream :=
  let other (p : Nat × List Word32) : List Placed :=
    Fill.bundles { f with site := { mx := isMx p.1, handler := false }, stop := p.2.length } (p.2.length + 1) 0
      (p.2.map (fun x => x.toNat))
  let ok := (f.peers.map (fun p => (p.1, other p))).filter (fun p => p.2.all (fun x => x.code == 0))
  { core := f.me, img := img, es := edges img } ::
    ok.map (fun p => ({ core := p.1, img := p.2, es := edges p.2 } : Stream))
/-- The bundles at which a path condition of a yield or restart point fails. A gang of several members counts cycles from the
task's start: a stream with an indirect arrival cannot be counted (R253). -/
def Fill.badPoints (f : Fill) (img : List Placed) : List Nat :=
  let marks := (img.filter Placed.marked).map (fun x => x.addr)
  if marks.isEmpty then []
  else if f.entry.isNone && !f.peers.isEmpty then marks
  else
    let ms := f.streams img
    let js := explore (f.nexts ms) (2 ^ 64) (f.starts ms) (f.starts ms)
    if !f.peers.isEmpty && js.any (fun j => j.at_.head? == some .lost) then marks
    else js.filterMap (f.breaks ms)

end Sys2Proof.Machine
end

