-- ==== Sys2Proof/Machine/Verify.lean ====
section
/-! DEFINITION. The fill path: the CRC-32C fill sum, and the verifier's two passes over an image (R66, R93, R227, R228). -/
namespace Sys2Proof.Machine
open Sys2Proof

/-! ## The fill sum (R227) -/

def crcBit (c : Nat) : Nat := if c % 2 == 1 then c / 2 ^^^ 0x82F63B78 else c / 2
def crcByte (c b : Nat) : Nat := crcBit (crcBit (crcBit (crcBit (crcBit (crcBit (crcBit (crcBit (c ^^^ b))))))))
/-- CRC-32C of some bytes. -/
def crc32c (bs : List Byte) : Nat := (bs.foldl (fun c b => crcByte c b.toNat) 0xFFFFFFFF) ^^^ 0xFFFFFFFF

/-! ## The codes of the second pass -/

/-- A yield or restart point that is not admitted: what the bundle shows by itself, and the path conditions (R45, R268). -/
def pointFails (bad : List Nat) (x : Placed) : Bool :=
  (x.b.hdr.yp && !(x.ctl == some .lend || x.waits)) || (x.waits && !x.b.hdr.yp) || bad.contains x.addr
/-- A direct transfer's target is a bundle start of its area; a loop form can be paired (R93). -/
def flowOk (img : List Placed) (x : Placed) : Bool :=
  let ok (t : Option Nat) : Bool := t.any (fun a => (bundleAt? img a).isSome && areaOf a == areaOf x.addr)
  match x.ctl with
  | some (.br o) | some (.bc _ _ o) | some (.bp _ _ o) | some (.call o) => ok (x.direct o)
  | some (.loop _ _ o) => ok (x.direct o) && x.loopExit.any (fun e => x.addr < e)
  | some .lend => (loopOf img x).isSome
  | some (.lbrk k) => ((enclosing img x)[k]?).isSome
  | _ => true
/-- The lowest of a bundle's codes 8 to 14. Where no number of join bubbles fits, some window is over with the number carried:
the bundle that ends it has code 10 (R66, R76, R191). -/
def pathCode (f : Fill) (bad : List Nat) (img : List Placed) (es : List Edge) (x : Placed) : Nat :=
  let w := x.weight
  let b := classB f.cls
  let w8 := classW8 f.cls
  let j := joinBubbles es b w8 x
  failing [ck 8 (x.b.hdr.dw == Bundle.declared x.b), ck 9 (w ≤ b),
    ck 10 (w + before es carried b 8 7 x ≤ w8), ck 11 (j.isNone || j == some (carried x)),
    ck 12 ((sendLanes x).all (fun l => !laneBefore es l 4 3 x)), ck 13 (!pointFails bad x), ck 14 (flowOk img x)]

/-- The outcome of a fill: the code, 0 for a pass, the address of the bundle rejected, and the bundle starts. -/
structure Verified where
  code : Nat
  addr : Nat
  starts : List Nat
  deriving DecidableEq, Repr
/-- The fill path's judgement of the words of an image that begins at a word address (R66). -/
def Fill.verify (f : Fill) (base : Nat) (ws : List Word32) : Verified :=
  let img := f.bundles (ws.length + 1) base (ws.map (fun x => x.toNat))
  match img.find? (fun x => x.code != 0) with
  | some x => { code := x.code, addr := x.addr, starts := [] }
  | none =>
    let es := edges img
    let bad := f.badPoints img
    match (img.map (fun x => (x.addr, pathCode f bad img es x))).find? (fun e => e.2 != 0) with
    | some e => { code := e.2, addr := e.1, starts := [] }
    | none => { code := 0, addr := 0, starts := img.map (fun x => x.addr) }
/-- Whether some words hold an operation, in any bundle (R380). -/
def holdAny (p : Instr → Bool) (ws : List Word32) : Bool :=
  let f : Fill := { site := { mx := true, handler := false }, cls := 0, yint := 0, stop := 65536, entry := none, me := 0,
                    peers := [], groups := [], sends := false, opens := false }
  (f.bundles (ws.length + 1) 0 (ws.map (fun x => x.toNat))).any (fun x => x.instrs.any p)
def holdSends (ws : List Word32) : Bool := holdAny Instr.sends ws
def holdOpens (ws : List Word32) : Bool := holdAny (fun i => match i with | .cropen _ => true | _ => false) ws
/-- A member's fill as the task gives it: its own class and stream are still to be named. -/
def Task.fillFor (t : Task) (k : Nat) : Fill :=
  let ms := t.cores.zip t.image.members
  { site := { mx := isMx k, handler := false }, cls := t.image.cls % 4, yint := field 1524 1504 t.lrec.toNat, stop := 65536,
    entry := some 0, me := k, peers := (ms.filter (fun x => x.1 != k)).map (fun x => (x.1, x.2.words)),
    groups := t.image.groups.filterMap (fun g => g.members.map (fun l => (g.id % 256, l.map (fun j => t.cores.getD j 127)))),
    sends := t.image.members.any (fun m => holdSends m.words) || t.image.overlays.any (fun o => holdSends o.words),
    opens := t.image.members.any (fun m => holdOpens m.words) || t.image.overlays.any (fun o => holdOpens o.words) }
/-- The words of some bytes. -/
def wordsOf : List Byte → List Word32
  | a :: b :: c :: d :: r => BitVec.ofNat 32 (leNat [a, b, c, d]) :: wordsOf r
  | _ => []
def bytesOf (ws : List Word32) : List Byte := (ws.map (fun w => leBytes 4 w.toNat)).flatten

end Sys2Proof.Machine
end

