-- ==== Sys2Proof/Machine/Deliver.lean ====
section
/-! DEFINITION. What falls due in a cycle: exposed-latency writes, atomics' covered writes, and the deliveries and
results of operations in flight at their posted times (R12-R14, R64, R126, R129, R160, R176, R186, R204, R206-R208,
R214-R217, R229, R241, R304-R311, R320-R329). -/
namespace Sys2Proof.Machine
open Sys2Proof

/-! ## Exposed-latency writes (R14 step 2, R64, R126) -/

/-- Bits of a value where a mask is set, of another elsewhere. -/
def merged {n : Nat} (old x m : BitVec n) : BitVec n := (old &&& ~~~m) ||| (x &&& m)
/-- A scalar register takes a value; `s0` keeps none (R60). -/
def World.putS (w : World) (core : Nat) (sup : Bool) (n : Nat) (v : Word) : World :=
  if n == 0 then w
  else if sup then (w.clearErrs (.supReg core n)).modCtx core (fun c => { c with sup := fset c.sup 0 n v })
  else (w.clearErrs (.sreg core n)).modCtx core (fun c => { c with sregs := fset c.sregs 0 n v })
/-- A vector register takes the bits of a mask. -/
def World.putV (w : World) (core n : Nat) (x m : Line) : World :=
  (if m == allV then w.clearErrs (.vreg core n) else w).modCtx core (fun c =>
    { c with vregs := fset c.vregs 0 n (merged (fget c.vregs 0 n) x m) })
/-- A predicate takes the bits of a mask; `p0` none. -/
def World.putP (w : World) (core n : Nat) (x m : Pred) : World :=
  if n == 0 then w
  else (if m == allP then w.clearErrs (.pred core n) else w).modCtx core (fun c =>
    { c with preds := fset c.preds 0 n (merged (fget c.preds 0 n) x m) })
/-- Sticky flags are ORed in, masked by `FEN` as it stands (R160). -/
def World.putFlags (w : World) (core f : Nat) : World :=
  w.modCtx core (fun c => { c with fpflags := c.fpflags ||| (f &&& c.fpctrl) })
/-- Source codes of core counters and of die counters that are not reserved (R128, R130). -/
def coreSource (n : Nat) : Bool :=
  n ≤ 0x0B || (0x10 ≤ n && n ≤ 0x26) || (0x28 ≤ n && n ≤ 0x2D) || (0x30 ≤ n && n ≤ 0x32) || n == 0x34
def dieSource (n : Nat) : Bool := n ≤ 0x0E
/-- A selector as written: a reserved source reads back as 0. -/
def coreSel (v : Nat) : Nat := (if coreSource (v % 64) then v % 64 else 0) + field 7 6 v * 64
def dieSel (v : Nat) : Nat := (if dieSource (v % 32) then v % 32 else 0) + field 6 5 v * 32 + field 31 16 v * 2 ^ 16
/-- A system register takes the value of an SRW, its reserved bits cleared (R121, R123, R125). -/
def World.putSys (w : World) (core k v : Nat) : World :=
  if k == 0x10 then w.modCtx core (fun c => { c with fpflags := v % 32 })
  else if k == 0x11 then w.modCtx core (fun c => { c with fpctrl := v % 32 })
  else if k == 0x41 then w.modCore core (fun c => { c with trappc := v % 2 ^ 16 })
  else if 0x60 ≤ k && k ≤ 0x73 then
    if isMx core then w.modDie (dieOf core) (fun d => { d with tshape := fset d.tshape 0 (k - 0x60) (v % 2 ^ 26) }) else w
  else if 0x80 ≤ k && k ≤ 0x87 then w.modCtx core (fun c => { c with evcsel := fset c.evcsel 0 (k - 0x80) (coreSel v) })
  else if 0x88 ≤ k && k ≤ 0x8F then w.modCtx core (fun c => { c with evc := fset c.evc 0 (k - 0x88) (v % 2 ^ 48) })
  else if 0xA0 ≤ k && k ≤ 0xAF then
    w.modDie (dieOf core) (fun d => { d with devsel := fset d.devsel 0 (k - 0xA0) (dieSel v) })
  else if 0xB0 ≤ k && k ≤ 0xBF then
    w.modDie (dieOf core) (fun d => { d with devc := fset d.devc 0 (k - 0xB0) (v % 2 ^ 48) })
  else w
/-- A selector's enable bit and overflow bit, and a count, after EVCTL (R129). -/
def evSel (op : EvOp) (en ovf v : Nat) : Nat :=
  match op with
  | .start => v ||| 2 ^ en
  | .stop => v - bit (bitOf en v) * 2 ^ en
  | .clear => v - bit (bitOf ovf v) * 2 ^ ovf
  | .restart => (v - bit (bitOf ovf v) * 2 ^ ovf) ||| 2 ^ en
def evCount (op : EvOp) (v : Nat) : Nat :=
  match op with
  | .start | .stop => v
  | .clear | .restart => 0
def evCore (op : EvOp) (mask : Nat) : List Nat → CoreCtx → CoreCtx
  | [], c => c
  | j :: r, c =>
    if bitOf j mask then
      evCore op mask r { c with evcsel := fset c.evcsel 0 j (evSel op 6 7 (fget c.evcsel 0 j)),
                                evc := fset c.evc 0 j (evCount op (fget c.evc 0 j)) }
    else evCore op mask r c
def evDie (op : EvOp) (mask : Nat) : List Nat → Die → Die
  | [], d => d
  | j :: r, d =>
    if bitOf j mask then
      evDie op mask r { d with devsel := fset d.devsel 0 j (evSel op 5 6 (fget d.devsel 0 j)),
                               devc := fset d.devc 0 j (evCount op (fget d.devc 0 j)) }
    else evDie op mask r d
/-- IFENCE from issue + 1: a READY idle half is ARMED (R231). -/
def Core.fence (c : Core) : Core :=
  { c with ifstat := { c.ifstat with fenced := true },
           ctx := if c.ctx.halfAct then { c.ctx with halfA := if c.ctx.halfA == 3 then 4 else c.ctx.halfA }
                  else { c.ctx with halfB := if c.ctx.halfB == 3 then 4 else c.ctx.halfB } }
/-- CROPEN from issue + 1 (R341). -/
def CoreCtx.openRegion (c : CoreCtx) (t : Nat) : CoreCtx :=
  { c with crvec := fset c.crvec 0 c.crDepth t, crLoops := c.crLoops.take c.crDepth ++ [c.loops],
           crDepth := c.crDepth + 1 }
/-- An exposed-latency effect applies. -/
def World.apply (w : World) (core : Nat) (p : Pend) : World :=
  match p.w with
  | .s n v => w.putS core false n v
  | .sup n v => w.putS core true n v
  | .v n x m => w.putV core n x m
  | .p n x m => w.putP core n x m
  | .sc n x => (w.clearErrs (.scale core n)).modCtx core (fun c => { c with scales := fset c.scales 0 n x })
  | .flags f => w.putFlags core f
  | .srw k v => w.putSys core k v.toNat
  | .evctl op die mask =>
    if die then w.modDie (dieOf core) (evDie op mask (List.range 16)) else w.modCtx core (evCore op mask (List.range 8))
  | .ifence => w.modCore core Core.fence
  | .cropen t => w.modCtx core (fun c => c.openRegion t)
  | .crclose => w.modCtx core (fun c => { c with crDepth := c.crDepth - 1 })
  | .lease take => w.modDie (dieOf core) (fun d =>
      { d with lease := if take then { holder := some core, grant := p.issue, count := 0 } else ArrayLease.free })
/-- SRW first, then EVCTL, then the rest. -/
def Pend.rank (p : Pend) : Nat :=
  match p.w with
  | .srw .. => 0
  | .evctl .. => 1
  | _ => 2
def Pend.dueBy (t : Nat) (p : Pend) : Bool := p.due ≤ t
/-- When something was issued, as a key: what a handler's last bundle left comes before the bundles of the cycle it names. -/
def issueKey (issue pos : Nat) : Nat := 2 * issue + bit (pos < 32)
/-- Effects in the order in which they apply: the later issued and the higher position stand. -/
def inRank (l : List Pend) : List Pend :=
  sortBy Pend.rank (sortBy (fun p => issueKey p.issue p.pos) (sortBy (fun p => p.pos) l))
def applyPends (core : Nat) (w : World) : List Pend → World
  | [] => w
  | p :: r => applyPends core (w.apply core p) r
/-- Everything due on a core, on one clock, by cycle `t`. -/
def World.exposed (w : World) (core : Nat) (sup : Bool) (t : Nat) : World :=
  let c := w.core core
  if sup then
    applyPends core (w.setCore core { c with hpend := c.hpend.filter (fun p => !p.dueBy t) })
      (inRank (c.hpend.filter (Pend.dueBy t)))
  else
    applyPends core (w.setCore core { c with pend := c.pend.filter (fun p => !p.dueBy t) })
      (inRank (c.pend.filter (Pend.dueBy t)))
/-- The clock that a core's writes fall due on: handler cycles while it runs its handler. -/
def World.inHandler (w : World) (core : Nat) : Bool :=
  match (w.gangAt core).stat with
  | .handler k => k == core
  | _ => false
def World.clockOf (w : World) (core : Nat) : Nat := w.clock (w.gangOf core) (w.inHandler core)
def execExposedWrite (core : Nat) (s : State) : Host.Outcome State Fault Refusal :=
  done s (only (s.w.exposed core (s.w.inHandler core) (s.w.clockOf core)))

/-! ## Events that a delivery raises (R331, R341, R381) -/

/-- What an operation raises at a due time: judged before the bundles of the cycle, in the task or in its handler. -/
def World.raise (w : World) (f : Flight) (due cause info : Nat) : World :=
  let e : EventTrap := { due := due, core := f.core, issue := f.issue, pos := f.pos, cause := cause, info := info, pc := none }
  w.modGang f.gang (fun g => if f.sup then { g with hevents := g.hevents ++ [e] } else { g with events := g.events ++ [e] })
/-- An uncorrectable error that an operation consumes: 1 scratchpad, 2 poison, 3 tile. -/
def World.raiseConsume (w : World) (f : Flight) (due kind addr : Nat) : World :=
  w.raise f due 16 (kind + (if kind == 1 then addr % 2 ^ 21 * 4 else 0))

/-! ## Scratchpad deliveries (R12, R176, R216) -/

/-- A delivery or an engine's access is one of its cycle on a course (R173, R174). -/
def World.accessed (w : World) (k row : Nat) (kind : AccKind) : World :=
  w.modCore k (fun c => { c with accq := c.accq ++ [{ row := row, kind := kind, pos := 16 }] })
/-- A whole line is delivered. -/
def State.deliverLine (k line : Nat) (bs : List Byte) (s : State) : Act :=
  State.store { s with w := s.w.accessed k (line * 4) .line } k (line * 1024) bs .self
/-- Bytes laid over a line at an offset. -/
def overlay (l : List (Option Byte)) (off : Nat) (bs : List Byte) : List (Option Byte) :=
  l.take off ++ bs.map some ++ l.drop (off + bs.length)
/-- The bytes that stand in unbroken runs, each with its first place. -/
def byteRuns : Nat → List (Option Byte) → List (Nat × List Byte)
  | _, [] => []
  | a, none :: r => byteRuns (a + 1) r
  | a, some b :: r =>
    match byteRuns (a + 1) r with
    | x :: q => if x.1 == a + 1 then (a, b :: x.2) :: q else (a, [b]) :: x :: q
    | [] => [(a, [b])]
def runActs (k row : Nat) : Nat → List (Nat × List Byte) → List (State → Act)
  | _, [] => []
  | n, x :: r => (fun s => State.storeRowN s k (row * 256 + x.1) x.2 true n) :: runActs k row 0 r
/-- The bytes of a row that a line's delivery covers, as one bulk write of the row; a poisoned row that it does not cover
whole is consumed (R178, R216). -/
def State.deliverRow (f : Flight) (due k row : Nat) (l : List (Option Byte)) (s : State) : Act :=
  match byteRuns 0 l with
  | [] => only s.w
  | x :: r =>
    let la := row * 256 + x.1
    let look := (s.w.accessed k row .bulk).lookWrite k la x.2.length
    if look.bad then only (look.w.raiseConsume f due 1 la) else State.inOrder { s with w := look.w } (runActs k row 1 (x :: r))
/-- A piece's address, its bytes, and whether a poisoned response feeds it: such bytes are free (log 3). -/
def Flight.chunk (f : Flight) (c : EngCmd) (draw : Nat) (x : Piece) : Nat × List Byte × Bool :=
  let a := x.seg.d % 2 ^ 21
  if x.seg.s.isSome && !isSpd c.src then
    if f.badParts.contains x.part then (a, (List.range x.seg.n).map (Config.freeByte draw), true)
    else (a, ((fget f.got [] (partKey x.part)).drop x.off).take x.seg.n, false)
  else (a, f.pieceBytes c x.seg, false)
/-- The pieces that a command delivers to a line. -/
def EngCmd.inLine (c : EngCmd) (line : Nat) : List Piece := c.parted.filter (fun x => lineOfAddr x.seg.d == line)
/-- What a command delivers to a line, in order: a later piece stands over an earlier. -/
def Flight.chunks (f : Flight) (c : EngCmd) (draw line : Nat) : List (Nat × List Byte × Bool) :=
  (c.inLine line).map (f.chunk c draw)
def lineOver (cs : List (Nat × List Byte × Bool)) : List (Option Byte) :=
  cs.foldl (fun l x => overlay l (x.1 % 1024) x.2.1) (List.replicate 1024 none)
/-- Rows that a poisoned response fed are poisoned, and the error is consumed (R340). -/
def poisonRows (k : Nat) (w : World) : List Nat → World
  | [] => w
  | r :: rs => poisonRows k (w.poisonRow k r) rs
def rowsIn (x : Nat × List Byte × Bool) : List Nat :=
  (List.range 5).filterMap (fun i => if x.1 / 256 + i ≤ (x.1 + x.2.1.length - 1) / 256 then some (x.1 / 256 + i) else none)
def State.poisonAct (f : Flight) (due k : Nat) (bad : List (Nat × List Byte × Bool)) (s : State) : Act :=
  if bad.isEmpty then only s.w else only ((poisonRows k s.w (bad.map rowsIn).flatten).raiseConsume f due 2 0)
/-- Core event 0x23, and die event 0x0B for the engine (R128, R130). -/
def State.countLine (k : Nat) (eng : Bool) (s : State) : Act :=
  let w := s.w.count k 0x23 1
  only (if eng then w.countDie (dieOf k) 0x0B (w.tenOf k) 1 else w)
/-- The source lines that a line's commit comes before, with their bytes as they stand then: those not yet read that feed the line
(R215), and for a copy of one stretch, which behaves as if its whole source were read first, those that the line overwrites (R219). -/
def Flight.preRead (m : Mems) (f : Flight) (i : Nat) : Flight :=
  match f.op, f.lineList[i]? with
  | .eng c, some line =>
    match c.src with
    | .spd k =>
      let feeds (l : Nat) : Bool := (c.inLine line).any (fun x => x.seg.s.any (fun a => lineOfAddr a == l)) ||
        (c.segs.length == 1 && f.lineCore == k && l == line)
      let js := (List.range c.srcLines.length).filter (fun j => feeds (c.srcLines.getD j 0) &&
        !((f.got.map (·.1)).contains j) && !((f.got.map (·.1)).contains (earlyKey j)))
      { f with got := js.foldl (fun g j => fput g (earlyKey j) (m.bytes .spd (spdAt k (c.srcLines.getD j 0 * 1024)) 1024)) f.got }
    | .glb => f
  | _, _ => f
/-- A line of an engine command commits. -/
def State.engLine (f : Flight) (c : EngCmd) (due line : Nat) (s : State) : Act :=
  let k := f.lineCore
  match c.mask.bind (fun m => if lineOfAddr m.1 == line then some m.2 else none) with
  | some bs => s.inOrder [State.deliverLine k line bs, State.countLine k true]
  | none =>
    let cs := f.chunks c s.w.draws line
    let bad := cs.filter (fun x => x.2.2)
    let laid := lineOver cs
    let body := if laid.all Option.isSome then [State.deliverLine k line (laid.filterMap id)]
      else (List.range 4).map (fun b => State.deliverRow f due k (line * 4 + b) ((laid.drop (256 * b)).take 256))
    let s1 : State := if bad.isEmpty then s else { s with w := { s.w with draws := s.w.draws + 1 } }
    s1.inOrder (body ++ [State.poisonAct f due k bad, State.countLine k true])
/-- Catch data: four lines, every row poisoned for a poisoned tile (R322, R329). -/
def State.catchLine (f : Flight) (i line : Nat) (poison : Bool) (s : State) : Act :=
  let k := f.core
  s.inOrder [State.deliverLine k line ((f.src.drop (1024 * i)).take 1024),
    (fun t => only (if poison then poisonRows k t.w ((List.range 4).map (fun b => line * 4 + b)) else t.w)),
    State.countLine k false]
/-- The line of an operation that commits in its place. -/
def State.commitLine (f : Flight) (i due : Nat) (s : State) : Act :=
  match f.lineList[i]? with
  | none => only s.w
  | some line =>
    match f.op with
    | .eng c => s.engLine f c due line
    | .tstore _ =>
      s.inOrder [State.deliverLine f.core line ((f.src.drop (1024 * i)).take 1024), State.countLine f.core false]
    | .car c =>
      match c.st with
      | .done _ poison => s.catchLine f i line poison
      | _ => only s.w
    | _ => only s.w

/-! ## Results (R206-R208, R241, R258-R260, R277, R322-R328) -/

/-- The bytes that a load's parts brought. -/
def Flight.loadBytes (f : Flight) : List Byte :=
  ((List.range f.partCount).map (fun k => fget f.got [] (partKey k))).flatten
def Flight.va (f : Flight) : Nat :=
  match f.accs with
  | a :: _ => a.va
  | [] => 0
/-- A load's value is written, or its poisoned response consumed, or HOMEDOWN raised (R204, R340). -/
def World.loadResult (w : World) (f : Flight) (due : Nat) (line : Bool) (sz : MSize) (sx : Bool) (rt : Nat) : World :=
  let v := leNat f.loadBytes
  if f.down then w.raise f due 19 (f.va % 2 ^ 48)
  else if !f.badParts.isEmpty then w.raiseConsume f due 2 0
  else if line then w.putV f.core rt (BitVec.ofNat 8192 v) allV
  else
    match sz with
    | .b16 => (w.putS f.core f.toSup rt (BitVec.ofNat 64 v)).putS f.core f.toSup (rt + 1) (BitVec.ofNat 64 (v / 2 ^ 64))
    | _ => w.putS f.core f.toSup rt
        (if sx then word (signed (8 * sz.bytes) v) else BitVec.ofNat 64 (v % 2 ^ (8 * sz.bytes)))
/-- An atomic's old value and flags (R207, R208). -/
def World.amoResult (w : World) (f : Flight) (due : Nat) (op : AmoOp) (rt : Nat) : World :=
  if rt == 0 then if f.down then w.raise f due 19 (f.va % 2 ^ 48 + 2 ^ 48) else w
  else if f.down then w.raise f due 19 (f.va % 2 ^ 48)
  else if !f.badParts.isEmpty then w.raiseConsume f due 2 0
  else (w.putS f.core f.toSup rt (amoOld op f.res)).putFlags f.core f.flags
/-- Entries take their places in the queues of the targets. -/
def enqueue (q : Nat) (e : QEntry) (w : World) : List Nat → World
  | [] => w
  | k :: r => enqueue q e (w.modCore k (fun c => { c with queues := fset c.queues [] q (qIns e (c.queue q)) })) r
/-- `TRAPINFO` of CFULL and CMISS (R328). -/
def carCode : CarKind → Nat
  | .board => 0 | .alight => 1 | .catch_ => 2 | .catchv => 3 | .repl => 4
def carInfo (f : Flight) (c : CarCmd) (reason : Nat) : Nat :=
  c.name + bit c.ccw * 2 ^ 24 + carCode c.kind * 2 ^ 25 + (if c.kind == .catchv then c.ver * 2 ^ 28 else 0) +
    reason * 2 ^ 36 + f.issue % 2 ^ 24 * 2 ^ 40
/-- A carousel command at its posted time. -/
def World.carResult (w : World) (f : Flight) (due : Nat) (c : CarCmd) : World :=
  match c.st with
  | .refused r => w.raise f due 13 (carInfo f c r)
  | .armed => if c.kind == .board then (w.abandon [f]).raise f due 13 (carInfo f c 0) else w.raise f due 14 (carInfo f c 0)
  | .done ver poison =>
    let copy := !f.lineList.isEmpty
    let w1 := if copy then (w.count f.core 0x2D 1).countDie (dieOf f.core) 0x07 (w.tenOf f.core) 1 else w
    if c.kind == .board then w1
    else w1.putS f.core f.toSup c.rt (BitVec.ofNat 64 (ver + bit poison * 2 ^ 8))

/-! ## The array (R296-R311) -/

/-- Entries put into a map, where the value `d` is not listed. -/
def putAll (d : Nat) (m : FMap Nat) : List (Nat × Nat) → FMap Nat
  | [] => m
  | e :: r => putAll d (fset m d e.1 e.2) r
/-- Element `i` of width `w` of some bytes. -/
def elemAt (w : Nat) (bs : List Byte) (i : Nat) : Nat := leNat ((bs.drop (w * i)).take w)
/-- Row or column `j` of a TLOAD takes a line. -/
def Tile.loadLine (t : Tile) (shape : Nat) (tr : Bool) (j : Nat) (bs : List Byte) : Tile :=
  let w := fmtBytes (shFmt shape)
  let z := fmtZero (shFmt shape)
  if tr then { t with elems := putAll z t.elems ((List.range (shRows shape)).map (fun i => (i * 1024 + j, elemAt w bs i))) }
  else { t with elems := putAll z t.elems ((List.range (shCols shape)).map (fun i => (j * 1024 + i, elemAt w bs i))) }
def Tile.setValid (t : Tile) (r : Nat) (v : Bool) : Tile := { t with invalid := if v then sdel t.invalid r else sadd t.invalid r }
def loadLines (shape : Nat) (m tr : Bool) (first n : Nat) (line : Nat → List Byte) (t : Tile) : List Nat → Tile
  | [] => t
  | j :: r =>
    let t1 := t.loadLine shape tr (first + j) (line j)
    let v := if m then bitOf 0 ((line n).getD j 0).toNat else true
    loadLines shape m tr first n line (if tr then t1 else t1.setValid (first + j) v) r
/-- The tile after a TLOAD of `n` lines (R306). -/
def Tile.loaded (t : Tile) (shape : Nat) (m tr : Bool) (first n : Nat) (line : Nat → List Byte) : Tile :=
  loadLines shape m tr first n line t (List.range n)
/-- The tile after a TSCL of `n` lines (R308). -/
def Tile.scaled (t : Tile) (g n : Nat) (line : Nat → List Byte) : Tile :=
  { t with scale := putAll 127 t.scale (((List.range n).map (fun j => (List.range 1024).map (fun i =>
      ((g + j) * 1024 + i, ((line j).getD i 0).toNat)))).flatten) }
def Die.setTile (d : Die) (code : Nat) (t : Tile) : Die := { d with tiles := fset d.tiles Tile.cleared code t }
/-- Line `j` that a command read or popped. -/
def Flight.lineOf (f : Flight) (q : Bool) (j : Nat) : List Byte :=
  if q then (f.src.drop (1024 * j)).take 1024 else fget f.got [] j
/-- The tile writes and flags of a matrix command (R298, R304). -/
def World.arrayResult (w : World) (f : Flight) : World :=
  let k := dieOf f.core
  let tileWrote (code : Nat) : World := w.clearErrs (.tile k code)
  match f.op with
  | .tload m tr q tile first n _ =>
    w.modDie k (fun d => d.setTile tile ((d.tile tile).loaded (d.shape tile) m tr first n (f.lineOf q)))
  | .tscl tile g n _ => w.modDie k (fun d => d.setTile tile ((d.tile tile).scaled g n (f.lineOf false)))
  | .tzero tile => (tileWrote tile).modDie k (fun d => d.setTile tile Tile.cleared)
  | .mma acc out =>
    ((tileWrote acc).modDie k (fun d => d.setTile acc { (d.tile acc) with elems := out })).putFlags
      f.core f.flags
  | .tcvt tile out =>
    ((tileWrote tile).modDie k (fun d => d.setTile tile { elems := out, invalid := [], scale := [] })).putFlags f.core f.flags
  | .mcfg shapes =>
    ((List.range 20).foldl (fun a c => a.clearErrs (.tile k c)) w).modDie k (fun d => { d with shapes := shapes, tiles := [], mcfgAt := none })
  | _ => w

/-! ## A fill completes (R228-R230) -/

/-- The bytes of a fill; those of a poisoned response count as zero. -/
def Flight.fillBytes (f : Flight) (n : Nat) : List Byte :=
  (((List.range f.partCount).map (fun k =>
    if f.badParts.contains k then List.replicate 16 0 else fget f.got [] (partKey k))).flatten).take (4 * n)
/-- The fill of a half by a core of a gang (R228): in the running class, with nothing known of what comes before. -/
def World.halfFill (w : World) (gid k : Nat) (half : Bool) (ws : List Word32) : Fill :=
  let g := w.gang gid
  let t : Fill := match w.task? g.tenant g.task with
    | some t => t.fillFor k
    | none => { site := { mx := isMx k, handler := false }, cls := 0, yint := 0, stop := 0, entry := none, me := k,
                peers := [], groups := [], sends := true, opens := true }
  { t with cls := g.cls, stop := if half then 65536 else 34816, entry := none, sends := t.sends || holdSends ws, opens := t.opens || holdOpens ws }
/-- The half takes its words, its start-map bits and its state; `IFSTAT` and `IFSUM` report. -/
def Core.filled (c : Core) (half : Bool) (sum : Nat) (v : Verified) : Core :=
  let st := if v.code == 0 then 3 else 5
  { c with ifsum := sum,
           ifstat := { c.ifstat with busy := false, valid := v.code == 0, code := v.code, addr := v.addr },
           startMap := c.startMap.filter (fun x => areaOf x != (if half then 2 else 1)) ++ v.starts,
           ctx := if half then { c.ctx with halfB := st } else { c.ctx with halfA := st } }
/-- Errors of some words of an instruction store are gone: the words have been written. -/
def World.wordsWritten (w : World) (k lo n : Nat) : World :=
  { w with softErrs := w.softErrs.filter (fun e => match e.1 with | .word c a => !(c == k && lo ≤ a && a < lo + n) | _ => true) }
def State.fillResult (f : Flight) (half : Bool) (n : Nat) (s : State) : Act :=
  let bs := f.fillBytes n
  let v : Verified := if f.badParts.isEmpty then
      (s.w.halfFill f.gang f.core half (wordsOf bs)).verify (halfBase half) (wordsOf bs)
    else { code := 15, addr := 0, starts := [] }
  { w := (s.w.wordsWritten f.core (halfBase half) n).modCore f.core (fun c => c.filled half (crc32c bs) v),
    out := [.bytes .isp (ispAt f.core (halfBase half)) bs] }

/-! ## A posted delivery commits (R12, R14) -/

/-- The result of an operation at its posted time. -/
def State.commitResult (f : Flight) (due : Nat) (s : State) : Act :=
  match f.op with
  | .gload line sz sx rt => only (s.w.loadResult f due line sz sx rt)
  | .gamo op rt _ _ => only (s.w.amoResult f due op rt)
  | .gstore | .signal _ => only (if f.down then s.w.raise f due 19 (f.va % 2 ^ 48 + 2 ^ 48) else s.w)
  | .ifill half n => s.fillResult f half n
  | .send ts q sq =>
    only (enqueue q { posted := due, sender := f.core, seq := sq, data := BitVec.ofNat 8192 (leNat f.src) } s.w ts)
  | .bar _ rt _ | .launch rt => only (s.w.putS f.core f.toSup rt (BitVec.ofNat 64 f.res))
  | .deq op rt _ _ =>
    let v := f.res % 2 ^ 64
    let st := f.res / 2 ^ 64
    only (match op with
      | .push => s.w.putS f.core f.toSup rt (BitVec.ofNat 64 st)
      | _ => (s.w.putS f.core f.toSup rt (BitVec.ofNat 64 v)).putS f.core f.toSup (rt + 1) (BitVec.ofNat 64 st))
  | .roster _ rt _ => only (s.w.putS f.core f.toSup rt (BitVec.ofNat 64 f.res))
  | .car c => only (s.w.carResult f due c)
  | .eng _ | .tstore _ => only s.w
  | _ => only (if f.badParts.isEmpty then s.w.arrayResult f else s.w)
/-- The items of an operation: its lines by place, and its result under 0 where it has no lines or comes with the
first. Each falls due at this time; a tile store has one more, its posted time (R307). -/
def Flight.dueOf (f : Flight) (i : Nat) : Nat := if f.lineList.isEmpty then f.posted else f.firstCommit + i
def Flight.itemCount (f : Flight) : Nat :=
  match f.op with
  | .eng c => if isSpd c.dst then f.lineList.length else 0
  | .car c =>
    match c.st with
    | .done .. => max 1 f.lineList.length
    | _ => 1
  | .tstore _ => f.lineList.length + 1
  | _ => max 1 f.lineList.length
/-- The items that have not committed. -/
def Flight.open_ (f : Flight) : List Nat := (List.range f.itemCount).filter (fun i => !f.lines.contains i)
/-- An item commits; the operation leaves when its last has, an engine command at its completion. -/
def State.commitItem (f0 : Flight) (i : Nat) (s : State) : Act :=
  let f := f0.preRead s.mem i
  let g : Flight := { f with lines := sadd f.lines i }
  let due := f.dueOf i
  let w := if g.open_.isEmpty && !isEng f.op then s.w.dropFlight f.id else s.w.setFlight g
  let res := if i == 0 then [State.commitResult f due] else []
  State.inOrder { s with w := w } (res ++ [State.commitLine f i due])
/-- Whether an item is there to commit: everything it needs has been performed or read. -/
def Flight.present (f : Flight) (i : Nat) : Bool :=
  !f.held &&
    match f.op with
    | .eng c =>
      if isSpd c.dst && c.sends then
        match f.lineList[i]? with
        | some line => ((c.inLine line).filter (fun x => x.seg.s.isSome)).all (fun x => f.parts.contains x.part)
        | none => true
      else true
    | .bar .. | .deq .. | .launch _ | .roster .. => f.arrived
    | .gload .. | .gstore | .gamo .. | .signal _ | .ifill .. | .send .. => f.missing.isEmpty
    | _ => true
/-- One item of an operation commits if it is due and there. -/
def postedCommitAct (id i : Nat) (s : State) : Act :=
  match s.w.flight? id with
  | some f =>
    if f.open_.contains i && f.dueOf i ≤ s.w.clock f.gang f.sup && f.present i then s.commitItem f i else only s.w
  | none => only s.w
def execPostedCommit (id line : Nat) (s : State) : Host.Outcome State Fault Refusal := done s (postedCommitAct id line s)
/-- The posted commit of a matrix command, of MCFG, of a fill, under their own names. -/
def commitIf (p : FOp → Bool) (id : Nat) (s : State) : Act :=
  match s.w.flight? id with
  | some f => if p f.op then postedCommitAct id 0 s else only s.w
  | none => only s.w
def isMcfg : FOp → Bool
  | .mcfg _ => true
  | _ => false
def isFill : FOp → Bool
  | .ifill .. => true
  | _ => false
def execArrayCommit (id : Nat) (s : State) : Host.Outcome State Fault Refusal :=
  done s (commitIf (fun o => arrayOp o && !isMcfg o) id s)
def execMcfgCommit (id : Nat) (s : State) : Host.Outcome State Fault Refusal := done s (commitIf isMcfg id s)
def execIfillComplete (id : Nat) (s : State) : Host.Outcome State Fault Refusal := done s (commitIf isFill id s)

/-! ## Atomics, engine reads and engine times (R186, R210, R214, R215) -/

/-- An atomic's covered write, at issue + 2; its reservation lasts through that cycle. -/
def State.amoWrite (k : Nat) (a : AmoW) (s : State) : Act :=
  let w := s.w.modCore k (fun c => { c with amos := c.amos.map (fun x => if x = a then { x with void := true } else x) })
  State.storeRow { s with w := w } k a.addr (leBytes a.n a.value) false
def amosDue (c : Core) (sup : Bool) (t : Nat) : List AmoW :=
  c.amos.filter (fun a => a.sup == sup && !a.void && a.issue + 2 ≤ t)
def State.amoWrites (k : Nat) (sup : Bool) (t : Nat) (s : State) : Act :=
  s.inOrder ((amosDue (s.w.core k) sup t).map (fun a => State.amoWrite k a))
def execAmoCoveredWrite (core : Nat) (s : State) : Host.Outcome State Fault Refusal :=
  done s (s.amoWrites core (s.w.inHandler core) (s.w.clockOf core))

/-- The lines of its own scratchpad that a command reads after its issue, from which cycle, and on which core. -/
def Flight.reads (f : Flight) : List Nat :=
  match f.op with
  | .eng c => c.srcLines
  | .tload m _ q _ _ n line => if q then [] else (List.range (if m then n + 1 else n)).map (fun j => (line + j) % 2048)
  | .tscl _ _ n line => (List.range n).map (fun j => (line + j) % 2048)
  | .car c => if c.kind == .board || c.kind == .repl then (List.range 4).map (fun j => (c.line + j) % 2048) else []
  | _ => []
def Flight.readCore (f : Flight) : Nat :=
  match f.op with
  | .eng { src := .spd k, .. } => k
  | _ => f.core
def Flight.readAt (f : Flight) (k : Nat) : Nat := f.start + k
/-- The rows of a source line that a command touches, and the words of each. -/
def Flight.readWords (f : Flight) (line : Nat) : FMap (List Nat) :=
  match f.op with
  | .eng c =>
    c.pieces.foldl (fun m g =>
      match g.s with
      | some a =>
        if lineOfAddr a == line then
          ((List.range 4).map (fun b => line * 4 + b)).foldl (fun m row =>
            let lo := max (a % 2 ^ 21) (row * 256)
            let hi := min (a % 2 ^ 21 + g.n) (row * 256 + 256)
            if lo < hi then fput m row ((wordSpan (lo % 256) (hi - lo)).foldl sadd (fget m [] row)) else m) m
        else m
      | none => m) []
  | _ => (List.range 4).map (fun b => (line * 4 + b, wordSpan 0 256))
def Flight.readRows (f : Flight) (line : Nat) : List Nat := (f.readWords line).map (·.1)
/-- Read some words of some rows. -/
def lookAll (k : Nat) (w : World) : FMap (List Nat) → Look
  | [] => { w := w, bad := false }
  | e :: r =>
    let a := w.lookWords k e.1 e.2
    let b := lookAll k a.w r
    { w := b.w, bad := a.bad || b.bad }
/-- The access of a command's read of source line `k`: of one row, or of the line (R173, R215). -/
def World.readAccess (w : World) (f : Flight) (k : Nat) : World :=
  match f.reads[k]? with
  | none => w
  | some line =>
    match f.readRows line with
    | [row] => w.accessed f.readCore row .read
    | _ => w.accessed f.readCore (line * 4) .line
/-- A command reads the bytes of source line `k`, as the bundle of that cycle would see them. -/
def World.readBytes (m : Mems) (w : World) (f : Flight) (k : Nat) : World :=
  match f.reads[k]? with
  | none => w
  | some line =>
    let c := f.readCore
    let l := lookAll c w (f.readWords line)
    let bs := if (f.got.map (·.1)).contains (earlyKey k) then fget f.got [] (earlyKey k) else m.bytes .spd (spdAt c (line * 1024)) 1024
    let g : Flight := { f with got := fput f.got k bs }
    if l.bad then (l.w.setFlight { g with badParts := sadd f.badParts k }).raiseConsume f (f.readAt k) 1 (line * 1024)
    else l.w.setFlight g
/-- A command's read. -/
def World.readSource (m : Mems) (w : World) (f : Flight) (k : Nat) : World := World.readBytes m (w.readAccess f k) f k
/-- A source line not yet read whose cycle has come. -/
def Flight.readDue (f : Flight) (t k : Nat) : Bool :=
  f.readAt k == t && k < f.reads.length && !((f.got.map (·.1)).contains k)
def engineReadAct (id k : Nat) (s : State) : World :=
  match s.w.flight? id with
  | some f => if f.readDue (s.w.clock f.gang f.sup) k then World.readSource s.mem s.w f k else s.w
  | none => s.w
def execEngineSourceRead (id k : Nat) (s : State) : Host.Outcome State Fault Refusal :=
  done s (only (engineReadAct id k s))

/-- A buffered command starts at S: die event 0x0A. -/
def engineStartAct (id : Nat) (s : State) : World :=
  match s.w.flight? id with
  | some f =>
    if isEng f.op && f.start == s.w.clock f.gang f.sup && !f.arrived then
      (s.w.countDie (dieOf f.core) 0x0A (s.w.tenOf f.core) 1).setFlight { f with arrived := true }
    else s.w
  | none => s.w
def execEngineStart (id : Nat) (s : State) : Host.Outcome State Fault Refusal := done s (only (engineStartAct id s))
/-- A command frees its entry at C; a global write to a home that is down ends the task then (R204). -/
def engineCompleteAct (id : Nat) (s : State) : World :=
  match s.w.flight? id with
  | some f =>
    if isEng f.op && f.done ≤ s.w.clock f.gang f.sup && f.missing.isEmpty && f.open_.isEmpty && !f.held then
      let w := s.w.dropFlight id
      if f.down then w.raise f f.done 19 (f.va % 2 ^ 48 + 2 ^ 48) else w
    else s.w
  | none => s.w
def execEngineComplete (id : Nat) (s : State) : Host.Outcome State Fault Refusal := done s (only (engineCompleteAct id s))

end Sys2Proof.Machine
end

