-- ==== Sys2Proof/Machine/Ring.lean ====
section
/-! DEFINITION. The carousel's ring and roster (R314-R329). -/
namespace Sys2Proof.Machine
open Sys2Proof

/-! ## Slots and the roster (R315-R317) -/

def Slot.unowned : Slot :=
  { own := false, ten := 0, full := false, name := 0, ver := 0, poison := false, withdraw := false, data := [] }
/-- The key of a slot: direction and number. -/
def slotKey (ccw : Bool) (n : Nat) : Nat := bit ccw * 1024 + n % 1024
def World.slot (w : World) (k : Nat) : Slot := fget w.hub.slots Slot.unowned k
def World.setSlot (w : World) (k : Nat) (x : Slot) : World := w.modHub (fun h => { h with slots := fset h.slots Slot.unowned k x })
def ofTenant (ccw : Bool) (ten : Nat) (e : Nat × Slot) : Bool := e.1 / 1024 == bit ccw && e.2.own && e.2.ten == ten
/-- A tenant's slot quota in a direction. -/
def World.slotQuota (w : World) (ccw : Bool) (ten : Nat) : Nat := (w.hub.slots.filter (ofTenant ccw ten)).length
/-- The slot of a tile aboard. -/
def World.aboard (w : World) (ccw : Bool) (ten name : Nat) : Option (Nat × Slot) :=
  w.hub.slots.find? (fun e => ofTenant ccw ten e && e.2.full && e.2.name == name)
def World.aboardCount (w : World) (ccw : Bool) (ten : Nat) : Nat :=
  (w.hub.slots.filter (fun e => ofTenant ccw ten e && e.2.full)).length

/-! ## The roster's answers (R321, R325, R328) -/

/-- Why the roster refuses a board: no quota 2, name aboard or pending 1, no slot left 0. -/
def World.refusal (w : World) (ccw : Bool) (ten name : Nat) : Option Nat :=
  if w.slotQuota ccw ten == 0 then some 2
  else if (w.aboard ccw ten name).isSome || w.hub.pendBoards.any (fun x => pends ccw ten x && x.2.2 == name) then some 1
  else if w.slotQuota ccw ten ≤ w.aboardCount ccw ten + (w.hub.pendBoards.filter (pends ccw ten)).length then some 0
  else none
/-- A board receives the roster's answer; CROST its entry. -/
def World.askRoster (w : World) (f : Flight) : World :=
  let ten := (w.gang f.gang).tenant
  match f.op with
  | .car c =>
    if c.kind == .board && !f.arrived && c.st == .armed then
      match w.refusal c.ccw ten c.name with
      | some r => w.setFlight { f with op := .car { c with st := .refused r }, arrived := true }
      | none => (w.modHub (fun h => { h with pendBoards := h.pendBoards ++ [(ten, c.ccw, c.name)] })).setFlight
          { f with arrived := true }
    else w
  | .roster ccw _ name =>
    if f.arrived then w
    else
      match w.aboard ccw ten name with
      | some e => w.setFlight (f.answered (e.2.ver + bit e.2.poison * 2 ^ 8 + 2 ^ 9))
      | none => w.setFlight (f.answered 0)
  | _ => w
def rosterAct (id : Nat) (s : State) : World :=
  match s.w.flight? id with
  | some f => if f.held then s.w else s.w.askRoster f
  | none => s.w
def execRosterRequest (id : Nat) (s : State) : Host.Outcome State Fault Refusal := done s (only (rosterAct id s))

/-! ## A slot passes a stop (R314, R318, R321-R327) -/

/-- The cycles of a watch. -/
def watchLen (k : CarKind) : Nat := if k == .catchv then 8224 else 4128
/-- Whether a command at a stop watches a direction for a slot's tenant: one that has consumed an error in what it reads does not
(R178). -/
def watches (w : World) (ccw : Bool) (stop ten : Nat) (f : Flight) : Bool :=
  match f.op with
  | .car c =>
    let t := (w.gang f.gang).ttc
    c.ccw == ccw && c.st == .armed && dieOf f.core == stop && (w.gang f.gang).tenant == ten &&
      t < f.issue + watchLen c.kind && (f.reads.isEmpty || f.got.length == 4) && f.badParts.isEmpty
  | _ => false
def kindIs (k : CarKind) (f : Flight) : Bool :=
  match f.op with
  | .car c => c.kind == k
  | _ => false
def nameIs (n : Nat) (f : Flight) : Bool :=
  match f.op with
  | .car c => c.name == n
  | _ => false
/-- A version meets a target (R316). -/
def meets (u v : Nat) : Bool := (u + 256 - v % 256) % 256 < 128
def versionMet (u : Nat) (f : Flight) : Bool :=
  match f.op with
  | .car c => c.kind != .catchv || meets u c.ver
  | _ => false
/-- A command's outcome at a passage. -/
def Flight.outcome (f : Flight) (ver : Nat) (poison : Bool) (data : List Byte) : Flight :=
  match f.op with
  | .car c => { f with op := .car { c with st := .done ver poison }, src := data }
  | _ => f
/-- The tile that a board or a replace has read. -/
def Flight.tile (f : Flight) : List Byte := ((List.range 4).map (fun j => fget f.got [] j)).flatten
/-- Replaces apply in order, each raising the version. -/
def replaces (w : World) (x : Slot) : List Flight → World × Slot
  | [] => (w, x)
  | f :: r =>
    let y : Slot := { x with data := f.tile, ver := (x.ver + 1) % 256, poison := false }
    replaces (w.setFlight (f.outcome y.ver false [])) y r
/-- Catches take the contents. -/
def catches (w : World) (x : Slot) : List Flight → World
  | [] => w
  | f :: r => catches (w.setFlight (f.outcome x.ver x.poison x.data)) x r
/-- A slot whose tile has left it; one that is withdrawn is given up (R359). -/
def empty (x : Slot) : Slot :=
  if x.withdraw then Slot.unowned else { x with full := false, name := 0, ver := 0, poison := false, data := [] }
/-- Commands in the order of issue, then of core. -/
def byIssue (l : List Flight) : List Flight := sortBy (fun f => f.issue) (sortBy (fun f => f.core) l)
/-- A full slot passes: replaces, then catches, then a removal. -/
def World.passFull (w : World) (k stop : Nat) (x : Slot) : World :=
  let here := byIssue (w.flights.filter (fun f => watches w (k / 1024 == 1) stop x.ten f && nameIs x.name f))
  let r := replaces w x (here.filter (kindIs .repl))
  let w1 := catches r.1 r.2 (here.filter (fun f => (kindIs .catch_ f || kindIs .catchv f) && versionMet r.2.ver f))
  match here.find? (kindIs .alight) with
  | some f => (w1.setFlight (f.outcome r.2.ver r.2.poison r.2.data)).setSlot k (empty r.2)
  | none => w1.setSlot k r.2
/-- A board fills a slot. -/
def World.boardInto (w : World) (k stop : Nat) (x : Slot) (f : Flight) : World :=
  match f.op with
  | .car c =>
    let y : Slot := { x with full := true, name := c.name, ver := 0, poison := false, data := f.tile }
    (((w.setFlight (f.outcome 0 false [])).setSlot k y).modHub (fun h =>
      { h with pendBoards := unpend x.ten (k / 1024 == 1) c.name h.pendBoards })).countDie stop 0x08 x.ten 1
  | _ => w
/-- An empty slot passes: the first accepted board at the stop fills it. -/
def World.passEmpty (w : World) (k stop : Nat) (x : Slot) : World :=
  match (byIssue (w.flights.filter (fun f => watches w (k / 1024 == 1) stop x.ten f && kindIs .board f && f.arrived))).head? with
  | none => w
  | some f => w.boardInto k stop x f
/-- A stop checks the tile that passes: a failing check poisons it, and class 6 of the event log records it (R329). -/
def World.checked (w : World) (k stop : Nat) : World :=
  let x := w.slot k
  if (w.errsAt (.slot k)).isEmpty then w
  else
    let w1 := (w.clearErrs (.slot k)).setSlot k { x with poison := true }
    if x.poison then w1 else w1.logEvent 6 stop x.ten (x.name + bit (k / 1024 == 1) * 2 ^ 24)
/-- A tenant has a slot in a direction that neither a tile nor a pending board takes. -/
def World.spare (w : World) (ccw : Bool) (ten : Nat) : Bool :=
  w.aboardCount ccw ten + (w.hub.pendBoards.filter (pends ccw ten)).length < w.slotQuota ccw ten
/-- A slot passes a stop: its tile is checked; one withdrawn is emptied and given up at stop 0 (R359), an empty one once no accepted
board needs it (R321; log 67). -/
def World.passage (w : World) (k stop : Nat) : World :=
  let x := w.slot k
  if !x.own then w
  else if x.full then
    let w1 := w.checked k stop
    if x.withdraw && stop == 0 then w1.setSlot k Slot.unowned else w1.passFull k stop (w1.slot k)
  else if x.withdraw && w.spare (k / 1024 == 1) x.ten then w.setSlot k Slot.unowned
  else w.passEmpty k stop x
/-- The ring's passages by its 1.8 GHz clock: two ring cycles each, 0.9 of them in a nanosecond (R314). -/
def World.ringTime (w : World) : Nat := w.now * 9 / 10000000
/-- The stop that a slot passes at one of them, if any: a slot passes the next stop of its direction 128 later. -/
def stopAt (n key : Nat) : Option Nat :=
  let ccw := key / 1024 == 1
  let x := (n + Config.ringPhase ccw + 1024 - key % 1024) % 1024
  if x % 128 == 0 then some (if ccw then 7 - x / 128 else x / 128) else none
def passAll (n : Nat) (w : World) : List Nat → World
  | [] => w
  | k :: r => passAll n (match stopAt n k with | some stop => w.passage k stop | none => w) r
def ringTurns (w : World) : Nat → World
  | 0 => w
  | m + 1 =>
    let w1 := ringTurns w m
    let n := w1.hub.ringAt + 1
    (passAll n w1 (w1.hub.slots.map (·.1))).modHub (fun h => { h with ringAt := n })
/-- The ring turns to the present; where no slot is owned, nothing passes. -/
def World.ringTo (w : World) : World :=
  if w.hub.slots.isEmpty then w.modHub (fun h => { h with ringAt := w.ringTime }) else ringTurns w (w.ringTime - w.hub.ringAt)
def ringAct (ccw : Bool) (slot stop : Nat) (s : State) : World := s.w.passage (slotKey ccw slot) (stop % 8)
def execRingPassage (ccw : Bool) (slot stop : Nat) (s : State) : Host.Outcome State Fault Refusal :=
  done s (only (ringAct ccw slot stop s))

/-! ## What must have happened by a cycle (R318, R321, R325) -/

/-- An empty slot of a tenant's that a board can fill. -/
def World.vacant (w : World) (ccw : Bool) (ten : Nat) : Option (Nat × Slot) :=
  w.hub.slots.find? (fun e => ofTenant ccw ten e && !e.2.full)
/-- By issue + 32 a board has its answer; one that is accepted has boarded by the end of its watch (R321: it never fails). -/
def World.carForce (w : World) (f : Flight) (t : Nat) : World :=
  match f.op with
  | .car c =>
    if f.issue + watchLen c.kind ≤ t + 1 && c.kind == .board && c.st == .armed && f.arrived && f.badParts.isEmpty then
      match w.vacant c.ccw (w.gang f.gang).tenant with
      | some e => w.boardInto e.1 (dieOf f.core) e.2 f
      | none => w
    else if f.issue + 32 ≤ t + 1 then w.askRoster f else w
  | .roster .. => if f.posted ≤ t + 1 && !f.held then w.askRoster f else w
  | _ => w
def carForces (t : Nat) (w : World) : List Nat → World
  | [] => w
  | id :: r =>
    match w.flight? id with
    | some f => carForces t (w.carForce f t) r
    | none => carForces t w r

/-! ## CFULL and CMISS (R328) -/

/-- A refused board, or a command that found no passage, raises its trap at its posted time. -/
def carTrapAct (full : Bool) (id : Nat) (s : State) : Act :=
  match s.w.flight? id with
  | some f =>
    match f.op with
    | .car c =>
      let mine : Bool := match c.st with
        | .refused _ => full
        | .armed => if c.kind == .board then full else !full
        | .done .. => false
      if mine then postedCommitAct id 0 s else only s.w
    | _ => only s.w
  | none => only s.w
def execCfull (id : Nat) (s : State) : Host.Outcome State Fault Refusal := done s (carTrapAct true id s)
def execCmiss (id : Nat) (s : State) : Host.Outcome State Fault Refusal := done s (carTrapAct false id s)

end Sys2Proof.Machine
end

