-- ==== Sys2Proof/Machine/Service.lean ====
section
/-! DEFINITION. The scratchpad's service guarantee: the accesses of a cycle and what each course does with them
(R173-R175, R177, R180, R186, R188). -/
namespace Sys2Proof.Machine
open Sys2Proof

/-! ## The accesses of a bundle -/

/-- The rows that a slot accesses in its issue cycle; a line by its first row. A TLOAD, TSCL, CBOARD or CREPL reads its
first line then. -/
def World.slotRows (w : World) (i : Instr) : List (Nat × AccKind) :=
  match i with
  | .lds z _ _ e | .ldb z _ e => [(w.la e z.bytes / 256, .read)]
  | .sts z bulk _ e => [(w.la e z.bytes / 256, if bulk then .bulk else .covered)]
  | .ldv _ e | .stv _ e => [(w.la e 1024 / 256, .line)]
  | .ldr _ _ e => [(w.la e 256 / 256, .read)]
  | .str _ bulk _ e => [(w.la e 256 / 256, if bulk then .bulk else .covered)]
  | .amo op _ e => [(w.la e (amoBytes op) / 256, .read)]
  | .scld _ a b => [((w.rdS a + w.src b).toNat % 2 ^ 21 / 256, .read)]
  | .tload _ _ q _ a _ => if q then [] else [(lineNo (w.rdS a) * 4, .line)]
  | .tscl _ a _ | .cboard _ a _ | .crepl _ _ a _ => [(lineNo (w.rdS a) * 4, .line)]
  | _ => []
/-- The row of a TCOPY's record: the engine reads it in the issue cycle (R221). -/
def World.engineRows (w : World) (i : Instr) : List Nat :=
  match i with
  | .tcopy _ _ _ c => [aligned ((w.rdS c).toNat % 2 ^ 21) 64 / 256]
  | _ => []
/-- The slot of a bundle as it would issue. -/
def World.atSlot (w : World) (core pos : Nat) (sup : Bool) (lits : List Nat) (pc nxt issue : Nat) (swap : Bool)
    (catches : List (Nat × Nat)) : World :=
  { w with cur := { core := core, pos := pos, lits := lits, pc := pc, nxt := nxt, issue := issue, sup := sup, swap := swap,
                    catches := catches } }
def slotAccesses (w : World) (core : Nat) (sup : Bool) (lits : List Nat) : List (Nat × Instr) → List Access
  | [] => []
  | x :: r =>
    (((w.atSlot core x.1 sup lits 0 0 0 false []).slotRows x.2).map (fun a =>
      ({ row := a.1, kind := a.2, pos := x.1 } : Access))) ++
      ((w.atSlot core x.1 sup lits 0 0 0 false []).engineRows x.2).map (fun n => ({ row := n, kind := .read, pos := 16 } : Access)) ++
      slotAccesses w core sup lits r
/-- Atomics of a bundle, by the row that each reserves. -/
def slotAmos (w : World) (core : Nat) (sup : Bool) (lits : List Nat) : List (Nat × Instr) → List Access
  | [] => []
  | x :: r =>
    match x.2 with
    | .amo .. => slotAccesses w core sup lits [x] ++ slotAmos w core sup lits r
    | _ => slotAmos w core sup lits r
/-- The line that a PSEAL occupies in a cycle. -/
def SealOp.occupies (x : SealOp) (t : Nat) : Option Nat :=
  if x.issue + 2 ≤ t && t < x.issue + 2 + 2 * x.n then some (x.course * 64 + (x.line + (t - x.issue - 2) / 2) % 64) else none
/-- The reservations of earlier atomics in a cycle. -/
def Core.reservations (c : Core) (sup : Bool) (t : Nat) : List Access :=
  (c.amos.filter (fun a => a.sup == sup && a.issue < t && t ≤ a.issue + 2)).map (fun a =>
    { row := a.addr / 256, kind := .read, pos := 17 })
/-- The other accesses of a cycle: deliveries, engine and command reads, and seals. -/
def Core.others (c : Core) (sup : Bool) (t : Nat) : List Access :=
  (if sup then [] else c.accq) ++ (c.seals.filter (fun x => x.sup == sup)).filterMap (fun x =>
    (x.occupies t).map (fun l => ({ row := l * 4, kind := .line, pos := 16 } : Access)))

/-! ## Judging a course -/

/-- What a course does in a cycle: it serves all, it serves a row by reconstruction, or it fails with a cause. -/
inductive Service
  | served
  | rebuilds (row pos : Nat)
  | fails (cause info : Nat)
  deriving DecidableEq, Repr
def lowestRow (l : List Access) : Nat := (l.map (fun a => a.row)).foldl min 8191
/-- `TRAPINFO` of a service trap (R175). -/
def serviceInfo (course row pos brick : Nat) (foreign : Bool) : Nat :=
  course + rowLine row % 64 * 2 ^ 5 + brick * 2 ^ 11 + bit foreign * 2 ^ 13 + pos * 2 ^ 14
/-- Reads of one row are merged. DESIGN CHOICE: R173 does not say which position a merged read has where another read of the brick
decides who is reconstructed; the model takes the highest that makes it (log 68). -/
def mergeReads : List Access → List Access
  | [] => []
  | a :: r =>
    let m := mergeReads r
    if a.kind == .read then
      match m.find? (fun b => b.kind == .read && b.row == a.row) with
      | some b => { b with pos := max a.pos b.pos } :: m.filter (fun c => !(c.kind == .read && c.row == a.row))
      | none => a :: m
    else a :: m
/-- In a degraded course every write is covered (R180). -/
def asCovered (deg : Bool) (a : Access) : Access :=
  if deg && a.kind == .bulk then { a with kind := .covered } else a
def distinctBricks : List Access → Bool
  | [] => true
  | a :: r => r.all (fun b => rowBrick b.row != rowBrick a.row) && distinctBricks r
/-- Which of two reads of one brick is reconstructed: the later. DESIGN CHOICE: R173 orders the reads of deliveries and engines after all
slots' and not among themselves; of two of them the last in the cycle's list is reconstructed (log 68). -/
def laterOf (a b : Access) : Access := if b.pos < a.pos then a else b
/-- A course's accesses, its reservations, judged. DESIGN CHOICE: R180 gives each of two reads of one brick an SRAM cycle of its own in a
degraded course in use, and does not say what a degraded course out of use does while its gang runs at half rate: the same (log 81). -/
def Core.serve (c : Core) (half : Bool) (course : Nat) (accs resv : List Access) : Service :=
  let deg := (c.health course).degraded
  let low := lowestRow (accs ++ resv)
  let pos := ((accs.filter (fun a => a.pos < 16)).map (fun a => a.pos)).foldl min 15
  let foreign := accs.any (fun a => a.pos == 16) || !resv.isEmpty
  let info := serviceInfo course low pos 0 foreign
  if !resv.isEmpty then
    if 1 < resv.length || accs.any (fun a => !(resv.any (fun r => r.pos == a.pos && r.row == a.row))) then .fails 6 info
    else .served
  else
    let l := mergeReads (accs.map (asCovered deg))
    if l.length ≤ 1 then .served
    else if deg && !half then .fails 7 info
    else if l.any (fun a => a.kind == .line) then .fails 7 info
    else if distinctBricks l && (l.filter (fun a => a.kind == .covered)).length ≤ 1 then .served
    else
      match l with
      | [a, b] =>
        if a.kind != .read || b.kind != .read then .fails 7 info
        else if deg then .served
        else
          let x := laterOf a b
          if c.stale.contains (rowLine x.row) then .fails 5 (serviceInfo course x.row pos (rowBrick x.row) foreign)
          else .rebuilds x.row x.pos
      | _ => .fails 7 info
/-- The judgement of every course that a core's accesses touch, by rising course. -/
def Core.judgeAll (c : Core) (half : Bool) (accs resv : List Access) : List Service :=
  let courses := (accs ++ resv).foldl (fun l a => sadd l (rowCourse a.row)) []
  courses.map (fun k =>
    c.serve half k (accs.filter (fun a => rowCourse a.row == k)) (resv.filter (fun a => rowCourse a.row == k)))
def causeOf : Service → Nat
  | .fails c _ => c
  | _ => 0
/-- The trap of a cycle: RESERVE before RECON before UNSERVED, then the lowest course. -/
def serviceTrap (l : List Service) : Option (Nat × Nat) :=
  let first (k : Nat) : Option (Nat × Nat) :=
    (l.find? (fun x => causeOf x == k)).bind (fun x => match x with | .fails c i => some (c, i) | _ => none)
  ((first 6).orElse (fun _ => first 5)).orElse (fun _ => first 7)
/-- The rows that a cycle serves by reconstruction, for the reads of it (R173). -/
def rebuildRows : List Service → List Nat
  | [] => []
  | .rebuilds row _ :: r => row :: rebuildRows r
  | _ :: r => rebuildRows r
def World.rebuilds (w : World) (k : Nat) (l : List Service) : World := w.modCore k (fun c => { c with rebuilds := rebuildRows l })
/-- Rows served by reconstruction: each is rebuilt, or poisoned where a row that it needs is in error (R172, R178). -/
def rebuildAll (k : Nat) (w : World) : List Service → World
  | [] => w
  | .rebuilds row _ :: r =>
    rebuildAll k (if w.faultyRest k row then w.poisonRow k row else (w.rebuilt k).mendRest k row (wordSpan 0 256)) r
  | _ :: r => rebuildAll k w r
/-- The rows whose reconstruction for an engine's or a command's read meets an uncorrectable error: that read consumes it. -/
def World.badRebuilds (w : World) (k : Nat) : List Service → List Nat
  | [] => []
  | .rebuilds row pos :: r => if pos == 16 && w.faultyRest k row then row :: w.badRebuilds k r else w.badRebuilds k r
  | _ :: r => w.badRebuilds k r
/-- The accesses of a core's cycle for the slots that it is about to issue. -/
def World.accesses (w : World) (core : Nat) (sup : Bool) (t : Nat) (lits : List Nat) (slots : List (Nat × Instr)) : List Access :=
  slotAccesses w core sup lits slots ++ (w.core core).others sup t
/-- The service of that cycle. -/
def World.services (w : World) (core : Nat) (sup : Bool) (t : Nat) (lits : List Nat) (slots : List (Nat × Instr)) :
    List Service :=
  (w.core core).judgeAll (w.gangAt core).half (w.accesses core sup t lits slots)
    ((w.core core).reservations sup t ++ slotAmos w core sup lits slots)

/-- The service of what a core's cycle has without its bundle: a trap of the bundle leaves it as it is. -/
def World.ownServices (w : World) (core : Nat) (sup : Bool) (t : Nat) : List Service := w.services core sup t [] []

/-! ## Seals and the mortar sweep (R177, R188) -/

/-- The stored bytes' parity is written to a line's mortar row. DESIGN CHOICE: R188 has a poisoned row's stored bytes enter the parity and
does not say what an unpoisoned row with an uncorrectable error gives: its bytes as they were before the error (log 80). -/
def State.reseal (k line : Nat) (s : State) : Act :=
  { w := s.w.clearErrs (.mortar k line),
    out := [.bytes .mortar (mortarOf k (line * 1024)) (parity (s.mem.bytes .spd (spdAt k (line * 1024)) 1024))] }
/-- A row is read to reseal its line (R178, R188). -/
def World.sealRead (w : World) (k row : Nat) : World := w.quietRead k row (wordSpan 0 256)
def World.sealReads (w : World) (k line : Nat) : World := (List.range 4).foldl (fun a b => a.sealRead k (line * 4 + b)) w
/-- A line is read and resealed. -/
def State.resealRead (k line : Nat) (s : State) : Act := State.reseal k line { s with w := s.w.sealReads k line }
/-- Line `j` of a seal: its parity row is written in cycle issue + 3 + 2j. -/
def SealOp.writesAt (x : SealOp) (t : Nat) : Option Nat :=
  if x.issue + 3 ≤ t && (t - x.issue - 3) % 2 == 0 && (t - x.issue - 3) / 2 < x.n then
    some (x.course * 64 + (x.line + (t - x.issue - 3) / 2) % 64)
  else none
/-- A seal's line is resealed, and counted; in a degraded or lost course PSEAL only occupies its cycles. -/
def State.sealLine (k line : Nat) (s : State) : Act :=
  if ((s.w.core k).health (line / 64)).degraded then only s.w
  else s.inOrder [State.reseal k line, fun t => only ((t.w.count k 0x26 1).countDie (dieOf k) 0x06 (t.w.tenOf k) 1)]
/-- The line that a seal reads in a cycle. -/
def SealOp.readsAt (x : SealOp) (t : Nat) : Option Nat := if (x.writesAt (t + 1)).isSome then x.occupies t else none
/-- A seal's own access to its course in a cycle it occupies is counted (core event 0x20), and a line that it reads is corrected. -/
def World.sealAccess (k t : Nat) (w : World) (x : SealOp) : World :=
  match x.occupies t with
  | none => w
  | some line =>
    let w1 := w.count k 0x20 1
    if (x.readsAt t).isSome && !((w.core k).health (line / 64)).degraded then w1.sealReads k line else w1
/-- What the seals of a level of a core do in a cycle (R173, R188). -/
def State.sealCycle (k : Nat) (sup : Bool) (t : Nat) (s : State) : Act :=
  let l := (s.w.core k).seals.filter (fun x => x.sup == sup)
  s.inOrder ((fun u => only (l.foldl (World.sealAccess k t) u.w)) :: (l.filterMap (fun x => x.writesAt t)).map (fun l => State.sealLine k l))
/-- At its posted time a seal's lines are fresh, but those that took a bulk write after their read cycle. -/
def Core.freshenAll (c : Core) : List Nat → Core
  | [] => c
  | l :: r => (c.freshen l).freshenAll r
def Core.sealed (c : Core) (x : SealOp) : Core :=
  c.freshenAll (((List.range x.n).map (fun j => x.course * 64 + (x.line + j) % 64)).filter (fun l => !x.dirty.contains l))
def sealsDone (c : Core) : List SealOp → Core
  | [] => c
  | x :: r => sealsDone (c.sealed x) r
def Core.endSeals (c : Core) (sup : Bool) (t : Nat) : Core :=
  let due (x : SealOp) : Bool := x.sup == sup && x.posted ≤ t
  let d := sealsDone c (c.seals.filter due)
  { d with seals := d.seals.filter (fun x => !due x) }
/-- Whether a core's cycles go on: its gang runs or handles a trap. -/
def World.coreRuns (w : World) (core : Nat) : Bool :=
  (w.core core).gang.isSome && (match (w.gangAt core).stat with | .running => true | .handler _ => true | _ => false)
/-- The sweep acts in a course cycle that has no access: it reads the lowest stale line, and in the next reseals it. Its events belong
to cycles that are over (R128). -/
def sweepAct (core course : Nat) (s : State) : Act :=
  let c := s.w.core core
  let k := course % 32
  if (c.health k).degraded || (s.w.coreRuns core && c.touched.contains k) then only s.w
  else
    match c.sweep.find? (fun e => e.1 == k) with
    | none =>
      match c.stale.find? (fun l => l / 64 == k) with
      | none => only s.w
      | some line => only (s.w.modCore core (fun c => { c with sweep := fput c.sweep k (2 * line) }))
    | some e =>
      if e.2 % 2 == 1 || !s.w.coreRuns core then
        s.inOrder [State.resealRead core (e.2 / 2), fun t => only ((((t.w.modCore core (fun c =>
          { (c.freshen (e.2 / 2)) with sweep := fdel c.sweep k })).count core 0x25 1).countDie (dieOf core) 0x06 (t.w.tenOf core) 1).counts core)]
      else only s.w
def execMortarSweep (core course : Nat) (s : State) : Host.Outcome State Fault Refusal := done s (sweepAct core course s)

end Sys2Proof.Machine
end

