-- ==== Sys2Proof/Machine/Power.lean ====
section
/-! DEFINITION. Clusters, limiters, gang clocks and class changes, thermal and voltage control, the heartbeats, and the
retirement and failure of bricks (R80, R180, R181, R252, R347-R357, R371). -/
namespace Sys2Proof.Machine
open Sys2Proof

/-! ## Class changes (R80, R348) -/

/-- The class and the domains that a gang is to run under once every change on its way has taken effect. -/
def Gang.classAhead (g : Gang) : Nat × List Nat :=
  match g.domNext.getLast? with
  | some x => (x.cls, x.doms)
  | none => (g.domCls, g.doms)
/-- A change of class or of domains reaches a gang (R80, R348): each takes effect in its turn. DESIGN CHOICE: R80 states no delay between
the hypervisor's write and the gang clock controller, and the write's own turn is taken (log 55). -/
def World.reachGang (w : World) (gid : Nat) : World :=
  let g := w.gang gid
  let c := w.classFor g.members
  let ds := g.members.map w.domOf
  if g.classAhead == (c, ds) then w
  else w.modGang gid (fun g => { g with domNext := g.domNext ++ [{ cls := c, doms := ds, since := w.now }] })
def reachAll (w : World) : List Nat → World
  | [] => w
  | g :: r => reachAll (w.reachGang g) r
/-- At a yield point every change that has reached the gang takes effect: the last of them stands. -/
def Gang.takeClass (g : Gang) : Gang := { g with domCls := g.classAhead.1, doms := g.classAhead.2, domNext := [] }
def execClassChangeApply (gang : Nat) (s : State) : Host.Outcome State Fault Refusal :=
  done s (only (s.w.modGang gang Gang.takeClass))
/-- A change has waited for one millisecond of WTC without a yield point. -/
def ClassChange.late (now : Nat) (x : ClassChange) : Bool := x.since + 1000000000000 ≤ now
def Gang.classLate (g : Gang) (now : Nat) : Bool := g.domNext.any (ClassChange.late now)
/-- The changes that have waited so long take effect; the others wait on. -/
def Gang.takeLate (g : Gang) (now : Nat) : Gang :=
  { ({ g with domNext := g.domNext.filter (ClassChange.late now) } : Gang).takeClass with
    domNext := g.domNext.filter (fun x => !x.late now) }
def classTimeoutAct (gid : Nat) (s : State) : World :=
  if (s.w.gang gid).classLate s.w.now then s.w.modGang gid (fun g => g.takeLate s.w.now) else s.w
def execClassChangeTimeout (gang : Nat) (s : State) : Host.Outcome State Fault Refusal :=
  done s (only (classTimeoutAct gang s))
/-- A running or pre-empted gang holds a core of a cluster. -/
def World.clusterUsed (w : World) (n : Nat) : Bool :=
  w.gangs.any (fun e => e.2.live && e.2.members.any (fun k => clusterOf k == n)) ||
    w.hub.tasks.any (fun t => match t.saved with
      | some v => v.gang.members.any (fun k => clusterOf k == n)
      | none => false)
/-- Nominal voltage, in steps above the floor. -/
def nominalStep : Nat := 20
/-- A cluster's configuration changes; the hub keeps since when its voltage is nominal. -/
def World.setClCfg (w : World) (n : Nat) (d : ClCfg) : World :=
  w.modHub (fun h => { h with
    clcfg := fput h.clcfg n d
    nominal := if d.vstep == nominalStep then fput h.nominal n (fget h.nominal w.now n) else fdel h.nominal n })
/-- A write of `CLCFG`: refused and logged where it moves a cluster in use; `VSTEP` is not lowered within 100 ms of a
retreat; `RETR` is only ever cleared by a write. -/
def clcfgAct (n : Nat) (v : Word) (s : State) : World :=
  let k := n % 32
  let c := s.w.clCfg k
  let x := v.toNat
  if x % 4 != c.reg && s.w.clusterUsed k then s.w.logEvent 9 8 0 k
  else
    let held := s.w.now < fget s.w.hub.uvUntil 0 c.dom && field 15 8 x < c.vstep
    let d : ClCfg := { reg := x % 4, dom := field 4 2 x, vstep := if held then c.vstep else field 15 8 x,
                       retr := c.retr && bitOf 16 x }
    let w := s.w.setClCfg k d
    if d.dom == c.dom then w else reachAll w w.liveGangs
def execClcfgWrite (n : Nat) (v : Word) (s : State) : Host.Outcome State Fault Refusal := done s (only (clcfgAct n v s))
def domclsAct (v : BitVec 16) (s : State) : World :=
  let w := s.w.modHub (fun h => { h with domcls := v.toNat })
  reachAll w w.liveGangs
def execDomclsWrite (v : BitVec 16) (s : State) : Host.Outcome State Fault Refusal := done s (only (domclsAct v s))

/-! ## Regulators (R349, R350, R352) -/

/-- A sample updates the stretch step. -/
def Reg.sample (r : Reg) (i : Nat) : Reg :=
  let x : Reg := { r with imeas := i }
  if x.ilim < i then { x with step := min (x.step + 1) 12, low := 0 }
  else if 10 * i < 9 * x.ilim then
    if x.low + 1 == 8 then { x with step := x.step - 1, low := 0 } else { x with low := x.low + 1 }
  else { x with low := 0 }
def World.modReg (w : World) (n : Nat) (f : Reg → Reg) : World :=
  w.modHub (fun h => { h with regs := fput h.regs n (f (w.reg n)) })
def execLimiterSample (reg imeas : Nat) (s : State) : Host.Outcome State Fault Refusal :=
  done s (only (s.w.modReg (reg % 4) (fun r => r.sample (imeas % 2 ^ 10))))
/-- A phase is lost: the limit is derated at once, the loss logged. -/
def Reg.losePhase (r : Reg) : Reg :=
  { r with phok := r.phok - 1, ilim := min r.ilim (18 * (r.phok - 1)), derated := true }
def phaseLossAct (n : Nat) (s : State) : World :=
  let r := (s.w.reg (n % 4)).losePhase
  (s.w.modReg (n % 4) Reg.losePhase).logEvent 2 8 0 (n % 4 + r.phok * 2 ^ 2 + r.ilim * 2 ^ 8)
def execPhaseLoss (reg : Nat) (s : State) : Host.Outcome State Fault Refusal := done s (only (phaseLossAct reg s))

/-! ## Thermal and voltage control (R353, R354) -/

/-- A sensor reads 105 degrees or more: the trip begins, or goes on. -/
def thermalAct (die sensor : Nat) (s : State) : World :=
  let w := s.w.modDie die (fun d => { d with trip := true, tripSince := s.w.now })
  if (s.w.die die).trip then w else w.logEvent 3 die 0 (sensor % 512 + 2 ^ 9)
def execThermalTrip (die sensor : Nat) (s : State) : Host.Outcome State Fault Refusal :=
  done s (only (thermalAct die sensor s))
/-- The trip ends when every sensor has read below 100 degrees for 1 ms: no sooner than 1 ms after the last reading at
105. -/
def thermalEndAct (die sensor : Nat) (s : State) : World :=
  let d := s.w.die die
  if d.trip && d.tripSince + 1000000000000 ≤ s.w.now then
    (s.w.modDie die (fun d => { d with trip := false })).logEvent 3 die 0 (sensor % 512)
  else s.w
def execThermalTripEnd (die sensor : Nat) (s : State) : Host.Outcome State Fault Refusal :=
  done s (only (thermalEndAct die sensor s))
/-- Each cluster of a domain rises by one voltage step. -/
def World.raiseStep (w : World) (n : Nat) : World :=
  w.setClCfg n { (w.clCfg n) with vstep := min ((w.clCfg n).vstep + 1) 255, retr := true }
def raiseSteps (w : World) : List Nat → World
  | [] => w
  | n :: r => raiseSteps (w.raiseStep n) r
/-- The predictive-failure threshold of a brick, and the retreat threshold of a domain, which lies below it (R354): corrected errors per
millisecond, the device's (log 54). -/
def failureRate : Nat := Config.failureAt + 1
def retreatRate (dom : Nat) : Nat := Config.retreatAt dom % failureRate
/-- The corrected errors of a domain in this millisecond have crossed its threshold, and no retreat has answered them. -/
def World.overRetreat (w : World) (dom : Nat) : Bool :=
  let r := w.errRate dom
  r.ms == w.now / 1000000000000 && retreatRate dom < r.n && !r.hit
/-- The retreat of a domain whose rate crosses its threshold. -/
def retreatAct (dom : Nat) (s : State) : World :=
  if !s.w.overRetreat dom then s.w
  else
    let cs := (List.range 32).filter (fun n => (s.w.clCfg n).dom == dom)
    let w := (raiseSteps s.w cs).modHub (fun h =>
      { h with uvUntil := fput h.uvUntil dom (s.w.now + 100000000000000), errs := fput h.errs dom { (s.w.errRate dom) with hit := true } })
    match cs with
    | n :: _ => w.logEvent 4 8 0 (dom % 8 + (w.clCfg n).vstep * 2 ^ 3)
    | [] => w
def execUndervoltRetreat (dom : Nat) (s : State) : Host.Outcome State Fault Refusal := done s (only (retreatAct dom s))

/-! ## Firmware heartbeats and the frequency table (R353, R355, R371) -/

def Fw.fresh : Fw := { version := 0, leaf := 0, image := 0, minVersion := 0, beat := 0, updating := false }
def World.firmware (w : World) (rel : Bool) : Fw := fget w.hub.fw Fw.fresh (bit rel)
def World.setFw (w : World) (rel : Bool) (x : Fw) : World := w.modHub (fun h => { h with fw := fput h.fw (bit rel) x })
/-- The reliability image has missed a heartbeat or is being updated: retirements and clearances wait (R371). -/
def World.relDown (w : World) : Bool := (w.firmware true).updating || (w.firmware true).beat + 10000000000000 < w.now
/-- A heartbeat: an accepted image has been swapped in before it; three in a row, none missed between, lift the safe table; the
table is free again. -/
def heartbeatAct (rel : Bool) (s : State) : World :=
  let w := s.w.setFw rel { (s.w.firmware rel) with beat := s.w.now, updating := false }
  if rel then w
  else
    w.modHub (fun h =>
      let n := if (s.w.firmware false).beat + 1000000000000 < s.w.now then 1 else h.goodBeats + 1
      { h with frozen := false, goodBeats := n, safe := h.safe && n < 3 })
def execHeartbeat (rel : Bool) (s : State) : Host.Outcome State Fault Refusal := done s (only (heartbeatAct rel s))
/-- The power controller has missed a heartbeat. -/
def World.beatMissed (w : World) : Bool := (w.firmware false).beat + 1000000000000 < w.now
def heartbeatMissAct (s : State) : World :=
  if s.w.beatMissed then s.w.modHub (fun h => { h with frozen := true, goodBeats := 0 }) else s.w
def execHeartbeatMiss (s : State) : Host.Outcome State Fault Refusal := done s (only (heartbeatMissAct s))
/-- The power controller hangs: 10 ms without a heartbeat outside an update. -/
def World.controllerHung (w : World) : Bool := (w.firmware false).beat + 10000000000000 ≤ w.now && !(w.firmware false).updating
def safeTableAct (s : State) : World :=
  if s.w.controllerHung then s.w.modHub (fun h => { h with safe := true, goodBeats := 0 }) else s.w
def execSafeTable (s : State) : Host.Outcome State Fault Refusal := done s (only (safeTableAct s))
/-- The firmware writes a ceiling; a frozen table only falls. -/
def freqAct (dom mhz : Nat) (s : State) : World :=
  let v := if s.w.hub.frozen then min (s.w.ceiling dom) mhz else min mhz 3600
  s.w.modHub (fun h => { h with freq := fput h.freq dom v })
def execFreqTableWrite (dom mhz : Nat) (s : State) : Host.Outcome State Fault Refusal := done s (only (freqAct dom mhz s))
/-! ## Measured energy (R356) -/

def Gang.draws (g : Gang) (nj : Nat) : Gang := { g with enmeas := (g.enmeas + nj) % 2 ^ 64 }
/-- A core's share of its cluster's energy: in proportion to the `DW` issued, or equal where none was. -/
def energyShare (nj total dws n : Nat) : Nat := if total == 0 then nj / max n 1 else nj * dws / total
def shareAll (nj total n : Nat) (w : World) : List Nat → World
  | [] => w
  | k :: r =>
    let w1 := match (w.core k).gang with
      | some g => w.modGang g (fun g => g.draws (energyShare nj total (w.core k).dws n))
      | none => w
    shareAll nj total n (w1.modCore k (fun c => { c with dws := 0 })) r
/-- A sample of a cluster's energy in nanojoules, and of its array's share on an MX die. -/
def enmeasAct (cluster nj array : Nat) (s : State) : World :=
  let cs := allCores.filter (fun k => clusterOf k == cluster)
  let w := shareAll nj ((cs.map (fun k => (s.w.core k).dws)).sum) cs.length s.w cs
  match (s.w.die (cluster / 4)).arrayGang with
  | some g => if cluster < 16 then w.modGang g (fun g => g.draws array) else w
  | none => w
def execEnmeasUpdate (cluster : Nat) (nj : Energy) (s : State) : Host.Outcome State Fault Refusal :=
  done s (only (enmeasAct cluster nj.cores nj.arrays s))
/-- The ROM restarts the reliability image after 100 ms without a heartbeat. -/
def relRestartAct (s : State) : World :=
  let f := s.w.firmware true
  if f.beat + 100000000000000 ≤ s.w.now then (s.w.setFw true { f with beat := s.w.now }).logEvent 12 8 0 0 else s.w
def execReliabilityRestart (s : State) : Host.Outcome State Fault Refusal := done s (only (relRestartAct s))

/-! ## Bricks and courses (R180, R181) -/

/-- A course of a core is in use when a declared region overlaps it. -/
def Core.courseUsed (c : Core) (course : Nat) : Bool :=
  c.regions.any (fun r => r.base < (course + 1) * 65536 && course * 65536 < r.base + r.size)
def Core.halfRate (c : Core) : Bool := (List.range 32).any (fun k => (c.health k).degraded && c.courseUsed k)
/-- Half-rate issue follows the degraded courses in use. -/
def World.rehalf (w : World) (gid : Nat) : World :=
  let g := w.gang gid
  let h := g.members.any (fun k => (w.core k).halfRate)
  (w.modGang gid (fun g => { g with half := h })).modTask (fun t => isTaskOf g t && h) (fun t => { t with degr := true })
def World.afterBrick (w : World) (core : Nat) : World :=
  match (w.core core).gang with
  | some g => w.rehalf g
  | none => w
/-- The lines of a physical course, by their logical numbers. -/
def Core.linesOf (c : Core) (course : Nat) : List Nat := (List.range 64).map (fun j => (course ^^^ c.xm) * 64 + j)
def Core.setCourse (c : Core) (course : Nat) (x : Course) : Core := { c with courses := fset c.courses Course.healthy course x }
def Core.course (c : Core) (course : Nat) : Course := fget c.courses Course.healthy course
/-- `DATA` of a brick's event (R373). -/
def brickData (core course brick : Nat) (hard further : Bool) : Nat :=
  course + brick * 2 ^ 5 + core * 2 ^ 7 + bit hard * 2 ^ 14 + bit further * 2 ^ 15
/-- The firmware may retire a brick: the brick's errors in a millisecond that began after its cluster had returned to nominal voltage,
this or the last, are above predictive failure (R180, R354). -/
def World.wornOut (w : World) (core course brick : Nat) : Bool :=
  let r := w.errRate (brickKey core course brick)
  (w.hub.nominal.find? (fun e => e.1 == clusterOf core)).any (fun e => e.2 + 1000000000000 ≤ w.now && e.2 ≤ r.ms * 1000000000000) &&
    w.now / 1000000000000 ≤ r.ms + 1 && failureRate < r.n
/-- What the reliability firmware asks for while it is down waits for it (R371). -/
def World.relAsk (w : World) (i : Instr) : World :=
  w.modHub (fun h => { h with relWait := h.relWait.filter (fun x => x != i) ++ [i] })
def World.relDone (w : World) (i : Instr) : World := w.modHub (fun h => { h with relWait := h.relWait.filter (fun x => x != i) })
/-- Predictive retirement of a brick of a healthy course: its stale lines are resealed, then the brick is out. -/
def retireNow (core course brick : Nat) (s : State) : Act :=
  let c := s.w.core core
  if !(c.course course).bricks.isEmpty then only s.w
  else
    let ls := (c.linesOf course).filter (fun l => c.stale.contains l || c.staleQ.contains l)
    s.inOrder (ls.map (fun l => State.resealRead core l) ++ [fun t =>
      only ((((t.w.modCore core (fun c => (c.freshenAll ls).setCourse course { bricks := [brick], failing := false })).afterBrick
        core).logEvent 1 (dieOf core) 0 (brickData core course brick false false)))])
/-- A retirement waits while the reliability image is down, and is done when that is over (R371). -/
def World.retires (i : Instr) (f : World → Act) (w : World) : Act := if w.relDown then only (w.relAsk i) else f (w.relDone i)
/-- The firmware retires a brick that its measurement gives up; one that waits has been measured. -/
def retireAct (core course brick : Nat) (s : State) : Act :=
  let i : Instr := .brickRetire core course brick
  if s.w.hub.relWait.contains i || s.w.wornOut core course brick then
    s.w.retires i (fun w => retireNow core course brick { s with w := w })
  else only s.w
def execBrickRetire (core course brick : Nat) (s : State) : Host.Outcome State Fault Refusal :=
  done s (retireAct core (course % 32) (brick % 4) s)
/-- A further brick of a degraded or lost course fails: the rows of its failed bricks are poisoned in every line. -/
def loseNow (core course brick : Nat) (s : State) : World :=
  let c := s.w.core core
  let x := c.course course
  if x.bricks.isEmpty || x.bricks.contains brick then s.w
  else
    let bs := x.bricks ++ [brick]
    let rows := ((c.linesOf course).map (fun l => bs.map (fun b => l * 4 + b))).flatten
    (((s.w.modCore core (fun c => { (c.setCourse course { x with bricks := bs }) with poison := rows.foldl sadd c.poison })).afterBrick
      core).logEvent 1 (dieOf core) 0 (brickData core course brick true true))
def loseAct (core course brick : Nat) (s : State) : Act :=
  s.w.retires (.courseLost core course brick) (fun w => only (loseNow core course brick { s with w := w }))
def execCourseLost (core course brick : Nat) (s : State) : Host.Outcome State Fault Refusal :=
  done s (loseAct core (course % 32) (brick % 4) s)
/-- A brick fails outright: its rows in stale lines are poisoned, and those lines are no longer stale. -/
def hardFailNow (core course brick : Nat) (s : State) : World :=
  let c := s.w.core core
  if !(c.course course).bricks.isEmpty then loseNow core course brick s
  else
    let ls := (c.linesOf course).filter (fun l => c.stale.contains l || c.staleQ.contains l)
    let rows := ls.map (fun l => l * 4 + brick)
    (((s.w.modCore core (fun c => { ((c.freshenAll ls).setCourse course { bricks := [brick], failing := false }) with
      poison := rows.foldl sadd c.poison })).afterBrick core).logEvent 1 (dieOf core) 0 (brickData core course brick true false))
def hardFailAct (core course brick : Nat) (s : State) : Act :=
  s.w.retires (.brickHardFail core course brick) (fun w => only (hardFailNow core course brick { s with w := w }))
def execBrickHardFail (core course brick : Nat) (s : State) : Host.Outcome State Fault Refusal :=
  done s (hardFailAct core (course % 32) (brick % 4) s)
/-- A second brick of a degraded course crosses the threshold: the course is failing; the event is logged. -/
def failingAct (core course brick : Nat) (s : State) : World :=
  let x := (s.w.core core).course course
  if x.bricks.isEmpty || x.bricks.contains brick then s.w
  else
    (s.w.modCore core (fun c => if x.lost then c else c.setCourse course { x with failing := true })).logEvent 1 (dieOf core) 0
      (brickData core course brick false true)
def execCourseFailing (core course brick : Nat) (s : State) : Host.Outcome State Fault Refusal :=
  done s (only (failingAct core (course % 32) (brick % 4) s))
/-- Device repair: a course of an idle core returns to service; a regulator's phases are whole again. -/
def repairAct (r : Repair) (s : State) : World :=
  match r with
  | .course core course =>
    if (s.w.core core).gang.isSome then s.w else s.w.modCore core (fun c => c.setCourse (course % 32) Course.healthy)
  | .phases reg => s.w.modReg (reg % 4) (fun r => { r with phok := 36 })
def execDeviceRepair (r : Repair) (s : State) : Host.Outcome State Fault Refusal := done s (only (repairAct r s))

end Sys2Proof.Machine
end

