-- ==== Sys2Proof/Machine/Cycle.lean ====
section
/-! DEFINITION. One cycle of a gang: what falls due, the traps of the cycle, the issue of every member's bundle, and the
steps of a core that no word encodes (R11, R14, R59-R62, R67, R79, R84, R225, R226, R300, R331-R338, R342, R381). -/
namespace Sys2Proof.Machine
open Sys2Proof

/-- The state after an action. -/
def State.does (s : State) (f : State → Act) : State := s.commit (f s)
def State.withW (s : State) (w : World) : State := { s with w := w }

/-! ## Deliveries (R12-R14) -/

def Flight.mine (f : Flight) (gid : Nat) (sup : Bool) : Bool := f.gang == gid && f.sup == sup
/-- Operations in the order of R14 step 1: start or issue, issue, core, position. -/
def byKey (l : List Flight) : List Flight :=
  sortBy (fun f => f.start) (sortBy (fun f => issueKey f.issue f.pos) (sortBy (fun f => f.core) (sortBy (fun f => f.pos) l)))
/-- The items due by a cycle, in order. -/
def World.dueItems (w : World) (gid : Nat) (sup : Bool) (t : Nat) : List (Nat × Nat) :=
  ((byKey (w.flights.filter (fun f => f.mine gid sup))).map (fun f =>
    (f.open_.filter (fun i => f.dueOf i ≤ t)).map (fun i => (f.id, i)))).flatten
/-- What an operation must have done by its posted time is done, unless the package holds it back. -/
def State.forceId (id : Nat) (s : State) : Act :=
  match s.w.flight? id with
  | none => only s.w
  | some f =>
    if f.held || !f.begun then only s.w
    else
      match f.op with
      | .gload .. | .gstore | .gamo .. | .signal _ | .ifill .. | .eng _ | .send .. => s.finish f
      | .launch _ => s.inOrder [fun t => t.performAll f, fun t => only (match t.w.flight? id with
          | some g => t.w.launchReach g
          | none => t.w)]
      | .bar _ _ b => only (barrierBatchAct b s)
      | .deq _ _ b _ => only (s.w.deqBatch b)
      | .roster .. => only (s.w.askRoster f)
      | _ => only s.w
/-- An engine command is judged by C, and its lines by their commits; every other operation by its posted time. -/
def Flight.forced (f : Flight) (t : Nat) : Bool :=
  match f.op with
  | .eng c => !isSpd c.dst && f.done ≤ t
  | _ => f.posted ≤ t
/-- A LAUNCH reaches the sorting office by the 16th cycle before its posted time, so that the hub cycle in which it does is over then
(R277, R361; log 53). -/
def Flight.reachesBy (f : Flight) (t : Nat) : Bool := isLaunch f.op && f.posted ≤ t + 16
/-- At its posted time a LAUNCH that has reached the office is applied. -/
def State.launchDue (id : Nat) (s : State) : Act :=
  match s.w.flight? id with
  | some f => only (if isLaunch f.op && !f.held then s.w.launchPost f else s.w)
  | none => only s.w
def State.forces (gid : Nat) (sup : Bool) (t : Nat) (s : State) : Act :=
  let mine := s.w.flights.filter (fun f => f.mine gid sup)
  s.inOrder ((mine.filter (fun f => f.forced t || f.reachesBy t)).map (fun f => State.forceId f.id) ++
    (mine.filter (fun f => f.forced t)).map (fun f => State.launchDue f.id))
def State.commits (gid : Nat) (sup : Bool) (t : Nat) (s : State) : Act :=
  s.inOrder ((s.w.dueItems gid sup t).map (fun x => postedCommitAct x.1 x.2))
/-- An item that is due and not there. -/
def Flight.lateBy (f : Flight) (t : Nat) : Bool :=
  (f.open_.any (fun i => f.dueOf i ≤ t && !f.present i)) ||
    (match f.op with
     | .eng c => !isSpd c.dst && f.done ≤ t && (f.held || !f.missing.isEmpty)
     | _ => false)
/-- `TRAPINFO` of LATE (R332). -/
def lateInfo (f : Flight) (more : Bool) : Nat := f.issue % 2 ^ 32 + f.op.kind * 2 ^ 32 + bit more * 2 ^ 36
/-- LATE is already pending for an operation. -/
def latePending (g : Gang) (f : Flight) : Bool :=
  (if f.sup then g.hevents else g.events).any (fun e => e.cause == 3 && e.core == f.core && e.issue == f.issue && e.pos == f.pos)
def raiseLate (t : Nat) (more : Bool) (w : World) : List Flight → World
  | [] => w
  | f :: r => raiseLate t more (if latePending (w.gang f.gang) f then w else w.raise f t 3 (lateInfo f more)) r
def World.lates (w : World) (gid : Nat) (sup : Bool) (t : Nat) : World :=
  let l := w.flights.filter (fun f => f.mine gid sup && f.lateBy t)
  raiseLate t (1 < l.length) w l
/-- Engine starts, completions, and engine and command reads of a cycle. -/
def startAll (t : Nat) (w : World) : List Flight → World
  | [] => w
  | f :: r => startAll t (if f.start == t then engineStartAct f.id { w := w, mem := Mems.zero } else w) r
def Flight.readsIn (f : Flight) (t : Nat) : Bool := f.start ≤ t && f.readDue t (t - f.start)
def accessAll (t : Nat) (w : World) : List Flight → World
  | [] => w
  | f :: r => accessAll t (if f.readsIn t then w.readAccess f (t - f.start) else w) r
def readAll (m : Mems) (t : Nat) (w : World) : List Flight → World
  | [] => w
  | f :: r => readAll m t (if f.readsIn t then World.readBytes m w f (t - f.start) else w) r
def completeAll (w : World) : List Nat → World
  | [] => w
  | id :: r => completeAll (engineCompleteAct id { w := w, mem := Mems.zero }) r
/-- Exposed writes of some cores: SRW and EVCTL at the start of the cycle, the rest after the deliveries. -/
def World.exposedBy (w : World) (p : Pend → Bool) (core : Nat) (sup : Bool) (t : Nat) : World :=
  let c := w.core core
  let sel (x : Pend) : Bool := x.dueBy t && p x
  if sup then
    applyPends core (w.setCore core { c with hpend := c.hpend.filter (fun x => !sel x) }) (inRank (c.hpend.filter sel))
  else applyPends core (w.setCore core { c with pend := c.pend.filter (fun x => !sel x) }) (inRank (c.pend.filter sel))
def exposedAll (p : Pend → Bool) (sup : Bool) (t : Nat) (w : World) : List Nat → World
  | [] => w
  | k :: r => exposedAll p sup t (w.exposedBy p k sup t) r
/-- Seals that are posted have freshened their lines. -/
def endSealsAll (sup : Bool) (t : Nat) (w : World) : List Nat → World
  | [] => w
  | k :: r => endSealsAll sup t (w.modCore k (fun c => c.endSeals sup t)) r
/-- The operation whose command reads a row of a core's scratchpad in a cycle after its issue. -/
def World.readerOf (w : World) (core row t : Nat) : Option Flight :=
  w.flights.find? (fun f => f.readCore == core && f.start ≤ t && (f.reads[t - f.start]?).any (fun l => (f.readRows l).contains row))
/-- Reads of some rows consume an error: what they feed is not delivered (R178). -/
def failReads (core t : Nat) (w : World) : List Nat → World
  | [] => w
  | row :: r =>
    failReads core t (match w.readerOf core row t with
      | some f => (w.setFlight { f with badParts := sadd f.badParts (t - f.start) }).raiseConsume f t 1 (row * 256)
      | none => w) r
/-- The rows that a cycle serves by reconstruction without any bundle: they are rebuilt and counted whether its bundles issue or not
(R173, R178). -/
def ownRebuilds (t : Nat) (w : World) : List Nat → World
  | [] => w
  | k :: r =>
    let l := w.ownServices k false t
    ownRebuilds t (failReads k t (rebuildAll k w l) (w.badRebuilds k l)) r
/-- Everything that falls due at cycle `t` on a level's clock, before any bundle issues, but the reads of engines and commands. -/
def State.fallDue (gid : Nat) (sup : Bool) (cores : List Nat) (t : Nat) (s : State) : Act :=
  let mine (w : World) : List Flight := byKey (w.flights.filter (fun f => f.mine gid sup))
  s.inOrder ([fun x => only (endSealsAll sup t (exposedAll (fun p => p.rank ≤ 1) sup t x.w cores) cores)] ++
    cores.map (fun k => State.amoWrites k sup t) ++
    [State.forces gid sup t, State.commits gid sup t,
     fun x => only (exposedAll (fun _ => true) sup t x.w cores),
     fun x => only (startAll t x.w (mine x.w)),
     fun x => only (completeAll x.w ((mine x.w).map (fun f => f.id))),
     fun x => only (x.w.lates gid sup t)])

/-! ## The bundles of a cycle (R59-R62) -/

/-- The handler's own operations that are still due. -/
def World.handlerBusy (w : World) (core h : Nat) : Bool :=
  let c := w.core core
  c.hpend.any (fun p => h < p.due) || w.flights.any (fun f => f.core == core && f.gang == w.gangOf core && f.sup) ||
    c.amos.any (fun a => a.sup) || c.seals.any (fun x => x.sup)
/-- RFT and RSTRT wait for them. -/
def leaves (b : Bundle) : Bool := b.slots.any (fun x => match x.2 with | .rft => true | .rstrt => true | _ => false)
/-- A handler's RFT or RSTRT bundle waits: it does not issue in this cycle, and none of its traps is judged (R336). -/
def State.leaving (s : State) (core : Nat) (sup : Bool) (t : Nat) : Bool :=
  let q := (s.w.core core).seq sup
  sup && q.bad.isNone && (badTarget (s.w.core core) sup q.pc).isNone && leaves (s.next core sup) && s.w.handlerBusy core t
/-- A level of a core issues in a cycle. -/
def State.goes (s : State) (core : Nat) (sup : Bool) (t : Nat) : Bool := s.ready core sup && !s.leaving core sup t
/-- A bundle that a member issues in this cycle. -/
structure Plan where
  core : Nat
  sup : Bool
  b : Bundle
  pc : Nat
  issue : Nat
  deriving DecidableEq, Repr
def Plan.nxt (p : Plan) : Nat := p.pc + Bundle.len p.b
def Plan.swap (p : Plan) : Bool := p.b.slots.any (fun e => match e.2 with | .brswap _ => true | _ => false)
/-- Four lines from a cycle on (R322). -/
def fourLines (line at_ : Nat) : List (Nat × Nat) := (List.range 4).map (fun i => ((line + i) % 2048, at_ + i))
/-- The lines that a bundle's catches deliver, whether or not they come to miss (R223). -/
def Plan.catches (p : Plan) (w : World) : List (Nat × Nat) :=
  let line (a : Nat) : Nat := lineNo (sreg (w.core p.core) p.sup a)
  (p.b.slots.map (fun e => match e.2 with
    | .ccatch _ _ a _ | .calight _ true _ a _ => fourLines (line a) (p.issue + 4160)
    | .ccatchv _ _ a _ => fourLines (line a) (p.issue + 8256)
    | _ => [])).flatten
def State.plan (s : State) (core : Nat) (sup : Bool) (t : Nat) : Option Plan :=
  if s.goes core sup t then
    some { core := core, sup := sup, b := s.next core sup, pc := ((s.w.core core).seq sup).pc, issue := t }
  else none
/-- The slots that a level of a core issues in a cycle, with their literals. -/
def State.slotsNow (s : State) (core : Nat) (sup : Bool) (t : Nat) : List Nat × List (Nat × Instr) :=
  match s.plan core sup t with
  | some p => (p.b.lits, p.b.slots)
  | none => ([], [])
/-- The service of a core's cycle, with the bundle that it issues. -/
def State.servicesNow (s : State) (core : Nat) (sup : Bool) (t : Nat) : List Service :=
  let x := s.slotsNow core sup t
  s.w.services core sup t x.1 x.2
def markRebuilds (s : State) (sup : Bool) (t : Nat) (w : World) : List Nat → World
  | [] => w
  | k :: r => markRebuilds s sup t (w.rebuilds k (s.servicesNow k sup t)) r
/-- The reads that engines and commands make in cycle `t`: they see what the bundles of the cycle read (R14, R215), and are made again
where a trap stops the cycle. -/
def State.sourceReads (gid : Nat) (cores : List Nat) (t : Nat) (s : State) : Act :=
  let mine (w : World) : List Flight := byKey (w.flights.filter (fun f => f.mine gid false))
  s.inOrder [fun x => only (accessAll t x.w (mine x.w)),
    fun x => only (markRebuilds x false t x.w cores),
    fun x => only (readAll x.mem t x.w (mine x.w)),
    fun x => only (ownRebuilds t x.w cores)]

/-! ## Traps due before any bundle issues (R381) -/

/-- Events in the order in which they are judged: the lowest core, then the earliest issue, the lower cause, the lower position. -/
def inTurn (l : List EventTrap) : List EventTrap :=
  sortBy (fun e => e.core) (sortBy (fun e => e.issue) (sortBy (fun e => e.cause) (sortBy (fun e => e.pos) l)))
/-- The event that is judged first. -/
def Gang.nextEvent (g : Gang) : Option EventTrap := (inTurn (g.events.filter (fun e => e.due ≤ g.ttc))).head?
/-- The first event of a handler's own operations. -/
def Gang.nextOwn (g : Gang) : Option EventTrap := (inTurn (g.hevents.filter (fun e => e.due ≤ g.hcyc))).head?
/-- The members in ascending core id: the order in which the engines see what they issue in one cycle (R237, R241). -/
def inIdOrder (l : List Nat) : List Nat := sortBy id l
def dropEvent (e : EventTrap) : List EventTrap → List EventTrap
  | [] => []
  | x :: r => if x = e then r else x :: dropEvent e r
/-- An event is taken: an error consumed, or a trap. DESIGN CHOICE: R333 gives an event trap as `TRAPPC` the bundle that would have issued,
and a member that has halted has none: its `TRAPPC` is the HALT bundle's own address, where its `PC` stands (R98; log 77). -/
def World.takeEvent (m : Mems) (w : World) (gid : Nat) (e : EventTrap) : World :=
  let w1 := w.modGang gid (fun g => { g with events := dropEvent e g.events })
  if e.cause == 16 then World.consume m w1 e.core (e.info % 4) (e.info / 4 % 2 ^ 21)
  else w1.takeTrap e.core e.cause e.info (e.pc.getD (w.core e.core).ctx.seq.pc)

/-- An event of a handler's own operations: an error consumed, or a trap in the handler (R334, R341). -/
def World.takeOwn (m : Mems) (w : World) (gid core : Nat) (e : EventTrap) : World :=
  if e.cause == 16 then
    World.consume m (w.modGang gid (fun g => { g with hevents := dropEvent e g.hevents })) core (e.info % 4) (e.info / 4 % 2 ^ 21)
  else w.takeTrap core e.cause e.info (w.core core).hseq.pc

/-! ## Checks of the bundles about to issue (R79, R300, R332, R342, R381) -/

/-- A trap to take: cause, `TRAPINFO`, `TRAPPC`. -/
structure Trap where
  cause : Nat
  info : Nat
  pc : Nat
  deriving DecidableEq, Repr
/-- The holder of an array lease has kept it for 16,384 cycles. -/
def World.leaseExpired (w : World) (core t : Nat) : Option Trap :=
  let l := (w.die (dieOf core)).lease
  if l.holder == some core && l.grant + 16384 ≤ t then
    some { cause := 12, info := leaseTrapInfo l 2 0, pc := (w.core core).ctx.seq.pc }
  else none
/-- The window sum that a bundle would complete. -/
def Core.windowSum (c : Core) (dw : Nat) : Nat := c.win.sum + dw
/-- The energy guard (R79). -/
def Core.energyFails (c : Core) (cls dw : Nat) : Bool :=
  classB cls / 32 < dw || classW8 cls / 32 + 7 < c.windowSum dw
/-- The service trap of a core's cycle, with the bundle that it stands before. -/
def State.serviceFails (s : State) (core : Nat) (sup : Bool) (t : Nat) (lits : List Nat) (slots : List (Nat × Instr)) : Option Trap :=
  (serviceTrap (s.w.services core sup t lits slots)).map (fun x =>
    { cause := x.1, info := x.2, pc := ((s.w.core core).seq sup).pc })
/-- The checks before the slots, in their order. A word that no start-map bit marks issues nothing, however it was reached (R67, R228). A cycle in which the core issues nothing has its service and its lease checked. -/
def State.precheck (s : State) (core : Nat) (sup : Bool) (t : Nat) : Option Trap :=
  let c := s.w.core core
  let g := s.w.gangAt core
  let q := c.seq sup
  let lease := if sup then none else s.w.leaseExpired core t
  if !s.goes core sup t then lease.orElse (fun _ => s.serviceFails core sup t [] [])
  else
    match q.bad with
    | some b => some { cause := 1, info := b.1, pc := b.2 }
    | none =>
      let b := s.next core sup
      let dw := b.hdr.dw
      if shut c sup q.pc then some { cause := 1, info := q.pc + 2 ^ 16, pc := q.last }
      else if !(if sup then c.hstart else c.startMap).contains q.pc then some { cause := 1, info := q.pc, pc := q.last }
      else if s.codeAt core sup q.pc != 0 then some { cause := 1, info := q.pc + 2 ^ 16, pc := q.pc }
      else if !sup && c.breakpoint == some q.pc then some { cause := 17, info := q.pc, pc := q.pc }
      else if c.energyFails (g.clsAt sup) dw then
        some { cause := 18, info := c.windowSum dw % 2 ^ 16 + dw * 2 ^ 16, pc := q.pc }
      else if !sup && g.scanBase + 2 ^ 22 < t then some { cause := 1, info := loopInfo q.pc 5, pc := q.pc }
      else
        lease.orElse (fun _ => s.serviceFails core sup t b.lits b.slots)

/-! ## Issue (R60-R62) -/

/-- The state in which a slot of a bundle runs. -/
def State.enter (s : State) (p : Plan) (pos : Nat) : State :=
  { s with w := { (s.w.atSlot p.core pos p.sup p.b.lits p.pc p.nxt p.issue p.swap (p.catches s.w)) with abort := none } }
/-- The meaning of slot operations, from the dispatcher. -/
abbrev Run := Instr → State → State

/-- What a trial of the cycle's bundles finds; the errors consumed in it leave rows of some cores poisoned. -/
inductive Trial
  | clear
  | trap (core : Nat) (t : Trap)
  | consume (core kind addr : Nat) (poison : List (Nat × List Nat))
  deriving DecidableEq, Repr
def Trial.orConsume (a b : Trial) : Trial :=
  match a, b with
  | .clear, y => y
  | x, .clear => x
  | .trap c t, _ => .trap c t
  | _, .trap c t => .trap c t
  | .consume c k a p, .consume _ _ _ q => .consume c k a (p ++ q)
/-- What a slot did, if it stopped. -/
def trialOf (s : State) : Trial :=
  match s.w.abort with
  | some (.trap c cause info pc) => .trap c { cause := cause, info := info, pc := pc }
  | some (.consume c kind addr) => .consume c kind addr [(c, (s.w.core c).poison)]
  | none => .clear
def Trial.isTrap : Trial → Bool
  | .trap .. => true
  | _ => false
/-- A double error in a register or latch that a slot reads (R340). -/
def World.readsFaulty (w : World) (core pos : Nat) (sup : Bool) (r : Reads) : Bool :=
  w.softErrs.any (fun e => e.2.1 &&
    match e.1 with
    | .sreg k n => k == core && !sup && n != 0 && r.s.contains n
    | .supReg k n => k == core && sup && n != 0 && r.s.contains n
    | .vreg k n => k == core && r.v.contains n
    | .pred k n => k == core && n != 0 && r.p.contains n
    | .scale k n => k == core && r.sc.contains n
    | .latch k p n => k == core && p == pos && r.lat.contains n
    | _ => false)
/-- Try the slots of a bundle in ascending position. Each sees the state before the issue (R60, R223) but for the engine slots, which
see those of lower members: they share queues and the array lease. -/
def trySlots (run : Run) (p : Plan) (s0 : State) : State → List (Nat × Instr) → State × Trial
  | s, [] => (s, .clear)
  | s, x :: r =>
    let a := run x.2 ((if x.1 == 14 then s else s0).enter p x.1)
    let v := (trialOf a).orConsume (if s0.w.readsFaulty p.core x.1 p.sup ((s0.w.core p.core).ctx.readsNow x.2) then
      .consume p.core 3 0 [] else .clear)
    if v.isTrap then (s, v)
    else
      let b := trySlots run p s0 (if x.1 == 14 && v == .clear then a else s) r
      (b.1, v.orConsume b.2)
/-- Try the members in ascending core id: the first trap is the one taken, else the first error consumed. -/
def tryAll (run : Run) (sup : Bool) (t : Nat) (s0 : State) : State → List Nat → Trial
  | _, [] => .clear
  | s, k :: r =>
    match s0.precheck k sup t with
    | some x => .trap k x
    | none =>
      match s0.plan k sup t with
      | none => tryAll run sup t s0 s r
      | some p =>
        let a := trySlots run p s0 s p.b.slots
        if a.2.isTrap then a.2 else a.2.orConsume (tryAll run sup t s0 a.1 r)
def isStore : Instr → Bool
  | .sts .. | .stv .. | .str .. => true
  | _ => false
/-- Run some slots of a bundle. -/
def runSlots (run : Run) (p : Plan) : State → List (Nat × Instr) → State
  | s, [] => s
  | s, x :: r => runSlots run p (run x.2 (s.enter p x.1)) r
def runAll (run : Run) (sel : Nat × Instr → Bool) : State → List Plan → State
  | s, [] => s
  | s, p :: r => runAll run sel (runSlots run p s (p.b.slots.filter sel)) r
/-- A bundle has issued: it is counted, its declared weight enters the window, and the next bundle follows where no
transfer has chosen another (R79, R128). -/
def countSlots (w : World) (core : Nat) : List (Nat × Instr) → World
  | [] => w
  | x :: r => countSlots (w.count core (0x10 + x.1) 1) core r
/-- Single errors in the words of a bundle are corrected as it is fetched (R130, R340). -/
def World.fetched (w : World) (p : Plan) : World :=
  w.fixed p.core (w.softErrs.filter (fun e => !e.2.1 && (match e.1 with
    | .word k a => k == p.core && !p.sup && p.pc ≤ a && a < p.nxt
    | .handlerWord k a => k == p.core && p.sup && p.pc ≤ a && a < p.nxt
    | _ => false))).length
def State.issued (s : State) (p : Plan) : World :=
  let w := countSlots (((((s.w.fetched p).count p.core 0x02 1).count p.core 0x08 p.b.hdr.dw).count p.core 0x09
    (Bundle.held p.b)).count p.core 0x0A p.b.slots.length) p.core p.b.slots
  let w1 := w.modCore p.core (fun c => { c with win := (p.b.hdr.dw :: c.win).take 7, dws := c.dws + p.b.hdr.dw })
  if p.b.slots.any (fun x => x.1 == 0) then w1
  else State.fall { (s.enter p 0) with w := { (s.enter p 0).w with abort := s.w.abort } } w1
def issueAll : State → List Plan → State
  | s, [] => s
  | s, p :: r => issueAll (s.withW (s.issued p)) r
/-- Restart points are captured as the state stands before their bundles (R338). DESIGN CHOICE: no rule says whether an `RP` in a handler
image is admitted there or what it captures; the verifier judges it as a task image's, and nothing is captured at it (log 69). -/
def captureAll (s : State) (scanBase : Nat) : List Plan → State
  | [] => s
  | p :: r =>
    if p.b.hdr.rp && !p.sup then
      let c := s.w.core p.core
      let shape := if isMx p.core then (s.w.die (dieOf p.core)).tshape else []
      let x : Restart := { pc := p.pc, ttc := p.issue, ctx := c.ctx, tshape := shape, scanBase := scanBase,
                           lease := (s.w.die (dieOf p.core)).lease }
      captureAll (s.withW (s.w.setCore p.core { c with rstpc := p.pc, rstvalid := true, restart := some x })) scanBase r
    else captureAll s scanBase r
/-- Every slot runs, the transfers last: operands are those before the issue, stores come after every read. -/
def perform (run : Run) (s : State) (ps : List Plan) : State :=
  let s1 := runAll run (fun x => x.1 != 0 && x.1 != 14 && !isStore x.2) s ps
  let s2 := runAll run (fun x => x.1 == 14) s1 ps
  let s3 := runAll run (fun x => isStore x.2) s2 ps
  let s4 := issueAll s3 ps
  runAll run (fun x => x.1 == 0) s4 ps
/-- A cycle in which a level of a core does not issue: a transfer bubble, a join bubble or a read beat (R59, R84). -/
def World.bubble (w : World) (core : Nat) (sup : Bool) : World :=
  let c := w.core core
  let q := c.seq sup
  let w0 := w.setCore core { c with win := (0 :: c.win).take 7 }
  if !sup && c.ctx.halted then w0
  else if 0 < q.owedT then
    ((w0.setSeq core sup { q with owedT := q.owedT - 1 }).count core 0x04 1).countDie (dieOf core) 0x09 (w.tenOf core) 1
  else if 0 < q.owedJ then
    ((w0.setSeq core sup { q with owedJ := q.owedJ - 1 }).count core 0x05 1).countDie (dieOf core) 0x09 (w.tenOf core) 1
  else (w0.setSeq core sup { q with beat := q.beat + 1 }).count core 0x03 1
def bubbles (w : World) (sup : Bool) : List Nat → World
  | [] => w
  | k :: r => bubbles (w.bubble k sup) sup r

/-! ## The end of a cycle -/

/-- Reservations end, events are counted, bulk writes have made their lines stale. -/
def flushAllCores (t : Nat) (sup : Bool) (w : World) : List Nat → World
  | [] => w
  | k :: r =>
    flushAllCores t sup (w.modCore k (fun c =>
      { c.flush with amos := c.amos.filter (fun a => !(a.sup == sup && a.issue + 2 ≤ t)) })) r
/-- A stop at a trap or an unwind: the cycle's events are counted and its deliveries have been judged. -/
def flushOnly (w : World) : List Nat → World
  | [] => w
  | k :: r => flushOnly (w.modCore k Core.flush) r
/-- Where a cycle's cause of a low clock is counted (R357). -/
def thrIndex (why : Nat) : Nat := if why == 7 then 0 else why - 1
/-- The core event of such a cycle. DESIGN CHOICE: R128 does not say which of 0x30 to 0x32 counts a cycle with several causes; the
one that `GCLK.WHY` names counts it, the safe table's under 0x31 and a throttle unit's under none. Nor does it say whether the cycles of a handler, a hold or a restart gap
count: only those in which TTC advances do (log 56). -/
def coreThr (why : Nat) : Nat := if why == 5 then 0x30 else if why == 6 then 0x32 else 0x31
def countTtc (why : Nat) (w : World) : List Nat → World
  | [] => w
  | k :: r =>
    let w1 := w.count k 0x01 1
    countTtc why (if why == 0 || why == 4 then w1 else w1.count k (coreThr why) 1) r
/-- The gang's own books for a cycle on TTC: the clock, the yield point, a pre-emption to come. -/
def Gang.advance (g : Gang) (yp : Bool) (now : Nat) : Gang :=
  let g1 := { g with ttc := g.ttc + 1, cycles := g.cycles + 1, wallRun := g.wallRun + g.period,
                     clocks := fput g.clocks g.khz (fget g.clocks 0 g.khz + 1),
                     thr := if g.why == 0 then g.thr else fput g.thr (thrIndex g.why) (fget g.thr 0 (thrIndex g.why) + 1) }
  if yp then
    let g2 := g1.takeClass
    match g2.stat with
    | .running => if g2.preempt then { g2 with stat := .held [] now } else g2
    | _ => g2
  else g1
/-- Parts that feed a line committed in the next cycle have been read; a board has its answer, a watched slot has
passed. -/
def nextParts (f : Flight) (t : Nat) : List Nat :=
  match f.op with
  | .eng c =>
    if isSpd c.dst && c.sends && !f.held then
      ((c.parted.filter (fun x => x.seg.s.isSome && f.missing.contains x.part &&
        (match f.commitAt f.lineCore (lineOfAddr x.seg.d) with | some u => u ≤ t + 1 | none => false))).map (fun x => x.part)).dedup
    else []
  | _ => []
def State.lookAhead (gid t : Nat) (s : State) : Act :=
  let fs := s.w.flights.filter (fun f => f.mine gid false)
  s.inOrder ((fs.map (fun f => (nextParts f t).map (fun k => State.performId k f.id))).flatten ++
    [fun x => only (carForces t x.w (fs.map (fun f => f.id)))])

/-! ## One cycle of a running gang -/

/-- The rows that a cycle serves by reconstruction for its bundles, and an error that a command's read meets in one (R173, R178); what
it serves without them has been served as it fell due. -/
def rebuildMembers (s : State) (sup : Bool) (t : Nat) : State → List Nat → State × Trial
  | a, [] => (a, .clear)
  | a, k :: r =>
    let all := s.servicesNow k sup t
    let own := if sup then [] else s.w.ownServices k false t
    let l := all.filter (fun y => !own.contains y)
    let b := rebuildMembers s sup t (a.withW ((rebuildAll k a.w l).rebuilds k all)) r
    (b.1, match s.w.badRebuilds k l with
      | row :: _ => .consume (((s.w.readerOf k row t).map (fun f => f.core)).getD k) 1 (row * 256) []
      | [] => b.2)
/-- Rows that are poisoned in another world stay so. -/
def keepPoison (a w : World) : List Nat → World
  | [] => w
  | k :: r => keepPoison a (w.modCore k (fun c => { c with poison := (a.core k).poison })) r
/-- A cycle's accesses are kept to its end, for the sweep (R177). -/
def keepAccesses (s : State) (sup : Bool) (t : Nat) (w : World) : List Nat → World
  | [] => w
  | k :: r =>
    let x := s.slotsNow k sup t
    let l := s.w.accesses k sup t x.1 x.2 ++ (s.w.core k).reservations sup t
    keepAccesses s sup t (w.modCore k (fun c => { c with accq := c.accq ++ l })) r
/-- A class change that has waited for a millisecond takes effect in a cycle that issues a bundle, and the clock with it (R80). -/
def World.classTimed (w : World) (gid : Nat) : World :=
  if (w.gang gid).classLate w.now then
    ((w.modGang gid (fun g => g.takeLate w.now)).reclock gid).modGang gid (fun g => { g with nextAt := w.now + g.period })
  else w
/-- What stops a cycle: a trap leaves nothing of it but what fell due; an error consumed leaves its rows poisoned. -/
def stopCycle (cores : List Nat) (a : World) (s : State) (x : Trial) : State :=
  match x with
  | .trap k x => s.withW (flushOnly (s.w.takeTrap k x.cause x.info x.pc) cores)
  | .consume k kind addr ps =>
    let w := ps.foldl (fun b e => b.modCore e.1 (fun c => { c with poison := e.2.foldl sadd c.poison })) (keepPoison a s.w cores)
    s.withW (flushOnly (World.consume s.mem w k kind addr) cores)
  | .clear => s
/-- The bundles of a cycle issue, or the trap or the consumption that stops them is handled: it leaves the cycle as `s0`, from which the
reads of the cycle led to `s`. -/
def issueCycle (run : Run) (gid t : Nat) (s0 s : State) : State :=
  let g := s.w.gang gid
  let ms := inIdOrder g.members
  let rb := rebuildMembers s false t s ms
  match rb.2.orConsume (tryAll run false t rb.1 rb.1 ms) with
  | .clear =>
    let plans := ms.filterMap (fun k => s.plan k false t)
    let idle := ms.filter (fun k => !s.ready k false)
    let s1 := if plans.isEmpty then rb.1 else rb.1.withW (rb.1.w.classTimed gid)
    let s2 := perform run (captureAll s1 g.scanBase plans) plans
    let s3 := s2.does (fun x => x.inOrder (ms.map (fun k => State.sealCycle k false t) ++ [State.lookAhead gid t]))
    let yp := plans.any (fun p => p.b.hdr.yp)
    let w := keepAccesses s false t (countTtc (s1.w.gang gid).why (bubbles s3.w false idle) ms) ms
    s3.withW (flushAllCores t false (w.modGang gid (fun g => g.advance yp w.now)) ms)
  | x => stopCycle ms rb.1.w s0 x
/-- A cycle on TTC: what falls due, then a trap of it or the issue. DESIGN CHOICE: neither R14 nor R336 says whether the deliveries of
cycle t that are there commit before a LATE of t is taken, or when t runs again; they commit before it (log 18). -/
def runningCycle (run : Run) (gid : Nat) (s : State) : State :=
  let g := s.w.gang gid
  let t := g.ttc
  let s1 := s.does (State.fallDue gid false g.members t)
  let s2 := s1.does (State.sourceReads gid g.members t)
  match (s2.w.gang gid).nextEvent with
  | some e =>
    let s3 := if (s1.w.gang gid).events.contains e then s1 else s2
    s3.withW (flushOnly (World.takeEvent s3.mem s3.w gid e) g.members)
  | none => if (s1.w.gang gid).stat == .ended then s1 else issueCycle run gid t s1 s2

/-! ## One cycle of a supervisor handler (R334, R336) -/

/-- A handler's cycle. DESIGN CHOICE: R79 does not say whether the cycles in which RFT or RSTRT waits count in the guard's window; they
advance the handler's clock and leave the window as it is (log 57). Nor does a rule say whether a `YP` on a LEND bundle of a handler image
is a yield point: the verifier admits it, and no class change takes effect at it (log 69). -/
def handlerCycle (run : Run) (gid core : Nat) (s : State) : State :=
  let h := (s.w.gang gid).hcyc
  let s1 := s.does (State.fallDue gid true [core] h)
  let wait (a : State) : State :=
    a.withW (flushAllCores h true (a.w.modGang gid (fun g => if handling g then { g with hcyc := g.hcyc + 1 } else g)) [core])
  match (s1.w.gang gid).nextOwn with
  | some e => s1.withW (flushOnly (World.takeOwn s1.mem s1.w gid core e) [core])
  | none =>
    let rb := rebuildMembers s1 true h s1 [core]
    match tryAll run true h rb.1 rb.1 [core] with
    | .clear =>
      let ends (a : State) : State := (a.withW (keepAccesses s1 true h a.w [core])).does (State.sealCycle core true h)
      match s1.plan core true h with
      | none => wait (ends (if s1.leaving core true h then rb.1 else rb.1.withW (rb.1.w.bubble core true)))
      | some p => wait (ends (perform run (rb.1.withW (rb.1.w.classTimed gid)) [p]))
    | x => stopCycle [core] rb.1.w s1 x
/-- A cycle of a gang that runs or handles a trap, on its clock. -/
def gangCycle (run : Run) (gid : Nat) (s : State) : State :=
  let w := s.w.reclock gid
  let s1 := s.withW (w.modGang gid (fun g => { g with nextAt := w.now + g.period }))
  match (s1.w.gang gid).stat with
  | .running => runningCycle run gid s1
  | .handler k => handlerCycle run gid k s1
  | _ => s1

/-! ## The steps of a core without an encoding -/

/-- The bundle at the slot being issued. -/
def State.here (s : State) : Bundle := s.bundleAt s.w.cur.core s.w.cur.sup s.w.cur.pc
def State.herePlan (s : State) : Plan :=
  { core := s.w.cur.core, sup := s.w.cur.sup, b := s.here, pc := s.w.cur.pc, issue := s.w.cur.issue }
/-- A bundle without slots issues, with the weight that its header declares. -/
def emptyBundleAct (s : State) : World := if s.here.slots.isEmpty then s.issued s.herePlan else s.w
def execEmptyBundle (s : State) : Host.Outcome State Fault Refusal := done s (only (emptyBundleAct s))
def execZeroWeightCycle (s : State) : Host.Outcome State Fault Refusal :=
  done s (only (s.w.bubble s.w.cur.core s.w.cur.sup))
/-- Fall-through out of an area. -/
def areaFallAct (s : State) : World :=
  if areaOf s.w.cur.nxt != areaOf s.w.cur.pc || 65536 ≤ s.w.cur.nxt then s.fall s.w else s.w
def execAreaFallThrough (s : State) : Host.Outcome State Fault Refusal := done s (only (areaFallAct s))
/-- The trap in the place of a bad target. -/
def misdirectedAct (s : State) : World :=
  let k := s.w.cur.core
  match ((s.w.core k).seq s.w.cur.sup).bad with
  | some b => if s.ready k s.w.cur.sup then s.w.takeTrap k 1 b.1 b.2 else s.w
  | none => s.w
def execMisdirectedTransfer (s : State) : Host.Outcome State Fault Refusal := done s (only (misdirectedAct s))
/-- TRAPINST is taken at issue + 1, with `TRAPPC` the bundle after. -/
def trapinstAct (core : Nat) (s : State) : World :=
  match (s.w.gangAt core).nextEvent with
  | some e => if e.cause == 15 && e.core == core then World.takeEvent s.mem s.w (s.w.gangOf core) e else s.w
  | none => s.w
def execTrapinst (core : Nat) (s : State) : Host.Outcome State Fault Refusal := done s (only (trapinstAct core s))
/-- The operations that can be late. -/
def canBeLate : FOp → Bool
  | .car _ => false
  | op => !arrayOp op
/-- An operation's result does not come: it is held back, and at its posted time the cycle raises LATE, in its turn among the traps
that are due then (R381). -/
def lateAct (core id : Nat) (s : State) : World :=
  match s.w.flight? id with
  | some f => if f.core != core || !canBeLate f.op then s.w else s.w.setFlight { f with held := true, retryAt := none }
  | none => s.w
def execLate (core id : Nat) (s : State) : Host.Outcome State Fault Refusal := done s (only (lateAct core id s))
/-- A result reaches its destination, there to wait for its posted time. -/
def arrivalAct (id : Nat) (s : State) : Act :=
  match s.w.flight? id with
  | some f =>
    if f.retryAt.isSome then only s.w
    else s.inOrder [fun t => only (t.w.setFlight { f with held := false }), State.forceId id]
  | none => only s.w
def execResultArrival (id : Nat) (s : State) : Host.Outcome State Fault Refusal := done s (arrivalAct id s)
/-- An array lease kept for its full duration is taken away with an MLEASE trap. -/
def leaseExpiryAct (die : Nat) (s : State) : World :=
  match (s.w.die die).lease.holder with
  | some k =>
    match s.w.leaseExpired k (s.w.gangAt k).ttc with
    | some x => if (s.w.gangAt k).stat == .running then s.w.takeTrap k x.cause x.info x.pc else s.w
    | none => s.w
  | none => s.w
def execLeaseDurationExpiry (die : Nat) (s : State) : Host.Outcome State Fault Refusal := done s (only (leaseExpiryAct die s))
/-- The lowest member about to issue beyond the limit between scan gaps takes ILLEGAL. -/
def scanLimitAct (gid : Nat) (s : State) : World :=
  let g := s.w.gang gid
  if g.stat == .running && g.scanBase + 2 ^ 22 < g.ttc then
    match g.members.find? (fun k => s.ready k false) with
    | some k =>
      let pc := (s.w.core k).ctx.seq.pc
      s.w.takeTrap k 1 (loopInfo pc 5) pc
    | none => s.w
  else s.w
def execScanLimitExpiry (gang : Nat) (s : State) : Host.Outcome State Fault Refusal := done s (only (scanLimitAct gang s))

end Sys2Proof.Machine
end

