-- ==== Sys2Proof/Machine/Walk.lean ====
section
/-! DEFINITION. The hub's walker: the two stages of translation, and the runs of a range (R193-R198, R204, R263, R361, R369). -/
namespace Sys2Proof.Machine
open Sys2Proof

/-! ## Table entries (R194) -/

/-- Page sizes of the four levels, as shifts. -/
def levels : List Nat := [39, 30, 21, 16]
def pteLeaf (e : Nat) : Bool := !bitOf 1 e
def ptePa (e : Nat) : Nat := field 51 16 e * 2 ^ 16
/-- An entry that the walker treats as invalid: `V` = 0, a reserved bit, a leaf at level 1, a table at level 4, or a leaf
not aligned to its page. -/
def pteBad (shift e : Nat) : Bool :=
  !bitOf 0 e || field 15 12 e != 0 || field 63 52 e != 0 || (pteLeaf e && (shift == 39 || ptePa e % 2 ^ shift != 0)) ||
    (!pteLeaf e && shift == 16)
def pteIndex (shift va : Nat) : Nat := va / 2 ^ shift % (if shift == 16 then 32 else 512)
/-- A leaf: its page's output address and size, rights in bits 0 to 3 (RD, WR, AT, CB), `PLACE`, `HOME`. -/
structure Leaf where
  pa : Nat
  shift : Nat
  rights : Nat
  place : Nat
  home : Nat
  deriving DecidableEq, Repr
def leafOf (shift e : Nat) : Leaf :=
  { pa := ptePa e, shift := shift, rights := field 5 2 e, place := field 8 6 e, home := field 11 9 e }
def Leaf.out (l : Leaf) (a : Nat) : Nat := l.pa + a % 2 ^ l.shift
/-- A right that is asked and not granted. -/
def lacks (need have_ : Nat) : Bool := (need &&& have_) != need

/-! ## The walks (R194, R195) -/

/-- Stage 2 of an address, from a table at a machine address. DESIGN CHOICE: no rule says what an intermediate address with any of bits
[51:48] set, or a table root that is not on a 64 KiB boundary, does to a walk: the bits are not looked at, and the root is used as it
stands (log 70). -/
def walk2 (m : Mems) (ia : Nat) : List Nat → Nat → Option Leaf
  | [], _ => none
  | shift :: r, table =>
    let e := m.num .glb (table + 8 * pteIndex shift ia) 8
    if pteBad shift e then none
    else if pteLeaf e then some (leafOf shift e)
    else walk2 m ia r (ptePa e)
/-- Stage 1: a leaf, a fault of its own, a stage-2 fault at the intermediate address of an entry, or a stage-2 leaf of
placement 1xx under one. -/
inductive Walk1
  | leaf (l : Leaf)
  | fault
  | stage2 (ia : Nat)
  | badPlace
  deriving DecidableEq, Repr
def walk1 (m : Mems) (s2 va : Nat) : List Nat → Nat → Walk1
  | [], _ => .fault
  | shift :: r, table =>
    let ia := table + 8 * pteIndex shift va
    match walk2 m ia levels s2 with
    | none => .stage2 ia
    | some l =>
      let e := m.num .glb (l.out ia) 8
      if 4 ≤ l.place then .badPlace
      else if pteBad shift e then .fault
      else if pteLeaf e then .leaf (leafOf shift e)
      else walk1 m s2 va r (ptePa e)

/-- The outcome of translating an address. -/
inductive Trans
  | page (pa place home : Nat)
  | fault
  | stage2 (ia : Nat)
  | badPlace
  deriving DecidableEq, Repr
/-- A tenant's record (R358): `QW` is 1 where none was written. -/
def World.tenRec (w : World) (ten : Nat) : Nat := (fget w.hub.tenants 2 ten).toNat
/-- A placement that a launch may have: not 1xx, and a pod window page by a valid route of the tenant (R195, R369). -/
def World.placeOk (w : World) (ten pa place : Nat) : Bool :=
  place < 4 && (!bitOf 51 pa || (place == 3 && (w.route (field 50 46 pa)).valid && (w.route (field 50 46 pa)).ten == ten))
/-- Translation of a tenant's virtual address with the rights asked of both stages. DESIGN CHOICE: R195 does not say what a declared range
or an image address with any of bits [63:48] set does: it has no entry at stage 1, so the launch fails with `S1FAULT` (log 70). -/
def State.translate (s : State) (ten need va : Nat) : Trans :=
  let r := s.w.tenRec ten
  let s2 := field 191 128 r
  if 2 ^ 48 ≤ va then .fault
  else
    match walk1 s.mem s2 va levels (field 127 64 r) with
    | .fault => .fault
    | .stage2 ia => .stage2 ia
    | .badPlace => .badPlace
    | .leaf a =>
      if lacks need a.rights then .fault
      else
        match walk2 s.mem (a.out va) levels s2 with
        | none => .stage2 (a.out va)
        | some b =>
          if lacks need b.rights then .stage2 (a.out va)
          else if s.w.placeOk ten (b.out (a.out va)) b.place then .page (b.out (a.out va)) b.place b.home
          else .badPlace

/-! ## Ranges and runs (R195, R198, R204) -/

/-- A page of a range: virtual and machine address of its first byte in the range, and its placement. -/
structure Page where
  va : Nat
  pa : Nat
  n : Nat
  place : Nat
  home : Nat
  deriving DecidableEq, Repr
/-- The outcome of preparing a range: its pages, a failure with its code and `INFO`, or a stage-2 fault to wait for. -/
inductive Prep (α : Type)
  | ok (x : α)
  | fail (code info : Nat)
  | wait (ia va : Nat)
  deriving DecidableEq, Repr
/-- The pieces of a range that multiples of `g` cut it into: first byte and length. -/
def piecesOf (g start n : Nat) : List (Nat × Nat) :=
  (List.range ((start + n + g - 1) / g - start / g)).map (fun i =>
    let a := max start ((start / g + i) * g)
    (a, min (start + n) ((start / g + i + 1) * g) - a))
/-- The pieces of a range, page by page. -/
def pieces64 (start n : Nat) : List (Nat × Nat) := piecesOf 65536 start n
def State.walkPages (s : State) (ten need : Nat) : List (Nat × Nat) → Prep (List Page)
  | [] => .ok []
  | x :: r =>
    match s.translate ten need x.1 with
    | .fault => .fail 1 x.1
    | .stage2 ia => .wait ia x.1
    | .badPlace => .fail 3 0
    | .page pa place home =>
      match s.walkPages ten need r with
      | .ok l => .ok ({ va := x.1, pa := pa, n := x.2, place := place, home := home } :: l)
      | e => e
/-- A page joins the run before it where it goes on in virtual and machine addresses with the same placement. -/
def addPage (ten rights : Nat) (l : List Rle) (p : Page) : List Rle :=
  let fresh : Rle :=
    { vbase := p.va / 65536, pages := 1, pbase := p.pa / 65536, rd := bitOf 0 rights, wr := bitOf 1 rights,
      at_ := bitOf 2 rights, cb := bitOf 3 rights, place := p.place, home := p.home, lid := 0, ten := ten, gang := 4096 }
  match l with
  | e :: r =>
    if e.vbase + e.pages == p.va / 65536 && e.pbase + e.pages == p.pa / 65536 && e.place == p.place && e.home == p.home then
      { e with pages := e.pages + 1 } :: r
    else fresh :: l
  | [] => [fresh]
def runsOf (ten rights : Nat) (ps : List Page) : List Rle := (ps.foldl (addPage ten rights) []).reverse
/-- Some granule's home is down (R204). -/
def World.runDown (w : World) (e : Rle) : Bool :=
  (List.range 9).any (fun d => !(w.die d).up && (e.downAt w.hub d).isSome)
/-- Walk a range, then check its homes. -/
def State.prepRange (s : State) (ten need start n : Nat) : Prep (List Page) :=
  match s.walkPages ten need (pieces64 start n) with
  | .ok ps => if (runsOf ten need ps).any s.w.runDown then .fail 11 0 else .ok ps
  | e => e
/-- Ranges in order: start, length, rights. -/
def State.prepAll (s : State) (ten : Nat) : List (Nat × Nat × Nat) → Prep (List Rle)
  | [] => .ok []
  | x :: r =>
    match s.prepRange ten x.2.2 x.1 x.2.1 with
    | .fail c i => .fail c i
    | .wait ia va => .wait ia va
    | .ok ps =>
      match s.prepAll ten r with
      | .ok l => .ok (runsOf ten x.2.2 ps ++ l)
      | e => e

/-! ## What the sorting office reads and writes -/

/-- The home of a machine address, as the leases in force place it; otherwise by set A (log 21). -/
def World.homeOfPa (w : World) (pa : Nat) : Nat :=
  match ((w.hub.tasks.map (fun t => t.runs)).flatten).find? (fun e => e.pbase * 65536 ≤ pa && pa < (e.pbase + e.pages) * 65536) with
  | some e => homeOf w.hub e.place e.home pa
  | none => setMember w.hub.iseta pa
/-- The number of 64-byte blocks that some bytes touch. -/
def blockCount (a n : Nat) : Nat := if n == 0 then 0 else (a + n + 63) / 64 - a / 64
/-- Requests for `n` blocks from the hub arrive at a home: counted for the tenant, with a flit each way (R130, R235). -/
def World.arrived (w : World) (ten home n : Nat) : World :=
  if home == 8 then w.countDie 8 0x01 ten n
  else ((w.countDie home 0x02 ten n).countDie home 0x0D ten n).countDie home 0x0C ten n
/-- The office's requests for some machine bytes, counted granule by granule for the tenant that they serve (log 10). -/
def World.officeReq (w : World) (ten pa n : Nat) : World :=
  (piecesOf 4096 pa n).foldl (fun a x =>
    let home := a.homeOfPa x.1
    if (a.die home).up then a.arrived ten home (blockCount x.1 x.2) else a) w
def World.officeReqs (w : World) (ten : Nat) (l : List (Nat × Nat)) : World := l.foldl (fun a x => a.officeReq ten x.1 x.2) w
/-- The machine stretches of some pages. -/
def pageSpans (ps : List Page) : List (Nat × Nat) := ps.map (fun p => (p.pa, p.n))

/-- Bytes at a machine address; poisoned bytes are free (log 3). -/
def State.officeBytes (s : State) (pa n : Nat) : List Byte :=
  if s.w.poisonedAt pa n then
    (List.range n).map (fun i => if s.w.gpoison.contains (pa + i) then Config.freeByte s.w.draws (pa + i) else s.mem.byte .glb (pa + i))
  else s.mem.bytes .glb pa n
def State.pageBytes (s : State) (ps : List Page) : List Byte := (ps.map (fun p => s.officeBytes p.pa p.n)).flatten
/-- The machine stretches of a virtual range under some runs. -/
def stretches (rs : List Rle) (va n : Nat) : List (Nat × Nat) :=
  (pieces64 va n).filterMap (fun x => (rs.find? (fun e => e.covers x.1)).map (fun e => (e.pa x.1, x.2)))
/-- The office's requests for the bytes of a virtual range under some runs. -/
def World.runReqs (w : World) (ten : Nat) (rs : List Rle) (va n : Nat) : World := w.officeReqs ten (stretches rs va n)
def State.readRuns (s : State) (rs : List Rle) (va n : Nat) : List Byte :=
  ((stretches rs va n).map (fun x => s.officeBytes x.1 x.2)).flatten
/-- Bytes written granule by granule: what goes to a home that is down is discarded (R204). -/
def writeGranules (rs : List Rle) (bs : List Byte) : List (Nat × Nat) → List (State → Act)
  | [] => []
  | x :: r =>
    (fun t => match rs.find? (fun e => e.covers x.1) with
      | some e =>
        let home := homeOf t.w.hub e.place e.home (e.pa x.1)
        if (t.w.die home).up then State.glbWrite t (t.w.arrived e.ten home (blockCount (e.pa x.1) x.2)) (e.pa x.1) (bs.take x.2)
        else only t.w
      | none => only t.w) :: writeGranules rs (bs.drop x.2) r
def State.writeRuns (rs : List Rle) (va : Nat) (bs : List Byte) (s : State) : Act :=
  s.inOrder (writeGranules rs bs (piecesOf 4096 va bs.length))

/-- The office's request for a launch record that it can read. -/
def State.recordReq (s : State) (ten addr : Nat) : World :=
  match s.prepRange ten 1 addr 256 with
  | .ok ps => s.w.officeReqs ten (pageSpans ps)
  | _ => s.w
/-- A launch record as the office finds it: its bits, a launch failure, or a stage-2 fault (R263, R361). -/
def State.peek (s : State) (ten addr : Nat) : Prep Nat :=
  if addr % 256 != 0 then .fail 1 addr
  else
    match s.prepRange ten 1 addr 256 with
    | .ok ps => .ok (leNat (s.pageBytes ps))
    | .fail c i => .fail c i
    | .wait ia va => .wait ia va
/-- Where a completion record can be written, and its home (R275): a home's bytes, with the right WR. Whether that home is up is for the
write to find. -/
def State.crecAt (s : State) (ten va : Nat) : Option (Nat × Nat) :=
  if va % 128 != 0 then none
  else
    match s.walkPages ten 2 (pieces64 va 128) with
    | .ok [p] => if bitOf 51 p.pa then none else some (p.pa, homeOf s.w.hub p.place p.home p.pa)
    | _ => none

end Sys2Proof.Machine
end

