-- ==== Sys2Proof/Machine/Office.lean ====
section
/-! DEFINITION. The sorting office, from admission to dispatch (R101, R124, R171, R199, R202, R228, R233, R236, R248-R250,
R262-R268, R334). A task is named by its posting number. -/
namespace Sys2Proof.Machine
open Sys2Proof

/-! ## Tasks -/

def World.taskBy (w : World) (id : Nat) : Option Task := w.hub.tasks.find? (fun t => t.order == id)
def World.setTask (w : World) (t : Task) : World := w.modTask (fun x => x.order == t.order) (fun _ => t)
/-- The task is put behind the others: tasks admitted stand in the order of their admission. -/
def World.moveLast (w : World) (t : Task) : World :=
  w.modHub (fun h => { h with tasks := h.tasks.filter (fun x => x.order != t.order) ++ [t] })
/-- Fields of the launch record (R263). -/
def Task.bits (t : Task) (hi lo : Nat) : Nat := field hi lo t.lrec.toNat
def Task.nmem (t : Task) : Nat := t.bits 109 104
def Task.save (t : Task) : Nat := t.bits 255 192
def Task.allow (t : Task) : Nat := t.bits 447 384
def Task.wsl (t : Task) (die : Nat) : Nat := t.bits (455 + 8 * die) (448 + 8 * die)
def Task.arg (t : Task) (k : Nat) : Nat := t.bits (575 + 64 * k) (512 + 64 * k)
/-- Act on a task at a stage. -/
def State.atStage (s : State) (id : Nat) (st : Stage) (f : Task → Act) : Act :=
  match s.w.taskBy id with
  | some t => if t.stage == st then f t else only s.w
  | none => only s.w
/-- A launch fails (R265, R276). -/
def World.failLaunch (w : World) (t : Task) (code vcode info : Nat) : World :=
  w.setTask { t with stage := .ending, kind := 1, code := code, vcode := vcode, info := info }
/-- A stage-2 fault goes to the hypervisor's fault queue: its addresses and the task (R195). -/
def World.stage2Fault (w : World) (t : Task) (ia va : Nat) : World :=
  ((w.setTask { t with s2wait := some (ia, va) }).modHub (fun h => { h with faults := h.faults ++ [(ia, va, t.order)] })).answer
    (.stage2 ia va t.order)

/-! ## Eligibility and the round-robin (R264) -/

def predsOf (v : Nat) : List Nat := [field 287 256 v, field 319 288 v, field 351 320 v, field 383 352 v].filter (fun p => p != 0)
/-- No pending, running or pre-empted task of the tenant has a number. -/
def World.gone (w : World) (ten no : Nat) : Bool := !(w.hub.tasks.any (isOpen ten no))
/-- A record that has been taken from its queue, and whose predecessors are complete. -/
def World.ready? (w : World) (t : Task) : Bool := t.stage == .queued && t.seen && (predsOf t.lrec.toNat).all (w.gone t.ten)
/-- Records that are eligible are marked with the time they became so. -/
def World.markEligible (w : World) : World :=
  w.modHub (fun h => { h with tasks := h.tasks.map (fun t =>
    if t.stage == .queued then { t with eligible := if w.ready? t then some (t.eligible.getD w.now) else none } else t) })
/-- The `PRIO` of a record; of one that has not been read, that of its queue. -/
def Task.level (t : Task) : Nat := if t.seen then t.bits 98 96 else t.prio
/-- The effective priority: one more for each full 10 ms. -/
def Task.effective (t : Task) (now : Nat) : Nat :=
  match t.eligible with
  | some e => min 7 (t.level + (now - e) / 10000000000000)
  | none => t.level
def isEligible (t : Task) : Bool := t.stage == .queued && t.eligible.isSome
def World.eligibleAt (w : World) (p : Nat) : List Nat :=
  ((w.hub.tasks.filter (fun t => isEligible t && t.effective w.now == p)).map (fun t => t.ten)).foldl sadd []
def World.weight (w : World) (ten : Nat) : Nat := max 1 (field 8 1 (w.tenRec ten))
/-- Key and value of a count: twice the count, and whether the tenant had an eligible record at the priority. -/
def rrKey (p ten : Nat) : Nat := p * 65536 + ten
def Hub.rrCount (h : Hub) (p ten : Nat) : Nat := fget h.rr 0 (rrKey p ten) / 2
/-- The least `n / q` of some tenants as a pair, if there is one. -/
def leastShare (w : World) (p : Nat) : List Nat → Option (Nat × Nat)
  | [] => none
  | t :: r =>
    let n := w.hub.rrCount p t
    let q := w.weight t
    match leastShare w p r with
    | some x => if n * x.2 ≤ x.1 * q then some (n, q) else some x
    | none => some (n, q)
/-- A tenant that comes to have an eligible record has its count raised. -/
def World.raiseCount (w : World) (p : Nat) (others : List Nat) (ten : Nat) : Nat :=
  let n := w.hub.rrCount p ten
  if fget w.hub.rr 0 (rrKey p ten) % 2 == 1 then n
  else
    match leastShare w p (others.filter (fun t => t != ten)) with
    | some x => max n (ceilDiv (w.weight ten * x.1) x.2)
    | none => n
def World.refreshAt (w : World) (p : Nat) : World :=
  let tens := w.eligibleAt p
  let old := w.hub.rr.filter (fun e => e.1 / 65536 == p)
  let rest := w.hub.rr.filter (fun e => e.1 / 65536 != p)
  if tens.isEmpty then w.modHub (fun h => { h with rr := rest })
  else
    let kept := (old.filter (fun e => !tens.contains (e.1 % 65536))).map (fun e => (e.1, e.2 / 2 * 2))
    let news := tens.map (fun t => (rrKey p t, 2 * w.raiseCount p tens t + 1))
    w.modHub (fun h => { h with rr := (kept ++ news).foldl (fun m e => fput m e.1 e.2) rest })
def refreshAll (w : World) : List Nat → World
  | [] => w
  | p :: r => refreshAll (w.refreshAt p) r
/-- Whether a record is served before another. -/
def World.before (w : World) (a b : Task) : Bool :=
  let pa := a.effective w.now
  let pb := b.effective w.now
  if pa != pb then pb < pa
  else if a.ten == b.ten then a.postedBefore b
  else
    let x := w.hub.rrCount pa a.ten * w.weight b.ten
    let y := w.hub.rrCount pa b.ten * w.weight a.ten
    if x != y then x < y else a.ten < b.ten
def firstServed (w : World) : List Task → Option Task
  | [] => none
  | t :: r =>
    match firstServed w r with
    | some x => if w.before x t then some x else some t
    | none => some t
def World.nextRecord (w : World) : Option Task := firstServed w (w.hub.tasks.filter isEligible)

/-! ## Admission (R263, R264) -/

/-- A reserved bit that is not zero, a field outside its range, or an `ALLOW` bit of an id that names no core (R8). -/
def recBad (v : Nat) : Bool :=
  (List.range 8).any (fun d => 64 < field (455 + 8 * d) (448 + 8 * d) v) ||
    (List.range 64).any (fun k => bitOf (384 + k) v && !coreExists k) ||
  field 103 99 v != 0 || field 111 110 v != 0 || field 127 117 v != 0 || field 2047 1525 v != 0 ||
    field 63 0 v % 64 != 0 || field 109 104 v == 0 || 48 < field 109 104 v || field 116 112 v == 0 || 16 < field 116 112 v ||
    field 191 128 v % 128 != 0 || field 255 192 v % 65536 != 0 || field 1503 1472 v == 0 || 2 ^ 20 < field 1524 1504 v
/-- The number is that of another pending, running or pre-empted task; of two queued records the earlier has it. -/
def World.duplicate (w : World) (t : Task) (no : Nat) : Bool :=
  w.hub.tasks.any (fun x => x.order != t.order && isOpen t.ten no x && (x.stage != .queued || x.seen || x.postedBefore t))
/-- The `KIND` of a complete predecessor in the tenant's outcome table, else 0. -/
def World.outcomeOf (w : World) (ten p : Nat) : Nat :=
  match (fget w.hub.outcomes [] ten).find? (fun e => e.1 == p) with
  | some e => e.2
  | none => 0
/-- A predecessor ended with a `KIND` other than 0. -/
def badKind (l : List (Nat × Nat)) : Bool := l.any (fun e => e.2 != 0)
/-- The task with its record as read; the outcomes of predecessors that are complete already are looked up. -/
def State.withRecord (s : State) (t : Task) (v : Nat) : Task :=
  let seen := ((predsOf v).filter (s.w.gone t.ten)).map (fun p => (p, s.w.outcomeOf t.ten p))
  { t with lrec := BitVec.ofNat 2048 v, no := field 1503 1472 v, crecPa := s.crecAt t.ten (field 191 128 v), seen := true,
           predsSeen := seen, predf := badKind seen }
/-- A record is taken from its queue: read once, and checked. It is then eligible, or held aside (log 42). -/
def takeRecord (s : State) (t : Task) : World :=
  match s.peek t.ten t.addr with
  | .wait ia va => s.w.stage2Fault t ia va
  | .fail c info => s.w.failLaunch t c 0 (if c == 1 then info else 0)
  | .ok v =>
    let x := s.withRecord t v
    let w := s.recordReq t.ten t.addr
    if recBad v then w.failLaunch x 14 0 0
    else if s.w.duplicate t x.no then w.failLaunch x 15 0 0
    else w.setTask x
def takeAll (m : Mems) (w : World) : List Task → World
  | [] => w
  | t :: r => takeAll m (takeRecord { w := w, mem := m } t) r
/-- A record in its queue that the walker can read. -/
def untaken (t : Task) : Bool := t.stage == .queued && !t.seen && t.s2wait.isNone
/-- Eligibility and the counts of the round-robin follow time and completions. -/
def World.tended (w : World) : World := refreshAll w.markEligible (List.range 8)
/-- The queues and the round-robin as posts, time and completions have left them. -/
def State.refreshed (s : State) : World :=
  World.tended (takeAll s.mem s.w (s.w.hub.tasks.filter untaken))
/-- Ageing of a record: its eligibility and the counts follow WTC. -/
def execPriorityAging (task : Nat) (s : State) : Host.Outcome State Fault Refusal :=
  done s (only (if (s.w.taskBy task).isSome then s.refreshed else s.w))
/-- The next eligible record is admitted. -/
def admitAct (s : State) : World :=
  let w := s.refreshed
  match w.nextRecord with
  | none => w
  | some t =>
    let p := t.effective w.now
    let w1 := w.modHub (fun h => { h with rr := fput h.rr (rrKey p t.ten) (fget h.rr 0 (rrKey p t.ten) + 2) })
    w1.moveLast { t with stage := .admitted, predf := badKind t.predsSeen }
def execAdmitTask (s : State) : Host.Outcome State Fault Refusal := done s (only (admitAct s))

/-! ## Residency (R195, R198, R236, R249, R250, R270) -/

/-- The ranges that a launch leases: each `.lease`, then the save area. -/
def Task.ranges (t : Task) (im : Image) : List (Nat × Nat × Nat) :=
  im.leases.map (fun l => (l.va, l.size, l.rights % 16)) ++
    (if t.save == 0 then []
     else [(t.save, 4194304 * t.nmem + 34603008 * min 4 (im.members.filter (fun m => m.mx)).length, 3)])
/-- An entry that a task holds, or that residency has assigned. -/
def Group.used (g : Group) : Bool := !g.holders.isEmpty || !g.claims.isEmpty
def groupCode (w : World) (ten : Nat) (g : GroupDecl) : Nat :=
  let x := w.group (g.id % 256)
  if x.used && x.ten != ten then 6 else if g.members.isNone && x.holders.isEmpty then 8 else 0
def barCode (w : World) (ten : Nat) (b : BarDecl) : Nat :=
  let x := w.barrier (b.id % 4096)
  if x.st == .free then 0 else if x.ten != ten then 10 else if x.exp0 != b.exp || x.grp != b.grp then 9 else 0
def firstCode (l : List Nat) : Nat := (l.find? (fun c => c != 0)).getD 0
/-- The failures of residency after the ranges, in their order. -/
def World.residencyCode (w : World) (t : Task) (im : Image) (runs : List Rle) : Nat :=
  firstCode ([if 64 < runs.length then 4 else 0, if (List.range 8).any (fun d => 64 < t.wsl d) then 5 else 0] ++
    im.groups.map (groupCode w t.ten) ++ im.bars.map (barCode w t.ten))
/-- The image and the record agree: streams, and the members that a group lists. -/
def imageFits (t : Task) (im : Image) : Bool :=
  im.members.length == t.nmem &&
    im.groups.all (fun g => match g.members with | some l => l.all (fun m => m < t.nmem) | none => true)
/-- Barriers that a tenant holds. -/
def World.barriersOf (w : World) (ten : Nat) : Nat := (w.hub.barriers.filter (fun b => b.2.st != .free && b.2.ten == ten)).length
def World.newBars (w : World) (im : Image) : Nat :=
  ((im.bars.map (fun b => b.id % 4096)).foldl sadd []).countP (fun b => (w.barrier b).st == .free)
/-- The task holds the barriers that its directives name. -/
def World.holdBar (w : World) (t : Task) (b : BarDecl) : World :=
  let k := b.id % 4096
  let x := w.barrier k
  let y : Barrier := if x.st == .free then
      { exp := b.exp, exp0 := b.exp, cnt := 0, dpend := 0, ph := 0, grp := b.grp, ten := t.ten, st := .held, holders := [t.order] }
    else { x with holders := sadd x.holders t.order }
  w.modHub (fun h => { h with barriers := fput h.barriers k y })
def holdBars (t : Task) (w : World) : List BarDecl → World
  | [] => w
  | b :: r => holdBars t (w.holdBar t b) r
/-- A lease id that no task uses, from the next one on (log 20). -/
def freshLid (used : List Nat) (next : Nat) : Nat :=
  (((List.range 65536).map (fun i => (next + i) % 65536)).find? (fun k => !used.contains k)).getD next
def numberRuns (used : List Nat) (next : Nat) : List Rle → List Rle
  | [] => []
  | e :: r =>
    let k := freshLid used next
    { e with lid := k } :: numberRuns (k :: used) ((k + 1) % 65536) r
/-- A home knows some lease ids: they are resident, and no longer revoked there (R201, R203). -/
def Die.learns (d : Die) (lids : List Nat) : Die :=
  { d with lids := lids.foldl sadd d.lids, revoked := d.revoked.filter (fun k => !lids.contains k) }
def learnAll (lids : List Nat) (w : World) : List Nat → World
  | [] => w
  | d :: r => learnAll lids (w.modDie d (fun x => x.learns lids)) r
def World.lidsUsed (w : World) : List Nat := (w.hub.tasks.map (fun t => t.lids)).flatten
/-- The lowest `GANGID` that no gang holds: one placed, running, pre-empted, or without its completion record yet (R262). -/
def World.freshGang (w : World) : Option Nat :=
  (List.range 4096).find? (fun g => !(w.gang g).live && !(w.hub.tasks.any (fun t => t.gid == g && t.stage != .closed)))
def WSlot.unowned : WSlot := { own := false, ten := 0, gang := 0 }
def freeSlots (m : FMap WSlot) : List Nat := (List.range 64).filter (fun k => !(fget m WSlot.unowned k).own)
/-- Every link has the free slots that the record names for it (R236). -/
def World.slotsFor (w : World) (t : Task) : Bool :=
  (List.range 8).all (fun d => t.wsl d ≤ (freeSlots (w.die d).wheelOut).length && t.wsl d ≤ (freeSlots (w.die d).wheelIn).length)
def takeSlots (ten gid : Nat) (m : FMap WSlot) : List Nat → FMap WSlot
  | [] => m
  | k :: r => takeSlots ten gid (fput m k { own := true, ten := ten, gang := gid }) r
/-- The slots that residency assigns stand under the task's own mark until it has a `GANGID` (log 71). -/
def Die.withSlots (d : Die) (t : Task) (die : Nat) : Die :=
  { d with wheelOut := takeSlots t.ten t.gid d.wheelOut ((freeSlots d.wheelOut).take (t.wsl die)),
           wheelIn := takeSlots t.ten t.gid d.wheelIn ((freeSlots d.wheelIn).take (t.wsl die)) }
def dieAll (f : Nat → Die → Die) (w : World) : List Nat → World
  | [] => w
  | d :: r => dieAll f (w.modDie d (f d)) r
/-- A task is assigned the entries of the group table that it names: no other tenant has them from then on (R265). -/
def claimGroups (t : Task) (w : World) : List GroupDecl → World
  | [] => w
  | g :: r =>
    let x := w.group (g.id % 256)
    claimGroups t (w.modHub (fun h => { h with groups := fput h.groups (g.id % 256) { x with ten := t.ten, claims := sadd x.claims t.order } })) r
/-- The leases, wheel slots, groups and barriers of a launch are ready. -/
def World.grant (w : World) (t : Task) (im : Image) (runs : List Rle) : World :=
  let rs := numberRuns w.lidsUsed w.hub.nextLid runs
  let lids := rs.map (fun e => e.lid)
  let w1 := dieAll (fun d x => x.withSlots t d) (learnAll lids (holdBars t w im.bars) (List.range 9)) (List.range 8)
  ((claimGroups t w1 im.groups).setTask { t with stage := .resident, image := im, runs := rs, lids := lids }).modHub (fun h =>
    { h with nextLid := ((lids.getLast?).getD (h.nextLid + 65535) + 1) % 65536 })
/-- Residency of an admitted task: it waits on a stage-2 fault, on its tenant's barrier quota, or on wheel slots. -/
def residencyStep (s : State) (t : Task) : World :=
  let bad (c info : Nat) : World := s.w.failLaunch t c 0 (if c == 1 then info else 0)
  match s.prepRange t.ten 1 (t.bits 63 0) (t.bits 95 64) with
  | .wait ia va => s.w.stage2Fault t ia va
  | .fail c i => bad c i
  | .ok ps =>
    let im := Config.imageOf (s.pageBytes ps)
    let w := s.w.officeReqs t.ten (pageSpans ps)
    let bad (c info : Nat) : World := w.failLaunch t c 0 (if c == 1 then info else 0)
    if !imageFits t im then bad 14 0
    else
      match s.prepAll t.ten (t.ranges im) with
      | .wait ia va => s.w.stage2Fault t ia va
      | .fail c i => bad c i
      | .ok runs =>
        let c := s.w.residencyCode t im runs
        if c != 0 then bad c 0
        else if field 21 9 (s.w.tenRec t.ten) < s.w.barriersOf t.ten + s.w.newBars im || !s.w.slotsFor t then s.w
        else w.grant t im runs
def residencyAct (id : Nat) (s : State) : Act :=
  s.atStage id .admitted (fun t => only (if t.s2wait.isNone then residencyStep s t else s.w))
def execResidency (task : Nat) (s : State) : Host.Outcome State Fault Refusal := done s (residencyAct task s)
/-- The hypervisor has repaired its tables: the walk starts again from the root. -/
def retryWalkAct (id : Nat) (s : State) : World :=
  match s.w.taskBy id with
  | some t =>
    if t.s2wait.isSome then
      (s.w.setTask { t with s2wait := none }).modHub (fun h => { h with faults := h.faults.filter (fun x => x.2.2 != id) })
    else s.w
  | none => s.w
def execHypervisorRetry (task : Nat) (s : State) : Host.Outcome State Fault Refusal := done s (only (retryWalkAct task s))
/-- The hypervisor declines: the launch fails. -/
def declineAct (id : Nat) (s : State) : World :=
  match s.w.taskBy id with
  | some t =>
    if t.s2wait.isSome then
      (s.w.failLaunch { t with s2wait := none } 2 0 0).modHub (fun h => { h with faults := h.faults.filter (fun x => x.2.2 != id) })
    else s.w
  | none => s.w
def execHypervisorDecline (task : Nat) (s : State) : Host.Outcome State Fault Refusal := done s (only (declineAct task s))

/-! ## Placement (R199, R236, R248, R249, R262, R266, R334) -/

/-- A core of the right kind that the record allows. -/
def coreSuits (t : Task) (mx : Bool) (taken : List Nat) (k : Nat) : Bool :=
  coreExists k && isMx k == mx && !taken.contains k && (t.allow == 0 || bitOf k t.allow)
/-- It is free, in placement, in a domain of the tenant, and its array is no other gang's; the gangs listed count as
gone. -/
def World.coreFree (w : World) (t : Task) (mx : Bool) (goneGangs : List Nat) (k : Nat) : Bool :=
  let c := w.core k
  let d := w.die (dieOf k)
  (match c.gang with | some g => goneGangs.contains g | none => true) && !c.outOfPlace &&
    bitOf (w.domOf k) (field 29 22 (w.tenRec t.ten)) &&
    (!mx || (!d.arrayOut && (match d.arrayGang with | some g => goneGangs.contains g | none => true)))
/-- Members in order, each on the lowest core that will do. -/
def placeOn (t : Task) (free : Bool → Nat → Bool) : List Nat → List MemImg → Option (List Nat)
  | taken, [] => some taken
  | taken, m :: r =>
    match allCores.find? (fun k => coreSuits t m.mx taken k && free m.mx k) with
    | some k => placeOn t free (taken ++ [k]) r
    | none => none
def World.placing (w : World) (t : Task) (goneGangs : List Nat) : Option (List Nat) :=
  placeOn t (fun mx k => w.coreFree t mx goneGangs k) [] t.image.members
/-- No set of cores could ever hold the gang. -/
def neverPlaced (t : Task) : Bool := (placeOn t (fun _ _ => true) [] t.image.members).isNone
def diesOf (cores : List Nat) : List Nat := (cores.map dieOf).foldl sadd []
/-- The cores that a launch contributes to its groups: group and core. -/
def contributions (im : Image) (cores : List Nat) : List (Nat × Nat) :=
  (im.groups.map (fun g => match g.members with
    | some l => l.map (fun m => (g.id % 256, cores.getD m 127))
    | none => [])).flatten
/-- The groups of a core when a launch has contributed. DESIGN CHOICE: R124 does not say which slot of `GRPSET` each takes; they
take the slots from 0 on in ascending table index (log 58). -/
def World.groupsOf (w : World) (more : List (Nat × Nat)) (k : Nat) : List Nat :=
  (List.range 256).filter (fun g => (w.group g).cores.contains k || more.contains (g, k))
def World.groupsOver (w : World) (t : Task) (cores : List Nat) : Bool :=
  cores.any (fun k => 4 < (w.groupsOf (contributions t.image cores) k).length)
/-- Lease-table entries that are still free on the dies. -/
def Die.rltFree (d : Die) : Nat := 64 - (d.rlt.filter (fun e => e.pages != 0)).length
def World.roomFor (w : World) (t : Task) (dies : List Nat) : Bool := dies.all (fun d => t.runs.length ≤ (w.die d).rltFree)
def Die.withRuns (d : Die) (t : Task) : Die := { d with rlt := d.rlt ++ t.runs.map (fun e => { e with gang := t.gid }) }
/-- A task holds an entry of the group table, with the cores that it contributes. -/
def World.holdGroup (w : World) (t : Task) (more : List (Nat × Nat)) (g : GroupDecl) : World :=
  let k := g.id % 256
  let x := w.group k
  let y : Group := { mem := x.mem ++ (more.filter (fun e => e.1 == k)).map (fun e => (e.2, t.order)), ten := t.ten,
                     holders := sadd x.holders t.order, claims := sdel x.claims t.order }
  w.modHub (fun h => { h with groups := fput h.groups k y })
def holdGroups (t : Task) (more : List (Nat × Nat)) (w : World) : List GroupDecl → World
  | [] => w
  | g :: r => holdGroups t more (w.holdGroup t more g) r
/-- The `XM` of a member: the least that keeps every declared region off courses with a fault, by the rules in turn. -/
def Core.chooseXm (c : Core) (regs : List Region) : Nat :=
  let used := (List.range 32).filter (fun k => { c with regions := regs }.courseUsed k)
  let ok (p : Course → Bool) (x : Nat) : Bool := used.all (fun k => p (c.course (k ^^^ x)))
  (((List.range 32).find? (ok (fun h => !h.degraded && !h.failing))).orElse (fun _ =>
    ((List.range 32).find? (ok (fun h => !h.failing && !h.lost))).orElse (fun _ =>
      (List.range 32).find? (ok (fun h => !h.lost))))).getD 0
/-- The rows of the failed bricks of the lost courses: they are poisoned in every line (R181). -/
def Core.lostRows (c : Core) : List Nat :=
  ((c.courses.filter (fun e => e.2.lost)).map (fun e =>
    ((c.linesOf e.1).map (fun l => e.2.bricks.map (fun b => l * 4 + b))).flatten)).flatten
def Core.withLost (c : Core) : Core := { c with poison := c.lostRows.foldl sadd c.poison }
/-- A core given to a gang: nothing of an earlier task stays but what belongs to the unit. -/
def Core.placed (c : Core) (gid member : Nat) (groups : List Nat) (regs : List Region) (vec : Nat) (hstart : List Nat) : Core :=
  let x : Core := { Core.zero with
    gang := some gid, member := member, groups := groups, regions := regs, trapvec := vec, hstart := hstart,
    xm := c.chooseXm regs, courses := c.courses, dws := c.dws, scanPos := c.scanPos, breakpoint := c.breakpoint }
  x.withLost
def World.clearCoreErrs (w : World) (k : Nat) : World :=
  { w with softErrs := w.softErrs.filter (fun e => match e.1 with
      | .row c _ | .mortar c _ | .sreg c _ | .supReg c _ | .vreg c _ | .pred c _ | .scale c _ | .latch c _ _ | .word c _
      | .handlerWord c _ => c != k
      | .tile d _ => !(isMx k && d == dieOf k)
      | .slot _ => true) }
def placeCores (w0 : World) (gid : Nat) (more : List (Nat × Nat)) (vec : Nat) (hstart : List Nat) (w : World) :
    List (Nat × MemImg) → Nat → World
  | [], _ => w
  | x :: r, j =>
    placeCores w0 gid more vec hstart ((w.clearCoreErrs x.1).modCore x.1 (fun c =>
      c.placed gid j (w0.groupsOf more x.1) x.2.regions vec hstart)) r (j + 1)
/-- The arrays of the MX members' dies are the gang's, cleared and unconfigured. -/
def Die.freshArray (d : Die) (gid : Option Nat) : Die :=
  { d with arrayGang := gid, tiles := [], shapes := [], tshape := [], lease := ArrayLease.free, streamEnd := 0, mcfgAt := none }
/-- The tenant's handler image (R334, R358). -/
def State.handlerWords (s : State) (ten : Nat) : List Word32 :=
  let r := s.w.tenRec ten
  if field 319 256 r == 0 then [] else wordsOf (s.officeBytes (field 319 256 r) (4 * field 332 320 r))
def World.handlerFill (w : World) (ten : Nat) (mx : Bool) : Fill :=
  let r := w.tenRec ten
  { site := { mx := mx, handler := true }, cls := field 346 345 r, yint := 0, stop := field 332 320 r,
    entry := some (field 344 333 r), me := 0, peers := [], groups := [], sends := false, opens := false }
/-- Memory writes that ready a core: both its stores of data are zero, and its handler store holds the image. -/
def readyCore (k : Nat) (hw : List Word32) : List MemW :=
  [.clear .spd (spdAt k 0) (2 ^ 21), .clear .mortar (mortarAt k 0 0) (2 ^ 19), .bytes .hst (hstAt k 0) (bytesOf hw)]
/-- Wheel slots under a mark are a gang's. -/
def reslot (old new : Nat) (m : FMap WSlot) : FMap WSlot :=
  m.map (fun e => (e.1, if e.2.own && e.2.gang == old then { e.2 with gang := new } else e.2))
def Die.reslotted (old new : Nat) (d : Die) : Die :=
  { d with wheelOut := reslot old new d.wheelOut, wheelIn := reslot old new d.wheelIn }
/-- The gang has its `GANGID`, and the task's cores are its own (R262). -/
def State.place (s : State) (t0 : Task) (gid : Nat) (cores : List Nat) : Act :=
  let t : Task := { t0 with gid := gid }
  let r := s.w.tenRec t.ten
  let hw := s.handlerWords t.ten
  let v := (s.w.handlerFill t.ten false).verify 0 hw
  let more := contributions t.image cores
  let ms := cores.zip t.image.members
  let wr := s.w.officeReqs t.ten (if hw.isEmpty then [] else [(field 319 256 r, 4 * hw.length)])
  let w1 := dieAll (fun _ x => x.withRuns t) (dieAll (fun _ x => x.reslotted t0.gid gid) wr (List.range 8)) (diesOf cores)
  let w2 := placeCores s.w gid more (field 344 333 r) v.starts w1 ms 0
  let w3 := dieAll (fun _ x => x.freshArray (some gid)) w2 (diesOf (cores.filter isMx))
  let w4 := holdGroups t more w3 t.image.groups
  let x : Task := { t with stage := .placed, cores := cores }
  { w := if v.code == 0 || hw.isEmpty then w4.setTask x else w4.failLaunch x 12 v.code 0,
    out := (cores.map (fun k => readyCore k hw)).flatten }
/-- Placement of a resident task; it waits for cores and table entries. A group that it names without members and whose last
holder has completed meanwhile is not set. -/
def placementStep (s : State) (t : Task) : Act :=
  match s.w.placing t [] with
  | some cores =>
    let c := firstCode (t.image.groups.map (groupCode s.w t.ten))
    if c != 0 then only (s.w.failLaunch t c 0 0)
    else if s.w.groupsOver t cores then only (s.w.failLaunch t 7 0 0)
    else if s.w.roomFor t (diesOf cores) then
      match s.w.freshGang with
      | some gid => s.place t gid cores
      | none => only s.w
    else only s.w
  | none => only (if neverPlaced t then s.w.failLaunch t 13 0 0 else s.w)
def placementAct (id : Nat) (s : State) : Act := s.atStage id .resident (fun t => placementStep s t)
def execPlacement (task : Nat) (s : State) : Host.Outcome State Fault Refusal := done s (placementAct task s)

/-! ## The launch fill (R37, R202, R228, R233) -/

/-- The verdict on a member's stream. -/
def Task.verdict (t : Task) (k : Nat) (m : MemImg) : Verified :=
  Fill.verify { t.fillFor k with stop := m.words.length } 0 m.words
/-- The code of the first stream that is rejected. DESIGN CHOICE: no code of R66 is named for a launch stream of more than 34,816 words
that no bundle makes cross word 34,816; it has code 6, where no other applies (log 70). -/
def Task.imageCode (t : Task) : Nat :=
  let l := (t.cores.zip t.image.members).map (fun x => (t.verdict x.1 x.2).code)
  if firstCode l != 0 then firstCode l
  else if t.image.members.any (fun m => 34816 < m.words.length) then 6
  else 0
def regionBytes (r : Region) (m : MemImg) : List (Nat × Byte) := m.bytes.filter (fun e => r.base ≤ e.1 && e.1 < r.base + r.size)
/-- A region's first bytes: of its lease's range, or as the image gives them. -/
def State.fillRegion (t : Task) (k : Nat) (m : MemImg) (r : Region) (s : State) : Act :=
  match r.bound with
  | some b =>
    let va := (t.image.leases.getD b.1 { va := 0, size := 0, rights := 0 }).va + b.2
    { w := s.w.runReqs t.ten t.runs va r.size, out := [.bytes .spd (spdAt k r.base) (s.readRuns t.runs va r.size)] }
  | none => { w := s.w, out := (regionBytes r m).map (fun e => .bytes .spd (spdAt k e.1) [e.2]) }
/-- Every line's parity follows what was written. -/
def State.sealRegion (k : Nat) (r : Region) (s : State) : Act :=
  s.inOrder ((List.range ((r.size + 1023) / 1024)).map (fun j => State.reseal k (r.base / 1024 + j)))
def State.fillMember (t : Task) (k : Nat) (m : MemImg) (s : State) : Act :=
  s.inOrder ([fun x => ({ w := x.w.modCore k (fun c => { c with startMap := (t.verdict k m).starts }),
                          out := [.bytes .isp (ispAt k 0) (bytesOf m.words)] } : Act)] ++
    (m.regions.map (fun r => [State.fillRegion t k m r, State.sealRegion k r])).flatten)
def State.fillOverlay (t : Task) (o : OverlayDecl) (s : State) : Act :=
  State.writeRuns t.runs ((t.image.leases.getD o.lease { va := 0, size := 0, rights := 0 }).va + o.off) (bytesOf o.words) s
/-- The fill of a placed task. -/
def fillAct (id : Nat) (s : State) : Act :=
  s.atStage id .placed (fun t =>
    let c := t.imageCode
    if c != 0 then only (s.w.failLaunch t 12 c 0)
    else
      s.inOrder ((t.cores.zip t.image.members).map (fun x => State.fillMember t x.1 x.2) ++
        t.image.overlays.map (State.fillOverlay t) ++ [fun x => only (x.w.setTask { t with stage := .filled })]))
def execLaunchFill (task : Nat) (s : State) : Host.Outcome State Fault Refusal := done s (fillAct task s)

/-! ## Dispatch (R101, R267) -/

/-- The scalar registers of a member at task start: arguments, member index, member count. -/
def Task.startRegs (t : Task) (member : Nat) : FMap Word :=
  ((List.range 15).map (fun k => (k + 1, t.arg k)) ++ [(16, member), (17, t.nmem)]).foldl
    (fun (m : FMap Word) (e : Nat × Nat) => fset m 0 e.1 (BitVec.ofNat 64 e.2)) []
def startCores (t : Task) (w : World) : List Nat → Nat → World
  | [], _ => w
  | k :: r, j =>
    startCores t (w.modCore k (fun c => { c with ctx := { CoreCtx.zero with sregs := t.startRegs j } })) r (j + 1)
/-- The units that a task uses (R343). -/
def unitsOf (cores : List Nat) : List ScanUnit :=
  (cores.map (fun k => (List.range 8).map (ScanUnit.core k))).flatten ++
    ((diesOf (cores.filter isMx)).map (fun d => (List.range 16).map (ScanUnit.strip d))).flatten
/-- The gang as it starts: after the restart gap, at TTC 0. -/
def World.newGang (w : World) (t : Task) : Gang :=
  let r := w.tenRec t.ten
  { Gang.zero with
    live := true, tenant := t.ten, task := t.no, members := t.cores, cls := t.image.cls % 4,
    hcls := field 346 345 r, hasHandler := field 319 256 r != 0, domCls := w.classFor t.cores, doms := t.cores.map w.domOf, sh := 64 * t.bits 116 112,
    nextAt := w.now }
/-- The start command. -/
def World.start (w : World) (t : Task) : World :=
  let w1 := startCores t (w.setGang t.gid (w.newGang t)) t.cores 0
  let w2 := w1.setTask { t with stage := .run, ran := true, wstart := w.wtc, useStart := w.now, used := unitsOf t.cores }
  (w2.rehalf t.gid).restartGap t.gid
def dispatchAct (id : Nat) (s : State) : Act := s.atStage id .filled (fun t => only (s.w.start t))
def execDispatch (task : Nat) (s : State) : Host.Outcome State Fault Refusal := done s (dispatchAct task s)

end Sys2Proof.Machine
end

