-- ==== Sys2Proof/Machine/Ending.lean ====
section
/-! DEFINITION. How tasks end and stop: completion, write-back, kill, cancel, the completion record, pre-emption, debug
halts and the outcomes of scans (R99, R202, R249, R250, R255, R262, R269-R276, R313, R330, R343, R357, R362). -/
namespace Sys2Proof.Machine
open Sys2Proof

/-! ## A gang has run to its end (R98, R275) -/

/-- Nothing of a core's gang is still due. -/
def Core.quiet (c : Core) : Bool := c.ctx.halted && c.pend.isEmpty && c.amos.isEmpty && c.seals.isEmpty
def World.finished (w : World) (gid : Nat) : Bool :=
  let g := w.gang gid
  g.live && !g.dbg && g.stat == .running && g.events.isEmpty && g.members.all (fun k => (w.core k).quiet) &&
    !(w.flights.any (fun f => f.gang == gid))
def completeAct (gid : Nat) (s : State) : World := if s.w.finished gid then s.w.endTask gid 0 0 0 0 0 else s.w
def execTaskComplete (gang : Nat) (s : State) : Host.Outcome State Fault Refusal := done s (only (completeAct gang s))

/-! ## Write-back of bound regions (R202) -/

/-- The marked lines of a bound region whose lease grants WR: address and bytes. -/
def Task.boundLines (t : Task) (c : Core) (r : Region) : List (Nat × Nat × Nat) :=
  match r.bound with
  | none => []
  | some b =>
    let l := t.image.leases.getD b.1 { va := 0, size := 0, rights := 0 }
    if bitOf 1 l.rights then
      (c.marks.filter (fun n => r.base ≤ n * 1024 && n * 1024 < r.base + r.size)).map (fun n =>
        (n * 1024, l.va + b.2 + (n * 1024 - r.base), min 1024 (r.base + r.size - n * 1024)))
    else []
/-- The bytes of a line; those of a poisoned row are free (log 3). -/
def State.lineBytesFree (s : State) (k la n : Nat) : List Byte :=
  (List.range n).map (fun i =>
    if (s.w.core k).poison.contains ((la + i) / 256) then Config.freeByte s.w.draws (la + i) else s.mem.byte .spd (spdAt k (la + i)))
/-- The rows of a line as the write-back reads them: errors are corrected and counted, and a row that cannot be is poisoned (R130,
R172, R178). -/
def World.lineRead (w : World) (k la n : Nat) : World :=
  (List.range 4).foldl (fun a b =>
    let lo := max la (la / 1024 * 1024 + 256 * b)
    let hi := min (la + n) (la / 1024 * 1024 + 256 * b + 256)
    if lo < hi then (a.lookWords k (lo / 256) (wordSpan (lo % 256) (hi - lo))).w else a) w
def State.writeBackCore (t : Task) (k : Nat) (s : State) : Act :=
  s.inOrder (((s.w.core k).regions.map (fun r =>
    (t.boundLines (s.w.core k) r).map (fun x => fun (u : State) =>
      let v : State := { u with w := u.w.lineRead k x.1 x.2.2 }
      State.writeRuns t.runs x.2.1 (v.lineBytesFree k x.1 x.2.2) v))).flatten)
def World.markReady (w : World) (id : Nat) : World := w.modTask (fun t => t.order == id) (fun t => { t with wbDone := true })
def writebackAct (id : Nat) (s : State) : Act :=
  s.atStage id .ending (fun t =>
    if t.kind == 0 && !t.wbDone then
      s.inOrder (t.cores.map (fun k => State.writeBackCore t k) ++ [fun u => only (u.w.markReady id)])
    else only s.w)
def execBoundWriteback (task : Nat) (s : State) : Host.Outcome State Fault Refusal := done s (writebackAct task s)

/-! ## Releasing what a task holds (R249, R250, R255, R262, R272, R313) -/

def Die.releases (d : Die) (lids : List Nat) (gid : Nat) : Die :=
  let cut (m : FMap WSlot) : FMap WSlot := m.filter (fun e => !(e.2.own && e.2.gang == gid))
  let d1 : Die := { d with lids := d.lids.filter (fun k => !lids.contains k), revoked := lids.foldl sadd d.revoked,
                           rlt := d.rlt.filter (fun e => e.gang != gid), wheelOut := cut d.wheelOut, wheelIn := cut d.wheelIn }
  if d.arrayGang == some gid then d1.freshArray none else d1
def Group.without (g : Group) (id : Nat) : Group :=
  let hs := sdel g.holders id
  let cs := sdel g.claims id
  { mem := if hs.isEmpty then [] else g.mem.filter (fun e => e.2 != id), ten := if hs.isEmpty && cs.isEmpty then 0 else g.ten,
    holders := hs, claims := cs }
def Barrier.without (b : Barrier) (id : Nat) : Barrier :=
  let hs := sdel b.holders id
  if hs.isEmpty then Barrier.unheld else { b with holders := hs }
def Hub.releases (h : Hub) (id gid : Nat) : Hub :=
  { h with groups := h.groups.map (fun e => (e.1, if e.2.holders.contains id || e.2.claims.contains id then e.2.without id else e.2)),
           barriers := h.barriers.map (fun e => (e.1, if e.2.holders.contains id then e.2.without id else e.2)),
           deques := h.deques.map (fun e => (e.1, if e.2.owner == some gid then { e.2 with owner := none } else e.2)),
           faults := h.faults.filter (fun x => x.2.2 != id),
           podOut := h.podOut.map (fun p => if p.gang == gid then { p with gang := 4096 } else p) }
def freeCores (gid : Nat) (w : World) : List Nat → World
  | [] => w
  | k :: r => freeCores gid (if (w.core k).gang == some gid then w.modCore k (fun c => { c with gang := none, groups := [] }) else w) r
/-- Every lease id is revoked at every home, and the table entries, wheel slots, holds, arrays, cores, pending boards and the channel
of a task are free. What it has sent to a pod peer still counts when it is refused or fails (R370). -/
def World.releaseTask (w : World) (t : Task) : World :=
  let fs := w.flights.filter (fun f => f.gang == t.gid)
  let w1 := dieAll (fun _ d => d.releases t.lids t.gid) ((w.abandon fs).unsent fs) (List.range 9)
  let w2 := freeCores t.gid (w1.modHub (fun h => h.releases t.order t.gid)) t.cores
  let w3 : World := { w2 with flights := w2.flights.filter (fun f => f.gang != t.gid) }
  if (w3.gang t.gid).tenant == t.ten && (w3.gang t.gid).task == t.no then w3.modGang t.gid (fun g => { g with live := false }) else w3

/-! ## Kill (R224, R230, R272, R330) -/

/-- Global writes of a killed task that had been sent may have performed before the revocation: free, by draw. -/
def sentActs (draw : Nat) (f : Flight) : List (State → Act) :=
  if isEng f.op then
    (f.missing.filter (fun k => Config.freeNat (draw + 4096 * f.id + k) % 2 == 1)).map (fun k => engPerformAct f.id k)
  else if keepSent draw f then [fun s => s.performAll f]
  else []
def State.performSent (gid : Nat) (s : State) : Act :=
  let w : World := { s.w with draws := s.w.draws + 1 }
  State.inOrder { s with w := w } ((s.w.flights.filter (fun f => f.gang == gid && f.op.writes)).map (sentActs s.w.draws)).flatten
def killAct (id : Nat) (s : State) : Act :=
  s.atStage id .ending (fun t =>
    if t.kind != 0 && !t.wbDone then
      s.inOrder [fun u => if t.cores.isEmpty then only u.w else State.performSent t.gid u,
                 fun u => only (dropFills u.w (u.w.flights.filter (fun f => f.gang == t.gid && (u.w.core f.core).gang == some t.gid))),
                 fun u => only (u.w.releaseTask t),
                 fun u => only (u.w.markReady id)]
    else only s.w)
def execKill (task : Nat) (s : State) : Host.Outcome State Fault Refusal := done s (killAct task s)

/-! ## Cancel (R273) -/

/-- A record that is cancelled before it has been taken from its queue is read for its completion record's address. -/
def State.readIf (s : State) (t : Task) : Task :=
  if untaken t then
    match s.peek t.ten t.addr with
    | .ok v => s.withRecord t v
    | _ => t
  else t
def Task.cancelled (t : Task) (code ttc : Nat) : Task :=
  { t with stage := .ending, kind := 3, code := code, vcode := 0, info := 0, s2wait := none, ttcEnd := ttc }
def cancelTask (s : State) (t : Task) : World :=
  match t.stage with
  | .queued | .admitted | .resident | .placed | .filled =>
    (if untaken t then s.recordReq t.ten t.addr else s.w).setTask ((s.readIf t).cancelled 0 0)
  | .run => s.w.endTask t.gid 3 1 0 0 0
  | .saved => s.w.setTask (t.cancelled 1 (match t.saved with | some v => v.gang.lastTtc 0 | none => 0))
  | .ending | .closed => s.w
def cancelAct (id : Nat) (s : State) : World :=
  match s.w.taskBy id with
  | some t => cancelTask s t
  | none => s.w
/-- The host's request: of tenant 0 alone, a put to the mailbox (R273, R360). -/
def hostCancel (from_ id : Nat) (s : State) : World :=
  if s.w.hub.mailOpen && from_ == 0 then cancelAct id s else s.w.answer .error
def execCancel (task : Asked Nat) (s : State) : Host.Outcome State Fault Refusal := done s (only (hostCancel task.from_ task.arg s))

/-! ## The completion record (R264, R275, R276, R362) -/

/-- Bits [127:0]. -/
def Task.recordHead (t : Task) : Nat :=
  t.kind % 4 + bit t.conf * 2 ^ 2 + bit t.susp * 2 ^ 3 + bit t.predf * 2 ^ 4 + bit t.barw * 2 ^ 5 + bit t.degr * 2 ^ 6 +
    t.code % 256 * 2 ^ 8 + t.vcode % 256 * 2 ^ 16 + t.no % 2 ^ 32 * 2 ^ 32 + t.ten % 2 ^ 16 * 2 ^ 64 + t.preempts % 2 ^ 16 * 2 ^ 80
/-- The record's 1024 bits. -/
def Task.record (t : Task) : Nat :=
  t.recordHead + t.wstart % 2 ^ 64 * 2 ^ 128 + t.wend % 2 ^ 64 * 2 ^ 192 + t.ttcEnd % 2 ^ 64 * 2 ^ 256 + t.energy % 2 ^ 64 * 2 ^ 320 +
    t.mhz % 2 ^ 32 * 2 ^ 384 + ((List.range 7).map (fun k => fget t.thr 0 k % 2 ^ 64 * 2 ^ (448 + 64 * k))).sum +
    t.info % 2 ^ 64 * 2 ^ 896 + (if t.kind == 2 then t.ipc % 2 ^ 16 * 2 ^ 960 + t.icore % 2 ^ 7 * 2 ^ 976 else 0)
/-- The mean of some clocks in kHz, each with its count of cycles: the cycles over the time that they took, in MHz. -/
def meanMhz (l : FMap Nat) : Nat :=
  let p := (l.map (fun e => max e.1 1)).foldl (· * ·) 1
  let time := (l.map (fun e => e.2 * (p / max e.1 1))).sum
  if time == 0 then 0 else (l.map (fun e => e.2)).sum * p / (1000 * time)
/-- What the gang counted: energy, mean clock, throttled cycles. -/
def Task.withGang (t : Task) (g : Gang) : Task := { t with energy := g.enmeas, mhz := meanMhz g.clocks, thr := g.thr }
/-- A record held aside notes the outcome of a predecessor that it names, when that predecessor completes. -/
def Task.notes (x : Task) (t : Task) : Task :=
  if x.stage == .queued && x.seen && x.ten == t.ten && (predsOf x.lrec.toNat).contains t.no && !(x.predsSeen.any (fun e => e.1 == t.no)) then
    { x with predsSeen := x.predsSeen ++ [(t.no, t.kind)], predf := x.predf || t.kind != 0 }
  else x
/-- The outcome enters the tenant's table of its last 1024 completed tasks, and the notes of records still queued; a duplicate's does
neither (R264). -/
def Hub.outcome (h : Hub) (t : Task) : Hub :=
  if t.kind == 1 && t.code == 15 then h
  else
    { h with outcomes := fput h.outcomes t.ten (((t.no, t.kind) :: fget h.outcomes [] t.ten).take 1024),
             tasks := h.tasks.map (fun x => x.notes t) }
/-- The record is written and the tenant's counter notified, or its loss is logged. -/
def State.writeRecord (t : Task) (s : State) : Act :=
  match t.crecPa with
  | some (pa, home) =>
    if (s.w.die home).up then
      let n := field 255 192 (s.w.tenRec t.ten)
      let w := s.w.arrived t.ten home 2
      State.glbWrite s (if n == 0 then w else w.answer (.notify n)) pa (leBytes 128 t.record)
    else only (s.w.logEvent 8 8 t.ten t.no)
  | none => only (s.w.logEvent 8 8 t.ten t.no)
def closeAct (id : Nat) (s : State) : Act :=
  s.atStage id .ending (fun t =>
    if t.wbDone then
      let g := s.w.gang t.gid
      let x0 : Task := { (if t.ran then t.withGang g else t) with wend := s.w.wtc, saved := none }
      s.inOrder [fun u => only (u.w.releaseTask t), State.writeRecord x0,
                 fun u => only ((u.w.setTask { x0 with stage := .closed, lids := [], runs := [] }).modHub (fun h => h.outcome x0))]
    else only s.w)
def execCompletionRecordWrite (task : Nat) (s : State) : Host.Outcome State Fault Refusal := done s (closeAct task s)

/-! ## Pre-emption (R10, R99, R262, R269-R271) -/

def World.taskOfGang (w : World) (gid : Nat) : Option Task :=
  w.hub.tasks.find? (fun t => isTaskOf (w.gang gid) t && t.gid == gid && t.stage == .run)
/-- A request reaches a gang that has a save area. -/
def preemptAct (gid : Nat) (s : State) : World :=
  match s.w.taskOfGang gid with
  | some t =>
    if t.save != 0 && (s.w.gang gid).live then s.w.modGang gid (fun g => { g with preempt := true }) else s.w
  | none => s.w
def execPreemptRequest (gang : Nat) (s : State) : Host.Outcome State Fault Refusal := done s (only (preemptAct gang s))
/-- The cycles still owed before the next bundle. DESIGN CHOICE: R99 does not say whether `OWED` counts the read beats of that
bundle; it counts the transfer and join bubbles, at most 4 + 7, and the beats spent are kept with the rest of the context (log 59). -/
def Seq.owed (q : Seq) : Nat := q.owedT + q.owedJ
/-- An entry of the sequencer record. -/
def LoopEntry.bits (e : LoopEntry) : Nat :=
  e.start % 2 ^ 16 + e.exit % 2 ^ 16 * 2 ^ 16 + e.stg % 8 * 2 ^ 32 + e.rem % 2 ^ 32 * 2 ^ 64 + e.idx % 2 ^ 32 * 2 ^ 96
/-- The sequencer record of R99, with entry 0 the outermost. -/
def seqRecord (c : CoreCtx) : List Byte :=
  leBytes 16 (c.seq.pc % 2 ^ 16 + c.loops.length % 8 * 2 ^ 16 + c.seq.owed % 16 * 2 ^ 19) ++
    ((List.range 6).map (fun j =>
      match c.loops.reverse[j]? with
      | some e => leBytes 16 e.bits
      | none => leBytes 16 0)).flatten
def entryOf (v : Nat) : LoopEntry :=
  { start := field 15 0 v, exit := field 31 16 v, stg := field 34 32 v, rem := field 95 64 v, idx := field 127 96 v }
/-- What resumption takes from a sequencer record: as it was saved, or as it has been changed since. A depth above 6 or more than
11 cycles owed is misdirected (R99). -/
def CoreCtx.fromRecord (c : CoreCtx) (bs : List Byte) : CoreCtx :=
  if bs == seqRecord c then c
  else
    let v := leNat (bs.take 16)
    let bad := if 6 < field 18 16 v || 11 < field 22 19 v then some (field 15 0 v, field 15 0 v) else none
    let es := (List.range (min 6 (field 18 16 v))).map (fun j => entryOf (leNat ((bs.drop (16 + 16 * j)).take 16)))
    { c with loops := es.reverse,
             seq := { c.seq with pc := field 15 0 v, owedT := field 22 19 v, owedJ := 0, bad := bad } }
def freeBytes (draw part n : Nat) : List Byte := (List.range n).map (fun i => Config.freeByte draw (part * 2 ^ 26 + i))
/-- A member's part of the save area: its sequencer record, and a context whose layout is not stated. -/
def State.memberPart (s : State) (k j : Nat) : List Byte :=
  seqRecord (s.w.core k).ctx ++ freeBytes s.w.draws j (4194304 - 112)
/-- The parts of the save area: address and bytes, members first, then arrays. -/
def State.saveParts (s : State) (t : Task) : List (Nat × List Byte) :=
  (t.cores.zip (List.range t.cores.length)).map (fun x => (t.save + 4194304 * x.2, s.memberPart x.1 x.2)) ++
    (List.range (diesOf (t.cores.filter isMx)).length).map (fun i =>
      (t.save + 4194304 * t.nmem + 34603008 * i, freeBytes s.w.draws (48 + i) 34603008))
/-- Where the parts of a save area lie, with their sizes. -/
def Task.partPlaces (t : Task) : List (Nat × Nat) :=
  (List.range t.cores.length).map (fun j => (t.save + 4194304 * j, 4194304)) ++
    (List.range (diesOf (t.cores.filter isMx)).length).map (fun i => (t.save + 4194304 * t.nmem + 34603008 * i, 34603008))
def State.partCrcs (s : State) (t : Task) : List Nat := t.partPlaces.map (fun x => crc32c (s.readRuns t.runs x.1 x.2))
def saveArray (w : World) (d : Nat) : SavedArray :=
  let x := w.die d
  { die := d, tiles := x.tiles, tshape := x.tshape, shapes := x.shapes, lease := x.lease, streamEnd := x.streamEnd, mcfgAt := x.mcfgAt }
/-- The context as saved. -/
def State.capture (s : State) (t : Task) : Saved :=
  { gang := s.w.gang t.gid, gid := t.gid, cores := t.cores.map (fun k => (k, s.w.core k)),
    spd := t.cores.map (fun k => (k, slice s.mem.spd (spdAt k 0) (2 ^ 21))),
    mortar := t.cores.map (fun k => (k, slice s.mem.mortar (mortarAt k 0 0) (2 ^ 19))),
    isp := t.cores.map (fun k => (k, slice s.mem.isp (ispAt k 0) (2 ^ 18))),
    arrays := (diesOf (t.cores.filter isMx)).map (saveArray s.w), crcs := [] }
/-- The cores and arrays are free; leases, wheel slots, groups and barriers stay held; the watches are given back. -/
def World.stopped (w : World) (t : Task) (v : Saved) : World :=
  let w1 := dieAll (fun _ d => if d.arrayGang == some t.gid then d.freshArray none else d) w (List.range 8)
  let w2 := (freeCores t.gid w1 t.cores).unwatch t.cores
  (w2.modGang t.gid (fun g => { g with live := false, preempt := false })).setTask
    { t with stage := .saved, preempts := t.preempts + 1, saved := some v }
def Gang.heldNow (g : Gang) : Bool :=
  match g.stat with
  | .held _ _ => true
  | _ => false
/-- What a gang has in flight completes into its landing buffers; what has not started stays as it is (R270). -/
def State.landAll (gid : Nat) (s : State) : Act :=
  s.inOrder ((s.w.flights.filter (fun f => f.gang == gid)).map (fun f => State.forceId f.id))
/-- The cycles that a gang has been held are counted on its members (R128). -/
def World.countHeld (w : World) (gid : Nat) : World :=
  let g := w.gang gid
  match g.stat with
  | .held _ since => g.members.foldl (fun a k => a.countNow k 0x07 (g.heldCycles (w.now - since))) w
  | _ => w
/-- The context goes to the save area, and what the gang ran on is free. -/
def State.stopTask (t : Task) (s : State) : Act :=
  let v := s.capture t
  s.inOrder ((s.saveParts t).map (fun x => State.writeRuns t.runs x.1 x.2) ++
    [fun u => only { (u.w.stopped t { v with crcs := u.partCrcs t }) with draws := u.w.draws + 1 }])
/-- The gang stands at a yield point with a request: it stops. -/
def preemptStopAct (gid : Nat) (s : State) : Act :=
  let g := s.w.gang gid
  match s.w.taskOfGang gid with
  | none => only s.w
  | some t =>
    if g.live && g.preempt && g.heldNow && !g.dbg then
      s.inOrder [State.landAll gid, fun u => only (u.w.countHeld gid), State.stopTask t]
    else only s.w
def execPreemptStop (gang : Nat) (s : State) : Host.Outcome State Fault Refusal := done s (preemptStopAct gang s)
/-- The place of the first part that fails its check. -/
def firstBad : List Nat → List Nat → Nat → Option Nat
  | a :: r, b :: q, k => if a == b then firstBad r q (k + 1) else some k
  | [], [], _ => none
  | _, _, k => some k
/-- The gang's own cores and arrays are free. -/
def World.canResume (w : World) (v : Saved) : Bool :=
  v.cores.all (fun x => (w.core x.1).gang.isNone) && v.arrays.all (fun a => (w.die a.die).arrayGang.isNone)
/-- The stale lines of a saved core that lie in courses degraded since: they are written back self-sealing (R180). -/
def Core.sealedBack (c : Core) : List Nat := c.stale.filter (fun l => (c.health (l / 64)).degraded)
/-- A saved core on the unit as it is: its courses, its scan position, its breakpoint, the `DW` of the energy sample under way (R356).
DESIGN CHOICE: R10 and R122 list neither RSTPC and the restart store nor TRAPPC, TRAPCAUSE and TRAPINFO among what is saved, and no rule
says what they hold after a resumption; they come back with the rest (log 44). -/
def Core.onto (phys saved : Core) : Core :=
  { saved with courses := phys.courses, scanPos := phys.scanPos, outOfPlace := phys.outOfPlace, breakpoint := phys.breakpoint, dws := phys.dws,
               checkers := [] }
/-- A core takes its context back; what belongs to the unit stays as it is, range checks are disarmed (R223), a degraded course
holds no stale line and the failed rows of a lost one are poisoned (R180, R181). A next bundle that is no bundle start of an
open area is misdirected (R99). -/
def Core.restored (phys saved : Core) : Core :=
  let x := phys.onto saved
  let c := (x.freshenAll x.sealedBack).withLost
  let q := c.ctx.seq
  match q.bad, badTarget c false q.pc with
  | none, some info =>
    if c.ctx.halted then c else { c with ctx := { c.ctx with seq := { q with bad := some (info, q.pc) } } }
  | _, _ => c
def restoreCores (w : World) : List (Nat × Core) → World
  | [] => w
  | x :: r => restoreCores (w.modCore x.1 (fun p => p.restored x.2)) r
def restoreArrays (gid : Nat) (w : World) : List SavedArray → World
  | [] => w
  | a :: r =>
    restoreArrays gid (w.modDie a.die (fun d =>
      { d with arrayGang := some gid, tiles := a.tiles, tshape := a.tshape, shapes := a.shapes, lease := a.lease,
               streamEnd := a.streamEnd, mcfgAt := a.mcfgAt })) r
def cellWrites (sp : Space) (l : List Host.Cell) : List MemW := l.map (fun e => .bytes sp e.1 [e.2])
def Saved.writes (v : Saved) : List MemW :=
  (v.spd.map (fun x => .clear .spd (spdAt x.1 0) (2 ^ 21) :: cellWrites .spd x.2)).flatten ++
    (v.mortar.map (fun x => .clear .mortar (mortarAt x.1 0 0) (2 ^ 19) :: cellWrites .mortar x.2)).flatten ++
    (v.isp.map (fun x => .clear .isp (ispAt x.1 0) (2 ^ 18) :: cellWrites .isp x.2)).flatten
/-- The handler store of a core is filled again for its tenant. -/
def State.handlerWrites (s : State) (t : Task) : List MemW :=
  t.cores.map (fun k => .bytes .hst (hstAt k 0) (bytesOf (s.handlerWords t.ten)))
/-- A gang held at a wait is held again; one stopped at a bundle goes on. -/
def GStat.resumed (x : GStat) (now : Nat) : GStat :=
  match x with
  | .held [] _ => .running
  | .held l _ => .held l now
  | y => y
def World.resumed (w : World) (t : Task) (v : Saved) : World :=
  let w1 := restoreArrays t.gid (restoreCores w v.cores) v.arrays
  let g : Gang := { v.gang with live := true, preempt := false, stat := v.gang.stat.resumed w.now,
                                domCls := w.classFor t.cores, doms := t.cores.map w.domOf, domNext := [], nextAt := w.now }
  ((w1.setGang t.gid g).setTask { t with stage := .run, saved := none, used := unitsOf t.cores }).rehalf t.gid |>.restartGap t.gid
/-- Each member's sequencer state is as the save area holds it. -/
def State.readSeqs (s : State) (t : Task) (v : Saved) : Saved :=
  { v with cores := (v.cores.zip (List.range v.cores.length)).map (fun x =>
      (x.1.1, { x.1.2 with ctx := x.1.2.ctx.fromRecord (s.readRuns t.runs (t.save + 4194304 * x.2) 112) })) }
/-- The parity of the lines that degraded courses hold follows what was restored; a lost course's stands. -/
def State.resealBack (v : Saved) (s : State) : Act :=
  s.inOrder ((v.cores.map (fun x =>
    (((s.w.core x.1).onto x.2).sealedBack.filter (fun l => !((s.w.core x.1).health (l / 64)).lost)).map (fun l => State.reseal x.1 l))).flatten)
/-- The office's requests for the save area and for the handler image, once for each member. -/
def State.resumeReqs (s : State) (t : Task) : World :=
  let r := s.w.tenRec t.ten
  (t.partPlaces.foldl (fun a x => a.runReqs t.ten t.runs x.1 x.2) s.w).officeReqs t.ten
    (if field 319 256 r == 0 then [] else [(field 319 256 r, 4 * field 332 320 r)])
/-- The gang goes on where it was stopped. -/
def State.resumeTask (t : Task) (v : Saved) (s : State) : Act :=
  s.inOrder [fun u => { w := (u.resumeReqs t).resumed t (u.readSeqs t v), out := v.writes ++ u.handlerWrites t }, State.resealBack v]
def resumeAct (id : Nat) (s : State) : Act :=
  s.atStage id .saved (fun t =>
    match t.saved with
    | none => only s.w
    | some v =>
      if s.w.canResume v then
        match firstBad (s.partCrcs t) v.crcs 0 with
        | some k =>
          let n := t.cores.length
          only (s.w.setTask { t with stage := .ending, kind := 2, code := 32, info := if k < n then k else k - n + 2 ^ 8,
                                     ipc := 0, icore := 127, ttcEnd := v.gang.lastTtc 0 })
        | none => s.resumeTask t v
      else only s.w)
def execPreemptResume (task : Nat) (s : State) : Host.Outcome State Fault Refusal := done s (resumeAct task s)

/-! ## Debug halts (R274, R357) -/

/-- The gangs of a scope. -/
def World.inScope (w : World) : DbgScope → List Nat
  | .gang g => [g].filter (fun k => (w.gang k).live)
  | .die d => w.liveGangs.filter (fun g => (w.gang g).members.any (fun k => dieOf k == d))
def World.halt (w : World) (gid : Nat) : World :=
  if (w.gang gid).dbg then w else w.modGang gid (fun g => { g with dbg := true, dbgSince := w.now })
/-- On release the halted cycles are counted and the restart gap runs. -/
def World.unhalt (w : World) (gid : Nat) : World :=
  if (w.gang gid).dbg then (w.modGang gid (fun g => g.endHalt w.now)).restartGap gid else w
def eachGang (f : World → Nat → World) (w : World) : List Nat → World
  | [] => w
  | g :: r => eachGang f (f w g) r
/-- A debug request comes through the host port: of tenant 0 alone, a put to the mailbox (R274, R360). -/
def debugAct (f : World → Nat → World) (from_ : Nat) (sc : DbgScope) (s : State) : World :=
  if s.w.hub.mailOpen && from_ == 0 then eachGang f s.w (s.w.inScope sc) else s.w.answer .error
def execDebugHalt (sc : Asked DbgScope) (s : State) : Host.Outcome State Fault Refusal :=
  done s (only (debugAct World.halt sc.from_ sc.arg s))
def execDebugRelease (sc : Asked DbgScope) (s : State) : Host.Outcome State Fault Refusal :=
  done s (only (debugAct World.unhalt sc.from_ sc.arg s))

/-! ## Scans (R343) -/

/-- Bits [127:0] of a closed task's record are written again. -/
def State.rewriteHead (t : Task) (s : State) : Act :=
  match t.stage, t.crecPa with
  | .closed, some (pa, home) => if (s.w.die home).up then State.glbWrite s (s.w.arrived t.ten home 1) pa (leBytes 16 t.recordHead) else only s.w
  | _, _ => only s.w
def markSuspect (ids : List Nat) (w : World) : World := w.modTask (fun t => ids.contains t.order) (fun t => { t with susp := true })
def World.unitOut (w : World) (u : ScanUnit) (out : Bool) : World :=
  match u with
  | .core k _ => w.modCore k (fun c => { c with outOfPlace := out })
  | .strip d _ => w.modDie d (fun x => { x with arrayOut := out })
def unitDie : ScanUnit → Nat
  | .core k _ => dieOf k
  | .strip d _ => d
def unitData : ScanUnit → Nat
  | .core k p => k + p * 2 ^ 7
  | .strip _ n => n * 2 ^ 10
/-- A failed scan: the unit is out of placement, the event logged, and every unconfirmed task that used it is suspect. -/
def scanFailAct (u : ScanUnit) (s : State) : Act :=
  let hit := s.w.hub.tasks.filter (fun t => t.used.contains u && !t.conf && !t.susp)
  let w := markSuspect (hit.map (fun t => t.order)) ((s.w.unitOut u true).logEvent 7 (unitDie u) 0 (unitData u))
  State.inOrder { s with w := w } (hit.map (fun t => State.rewriteHead { t with susp := true }))
def execScanFail (u : ScanUnit) (s : State) : Host.Outcome State Fault Refusal := done s (scanFailAct u s)
/-- A unit that no gang has: the firmware scans it on a schedule of its own (R342). -/
def World.unitIdle (w : World) : ScanUnit → Bool
  | .core k _ => (w.core k).gang.isNone
  | .strip d _ => (w.die d).arrayGang.isNone
/-- Units have passed a scan: what any task used of them before is confirmed. -/
def World.passUnits (w : World) (us : List ScanUnit) : World :=
  w.modTask (fun _ => true) (fun t => { t with used := t.used.filter (fun u => !us.contains u) })
/-- Every unit that a completed task used has passed a scan begun after its last use, the last of them in the firmware's scans
of idle units (log 40): the task is confirmed. -/
def scanConfirmAct (id : Nat) (s : State) : Act :=
  s.atStage id .closed (fun t =>
    if t.susp || t.conf || !t.ran || !t.used.all s.w.unitIdle then only s.w
    else
      let x : Task := { t with conf := true, used := [] }
      s.inOrder [fun u => only ((u.w.passUnits t.used).setTask x), State.rewriteHead x])
def execScanConfirm (task : Nat) (s : State) : Host.Outcome State Fault Refusal := done s (scanConfirmAct task s)
/-- The reliability firmware clears a unit; while it is down, the clearance waits (R371, R375). -/
def clearanceAct (u : ScanUnit) (s : State) : World :=
  if s.w.relDown then s.w.relAsk (.unitClearance u) else (s.w.relDone (.unitClearance u)).unitOut u false
def execUnitClearance (u : ScanUnit) (s : State) : Host.Outcome State Fault Refusal := done s (only (clearanceAct u s))

end Sys2Proof.Machine
end

