-- ==== Sys2Proof/Machine/FVec.lean ====
section
/-! DEFINITION. The F forms: vector float arithmetic, comparison, conversion and scaling (R161-R169). -/
namespace Sys2Proof.Machine
open Sys2Proof

/-- The results of an F form and the flags of its enabled elements, due together (R160, R161). -/
def World.wrFloat (w : World) (lat d bytes : Nat) (rs : List (Nat × Nat)) (en : List Bool) : World :=
  (w.wrLanes lat d bytes (rs.map (·.1)) en).orFlags lat (orEnabled en (rs.map (·.2)))

/-- A form of one operand. -/
def f1 (f : SfFmt) (lat d : Nat) (a : VReg) (g : PredG) (op : Nat → Nat × Nat) (s : State) :
    Host.Outcome State Fault Refusal :=
  let n := sfBytes f
  done s (only ((s.w.rec1 a).wrFloat lat d n ((elems n (s.w.vop 0 a)).map op) (s.w.en g n)))
/-- A form of two operands. -/
def f2 (f : SfFmt) (lat d : Nat) (a : VReg) (b : VSrc) (g : PredG) (op : Nat → Nat → Nat × Nat) (s : State) :
    Host.Outcome State Fault Refusal :=
  let n := sfBytes f
  done s (only ((s.w.rec2 a b).wrFloat lat d n
    (List.zipWith op (elems n (s.w.vop 0 a)) (elems n (s.w.vsrc n b))) (s.w.en g n)))
/-- Three operands, element by element. -/
def zip3 (op : Nat → Nat → Nat → Nat × Nat) : List Nat → List Nat → List Nat → List (Nat × Nat)
  | x :: xs, y :: ys, z :: zs => op x y z :: zip3 op xs ys zs
  | _, _, _ => []
/-- A fused form. -/
def f3 (f : SfFmt) (lat d : Nat) (a : VReg) (b : VSrc) (c : VReg) (g : PredG)
    (op : Nat → Nat → Nat → Nat × Nat) (s : State) : Host.Outcome State Fault Refusal :=
  let n := sfBytes f
  done s (only ((s.w.rec3 a b c).wrFloat lat d n
    (zip3 op (elems n (s.w.vop 0 a)) (elems n (s.w.vsrc n b)) (elems n (s.w.vop 2 c))) (s.w.en g n)))

def execVfadd (f : SfFmt) (rm : RMode) (d : Nat) (a : VReg) (b : VSrc) (g : PredG) (s : State) :
    Host.Outcome State Fault Refusal := f2 f 4 d a b g ((sfSpec f).add rm) s
def execVfsub (f : SfFmt) (rm : RMode) (d : Nat) (a : VReg) (b : VSrc) (g : PredG) (s : State) :
    Host.Outcome State Fault Refusal := f2 f 4 d a b g ((sfSpec f).sub rm) s
def execVfmul (f : SfFmt) (rm : RMode) (d : Nat) (a : VReg) (b : VSrc) (g : PredG) (s : State) :
    Host.Outcome State Fault Refusal := f2 f 4 d a b g ((sfSpec f).mul rm) s
def execVfma (f : SfFmt) (rm : RMode) (d : Nat) (a : VReg) (b : VSrc) (c : VReg) (g : PredG) (s : State) :
    Host.Outcome State Fault Refusal := f3 f 4 d a b c g ((sfSpec f).fma rm) s
def execVfms (f : SfFmt) (rm : RMode) (d : Nat) (a : VReg) (b : VSrc) (c : VReg) (g : PredG) (s : State) :
    Host.Outcome State Fault Refusal := f3 f 4 d a b c g ((sfSpec f).fms rm) s
def execVfnma (f : SfFmt) (rm : RMode) (d : Nat) (a : VReg) (b : VSrc) (c : VReg) (g : PredG) (s : State) :
    Host.Outcome State Fault Refusal := f3 f 4 d a b c g ((sfSpec f).fnma rm) s
def execVfmin (f : SfFmt) (d : Nat) (a : VReg) (b : VSrc) (g : PredG) (s : State) :
    Host.Outcome State Fault Refusal := f2 f 4 d a b g ((sfSpec f).minMax false) s
def execVfmax (f : SfFmt) (d : Nat) (a : VReg) (b : VSrc) (g : PredG) (s : State) :
    Host.Outcome State Fault Refusal := f2 f 4 d a b g ((sfSpec f).minMax true) s
/-- VFABS and VFNEG change only the sign bit and raise no flag (R163). -/
def execVfabs (f : SfFmt) (d : Nat) (a : VReg) (g : PredG) (s : State) : Host.Outcome State Fault Refusal :=
  f1 f 4 d a g (fun x => (x % (sfSpec f).signBit, 0)) s
def execVfneg (f : SfFmt) (d : Nat) (a : VReg) (g : PredG) (s : State) : Host.Outcome State Fault Refusal :=
  f1 f 4 d a g (fun x => ((sfSpec f).flip x, 0)) s
def execVfrcp (f : SfFmt) (rm : RMode) (d : Nat) (a : VReg) (g : PredG) (s : State) :
    Host.Outcome State Fault Refusal := f1 f 8 d a g ((sfSpec f).rcp rm) s
def execVfrsq (f : SfFmt) (rm : RMode) (d : Nat) (a : VReg) (g : PredG) (s : State) :
    Host.Outcome State Fault Refusal := f1 f 8 d a g ((sfSpec f).rsq rm) s
def execVfexp2 (f : SfFmt) (rm : RMode) (d : Nat) (a : VReg) (g : PredG) (s : State) :
    Host.Outcome State Fault Refusal := f1 f 8 d a g ((sfSpec f).exp2 rm) s

/-- VFCMP writes the bits of a predicate (R164). -/
def execVfcmp (f : SfFmt) (c : FCond) (p : Nat) (a : VReg) (b : VSrc) (g : PredG) (s : State) :
    Host.Outcome State Fault Refusal :=
  let n := sfBytes f
  let rs := List.zipWith ((sfSpec f).cmp c) (elems n (s.w.vop 0 a)) (elems n (s.w.vsrc n b))
  let en := s.w.en g n
  done s (only (((s.w.rec2 a b).wrBits 4 p n (rs.map (·.1)) en).orFlags 4 (orEnabled en (rs.map (·.2)))))

/-! ## Conversion (R143, R166) -/

/-- The source element that each destination element converts, if any: widths `ws` to `wd`, part `part` (R143). -/
def cvtPick (ws wd part : Nat) (src : List Nat) : List (Option Nat) :=
  if ws ≤ wd then ((src.drop (part * (1024 / wd))).take (1024 / wd)).map some
  else List.replicate (part * (1024 / ws)) none ++ src.map some ++
       List.replicate (1024 / wd - (part + 1) * (1024 / ws)) none
/-- Elements that are converted and enabled. -/
def cvtEn : List (Option Nat) → List Bool → List Bool
  | x :: xs, e :: es => (x.isSome && e) :: cvtEn xs es
  | _, _ => []
def cvtSrcVal (src : CvtSrc) (x : Nat) : FVal :=
  match src with
  | .f32 => specF32.decode x
  | .bf16 => specBf16.decode x
  | .f16 => specF16.decode x
  | .e4m3 => specE4m3.decode x
  | .e5m2 => specE5m2.decode x
  | .pw8 => pw8Val x
  | .i32 => intVal (signed 32 x)
  | .i8 => intVal (signed 8 x)
/-- A converted element and its flags. -/
def cvtTo (dst : CvtDst) (rm : RMode) (sat : Bool) (v : FVal) : Nat × Nat :=
  let int (k : Nat) : Nat × Nat :=
    let r := toInt rm (-(2 ^ (k - 1))) (2 ^ (k - 1) - 1) v
    ((r.1 % (2 ^ k : Nat)).toNat, r.2)
  match dst with
  | .f32 => specF32.convert rm sat v
  | .bf16 => specBf16.convert rm sat v
  | .f16 => specF16.convert rm sat v
  | .e4m3 => specE4m3.convert rm sat v
  | .e5m2 => specE5m2.convert rm sat v
  | .i32 => int 32
  | .i16 => int 16
  | .i8 => int 8
def execVfcvt (dst : CvtDst) (src : CvtSrc) (rm : RMode) (sat : Bool) (part d : Nat) (a : VReg) (g : PredG)
    (s : State) : Host.Outcome State Fault Refusal :=
  let ps := cvtPick src.bytes dst.bytes part (elems src.bytes (s.w.vop 0 a))
  let rs := ps.map (fun o => (o.map (fun x => cvtTo dst rm sat (cvtSrcVal src x))).getD (0, 0))
  done s (only ((s.w.rec1 a).wrFloat 3 d dst.bytes rs (cvtEn ps (s.w.en g dst.bytes))))

/-! ## Scaling (R169) -/

/-- The scale byte of element `i`: a literal's, byte 0 of the register, or one byte for 32 elements. -/
def World.scaleByte (w : World) (bc : Bool) (b : Src) (i : Nat) : Nat :=
  match b with
  | .lit k => w.lit k % 256
  | .reg n => (w.rdSc n).toNat / 2 ^ (if bc then 0 else 8 * (i / 32)) % 256
/-- Scale the elements from number `i` up. -/
def scaleAll (sp : FSpec) (rm : RMode) (inv : Bool) (k : Nat → Nat) : Nat → List Nat → List (Nat × Nat)
  | _, [] => []
  | i, x :: r => sp.scale rm inv (k i) x :: scaleAll sp rm inv k (i + 1) r
def execVfscl (f : SfFmt) (rm : RMode) (bc inv : Bool) (d : Nat) (a : VReg) (b : Src) (g : PredG) (s : State) :
    Host.Outcome State Fault Refusal :=
  let n := sfBytes f
  done s (only ((s.w.rec1 a).wrFloat 3 d n
    (scaleAll (sfSpec f) rm inv (s.w.scaleByte bc b) 0 (elems n (s.w.vop 0 a))) (s.w.en g n)))

end Sys2Proof.Machine
end

