-- ==== Sys2Proof/Machine/Scalar.lean ====
section
/-! DEFINITION. The A forms: scalar integer and float arithmetic (R97, R102-R118). -/
namespace Sys2Proof.Machine
open Sys2Proof

/-- A two-operand form: its result falls due `lat` cycles after issue (R102, R103). -/
def aBin (lat d a : Nat) (b : Src) (f : Word → Word → Word) (s : State) : Host.Outcome State Fault Refusal :=
  done s (only (s.w.wrS lat d (f (s.w.rdS a) (s.w.src b))))
/-- A one-operand form. -/
def aUn (lat d a : Nat) (f : Word → Word) (s : State) : Host.Outcome State Fault Refusal :=
  done s (only (s.w.wrS lat d (f (s.w.rdS a))))
def ofBool (b : Bool) : Word := if b then 1 else 0

/-! ## Integer, logic and shift forms (R105-R107) -/

/-- A shift count is the low six bits of b (R105). -/
def count6 (b : Word) : Nat := b.toNat % 64
def execAdd (d a : Nat) (b : Src) (s : State) : Host.Outcome State Fault Refusal := aBin 1 d a b (· + ·) s
def execSub (d a : Nat) (b : Src) (s : State) : Host.Outcome State Fault Refusal := aBin 1 d a b (· - ·) s
def execAnd (d a : Nat) (b : Src) (s : State) : Host.Outcome State Fault Refusal := aBin 1 d a b (· &&& ·) s
def execOr (d a : Nat) (b : Src) (s : State) : Host.Outcome State Fault Refusal := aBin 1 d a b (· ||| ·) s
def execXor (d a : Nat) (b : Src) (s : State) : Host.Outcome State Fault Refusal := aBin 1 d a b (· ^^^ ·) s
def execAndn (d a : Nat) (b : Src) (s : State) : Host.Outcome State Fault Refusal :=
  aBin 1 d a b (fun x y => x &&& ~~~y) s
def execShl (d a : Nat) (b : Src) (s : State) : Host.Outcome State Fault Refusal :=
  aBin 1 d a b (fun x y => x <<< count6 y) s
def execShr (d a : Nat) (b : Src) (s : State) : Host.Outcome State Fault Refusal :=
  aBin 1 d a b (fun x y => x >>> count6 y) s
def execSar (d a : Nat) (b : Src) (s : State) : Host.Outcome State Fault Refusal :=
  aBin 1 d a b (fun x y => x.sshiftRight (count6 y)) s
def execRol (d a : Nat) (b : Src) (s : State) : Host.Outcome State Fault Refusal :=
  aBin 1 d a b (fun x y => x.rotateLeft (count6 y)) s
def minS (x y : Word) : Word := if x.slt y then x else y
def maxS (x y : Word) : Word := if x.slt y then y else x
def minU (x y : Word) : Word := if x.ult y then x else y
def maxU (x y : Word) : Word := if x.ult y then y else x
def execMin (d a : Nat) (b : Src) (s : State) : Host.Outcome State Fault Refusal := aBin 1 d a b minS s
def execMax (d a : Nat) (b : Src) (s : State) : Host.Outcome State Fault Refusal := aBin 1 d a b maxS s
def execMinn (d a : Nat) (b : Src) (s : State) : Host.Outcome State Fault Refusal := aBin 1 d a b minU s
def execMaxn (d a : Nat) (b : Src) (s : State) : Host.Outcome State Fault Refusal := aBin 1 d a b maxU s
/-- The conditions of SCMP (R106). -/
def scondHolds (c : SCond) (x y : Word) : Bool :=
  match c with
  | .eq => x == y
  | .ne => x != y
  | .lt => x.slt y
  | .ge => !x.slt y
  | .ltn => x.ult y
  | .gen => !x.ult y
def execScmp (c : SCond) (d a : Nat) (b : Src) (s : State) : Host.Outcome State Fault Refusal :=
  aBin 1 d a b (fun x y => ofBool (scondHolds c x y)) s
def execSel (d a : Nat) (b : Src) (c : Nat) (s : State) : Host.Outcome State Fault Refusal :=
  aBin 1 d a b (fun x y => if s.w.rdS c != 0 then x else y) s

/-! ## Constants, extension and bit fields (R108-R112) -/

/-- The 32-bit value v in the four modes of MOVL (R108). -/
def movVal (m : MovMode) (a v : Word) : Word :=
  match m with
  | .lo => (v.setWidth 32).signExtend 64
  | .lz => (v.setWidth 32).setWidth 64
  | .hi => v <<< 32
  | .hk => (v <<< 32) + (a.setWidth 32).setWidth 64
def execMovl (m : MovMode) (d a : Nat) (b : Src) (s : State) : Host.Outcome State Fault Refusal :=
  aBin 1 d a b (movVal m) s
def extBits : ExtW → Nat
  | .w8 => 8 | .w16 => 16 | .w32 => 32
/-- The low `k` bits extended to 64 (R109). -/
def extVal (k : Nat) (sx : Bool) (x : Word) : Word :=
  if sx then (x.setWidth k).signExtend 64 else (x.setWidth k).setWidth 64
def execExt (x : ExtW) (sx : Bool) (d a : Nat) (s : State) : Host.Outcome State Fault Refusal :=
  aUn 1 d a (extVal (extBits x) sx) s
/-- A bit-field specification: position and true length (R110). -/
def bfPos (b : Word) : Nat := b.toNat % 64
def bfLen (b : Word) : Nat := min (min (b.toNat / 256 % 128) 64) (64 - bfPos b)
def bfxVal (sx : Bool) (x b : Word) : Word :=
  let k := bfLen b
  let f := x.toNat / 2 ^ bfPos b % 2 ^ k
  if sx && 0 < k && bitOf (k - 1) f then word ((f : Int) - 2 ^ k) else BitVec.ofNat 64 f
def bfiVal (base x b : Word) : Word :=
  let m : Word := BitVec.ofNat 64 (2 ^ bfLen b - 1)
  (base &&& ~~~(m <<< bfPos b)) ||| ((x &&& m) <<< bfPos b)
def execBfx (sx : Bool) (d a : Nat) (b : Src) (s : State) : Host.Outcome State Fault Refusal :=
  aBin 1 d a b (bfxVal sx) s
def execBfi (d a : Nat) (b : Src) (s : State) : Host.Outcome State Fault Refusal :=
  aBin 1 d a b (bfiVal (s.w.rdS d)) s
/-- Leading zeros of `n` in `k` bits (R111, R139). -/
def clzNat (k n : Nat) : Nat := k - bitLen (n % 2 ^ k)
/-- One bits among the low `k`. -/
def popNat : Nat → Nat → Nat
  | 0, _ => 0
  | k + 1, n => n % 2 + popNat k (n / 2)
/-- Trailing zeros among the low `k` bits; `k` for zero. -/
def ctzNat : Nat → Nat → Nat
  | 0, _ => 0
  | k + 1, n => if n % 2 == 1 then 0 else 1 + ctzNat k (n / 2)
def execClz (d a : Nat) (s : State) : Host.Outcome State Fault Refusal :=
  aUn 1 d a (fun x => BitVec.ofNat 64 (clzNat 64 x.toNat)) s
def execCtz (d a : Nat) (s : State) : Host.Outcome State Fault Refusal :=
  aUn 1 d a (fun x => BitVec.ofNat 64 (ctzNat 64 x.toNat)) s
def execPopc (d a : Nat) (s : State) : Host.Outcome State Fault Refusal :=
  aUn 1 d a (fun x => BitVec.ofNat 64 (popNat 64 x.toNat)) s
def execLea (d a : Nat) (b : Src) (sh : Nat) (s : State) : Host.Outcome State Fault Refusal :=
  aBin 1 d a b (fun x y => x + y <<< sh) s
/-- The trip number of the loop `depth` below the top, 0 where there is none (R97). -/
def World.loopIdx (w : World) (depth : Nat) : Nat := ((w.cc.ctx.loops[depth]?).map LoopEntry.idx).getD 0
def execLidx (d a : Nat) (b : Src) (depth : Nat) (s : State) : Host.Outcome State Fault Refusal :=
  aBin 1 d a b (fun x y => x + BitVec.ofNat 64 (s.w.loopIdx depth) * y) s

/-! ## Mixing, multiplication and division (R113-R115) -/

/-- The mixing function of R113. -/
def smix (a b : Word) : Word :=
  let x := (a ^^^ b.rotateLeft 23) * 0xC3A59E416B27D58D#64
  let y := (x ^^^ (x >>> 29)) * 0x8F3D2C61E74BA915#64
  y ^^^ (y >>> 32)
def execSmix (d a : Nat) (b : Src) (s : State) : Host.Outcome State Fault Refusal := aBin 2 d a b smix s
def execMul (d a : Nat) (b : Src) (s : State) : Host.Outcome State Fault Refusal := aBin 3 d a b (· * ·) s
def execMulh (d a : Nat) (b : Src) (s : State) : Host.Outcome State Fault Refusal :=
  aBin 3 d a b (fun x y => word ((x.toInt * y.toInt).fdiv (2 ^ 64))) s
def execMulhn (d a : Nat) (b : Src) (s : State) : Host.Outcome State Fault Refusal :=
  aBin 3 d a b (fun x y => BitVec.ofNat 64 (x.toNat * y.toNat / 2 ^ 64)) s
def execMadd (d a : Nat) (b : Src) (s : State) : Host.Outcome State Fault Refusal :=
  aBin 3 d a b (fun x y => s.w.rdS d + x * y) s
/-- Division truncates toward zero; the exceptional cases of R115. -/
def divS (x y : Word) : Word := if y == 0 then BitVec.allOnes 64 else word (x.toInt.tdiv y.toInt)
def remS (x y : Word) : Word := if y == 0 then x else word (x.toInt.tmod y.toInt)
def divU (x y : Word) : Word := if y == 0 then BitVec.allOnes 64 else BitVec.ofNat 64 (x.toNat / y.toNat)
def remU (x y : Word) : Word := if y == 0 then x else BitVec.ofNat 64 (x.toNat % y.toNat)
def execDiv (d a : Nat) (b : Src) (s : State) : Host.Outcome State Fault Refusal := aBin 16 d a b divS s
def execDivn (d a : Nat) (b : Src) (s : State) : Host.Outcome State Fault Refusal := aBin 16 d a b divU s
def execRem (d a : Nat) (b : Src) (s : State) : Host.Outcome State Fault Refusal := aBin 16 d a b remS s
def execRemn (d a : Nat) (b : Src) (s : State) : Host.Outcome State Fault Refusal := aBin 16 d a b remU s

/-! ## Scalar float (R116-R118) -/

/-- A result with its flags, both due at issue + 4; the flags are raised even for `s0`. -/
def sfWrite (d : Nat) (r : Nat × Nat) (s : State) : Host.Outcome State Fault Refusal :=
  done s (only ((s.w.wrS 4 d (BitVec.ofNat 64 r.1)).orFlags 4 r.2))
/-- The low bits of a source in a format's width. -/
def lowBits (f : SfFmt) (x : Word) : Nat := x.toNat % 2 ^ (8 * sfBytes f)
def execSfadd (f : SfFmt) (rm : RMode) (d a : Nat) (b : Src) (s : State) : Host.Outcome State Fault Refusal :=
  sfWrite d ((sfSpec f).add rm (lowBits f (s.w.rdS a)) (lowBits f (s.w.srcZ b))) s
def execSfmul (f : SfFmt) (rm : RMode) (d a : Nat) (b : Src) (s : State) : Host.Outcome State Fault Refusal :=
  sfWrite d ((sfSpec f).mul rm (lowBits f (s.w.rdS a)) (lowBits f (s.w.srcZ b))) s
def execSfma (f : SfFmt) (rm : RMode) (d a : Nat) (b : Src) (s : State) : Host.Outcome State Fault Refusal :=
  sfWrite d ((sfSpec f).fma rm (lowBits f (s.w.rdS a)) (lowBits f (s.w.srcZ b)) (lowBits f (s.w.rdS d))) s
/-- The integer result of a float-to-integer conversion as 64 bits. -/
def intResult (r : Int × Nat) : Nat × Nat := ((word r.1).toNat, r.2)
/-- The conversions of R117. -/
def sfConvert (c : SfConv) (rm : RMode) (x : Word) : Nat × Nat :=
  let n := x.toNat
  let v := specF32.decode (n % 2 ^ 32)
  match c with
  | .f32bf16 => specBf16.convert rm false v
  | .f32f16 => specF16.convert rm false v
  | .bf16f32 => specF32.convert rm false (specBf16.decode (n % 2 ^ 16))
  | .f16f32 => specF32.convert rm false (specF16.decode (n % 2 ^ 16))
  | .f32i32 => intResult (toInt rm (-(2 ^ 31)) (2 ^ 31 - 1) v)
  | .f32n32 => intResult (toInt rm 0 (2 ^ 32 - 1) v)
  | .f32i64 => intResult (toInt rm (-(2 ^ 63)) (2 ^ 63 - 1) v)
  | .f32n64 => intResult (toInt rm 0 (2 ^ 64 - 1) v)
  | .i32f32 => specF32.convert rm false (intVal (signed 32 n))
  | .n32f32 => specF32.convert rm false (intVal (n % 2 ^ 32 : Nat))
  | .i64f32 => specF32.convert rm false (intVal x.toInt)
  | .n64f32 => specF32.convert rm false (intVal n)
def execSfcvt (c : SfConv) (rm : RMode) (d a : Nat) (s : State) : Host.Outcome State Fault Refusal :=
  sfWrite d (sfConvert c rm (s.w.rdS a)) s
def boolFlags (r : Bool × Nat) : Nat × Nat := (bit r.1, r.2)
def execSfcmp (f : SfFmt) (c : FCond) (d a : Nat) (b : Src) (s : State) : Host.Outcome State Fault Refusal :=
  sfWrite d (boolFlags ((sfSpec f).cmp c (lowBits f (s.w.rdS a)) (lowBits f (s.w.srcZ b)))) s

end Sys2Proof.Machine
end

