-- ==== Sys2Proof/Machine/IVec.lean ====
section
/-! DEFINITION. The I forms: vector integer arithmetic (R138-R145). -/
namespace Sys2Proof.Machine
open Sys2Proof

/-- A form of one operand, on the bits of each element. -/
def i1 (f : IFmt) (lat d : Nat) (a : VReg) (g : PredG) (op : Nat → Nat) (s : State) :
    Host.Outcome State Fault Refusal :=
  let n := f.bytes
  done s (only ((s.w.rec1 a).wrLanes lat d n ((elems n (s.w.vop 0 a)).map op) (s.w.en g n)))
/-- A form of two operands, on the bits of each element. -/
def i2 (f : IFmt) (lat d : Nat) (a : VReg) (b : VSrc) (g : PredG) (op : Nat → Nat → Nat) (s : State) :
    Host.Outcome State Fault Refusal :=
  let n := f.bytes
  done s (only ((s.w.rec2 a b).wrLanes lat d n
    (List.zipWith op (elems n (s.w.vop 0 a)) (elems n (s.w.vsrc n b))) (s.w.en g n)))
/-- The value of an element of a format (R139). -/
def iVal (f : IFmt) (x : Nat) : Int := elemVal (iSigned f) f.bytes x
/-- An exact result reduced mod 2^E, or clamped (R139). -/
def iNarrow (f : IFmt) (sat : Bool) (i : Int) : Nat := narrow sat (iSigned f) f.bytes i

def execVadd (f : IFmt) (sat : Bool) (d : Nat) (a : VReg) (b : VSrc) (g : PredG) (s : State) :
    Host.Outcome State Fault Refusal := i2 f 2 d a b g (fun x y => iNarrow f sat (iVal f x + iVal f y)) s
def execVsub (f : IFmt) (sat : Bool) (d : Nat) (a : VReg) (b : VSrc) (g : PredG) (s : State) :
    Host.Outcome State Fault Refusal := i2 f 2 d a b g (fun x y => iNarrow f sat (iVal f x - iVal f y)) s
def execVmul (f : IFmt) (sat : Bool) (d : Nat) (a : VReg) (b : VSrc) (g : PredG) (s : State) :
    Host.Outcome State Fault Refusal := i2 f 4 d a b g (fun x y => iNarrow f sat (iVal f x * iVal f y)) s
def execVmulh (f : IFmt) (d : Nat) (a : VReg) (b : VSrc) (g : PredG) (s : State) :
    Host.Outcome State Fault Refusal :=
  i2 f 4 d a b g (fun x y => elemOf f.bytes ((iVal f x * iVal f y).fdiv (2 ^ (8 * f.bytes) : Nat))) s
/-- A shift count is b mod E; the right shifts ignore the format's signedness (R139). -/
def shiftBy (f : IFmt) (y : Nat) : Nat := y % (8 * f.bytes)
def execVshl (f : IFmt) (d : Nat) (a : VReg) (b : VSrc) (g : PredG) (s : State) :
    Host.Outcome State Fault Refusal := i2 f 2 d a b g (fun x y => x * 2 ^ shiftBy f y) s
def execVshr (f : IFmt) (d : Nat) (a : VReg) (b : VSrc) (g : PredG) (s : State) :
    Host.Outcome State Fault Refusal := i2 f 2 d a b g (fun x y => x / 2 ^ shiftBy f y) s
def execVsar (f : IFmt) (d : Nat) (a : VReg) (b : VSrc) (g : PredG) (s : State) :
    Host.Outcome State Fault Refusal :=
  i2 f 2 d a b g (fun x y => elemOf f.bytes ((elemVal true f.bytes x).fdiv (2 ^ shiftBy f y : Nat))) s
def execVand (f : IFmt) (d : Nat) (a : VReg) (b : VSrc) (g : PredG) (s : State) :
    Host.Outcome State Fault Refusal := i2 f 2 d a b g (fun x y => x &&& y) s
def execVor (f : IFmt) (d : Nat) (a : VReg) (b : VSrc) (g : PredG) (s : State) :
    Host.Outcome State Fault Refusal := i2 f 2 d a b g (fun x y => x ||| y) s
def execVxor (f : IFmt) (d : Nat) (a : VReg) (b : VSrc) (g : PredG) (s : State) :
    Host.Outcome State Fault Refusal := i2 f 2 d a b g (fun x y => x ^^^ y) s
def execVandn (f : IFmt) (d : Nat) (a : VReg) (b : VSrc) (g : PredG) (s : State) :
    Host.Outcome State Fault Refusal :=
  i2 f 2 d a b g (fun x y => x &&& (2 ^ (8 * f.bytes) - 1 - y)) s
def execVmin (f : IFmt) (d : Nat) (a : VReg) (b : VSrc) (g : PredG) (s : State) :
    Host.Outcome State Fault Refusal := i2 f 2 d a b g (fun x y => if iVal f y < iVal f x then y else x) s
def execVmax (f : IFmt) (d : Nat) (a : VReg) (b : VSrc) (g : PredG) (s : State) :
    Host.Outcome State Fault Refusal := i2 f 2 d a b g (fun x y => if iVal f x < iVal f y then y else x) s
def execVabs (f : IFmt) (sat : Bool) (d : Nat) (a : VReg) (g : PredG) (s : State) :
    Host.Outcome State Fault Refusal := i1 f 2 d a g (fun x => iNarrow f sat (iVal f x).natAbs) s
def execVclz (f : IFmt) (d : Nat) (a : VReg) (g : PredG) (s : State) : Host.Outcome State Fault Refusal :=
  i1 f 2 d a g (fun x => clzNat (8 * f.bytes) x) s
def execVpopc (f : IFmt) (d : Nat) (a : VReg) (g : PredG) (s : State) : Host.Outcome State Fault Refusal :=
  i1 f 2 d a g (fun x => popNat (8 * f.bytes) x) s

/-- The four-way dot products of bytes, with an accumulator per lane (R140). -/
def dot4 (sgn : Bool) : List Nat → List Nat → List Nat → List Nat
  | a0 :: a1 :: a2 :: a3 :: as, b0 :: b1 :: b2 :: b3 :: bs, c :: cs =>
    let p (x y : Nat) : Int := elemVal sgn 1 x * elemVal sgn 1 y
    elemOf 4 (p a0 b0 + p a1 b1 + p a2 b2 + p a3 b3 + elemVal sgn 4 c) :: dot4 sgn as bs cs
  | _, _, _ => []
def execVdot4 (sgn acc : Bool) (d : Nat) (a : VReg) (b : VSrc) (c : VReg) (g : PredG) (s : State) :
    Host.Outcome State Fault Refusal :=
  let cs := if acc then elems 4 (s.w.vop 2 c) else List.replicate 256 0
  let w := if acc then s.w.rec3 a b c else s.w.rec2 a b
  done s (only (w.wrLanes 4 d 4 (dot4 sgn (elems 1 (s.w.vop 0 a)) (elems 1 (s.w.vsrc 1 b)) cs) (s.w.en g 4)))

/-- The conditions of VCMP (R141). -/
def vcondHolds (c : VCond) (x y : Int) : Bool :=
  match c with
  | .eq => x == y
  | .ne => x != y
  | .lt => x < y
  | .le => x ≤ y
def execVcmp (f : IFmt) (c : VCond) (p : Nat) (a : VReg) (b : VSrc) (g : PredG) (s : State) :
    Host.Outcome State Fault Refusal :=
  let n := f.bytes
  done s (only ((s.w.rec2 a b).wrBits 2 p n
    (List.zipWith (fun x y => vcondHolds c (iVal f x) (iVal f y)) (elems n (s.w.vop 0 a)) (elems n (s.w.vsrc n b)))
    (s.w.en g n)))
/-- Elements chosen by the bits of a selecting predicate (R141). -/
def select : List Bool → List Nat → List Nat → List Nat
  | c :: cs, x :: xs, y :: ys => (if c then x else y) :: select cs xs ys
  | _, _, _ => []
def execVsel (f : IFmt) (d : Nat) (a : VReg) (b : VSrc) (p : Nat) (g : PredG) (s : State) :
    Host.Outcome State Fault Refusal :=
  let n := f.bytes
  done s (only ((s.w.rec2 a b).wrLanes 2 d n
    (select (predBits n (1024 / n) (s.w.rdP p)) (elems n (s.w.vop 0 a)) (elems n (s.w.vsrc n b))) (s.w.en g n)))
/-- Elements read as signed and clamped to `k` bits, signed or unsigned by the format (R142). -/
def vsatVal (f : IFmt) (k x : Nat) : Nat :=
  let v := elemVal true f.bytes x
  elemOf f.bytes (if iSigned f then max (-(2 ^ (k - 1) : Int)) (min v (2 ^ (k - 1) - 1)) else max 0 (min v (2 ^ k - 1)))
def execVsat (f : IFmt) (k d : Nat) (a : VReg) (g : PredG) (s : State) : Host.Outcome State Fault Refusal :=
  i1 f 3 d a g (vsatVal f k) s
/-- One element converted: a widening is exact, else `.sat` clamps. DESIGN CHOICE: a negative value that is widened to an unsigned
format has no exact value there; R143 does not say what results, and its low bits are taken (log 8). -/
def cvtElem (f src : IFmt) (sat : Bool) (x : Nat) : Nat := iNarrow f (sat && f.bytes ≤ src.bytes) (iVal src x)
/-- VCVT (R143). -/
def execVcvt (f src : IFmt) (sat : Bool) (part d : Nat) (a : VReg) (g : PredG) (s : State) :
    Host.Outcome State Fault Refusal :=
  let ps := cvtPick src.bytes f.bytes part (elems src.bytes (s.w.vop 0 a))
  done s (only ((s.w.rec1 a).wrLanes 3 d f.bytes (ps.map (fun o => (o.map (cvtElem f src sat)).getD 0))
    (cvtEn ps (s.w.en g f.bytes))))
/-- b[i] + i × step, from element `i` up (R144). -/
def ramp (step : Nat) : Nat → List Nat → List Nat
  | _, [] => []
  | i, x :: r => (x + i * step) :: ramp step (i + 1) r
def execVidx (f : IFmt) (step d : Nat) (b : VSrc) (g : PredG) (s : State) : Host.Outcome State Fault Refusal :=
  let n := f.bytes
  done s (only ((s.w.recordB b (s.w.vsrc n b)).wrLanes 2 d n (ramp step 0 (elems n (s.w.vsrc n b))) (s.w.en g n)))
def execVbcs (f : IFmt) (d : Nat) (b : Src) (g : PredG) (s : State) : Host.Outcome State Fault Refusal :=
  let n := f.bytes
  done s (only (s.w.wrLanes 2 d n (List.replicate (1024 / n) (s.w.src b).toNat) (s.w.en g n)))
/-- VSMIX works on pairs of 32-bit lanes; the format's letter changes nothing (R145). DEDUCED: R136 gives its enables a width of
4 bytes, R145's pseudocode one bit for both lanes of a pair: R145, which describes the form, is followed (log 63). -/
def execVsmix (_sgn : Bool) (d : Nat) (a : VReg) (b : VSrc) (g : PredG) (s : State) :
    Host.Outcome State Fault Refusal :=
  let op (x y : Nat) : Nat := (smix (BitVec.ofNat 64 x) (BitVec.ofNat 64 y)).toNat
  done s (only ((s.w.rec2 a b).wrLanes 3 d 8
    (List.zipWith op (elems 8 (s.w.vop 0 a)) (elems 8 (s.w.vsrc 4 b))) (s.w.en g 8)))

end Sys2Proof.Machine
end

