-- ==== Sys2Proof/Machine/Mgmt.lean ====
section
/-! DEFINITION. The mailbox, the host port, the pod ports and the management processor (R119, R127, R171, R197, R236, R255,
R315, R332, R340, R349, R352, R358-R370, R371-R378). -/
namespace Sys2Proof.Machine
open Sys2Proof

/-- A request to the mailbox by a tenant: an error completion for any but tenant 0, and until the mailbox is open (R360, R377). -/
def World.mailbox (w : World) (from_ : Nat) (f : World → World) : World :=
  if w.hub.mailOpen && from_ == 0 then f w else w.answer .error
/-- An identity or update request, which the ROM answers before the mailbox is open (R360, R377). -/
def World.early? (w : World) (from_ : Nat) (f : World → World) : World := if from_ == 0 then f w else w.answer .error
/-- A host request: an error completion until the host port is up (R377). -/
def World.hosted (w : World) (f : World → World) : World := if w.hub.mailOpen then f w else w.answer .error
def State.hosted (s : State) (f : State → Act) : Act := if s.w.hub.mailOpen then f s else only (s.w.answer .error)

/-! ## Tenants, deques and slots (R255, R315, R358) -/

/-- Bits of a tenant record that no field holds read zero. -/
def recordMask : Nat :=
  (2 ^ 30 - 1) + (2 ^ 347 - 2 ^ 64)
def World.hasOpen (w : World) (ten : Nat) : Bool := w.hub.tasks.any (fun t => t.ten == ten && t.stage != .closed)
/-- A tenant's record is written only while it has no open task; tenant 0 has none. -/
def tenantAct (from_ ten : Nat) (v : BitVec 384) (s : State) : World :=
  s.w.mailbox from_ (fun w =>
    if ten == 0 || 65535 < ten || w.hasOpen ten then w.answer .error
    else (w.modHub (fun h => { h with tenants := fput h.tenants ten (v &&& BitVec.ofNat 384 recordMask) })).answer (.status 0))
def execTenantRecordWrite (ten : Asked Nat) (v : BitVec 384) (s : State) : Host.Outcome State Fault Refusal :=
  done s (only (tenantAct ten.from_ ten.arg v s))
def World.dequeTotal (w : World) : Nat := (w.hub.deques.map (fun e => e.2.cap)).sum
/-- A deque is allotted, or withdrawn by capacity 0; refused beyond the total of R255 (log 22). -/
def allotAct (from_ ten id cap : Nat) (s : State) : World :=
  s.w.mailbox from_ (fun w =>
    let d := w.deque id
    let put (x : Deque) : World := (w.modHub (fun h => { h with deques := fput h.deques id x })).answer (.status 0)
    if 1023 < id then w.answer .error
    else if cap == 0 then if d.ten == some ten then put Deque.unallotted else w.answer .error
    else if 4096 < cap || d.ten.isSome || 1048576 < w.dequeTotal + cap then w.answer .error
    else put { ten := some ten, cap := cap, items := [], owner := none })
def execDequeAllot (ten : Asked Nat) (id cap : Nat) (s : State) : Host.Outcome State Fault Refusal :=
  done s (only (allotAct ten.from_ ten.arg id cap s))
/-- An accepted board needs an owned empty slot: its tenant has no other for it, and such a board never fails (R321). -/
def World.slotNeeded (w : World) (k : Nat) : Bool := (w.slot k).own && !w.spare (k / 1024 == 1) (w.slot k).ten
/-- An owned slot is withdrawn: at once where it is empty, else as it passes stop 0, or once no accepted board needs it (log 67). -/
def withdrawAct (from_ : Nat) (ccw : Bool) (n : Nat) (s : State) : World :=
  s.w.mailbox from_ (fun w =>
    let k := slotKey ccw n
    let x := w.slot k
    (w.setSlot k (if x.full || w.slotNeeded k then { x with withdraw := true } else Slot.unowned)).answer (.status 0))
def execSlotWithdraw (ccw : Asked Bool) (n : Nat) (s : State) : Host.Outcome State Fault Refusal :=
  done s (only (withdrawAct ccw.from_ ccw.arg n s))

/-! ## Registers of the management window (R119) -/

/-- A wheel slot register. -/
def wslotOf (v : Nat) : WSlot := { own := bitOf 0 v, ten := field 31 16 v, gang := field 43 32 v }
def World.port (w : World) (n : Nat) : Port := fget w.hub.ports Port.idle n
def World.setPort (w : World) (n : Nat) (x : Port) : World := w.modHub (fun h => { h with ports := fput h.ports n x })
def rehalfCore (w : World) (k : Nat) : World :=
  match (w.core k).gang with
  | some g => w.rehalf g
  | none => w
/-- `ILIM` may fall; it rises only when all phases are whole, which ends the derating (R352). -/
def Reg.limit (r : Reg) (v : Nat) : Reg :=
  if v ≤ r.ilim then { r with ilim := v } else if r.phok == 36 then { r with ilim := v, derated := false } else r
/-- A slot's owner changes only while the slot is empty, and no accepted board needs it (log 67). -/
def World.reown (w : World) (k v : Nat) : World :=
  if (w.slot k).full || w.slotNeeded k then w else w.setSlot k { Slot.unowned with own := bitOf 0 v, ten := field 31 16 v }
/-- Fields of a pod route; `REF` is no one's to write. -/
def Route.written (r : Route) (v : Nat) : Route :=
  { r with valid := bitOf 0 v, ports := field 16 1 v, peer := field 26 17 v, ten := field 47 32 v, key := field 111 48 v }
/-- A row's or a line's place when `XM` changes by `d`, where a course holds `unit` of them: the physical course that it stands in has
another logical number then (R171). -/
def moved (unit d n : Nat) : Nat := n ^^^ (d * unit)
/-- The cells of some bytes from `base` on, a course's each `unit` long, in their new places. -/
def movedCells (sp : Space) (base size unit d : Nat) (l : List Host.Cell) : List MemW :=
  .clear sp base size :: (slice l base size).map (fun e => .bytes sp (base + moved unit d (e.1 - base)) [e.2])
def Core.remapped (c : Core) (d : Nat) : Core :=
  { c with xm := c.xm ^^^ d, stale := (c.stale.map (moved 64 d)).foldl sadd [], poison := (c.poison.map (moved 256 d)).foldl sadd [],
           touched := [], sweep := [] }
def movedErr (k d : Nat) (e : ErrSite × Bool × Nat) : ErrSite × Bool × Nat :=
  match e.1 with
  | .row c r => if c == k then (.row c (moved 256 d r), e.2) else e
  | .mortar c l => if c == k then (.mortar c (moved 64 d l), e.2) else e
  | _ => e
/-- `COURSEMAP` of a core of a gang: everything in the scratchpad keeps its physical course, so that each logical course holds what its
new physical course holds. A core of no gang takes the value; nothing in it outlasts the next placement (R170, R171). -/
def courseMapAct (core v : Nat) (s : State) : Act :=
  let c := s.w.core core
  let d := c.xm ^^^ (v % 32)
  if c.gang.isNone then only (s.w.modCore core (fun c => { c with xm := v % 32 }))
  else
    { w := rehalfCore ({ s.w with softErrs := s.w.softErrs.map (movedErr core d) }.modCore core (fun c => c.remapped d)) core,
      out := movedCells .spd (spdAt core 0) (2 ^ 21) (2 ^ 16) d s.mem.spd ++
        movedCells .mortar (mortarAt core 0 0) (2 ^ 19) (2 ^ 14) d s.mem.mortar }
/-- A system register takes a write of management level, which writes what any level may (R119, R121). -/
def State.putMgmt (core k v : Nat) (s : State) : Act :=
  if k == 0x30 then courseMapAct core v s
  else if k == 0x40 then only (s.w.modCore core (fun c => { c with trapvec := v % 4096 }))
  else only (s.w.putSys core k v)
/-- The images of a pod route and of a key table entry (R365, R369). -/
def Route.image (r : Route) : Nat :=
  bit r.valid + r.ports % 2 ^ 16 * 2 + r.peer % 2 ^ 10 * 2 ^ 17 + r.ten % 2 ^ 16 * 2 ^ 32 + r.key % 2 ^ 64 * 2 ^ 48 + r.ref % 2 ^ 16 * 2 ^ 112
def KeyEntry.image (e : KeyEntry) : Nat :=
  bit e.valid + e.rights % 8 * 2 + e.gang % 2 ^ 12 * 2 ^ 4 + e.ten % 2 ^ 16 * 2 ^ 16 + e.key % 2 ^ 64 * 2 ^ 32 + e.miss % 2 ^ 32 * 2 ^ 96
def KeyEntry.blank : KeyEntry := { valid := false, rights := 0, gang := 0, ten := 0, key := 0, miss := 0 }
/-- A core's gang handles a trap, so that its bundles issue at supervisor level. -/
def World.handling (w : World) (core : Nat) : Bool :=
  match (w.gangAt core).stat with
  | .handler _ => true
  | _ => false
/-- Management reads a system register of a core: its value, of a die counter too, whoever's events it counts (R119, R120; log 65). -/
def World.mgmtRead (w : World) (core k : Nat) : World := w.answer (.data true (leBytes 8 (w.sysReg core (w.handling core) k)))
/-- The management window's other registers: written, or read, as a pod route with its `REF` and a key table entry with its `MISS` are
(R365, R369, R370). -/
def hubRegister (r : MgmtReg) (v : Nat) (s : State) : World :=
  let w := s.w
  match r with
  | .courseMap _ | .trapVec _ | .sys .. => w
  | .read core k => w.mgmtRead core k
  | .routeRead n => w.answer (.data true (leBytes 16 (w.route (n % 32)).image))
  | .keyRead p n => w.answer (.data true (leBytes 16 (fget (w.port (p % 16)).keys KeyEntry.blank (n % 4096)).image))
  | .breakpoint k => w.modCore k (fun c => { c with breakpoint := if bitOf 16 v then some (v % 2 ^ 16) else none })
  | .slot ccw n => w.reown (slotKey ccw n) v
  | .ilim n => w.modReg (n % 4) (fun x => x.limit (v % 2 ^ 10))
  | .vstep n =>
    clcfgAct n (BitVec.ofNat 64 ((w.clCfg (n % 32)).reg + (w.clCfg (n % 32)).dom * 2 ^ 2 + v % 256 * 2 ^ 8 +
      bit (w.clCfg (n % 32)).retr * 2 ^ 16)) s
  | .route n => w.modHub (fun h => { h with routes := fput h.routes (n % 32) ((w.route (n % 32)).written v) })
  | .portWheel p n out =>
    let x := w.port (p % 16)
    w.setPort (p % 16) (if out then { x with wheelOut := fput x.wheelOut (n % 64) (wslotOf v) }
                        else { x with wheelIn := fput x.wheelIn (n % 64) (wslotOf v) })
  | .wtc =>
    if w.hub.tasks.isEmpty then { w with wtcRef := (v % 2 ^ 64 + 2 ^ 64 - w.now / 1000000 % 2 ^ 64) % 2 ^ 64 } else w
def registerAct (r : MgmtReg) (v : Nat) (s : State) : Act :=
  match r with
  | .courseMap k => s.putMgmt k 0x30 v
  | .trapVec k => s.putMgmt k 0x40 v
  | .sys core k => s.putMgmt core k v
  | r => only (hubRegister r v s)
def execRegisterWrite (r : MgmtReg) (v : BitVec 128) (s : State) : Host.Outcome State Fault Refusal :=
  done s (registerAct r v.toNat s)
/-- An interleave set is written only while no lease names it. DESIGN CHOICE: R197 has no member of 8 to 15 and does not say what a write of
one does: all four bits of a member are kept, and the home is of that number (log 72). -/
def isetAct (b : Bool) (v : Nat) (s : State) : World :=
  let named := s.w.hub.tasks.any (fun t => t.runs.any (fun e => e.place == bit b))
  let x := bit (bitOf 0 v) + field 35 4 v * 2 ^ 4
  if named then s.w else s.w.modHub (fun h => if b then { h with isetb := x } else { h with iseta := x })
def execIsetWrite (b : Bool) (v : Word) (s : State) : Host.Outcome State Fault Refusal := done s (only (isetAct b v.toNat s))

/-! ## The host port (R359-R363, R374) -/

/-- First address of the launch window; what lies above it is not memory. -/
def launchWindow : Nat := 0xFFF0000000000
/-- Whether the homes of some bytes are up. -/
def World.homeUp (w : World) (pa : Nat) : Bool := (w.die (w.homeOfPa pa)).up
/-- First address above the launch window: a queue of 8 priorities for each tenant number. -/
def windowEnd : Nat := launchWindow + 64 * 65536
/-- Requests from outside for some 64-byte blocks arrive at their homes over the hub: counted for the tenant (R130). -/
def arrivals (ten : Nat) (w : World) (l : List Nat) : World := l.foldl (fun a x => a.arrived ten (a.homeOfPa x) 1) w
/-- The 64-byte blocks that some bytes touch. -/
def blocksOf (a n : Nat) : List Nat := (List.range ((a + n + 63) / 64 - a / 64)).map (fun i => (a / 64 + i) * 64)
/-- A put of 16 to 256 bytes: each 16-byte part at its home; a home that is down answers with poison. -/
def putParts (a : Nat) : List (BitVec 128) → List (State → Act)
  | [] => []
  | x :: r => (fun s => if s.w.homeUp a then State.glbWrite s s.w a (leBytes 16 x.toNat) else only s.w) :: putParts (a + 16) r
def partAddrs (a n : Nat) : List Nat := (List.range (n / 16)).map (fun i => a + 16 * i)
/-- What a put or a get may name. DESIGN CHOICE: R360 gives puts and gets of 16 to 256 bytes in 16-byte parts and atomics of the `q` codes 0
to 12, and no rule says what another request gets, or one at an address above the launch window: an error completion (log 72). -/
def hostRange (a n : Nat) : Bool := a % 16 == 0 && n % 16 == 0 && 16 ≤ n && n ≤ 256 && a + n ≤ launchWindow
def putAct (from_ a : Nat) (data : List (BitVec 128)) (s : State) : Act :=
  s.hosted (fun s =>
    let n := 16 * data.length
    if hostRange a n then
      s.inOrder ((fun t => only (arrivals from_ t.w (blocksOf a n))) :: putParts a data ++ [fun t => only (t.w.answer (.data ((partAddrs a n).all t.w.homeUp) []))])
    else only (s.w.answer .error))
def execHostPut (addr : Asked Nat) (data : List (BitVec 128)) (s : State) : Host.Outcome State Fault Refusal :=
  done s (putAct addr.from_ addr.arg data s)
/-- A get: the bytes, or a poisoned completion. -/
def getAct (from_ a n : Nat) (s : State) : World :=
  s.w.hosted (fun w =>
    if !hostRange a n then w.answer .error
    else
      (arrivals from_ w (blocksOf a n)).answer
        (if (partAddrs a n).all w.homeUp && !w.poisonedAt a n then .data true (s.mem.bytes .glb a n) else .data false []))
def execHostGet (addr : Asked Nat) (n : Nat) (s : State) : Host.Outcome State Fault Refusal := 
  done s (only (getAct addr.from_ addr.arg n s))
/-- An 8-byte atomic; the 32-bit forms of R186 act on the low 4 bytes and answer as R186 returns the old value (log 62). -/
def atomicAt (reply : World → Answer → World) (a : Nat) (op : AmoOp) (v x : Word) (s : State) : Act :=
  let n := amoBytes op
  if !s.w.homeUp a || s.w.poisonedAt a 8 then only (reply s.w (.data false []))
  else
    let old := s.mem.num .glb a n
    State.glbWrite s (reply s.w (.data true (leBytes 8 (amoOld op old).toNat))) a (leBytes n (amoNew op old v x).1)
/-- The status of a post (log 23 gives the order of the tests). -/
def postStatus (w : World) (from_ ten prio addr : Nat) : Nat :=
  if from_ != ten && from_ != 0 then 4
  else if ten == 0 || !bitOf 0 (w.tenRec ten) then 3
  else if addr % 256 != 0 || 2 ^ 48 ≤ addr then 2
  else if 64 ≤ w.queueLen ten prio then 1
  else 0
/-- A post to the launch window: only status 0 changes the queue. A LAUNCH of the same hub cycle comes after it (R361). -/
def windowAct (from_ ten prio addr : Nat) (s : State) : World :=
  s.w.hosted (fun w =>
    let st := postStatus w from_ ten prio addr
    let no := match s.peek ten addr with | .ok v => field 1503 1472 v | _ => 0
    (if st == 0 then w.postTask w.hubCycle 0 ten prio addr no else w).answer (.status st))
def execLaunchWindowPost (from_ ten prio : Nat) (addr : Word) (s : State) : Host.Outcome State Fault Refusal :=
  done s (only (windowAct from_ ten (prio % 8) addr.toNat s))
/-- An atomic at an address of memory; a swap in the launch window is a post (R361), and another atomic there is none of the supported
requests (log 72). -/
def hostAtomicAct (from_ a : Nat) (op : AmoOp) (v x : Word) (s : State) : Act :=
  s.hosted (fun s =>
    if !hostOp op || a % 8 != 0 then only (s.w.answer .error)
    else if a + 8 ≤ launchWindow then atomicAt World.answer a op v x { s with w := arrivals from_ s.w (blocksOf a 8) }
    else if a < windowEnd && op == .swapI64 then
      only (windowAct from_ ((a - launchWindow) / 64) ((a - launchWindow) / 8 % 8) v.toNat s)
    else only (s.w.answer .error))
def execHostAtomic (addr : Asked Nat) (op : AmoOp) (v w : Word) (s : State) : Host.Outcome State Fault Refusal :=
  done s (hostAtomicAct addr.from_ addr.arg op v w s)
/-- `AMOFLAGS` of a die and tenant are returned and cleared. -/
def amoflagsAct (from_ die ten : Nat) (s : State) : World :=
  s.w.mailbox from_ (fun w =>
    (w.modDie die (fun d => { d with amoflags := fdel d.amoflags ten })).answer
      (.data true (leBytes 8 (fget (w.die die).amoflags 0 ten))))
def execAmoflagsReadClear (die : Asked Nat) (ten : Nat) (s : State) : Host.Outcome State Fault Refusal :=
  done s (only (amoflagsAct die.from_ die.arg ten s))
/-- The mirror ring of a tenant with a valid record, or of the hypervisor. -/
def mirrorAct (from_ ten addr : Nat) (s : State) : World :=
  s.w.mailbox from_ (fun w =>
    if ten == 0 || bitOf 0 (w.tenRec ten) then
      (w.modHub (fun h => { h with mirrors := fput h.mirrors ten addr })).answer (.status 0)
    else w.answer .error)
def execMirrorRingSet (ten : Asked Nat) (addr : Nat) (s : State) : Host.Outcome State Fault Refusal :=
  done s (only (mirrorAct ten.from_ ten.arg addr s))

/-! ## Pod ports (R364-R370) -/

/-- Fields of a key entry; `MISS` is no one's to write. -/
def KeyEntry.written (e : KeyEntry) (v : Nat) : KeyEntry :=
  { e with valid := bitOf 0 v, rights := field 3 1 v, gang := field 15 4 v, ten := field 31 16 v, key := field 95 32 v }
def keyAct (from_ port n : Nat) (v : Nat) (s : State) : World :=
  s.w.mailbox from_ (fun w =>
    let x := w.port (port % 16)
    w.setPort (port % 16) { x with keys := fput x.keys (n % 4096) ((fget x.keys KeyEntry.blank (n % 4096)).written v) })
def execKeyTableWrite (port : Asked Nat) (n : Nat) (v : BitVec 128) (s : State) : Host.Outcome State Fault Refusal :=
  done s (only (keyAct port.from_ port.arg n v.toNat s))
/-- The right that a request needs, its bytes, and the entry's `RIGHTS` bit. -/
def podNeed : PodKind → Option (Nat × Nat)
  | .read => some (0, 64)
  | .write .. | .poisoned .. => some (1, 64)
  | .atomic op _ _ => if hostOp op then some (2, 8) else none
  | .other | .corrupt => none
/-- The response to a request that a port has received waits for a slot of the port's wheel (R367). -/
def World.reply (port ten : Nat) (w : World) (x : Answer) : World :=
  w.setPort port { (w.port port) with resp := (w.port port).resp ++ [(ten, x, w.nextId)] }
def mismatched (ten : Nat) (e : Nat × KeyEntry) : Nat × KeyEntry :=
  if e.2.valid && e.2.ten == ten then (e.1, { e.2 with miss := min (e.2.miss + 1) (2 ^ 32 - 1) }) else e
/-- A request that is refused: counted by the entries that name its tenant, logged for the tenant if it has a record. -/
def World.podMismatch (w : World) (port : Nat) (tagged : Bool) (ten : Nat) : World :=
  let x := w.port port
  let w1 := World.reply port (if tagged then ten else 0) (if tagged then w.setPort port { x with keys := x.keys.map (mismatched ten) } else w) .error
  if tagged && ten != 0 && bitOf 0 (w.tenRec ten) then w1.logEvent 10 8 ten (port + 2 ^ 4) else w1
/-- The runs that serve a gang's requests. -/
def World.runsFor (w : World) (gid ten : Nat) : List Rle :=
  match w.hub.tasks.find? (fun t => t.gid == gid && t.ten == ten && t.stage != .closed) with
  | some t => t.runs
  | none => []
/-- The bytes of a 16-byte part that a mask selects become poison no longer. -/
def unpoisonBytes (w : World) : List Nat → World
  | [] => w
  | a :: r => unpoisonBytes (w.unpoison a 1) r
/-- Part `j` of a masked write, in one: the bytes that the mask does not select stay as they are. -/
def maskedPart (pa : Nat) (mask : BitVec 64) (data : BitVec 512) (j : Nat) (s : State) : Act :=
  let is_ := (List.range 16).map (fun i => 16 * j + i)
  let on := is_.filter (fun i => mask.getLsbD i)
  let bs := is_.map (fun i => if mask.getLsbD i then BitVec.ofNat 8 (data.toNat / 2 ^ (8 * i)) else s.mem.byte .glb (pa + i))
  if on.isEmpty then only s.w
  else s.settled { w := unpoisonBytes s.w (on.map (pa + ·)), out := [.bytes .glb (pa + 16 * j) bs] }
/-- The 16-byte parts of a masked write (R291). -/
def maskedActs (pa : Nat) (mask : BitVec 64) (data : BitVec 512) : List (State → Act) :=
  (List.range 4).map (fun j => maskedPart pa mask data j)
/-- Some masked bytes become poisoned. -/
def World.poisonBytes (w : World) (pa : Nat) (mask : BitVec 64) : World :=
  { w with gpoison := (((List.range 64).filter (fun i => mask.getLsbD i)).map (fun i => pa + i)).foldl sadd w.gpoison }
/-- The completion of a write. -/
def podDone (port ten : Nat) (s : State) : Act := only (World.reply port ten s.w (.data true []))
/-- An accepted request at its home. -/
def State.podServe (s : State) (port ten : Nat) (k : PodKind) (pa : Nat) : Act :=
  match k with
  | .read =>
    only (World.reply port ten s.w (if s.w.poisonedAt pa 64 then .data false [] else .data true (s.mem.bytes .glb pa 64)))
  | .write m d => s.inOrder (maskedActs pa m d ++ [podDone port ten])
  | .poisoned m => only (World.reply port ten (s.w.poisonBytes pa m) (.data true []))
  | .atomic op v x => atomicAt (World.reply port ten) pa op v x s
  | .other | .corrupt => only s.w
/-- A home refuses a request with a retry-after hint of 1 to 65,535 ns, its choice (log 3), and counts it (R203). -/
def World.retryHint (w : World) (port ten home : Nat) : World :=
  { (World.reply port ten (w.countDie home 0x04 ten 1) (.retry (Config.freeNat w.draws % 65535 + 1))) with draws := w.draws + 1 }
/-- Writes and atomics, which a revocation discards. -/
def podWrites : PodKind → Bool
  | .write .. | .poisoned .. | .atomic .. => true
  | _ => false
/-- A request that still fails its link check: refused, and counted against its tenant alone (R368). -/
def linkRefused (w : World) (port ten : Nat) : World :=
  let x := w.port port
  World.reply port ten (w.setPort port { x with refused := fput x.refused ten (fget x.refused 0 ten + 1) }) .error
/-- A request that a port has received: checked by its key table, then by its home. DESIGN CHOICE: where no run of the entry's gang holds
the address, no rule says which home refuses the request and counts it (R203, R366): a free choice of the nine; and where the run lies in
the pod window, none says how the peer is answered: an error completion, with no mismatch, no count and no log entry (log 72). -/
def podCheck (port : Nat) (k : PodKind) (tagged : Bool) (ten key va : Nat) (s : State) : Act :=
  let x := s.w.port port
  if k == .corrupt then only (linkRefused s.w port ten)
  else
    match podNeed k with
    | none => only (s.w.podMismatch port tagged ten)
    | some need =>
      match x.keys.find? (fun e => e.2.valid && e.2.ten == ten && e.2.key == key && bitOf need.1 e.2.rights) with
      | none => only (s.w.podMismatch port tagged ten)
      | some e =>
        if !tagged || va % need.2 != 0 then only (s.w.podMismatch port tagged ten)
        else
          match hit (s.w.runsFor e.2.gang ten) va need.2 need.1 with
          | none =>
            let home := Config.freeNat (s.w.draws + 1) % 9
            only { ((s.w.arrived ten home 1).retryHint port ten home) with draws := s.w.draws + 2 }
          | some r =>
            let home := homeOf s.w.hub r.place r.home (r.pa va)
            let t : State := { s with w := s.w.arrived ten home 1 }
            if bitOf 51 (r.pa va) then only (World.reply port ten s.w .error)
            else if !(s.w.die home).up then only (World.reply port ten s.w (.data false []))
            else if (s.w.die home).revoked.contains r.lid && podWrites k then podDone port ten t
            else if (s.w.die home).revoked.contains r.lid || !(s.w.die home).lids.contains r.lid then only (t.w.retryHint port ten home)
            else t.podServe port ten k (r.pa va)
/-- A pod peer's request; a port that has dropped out refuses it. -/
def podAct (port : Nat) (k : PodKind) (tagged : Bool) (ten key va : Nat) (s : State) : Act :=
  if (s.w.port port).up then podCheck port k tagged ten key va s else only (s.w.answer .error)
def execPodRequest (port : Nat) (k : PodKind) (tagged : Bool) (ten : Nat) (key : Word) (va : Nat) (s : State) :
    Host.Outcome State Fault Refusal := done s (podAct (port % 16) k tagged ten key.toNat va s)
/-- A peer acknowledges or refuses one of an operation's requests that have left. -/
def podAckAct (id : Nat) (ok : Bool) (s : State) : World :=
  match s.w.hub.podOut.find? (fun p => p.id == id && 0 < p.left) with
  | none => s.w
  | some p => (if ok then s.w else s.w.podFailed p 1).setPodOut { p with left := p.left - 1 }
def execPodAck (id : Nat) (ok : Bool) (s : State) : Host.Outcome State Fault Refusal := done s (only (podAckAct id ok s))
/-- Every request of some operations that has left their port fails; what is still to leave is refused there. -/
def failAll (w : World) : List PodOut → World
  | [] => w
  | p :: r => failAll ((w.podFailed p p.left).setPodOut { p with left := 0 }) r
/-- Peers' requests whose responses have not left are refused, and counted against their tenants. -/
def refuseAll (port : Nat) (w : World) : List (Nat × Answer × Nat) → World
  | [] => w
  | x :: r =>
    refuseAll port ((w.setPort port { (w.port port) with
      refused := fput (w.port port).refused x.1 (fget (w.port port).refused 0 x.1 + 1) }).answer .error) r
/-- A port drops out: every request in flight on it is refused. -/
def dropOutAct (port : Nat) (s : State) : World :=
  let x := s.w.port port
  let w := refuseAll port (s.w.setPort port { x with up := false, resp := [] }) x.resp
  failAll w (w.hub.podOut.filter (fun p => p.port == port))
def execPortDropOut (port : Nat) (s : State) : Host.Outcome State Fault Refusal := done s (only (dropOutAct (port % 16) s))

/-! ## Firmware and identity (R371, R375, R376) -/

def firmwareData (rel refused : Bool) (version : Nat) : Nat := bit rel + bit refused * 2 + version % 2 ^ 32 * 4
/-- Leaves of a signature tree of height 20 (R3, R375, R376). -/
def leafCount : Nat := 2 ^ 20
/-- An image is accepted by its signature, leaf and version. -/
def World.acceptsImage (w : World) (rel : Bool) (version leaf image sig : Nat) : Bool :=
  Config.signatureOk image sig && max (w.firmware false).leaf (w.firmware true).leaf < leaf && leaf < leafCount &&
    (w.firmware rel).minVersion ≤ version
/-- Bring-up scans the units in order: one that fails is logged and stays out of placement (R343, R377). Which fail is free (log 3). -/
def scanUnits (draw : Nat) (w : World) (n : Nat) : List ScanUnit → World
  | [] => w
  | u :: r =>
    scanUnits draw (if Config.scanOk draw n then w else (w.unitOut u true).logEvent 7 (unitDie u) 0 (unitData u)) (n + 1) r
/-- An accepted image takes the place of one that failed at power-on: with both in order, a bring-up that stands at its second step goes
on, scans every unit and opens the mailbox (R375, R377). -/
def World.bringUp (w : World) (rel : Bool) : World :=
  let bad := w.hub.bootBad.filter (· != rel)
  let w1 := w.modHub (fun h => { h with bootBad := bad })
  if w.hub.mailOpen || !bad.isEmpty then w1
  else (scanUnits w.draws { w1 with draws := w.draws + 1 } 0 (unitsOf allCores)).modHub (fun h => { h with mailOpen := true })
/-- An accepted image is swapped in before the next heartbeat, the table frozen until then; a refused one changes nothing. Either
is logged. -/
def updateAct (from_ : Nat) (rel : Bool) (version leaf image sig : Nat) (s : State) : World :=
  s.w.early? from_ (fun w =>
    if w.acceptsImage rel version leaf image sig then
      let w1 := (w.setFw rel { (w.firmware rel) with version := version, leaf := leaf, image := image, updating := true }).modHub (fun h =>
        { h with frozen := h.frozen || !rel })
      (w1.logEvent 11 8 0 (firmwareData rel false version)).bringUp rel
    else w.logEvent 11 8 0 (firmwareData rel true version))
def execFirmwareUpdate (rel : Asked Bool) (version leaf : Nat) (image sig : Nat) (s : State) :
    Host.Outcome State Fault Refusal := done s (only (updateAct rel.from_ rel.arg version leaf image sig s))
/-- The part number ONB-48, and the stepping B0 (R1, R376). -/
def partNumber : Nat := 48
def stepping : Nat := 0xB0
/-- The identity record and the nonce, signed with the next leaf; status 1 when every leaf has been used. -/
def attestAct (from_ : Nat) (nonce : BitVec 256) (s : State) : World :=
  s.w.early? from_ (fun w =>
    let n := w.hub.leaves
    if leafCount ≤ n then w.answer (.status 1)
    else
      let ss := (List.range 9).map Config.serial
      let vs := [(w.firmware false).version, (w.firmware true).version]
      let ds := [Config.digest (w.firmware false).image, Config.digest (w.firmware true).image]
      let sig := Config.sign ([partNumber, stepping] ++ ss ++ vs ++ ds.map (fun d => d.toNat) ++ [nonce.toNat]) n
      (w.modHub (fun h => { h with leaves := n + 1 })).answer (.identity partNumber stepping ss vs ds nonce (n + 1) sig))
def execAttestationRequest (nonce : Asked (BitVec 256)) (s : State) : Host.Outcome State Fault Refusal :=
  done s (only (attestAct nonce.from_ nonce.arg s))

/-! ## Resets (R204, R377, R378) -/

/-- Tasks with a core on a die. -/
def World.tasksOn (w : World) (die : Nat) : List Task :=
  w.hub.tasks.filter (fun t => t.cores.any (fun k => dieOf k == die && (w.core k).gang == some t.gid))
/-- A task is killed: one that has run to its end and has its regions still to write back too (R202, R272, R377). -/
def killOrder (id : Nat) (s : State) : World :=
  match s.w.taskBy id with
  | some t => if t.stage == .ending && t.kind == 0 && !t.wbDone then s.w.setTask (t.cancelled 1 t.ttcEnd) else cancelTask s t
  | none => s.w
def killNow (id : Nat) : List (State → Act) := [fun s => only (killOrder id s), fun s => killAct id s]
def wipeCores (die : Nat) (w : World) : List Nat → World
  | [] => w
  | k :: r =>
    wipeCores die (if dieOf k == die then
      (w.clearCoreErrs k).modCore k (fun c =>
        { Core.zero with courses := c.courses, scanPos := c.scanPos, outOfPlace := c.outOfPlace }.withLost)
      else w) r
def wipeMem (k : Nat) : List MemW :=
  [.clear .spd (spdAt k 0) (2 ^ 21), .clear .mortar (mortarAt k 0 0) (2 ^ 19), .clear .isp (ispAt k 0) (2 ^ 18),
   .clear .hst (hstAt k 0) (2 ^ 14)]
/-- What a die's reset clears beside its cores: its array and its counters. DESIGN CHOICE: R377 has the memory controllers alive and does not
list what is reset: what serves memory, the hub's wheel slots, the scan position, a failed array and a thermal trip stay (log 73). -/
def Die.wiped (d : Die) : Die := { d.freshArray none with devsel := [], devc := [] }
/-- A compute die is reset: its tasks are killed first, its memory controllers stay alive. -/
def resetDie (die : Nat) (s : State) : Act :=
  s.inOrder (((s.w.tasksOn die).map (fun t => killNow t.order)).flatten ++
    [fun t => ({ w := (wipeCores die t.w allCores).modDie die Die.wiped, out := ((allCores.filter (fun k => dieOf k == die)).map wipeMem).flatten } : Act)])
def dieResetAct (from_ die : Nat) (s : State) : Act :=
  if s.w.hub.mailOpen && from_ == 0 then resetDie die s else only (s.w.answer .error)
def execDieReset (die : Asked Nat) (s : State) : Host.Outcome State Fault Refusal :=
  done s (dieResetAct die.from_ die.arg s)
/-- A firmware image after a power-on: the image that the boot store holds, and what the device keeps of the leaf last accepted and the
version in its fuses (R375). -/
def Fw.kept (x : Fw) : Fw := { x with beat := 0, updating := false }
/-- The images that fail at a power-on: at least one of the two, freely chosen (log 3). -/
def bootFailures (draw : Nat) : List Bool :=
  if Config.bootOk draw then []
  else if Config.freeNat draw % 3 == 0 then [false] else if Config.freeNat draw % 3 == 1 then [true] else [false, true]
/-- Bring-up: every byte of memory is zero and everything stands as R378 says. The firmware images, the leaves used and the bricks that
have failed stay (R181, R375, R376; log 73). Where an image of the boot store fails, the mailbox stays shut, and the refusal of that
image is logged (R375, R377): which fail and their versions are free (log 3). The model's own fields go on. -/
def powerOnAct (s : State) : World :=
  let bad := bootFailures s.w.draws
  let w : World := { World.zero with
    cores := s.w.cores.map (fun e => (e.1, { Core.zero with courses := e.2.courses }.withLost)), script := s.w.script,
    draws := s.w.draws + 4, nextId := s.w.nextId,
    hub := { Hub.zero with mailOpen := bad.isEmpty, bootBad := bad, fw := s.w.hub.fw.map (fun e => (e.1, e.2.kept)), leaves := s.w.hub.leaves } }
  if bad.isEmpty then scanUnits (s.w.draws + 3) w 0 (unitsOf allCores)
  else bad.foldl (fun a rel => a.logEvent 11 8 0 (firmwareData rel true (Config.freeNat (s.w.draws + 1 + bit rel)))) w
def execPowerOnReset (s : State) : Host.Outcome State Fault Refusal := .next { w := powerOnAct s, mem := Mems.zero }

/-! ## Errors that arise (R172, R178, R340) -/

/-- A word of an instruction store that cannot be corrected marks its area invalid. -/
def Core.areaLost (c : Core) (word : Nat) : Core :=
  match areaOf word with
  | 0 => { c with resInvalid := true }
  | 1 => { c with ctx := { c.ctx with halfA := 5 } }
  | _ => { c with ctx := { c.ctx with halfB := 5 } }
/-- An error in the aligned 32-bit word of a bit of a site. -/
def inWord (t : ErrSite) (n : Nat) (e : ErrSite × Bool × Nat) : Bool := decide (e.1 = t) && e.2.2 / 32 == n / 32
/-- A bit error arises at a site; an uncorrectable mortar row of a course that is not degraded makes its line stale. A second bit in
error in a word makes a double-bit error there (R172). DESIGN CHOICE: no rule says which bits of a register, a latch or a tile share a
code; those of an aligned 32-bit word do, as in a scratchpad (log 76). -/
def softErrorAct (t : ErrSite) (dbl : Bool) (n : Nat) (s : State) : World :=
  let d := dbl || s.w.softErrs.any (fun e => inWord t n e && (e.2.1 || e.2.2 != n))
  let rest : World := { s.w with softErrs := s.w.softErrs.filter (fun e => !inWord t n e) }
  let kept : World := { rest with softErrs := rest.softErrs ++ [(t, d, n)] }
  match t with
  | .word k a => if d then rest.modCore k (fun c => c.areaLost a) else kept
  | .handlerWord k _ => if d then rest.modCore k (fun c => { c with hstInvalid := true }) else kept
  | .mortar k line =>
    if d && !((s.w.core k).health (line / 64)).degraded then rest.modCore k (fun c => { c with stale := sadd c.stale line })
    else kept
  | .slot k => if (s.w.slot k).full then kept else s.w
  | _ => kept
def execSoftError (t : ErrSite) (dbl : Bool) (bitNo : Nat) (s : State) : Host.Outcome State Fault Refusal :=
  done s (only (softErrorAct t dbl bitNo s))

end Sys2Proof.Machine
end

