-- ==== Sys2Proof/Machine/Perm.lean ====
section
/-! DEFINITION. The P forms: permutes, reductions, packing and predicates (R146-R152). -/
namespace Sys2Proof.Machine
open Sys2Proof

/-- Lanes of a format. -/
def lanesOf (f : PFmt) : Nat := 1024 / pBytes f
/-- Scalar operand b as an element index modulo N (R138, R147, R151). -/
def World.index (w : World) (f : PFmt) (b : Src) : Nat := (w.src b).toNat % lanesOf f

/-! ## Moving elements (R147, R148) -/

/-- d[i] ← a[b[i] mod N]; for bytes, within each 256-byte row (R147). -/
def permAll (n : Nat) (a : List Nat) : Nat → List Nat → List Nat
  | _, [] => []
  | i, x :: r => at0 a (if n == 1 then i / 256 * 256 + x else x % (1024 / n)) :: permAll n a (i + 1) r
def execVperm (f : PFmt) (d : Nat) (a : VReg) (b : VSrc) (g : PredG) (s : State) :
    Host.Outcome State Fault Refusal :=
  let n := pBytes f
  done s (only ((s.w.rec2 a b).wrLanes 4 d n (permAll n (elems n (s.w.vop 0 a)) 0 (elems n (s.w.vsrc n b))) (s.w.en g n)))
/-- A rotation toward element 0. -/
def execVrot (f : PFmt) (d : Nat) (a : VReg) (b : Src) (g : PredG) (s : State) :
    Host.Outcome State Fault Refusal :=
  let n := pBytes f
  let es := elems n (s.w.vop 0 a)
  let k := s.w.index f b
  done s (only ((s.w.rec1 a).wrLanes 3 d n (es.drop k ++ es.take k) (s.w.en g n)))
/-- Elements of two lists in turn. -/
def interleave : List Nat → List Nat → List Nat
  | x :: xs, y :: ys => x :: y :: interleave xs ys
  | _, _ => []
/-- Every second element: the first, or the second, of each pair. -/
def everySecond (odd : Bool) : List Nat → List Nat
  | x :: y :: r => (if odd then y else x) :: everySecond odd r
  | _ => []
/-- The patterns of R147. -/
def shufVal (p : Shuf) (n : Nat) (a b : List Nat) : List Nat :=
  match p with
  | .ziplo => interleave (a.take (n / 2)) (b.take (n / 2))
  | .ziphi => interleave (a.drop (n / 2)) (b.drop (n / 2))
  | .even => everySecond false a ++ everySecond false b
  | .odd => everySecond true a ++ everySecond true b
  | .rev => a.reverse
def execVshuf (f : PFmt) (p : Shuf) (d : Nat) (a : VReg) (b : VSrc) (g : PredG) (s : State) :
    Host.Outcome State Fault Refusal :=
  let n := pBytes f
  let w := if p == .rev then s.w.rec1 a else s.w.rec2 a b
  done s (only (w.wrLanes 3 d n
    (shufVal p (lanesOf f) (elems n (s.w.vop 0 a)) (elems n (s.w.vsrc n b))) (s.w.en g n)))
/-- The 1 KiB at byte `o` of a followed by b (R148). -/
def window (a b : Line) (o : Nat) : Line := BitVec.ofNat 8192 ((a.toNat + 2 ^ 8192 * b.toNat) / 2 ^ (8 * o))
def execVrmg (f : PFmt) (d : Nat) (a : VReg) (b : VSrc) (c : Nat) (g : PredG) (s : State) :
    Host.Outcome State Fault Refusal :=
  let n := pBytes f
  done s (only ((s.w.rec2 a b).wrV 3 d (window (s.w.vop 0 a) (s.w.vsrc n b) ((s.w.rdS c).toNat % 1024))
    (laneMask n (s.w.en g n))))
def execVwin (f : PFmt) (k d : Nat) (a : VReg) (b : VSrc) (g : PredG) (s : State) :
    Host.Outcome State Fault Refusal :=
  let n := pBytes f
  done s (only ((s.w.rec2 a b).wrV 3 d (window (s.w.vop 0 a) (s.w.vsrc n b) (k * n)) (laneMask n (s.w.en g n))))

/-! ## Reductions and prefixes (R149) -/

/-- What has been gathered of a reduction's operands. For floats: NaNs, infinities of each sign, the exact sum in
units of the least subnormal, whether every operand was +0 and whether every one was −0; the best bits so far. -/
structure Gather where
  n : Nat
  nan : Bool
  sig : Bool
  pinf : Bool
  ninf : Bool
  sum : Int
  allPz : Bool
  allNz : Bool
  best : Nat
  deriving DecidableEq, Repr

def Gather.empty : Gather :=
  { n := 0, nan := false, sig := false, pinf := false, ninf := false, sum := 0, allPz := true, allNz := true, best := 0 }
/-- The exponent of the least subnormal (R153). -/
def FSpec.low (f : FSpec) : Int := 1 - (f.bias : Int) - f.fb
def Gather.addInt (g : Gather) (sgn : Bool) (w : Nat) (op : RedOp) (x : Nat) : Gather :=
  let v := elemVal sgn w x
  let better : Bool := match op with
    | .max => elemVal sgn w g.best < v
    | _ => v < elemVal sgn w g.best
  { g with n := g.n + 1, sum := g.sum + v, best := if g.n == 0 || better then x else g.best }
def Gather.addFloat (g : Gather) (f : FSpec) (op : RedOp) (x : Nat) : Gather :=
  let v := f.decode x
  let better : Bool := match op with
    | .max => (f.decode g.best).below v
    | _ => v.below (f.decode g.best)
  let m : Int := match v with
    | .fin n m e => sInt n m * 2 ^ (e - f.low).toNat
    | _ => 0
  { n := g.n + 1, nan := g.nan || v.isNan, sig := g.sig || v.isSig,
    pinf := g.pinf || (match v with | .inf false => true | _ => false),
    ninf := g.ninf || (match v with | .inf true => true | _ => false),
    sum := g.sum + m, allPz := g.allPz && v.isPosZero, allNz := g.allNz && v.isNegZero,
    best := if !v.isNan && (g.n == 0 || (f.decode g.best).isNan || better) then x else g.best }
/-- The integer result of an operation over what was gathered. -/
def Gather.intResult (g : Gather) (sgn : Bool) (w : Nat) (op : RedOp) (sat : Bool) : Nat × Nat :=
  let low : Int := if sgn then -(2 ^ (8 * w - 1)) else 0
  let high : Int := if sgn then 2 ^ (8 * w - 1) - 1 else 2 ^ (8 * w) - 1
  match op with
  | .sum => (narrow sat sgn w g.sum, 0)
  | .min => (if g.n == 0 then elemOf w high else g.best, 0)
  | .max => (if g.n == 0 then elemOf w low else g.best, 0)
/-- With `.sat`, an infinity becomes the greatest finite value of its sign. -/
def FSpec.clampInf (f : FSpec) (sat : Bool) (x : Nat) : Nat :=
  match f.decode x with
  | .inf n => if sat then f.signed n f.maxFin else x
  | _ => x
/-- The float result of an operation over what was gathered, and its flags. -/
def Gather.floatResult (g : Gather) (f : FSpec) (op : RedOp) (rm : RMode) (sat : Bool) : Nat × Nat :=
  if g.nan then (f.nan, nvIf g.sig)
  else
    match op with
    | .sum =>
      if g.pinf && g.ninf then (f.nan, flagNV)
      else if g.pinf then (f.clampInf sat (f.inf false), 0)
      else if g.ninf then (f.clampInf sat (f.inf true), 0)
      else if g.n == 0 then (0, 0)
      else if g.sum == 0 then (f.signed (!g.allPz && (g.allNz || rm == .rdn)) 0, 0)
      else f.roundNZ rm (g.sum < 0) g.sum.natAbs f.low sat
    | .min => (f.clampInf sat (if g.n == 0 then f.inf false else g.best), 0)
    | .max => (f.clampInf sat (if g.n == 0 then f.inf true else g.best), 0)

def Gather.add (g : Gather) (f : PFmt) (op : RedOp) (x : Nat) : Gather :=
  if f.isFloat then g.addFloat (pSpec f) op x else g.addInt (pSigned f) (pBytes f) op x
def Gather.result (g : Gather) (f : PFmt) (op : RedOp) (rm : RMode) (sat : Bool) : Nat × Nat :=
  if f.isFloat then g.floatResult (pSpec f) op rm sat else g.intResult (pSigned f) (pBytes f) op sat
/-- Gather the enabled elements. -/
def gatherAll (f : PFmt) (op : RedOp) : Gather → List Nat → List Bool → Gather
  | g, x :: xs, e :: es => gatherAll f op (if e then g.add f op x else g) xs es
  | g, _, _ => g
/-- The prefixes: inclusive, or exclusive. -/
def prefixes (f : PFmt) (op : RedOp) (ex : Bool) (rm : RMode) (sat : Bool) :
    Gather → List Nat → List Bool → List (Nat × Nat)
  | g, x :: xs, e :: es =>
    let g1 := if e then g.add f op x else g
    (if ex then g else g1).result f op rm sat :: prefixes f op ex rm sat g1 xs es
  | _, _, _ => []
/-- VRED: disabled elements do not contribute; the whole register is written. -/
def execVred (f : PFmt) (op : RedOp) (rm : RMode) (sat : Bool) (d : Nat) (a : VReg) (g : PredG) (s : State) :
    Host.Outcome State Fault Refusal :=
  let n := pBytes f
  let r := (gatherAll f op Gather.empty (elems n (s.w.vop 0 a)) (s.w.en g n)).result f op rm sat
  done s (only (((s.w.rec1 a).wrV 6 d (lineOf n [r.1]) allV).orFlags 6 r.2))
def execVscan (f : PFmt) (op : RedOp) (ex : Bool) (rm : RMode) (sat : Bool) (d : Nat) (a : VReg) (g : PredG)
    (s : State) : Host.Outcome State Fault Refusal :=
  let n := pBytes f
  done s (only ((s.w.rec1 a).wrFloat 8 d n
    (prefixes f op ex rm sat Gather.empty (elems n (s.w.vop 0 a)) (s.w.en g n)) (s.w.en g n)))

/-! ## Packing and unpacking (R150) -/

/-- An element narrowed to half its width. -/
def packOne (f : PFmt) (rm : RMode) (sat : Bool) (x : Nat) : Nat × Nat :=
  if f.isFloat then specBf16.convert rm sat (specF32.decode x)
  else (narrow sat (pSigned f) (pBytes f / 2) (elemVal (pSigned f) (pBytes f) x), 0)
def execVpack (f : PFmt) (rm : RMode) (sat : Bool) (d : Nat) (a : VReg) (b : VSrc) (g : PredG) (s : State) :
    Host.Outcome State Fault Refusal :=
  let n := pBytes f
  done s (only ((s.w.rec2 a b).wrFloat 3 d (n / 2)
    ((elems n (s.w.vop 0 a) ++ elems n (s.w.vsrc n b)).map (packOne f rm sat)) (s.w.en g (n / 2))))
/-- An element extended to twice its width; `bf16` becomes `f32`, a NaN the canonical one (R154). DESIGN CHOICE: R150 calls the conversion exact
and gives flags for VPACK alone; a signalling NaN raises invalid here as it does in the other conversions (log 74). -/
def unpackOne (f : PFmt) (x : Nat) : Nat × Nat :=
  if f.isFloat then specF32.convert .rne false (specBf16.decode x)
  else (elemOf (2 * pBytes f) (elemVal (pSigned f) (pBytes f) x), 0)
def execVunpk (f : PFmt) (hi : Bool) (d : Nat) (a : VReg) (g : PredG) (s : State) :
    Host.Outcome State Fault Refusal :=
  let n := pBytes f
  let es := (elems n (s.w.vop 0 a)).drop (if hi then lanesOf f / 2 else 0)
  done s (only ((s.w.rec1 a).wrFloat 3 d (2 * n) ((es.take (lanesOf f / 2)).map (unpackOne f)) (s.w.en g (2 * n))))

/-! ## Single elements and predicates (R151, R152) -/

def execVext (f : PFmt) (d : Nat) (a : VReg) (b : Src) (s : State) : Host.Outcome State Fault Refusal :=
  let n := pBytes f
  let e := at0 (elems n (s.w.vop 0 a)) (s.w.index f b)
  done s (only ((s.w.rec1 a).wrS 3 d (word (elemVal (pSigned f) n e))))
def execVins (f : PFmt) (d a : Nat) (b : Src) (s : State) : Host.Outcome State Fault Refusal :=
  let n := pBytes f
  let i := s.w.index f b
  let at_ (v : Nat) : Line := BitVec.ofNat 8192 (v % 2 ^ (8 * n) * 2 ^ (8 * n * i))
  done s (only (s.w.wrV 3 d (at_ (s.w.rdS a).toNat) (at_ (2 ^ (8 * n) - 1))))
def execPand (d a b : Nat) (s : State) : Host.Outcome State Fault Refusal :=
  done s (only (s.w.wrP 1 d (s.w.rdP a &&& s.w.rdP b) allP))
def execPor (d a b : Nat) (s : State) : Host.Outcome State Fault Refusal :=
  done s (only (s.w.wrP 1 d (s.w.rdP a ||| s.w.rdP b) allP))
def execPxor (d a b : Nat) (s : State) : Host.Outcome State Fault Refusal :=
  done s (only (s.w.wrP 1 d (s.w.rdP a ^^^ s.w.rdP b) allP))
def execPnot (d a : Nat) (s : State) : Host.Outcome State Fault Refusal :=
  done s (only (s.w.wrP 1 d (~~~(s.w.rdP a)) allP))
/-- PMOV: bit 7 of each byte to a predicate, or a predicate to bytes of all ones or zeros (R152). -/
def execPmov (p2v : Bool) (d : Nat) (a : VReg) (s : State) : Host.Outcome State Fault Refusal :=
  if p2v then
    done s (only (s.w.wrV 2 d (laneMask 1 (predBits 1 1024 (s.w.rdP a.n))) allV))
  else
    done s (only ((s.w.rec1 a).wrP 2 d
      (predOfBits 1 ((elems 1 (s.w.vop 0 a)).map (fun x => bitOf 7 x))) allP))

end Sys2Proof.Machine
end

