-- ==== Sys2Proof/Machine/Dispatch.lean ====
section
/-! DEFINITION. The dispatcher: one arm per instruction, each one call of its meaning. -/
namespace Sys2Proof.Machine
open Sys2Proof

def exec (i : Instr) (s : State) : Host.Outcome State Fault Refusal :=
  match i with
  | .br off => Sys2Proof.Machine.execBr off s
  | .bri a => Sys2Proof.Machine.execBri a s
  | .bc c a off => Sys2Proof.Machine.execBc c a off s
  | .bp m p off => Sys2Proof.Machine.execBp m p off s
  | .call off => Sys2Proof.Machine.execCall off s
  | .calli a => Sys2Proof.Machine.execCalli a s
  | .ret => Sys2Proof.Machine.execRet s
  | .loop a stg off => Sys2Proof.Machine.execLoop a stg off s
  | .lend => Sys2Proof.Machine.execLend s
  | .lbrk k => Sys2Proof.Machine.execLbrk k s
  | .brswap a => Sys2Proof.Machine.execBrswap a s
  | .trap k => Sys2Proof.Machine.execTrap k s
  | .halt => Sys2Proof.Machine.execHalt s
  | .rft => Sys2Proof.Machine.execRft s
  | .rstrt => Sys2Proof.Machine.execRstrt s
  | .pwin a m => Sys2Proof.Machine.execPwin a m s
  | .add d a b => Sys2Proof.Machine.execAdd d a b s
  | .sub d a b => Sys2Proof.Machine.execSub d a b s
  | .and d a b => Sys2Proof.Machine.execAnd d a b s
  | .or d a b => Sys2Proof.Machine.execOr d a b s
  | .xor d a b => Sys2Proof.Machine.execXor d a b s
  | .andn d a b => Sys2Proof.Machine.execAndn d a b s
  | .shl d a b => Sys2Proof.Machine.execShl d a b s
  | .shr d a b => Sys2Proof.Machine.execShr d a b s
  | .sar d a b => Sys2Proof.Machine.execSar d a b s
  | .rol d a b => Sys2Proof.Machine.execRol d a b s
  | .min d a b => Sys2Proof.Machine.execMin d a b s
  | .max d a b => Sys2Proof.Machine.execMax d a b s
  | .minn d a b => Sys2Proof.Machine.execMinn d a b s
  | .maxn d a b => Sys2Proof.Machine.execMaxn d a b s
  | .scmp c d a b => Sys2Proof.Machine.execScmp c d a b s
  | .sel d a b c => Sys2Proof.Machine.execSel d a b c s
  | .movl m d a b => Sys2Proof.Machine.execMovl m d a b s
  | .ext w sx d a => Sys2Proof.Machine.execExt w sx d a s
  | .bfx sx d a b => Sys2Proof.Machine.execBfx sx d a b s
  | .bfi d a b => Sys2Proof.Machine.execBfi d a b s
  | .clz d a => Sys2Proof.Machine.execClz d a s
  | .ctz d a => Sys2Proof.Machine.execCtz d a s
  | .popc d a => Sys2Proof.Machine.execPopc d a s
  | .lea d a b sh => Sys2Proof.Machine.execLea d a b sh s
  | .lidx d a b depth => Sys2Proof.Machine.execLidx d a b depth s
  | .smix d a b => Sys2Proof.Machine.execSmix d a b s
  | .mul d a b => Sys2Proof.Machine.execMul d a b s
  | .mulh d a b => Sys2Proof.Machine.execMulh d a b s
  | .mulhn d a b => Sys2Proof.Machine.execMulhn d a b s
  | .madd d a b => Sys2Proof.Machine.execMadd d a b s
  | .div d a b => Sys2Proof.Machine.execDiv d a b s
  | .divn d a b => Sys2Proof.Machine.execDivn d a b s
  | .rem d a b => Sys2Proof.Machine.execRem d a b s
  | .remn d a b => Sys2Proof.Machine.execRemn d a b s
  | .sfadd fmt rm d a b => Sys2Proof.Machine.execSfadd fmt rm d a b s
  | .sfmul fmt rm d a b => Sys2Proof.Machine.execSfmul fmt rm d a b s
  | .sfma fmt rm d a b => Sys2Proof.Machine.execSfma fmt rm d a b s
  | .sfcvt c rm d a => Sys2Proof.Machine.execSfcvt c rm d a s
  | .sfcmp fmt c d a b => Sys2Proof.Machine.execSfcmp fmt c d a b s
  | .lds sz sx t ea => Sys2Proof.Machine.execLds sz sx t ea s
  | .sts sz bulk t ea => Sys2Proof.Machine.execSts sz bulk t ea s
  | .ldv t ea => Sys2Proof.Machine.execLdv t ea s
  | .stv t ea => Sys2Proof.Machine.execStv t ea s
  | .ldr k t ea => Sys2Proof.Machine.execLdr k t ea s
  | .str k bulk t ea => Sys2Proof.Machine.execStr k bulk t ea s
  | .ldb sz t ea => Sys2Proof.Machine.execLdb sz t ea s
  | .amo op t ea => Sys2Proof.Machine.execAmo op t ea s
  | .pseal t ea => Sys2Proof.Machine.execPseal t ea s
  | .pstat k t ea => Sys2Proof.Machine.execPstat k t ea s
  | .gld sz sx t ea => Sys2Proof.Machine.execGld sz sx t ea s
  | .gst sz t ea => Sys2Proof.Machine.execGst sz t ea s
  | .gldv t ea => Sys2Proof.Machine.execGldv t ea s
  | .gstv t ea => Sys2Proof.Machine.execGstv t ea s
  | .gamo op t ea => Sys2Proof.Machine.execGamo op t ea s
  | .vfadd fmt rm d a b g => Sys2Proof.Machine.execVfadd fmt rm d a b g s
  | .vfsub fmt rm d a b g => Sys2Proof.Machine.execVfsub fmt rm d a b g s
  | .vfmul fmt rm d a b g => Sys2Proof.Machine.execVfmul fmt rm d a b g s
  | .vfma fmt rm d a b c g => Sys2Proof.Machine.execVfma fmt rm d a b c g s
  | .vfms fmt rm d a b c g => Sys2Proof.Machine.execVfms fmt rm d a b c g s
  | .vfnma fmt rm d a b c g => Sys2Proof.Machine.execVfnma fmt rm d a b c g s
  | .vfmin fmt d a b g => Sys2Proof.Machine.execVfmin fmt d a b g s
  | .vfmax fmt d a b g => Sys2Proof.Machine.execVfmax fmt d a b g s
  | .vfabs fmt d a g => Sys2Proof.Machine.execVfabs fmt d a g s
  | .vfneg fmt d a g => Sys2Proof.Machine.execVfneg fmt d a g s
  | .vfcmp fmt c p a b g => Sys2Proof.Machine.execVfcmp fmt c p a b g s
  | .vfrcp fmt rm d a g => Sys2Proof.Machine.execVfrcp fmt rm d a g s
  | .vfrsq fmt rm d a g => Sys2Proof.Machine.execVfrsq fmt rm d a g s
  | .vfexp2 fmt rm d a g => Sys2Proof.Machine.execVfexp2 fmt rm d a g s
  | .vfcvt dst src rm sat part d a g => Sys2Proof.Machine.execVfcvt dst src rm sat part d a g s
  | .vfscl fmt rm bc inv d a b g => Sys2Proof.Machine.execVfscl fmt rm bc inv d a b g s
  | .vadd fmt sat d a b g => Sys2Proof.Machine.execVadd fmt sat d a b g s
  | .vsub fmt sat d a b g => Sys2Proof.Machine.execVsub fmt sat d a b g s
  | .vmul fmt sat d a b g => Sys2Proof.Machine.execVmul fmt sat d a b g s
  | .vmulh fmt d a b g => Sys2Proof.Machine.execVmulh fmt d a b g s
  | .vdot4 sgn acc d a b c g => Sys2Proof.Machine.execVdot4 sgn acc d a b c g s
  | .vshl fmt d a b g => Sys2Proof.Machine.execVshl fmt d a b g s
  | .vshr fmt d a b g => Sys2Proof.Machine.execVshr fmt d a b g s
  | .vsar fmt d a b g => Sys2Proof.Machine.execVsar fmt d a b g s
  | .vand fmt d a b g => Sys2Proof.Machine.execVand fmt d a b g s
  | .vor fmt d a b g => Sys2Proof.Machine.execVor fmt d a b g s
  | .vxor fmt d a b g => Sys2Proof.Machine.execVxor fmt d a b g s
  | .vandn fmt d a b g => Sys2Proof.Machine.execVandn fmt d a b g s
  | .vmin fmt d a b g => Sys2Proof.Machine.execVmin fmt d a b g s
  | .vmax fmt d a b g => Sys2Proof.Machine.execVmax fmt d a b g s
  | .vabs fmt sat d a g => Sys2Proof.Machine.execVabs fmt sat d a g s
  | .vcmp fmt c p a b g => Sys2Proof.Machine.execVcmp fmt c p a b g s
  | .vsel fmt d a b p g => Sys2Proof.Machine.execVsel fmt d a b p g s
  | .vsat fmt k d a g => Sys2Proof.Machine.execVsat fmt k d a g s
  | .vcvt fmt src sat part d a g => Sys2Proof.Machine.execVcvt fmt src sat part d a g s
  | .vclz fmt d a g => Sys2Proof.Machine.execVclz fmt d a g s
  | .vpopc fmt d a g => Sys2Proof.Machine.execVpopc fmt d a g s
  | .vidx fmt step d b g => Sys2Proof.Machine.execVidx fmt step d b g s
  | .vsmix sgn d a b g => Sys2Proof.Machine.execVsmix sgn d a b g s
  | .vbcs fmt d b g => Sys2Proof.Machine.execVbcs fmt d b g s
  | .vperm fmt d a b g => Sys2Proof.Machine.execVperm fmt d a b g s
  | .vrot fmt d a b g => Sys2Proof.Machine.execVrot fmt d a b g s
  | .vshuf fmt pat d a b g => Sys2Proof.Machine.execVshuf fmt pat d a b g s
  | .vrmg fmt d a b c g => Sys2Proof.Machine.execVrmg fmt d a b c g s
  | .vwin fmt k d a b g => Sys2Proof.Machine.execVwin fmt k d a b g s
  | .vred fmt op rm sat d a g => Sys2Proof.Machine.execVred fmt op rm sat d a g s
  | .vscan fmt op ex rm sat d a g => Sys2Proof.Machine.execVscan fmt op ex rm sat d a g s
  | .vpack fmt rm sat d a b g => Sys2Proof.Machine.execVpack fmt rm sat d a b g s
  | .vunpk fmt hi d a g => Sys2Proof.Machine.execVunpk fmt hi d a g s
  | .vext fmt d a b => Sys2Proof.Machine.execVext fmt d a b s
  | .vins fmt d a b => Sys2Proof.Machine.execVins fmt d a b s
  | .pand d a b => Sys2Proof.Machine.execPand d a b s
  | .por d a b => Sys2Proof.Machine.execPor d a b s
  | .pxor d a b => Sys2Proof.Machine.execPxor d a b s
  | .pnot d a => Sys2Proof.Machine.execPnot d a s
  | .pmov p2v d a => Sys2Proof.Machine.execPmov p2v d a s
  | .bcopy e d x c => Sys2Proof.Machine.execBcopy e d x c s
  | .tcopy e d x c => Sys2Proof.Machine.execTcopy e d x c s
  | .bfill glb sz d v c => Sys2Proof.Machine.execBfill glb sz d v c s
  | .bchk k a b => Sys2Proof.Machine.execBchk k a b s
  | .ifill hb a b => Sys2Proof.Machine.execIfill hb a b s
  | .send lane v p => Sys2Proof.Machine.execSend lane v p s
  | .sends a p => Sys2Proof.Machine.execSends a p s
  | .recv v p => Sys2Proof.Machine.execRecv v p s
  | .recvs t p => Sys2Proof.Machine.execRecvs t p s
  | .mcast lane v p => Sys2Proof.Machine.execMcast lane v p s
  | .signal a b => Sys2Proof.Machine.execSignal a b s
  | .bararr t b => Sys2Proof.Machine.execBararr t b s
  | .bardrp t b => Sys2Proof.Machine.execBardrp t b s
  | .barwt a b => Sys2Proof.Machine.execBarwt a b s
  | .dqpush t a b => Sys2Proof.Machine.execDqpush t a b s
  | .dqpop t b => Sys2Proof.Machine.execDqpop t b s
  | .dqsteal t b => Sys2Proof.Machine.execDqsteal t b s
  | .launch t a => Sys2Proof.Machine.execLaunch t a s
  | .twait b => Sys2Proof.Machine.execTwait b s
  | .sigwt a b => Sys2Proof.Machine.execSigwt a b s
  | .mlease t => Sys2Proof.Machine.execMlease t s
  | .mrel => Sys2Proof.Machine.execMrel s
  | .mcfg => Sys2Proof.Machine.execMcfg s
  | .tload m tr q n a b => Sys2Proof.Machine.execTload m tr q n a b s
  | .tstore m tile a b => Sys2Proof.Machine.execTstore m tile a b s
  | .tzero tile => Sys2Proof.Machine.execTzero tile s
  | .mma as z acc a w => Sys2Proof.Machine.execMma as z acc a w s
  | .tcvt rm sat n acc k => Sys2Proof.Machine.execTcvt rm sat n acc k s
  | .tscl n a b => Sys2Proof.Machine.execTscl n a b s
  | .cboard ccw a n => Sys2Proof.Machine.execCboard ccw a n s
  | .calight ccw cp t a n => Sys2Proof.Machine.execCalight ccw cp t a n s
  | .ccatch ccw t a n => Sys2Proof.Machine.execCcatch ccw t a n s
  | .ccatchv ccw t a n => Sys2Proof.Machine.execCcatchv ccw t a n s
  | .crepl ccw t a n => Sys2Proof.Machine.execCrepl ccw t a n s
  | .crost ccw t n => Sys2Proof.Machine.execCrost ccw t n s
  | .srr d k => Sys2Proof.Machine.execSrr d k s
  | .srw k b => Sys2Proof.Machine.execSrw k b s
  | .rdtt d => Sys2Proof.Machine.execRdtt d s
  | .rdwt d => Sys2Proof.Machine.execRdwt d s
  | .scld n a b => Sys2Proof.Machine.execScld n a b s
  | .fence sc => Sys2Proof.Machine.execFence sc s
  | .ifence => Sys2Proof.Machine.execIfence s
  | .cropen b => Sys2Proof.Machine.execCropen b s
  | .crclose => Sys2Proof.Machine.execCrclose s
  | .scangap => Sys2Proof.Machine.execScangap s
  | .evctl op die b => Sys2Proof.Machine.execEvctl op die b s
  | .emptyBundle => Sys2Proof.Machine.execEmptyBundle s
  | .zeroWeightCycle => Sys2Proof.Machine.execZeroWeightCycle s
  | .areaFallThrough => Sys2Proof.Machine.execAreaFallThrough s
  | .misdirectedTransfer => Sys2Proof.Machine.execMisdirectedTransfer s
  | .exposedWrite core => Sys2Proof.Machine.execExposedWrite core s
  | .resultArrival id => Sys2Proof.Machine.execResultArrival id s
  | .postedCommit id line => Sys2Proof.Machine.execPostedCommit id line s
  | .late core id => Sys2Proof.Machine.execLate core id s
  | .amoCoveredWrite core => Sys2Proof.Machine.execAmoCoveredWrite core s
  | .trapinst core => Sys2Proof.Machine.execTrapinst core s
  | .engineStart id => Sys2Proof.Machine.execEngineStart id s
  | .engineSourceRead id k => Sys2Proof.Machine.execEngineSourceRead id k s
  | .engineGlobalPerform id k => Sys2Proof.Machine.execEngineGlobalPerform id k s
  | .engineComplete id => Sys2Proof.Machine.execEngineComplete id s
  | .homePerform id k => Sys2Proof.Machine.execHomePerform id k s
  | .retryResend id => Sys2Proof.Machine.execRetryResend id s
  | .homeDown die => Sys2Proof.Machine.execHomeDown die s
  | .poisonedResponse id => Sys2Proof.Machine.execPoisonedResponse id s
  | .leaseRevocation lid die => Sys2Proof.Machine.execLeaseRevocation lid die s
  | .wheelSlot die out => Sys2Proof.Machine.execWheelSlot die out s
  | .signalAdd id => Sys2Proof.Machine.execSignalAdd id s
  | .watchGrant gang => Sys2Proof.Machine.execWatchGrant gang s
  | .barrierBatch bar => Sys2Proof.Machine.execBarrierBatch bar s
  | .dequeApply id => Sys2Proof.Machine.execDequeApply id s
  | .collectiveRelease gang => Sys2Proof.Machine.execCollectiveRelease gang s
  | .leaseDurationExpiry die => Sys2Proof.Machine.execLeaseDurationExpiry die s
  | .scanLimitExpiry gang => Sys2Proof.Machine.execScanLimitExpiry gang s
  | .scanFail u => Sys2Proof.Machine.execScanFail u s
  | .scanConfirm task => Sys2Proof.Machine.execScanConfirm task s
  | .ifillComplete id => Sys2Proof.Machine.execIfillComplete id s
  | .arrayCommit id => Sys2Proof.Machine.execArrayCommit id s
  | .mcfgCommit id => Sys2Proof.Machine.execMcfgCommit id s
  | .mortarSweep core course => Sys2Proof.Machine.execMortarSweep core course s
  | .ringPassage ccw slot stop => Sys2Proof.Machine.execRingPassage ccw slot stop s
  | .rosterRequest id => Sys2Proof.Machine.execRosterRequest id s
  | .cfull id => Sys2Proof.Machine.execCfull id s
  | .cmiss id => Sys2Proof.Machine.execCmiss id s
  | .admitTask => Sys2Proof.Machine.execAdmitTask s
  | .priorityAging task => Sys2Proof.Machine.execPriorityAging task s
  | .residency task => Sys2Proof.Machine.execResidency task s
  | .hypervisorRetry task => Sys2Proof.Machine.execHypervisorRetry task s
  | .hypervisorDecline task => Sys2Proof.Machine.execHypervisorDecline task s
  | .placement task => Sys2Proof.Machine.execPlacement task s
  | .launchFill task => Sys2Proof.Machine.execLaunchFill task s
  | .dispatch task => Sys2Proof.Machine.execDispatch task s
  | .taskComplete gang => Sys2Proof.Machine.execTaskComplete gang s
  | .boundWriteback task => Sys2Proof.Machine.execBoundWriteback task s
  | .completionRecordWrite task => Sys2Proof.Machine.execCompletionRecordWrite task s
  | .preemptRequest gang => Sys2Proof.Machine.execPreemptRequest gang s
  | .preemptStop gang => Sys2Proof.Machine.execPreemptStop gang s
  | .preemptResume task => Sys2Proof.Machine.execPreemptResume task s
  | .kill task => Sys2Proof.Machine.execKill task s
  | .cancel task => Sys2Proof.Machine.execCancel task s
  | .debugHalt sc => Sys2Proof.Machine.execDebugHalt sc s
  | .debugRelease sc => Sys2Proof.Machine.execDebugRelease sc s
  | .classChangeApply gang => Sys2Proof.Machine.execClassChangeApply gang s
  | .classChangeTimeout gang => Sys2Proof.Machine.execClassChangeTimeout gang s
  | .brickRetire core course brick => Sys2Proof.Machine.execBrickRetire core course brick s
  | .brickHardFail core course brick => Sys2Proof.Machine.execBrickHardFail core course brick s
  | .courseLost core course brick => Sys2Proof.Machine.execCourseLost core course brick s
  | .courseFailing core course brick => Sys2Proof.Machine.execCourseFailing core course brick s
  | .limiterSample reg imeas => Sys2Proof.Machine.execLimiterSample reg imeas s
  | .phaseLoss reg => Sys2Proof.Machine.execPhaseLoss reg s
  | .thermalTrip die sensor => Sys2Proof.Machine.execThermalTrip die sensor s
  | .thermalTripEnd die sensor => Sys2Proof.Machine.execThermalTripEnd die sensor s
  | .undervoltRetreat dom => Sys2Proof.Machine.execUndervoltRetreat dom s
  | .heartbeat rel => Sys2Proof.Machine.execHeartbeat rel s
  | .heartbeatMiss => Sys2Proof.Machine.execHeartbeatMiss s
  | .safeTable => Sys2Proof.Machine.execSafeTable s
  | .freqTableWrite dom mhz => Sys2Proof.Machine.execFreqTableWrite dom mhz s
  | .enmeasUpdate cluster nj => Sys2Proof.Machine.execEnmeasUpdate cluster nj s
  | .reliabilityRestart => Sys2Proof.Machine.execReliabilityRestart s
  | .clcfgWrite n v => Sys2Proof.Machine.execClcfgWrite n v s
  | .domclsWrite v => Sys2Proof.Machine.execDomclsWrite v s
  | .isetWrite b v => Sys2Proof.Machine.execIsetWrite b v s
  | .registerWrite r v => Sys2Proof.Machine.execRegisterWrite r v s
  | .tenantRecordWrite ten v => Sys2Proof.Machine.execTenantRecordWrite ten v s
  | .dequeAllot ten id cap => Sys2Proof.Machine.execDequeAllot ten id cap s
  | .slotWithdraw ccw n => Sys2Proof.Machine.execSlotWithdraw ccw n s
  | .keyTableWrite port n v => Sys2Proof.Machine.execKeyTableWrite port n v s
  | .mirrorRingSet ten addr => Sys2Proof.Machine.execMirrorRingSet ten addr s
  | .amoflagsReadClear die ten => Sys2Proof.Machine.execAmoflagsReadClear die ten s
  | .hostPut addr data => Sys2Proof.Machine.execHostPut addr data s
  | .hostGet addr n => Sys2Proof.Machine.execHostGet addr n s
  | .hostAtomic addr op v w => Sys2Proof.Machine.execHostAtomic addr op v w s
  | .launchWindowPost from_ ten prio addr => Sys2Proof.Machine.execLaunchWindowPost from_ ten prio addr s
  | .podRequest port k tagged ten key va => Sys2Proof.Machine.execPodRequest port k tagged ten key va s
  | .podAck id ok => Sys2Proof.Machine.execPodAck id ok s
  | .firmwareUpdate rel version leaf image sig => Sys2Proof.Machine.execFirmwareUpdate rel version leaf image sig s
  | .attestationRequest nonce => Sys2Proof.Machine.execAttestationRequest nonce s
  | .dieReset die => Sys2Proof.Machine.execDieReset die s
  | .powerOnReset => Sys2Proof.Machine.execPowerOnReset s
  | .softError site dbl bitNo => Sys2Proof.Machine.execSoftError site dbl bitNo s
  | .unitClearance u => Sys2Proof.Machine.execUnitClearance u s
  | .deviceRepair r => Sys2Proof.Machine.execDeviceRepair r s
  | .memoryPlaneReset die => Sys2Proof.Machine.execMemoryPlaneReset die s
  | .portDropOut port => Sys2Proof.Machine.execPortDropOut port s

end Sys2Proof.Machine
end

