-- ==== Sys2Proof/Machine/Turn.lean ====
section
/-! DEFINITION. What the machine does next: the order of the outside world's events, the hub's work and the cycles of the
gangs (log 1), and how an instruction is placed to be the next that runs. -/
namespace Sys2Proof.Machine
open Sys2Proof

/-! ## Events -/

/-- The steps that come from outside a cycle: a script may name them. Slot operations and the steps inside a cycle come from
bundles and due times alone. -/
def isEvent : Instr → Bool
  | .late .. | .resultArrival .. | .engineGlobalPerform .. | .homePerform .. | .retryResend .. | .homeDown .. | .poisonedResponse ..
  | .leaseRevocation .. | .wheelSlot .. | .signalAdd .. | .watchGrant .. | .barrierBatch .. | .dequeApply ..
  | .collectiveRelease .. | .scanFail .. | .scanConfirm .. | .mortarSweep .. | .rosterRequest .. | .admitTask
  | .priorityAging .. | .residency .. | .hypervisorRetry .. | .hypervisorDecline .. | .placement .. | .launchFill ..
  | .dispatch .. | .taskComplete .. | .boundWriteback .. | .completionRecordWrite .. | .preemptRequest .. | .preemptStop ..
  | .preemptResume .. | .kill .. | .cancel .. | .debugHalt .. | .debugRelease .. | .brickRetire .. | .brickHardFail ..
  | .courseLost .. | .courseFailing .. | .limiterSample .. | .phaseLoss .. | .thermalTrip .. | .thermalTripEnd ..
  | .undervoltRetreat .. | .heartbeat .. | .heartbeatMiss | .safeTable | .freqTableWrite .. | .enmeasUpdate ..
  | .reliabilityRestart | .clcfgWrite .. | .domclsWrite .. | .isetWrite .. | .registerWrite .. | .tenantRecordWrite ..
  | .dequeAllot .. | .slotWithdraw .. | .keyTableWrite .. | .mirrorRingSet .. | .amoflagsReadClear .. | .hostPut .. | .hostGet ..
  | .hostAtomic .. | .launchWindowPost .. | .podRequest .. | .podAck .. | .firmwareUpdate .. | .attestationRequest ..
  | .dieReset .. | .powerOnReset | .softError .. | .unitClearance .. | .deviceRepair .. | .memoryPlaneReset ..
  | .portDropOut .. => true
  | _ => false

/-! ## The hub's work, where the script names nothing -/

/-- Work on gangs: a stop that is asked for, a watch, a release, a completion. -/
def gangWork (s : State) (gid : Nat) : Option Instr :=
  let g := s.w.gang gid
  if !g.live then none
  else if g.preempt && g.heldNow && !g.dbg && (s.w.taskOfGang gid).isSome then some (.preemptStop gid)
  else if g.waits.any (fun x => s.w.found g.tenant x || needsWatch s.w.hub x && s.w.hub.watches.length < 1024) then some (.watchGrant gid)
  else if s.w.canRelease gid then some (.collectiveRelease gid)
  else if s.w.finished gid then some (.taskComplete gid)
  else none
/-- The stage of a task after an action differs from the one before, or it has come to wait for the hypervisor. -/
def moves (s : State) (id : Nat) (f : State → World) : Bool :=
  ((f s).taskBy id).map (fun t => (t.stage, t.s2wait)) != (s.w.taskBy id).map (fun t => (t.stage, t.s2wait))
/-- Work on a task. -/
def taskWork (t : Task) : Option Instr :=
  match t.stage with
  | .ending =>
    if t.wbDone then some (.completionRecordWrite t.order)
    else if t.kind == 0 then some (.boundWriteback t.order) else some (.kill t.order)
  | .filled => some (.dispatch t.order)
  | .placed => some (.launchFill t.order)
  | _ => none
/-- Those that wait for a resource, the highest priority first: a pre-empted gang by its own, before the records of it; then the
earliest admitted. -/
def claimKey (now : Nat) (t : Task) : Nat :=
  match t.stage with
  | .saved => 2 * (7 - t.level)
  | _ => 2 * (7 - t.effective now) + 1
def coreWork (s : State) (t : Task) : Option Instr :=
  match t.stage with
  | .saved => match t.saved with
    | some v => if s.w.canResume v then some (.preemptResume t.order) else none
    | none => none
  | .resident => if moves s t.order (fun x => (placementAct t.order x).w) then some (.placement t.order) else none
  | .admitted => if moves s t.order (fun x => (residencyAct t.order x).w) then some (.residency t.order) else none
  | _ => none
/-- The gangs that have been asked to stop. -/
def World.stopping (w : World) : List Nat := (w.gangs.filter (fun e => e.2.live && e.2.preempt)).map (·.1)
/-- Of some candidates in order, the first with which the task fits when those before it are gone as well. -/
def firstNeeded (w : World) (t : Task) : List Nat → List Nat → Option Nat
  | _, [] => none
  | gone, g :: r => if (w.placing t (g :: gone)).isSome then some g else firstNeeded w t (g :: gone) r
/-- A gang to pre-empt for a record that waits for cores: of the lowest priority, then the latest dispatched; where one is not enough,
the gangs before it in that order are gone as well. Those that have been asked count as gone (R269). -/
def victimFor (s : State) (t : Task) : Option Nat :=
  let asked := s.w.stopping
  if t.stage != .resident || (s.w.placing t asked).isSome then none
  else
    let c := s.w.hub.tasks.filter (fun x => x.stage == .run && x.save != 0 && (s.w.gang x.gid).live && x.level < t.effective s.w.now && !asked.contains x.gid)
    firstNeeded s.w t asked ((sortBy (fun x => x.level) (sortBy (fun x => 2 ^ 64 - x.wstart) c)).map (fun x => x.gid))
def askStop (s : State) : Option Instr :=
  ((sortBy (claimKey s.w.now) s.w.hub.tasks).findSome? (victimFor s)).map (fun g => .preemptRequest g)
/-- Records are taken from their queues and the round-robin follows time, before the next record is admitted. -/
def admitWork (s : State) : Option Instr :=
  if s.w.hub.tasks.isEmpty then none
  else if s.refreshed.hub != s.w.hub then s.w.hub.tasks.head?.map (fun t => .priorityAging t.order)
  else if s.w.nextRecord.isSome then some .admitTask else none
/-- A refused request whose hint has expired is sent again (R203). -/
def retryWork (s : State) : Option Instr := (s.w.flights.find? (fun f => f.retries s.w.now)).map (fun f => .retryResend f.id)
/-- What the firmware and its heartbeats bring with time: undervolt retreats, the frozen and the safe table, the restart of the
reliability image, and what has waited for it (R354, R355, R371). -/
def firmwareWork (s : State) : Option Instr :=
  let w := s.w
  match (List.range 8).find? w.overRetreat with
  | some d => some (.undervoltRetreat d)
  | none =>
    if !w.hub.frozen && w.beatMissed then some .heartbeatMiss
    else if !w.hub.safe && w.controllerHung then some .safeTable
    else if (w.firmware true).beat + 100000000000000 ≤ w.now then some .reliabilityRestart
    else if w.relDown then none else w.hub.relWait.head?
/-- What a held gang has under way takes effect while it is held. -/
def heldWork (s : State) : Option Instr :=
  (s.w.flights.find? (fun f =>
    !f.held && (s.w.gang f.gang).heldNow && (s.w.gang f.gang).live && !isEng f.op && (arrivalAct f.id s).w.flights != s.w.flights)).map
    (fun f => .resultArrival f.id)
def orElseOf : List (Unit → Option Instr) → Option Instr
  | [] => none
  | f :: r =>
    match f () with
    | some i => some i
    | none => orElseOf r
def State.hubWork (s : State) : Option Instr :=
  orElseOf [fun _ => retryWork s, fun _ => firmwareWork s, fun _ => heldWork s, fun _ => s.w.liveGangs.findSome? (gangWork s),
    fun _ => s.w.hub.tasks.findSome? taskWork, fun _ => admitWork s,
    fun _ => (sortBy (claimKey s.w.now) s.w.hub.tasks).findSome? (coreWork s), fun _ => askStop s]
/-- A gang that advances: running or in a handler, and not halted for debug. -/
def Gang.runs (g : Gang) : Bool :=
  g.live && !g.dbg && (match g.stat with | .running => true | .handler _ => true | _ => false)
/-- The gang whose next cycle comes first. -/
def earliest : List (Nat × Gang) → Option (Nat × Gang)
  | [] => none
  | e :: r =>
    match earliest r with
    | some x => if e.2.nextAt ≤ x.2.nextAt then some e else some x
    | none => some e
def State.nextTurn (s : State) : Turn :=
  match s.hubWork with
  | some i => .ev i
  | none =>
    match earliest (s.w.gangs.filter (fun e => e.2.runs)) with
    | some e => .cycle e.1
    | none => .pass 1000000

/-! ## A turn -/

/-- Time goes on to an instant, and with it the carousel (R314) and the LAUNCHes of hub cycles that are over (R361). -/
def World.till (w : World) (t : Nat) : World := World.launchesDue (World.ringTo { w with now := max w.now t })
/-- Time is that of the gang's next cycle. -/
def State.at_ (s : State) (gid : Nat) : State := s.withW (s.w.till (s.w.gang gid).nextAt)
def takeTurn (run : Run) (t : Turn) (s : State) : State :=
  match t with
  | .ev i => if isEvent i then run i s else s
  | .cycle g => if (s.w.gang g).runs then gangCycle run g (s.at_ g) else s
  | .pass fs => s.withW (s.w.till (s.w.now + fs))
/-- The script loses its first entry; what has been posted by now is taken from its queue, and eligibility and the round-robin's counts
are as the last turn has left them (R264). -/
def State.popped (s : State) (r : List Turn) : World :=
  if s.w.hub.tasks.isEmpty then { s.w with script := r } else State.refreshed { s with w := { s.w with script := r } }
/-- The script's next entry; where it is empty, what comes next by itself. -/
def turn (run : Run) (s : State) : State :=
  match s.w.script with
  | t :: r => takeTurn run t (s.withW (s.popped r))
  | [] => takeTurn run s.nextTurn s

/-! ## Placing an instruction (log 1) -/

/-- The position in which an instruction of a class stands (R46, R65). -/
def posOf : Cls → Nat
  | .c => 0 | .a => 3 | .m => 6 | .f => 7 | .i => 11 | .p => 13 | .e => 14 | .x => 15
/-- A yield point: collective waits carry `YP`. -/
def soleHeader (pos : Nat) (i : Instr) (ls : Nat) : Nat :=
  2 ^ (16 + pos) + ls * 2 ^ 14 + bit (isWait i) * 2 ^ 12 + ceilDiv (120 + Instr.share i) 32
/-- The words of a bundle that holds one slot and literals of zero. -/
def soleWords (pos nbits w : Nat) (i : Instr) : List Word32 :=
  let ls := litField pos w
  [BitVec.ofNat 32 (soleHeader pos i ls)] ++
    (if nbits ≤ 32 then [BitVec.ofNat 32 w] else [BitVec.ofNat 32 w, BitVec.ofNat 32 (w / 2 ^ 32)]) ++ List.replicate ls 0
/-- Core 0 alone is gang 0, and its next bundle is at word 0. -/
def soleCore (handler : Bool) : Core :=
  { Core.zero with gang := some 0, startMap := [0], hstart := if handler then [0] else [] }
def soleGang (handler : Bool) : Gang :=
  { Gang.zero with live := true, tenant := 1, task := 1, members := [0], hasHandler := true,
                   stat := if handler then .handler 0 else .running }
/-- A state with some words at the next bundle of a gang that runs on core 0, and nothing else to do before it. -/
def State.placeWords (s : State) (handler : Bool) (ws : List Word32) : State :=
  { w := { s.w with script := [], cores := fput s.w.cores 0 (soleCore handler), gangs := fput s.w.gangs 0 (soleGang handler) },
    mem := s.mem.applyAll [.bytes (if handler then .hst else .isp) 0 (bytesOf ws)] }

end Sys2Proof.Machine
end

