-- ==== Sys2Proof/Machine/Step.lean ====
section
/-! DEFINITION. The step: one turn of the machine. -/
namespace Sys2Proof.Machine
open Sys2Proof

/-- The meaning of an instruction, as the cycle uses it. -/
def runInstr : Run := fun i s =>
  match exec i s with
  | .next t => t
  | _ => s

/-- One turn: an event, a cycle of a gang, or time that passes (log 1). -/
def step (s : State) : Host.Outcome State Fault Refusal := .next (turn runInstr s)

/-- The state with a word's bundle as the next that the machine runs, on core 0; a word that no class reads is left out. -/
def State.withFetchWord (s : State) (nbits w : Nat) : State :=
  match classify nbits w with
  | some ci => s.placeWords (handlerOnly ci.2) (soleWords (posOf ci.1) nbits w ci.2)
  | none => s

end Sys2Proof.Machine
end

