-- ==== Sys2Proof/Safety.lean ====
section
/-! DEFINITION. What a safe run is, and the terms in which the statements speak: the state with some results due and
nothing else changed, the elements of a vector value, what rounding is, the bytes of a memory, the times of an engine command. -/
namespace Sys2Proof.Machine
open Sys2Proof

/-! ## Safe runs -/

/-- Every byte memory is in its canonical form. -/
def State.Canonical (s : State) : Prop := Memory.wf s.mem = true
/-- A step that answers a next state. -/
def GoesOn (o : Host.Outcome State Fault Refusal) : Prop := ∃ t, o = .next t

/-! ## The issuing core and what it has due -/

/-- The core that issues. -/
def State.me (s : State) : Core := fget s.w.cores Core.zero s.w.cur.core
/-- Only the issuing core is replaced. -/
def State.withMe (s : State) (c : Core) : State := { s with w := { s.w with cores := fput s.w.cores s.w.cur.core c } }
/-- Only the world is replaced. -/
def State.withWorld (s : State) (w : World) : State := { s with w := w }
/-- A result due `lat` cycles after the slot's issue. -/
def State.dueAt (s : State) (e : Nat × RegW) : Pend :=
  { due := s.w.cur.issue + e.1, issue := s.w.cur.issue, pos := s.w.cur.pos, w := e.2 }
/-- The state in which these results have fallen due on the issuing core, at its level, and nothing else has changed. -/
def State.due (s : State) (l : List (Nat × RegW)) : State :=
  s.withMe (if s.w.cur.sup then { s.me with hpend := s.me.hpend ++ l.map s.dueAt }
    else { s.me with pend := s.me.pend ++ l.map s.dueAt })
/-- A write to scalar `n` at the slot's level: a handler has a file of its own (R334). -/
def State.scalar (s : State) (n : Nat) (v : Word) : RegW := if s.w.cur.sup then .sup n v else .s n v
/-- Where the issuing level stands next, and nothing else. -/
def State.goesTo (s : State) (q : Seq) : State :=
  s.withMe (if s.w.cur.sup then { s.me with hseq := q } else { s.me with ctx := { s.me.ctx with seq := q } })

/-! ## Elements -/

/-- Element `i` of `n` bytes of a vector value (R63). -/
def lane (n i : Nat) (x : Line) : Nat := x.toNat / 2 ^ (8 * n * i) % 2 ^ (8 * n)
/-- Element `i` of `n` bytes is enabled: the guard's bit is set, or is clear under `!` (R63). -/
def State.enabled (s : State) (g : PredG) (n i : Nat) : Bool :=
  g.pr == 0 || ((s.w.rdP g.pr).getLsbD (i * n) != g.ps)
/-- The value of element `i` as a number: signed or unsigned. -/
def laneVal (sgn : Bool) (n i : Nat) (x : Line) : Int := if sgn then signed (8 * n) (lane n i x) else (lane n i x : Int)
/-- The low bits of an integer in `n` bytes. -/
def inBytes (n : Nat) (v : Int) : Nat := (v % (2 ^ (8 * n) : Int)).toNat
/-- An integer clamped to the range of a format of `n` bytes. -/
def clamped (sgn : Bool) (n : Nat) (v : Int) : Int :=
  if sgn then max (-(2 ^ (8 * n - 1) : Int)) (min v (2 ^ (8 * n - 1) - 1)) else max 0 (min v (2 ^ (8 * n) - 1))
/-- The slot completes: from `s'`, which holds the latches, it has due after `lat` cycles a vector result whose element `i`
is `val i`, written where enabled, and nothing else. -/
def WritesLanes (o : Host.Outcome State Fault Refusal) (s s' : State) (lat d n : Nat) (g : PredG) (val : Nat → Nat) : Prop :=
  ∃ x m : Line, o = .next (s'.due [(lat, .v d x m)]) ∧
    ∀ i < 1024 / n, lane n i x = val i ∧ lane n i m = if s.enabled g n i then 2 ^ (8 * n) - 1 else 0
/-- The flags of the enabled elements combined. -/
def State.flagsOf (s : State) (g : PredG) (n : Nat) (val : Nat → Nat × Nat) : Nat :=
  ((List.range (1024 / n)).filter (s.enabled g n)).foldl (fun f i => f ||| (val i).2) 0
/-- The same for a float form: each element's value, and the flags of the enabled ones at the same cycle. -/
def WritesFloats (o : Host.Outcome State Fault Refusal) (s s' : State) (lat d n : Nat) (g : PredG)
    (val : Nat → Nat × Nat) : Prop :=
  ∃ x m : Line, o = .next (s'.due [(lat, .v d x m), (lat, .flags (s.flagsOf g n val))]) ∧
    ∀ i < 1024 / n, lane n i x = (val i).1 % 2 ^ (8 * n) ∧
      lane n i m = if s.enabled g n i then 2 ^ (8 * n) - 1 else 0
/-- The same for a predicate: all bits of element `i` are `val i`, written where enabled. -/
def PredLanes (x m : Pred) (s : State) (g : PredG) (n : Nat) (val : Nat → Bool) : Prop :=
  ∀ k < 1024, x.getLsbD k = val (k / n) ∧ m.getLsbD k = s.enabled g n (k / n)

/-! ## What rounding is (R153, R159, R160) -/

/-- The sign of an encoding. -/
def FSpec.minus (f : FSpec) (x : Nat) : Bool := x.testBit (f.eb + f.fb)
/-- The exponent and the fraction field of an encoding. -/
def FSpec.expo (f : FSpec) (x : Nat) : Nat := x / 2 ^ f.fb % 2 ^ f.eb
def FSpec.frac (f : FSpec) (x : Nat) : Nat := x % 2 ^ f.fb
/-- An encoding of a finite value: in `e4m3` every one but S.1111.111. -/
def FSpec.finite (f : FSpec) (x : Nat) : Bool :=
  x < 2 ^ (1 + f.eb + f.fb) && (if f.e4 then !(f.expo x == 2 ^ f.eb - 1 && f.frac x == 2 ^ f.fb - 1) else f.expo x != 2 ^ f.eb - 1)
/-- The value of a finite encoding. -/
def FSpec.rat (f : FSpec) (x : Nat) : ℚ :=
  (if f.minus x then -1 else 1) *
    (if f.expo x = 0 then (f.frac x : ℚ) * 2 ^ (1 - f.bias - f.fb : ℤ)
     else (2 ^ f.fb + f.frac x : ℚ) * 2 ^ ((f.expo x : ℤ) - f.bias - f.fb))
/-- The greatest exponent field of a finite value; the greatest finite value and the distance to the next if there were one. -/
def FSpec.topExpo (f : FSpec) : ℤ := (if f.e4 then 2 ^ f.eb - 1 else 2 ^ f.eb - 2) - f.bias
def FSpec.topStep (f : FSpec) : ℚ := 2 ^ (f.topExpo - f.fb)
def FSpec.topValue (f : FSpec) : ℚ := (2 ^ (f.fb + 1) - if f.e4 then 2 else 1) * f.topStep
/-- A mode that cuts off what does not fit, for a value of a sign. -/
def cutsOff (rm : RMode) (neg : Bool) : Bool :=
  match rm with
  | .rne => false
  | .rtz => true
  | .rup => neg
  | .rdn => !neg
/-- The exact value `v` rounded once to a format: the result's bits and the flags. With an unbounded exponent it would be above the
greatest finite value (overflow), or below the least normal one (tiny); else the result is the nearest finite encoding, of the tied
ones the even one, or the nearest toward zero or away from it. `zneg` is the sign of a zero. -/
def Rounded (f : FSpec) (rm : RMode) (v : ℝ) (zneg : Bool) (r : Nat × Nat) : Prop :=
  let sign := 2 ^ (f.eb + f.fb)
  let cut : Prop := ∃ neg : Bool, (neg = true ↔ v < 0) ∧ cutsOff rm neg = true
  let beyond : Prop :=
    (rm = .rne ∧ ((f.topValue + f.topStep / 2 : ℝ) < |v| ∨ (|v| = f.topValue + f.topStep / 2 ∧ f.e4 = false))) ∨
    (rm ≠ .rne ∧ cut ∧ (f.topValue + f.topStep : ℝ) ≤ |v|) ∨ (rm ≠ .rne ∧ ¬cut ∧ (f.topValue : ℝ) < |v|)
  let least : ℝ := 2 ^ (1 - f.bias : ℤ)
  let step : ℝ := 2 ^ (-(f.bias : ℤ) - f.fb)
  let tiny : Prop :=
    (rm = .rne ∧ |v| < least - step / 2) ∨ (rm ≠ .rne ∧ cut ∧ |v| < least) ∨ (rm ≠ .rne ∧ ¬cut ∧ |v| ≤ least - step)
  let x : ℝ := f.rat r.1
  (v = 0 → r = (if zneg then sign else 0, 0)) ∧
  (v ≠ 0 → (∀ i, r.2.testBit i = true → i = 2 ∨ i = 3 ∨ i = 4) ∧
    (r.2.testBit 2 = true ↔ beyond) ∧ (r.2.testBit 4 = true ↔ beyond ∨ x ≠ v) ∧ (r.2.testBit 3 = true ↔ tiny ∧ x ≠ v) ∧
    (beyond → ¬cut → r.1 = if f.e4 then 0x7F else (2 ^ f.eb - 1) * 2 ^ f.fb + if f.minus r.1 then sign else 0) ∧
    (beyond → cut → f.finite r.1 = true ∧ x = if f.minus r.1 then -f.topValue else f.topValue) ∧
    (beyond → f.e4 = false ∨ cut → (f.minus r.1 = true ↔ v < 0)) ∧
    (¬beyond → f.finite r.1 = true ∧ (f.minus r.1 = true ↔ v < 0) ∧
      (rm = .rne → ∀ y, f.finite y = true → |x - v| ≤ |(f.rat y : ℝ) - v| ∧
        (|x - v| = |(f.rat y : ℝ) - v| → f.rat y ≠ f.rat r.1 → r.1 % 2 = 0)) ∧
      (rm ≠ .rne → cut → |x| ≤ |v| ∧ ∀ y, f.finite y = true → |(f.rat y : ℝ)| ≤ |v| → |(f.rat y : ℝ)| ≤ |x|) ∧
      (rm ≠ .rne → ¬cut → |v| ≤ |x| ∧ ∀ y, f.finite y = true → |v| ≤ |(f.rat y : ℝ)| → |x| ≤ |(f.rat y : ℝ)|)))

/-! ## Memory -/

/-- Every byte outside these ranges (a space, an address, a length) reads as before. -/
def SameBut (m m' : Mems) (r : List (Space × Nat × Nat)) : Prop :=
  ∀ sp b, (∀ e ∈ r, ¬(e.1 = sp ∧ e.2.1 ≤ b ∧ b < e.2.1 + e.2.2)) → m'.byte sp b = m.byte sp b
/-- `v` is the little-endian number in `n` bytes of a space (R36, R64). -/
def IsNumber (m : Mems) (sp : Space) (a n v : Nat) : Prop :=
  v < 2 ^ (8 * n) ∧ ∀ i < n, v / 2 ^ (8 * i) % 256 = (m.byte sp (a + i)).toNat
/-- The scratchpad address of a form of unit and alignment `u`: base plus offset, in 21 bits, aligned down (R182). -/
def State.spdAddr (s : State) (e : Ea) (u : Nat) : Nat :=
  ((((s.w.rdS e.base).toNat : Int) + s.w.moff e.off * u) % (2 ^ 21 : Int)).toNat / u * u
/-- The virtual address of a form of unit and alignment `u` (R205). -/
def State.virtAddr (s : State) (e : Ea) (u : Nat) : Nat :=
  ((((s.w.rdS e.base).toNat : Int) + s.w.moff e.off * u) % (2 ^ 64 : Int)).toNat / u * u

/-! ## The times of an engine command (R214) -/

/-- `n` is how many numbers have a property. -/
def CountOf (p : Nat → Prop) (n : Nat) : Prop := ∃ l : List Nat, l.Nodup ∧ (∀ x, x ∈ l ↔ p x) ∧ l.length = n
/-- A stretch of `n` bytes from a scratchpad address touches a line. -/
def Touches (a n line : Nat) : Prop := ∃ i < n, (a + i) % 2 ^ 21 / 1024 = line
/-- An end on the issuing core's die: global memory, or a scratchpad of that die. -/
def onDie (die : Nat) (e : End) : Bool :=
  match e with
  | .spd k => k / 8 == die
  | .glb => true
/-- The posted time and the completion of a command of the issuing core that starts at `start` and moves `bytes` bytes, as the table
of R214 gives them: `ns` and `nd` are the distinct lines that it reads and writes in scratchpads, its mask line among them. -/
def EngineTimes (s : State) (c : EngCmd) (fill : Bool) (bytes : Nat) (accs : List Acc) (start posted done : Nat) : Prop :=
  ∃ ns nd : Nat,
    CountOf (fun l => isSpd c.src = true ∧ ∃ g ∈ c.segs, ∃ a, g.s = some a ∧ Touches a g.n l) ns ∧
    CountOf (fun l => isSpd c.dst = true ∧ ((∃ g ∈ c.segs, Touches g.d g.n l) ∨ ∃ m, c.mask = some m ∧ m.1 % 2 ^ 21 / 1024 = l)) nd ∧
    let die := s.w.cur.core / 8
    let near : Bool := onDie die c.dst && onDie die c.src && accs.all (fun a => a.home == die)
    let global : Bool := !isSpd c.dst || (!fill && !isSpd c.src)
    let base := if global then (if near then 420 else 520) else if near then 12 else 40
    let sh := max (s.w.gangAt s.w.cur.core).sh 1
    let rate := (bytes + sh - 1) / sh
    if isSpd c.dst = false then posted = start + base + max ns rate ∧ done = posted
    else if fill then posted = start + base ∧ done = posted + nd
    else posted + nd = start + base + (if isSpd c.src then max ns nd else max nd rate) ∧ done = posted + nd

/-! ## Frames -/

/-- What a program reads of a core: its registers, latches, system state and what is still due. -/
def SameRegisters (c c' : Core) : Prop :=
  c'.ctx = c.ctx ∧ c'.hseq = c.hseq ∧ c'.pend = c.pend ∧ c'.hpend = c.hpend ∧ c'.cause = c.cause ∧
    c'.trappc = c.trappc ∧ c'.trapinfo = c.trapinfo ∧ c'.trapvec = c.trapvec ∧ c'.ifstat = c.ifstat ∧ c'.restart = c.restart
/-- No register of any core, no gang and nothing in the hub changes. -/
def Quiet (s t : State) : Prop :=
  (∀ j, SameRegisters (s.w.core j) (t.w.core j)) ∧ t.w.gangs = s.w.gangs ∧ t.w.hub = s.w.hub ∧ t.w.cur = s.w.cur ∧
    t.w.now = s.w.now ∧ t.w.abort = s.w.abort
/-- The slot completes by putting one operation in flight, posted at `posted`, and changes no register and no byte. -/
def Flies (o : Host.Outcome State Fault Refusal) (s : State) (start posted done : Nat) (op : FOp) (accs : List Acc)
    (src : List Byte) : Prop :=
  ∃ t f, o = .next t ∧ t.mem = s.mem ∧ t.w.flights = s.w.flights ++ [f] ∧ Quiet s t ∧
    f.id = s.w.nextId ∧ f.core = s.w.cur.core ∧ f.gang = s.w.gangOf s.w.cur.core ∧ f.pos = s.w.cur.pos ∧
    f.sup = s.w.cur.sup ∧ f.toSup = s.w.cur.sup ∧ f.issue = s.w.cur.issue ∧ f.start = start ∧ f.posted = posted ∧ f.done = done ∧
    f.op = op ∧ f.accs = accs ∧ f.src = src ∧ f.arrived = false ∧ f.parts = [] ∧ f.got = []

end Sys2Proof.Machine
end

