-- ==== Sys2Proof/Certificates/Slice0/Obligations.lean ====
section
/-! DEFINITION. What is claimed of the model, for the provers: the statements that the spec's numbered rules make. -/
open Sys2Proof Sys2Proof.Machine

/-! ## The sequencer -/

/-- A direct branch goes to pc + off with one bubble and the target's JB, or on to the next bundle; a target in an area that is
idle or invalid is misdirected; a condition's code and a mode's code are those of R87, and `p0` reads all ones (R84, R86, R87,
R89, R225). -/
def Obligations.DirectBranches : Prop :=
  ∀ (s : State) (off : Int) (c : BCond) (a : Nat) (m : BTest) (p : Nat),
    let t := (((s.w.cur.pc : Int) + off) % 65536).toNat
    let taken : Seq :=
      if shut s.me s.w.cur.sup t = true then
        { pc := t, owedT := 1, owedJ := 0, beat := 0, last := s.w.cur.pc, bad := some (t + 2 ^ 16, s.w.cur.pc) }
      else { pc := t, owedT := 1, owedJ := (headerAt s.mem s.w.cur.core s.w.cur.sup t).jb, beat := 0,
             last := s.w.cur.pc, bad := none }
    let on := fallSeq s.mem s.me s.w.cur.core s.w.cur.sup s.w.cur.pc s.w.cur.nxt
    let x := (s.w.rdS a).toInt
    let holds : Prop := match c with
      | .eq => x = 0 | .ne => x ≠ 0 | .lt => x < 0 | .ge => 0 ≤ x | .gt => 0 < x | .le => x ≤ 0
    let tests : Prop := match m with
      | .any => ∃ i < 1024, (s.w.rdP p).getLsbD i = true
      | .all => ∀ i < 1024, (s.w.rdP p).getLsbD i = true
      | .none => ∀ i < 1024, (s.w.rdP p).getLsbD i = false
      | .nall => ∃ i < 1024, (s.w.rdP p).getLsbD i = false
    exec (.br off) s = .next (s.goesTo taken) ∧
    (holds → exec (.bc c a off) s = .next (s.goesTo taken)) ∧
    (¬holds → exec (.bc c a off) s = .next (s.goesTo on)) ∧
    (tests → exec (.bp m p off) s = .next (s.goesTo taken)) ∧
    (¬tests → exec (.bp m p off) s = .next (s.goesTo on)) ∧
    exec (.bp .all 0 off) s = .next (s.goesTo taken) ∧ exec (.bp .none 0 off) s = .next (s.goesTo on) ∧
    exec (.call off) s = .next ((s.due [(1, s.scalar 63 (BitVec.ofNat 64 s.w.cur.nxt))]).goesTo taken) ∧
    (∀ (w : CWord) (i : Nat) (cnd : BCond), w.op = 2 → w.lo / 2 ^ 17 % 8 = i →
      [BCond.eq, .ne, .lt, .ge, .gt, .le][i]? = some cnd → decodeC w = .ok (.bc cnd (w.lo / 2 ^ 20 % 64) (signed 17 w.lo))) ∧
    (∀ (w : CWord) (i : Nat) (md : BTest), w.op = 3 → w.lo / 2 ^ 17 % 8 = 0 → w.lo / 2 ^ 20 % 4 = i →
      [BTest.any, .all, .none, .nall][i]? = some md → decodeC w = .ok (.bp md (w.lo / 2 ^ 22 % 16) (signed 17 w.lo)))

/-- An indirect transfer goes to the low 16 bits of its scalar, with at least two join bubbles, and its target is checked:
a bad one stands in the bundle's place, where it is taken as ILLEGAL (R67, R77, R84, R88, R89). -/
def Obligations.IndirectTransfers : Prop :=
  ∀ (s : State) (a info pc : Nat),
    let dest (t : Nat) : Seq :=
      match badTarget s.me s.w.cur.sup t with
      | none => { pc := t, owedT := 1, owedJ := max (headerAt s.mem s.w.cur.core s.w.cur.sup t).jb 2, beat := 0,
                  last := s.w.cur.pc, bad := none }
      | some info => { pc := t, owedT := 1, owedJ := 2, beat := 0, last := s.w.cur.pc, bad := some (info, s.w.cur.pc) }
    exec (.bri a) s = .next (s.goesTo (dest ((s.w.rdS a).toNat % 65536))) ∧
    exec .ret s = .next (s.goesTo (dest ((s.w.rdS 63).toNat % 65536))) ∧
    exec (.calli a) s =
      .next ((s.due [(1, s.scalar 63 (BitVec.ofNat 64 s.w.cur.nxt))]).goesTo (dest ((s.w.rdS a).toNat % 65536))) ∧
    ((if s.w.cur.sup then s.me.hseq else s.me.ctx.seq).bad = some (info, pc) → s.ready s.w.cur.core s.w.cur.sup = true →
      exec .misdirectedTransfer s = .next (s.withWorld (s.w.takeTrap s.w.cur.core 1 info pc)))

/-- LOOP skips an empty loop, opens one of 1 to 2^31 - 1 trips with the first stage predicate set, and traps on a greater
count and on a full stack. LEND takes the loop back to its start while trips remain, and leaves it after the last; the stage
window moves up by one. LBRK leaves the named number of loops. Both trap where there is no such loop; a start or an exit that is in an
area that is idle or invalid, or is no bundle's start after an overlay fill, is misdirected, and nothing is read there (R67, R90, R91,
R92, R94, R225, R228). -/
def Obligations.Loops : Prop :=
  (∀ (s : State) (a stg : Nat) (off : Int),
     let n := (s.w.rdS a).toNat
     let out := (((s.w.cur.pc : Int) + off) % 65536).toNat
     let on := fallSeq s.mem s.me s.w.cur.core s.w.cur.sup s.w.cur.pc s.w.cur.nxt
     let e : LoopEntry := { start := s.w.cur.nxt, exit := out, stg := stg, rem := n + stg, idx := 0 }
     let opened := s.withMe { s.me with ctx := { s.me.ctx with loops := e :: s.me.ctx.loops } }
     let ones : Pred := BitVec.allOnes 1024
     let window : List (Nat × RegW) :=
       [(1, .p 8 ones ones), (1, .p 9 0 ones), (1, .p 10 0 ones), (1, .p 11 0 ones), (1, .p 12 0 ones),
        (1, .p 13 0 ones), (1, .p 14 0 ones), (1, .p 15 0 ones)]
     (n = 0 → exec (.loop a stg off) s = .next (s.goesTo (
       if shut s.me s.w.cur.sup out = true then
         { pc := out, owedT := 1, owedJ := 0, beat := 0, last := s.w.cur.pc, bad := some (out + 2 ^ 16, s.w.cur.pc) }
       else { pc := out, owedT := 1, owedJ := (headerAt s.mem s.w.cur.core s.w.cur.sup out).jb, beat := 0,
              last := s.w.cur.pc, bad := none }))) ∧
     (0 < n → n < 2 ^ 31 → s.me.ctx.loops.length < 6 → stg = 0 →
       exec (.loop a stg off) s = .next (opened.goesTo on)) ∧
     (0 < n → n < 2 ^ 31 → s.me.ctx.loops.length < 6 → stg ≠ 0 →
       exec (.loop a stg off) s = .next ((opened.due window).goesTo on)) ∧
     (2 ^ 31 ≤ n → exec (.loop a stg off) s = .next (s.withWorld (s.w.trap 1 (loopInfo s.w.cur.pc 3)))) ∧
     (0 < n → n < 2 ^ 31 → 6 ≤ s.me.ctx.loops.length →
       exec (.loop a stg off) s = .next (s.withWorld (s.w.trap 1 (loopInfo s.w.cur.pc 0))))) ∧
  (∀ (s : State) (e : LoopEntry) (r : List LoopEntry) (k : Nat),
     let on := fallSeq s.mem s.me s.w.cur.core s.w.cur.sup s.w.cur.pc s.w.cur.nxt
     let ones : Pred := BitVec.allOnes 1024
     let window : List (Nat × RegW) :=
       if e.stg = 0 then []
       else (1, .p 8 (if e.stg + 1 < e.rem then ones else 0) ones) ::
         (List.range 7).map (fun i => (1, RegW.p (9 + i) (s.w.rdP (8 + i)) ones))
     let direct (t n : Nat) : Seq :=
       match badTarget s.me s.w.cur.sup t with
       | some i => { pc := t, owedT := n, owedJ := 0, beat := 0, last := s.w.cur.pc, bad := some (i, s.w.cur.pc) }
       | none => { pc := t, owedT := n, owedJ := (headerAt s.mem s.w.cur.core s.w.cur.sup t).jb, beat := 0,
                   last := s.w.cur.pc, bad := none }
     let again : List LoopEntry := { e with rem := e.rem - 1, idx := e.idx + 1 } :: r
     let withLoops (t : State) (l : List LoopEntry) : State := t.withMe { t.me with ctx := { t.me.ctx with loops := l } }
     (s.me.ctx.loops = e :: r → s.w.cur.nxt = e.exit → 1 < e.rem →
       exec .lend s = .next ((withLoops (s.due window) again).goesTo (direct e.start 0))) ∧
     (s.me.ctx.loops = e :: r → s.w.cur.nxt = e.exit → e.rem ≤ 1 →
       exec .lend s = .next ((withLoops (s.due window) r).goesTo on)) ∧
     (s.me.ctx.loops = e :: r → s.w.cur.nxt ≠ e.exit →
       exec .lend s = .next (s.withWorld (s.w.trap 1 (loopInfo s.w.cur.pc 2)))) ∧
     (s.me.ctx.loops = [] → exec .lend s = .next (s.withWorld (s.w.trap 1 (loopInfo s.w.cur.pc 1)))) ∧
     (∀ f, s.me.ctx.loops[k]? = some f →
       exec (.lbrk k) s = .next ((withLoops s (s.me.ctx.loops.drop (k + 1))).goesTo (direct f.exit 1))) ∧
     (s.me.ctx.loops.length ≤ k → exec (.lbrk k) s = .next (s.withWorld (s.w.trap 1 (loopInfo s.w.cur.pc 1)))))

/-- PWIN writes the whole stage window, HALT ends the member, TRAP lets its bundle complete and is taken a cycle later with
the return point after it, and BRSWAP enters the armed idle half (R95, R98, R232, R337). -/
def Obligations.WindowHaltTrapSwap : Prop :=
  ∀ (s : State) (a m k : Nat),
    let on := fallSeq s.mem s.me s.w.cur.core s.w.cur.sup s.w.cur.pc s.w.cur.nxt
    let v := (s.w.rdS a).toNat ||| m
    let t := (s.w.rdS a).toNat % 65536
    let ev : EventTrap := { due := s.w.cur.issue + 1, core := s.w.cur.core, issue := s.w.cur.issue, pos := 0,
                            cause := 15, info := k, pc := some s.w.cur.nxt }
    let g := s.w.gangAt s.w.cur.core
    let swapped : CoreCtx :=
      if s.me.ctx.halfAct then { s.me.ctx with halfAct := false, halfA := 1, halfB := 4 }
      else { s.me.ctx with halfAct := true, halfA := 4, halfB := 1 }
    let there : Seq := { pc := t, owedT := 4, owedJ := max (headerAt s.mem s.w.cur.core s.w.cur.sup t).jb 2, beat := 0,
                         last := s.w.cur.pc, bad := none }
    exec (.pwin a m) s = .next ((s.due ((List.range 8).map (fun i =>
      (1, RegW.p (8 + i) (if v.testBit i then BitVec.allOnes 1024 else 0) (BitVec.allOnes 1024))))).goesTo on) ∧
    (s.w.cur.sup = false →
      exec .halt s = .next (s.withMe { s.me with ctx := { s.me.ctx with halted := true, loops := [] } })) ∧
    (s.w.cur.sup = true →
      exec .halt s = .next (s.withWorld (s.w.endTask (s.w.gangOf s.w.cur.core) 2 s.me.cause s.me.trapinfo s.me.trappc s.w.cur.core))) ∧
    exec (.trap k) s = .next (State.goesTo
      (s.withWorld { s.w with gangs := fput s.w.gangs (s.w.gangOf s.w.cur.core) { g with events := g.events ++ [ev] } }) on) ∧
    ((if s.me.ctx.halfAct then s.me.ctx.halfA else s.me.ctx.halfB) = 4 → areaOf t = (if s.me.ctx.halfAct then 1 else 2) →
      t ∈ s.me.startMap → s.w.cur.sup = false →
      exec (.brswap a) s = .next ((s.withMe { s.me with ctx := swapped }).goesTo there)) ∧
    ((if s.me.ctx.halfAct then s.me.ctx.halfA else s.me.ctx.halfB) ≠ 4 →
      exec (.brswap a) s = .next (s.withWorld (s.w.trap 1 (t + 2 ^ 16))))

/-! ## Scalar arithmetic -/

/-- Reading operands: `s0` reads zero, a handler reads its own scalars, `p0` reads all ones, and a literal word is
sign-extended, or zero-extended where the form says so (R57, R60, R64, R100, R102). The latch rule: a vector operand that is
not held is read from its register and recorded in the latch of its position; a held one is read from the latch and nothing
is recorded; a literal is repeated in every element and leaves the latch (R63, R134, R138, R161). -/
def Obligations.OperandReads : Prop :=
  (∀ (s : State) (n k : Nat),
    s.w.rdS 0 = 0 ∧ s.w.rdP 0 = BitVec.allOnes 1024 ∧
    (n ≠ 0 → s.w.cur.sup = false → s.w.rdS n = fget s.me.ctx.sregs 0 n) ∧
    (n ≠ 0 → s.w.cur.sup = true → s.w.rdS n = fget s.me.ctx.sup 0 n) ∧
    (n ≠ 0 → s.w.rdP n = fget s.me.ctx.preds 0 n) ∧
    s.w.src (.reg n) = s.w.rdS n ∧ s.w.srcZ (.reg n) = s.w.rdS n ∧
    (s.w.src (.lit k)).toInt = signed 32 (s.w.cur.lits.getD k 0) ∧
    (s.w.srcZ (.lit k)).toNat = s.w.cur.lits.getD k 0 % 2 ^ 32) ∧
  ∀ (w : World) (k n : Nat) (r : VReg) (x : Line) (z : Nat),
    let slot := 3 * w.cur.pos + k
    let c := fget w.cores Core.zero w.cur.core
    let stored := w.record k { n := n, held := false } x
    w.vop k { n := n, held := true } = fget c.ctx.latches 0 slot ∧
    w.vop k { n := n, held := false } = fget c.ctx.vregs 0 n ∧
    w.record k { n := n, held := true } x = w ∧ w.recordB (.lit z) x = w ∧
    fget (stored.core w.cur.core).ctx.latches 0 slot = x ∧
    (∀ j, j ≠ slot → fget (stored.core w.cur.core).ctx.latches 0 j = fget c.ctx.latches 0 j) ∧
    (stored.core w.cur.core).ctx.vregs = c.ctx.vregs ∧ (stored.core w.cur.core).pend = c.pend ∧
    stored.hub = w.hub ∧ stored.gangs = w.gangs ∧ stored.flights = w.flights ∧ w.vsrc z (.vec r) = w.vop 1 r ∧
    (∀ n', (n' = 1 ∨ n' = 2 ∨ n' = 4) → ∀ i < 1024 / n', lane n' i (w.vsrc n' (.lit z)) = w.lit z % 2 ^ (8 * n'))

/-- The two-operand integer forms of R105, a cycle after issue and with nothing else changed: the sum and difference modulo
2^64, the bitwise forms, the shifts and the rotation by the low six bits of b, minima and maxima; their opcodes, and `m6`
other than 0 rejected. SCMP gives 1 or 0 by the condition that `m6` names, SEL chooses by the scalar that `m6` names, and `s0` there
chooses b (R102, R103, R105, R106, R107). -/
def Obligations.IntegerArithmetic : Prop :=
  ∀ (s : State) (d a c : Nat) (b : Src) (cond : SCond),
    let second (w : AWord) : Src := if w.ls = 0 then .reg w.sb else .lit (w.ls - 1)
    let x := s.w.rdS a
    let y := s.w.src b
    let k := y.toNat % 64
    let gives (v : Word) : Host.Outcome State Fault Refusal := .next (s.due [(1, s.scalar d v)])
    let forms : List (Nat → Nat → Src → Instr) :=
      [.add, .sub, .and, .or, .xor, .andn, .shl, .shr, .sar, .rol, .min, .max, .minn, .maxn]
    let holds : Prop := match cond with
      | .eq => x.toNat = y.toNat | .ne => x.toNat ≠ y.toNat | .lt => x.toInt < y.toInt | .ge => y.toInt ≤ x.toInt
      | .ltn => x.toNat < y.toNat | .gen => y.toNat ≤ x.toNat
    exec (.add d a b) s = gives (BitVec.ofInt 64 (x.toInt + y.toInt)) ∧
    exec (.sub d a b) s = gives (BitVec.ofInt 64 (x.toInt - y.toInt)) ∧
    (∃ v : Word, exec (.and d a b) s = gives v ∧ ∀ i, v.getLsbD i = (x.getLsbD i && y.getLsbD i)) ∧
    (∃ v : Word, exec (.or d a b) s = gives v ∧ ∀ i, v.getLsbD i = (x.getLsbD i || y.getLsbD i)) ∧
    (∃ v : Word, exec (.xor d a b) s = gives v ∧ ∀ i, v.getLsbD i = (x.getLsbD i != y.getLsbD i)) ∧
    (∃ v : Word, exec (.andn d a b) s = gives v ∧ ∀ i, v.getLsbD i = (x.getLsbD i && !y.getLsbD i)) ∧
    exec (.shl d a b) s = gives (BitVec.ofNat 64 (x.toNat * 2 ^ k)) ∧
    exec (.shr d a b) s = gives (BitVec.ofNat 64 (x.toNat / 2 ^ k)) ∧
    exec (.sar d a b) s = gives (BitVec.ofInt 64 (x.toInt / 2 ^ k)) ∧
    exec (.rol d a b) s = gives (BitVec.ofNat 64 (x.toNat * 2 ^ k + x.toNat / 2 ^ (64 - k))) ∧
    exec (.min d a b) s = gives (BitVec.ofInt 64 (Min.min x.toInt y.toInt)) ∧
    exec (.max d a b) s = gives (BitVec.ofInt 64 (Max.max x.toInt y.toInt)) ∧
    exec (.minn d a b) s = gives (BitVec.ofNat 64 (Min.min x.toNat y.toNat)) ∧
    exec (.maxn d a b) s = gives (BitVec.ofNat 64 (Max.max x.toNat y.toNat)) ∧
    (∀ (w : AWord) (f : Nat → Nat → Src → Instr), forms[w.op]? = some f → (w.ls = 0 ∨ w.sb = 0) →
      decodeA w = if w.m6 = 0 then .ok (f w.sd w.sa (second w)) else .bad 2) ∧
    (holds → exec (.scmp cond d a b) s = gives 1) ∧
    (¬holds → exec (.scmp cond d a b) s = gives 0) ∧
    (s.w.rdS c ≠ 0 → exec (.sel d a b c) s = gives x) ∧
    (s.w.rdS c = 0 → exec (.sel d a b c) s = gives y) ∧
    exec (.sel d a b 0) s = gives y ∧
    (∀ w : AWord, w.op = 0x0F → (w.ls = 0 ∨ w.sb = 0) → decodeA w = .ok (.sel w.sd w.sa (second w) w.m6)) ∧
    ∀ w : AWord, w.op = 0x0E → (w.ls = 0 ∨ w.sb = 0) → w.m6 < 64 →
      decodeA w = match [SCond.eq, .ne, .lt, .ge, .ltn, .gen][w.m6]? with
        | some e => .ok (.scmp e w.sd w.sa (second w))
        | none => .bad 2

/-- What the float forms compute, apart from how the model computes it: of finite operands the exact sum, product, fused expression,
reciprocal, reciprocal root, whole power of two, scaled value, conversion and sum of many, rounded once with the flags of R159 and R160;
a conversion to an integer rounds in its mode and is cut at its bounds; the rows of special operands (R149, R153, R154, R155, R157,
R158, R159, R160, R162, R165, R166, R169). -/
def Obligations.FloatRounding : Prop :=
  ∀ (t : SfFmt) (g h : FSpec) (p : PFmt) (rm : RMode) (x y z k : Nat) (i lo hi : Int) (l : List Nat),
    let f := sfSpec t
    let formats : List FSpec := [⟨8, 23, 127, false⟩, ⟨8, 7, 127, false⟩, ⟨5, 10, 15, false⟩, ⟨4, 3, 7, true⟩, ⟨5, 2, 15, false⟩]
    let fin (x : Nat) : Prop := f.finite x = true
    let special (x : Nat) : Prop := f.expo x = 2 ^ f.eb - 1
    let nan (x : Nat) : Prop := special x ∧ f.frac x ≠ 0
    let sig (x : Nat) : Prop := nan x ∧ f.frac x < 2 ^ (f.fb - 1)
    let inf (x : Nat) : Prop := special x ∧ f.frac x = 0
    let zero (x : Nat) : Prop := f.expo x = 0 ∧ f.frac x = 0
    let full (x : Nat) : Prop := inf x ∨ (fin x ∧ ¬zero x)
    let quietNaN := match t with | .f32 => 0x7FC00000 | .bf16 => 0x7FC0 | .f16 => 0x7E00
    let infinity (neg : Bool) : Nat := (2 ^ f.eb - 1) * 2 ^ f.fb + if neg then 2 ^ (f.eb + f.fb) else 0
    let both (a b : Bool) : Bool := if a = b then a else rm == .rdn
    let xy := f.minus x != f.minus y
    let sf := pSpec p
    let total := (l.foldl (fun u e => u.add p .sum e) Gather.empty).result p .sum rm false
    let zeros (neg : Bool) : Bool := l.all (fun e => sf.rat e == 0 && sf.minus e == neg)
    let i2 := toInt rm lo hi (f.decode x)
    f ∈ formats ∧ sfSpec .f32 = ⟨8, 23, 127, false⟩ ∧ sfSpec .bf16 = ⟨8, 7, 127, false⟩ ∧ sfSpec .f16 = ⟨5, 10, 15, false⟩ ∧
    (fin x → fin y → Rounded f rm (f.rat x + f.rat y) (both (f.minus x) (f.minus y)) (f.add rm x y) ∧
      Rounded f rm (f.rat x * f.rat y) xy (f.mul rm x y)) ∧
    (fin x → fin y → fin z → Rounded f rm (f.rat x * f.rat y + f.rat z) (both xy (f.minus z)) (f.fma rm x y z)) ∧
    (fin x → f.rat x ≠ 0 → Rounded f rm (f.rat x : ℝ)⁻¹ false (f.rcp rm x)) ∧
    (fin x → 0 < f.rat x → Rounded f rm (Real.sqrt (f.rat x))⁻¹ false (f.rsq rm x)) ∧
    (fin x → f.rat x = i → Rounded f rm ((2 : ℝ) ^ i) false (f.exp2 rm x)) ∧
    (fin x → (∀ j : Int, f.rat x ≠ j) → (f.exp2 rm x).2.testBit 4 = true) ∧
    (fin x → k < 255 → Rounded f rm (f.rat x * 2 ^ ((k : ℤ) - 127)) (f.minus x) (f.scale rm false k x) ∧
      Rounded f rm (f.rat x * 2 ^ (127 - (k : ℤ))) (f.minus x) (f.scale rm true k x)) ∧
    (g ∈ formats → h ∈ formats → g.finite x = true → Rounded h rm (g.rat x) (g.minus x) (h.convert rm false (g.decode x))) ∧
    (h ∈ formats → Rounded h rm (i : ℝ) false (h.convert rm false (intVal i))) ∧
    (p.isFloat = true → l ≠ [] → (∀ e ∈ l, sf.finite e = true) →
      Rounded sf rm ((l.map sf.rat).sum : ℚ) (!zeros false && (zeros true || rm == .rdn)) total) ∧
    (fin x → ∃ n : ℤ, (rm = .rne → |(n : ℚ) - f.rat x| ≤ 1 / 2 ∧ (|(n : ℚ) - f.rat x| = 1 / 2 → n % 2 = 0)) ∧
      (rm = .rup → n = ⌈f.rat x⌉) ∧ (rm = .rdn → n = ⌊f.rat x⌋) ∧
      (rm = .rtz → n = if f.rat x < 0 then ⌈f.rat x⌉ else ⌊f.rat x⌋) ∧
      (n < lo → i2 = (lo, 1)) ∧ (lo ≤ n → hi < n → i2 = (hi, 1)) ∧
      (lo ≤ n → n ≤ hi → (f.rat x = n → i2 = (n, 0)) ∧ (f.rat x ≠ n → i2 = (n, 16)))) ∧
    (nan x → i2 = (0, 1)) ∧ (inf x → i2 = (if f.minus x then lo else hi, 1)) ∧
    (sig x ∨ sig y → f.add rm x y = (quietNaN, 1) ∧ f.mul rm x y = (quietNaN, 1)) ∧
    (sig x ∨ sig y ∨ sig z → f.fma rm x y z = (quietNaN, 1)) ∧
    ((inf x ∧ zero y) ∨ (zero x ∧ inf y) → f.mul rm x y = (quietNaN, 1) ∧ (¬sig z → f.fma rm x y z = (quietNaN, 1))) ∧
    (¬sig x → ¬sig y → nan x ∨ nan y → f.add rm x y = (quietNaN, 0) ∧ f.mul rm x y = (quietNaN, 0)) ∧
    (¬sig x → ¬sig y → ¬sig z → ¬((inf x ∧ zero y) ∨ (zero x ∧ inf y)) → nan x ∨ nan y ∨ nan z → f.fma rm x y z = (quietNaN, 0)) ∧
    (inf x → inf y → f.add rm x y = if f.minus x = f.minus y then (infinity (f.minus x), 0) else (quietNaN, 1)) ∧
    (inf x → fin y → f.add rm x y = (infinity (f.minus x), 0) ∧ f.add rm y x = (infinity (f.minus x), 0)) ∧
    (full x → full y → inf x ∨ inf y → f.mul rm x y = (infinity xy, 0) ∧
      (fin z → f.fma rm x y z = (infinity xy, 0)) ∧
      (inf z → f.fma rm x y z = if xy = f.minus z then (infinity xy, 0) else (quietNaN, 1))) ∧
    (fin x → fin y → inf z → f.fma rm x y z = (infinity (f.minus z), 0)) ∧
    (nan x → f.rcp rm x = (quietNaN, if f.frac x < 2 ^ (f.fb - 1) then 1 else 0) ∧ f.rsq rm x = f.rcp rm x ∧ f.exp2 rm x = f.rcp rm x) ∧
    (zero x → f.rcp rm x = (infinity (f.minus x), 2) ∧ f.rsq rm x = (infinity (f.minus x), 2)) ∧
    (inf x → f.rcp rm x = (if f.minus x then 2 ^ (f.eb + f.fb) else 0, 0) ∧ f.rsq rm x = (if f.minus x then (quietNaN, 1) else (0, 0)) ∧
      f.exp2 rm x = (if f.minus x then 0 else infinity false, 0)) ∧
    (fin x → f.rat x < 0 → f.rsq rm x = (quietNaN, 1)) ∧
    (∀ inv, f.scale rm inv 255 x = (quietNaN, 1))

/-- MOVL builds a constant in four modes, EXT extends the low bits, BFX extracts and BFI inserts a field whose length is
cut at bit 63; what `m6` means in each and what it rejects (R108, R109, R110). -/
def Obligations.ConstantsAndFields : Prop :=
  ∀ (s : State) (d a : Nat) (b : Src) (w : ExtW) (e : AWord),
    let second (w : AWord) : Src := if w.ls = 0 then .reg w.sb else .lit (w.ls - 1)
    let x := s.w.rdS a
    let y := s.w.src b
    let gives (v : Word) : Host.Outcome State Fault Refusal := .next (s.due [(1, s.scalar d v)])
    let k := match w with | .w8 => 8 | .w16 => 16 | .w32 => 32
    let pos := y.toNat % 64
    let len := Min.min (Min.min (y.toNat / 256 % 128) 64) (64 - pos)
    exec (.movl .lo d a b) s = gives (BitVec.ofInt 64 (signed 32 y.toNat)) ∧
    exec (.movl .lz d a b) s = gives (BitVec.ofNat 64 (y.toNat % 2 ^ 32)) ∧
    exec (.movl .hi d a b) s = gives (BitVec.ofNat 64 (y.toNat % 2 ^ 32 * 2 ^ 32)) ∧
    exec (.movl .hk d a b) s = gives (BitVec.ofNat 64 (y.toNat % 2 ^ 32 * 2 ^ 32 + x.toNat % 2 ^ 32)) ∧
    exec (.ext w true d a) s = gives (BitVec.ofInt 64 (signed k x.toNat)) ∧
    exec (.ext w false d a) s = gives (BitVec.ofNat 64 (x.toNat % 2 ^ k)) ∧
    exec (.bfx false d a b) s = gives (BitVec.ofNat 64 (x.toNat / 2 ^ pos % 2 ^ len)) ∧
    (0 < len → exec (.bfx true d a b) s = gives (BitVec.ofInt 64 (signed len (x.toNat / 2 ^ pos)))) ∧
    (len = 0 → exec (.bfx true d a b) s = gives 0) ∧
    (∃ v : Word, exec (.bfi d a b) s = gives v ∧ ∀ i < 64, v.getLsbD i =
      if pos ≤ i ∧ i < pos + len then x.getLsbD (i - pos) else (s.w.rdS d).getLsbD i) ∧
    (e.op = 0x10 → (e.ls = 0 ∨ e.sb = 0) → e.m6 < 64 → decodeA e = match [MovMode.lo, .lz, .hi, .hk][e.m6]? with
      | some m => if e.sa = 0 ∨ e.m6 = 3 then .ok (.movl m e.sd e.sa (second e)) else .bad 2
      | none => .bad 2) ∧
    (e.op = 0x11 → e.ls = 0 → e.sb = 0 → e.m6 < 64 → decodeA e = match [ExtW.w8, .w16, .w32][e.m6 % 4]? with
      | some m => if e.m6 < 8 then .ok (.ext m (4 ≤ e.m6) e.sd e.sa) else .bad 2
      | none => .bad 2) ∧
    (e.op = 0x12 → (e.ls = 0 ∨ e.sb = 0) → e.m6 < 64 → decodeA e = if e.m6 < 2 then .ok (.bfx (e.m6 = 1) e.sd e.sa (second e)) else .bad 2) ∧
    (e.op = 0x13 → (e.ls = 0 ∨ e.sb = 0) → decodeA e = if e.m6 = 0 then .ok (.bfi e.sd e.sa (second e)) else .bad 2)

/-- The counts of leading zeros, trailing zeros and ones, the scaled sum and the loop index, with what `m6` means and rejects
(R97, R111, R112). That a handler's LIDX reads the task's loop stack, as here in every state, is the model's choice (log 64). -/
def Obligations.CountsAndAddresses : Prop :=
  ∀ (s : State) (d a sh depth : Nat) (b : Src) (e : AWord),
    let second (w : AWord) : Src := if w.ls = 0 then .reg w.sb else .lit (w.ls - 1)
    let x := s.w.rdS a
    let y := s.w.src b
    let gives (v : Word) : Host.Outcome State Fault Refusal := .next (s.due [(1, s.scalar d v)])
    let trip := match s.me.ctx.loops[depth]? with | some e => e.idx | none => 0
    let counts : List (Nat → Nat → Instr) := [.clz, .ctz, .popc]
    (∃ n, exec (.clz d a) s = gives (BitVec.ofNat 64 n) ∧ n ≤ 64 ∧ x.toNat < 2 ^ (64 - n) ∧
      (n < 64 → x.getLsbD (63 - n) = true)) ∧
    (∃ n, exec (.ctz d a) s = gives (BitVec.ofNat 64 n) ∧ n ≤ 64 ∧ (∀ i < n, x.getLsbD i = false) ∧
      (n < 64 → x.getLsbD n = true)) ∧
    exec (.popc d a) s = gives (BitVec.ofNat 64 ((List.range 64).filter (fun i => x.getLsbD i)).length) ∧
    exec (.lea d a b sh) s = gives (BitVec.ofNat 64 (x.toNat + y.toNat * 2 ^ sh)) ∧
    exec (.lidx d a b depth) s = gives (BitVec.ofNat 64 (x.toNat + trip * y.toNat)) ∧
    (∀ i f, counts[i]? = some f → e.op = 0x14 + i → e.ls = 0 → e.sb = 0 →
      decodeA e = if e.m6 = 0 then .ok (f e.sd e.sa) else .bad 2) ∧
    (e.op = 0x17 → (e.ls = 0 ∨ e.sb = 0) → e.m6 < 64 → decodeA e = if e.m6 < 16 then .ok (.lea e.sd e.sa (second e) e.m6) else .bad 2) ∧
    (e.op = 0x18 → (e.ls = 0 ∨ e.sb = 0) → e.m6 < 64 → decodeA e = if e.m6 < 6 then .ok (.lidx e.sd e.sa (second e) e.m6) else .bad 2)

/-- Products three cycles after issue, quotients and remainders sixteen: truncated toward zero, with the results of R115 for
a zero divisor and for the one overflow; `m6` other than 0 is rejected (R114, R115). -/
def Obligations.MultiplyAndDivide : Prop :=
  ∀ (s : State) (d a : Nat) (b : Src),
    let second (w : AWord) : Src := if w.ls = 0 then .reg w.sb else .lit (w.ls - 1)
    let x := s.w.rdS a
    let y := s.w.src b
    let gives (lat : Nat) (v : Word) : Host.Outcome State Fault Refusal := .next (s.due [(lat, s.scalar d v)])
    let forms : List (Nat → Nat → Src → Instr) := [.mul, .mulh, .mulhn, .madd, .div, .divn, .rem, .remn]
    exec (.mul d a b) s = gives 3 (BitVec.ofInt 64 (x.toInt * y.toInt)) ∧
    exec (.mulh d a b) s = gives 3 (BitVec.ofInt 64 (x.toInt * y.toInt / 2 ^ 64)) ∧
    exec (.mulhn d a b) s = gives 3 (BitVec.ofNat 64 (x.toNat * y.toNat / 2 ^ 64)) ∧
    exec (.madd d a b) s = gives 3 (BitVec.ofInt 64 ((s.w.rdS d).toInt + x.toInt * y.toInt)) ∧
    (y = 0 → exec (.div d a b) s = gives 16 (-1) ∧ exec (.divn d a b) s = gives 16 (-1) ∧
      exec (.rem d a b) s = gives 16 x ∧ exec (.remn d a b) s = gives 16 x) ∧
    (y ≠ 0 → exec (.div d a b) s = gives 16 (BitVec.ofInt 64 (x.toInt.tdiv y.toInt)) ∧
      exec (.rem d a b) s = gives 16 (BitVec.ofInt 64 (x.toInt - y.toInt * x.toInt.tdiv y.toInt)) ∧
      exec (.divn d a b) s = gives 16 (BitVec.ofNat 64 (x.toNat / y.toNat)) ∧
      exec (.remn d a b) s = gives 16 (BitVec.ofNat 64 (x.toNat % y.toNat))) ∧
    (x.toInt = -(2 ^ 63) → y.toInt = -1 →
      exec (.div d a b) s = gives 16 (BitVec.ofInt 64 (-(2 ^ 63))) ∧ exec (.rem d a b) s = gives 16 0) ∧
    ∀ (w : AWord) (i : Nat) (f : Nat → Nat → Src → Instr), forms[i]? = some f → w.op = 0x20 + i → (w.ls = 0 ∨ w.sb = 0) →
      decodeA w = if w.m6 = 0 then .ok (f w.sd w.sa (second w)) else .bad 2

/-- SMIX mixes in two cycles. The scalar float forms work on the low bits of their scalars, the literal zero-extended, and have
the result and its flags due four cycles after issue; the flags are raised even where the result goes to `s0` (R113, R116,
R117, R118, R160). Which numbers `sfSpec` gives is the statement `FloatRounding`'s. -/
def Obligations.MixAndScalarFloat : Prop :=
  ∀ (s : State) (f : SfFmt) (rm : RMode) (d a : Nat) (b : Src) (c : FCond) (cv : SfConv),
    let k := 8 * sfBytes f
    let x := (s.w.rdS a).toNat % 2 ^ k
    let y := (s.w.srcZ b).toNat % 2 ^ k
    let z := (s.w.rdS d).toNat % 2 ^ k
    let gives (r : Nat × Nat) : Host.Outcome State Fault Refusal :=
      .next (s.due [(4, s.scalar d (BitVec.ofNat 64 r.1)), (4, .flags r.2)])
    let u := (s.w.src b).toNat
    let r23 := (u * 2 ^ 23 + u / 2 ^ 41) % 2 ^ 64
    let m1 := Nat.xor (s.w.rdS a).toNat r23 * 0xC3A59E416B27D58D % 2 ^ 64
    let m2 := Nat.xor m1 (m1 / 2 ^ 29) * 0x8F3D2C61E74BA915 % 2 ^ 64
    exec (.smix d a b) s = .next (s.due [(2, s.scalar d (BitVec.ofNat 64 (Nat.xor m2 (m2 / 2 ^ 32))))]) ∧
    exec (.sfadd f rm d a b) s = gives ((sfSpec f).add rm x y) ∧
    exec (.sfmul f rm d a b) s = gives ((sfSpec f).mul rm x y) ∧
    exec (.sfma f rm d a b) s = gives ((sfSpec f).fma rm x y z) ∧
    exec (.sfcmp f c d a b) s = gives (if ((sfSpec f).cmp c x y).1 then 1 else 0, ((sfSpec f).cmp c x y).2) ∧
    exec (.sfcvt cv rm d a) s = gives (sfConvert cv rm (s.w.rdS a))

/-! ## Scratchpad and global memory -/

/-- The scratchpad loads read little-endian bytes at their aligned address and write a scalar or a pair four cycles, or a
vector five cycles, after issue. A guarded early read traps, and an uncorrectable error is consumed. A read of rows without
errors changes nothing but the event counts, and so does that of a row that its cycle serves by reconstruction, which reads the others;
single errors are corrected and counted; a row of the failed brick of a degraded course, and a double error of a fresh line of a healthy
course, are rebuilt, every error of such a row counted; what cannot be rebuilt is consumed and its row poisoned
(R172, R173, R178, R180, R181, R182, R183, R184, R185, R223). -/
def Obligations.ScratchpadLoads : Prop :=
  (∀ (s : State) (z : MSize) (sx : Bool) (t k : Nat) (e : Ea),
     let core := s.w.cur.core
     let ones : Line := BitVec.allOnes 8192
     let value (n v : Nat) : Prop := IsNumber s.mem .spd (core * 2 ^ 21 + s.spdAddr e n) n v
     let early (n : Nat) : Option Nat := s.w.early (s.spdAddr e n / 256) (if n ≤ 256 then 1 else n / 256)
     let seen (n : Nat) : Look := (s.w.count core 0x20 1).look core (s.spdAddr e n) n
     let loads (i : Instr) (n : Nat) (result : Nat → List (Nat × RegW) → Prop) : Prop :=
       (early n = none → (seen n).bad = false →
         ∃ v l, value n v ∧ result v l ∧ exec i s = .next ((s.withWorld (seen n).w).due l)) ∧
       (early n = none → (seen n).bad = true →
         exec i s = .next (s.withWorld (s.consumed (seen n).w 1 (s.spdAddr e n)))) ∧
       (∀ info, early n = some info → exec i s = .next (s.withWorld (s.w.trap 9 info)))
     (z ≠ .b16 → loads (.lds z sx t e) z.bytes (fun v l =>
       l = [(4, s.scalar t (if sx then BitVec.ofInt 64 (signed (8 * z.bytes) v) else BitVec.ofNat 64 v))])) ∧
     loads (.lds .b16 sx t e) 16 (fun v l =>
       l = [(4, s.scalar t (BitVec.ofNat 64 (v % 2 ^ 64))), (4, s.scalar (t + 1) (BitVec.ofNat 64 (v / 2 ^ 64)))]) ∧
     loads (.ldv t e) 1024 (fun v l => l = [(5, .v t (BitVec.ofNat 8192 v) ones)]) ∧
     (k < 4 → loads (.ldr k t e) 256 (fun v l => ∃ x m : Line, l = [(5, .v t x m)] ∧
       ∀ j < 4, lane 256 j x = (if j = k then v else 0) ∧ lane 256 j m = if j = k then 2 ^ 2048 - 1 else 0)) ∧
     loads (.ldb z t e) z.bytes (fun v l => ∃ x : Line, l = [(5, .v t x ones)] ∧
       ∀ j < 1024 / z.bytes, lane z.bytes j x = v)) ∧
  (∀ (w : World) (k row lo n : Nat),
     let c := w.core k
     let errs := inWords lo n (w.errsAt (.row k row))
     (w.softErrs = [] → c.poison = [] → c.courses = [] → w.lookRow k row lo n = { w := w, bad := false }) ∧
     (row ∈ c.poison → w.lookRow k row lo n = { w := w.poisonRow k row, bad := true }) ∧
     (row ∉ c.poison → row ∈ c.rebuilds → (c.health (row / 256)).bricks.length < 2 → w.lookRow k row lo n = { w := w, bad := false }) ∧
     (row ∉ c.poison → row ∉ c.rebuilds → c.rowFailed row = true → (c.health (row / 256)).bricks.length < 2 → w.faultyRest k row = false →
       w.lookRow k row lo n = { w := (w.rebuilt k).mendRest k row (wordSpan lo n), bad := false }) ∧
     (w.softErrs = [] → w.mendRest k row (wordSpan lo n) = w) ∧
     (row ∉ c.poison → row ∉ c.rebuilds → c.rowFailed row = false → hasDouble errs = false → errs ≠ [] →
       (w.lookRow k row lo n).bad = false ∧ (w.lookRow k row lo n).w.core k = c.count 0x22 errs.length) ∧
     (row ∉ c.poison → row ∉ c.rebuilds → c.rowFailed row = false → hasDouble errs = true → (c.health (row / 256)).bricks = [] →
       row / 4 ∉ c.stale → w.faultyRest k row = false →
       (w.lookRow k row lo n).bad = false ∧ (∀ e ∈ (w.lookRow k row lo n).w.softErrs, e.1 ≠ .row k row) ∧
       ((∀ e ∈ w.softErrs, e.1 = .row k row) → (w.lookRow k row lo n).w.core k = c.count 0x22 w.softErrs.length)) ∧
     (row ∉ c.poison → row ∉ c.rebuilds → c.rowFailed row = false → hasDouble errs = true → row / 4 ∈ c.stale →
       (w.lookRow k row lo n).bad = true ∧ row ∈ ((w.lookRow k row lo n).w.core k).poison))

/-- The scratchpad stores write their little-endian bytes at their aligned address, in the same cycle, and no other byte of
any memory but the parity that covers them: a covered write of a healthy course keeps the parity row right, a bulk write
leaves it and makes the line stale, a whole-line write makes its parity anew (R176, R179, R182). -/
def Obligations.ScratchpadStores : Prop :=
  ∀ (s : State) (z : MSize) (t k : Nat) (e : Ea),
    let core := s.w.cur.core
    let clean : Prop := s.w.softErrs = [] ∧ s.me.poison = [] ∧ s.me.courses = []
    let bank (a : Nat) : Nat := core * 2 ^ 19 + a / 65536 * 2 ^ 14 + a / 1024 % 64 * 2 ^ 8 + a % 256
    let data (n : Nat) : Nat := if n = 16 then (s.w.rdS t).toNat + (s.w.rdS (t + 1)).toNat * 2 ^ 64 else (s.w.rdS t).toNat
    let small (i : Instr) (n v : Nat) (covered : Bool) : Prop :=
      let a := s.spdAddr e n
      ∃ q, exec i s = .next q ∧ Quiet s q ∧ IsNumber q.mem .spd (core * 2 ^ 21 + a) n (v % 2 ^ (8 * n)) ∧
        SameBut s.mem q.mem ((.spd, core * 2 ^ 21 + a, n) :: if covered then [(.mortar, bank a, n)] else []) ∧
        (covered = true → ∀ j < n, q.mem.byte .mortar (bank a + j) =
          s.mem.byte .mortar (bank a + j) ^^^ s.mem.byte .spd (core * 2 ^ 21 + a + j) ^^^ q.mem.byte .spd (core * 2 ^ 21 + a + j)) ∧
        (covered = false → a / 1024 ∈ q.me.staleQ)
    let line := s.spdAddr e 1024
    (clean → small (.sts z false t e) z.bytes (data z.bytes) true ∧ small (.sts z true t e) z.bytes (data z.bytes) false) ∧
    (clean → small (.str k false t e) 256 ((s.w.rdV t).toNat / 2 ^ (2048 * k)) true ∧
      small (.str k true t e) 256 ((s.w.rdV t).toNat / 2 ^ (2048 * k)) false) ∧
    (clean → ∃ q, exec (.stv t e) s = .next q ∧ Quiet s q ∧
      IsNumber q.mem .spd (core * 2 ^ 21 + line) 1024 (s.w.rdV t).toNat ∧
      SameBut s.mem q.mem [(.spd, core * 2 ^ 21 + line, 1024), (.mortar, bank line, 256)] ∧
      line / 1024 ∉ q.me.stale ∧
      ∀ j < 256, q.mem.byte .mortar (bank line + j) = q.mem.byte .spd (core * 2 ^ 21 + line + j) ^^^
        q.mem.byte .spd (core * 2 ^ 21 + line + 256 + j) ^^^ q.mem.byte .spd (core * 2 ^ 21 + line + 512 + j) ^^^
        q.mem.byte .spd (core * 2 ^ 21 + line + 768 + j))

/-- AMO reads at issue, has the old value due six cycles after issue and its write two: the new value by its operation. PSEAL
of no lines does nothing, and of up to 64 it starts: in its cycle issue + 3 + 2j line j's mortar row becomes the parity of its
rows, and at its posted time its lines are fresh, but those that took a bulk write after their read; in a degraded course it
writes nothing. PSTAT reports a course, every bit of it (R186, R187, R188, R189). -/
def Obligations.AtomicSealStatus : Prop :=
  ∀ (s : State) (op : AmoOp) (t : Nat) (e : Ea) (kind : PstatKind) (k at_ : Nat) (p : SealOp),
    let core := s.w.cur.core
    let n := match op with
      | .addI32 | .swapI32 | .casI32 | .faddF32 => 4
      | .faddBf16 => 2
      | _ => 8
    let a := s.spdAddr e n
    let v := (s.w.rdS t).toNat % 2 ^ (8 * n)
    let x := (s.w.rdS (t + 1)).toNat % 2 ^ (8 * n)
    let sv (k : Nat) : Int := signed 64 k
    let new (old : Nat) : Nat := match op with
      | .addI64 | .addI32 => (old + v) % 2 ^ (8 * n)
      | .andI64 => Nat.land old v | .orI64 => Nat.lor old v | .xorI64 => Nat.xor old v
      | .minI64 => if sv v < sv old then v else old
      | .maxI64 => if sv old < sv v then v else old
      | .minN64 => Min.min old v | .maxN64 => Max.max old v
      | .swapI64 | .swapI32 => v
      | .casI64 | .casI32 => if old = v then x else old
      | .faddF32 => (specF32.add .rne old v).1
      | .faddBf16 => (specBf16.add .rne old v).1
    let flags (old : Nat) : Nat := match op with
      | .faddF32 => (specF32.add .rne old v).2
      | .faddBf16 => (specBf16.add .rne old v).2
      | _ => 0
    let back (old : Nat) : Word := match op with
      | .addI32 | .swapI32 | .casI32 => BitVec.ofInt 64 (signed 32 old)
      | _ => BitVec.ofNat 64 old
    let counted := s.withWorld (s.w.count core 0x20 1)
    let line := s.spdAddr e 1024
    let lines := Min.min (s.w.rdS t).toNat 64
    (s.w.softErrs = [] → s.me.poison = [] → s.me.courses = [] → s.w.early (a / 256) 1 = none →
      ∃ old, IsNumber s.mem .spd (core * 2 ^ 21 + a) n old ∧
        exec (.amo op t e) s = .next (State.due (counted.withMe { counted.me with amos := counted.me.amos ++
          [{ issue := s.w.cur.issue, course := a / 65536, addr := a, n := n, value := new old, void := false,
             sup := s.w.cur.sup, prior := false }] }) [(6, s.scalar t (back old)), (6, .flags (flags old))])) ∧
    (s.w.rdS t = 0 → exec (.pseal t e) s = .next s) ∧
    (s.w.rdS t ≠ 0 → exec (.pseal t e) s = .next (s.withMe { s.me with seals := s.me.seals ++
        [{ issue := s.w.cur.issue, course := line / 65536, line := line / 1024 % 64, n := lines, dirty := [],
           sup := s.w.cur.sup, prior := false }] })) ∧
    ((s.w.core k).seals = [p] →
      let q := s.does (State.sealCycle k p.sup at_)
      (∀ j < p.n, at_ = p.issue + 3 + 2 * j → ((s.w.core k).health p.course).bricks = [] →
        let l := p.course * 64 + (p.line + j) % 64
        let row := k * 2 ^ 21 + l * 1024 % 2 ^ 21
        let mortarRow := k * 2 ^ 19 + l / 64 % 32 * 2 ^ 14 + l % 64 * 2 ^ 8
        (∀ i < 256, q.mem.byte .mortar (mortarRow + i) = s.mem.byte .spd (row + i) ^^^ s.mem.byte .spd (row + 256 + i) ^^^
          s.mem.byte .spd (row + 512 + i) ^^^ s.mem.byte .spd (row + 768 + i)) ∧
        SameBut s.mem q.mem [(.mortar, mortarRow, 256)]) ∧
      (((s.w.core k).health p.course).bricks ≠ [] → q.mem = s.mem) ∧
      (q.w.core k).ctx = (s.w.core k).ctx ∧ (q.w.core k).poison = (s.w.core k).poison ∧
      (p.issue + 4 + 2 * p.n ≤ at_ → ((s.w.core k).endSeals p.sup at_).seals = [] ∧
        ((s.w.core k).endSeals p.sup at_).poison = (s.w.core k).poison ∧
        ∀ l, l ∈ ((s.w.core k).endSeals p.sup at_).stale ↔ l ∈ (s.w.core k).stale ∧
          ¬(l ∉ p.dirty ∧ ∃ j < p.n, l = p.course * 64 + (p.line + j) % 64)) ∧
      (at_ < p.issue + 4 + 2 * p.n → (s.w.core k).endSeals p.sup at_ = s.w.core k)) ∧
    (∃ r : Word, exec (.pstat kind t e) s = .next (s.due [(2, s.scalar t r)]) ∧
      let course := s.spdAddr e 65536 / 65536
      let h := s.me.health course
      (kind = .stale → ∀ i < 64, r.getLsbD i = true ↔ course * 64 + i ∈ s.me.stale) ∧
      (kind = .poison → ∀ i < 64, r.getLsbD i = true ↔ ∃ row ∈ s.me.poison, row / 4 = course * 64 + i) ∧
      (kind = .health → ∃ poisoned bricks : Nat,
        CountOf (fun l => l < 64 ∧ ∃ row ∈ s.me.poison, row / 4 = course * 64 + l) poisoned ∧
        (∀ i, bricks.testBit i = true ↔ i ∈ h.bricks) ∧
        r = BitVec.ofNat 64 ((if h.bricks = [] then 0 else 1) + 2 * h.bricks.getD 0 0 +
          8 * (s.me.stale.filter (fun l => l / 64 == course)).length + 2 ^ 10 * poisoned + 2 ^ 17 * (if h.failing then 1 else 0) +
          2 ^ 18 * (if 2 ≤ h.bricks.length then 1 else 0) + 2 ^ 19 * h.bricks.getD 1 0 + 2 ^ 21 * bricks)))

/-- A lease check reads the entries of its die that carry the core's gang and tenant: an access whose every byte one of them
covers, with the right that it needs, goes to the machine address that the entry gives; any other traps LEASE with its address, its right and whether an entry covers it (R199, R200). -/
def Obligations.LeaseCheck : Prop :=
  ∀ (w : World) (va n right : Nat),
    let core := w.cur.core
    let es := w.entries core
    let hits (e : Rle) : Prop :=
      e.vbase * 65536 ≤ va ∧ va < (e.vbase + e.pages) * 65536 ∧ va + n ≤ (e.vbase + e.pages) * 65536 ∧
      (match right with | 0 => e.rd | 1 => e.wr | 2 => e.at_ | _ => e.cb) = true
    (∀ e, e ∈ es ↔ e ∈ (w.die (core / 8)).rlt ∧ e.gang = w.gangOf core ∧ e.ten = w.tenOf core ∧ e.pages ≠ 0) ∧
    (∀ a, w.access va n right true = .ok a → ∃ e ∈ es, hits e ∧ a.va = va ∧ a.n = n ∧ a.lid = e.lid ∧
      a.pa = e.pbase * 65536 + (va - e.vbase * 65536)) ∧
    ((∃ e ∈ es, hits e) → ∃ a, w.access va n right true = .ok a) ∧
    ((∀ e ∈ es, ¬hits e) → ∃ seen : Bool,
      w.access va n right true = .error (va % 2 ^ 48 + right * 2 ^ 48 + (if seen then 2 ^ 50 else 0)) ∧
      (seen = true ↔ ∃ e ∈ es, e.vbase * 65536 ≤ va ∧ va < (e.vbase + e.pages) * 65536))

/-- The global forms with a lease go in flight: loads and stores are posted 420 or 520 cycles after issue, by their home, and
a cycle for each 64 bytes; an atomic 560 wherever its home. Without a lease they trap (R200, R205, R206, R207, R208). -/
def Obligations.GlobalForms : Prop :=
  ∀ (s : State) (z : MSize) (sx : Bool) (op : AmoOp) (t : Nat) (e : Ea) (a : Acc),
    let core := s.w.cur.core
    let issue := s.w.cur.issue
    let base := if a.home = core / 8 then 420 else 520
    let bytes (v n : Nat) : List Byte := (List.range n).map (fun i => BitVec.ofNat 8 (v / 256 ^ i))
    let amoN := match op with
      | .addI32 | .swapI32 | .casI32 | .faddF32 => 4
      | .faddBf16 => 2
      | _ => 8
    let stored := if z = .b16 then (s.w.rdS t).toNat + (s.w.rdS (t + 1)).toNat * 2 ^ 64 else (s.w.rdS t).toNat
    (s.w.access (s.virtAddr e z.bytes) z.bytes 0 false = .ok a →
      Flies (exec (.gld z sx t e) s) s issue (issue + base + 1) (issue + base + 1) (.gload false z sx t) [a] []) ∧
    (s.w.access (s.virtAddr e z.bytes) z.bytes 1 true = .ok a → a.pod = false →
      Flies (exec (.gst z t e) s) s issue (issue + base + 1) (issue + base + 1) .gstore [a] (bytes stored z.bytes)) ∧
    (s.w.access (s.virtAddr e 1024) 1024 0 false = .ok a →
      Flies (exec (.gldv t e) s) s issue (issue + base + 16) (issue + base + 16) (.gload true .b16 false t) [a] []) ∧
    (s.w.access (s.virtAddr e 1024) 1024 1 true = .ok a → a.pod = false →
      Flies (exec (.gstv t e) s) s issue (issue + base + 16) (issue + base + 16) .gstore [a]
        (bytes (s.w.rdV t).toNat 1024)) ∧
    (s.w.access (s.virtAddr e amoN) amoN 2 (t == 0) = .ok a → a.pod = false →
      Flies (exec (.gamo op t e) s) s issue (issue + 560) (issue + 560) (.gamo op t (s.w.rdS t) (s.w.rdS (t + 1))) [a] []) ∧
    (s.w.access (s.virtAddr e z.bytes) z.bytes 1 true = .ok a → a.pod = true →
      ∃ (q : State) (f : Flight) (p : PodOut), exec (.gst z t e) s = .next q ∧ q.mem = s.mem ∧ q.w.flights = s.w.flights ++ [f] ∧ f.op = .gstore ∧
        f.accs = [a] ∧ q.w.hub.podOut = s.w.hub.podOut ++ [p] ∧ p.id = f.id ∧ p.core = core ∧
        p.after = (if s.w.cur.sup then (s.w.gangAt core).ttc else issue + 1) ∧
        p.route = a.pa / 2 ^ 46 % 32 ∧ p.ten = s.w.tenOf core ∧ p.left = 0 ∧ p.togo = (a.n + 63) / 64) ∧
    (∀ info, s.w.access (s.virtAddr e z.bytes) z.bytes 1 true = .error info →
      exec (.gst z t e) s = .next (s.withWorld (s.w.trap 10 info))) ∧
    (∀ info, s.w.access (s.virtAddr e z.bytes) z.bytes 0 false = .error info →
      exec (.gld z sx t e) s = .next (s.withWorld (s.w.trap 10 info)))

/-! ## Vector float -/

/-- The float sums, products, fused forms, minima and maxima: each enabled element by itself, its flags combined with those
of the other enabled elements, four cycles after issue; `sfSpec` gives the numbers that `FloatRounding` states (R160, R161, R162,
R163). -/
def Obligations.VectorFloatArithmetic : Prop :=
  ∀ (s : State) (f : SfFmt) (rm : RMode) (d : Nat) (a c : VReg) (b : VSrc) (g : PredG),
    let n := sfBytes f
    let x (i : Nat) : Nat := lane n i (s.w.vop 0 a)
    let y (i : Nat) : Nat := lane n i (s.w.vsrc n b)
    let z (i : Nat) : Nat := lane n i (s.w.vop 2 c)
    let neg (v : Nat) : Nat := Nat.xor v (2 ^ (8 * n - 1))
    let two := s.withWorld (s.w.rec2 a b)
    let three := s.withWorld (s.w.rec3 a b c)
    WritesFloats (exec (.vfadd f rm d a b g) s) s two 4 d n g (fun i => (sfSpec f).add rm (x i) (y i)) ∧
    WritesFloats (exec (.vfsub f rm d a b g) s) s two 4 d n g (fun i => (sfSpec f).add rm (x i) (neg (y i))) ∧
    WritesFloats (exec (.vfmul f rm d a b g) s) s two 4 d n g (fun i => (sfSpec f).mul rm (x i) (y i)) ∧
    WritesFloats (exec (.vfma f rm d a b c g) s) s three 4 d n g (fun i => (sfSpec f).fma rm (x i) (y i) (z i)) ∧
    WritesFloats (exec (.vfms f rm d a b c g) s) s three 4 d n g (fun i => (sfSpec f).fma rm (x i) (y i) (neg (z i))) ∧
    WritesFloats (exec (.vfnma f rm d a b c g) s) s three 4 d n g (fun i => (sfSpec f).fma rm (neg (x i)) (y i) (z i)) ∧
    WritesFloats (exec (.vfmin f d a b g) s) s two 4 d n g (fun i => (sfSpec f).minMax false (x i) (y i)) ∧
    WritesFloats (exec (.vfmax f d a b g) s) s two 4 d n g (fun i => (sfSpec f).minMax true (x i) (y i))

/-- VFABS and VFNEG change the sign bit alone and raise no flag; VFCMP writes all predicate bits of its enabled elements; the
reciprocal, reciprocal root and power come after eight cycles, scalings after three; `sfSpec` gives the numbers that
`FloatRounding` states (R163, R164, R165, R169). -/
def Obligations.VectorFloatOthers : Prop :=
  ∀ (s : State) (f : SfFmt) (rm : RMode) (d p : Nat) (a : VReg) (b : VSrc) (sb : Src) (g : PredG) (c : FCond)
    (bc inv : Bool),
    let n := sfBytes f
    let x (i : Nat) : Nat := lane n i (s.w.vop 0 a)
    let y (i : Nat) : Nat := lane n i (s.w.vsrc n b)
    let one := s.withWorld (s.w.rec1 a)
    let two := s.withWorld (s.w.rec2 a b)
    WritesFloats (exec (.vfabs f d a g) s) s one 4 d n g (fun i => (x i % 2 ^ (8 * n - 1), 0)) ∧
    WritesFloats (exec (.vfneg f d a g) s) s one 4 d n g (fun i => (Nat.xor (x i) (2 ^ (8 * n - 1)), 0)) ∧
    WritesFloats (exec (.vfrcp f rm d a g) s) s one 8 d n g (fun i => (sfSpec f).rcp rm (x i)) ∧
    WritesFloats (exec (.vfrsq f rm d a g) s) s one 8 d n g (fun i => (sfSpec f).rsq rm (x i)) ∧
    WritesFloats (exec (.vfexp2 f rm d a g) s) s one 8 d n g (fun i => (sfSpec f).exp2 rm (x i)) ∧
    WritesFloats (exec (.vfscl f rm bc inv d a sb g) s) s one 3 d n g (fun i =>
      (sfSpec f).scale rm inv (match sb with
        | .lit k => s.w.lit k % 256
        | .reg r => (s.w.rdSc r).toNat / 2 ^ (if bc then 0 else 8 * (i / 32)) % 256) (x i)) ∧
    (∃ u m, PredLanes u m s g n (fun i => ((sfSpec f).cmp c (x i) (y i)).1) ∧
      exec (.vfcmp f c p a b g) s = .next (two.due [(4, .p p u m),
        (4, .flags (s.flagsOf g n (fun i => (0, ((sfSpec f).cmp c (x i) (y i)).2))))]))

/-- A conversion between widths: a widening reads the part of the source that `part` names, a narrowing writes that part of
the destination and leaves the rest. What the rule does not say, a negative element widened to an unsigned format, is left open
here. What a float source converts to is the statement `FloatRounding`'s (R143, R166). -/
def Obligations.VectorConversions : Prop :=
  ∀ (s : State) (dst : CvtDst) (src : CvtSrc) (rm : RMode) (sat : Bool) (fi si : IFmt) (part d : Nat) (a : VReg)
    (g : PredG),
    let one := s.withWorld (s.w.rec1 a)
    let pick (ns nd i : Nat) : Option Nat :=
      if ns ≤ nd then some (part * (1024 / nd) + i)
      else if part * (1024 / ns) ≤ i ∧ i < (part + 1) * (1024 / ns) then some (i - part * (1024 / ns)) else none
    let writes (ns nd : Nat) (stated : Nat → Prop) (val : Nat → Nat) (u m : Line) : Prop := ∀ i < 1024 / nd,
      lane nd i m = (if (pick ns nd i).isSome && s.enabled g nd i then 2 ^ (8 * nd) - 1 else 0) ∧
      ∀ j, pick ns nd i = some j → stated j → lane nd i u = val j % 2 ^ (8 * nd)
    let r (j : Nat) : Nat × Nat := cvtTo dst rm sat (cvtSrcVal src (lane src.bytes j (s.w.vop 0 a)))
    let v (j : Nat) : Int := laneVal (iSigned si) si.bytes j (s.w.vop 0 a)
    (part < parts src.bytes dst.bytes → ∃ u m, writes src.bytes dst.bytes (fun _ => True) (fun j => (r j).1) u m ∧
      exec (.vfcvt dst src rm sat part d a g) s = .next (one.due [(3, .v d u m), (3, .flags
        (((List.range (1024 / dst.bytes)).filter (s.enabled g dst.bytes)).foldl (fun fl i =>
          fl ||| (match pick src.bytes dst.bytes i with | some j => (r j).2 | none => 0)) 0))])) ∧
    (part < parts si.bytes fi.bytes → ∃ u m, writes si.bytes fi.bytes
        (fun j => fi.bytes ≤ si.bytes ∨ iSigned fi = true ∨ 0 ≤ v j)
        (fun j => inBytes fi.bytes (if sat ∧ fi.bytes ≤ si.bytes then clamped (iSigned fi) fi.bytes (v j) else v j)) u m ∧
      exec (.vcvt fi si sat part d a g) s = .next (one.due [(3, .v d u m)]))

/-! ## Vector integer -/

/-- Sums, differences, products and absolute values of elements: exact, then reduced to the element's bits, or clamped with
`.sat`; the high half of a product; minima and maxima in the format's order (R138, R139). -/
def Obligations.VectorIntegerArithmetic : Prop :=
  ∀ (s : State) (f : IFmt) (sat : Bool) (d : Nat) (a : VReg) (b : VSrc) (g : PredG),
    let n := f.bytes
    let x (i : Nat) : Int := laneVal (iSigned f) n i (s.w.vop 0 a)
    let y (i : Nat) : Int := laneVal (iSigned f) n i (s.w.vsrc n b)
    let fit (v : Int) : Nat := inBytes n (if sat then clamped (iSigned f) n v else v)
    let one := s.withWorld (s.w.rec1 a)
    let two := s.withWorld (s.w.rec2 a b)
    WritesLanes (exec (.vadd f sat d a b g) s) s two 2 d n g (fun i => fit (x i + y i)) ∧
    WritesLanes (exec (.vsub f sat d a b g) s) s two 2 d n g (fun i => fit (x i - y i)) ∧
    WritesLanes (exec (.vmul f sat d a b g) s) s two 4 d n g (fun i => fit (x i * y i)) ∧
    WritesLanes (exec (.vmulh f d a b g) s) s two 4 d n g (fun i => inBytes n (x i * y i / 2 ^ (8 * n))) ∧
    WritesLanes (exec (.vabs f sat d a g) s) s one 2 d n g (fun i => fit (if x i < 0 then -x i else x i)) ∧
    WritesLanes (exec (.vmin f d a b g) s) s two 2 d n g (fun i => inBytes n (Min.min (x i) (y i))) ∧
    WritesLanes (exec (.vmax f d a b g) s) s two 2 d n g (fun i => inBytes n (Max.max (x i) (y i)))

/-- Shifts by the count modulo the element's width, the bitwise forms, and the counts of leading zeros and of ones (R139). -/
def Obligations.VectorShiftsAndLogic : Prop :=
  ∀ (s : State) (f : IFmt) (d : Nat) (a : VReg) (b : VSrc) (g : PredG),
    let n := f.bytes
    let x (i : Nat) : Nat := lane n i (s.w.vop 0 a)
    let y (i : Nat) : Nat := lane n i (s.w.vsrc n b)
    let k (i : Nat) : Nat := y i % (8 * n)
    let one := s.withWorld (s.w.rec1 a)
    let two := s.withWorld (s.w.rec2 a b)
    WritesLanes (exec (.vshl f d a b g) s) s two 2 d n g (fun i => x i * 2 ^ k i % 2 ^ (8 * n)) ∧
    WritesLanes (exec (.vshr f d a b g) s) s two 2 d n g (fun i => x i / 2 ^ k i) ∧
    WritesLanes (exec (.vsar f d a b g) s) s two 2 d n g (fun i => inBytes n (signed (8 * n) (x i) / 2 ^ k i)) ∧
    WritesLanes (exec (.vand f d a b g) s) s two 2 d n g (fun i => Nat.land (x i) (y i)) ∧
    WritesLanes (exec (.vor f d a b g) s) s two 2 d n g (fun i => Nat.lor (x i) (y i)) ∧
    WritesLanes (exec (.vxor f d a b g) s) s two 2 d n g (fun i => Nat.xor (x i) (y i)) ∧
    WritesLanes (exec (.vandn f d a b g) s) s two 2 d n g (fun i => Nat.land (x i) (2 ^ (8 * n) - 1 - y i)) ∧
    WritesLanes (exec (.vclz f d a g) s) s one 2 d n g (fun i => 8 * n - Nat.size (x i)) ∧
    WritesLanes (exec (.vpopc f d a g) s) s one 2 d n g
      (fun i => ((List.range (8 * n)).filter (fun j => (x i).testBit j)).length)

/-- Dot products of four bytes, comparisons to predicates, selection by a predicate, saturation to any width, ramps, the
mixing function on pairs of lanes, and a scalar in every element (R140, R141, R142, R144, R145). -/
def Obligations.VectorIntegerOthers : Prop :=
  ∀ (s : State) (f : IFmt) (sgn acc : Bool) (d p k step : Nat) (a c : VReg) (b : VSrc) (sb : Src) (g : PredG)
    (cond : VCond),
    let n := f.bytes
    let x (i : Nat) : Int := laneVal (iSigned f) n i (s.w.vop 0 a)
    let y (i : Nat) : Int := laneVal (iSigned f) n i (s.w.vsrc n b)
    let one := s.withWorld (s.w.rec1 a)
    let two := s.withWorld (s.w.rec2 a b)
    let prod (i : Nat) : Int := laneVal sgn 1 i (s.w.vop 0 a) * laneVal sgn 1 i (s.w.vsrc 1 b)
    let holds (i : Nat) : Bool := match cond with
      | .eq => decide (x i = y i) | .ne => decide (x i ≠ y i) | .lt => decide (x i < y i) | .le => decide (x i ≤ y i)
    let sv (i : Nat) : Int := laneVal true n i (s.w.vop 0 a)
    WritesLanes (exec (.vdot4 sgn acc d a b c g) s) s (if acc then s.withWorld (s.w.rec3 a b c) else two) 4 d 4 g
      (fun i => inBytes 4 (prod (4 * i) + prod (4 * i + 1) + prod (4 * i + 2) + prod (4 * i + 3) +
        if acc then laneVal sgn 4 i (s.w.vop 2 c) else 0)) ∧
    (∃ u m, PredLanes u m s g n holds ∧ exec (.vcmp f cond p a b g) s = .next (two.due [(2, .p p u m)])) ∧
    WritesLanes (exec (.vsel f d a b p g) s) s two 2 d n g (fun i =>
      if (s.w.rdP p).getLsbD (i * n) then lane n i (s.w.vop 0 a) else lane n i (s.w.vsrc n b)) ∧
    (1 ≤ k → k ≤ 8 * n → WritesLanes (exec (.vsat f k d a g) s) s one 3 d n g (fun i =>
      inBytes n (if iSigned f then Max.max (-(2 ^ (k - 1) : Int)) (Min.min (sv i) (2 ^ (k - 1) - 1))
        else Max.max 0 (Min.min (sv i) (2 ^ k - 1))))) ∧
    WritesLanes (exec (.vidx f step d b g) s) s (s.withWorld (s.w.recordB b (s.w.vsrc n b))) 2 d n g
      (fun i => (lane n i (s.w.vsrc n b) + i * step) % 2 ^ (8 * n)) ∧
    WritesLanes (exec (.vbcs f d sb g) s) s s 2 d n g (fun _ => (s.w.src sb).toNat % 2 ^ (8 * n)) ∧
    WritesLanes (exec (.vsmix sgn d a b g) s) s two 3 d 8 g (fun i =>
      (smix (BitVec.ofNat 64 (lane 8 i (s.w.vop 0 a))) (BitVec.ofNat 64 (lane 8 i (s.w.vsrc 4 b)))).toNat)

/-! ## Permutes, reductions and predicates -/

/-- Permutes: by index (bytes within their 256-byte row), by rotation toward element 0, by five patterns, and by windows at a
byte or element offset of two registers (R147, R148). -/
def Obligations.Permutes : Prop :=
  ∀ (s : State) (f : PFmt) (d k c : Nat) (a : VReg) (b : VSrc) (sb : Src) (g : PredG),
    let n := pBytes f
    let N := 1024 / n
    let x (i : Nat) : Nat := lane n i (s.w.vop 0 a)
    let y (i : Nat) : Nat := lane n i (s.w.vsrc n b)
    let one := s.withWorld (s.w.rec1 a)
    let two := s.withWorld (s.w.rec2 a b)
    let byte (j : Nat) : Nat := if j < 1024 then lane 1 j (s.w.vop 0 a) else lane 1 (j - 1024) (s.w.vsrc n b)
    let windowAt (o : Nat) (instr : Instr) : Prop := ∃ u m : Line, exec instr s = .next (two.due [(3, .v d u m)]) ∧
      (∀ j < 1024, lane 1 j u = byte (o + j)) ∧ ∀ i < N, lane n i m = if s.enabled g n i then 2 ^ (8 * n) - 1 else 0
    WritesLanes (exec (.vperm f d a b g) s) s two 4 d n g
      (fun i => if n = 1 then x (i / 256 * 256 + y i) else x (y i % N)) ∧
    WritesLanes (exec (.vrot f d a sb g) s) s one 3 d n g (fun i => x ((i + (s.w.src sb).toNat) % N)) ∧
    WritesLanes (exec (.vshuf f .ziplo d a b g) s) s two 3 d n g (fun i => if i % 2 = 0 then x (i / 2) else y (i / 2)) ∧
    WritesLanes (exec (.vshuf f .ziphi d a b g) s) s two 3 d n g
      (fun i => if i % 2 = 0 then x (N / 2 + i / 2) else y (N / 2 + i / 2)) ∧
    WritesLanes (exec (.vshuf f .even d a b g) s) s two 3 d n g
      (fun i => if i < N / 2 then x (2 * i) else y (2 * (i - N / 2))) ∧
    WritesLanes (exec (.vshuf f .odd d a b g) s) s two 3 d n g
      (fun i => if i < N / 2 then x (2 * i + 1) else y (2 * (i - N / 2) + 1)) ∧
    WritesLanes (exec (.vshuf f .rev d a b g) s) s one 3 d n g (fun i => x (N - 1 - i)) ∧
    windowAt ((s.w.rdS c).toNat % 1024) (.vrmg f d a b c g) ∧
    (k * n ≤ 1024 → windowAt (k * n) (.vwin f k d a b g))

/-- Reductions and prefixes of integers: only enabled elements count; the whole register is written by VRED, and a disabled
element of VSCAN stays. Float forms give the result of what was gathered, with its flags, which is the sum that `FloatRounding`
states (R149). -/
def Obligations.Reductions : Prop :=
  ∀ (s : State) (f : PFmt) (op : RedOp) (rm : RMode) (sat ex : Bool) (d : Nat) (a : VReg) (g : PredG),
    let n := pBytes f
    let N := 1024 / n
    let one := s.withWorld (s.w.rec1 a)
    let es := (List.range N).filter (s.enabled g n)
    let v (i : Nat) : Int := laneVal (pSigned f) n i (s.w.vop 0 a)
    let low : Int := if pSigned f then -(2 ^ (8 * n - 1)) else 0
    let high : Int := if pSigned f then 2 ^ (8 * n - 1) - 1 else 2 ^ (8 * n) - 1
    let total (l : List Nat) : Nat := match op with
      | .sum => inBytes n (if sat then clamped (pSigned f) n (l.map v).sum else (l.map v).sum)
      | .min => inBytes n (l.foldl (fun m i => Min.min m (v i)) high)
      | .max => inBytes n (l.foldl (fun m i => Max.max m (v i)) low)
    let gathered (l : List Nat) : Gather := l.foldl (fun t i => t.add f op (lane n i (s.w.vop 0 a))) Gather.empty
    (f.isFloat = false →
      exec (.vred f op rm sat d a g) s =
        .next (one.due [(6, .v d (BitVec.ofNat 8192 (total es)) (BitVec.allOnes 8192)), (6, .flags 0)])) ∧
    (f.isFloat = true →
      exec (.vred f op rm sat d a g) s =
        .next (one.due [(6, .v d (BitVec.ofNat 8192 (((gathered es).result f op rm sat).1 % 2 ^ (8 * n))) (BitVec.allOnes 8192)),
          (6, .flags ((gathered es).result f op rm sat).2)])) ∧
    WritesFloats (exec (.vscan f op ex rm sat d a g) s) s one 8 d n g (fun i =>
      let l := es.filter (fun j => if ex then decide (j < i) else decide (j ≤ i))
      if f.isFloat then (gathered l).result f op rm sat else (total l, 0))

/-- Narrowing packs and widening unpacks, single elements to and from scalars, and the predicate forms (R150, R151, R152). That an
unpack of a signalling NaN raises the invalid flag is the model's choice (log 74): R150 gives flags for packs alone. -/
def Obligations.PacksElementsPredicates : Prop :=
  ∀ (s : State) (f : PFmt) (rm : RMode) (sat hi : Bool) (d p q sa : Nat) (a : VReg) (b : VSrc) (sb : Src) (g : PredG),
    let n := pBytes f
    let N := 1024 / n
    let x (i : Nat) : Nat := lane n i (s.w.vop 0 a)
    let xy (i : Nat) : Nat := if i < N then x i else lane n (i - N) (s.w.vsrc n b)
    let one := s.withWorld (s.w.rec1 a)
    let two := s.withWorld (s.w.rec2 a b)
    let idx := (s.w.src sb).toNat % N
    let num (v : Nat) : Int := if pSigned f then signed (8 * n) v else (v : Int)
    let onesP : Pred := BitVec.allOnes 1024
    (1 < n → WritesFloats (exec (.vpack f rm sat d a b g) s) s two 3 d (n / 2) g (fun i =>
      if f.isFloat then specBf16.convert rm sat (specF32.decode (xy i))
      else (inBytes (n / 2) (if sat then clamped (pSigned f) (n / 2) (num (xy i)) else num (xy i)), 0))) ∧
    (n < 4 → WritesFloats (exec (.vunpk f hi d a g) s) s one 3 d (2 * n) g (fun i =>
      let v := x (if hi then N / 2 + i else i)
      if f.isFloat then specF32.convert .rne false (specBf16.decode v) else (inBytes (2 * n) (num v), 0))) ∧
    exec (.vext f d a sb) s = .next (one.due [(3, s.scalar d (BitVec.ofInt 64 (num (x idx))))]) ∧
    (∃ u m : Line, exec (.vins f d sa sb) s = .next (s.due [(3, .v d u m)]) ∧ ∀ i < N,
      lane n i m = (if i = idx then 2 ^ (8 * n) - 1 else 0) ∧
      (i = idx → lane n i u = (s.w.rdS sa).toNat % 2 ^ (8 * n))) ∧
    (∃ u : Pred, exec (.pand d p q) s = .next (s.due [(1, .p d u onesP)]) ∧
      ∀ i < 1024, u.getLsbD i = ((s.w.rdP p).getLsbD i && (s.w.rdP q).getLsbD i)) ∧
    (∃ u : Pred, exec (.por d p q) s = .next (s.due [(1, .p d u onesP)]) ∧
      ∀ i < 1024, u.getLsbD i = ((s.w.rdP p).getLsbD i || (s.w.rdP q).getLsbD i)) ∧
    (∃ u : Pred, exec (.pxor d p q) s = .next (s.due [(1, .p d u onesP)]) ∧
      ∀ i < 1024, u.getLsbD i = ((s.w.rdP p).getLsbD i != (s.w.rdP q).getLsbD i)) ∧
    (∃ u : Pred, exec (.pnot d p) s = .next (s.due [(1, .p d u onesP)]) ∧
      ∀ i < 1024, u.getLsbD i = !(s.w.rdP p).getLsbD i) ∧
    (∃ u : Pred, exec (.pmov false d a) s = .next (one.due [(2, .p d u onesP)]) ∧
      ∀ i < 1024, u.getLsbD i = decide (128 ≤ lane 1 i (s.w.vop 0 a))) ∧
    (∃ u : Line, exec (.pmov true d a) s = .next (s.due [(2, .v d u (BitVec.allOnes 8192))]) ∧
      ∀ i < 1024, lane 1 i u = if (s.w.rdP a.n).getLsbD i then 255 else 0)

/-! ## Engines, queues, synchronisation -/

/-- BCOPY and BFILL with good operands and leases take an entry of the block-transfer engine, start four cycles after issue and
their delay, have the posted time and the completion of R214's table, and move the given bytes, at global memory to the machine
addresses of the runs that hold them; with a length of zero they do nothing; what no lease covers traps LEASE, a full buffer QUEUE,
and reserved bits, a length above 2^21, a core that is no member and high bits of a scratchpad operand trap ILLEGAL with their
reason (R200, R210, R211, R212, R213, R214, R219, R220). -/
def Obligations.BlockTransfers : Prop :=
  ∀ (s : State) (glb : Bool) (e : Ends) (z : FillSize) (d c : Nat) (v : Src),
    let core := s.w.cur.core
    let g := s.w.gangAt core
    let cv := (s.w.rdS c).toNat
    let len := cv % 2 ^ 22 / 16 * 16
    let start := s.w.cur.issue + 4 + cv / 2 ^ 40
    let operand (isGlb : Bool) (x : Word) : Prop :=
      isGlb = true ∨ ((x.toNat / 2 ^ 21 % 128) ∈ g.members ∧ x.toNat / 2 ^ 28 = 0)
    let control : Prop := cv / 2 ^ 22 % 2 ^ 18 = 0 ∧ len ≤ 2 ^ 21
    let srcGlb := match e with | .gs => true | _ => false
    let dstGlb := match e with | .sg => true | _ => false
    let byteAddr (isGlb : Bool) (x : Word) : Nat := (if isGlb then x.toNat else x.toNat % 2 ^ 21) / 16 * 16
    let end_ (isGlb : Bool) (x : Word) : End := if isGlb then .glb else .spd (x.toNat / 2 ^ 21 % 128)
    let copy : EngCmd := {
      dst := end_ dstGlb (s.w.rdS d), src := end_ srcGlb (s.w.src v), mask := none,
      segs := [{ d := byteAddr dstGlb (s.w.rdS d), s := some (byteAddr srcGlb (s.w.src v)), n := len, pat := [] }] }
    let fill : EngCmd := {
      dst := end_ glb (s.w.rdS d), src := end_ glb (s.w.rdS d), mask := none,
      segs := [{ d := byteAddr glb (s.w.rdS d), s := none, n := len, pat := leBytes (fillBytes z) (s.w.src v).toNat }] }
    let room : Prop := s.w.engHeld core < (if isMx core then 64 else 32)
    let leased (cmd : EngCmd) : Prop := lowestBad (s.w.entries core) cmd.global.2 cmd.global.1 = none
    let accs (cmd : EngCmd) : List Acc := (cmd.global.1.map (accsOf s.w (s.w.entries core) cmd.global.2)).flatten
    let counted := s.withWorld (s.w.count core 0x2A 1)
    let copies : List (Bool × Word) := [(dstGlb, s.w.rdS d), (srcGlb, s.w.src v)]
    let fails (ops : List (Bool × Word)) (r : Nat) : Prop := (r = 1 ∧ cv / 2 ^ 22 % 2 ^ 18 ≠ 0) ∨ (r = 2 ∧ 2 ^ 21 < len) ∨
      (r = 3 ∧ ∃ o ∈ ops, o.1 = false ∧ o.2.toNat / 2 ^ 21 % 128 ∉ g.members) ∨
      (r = 4 ∧ ∃ o ∈ ops, o.1 = false ∧ o.2.toNat / 2 ^ 28 ≠ 0)
    let illegal (r : Nat) : Host.Outcome State Fault Refusal := .next (s.withWorld (s.w.trap 1 (2 ^ 21 + r * 2 ^ 22)))
    (control → operand dstGlb (s.w.rdS d) → operand srcGlb (s.w.src v) → 0 < len → leased copy → room →
      ∃ posted done : Nat, Flies (exec (.bcopy e d v c) s) counted start posted done (.eng copy) (accs copy) [] ∧
        EngineTimes s copy false len (accs copy) start posted done) ∧
    (control → operand glb (s.w.rdS d) → 0 < len → leased fill → room →
      ∃ posted done : Nat, Flies (exec (.bfill glb z d v c) s) counted start posted done (.eng fill) (accs fill) [] ∧
        EngineTimes s fill true len (accs fill) start posted done) ∧
    (∀ (right va n : Nat) (r : Rle), (s.w.entries core).find? (fun r => r.covers va && r.grants right) = some r → 0 < n →
      va + n ≤ (r.vbase + r.pages) * 65536 → va / 4096 = (va + n - 1) / 4096 → ∃ x, accsOf s.w (s.w.entries core) right (va, n) = [x] ∧
        x.va = va ∧ x.n = n ∧ x.lid = r.lid ∧ x.pa = r.pbase * 65536 + (va - r.vbase * 65536)) ∧
    (∀ r, fails copies r → (∀ q, fails copies q → q = r) → exec (.bcopy e d v c) s = illegal r) ∧
    (∀ r, fails [(glb, s.w.rdS d)] r → (∀ q, fails [(glb, s.w.rdS d)] q → q = r) → exec (.bfill glb z d v c) s = illegal r) ∧
    (control → operand dstGlb (s.w.rdS d) → operand srcGlb (s.w.src v) → 0 < len →
      ∀ a, lowestBad (s.w.entries core) copy.global.2 copy.global.1 = some a →
        exec (.bcopy e d v c) s = .next (s.withWorld (s.w.trap 10 (leaseInfo (s.w.entries core) a copy.global.2)))) ∧
    (control → operand glb (s.w.rdS d) → 0 < len → ∀ a, lowestBad (s.w.entries core) fill.global.2 fill.global.1 = some a →
        exec (.bfill glb z d v c) s = .next (s.withWorld (s.w.trap 10 (leaseInfo (s.w.entries core) a 1)))) ∧
    (control → operand glb (s.w.rdS d) → len = 0 → exec (.bfill glb z d v c) s = .next counted) ∧
    (control → operand glb (s.w.rdS d) → 0 < len → leased fill → ¬room →
      exec (.bfill glb z d v c) s = .next (s.withWorld (s.w.trap 11 (s.w.engHeld core + 2 ^ 31)))) ∧
    (control → operand dstGlb (s.w.rdS d) → operand srcGlb (s.w.src v) → len = 0 →
      exec (.bcopy e d v c) s = .next (s.withWorld (s.w.count core 0x2A 1))) ∧
    (control → operand dstGlb (s.w.rdS d) → operand srcGlb (s.w.src v) → 0 < len → leased copy → ¬room →
      exec (.bcopy e d v c) s = .next (s.withWorld (s.w.trap 11 (s.w.engHeld core + 2 ^ 31)))) ∧
    (cv / 2 ^ 22 % 2 ^ 18 ≠ 0 → exec (.bcopy e d v c) s = .next (s.withWorld (s.w.trap 1 (2 ^ 21 + 2 ^ 22))))

/-- TCOPY takes its shape from its record and goes in flight as one command, with the times of R214's table; at a full quota it
traps QUEUE, and an error of its record is consumed only where no check fails; IFILL of the idle half starts a fill; BCHK arms a
checker over rows, or disarms it (R211, R214, R221, R222, R223, R229, R381). -/
def Obligations.TensorFillCheck : Prop :=
  ∀ (s : State) (e : Ends) (hb : Bool) (k d c a : Nat) (v b : Src),
    let core := s.w.cur.core
    let g := s.w.gangAt core
    let ra := (s.w.rdS c).toNat % 2 ^ 21 / 64 * 64
    let l := Layout.ofNat (s.spd core ra 64)
    let isSrcGlb := match e with | .gs => true | _ => false
    let isDstGlb := match e with | .sg => true | _ => false
    let good (isGlb : Bool) (x : Word) : Prop :=
      isGlb = true ∨ ((x.toNat / 2 ^ 21 % 128) ∈ g.members ∧ x.toNat / 2 ^ 28 = 0)
    let addr (isGlb : Bool) (x : Word) : Nat := if isGlb then x.toNat else x.toNat % 2 ^ 21
    let end_ (isGlb : Bool) (x : Word) : End := if isGlb then .glb else .spd (x.toNat / 2 ^ 21 % 128)
    let cmd : EngCmd := {
      dst := end_ isDstGlb (s.w.rdS d), src := end_ isSrcGlb (s.w.src v),
      segs := l.segs (addr isDstGlb (s.w.rdS d)) (addr isSrcGlb (s.w.src v)) (!isDstGlb) (if isSrcGlb then 2 ^ 64 else 2 ^ 21),
      mask := if isDstGlb = false ∧ l.mask = true then some (l.maskLine (addr isDstGlb (s.w.rdS d))) else none }
    let start := s.w.cur.issue + 4 + l.dly
    let va := (s.w.rdS a).toNat / 64 * 64
    let n := (s.w.src b).toNat
    let arm := (s.w.rdS a).toNat / 256 % 2 ^ 13 * 256
    let length := (s.w.srcZ b).toNat
    let accs : List Acc := (cmd.global.1.map (accsOf s.w (s.w.entries core) cmd.global.2)).flatten
    let counted := s.withWorld (s.w.count core 0x2A 1)
    let clean : Prop := s.w.softErrs = [] ∧ s.me.poison = [] ∧ s.me.courses = []
    let quota := if isMx core then 64 else 32
    let goodCmd : Prop := good isDstGlb (s.w.rdS d) ∧ good isSrcGlb (s.w.src v) ∧ l.ok = true ∧
      lowestBad (s.w.entries core) cmd.global.2 cmd.global.1 = none
    (goodCmd → cmd.segs ≠ [] → clean → s.w.engHeld core < quota →
      ∃ posted done : Nat, Flies (exec (.tcopy e d v c) s) counted start posted done (.eng cmd) accs [] ∧
        EngineTimes s cmd false (l.dim0 * l.dim1 * 2 ^ l.esz) accs start posted done) ∧
    (goodCmd → cmd.segs = [] → clean → exec (.tcopy e d v c) s = .next counted) ∧
    (goodCmd → cmd.segs ≠ [] → clean → quota ≤ s.w.engHeld core →
      exec (.tcopy e d v c) s = .next (s.withWorld (s.w.trap 11 (s.w.engHeld core + 2 ^ 31)))) ∧
    (goodCmd → s.w.engHeld core < quota → (s.w.look core ra 64).bad = true →
      exec (.tcopy e d v c) s = .next (s.withWorld (s.consumed (s.w.look core ra 64).w 1 ra))) ∧
    (good isDstGlb (s.w.rdS d) → good isSrcGlb (s.w.src v) → l.ok = false →
      exec (.tcopy e d v c) s = .next (s.withWorld (s.w.trap 1 (2 ^ 21 + 5 * 2 ^ 22)))) ∧
    (s.me.ctx.halfAct ≠ hb → s.w.cur.swap = false → 1 ≤ n → n ≤ 30720 → s.me.ifstat.busy = false →
      lowestBad (s.w.entries core) 0 [(va, 4 * n)] = none →
      ∃ (t : State) (f : Flight), exec (.ifill hb a b) s = .next t ∧ t.mem = s.mem ∧ t.w.flights = s.w.flights ++ [f] ∧ f.op = .ifill hb n ∧
        f.accs = accsOf s.w (s.w.entries core) 0 (va, 4 * n) ∧ f.posted = s.w.cur.issue + 480 + (4 * n + 63) / 64 ∧ (if hb then t.me.ctx.halfB else t.me.ctx.halfA) = 2 ∧
        t.me.ifstat.busy = true ∧ t.me.ctx.sregs = s.me.ctx.sregs ∧ t.me.pend = s.me.pend ∧
        ∀ w ∈ t.me.startMap, w ∈ s.me.startMap ∧ areaOf w ≠ (if hb then 2 else 1)) ∧
    exec (.bchk k a b) s = .next (counted.withMe { counted.me with
      checkers := fset s.me.checkers (0, 0) k (if length = 0 then (0, 0) else (arm, length)) })

/-- Sends to a queue with room go in flight, posted 16 cycles after issue within a die and 80 across; receives of the expected
head pop it and have its data due after three cycles. Any other head traps POSTMARK; a full queue traps QUEUE, for a multicast the lowest
full one, and so does a lane that a send of the last three cycles holds; a core that is no member, a group that is not filled and
reserved bits of a postmark trap ILLEGAL with the lowest reason. A multicast counts an entry for each target (R128, R237, R238, R240,
R241, R242). -/
def Obligations.OperandQueues : Prop :=
  ∀ (s : State) (ln v a t : Nat) (p : Src) (q : QEntry) (rest : List QEntry),
    let core := s.w.cur.core
    let g := s.w.gangAt core
    let pm := (s.w.srcZ p).toNat
    let who := pm % 128
    let que := pm / 256 % 8
    let seq := pm / 2 ^ 16 % 2 ^ 16
    let clean : Prop := pm / 128 % 2 = 0 ∧ pm / 2 ^ 11 % 32 = 0
    let lat (ts : List Nat) : Nat := if ts.all (fun k => k / 8 == core / 8) then 16 else 80
    let bytes (x : Nat) : List Byte := (List.range 1024).map (fun i => BitVec.ofNat 8 (x / 256 ^ i))
    let laneFree : Prop := ∀ u, fget s.me.lanes none ln = some u → s.w.cur.issue ≤ u ∨ u + 4 ≤ s.w.cur.issue
    let grp := s.w.group (pm % 256)
    let traps (cause info : Nat) : Host.Outcome State Fault Refusal := .next (s.withWorld (s.w.trap cause info))
    let full (k : Nat) := traps 11 (k + que * 2 ^ 8 + 16 * 2 ^ 16)
    let busy (since : Nat) := traps 11 (2 ^ 30 + ln * 2 ^ 28 + since * 2 ^ 24)
    let illegal (reason : Nat) := traps 1 (2 ^ 33 + reason * 2 ^ 34)
    let wrong (head : Nat) := traps 4 (who + que * 2 ^ 8 + seq * 2 ^ 16 + head)
    let popped (c : Core) : Prop := c.queue que = rest ∧ ∀ j, j ≠ que → c.queue j = s.me.queue j
    (clean → who ∈ g.members → s.w.reserved who que < 16 → laneFree →
      Flies (exec (.send ln v p) s) s s.w.cur.issue (s.w.cur.issue + lat [who]) (s.w.cur.issue + lat [who])
        (.send [who] que seq) [] (bytes (s.w.rdV v).toNat)) ∧
    (clean → who ∈ g.members → s.w.reserved who que < 16 →
      Flies (exec (.sends a p) s) s s.w.cur.issue (s.w.cur.issue + lat [who]) (s.w.cur.issue + lat [who])
        (.send [who] que seq) [] (bytes (s.w.rdS a).toNat)) ∧
    (pm / 2 ^ 11 % 32 = 0 → grp.holders ≠ [] → (∀ k ∈ grp.cores, k ∈ g.members ∧ s.w.reserved k que < 16) → laneFree →
      Flies (exec (.mcast ln v p) s) s s.w.cur.issue (s.w.cur.issue + lat grp.cores) (s.w.cur.issue + lat grp.cores)
        (.send grp.cores que seq) [] (bytes (s.w.rdV v).toNat)) ∧
    (∃ u : State, exec (.mcast ln v p) s = .next u ∧ (pm / 2 ^ 11 % 32 = 0 → grp.holders ≠ [] →
      (∀ k ∈ grp.cores, k ∈ g.members ∧ s.w.reserved k que < 16) → laneFree →
      fget u.me.evq 0 0x2C = fget s.me.evq 0 0x2C + grp.cores.length)) ∧
    (clean → who ∈ g.members → 16 ≤ s.w.reserved who que →
      exec (.sends a p) s = full who ∧ exec (.send ln v p) s = full who) ∧
    (∀ k, pm / 2 ^ 11 % 32 = 0 → grp.holders ≠ [] → (∀ j ∈ grp.cores, j ∈ g.members) → k ∈ grp.cores → 16 ≤ s.w.reserved k que →
      (∀ j ∈ grp.cores, j < k → s.w.reserved j que < 16) → exec (.mcast ln v p) s = full k) ∧
    (∀ last, fget s.me.lanes none ln = some last → last < s.w.cur.issue → s.w.cur.issue < last + 4 →
      (clean → who ∈ g.members → s.w.reserved who que < 16 → exec (.send ln v p) s = busy (s.w.cur.issue - last)) ∧
      (pm / 2 ^ 11 % 32 = 0 → grp.holders ≠ [] → (∀ k ∈ grp.cores, k ∈ g.members ∧ s.w.reserved k que < 16) →
        exec (.mcast ln v p) s = busy (s.w.cur.issue - last))) ∧
    (who ∉ g.members → exec (.send ln v p) s = illegal 1 ∧ exec (.sends a p) s = illegal 1) ∧
    (who ∈ g.members → ¬clean → exec (.send ln v p) s = illegal 3 ∧ exec (.sends a p) s = illegal 3) ∧
    ((∃ k ∈ grp.cores, k ∉ g.members) → exec (.mcast ln v p) s = illegal 1) ∧
    ((∀ k ∈ grp.cores, k ∈ g.members) → grp.holders = [] → exec (.mcast ln v p) s = illegal 2) ∧
    ((∀ k ∈ grp.cores, k ∈ g.members) → grp.holders ≠ [] → pm / 2 ^ 11 % 32 ≠ 0 → exec (.mcast ln v p) s = illegal 3) ∧
    (¬clean → exec (.recv v p) s = illegal 3 ∧ exec (.recvs t p) s = illegal 3) ∧
    (clean → s.me.queue que = q :: rest → q.sender = who → q.seq = seq →
      ∃ u, popped u.me ∧ u.mem = s.mem ∧ Quiet s u ∧
        exec (.recv v p) s = .next (u.due [(3, .v v q.data (BitVec.allOnes 8192))]) ∧
        exec (.recvs t p) s = .next (u.due [(3, s.scalar t (BitVec.ofNat 64 q.data.toNat))])) ∧
    (clean → s.me.queue que = q :: rest → (q.sender ≠ who ∨ q.seq ≠ seq) →
      exec (.recv v p) s = wrong (q.sender * 2 ^ 33 + q.seq * 2 ^ 40) ∧ exec (.recvs t p) s = wrong (q.sender * 2 ^ 33 + q.seq * 2 ^ 40)) ∧
    (clean → s.me.queue que = [] → exec (.recv v p) s = wrong (2 ^ 32) ∧ exec (.recvs t p) s = wrong (2 ^ 32))

/-- SIGNAL and the requests to the synchronisation engine go in flight, posted 520 and 1536 cycles after issue, where nothing that
the release check covers is still under way, a handler's check among the task's operations too; the deque requests need no
such check; otherwise FENCE is taken (R244, R258, R260, R277). -/
def Obligations.SynchronisationRequests : Prop :=
  ∀ (s : State) (t a : Nat) (b : Src) (x : Acc),
    let i := s.w.cur.issue
    let earlier (f : Flight) : Prop := f.core = s.w.cur.core ∧ f.gang = s.w.gangOf s.w.cur.core ∧
      (if s.w.cur.sup then f.sup = false ∨ f.issue < i else f.sup = false ∧ (f.issue < i ∨ f.issue = i ∧ 32 ≤ f.pos))
    let due (f : Flight) : Nat :=
      if s.w.cur.sup ∧ f.sup = false then i + (f.promised - (s.w.gangAt s.w.cur.core).ttc) else f.promised
    let released : Prop := ∀ f ∈ s.w.flights, earlier f → f.released = true → due f ≤ i
    let id (k : Nat) : Nat := (s.w.src b).toNat % 2 ^ k
    (released → Flies (exec (.bararr t b) s) s i (i + 1536) (i + 1536) (.bar false t (id 12)) [] []) ∧
    (released → Flies (exec (.bardrp t b) s) s i (i + 1536) (i + 1536) (.bar true t (id 12)) [] []) ∧
    Flies (exec (.dqpush t a b) s) s i (i + 1536) (i + 1536) (.deq .push t (id 10) (s.w.rdS a)) [] [] ∧
    Flies (exec (.dqpop t b) s) s i (i + 1536) (i + 1536) (.deq .pop t (id 10) 0) [] [] ∧
    Flies (exec (.dqsteal t b) s) s i (i + 1536) (i + 1536) (.deq .steal t (id 10) 0) [] [] ∧
    (s.w.access ((s.w.rdS a).toNat / 256 * 256) 256 0 false = .ok x → released →
      Flies (exec (.launch t a) s) s i (i + 1536) (i + 1536) (.launch t) [x] []) ∧
    (s.w.access ((s.w.rdS a).toNat / 8 * 8) 8 2 true = .ok x → x.pod = false → released →
      Flies (exec (.signal a b) s) s i (i + 520) (i + 520) (.signal (s.w.src b)) [x] []) ∧
    (¬released → ∃ info, exec (.bararr t b) s = .next (s.withWorld (s.w.trap 8 info)) ∧ info / 2 ^ 33 % 8 = 3 ∧
      info / 2 ^ 36 % 2 = 1)

/-- The collective waits put the member's wait into the hold that follows the cycle: on a barrier's phase, a task, a signal
word, a scan gap or the acknowledgements of the pod; a gang with a halted member traps (R94, R253, R254, R259, R261, R278,
R284, R342). -/
def Obligations.CollectiveWaits : Prop :=
  ∀ (s : State) (a : Nat) (b : Src) (x : Acc),
    let k := s.w.cur.core
    let g := s.w.gangAt k
    let whole : Prop := ∀ j ∈ g.members, (s.w.core j).ctx.halted = false
    let waiting (w : Wait) : State := s.withWorld { s.w with
      gangs := fput s.w.gangs (s.w.gangOf k) { g with
        stat := match g.stat with
          | .held l since => .held (l ++ [(k, w)]) since
          | _ => .held [(k, w)] s.w.now } }
    (whole → exec (.barwt a b) s = .next (waiting (.bar ((s.w.src b).toNat % 2 ^ 12) ((s.w.rdS a).toNat % 2 ^ 16)))) ∧
    (whole → exec (.twait b) s = .next (waiting (.task ((s.w.src b).toNat % 2 ^ 32)))) ∧
    (whole → s.w.access ((s.w.rdS a).toNat / 8 * 8) 8 0 false = .ok x →
      exec (.sigwt a b) s = .next (waiting (.sig x.pa x.home (s.w.srcZ b).toNat))) ∧
    (whole → exec .scangap s = .next (waiting .scan)) ∧
    (whole → (s.w.promise .pod).1 ≤ s.w.cur.issue → exec (.fence .pod) s = .next (waiting (.pod s.w.cur.issue))) ∧
    (¬whole → exec (.twait b) s = .next (s.withWorld (s.w.trap 1 (loopInfo s.w.cur.pc 4))) ∧
      exec (.sigwt a b) s = .next (s.withWorld (s.w.trap 1 (loopInfo s.w.cur.pc 4))))

/-! ## The matrix array and the carousel -/

/-- MLEASE reports 1 and takes a free array lease a cycle later, 2 to its holder and 0 to others; MREL frees it; every matrix command
traps MLEASE with the first reason that holds: no lease, its 65th command, its time over, a multiply while one streams, a pending MCFG;
MCFG commits exactly 32 cycles after the last outstanding command of the array, or after its own issue where
that is later, or traps on a malformed shape (R298,
R299, R300, R301). -/
def Obligations.ArrayLeases : Prop :=
  ∀ (s : State) (t : Nat) (m tr q as z sat : Bool) (rm : RMode) (n a w acc : Nat) (b : Src) (c : Instr × Bool),
    let k := s.w.cur.core
    let die := s.w.die (k / 8)
    let one (v : Word) : Nat × RegW := (1, s.scalar t v)
    let contested : Prop := ∃ i < 4, ∃ p ∈ (s.w.core (k / 8 * 8 + i)).pend, p.issue = s.w.cur.issue ∧ p.w = .lease true
    let holds : Prop := die.lease.holder = some k ∧ die.lease.count < 64 ∧ s.w.cur.issue < die.lease.grant + 16384 ∧
      die.mcfgAt = none
    let i := s.w.cur.issue
    let granted : Prop := die.lease.holder = some k ∧ die.lease.count < 64 ∧ i < die.lease.grant + 16384
    let commands : List (Instr × Bool) := [(.mcfg, false), (.tload m tr q n a b, false), (.tstore m n a b, false), (.tzero n, false),
      (.tscl n a b, false), (.mma as z acc a w, true), (.tcvt rm sat n acc b, false)]
    let stops (reason wait : Nat) : Prop := exec c.1 s = .next (s.withWorld (s.w.trap 12 (reason + min wait 255 * 2 ^ 3 +
      (match die.lease.holder with | some j => j % 8 | none => 7) * 2 ^ 11 + die.lease.count % 128 * 2 ^ 14)))
    let shapes : Prop := ∀ j < 20, shapeOk j (fget die.tshape 0 j) = true
    (die.lease.holder = some k → exec (.mlease t) s = .next (s.due [one 2])) ∧
    (∀ j, die.lease.holder = some j → j ≠ k → exec (.mlease t) s = .next (s.due [one 0])) ∧
    (die.lease.holder = none → contested → exec (.mlease t) s = .next (s.due [one 0])) ∧
    (die.lease.holder = none → ¬contested → exec (.mlease t) s = .next (s.due [one 1, (1, .lease true)])) ∧
    (die.lease.holder = some k → exec .mrel s = .next (s.due [(1, .lease false)])) ∧
    (die.lease.holder ≠ some k → exec .mrel s = .next s) ∧
    (holds → shapes → ∃ (u : State) (f : Flight), exec .mcfg s = .next u ∧ u.mem = s.mem ∧ u.w.flights = s.w.flights ++ [f] ∧
      f.op = .mcfg die.tshape ∧ (u.w.die (k / 8)).mcfgAt = some f.posted ∧ s.w.cur.issue + 32 ≤ f.posted ∧
      (f.posted = s.w.cur.issue + 32 ∨ ∃ h ∈ s.w.flights, arrayOp h.op = true ∧ h.gang = s.w.gangOf k ∧ h.core / 8 = k / 8 ∧
        f.posted = h.posted + 32) ∧
      (u.w.die (k / 8)).lease.count = die.lease.count + 1 ∧ (∀ j, u.w.core j = s.w.core j) ∧
      ∀ h ∈ s.w.flights, arrayOp h.op = true → h.gang = s.w.gangOf k → h.core / 8 = k / 8 → h.posted + 32 ≤ f.posted) ∧
    (holds → ¬shapes → exec .mcfg s = .next (s.withWorld (s.w.trap 1 (2 ^ 36 + 5 * 2 ^ 37)))) ∧
    (c ∈ commands → (die.lease.holder ≠ some k → stops 0 0) ∧
      (die.lease.holder = some k → 64 ≤ die.lease.count → stops 1 0) ∧
      (die.lease.holder = some k → die.lease.count < 64 → die.lease.grant + 16384 ≤ i → stops 2 0) ∧
      (granted → c.2 = true → i < die.streamEnd → stops 3 (max die.streamEnd (die.mcfgAt.getD 0) - i)) ∧
      ∀ at_, granted → ¬(c.2 = true ∧ i < die.streamEnd) → die.mcfgAt = some at_ → i < at_ → stops 4 (at_ - i))

/-- The tile commands of a leaseholder go in flight, posted after 32 cycles and one for each line, or 64 and the rate: loads
from lines or a queue whose entries they pop, stores of the rows as they stand, clears, scale planes, multiplies and conversions, with
the values that R310 and R311 give; each is counted under the lease. A tile without a shape, shapes that do not agree, a pair of formats
that there is not and a spec outside its tile trap ILLEGAL with the first reason that holds, a queue's wrong entry POSTMARK. That an accumulator's input is what the same core last has pending on it
is R302's; that R310's NaNs and infinities go as `chunkSum` says is R310's table, read as log 33 says (R300, R301, R302, R306, R307,
R308, R309, R310, R311, R312). -/
def Obligations.TileCommands : Prop :=
  ∀ (s : State) (m tr as z sat : Bool) (rm : RMode) (n a w acc : Nat) (b : Src),
    let k := s.w.cur.core
    let d := s.w.die (k / 8)
    let i := s.w.cur.issue
    let holds : Prop := d.lease.holder = some k ∧ d.lease.count < 64 ∧ i < d.lease.grant + 16384 ∧ d.mcfgAt = none
    let spec := (s.w.src b).toNat
    let first := spec % 2 ^ 11
    let rows := spec / 2 ^ 11 % 2 ^ 11
    let line := (s.w.rdS a).toNat / 2 ^ 10 % 2 ^ 11
    let sh (code : Nat) : Nat := d.shape code
    let clean : Prop := s.w.softErrs = [] ∧ s.me.poison = [] ∧ s.me.courses = []
    let fliesWith (ins : Instr) (lat : Nat) (op : FOp) (more : State → Flight → Prop) : Prop :=
      ∃ (u : State) (f : Flight), more u f ∧ exec ins s = .next u ∧ u.mem = s.mem ∧
      u.w.flights = s.w.flights ++ [f] ∧ f.op = op ∧ f.issue = i ∧ f.posted = i + lat ∧ u.me.ctx = s.me.ctx ∧
      u.me.pend = s.me.pend ∧ (u.w.die (k / 8)).tiles = d.tiles ∧ (u.w.die (k / 8)).shapes = d.shapes ∧
      (u.w.die (k / 8)).lease.count = d.lease.count + 1
    let flies (ins : Instr) (lat : Nat) (op : FOp) : Prop := fliesWith ins lat op (fun _ _ => True)
    let bytesAt (l : Nat) : List Byte := s.mem.bytes .spd (k * 2 ^ 21 + l * 1024) 1024
    let width (code : Nat) : Nat := if shFmt (sh code) = 4 then 2 else if shFmt (sh code) = 5 then 4 else 1
    let zero (code : Nat) : Nat := if shFmt (sh code) = 1 then 0x77 else 0
    let wide := (shCols (sh n) * width n + 1023) / 1024
    let rowBytes (r : Nat) : List Byte := ((List.range (shCols (sh n))).map (fun c => leBytes (width n) ((d.tile n).at (zero n) r c))).flatten
    let padded (m : Nat) (l : List Byte) : List Byte := l.take m ++ List.replicate (m - l.length) 0
    let chunk (row col g : Nat) : FVal × Nat := chunkSum ((((List.range (min (shCols (sh a)) (32 * g + 32) - 32 * g)).map (· + 32 * g)).filter
      (fun x => (d.tile w).valid x)).map (fun x => (fmtValue (shFmt (sh a)) ((d.tile a).at (zero a) row x),
        fmtValue (shFmt (sh w)) ((d.tile w).at (zero w) x col))))
    let scaled (row col g : Nat) : FVal :=
      let sw := (d.tile w).sp g col
      let sa := if as then (d.tile a).sp 0 row else 127
      if sw = 255 ∨ sa = 255 then .nan false else (chunk row col g).1.times2 ((sw : Int) - 127 + ((sa : Int) - 127))
    let product (out : FMap Nat) : Prop := ∀ row < shRows (sh a), ∀ col < shCols (sh w), ∃ c : Nat → Nat,
      c 0 = (if z then 0 else fget (s.w.accInput (16 + acc)) 0 (row * 1024 + col)) ∧
      (∀ g, c (g + 1) = (accumulate (c g) (scaled row col g)).1) ∧
      fget out 0 (row * 1024 + col) = if (d.tile a).valid row then c ((shCols (sh a) + 31) / 32) else c 0
    let converted (out : FMap Nat) : Prop := ∀ row < shRows (sh n), ∀ col < shCols (sh n),
      let x := (d.tile (16 + acc)).at 0 row col
      let e := (s.w.src b).toNat % 256
      fget out 0 (row * 1024 + col) = if e = 255 then (fmtSpec (shFmt (sh n))).nan
        else ((fmtSpec (shFmt (sh n))).convert rm sat ((specF32.decode x).times2 ((e : Int) - 127))).1
    let illegal (reason : Nat) : Host.Outcome State Fault Refusal := .next (s.withWorld (s.w.trap 1 (2 ^ 36 + reason * 2 ^ 37)))
    let limit := if tr then shCols (sh n) else shRows (sh n)
    let fits : Prop := 1 ≤ rows ∧ first + rows ≤ limit ∧ (tr = true → shRows (sh n) * fmtBytes (shFmt (sh n)) ≤ 1024)
    let pm := (s.w.rdS a).toNat
    let queued : Prop := ∀ j < rows, ∃ e, (s.me.queue (pmQue pm))[j]? = some e ∧ e.sender = pmCore pm ∧
      e.seq = (pmSeq pm + j) % 65536
    let rate : Nat := if shFmt (sh w) = 1 then 1 else if shFmt (sh a) = 4 then 4 else 2
    let pair : Prop := (shFmt (sh w) = 1 ∧ shFmt (sh a) ∈ [2, 3, 4]) ∨ (shFmt (sh w) = shFmt (sh a) ∧ shFmt (sh a) ∈ [2, 3, 4])
    let agree : Prop := shRows (sh a) = shRows (sh (16 + acc)) ∧ shCols (sh a) = shRows (sh w) ∧
      shCols (sh w) = shCols (sh (16 + acc))
    (holds → clean → shFmt (sh n) ≠ 0 → fits →
      fliesWith (.tload m tr false n a b) (32 + rows + (if m then 1 else 0)) (.tload m tr false n first rows line)
        (fun _ f => fget f.got [] 0 = bytesAt line)) ∧
    (holds → shFmt (sh n) ≠ 0 → fits → rows ≤ 16 → queued →
      fliesWith (.tload m tr true n a b) (32 + rows) (.tload m tr true n first rows line) (fun u f =>
        f.src = (((s.me.queue (pmQue pm)).take rows).map (fun e => leBytes 1024 e.data.toNat)).flatten ∧
        ∀ j, u.me.queue j = if j = pmQue pm then (s.me.queue j).drop rows else s.me.queue j)) ∧
    (holds → clean → shFmt (sh n) ≠ 0 → 1 ≤ rows → first + rows ≤ shRows (sh n) →
      fliesWith (.tstore m n a b) (32 + wide * rows + (if m then 1 else 0)) (.tstore line) (fun _ f =>
        f.src = ((List.range rows).map (fun j => padded (wide * 1024) (rowBytes (first + j)))).flatten ++
          (if m then padded 1024 ((List.range rows).map (fun j => if (d.tile n).valid (first + j) then 1 else 0)) else []))) ∧
    (holds → flies (.tzero n) 32 (.tzero n)) ∧
    (holds → shFmt (sh n) = 0 → exec (.tload m tr z n a b) s = illegal 1 ∧ exec (.tstore m n a b) s = illegal 1 ∧
      exec (.tscl n a b) s = illegal 1) ∧
    (holds → shFmt (sh n) ≠ 0 → ¬fits ∨ (z = true ∧ 16 < rows) → exec (.tload m tr z n a b) s = illegal 4) ∧
    (holds → shFmt (sh n) ≠ 0 → ¬(1 ≤ rows ∧ first + rows ≤ shRows (sh n)) → exec (.tstore m n a b) s = illegal 4) ∧
    (holds → shFmt (sh n) ≠ 0 → ¬(1 ≤ spec / 32 % 64 ∧ spec % 32 + spec / 32 % 64 ≤ 32) → exec (.tscl n a b) s = illegal 4) ∧
    (holds → d.streamEnd ≤ i → shFmt (sh a) = 0 ∨ shFmt (sh w) = 0 ∨ shFmt (sh (16 + acc)) = 0 → exec (.mma as z acc a w) s = illegal 1) ∧
    (holds → d.streamEnd ≤ i → shFmt (sh a) ≠ 0 → shFmt (sh w) ≠ 0 → shFmt (sh (16 + acc)) ≠ 0 →
      (¬agree → exec (.mma as z acc a w) s = illegal 2) ∧ (agree → ¬pair → exec (.mma as z acc a w) s = illegal 3)) ∧
    (holds → shFmt (sh n) = 0 ∨ shFmt (sh (16 + acc)) = 0 → exec (.tcvt rm sat n acc b) s = illegal 1) ∧
    (holds → shFmt (sh n) ≠ 0 → shFmt (sh (16 + acc)) ≠ 0 →
      (¬(shRows (sh n) = shRows (sh (16 + acc)) ∧ shCols (sh n) = shCols (sh (16 + acc))) → exec (.tcvt rm sat n acc b) s = illegal 2) ∧
      (shRows (sh n) = shRows (sh (16 + acc)) → shCols (sh n) = shCols (sh (16 + acc)) → shFmt (sh n) = 1 →
        exec (.tcvt rm sat n acc b) s = illegal 3)) ∧
    (holds → shFmt (sh n) ≠ 0 → fits → rows ≤ 16 → ¬queued → ∃ info,
      exec (.tload m tr true n a b) s = .next (s.withWorld (s.w.trap 4 info)) ∧ info % 128 = pm % 128) ∧
    (holds → clean → shFmt (sh n) ≠ 0 → 1 ≤ spec / 32 % 64 → spec % 32 + spec / 32 % 64 ≤ 32 →
      fliesWith (.tscl n a b) (32 + spec / 32 % 64) (.tscl n (spec % 32) (spec / 32 % 64) line)
        (fun _ f => fget f.got [] 0 = bytesAt line)) ∧
    (holds → clean → i ≥ d.streamEnd → shFmt (sh a) ≠ 0 → shFmt (sh w) ≠ 0 → shFmt (sh (16 + acc)) ≠ 0 → agree → pair → shCols (sh w) ≤ 1024 →
      ∃ out, product out ∧ flies (.mma as z acc a w) (64 + rate * shCols (sh a)) (.mma (16 + acc) out)) ∧
    (holds → clean → shFmt (sh n) ≠ 0 → shFmt (sh n) ≠ 1 → shFmt (sh (16 + acc)) ≠ 0 →
      shRows (sh n) = shRows (sh (16 + acc)) → shCols (sh n) = shCols (sh (16 + acc)) →
      shCols (sh n) ≤ 1024 → ∃ out, converted out ∧ flies (.tcvt rm sat n acc b) (64 + shRows (sh n)) (.tcvt n out))

/-- Carousel commands with a free catch register are watched from issue until 4128 cycles after it, or 8224 in a versioned catch, and
posted at 4160 or 8256; a roster read takes 160; a full set of registers traps QUEUE (R318, R319, R320, R321, R322, R323, R324,
R325). -/
def Obligations.CarouselCommands : Prop :=
  ∀ (s : State) (ccw cp : Bool) (t a : Nat) (n : Src),
    let k := s.w.cur.core
    let i := s.w.cur.issue
    let line := (s.w.rdS a).toNat / 2 ^ 10 % 2 ^ 11
    let name := (s.w.srcZ n).toNat
    let room : Prop := s.w.carHeld k < (if isMx k then 16 else 8)
    let cmd (kind : CarKind) (c : Bool) (rt : Nat) : CarCmd :=
      { kind := kind, ccw := ccw, cp := c, rt := rt, line := line, name := name % 2 ^ 24, ver := name / 2 ^ 24 % 256,
        st := .armed }
    let clean : Prop := s.w.softErrs = [] ∧ s.me.poison = [] ∧ s.me.courses = []
    let open_ : Prop := noBoard s.me (s.w.imageOf k) line = []
    let takes (ins : Instr) (c : CarCmd) : Prop := ∃ (u : State) (f : Flight), exec ins s = .next u ∧ u.mem = s.mem ∧
      u.w.flights = s.w.flights ++ [f] ∧ f.op = .car c ∧ f.posted = i + 4160 ∧ u.me = s.me ∧
      fget f.got [] 0 = s.mem.bytes .spd (k * 2 ^ 21 + line * 1024) 1024
    (room → Flies (exec (.calight ccw cp t a n) s) s i (i + 4160) (i + 4160) (.car (cmd .alight cp t)) [] []) ∧
    (room → Flies (exec (.ccatch ccw t a n) s) s i (i + 4160) (i + 4160) (.car (cmd .catch_ false t)) [] []) ∧
    (room → Flies (exec (.ccatchv ccw t a n) s) s i (i + 8256) (i + 8256) (.car (cmd .catchv false t)) [] []) ∧
    (room → clean → open_ → takes (.cboard ccw a n) (cmd .board false 0)) ∧
    (room → clean → open_ → takes (.crepl ccw t a n) (cmd .repl false t)) ∧
    Flies (exec (.crost ccw t n) s) s i (i + 160) (i + 160) (.roster ccw t (name % 2 ^ 24)) [] [] ∧
    (¬room → exec (.ccatch ccw t a n) s = .next (s.withWorld (s.w.trap 11 (s.w.carHeld k + 2 ^ 31 + 2 ^ 32))))

/-! ## System forms -/

/-- SRR and SRW of a register that the level may name: the value of that register as it stands at issue, due after two cycles, and a
write that applies after two; at task level the others trap PRIV, and a counter of another tenant reads zero; every register's fields are
stated (R80, R119, R120, R121, R123, R124, R125, R126, R130). -/
def Obligations.SystemRegisters : Prop :=
  ∀ (s : State) (d k : Nat) (b : Src),
    let core := s.w.cur.core
    let task : Prop := s.w.cur.sup = false
    let readable : Prop := ¬(0x40 ≤ k ∧ k ≤ 0x44) ∧ ¬(0xA0 ≤ k ∧ k ≤ 0xAF)
    let foreign : Prop := 0xB0 ≤ k ∧
      fget (s.w.die (core / 8)).devsel 0 (k - 0xB0) / 2 ^ 16 % 2 ^ 16 ≠ (s.w.gangAt core).tenant
    let value : Nat := s.w.sysReg core s.w.cur.sup k
    let g := s.w.gangAt core
    let one (b : Bool) : Nat := if b then 1 else 0
    let code := if s.w.cur.sup then g.hcls else g.cls
    let w8 (c : Nat) : Nat := if c = 0 then 36864 else if c = 1 then 27648 else if c = 2 then 18432 else 12288
    let ratio := w8 g.domCls * 4096 / w8 code
    let slot (j : Nat) : Nat := s.me.groups.getD j 0
    (s.w.cur.sup = true ∨ (readable ∧ ¬foreign) →
      exec (.srr d k) s = .next (s.due [(2, s.scalar d (BitVec.ofNat 64 value))])) ∧
    (task → readable → foreign → exec (.srr d k) s = .next (s.due [(2, s.scalar d 0)])) ∧
    (task → ¬readable → exec (.srr d k) s = .next (s.withWorld (s.w.trap 2 k))) ∧
    (s.w.cur.sup = true ∨ (k ≠ 0x41 ∧ k < 0xA0) →
      exec (.srw k b) s = .next (s.due [(2, .srw k (s.w.src b))])) ∧
    (task → (k = 0x41 ∨ 0xA0 ≤ k) → exec (.srw k b) s = .next (s.withWorld (s.w.trap 2 (k + 2 ^ 12)))) ∧
    (k = 0 → value = core) ∧ (k = 1 → value = s.w.gangOf core % 4096) ∧
    (k = 2 → value = g.task % 2 ^ 32 + g.tenant % 2 ^ 16 * 2 ^ 32) ∧
    (k = 3 → s.me.groups.length ≤ 4 → (∀ x ∈ s.me.groups, x < 256) → value = slot 0 + slot 1 * 2 ^ 8 + slot 2 * 2 ^ 16 +
      slot 3 * 2 ^ 24 + (2 ^ s.me.groups.length - 1) * 2 ^ 32) ∧
    (k = 4 → value = code + g.domCls * 2 ^ 4 + (if 4096 ≤ ratio then 4096 else ratio) * 2 ^ 16) ∧
    (k = 5 → value = g.khz / 1000 + g.why * 2 ^ 13) ∧ (k = 6 → value = g.enmeas) ∧
    (k = 0x20 → value = one s.me.ctx.halfAct + s.me.ctx.halfA * 2 + s.me.ctx.halfB * 2 ^ 4) ∧
    (k = 0x21 → value = one s.me.ifstat.valid + one s.me.ifstat.busy * 2 + one s.me.ifstat.half * 4 + one s.me.ifstat.fenced * 8 +
      s.me.ifstat.code * 2 ^ 4 + s.me.ifstat.addr * 2 ^ 16) ∧
    (k = 0x22 → value = s.me.ifsum) ∧ (k = 0x30 → value = s.me.xm) ∧
    (k = 0x31 → (∀ c < 32, value.testBit c = true ↔ (s.me.health c).bricks ≠ []) ∧ value / 2 ^ 32 = one g.half) ∧
    (k = 0x42 → value = s.me.cause + one s.me.ends * 2 ^ 5 + one s.me.event * 2 ^ 6 + s.me.trapcore * 2 ^ 7) ∧
    (k = 0x44 → value = s.me.rstpc + one s.me.rstvalid * 2 ^ 16) ∧
    (k = 0x50 → value = s.me.ctx.crDepth + s.me.ctx.ucore * 2 ^ 3 + s.me.ctx.ukind * 2 ^ 10) ∧
    (0x51 ≤ k → k ≤ 0x54 → value = fget s.me.ctx.crvec 0 (k - 0x51)) ∧
    (0x60 ≤ k → k ≤ 0x73 → ¬(core < 32 ∧ core % 8 < 4) → value = 0) ∧
    (0xA0 ≤ k → k ≤ 0xAF → value = fget (s.w.die (core / 8)).devsel 0 (k - 0xA0)) ∧
    (0xB0 ≤ k → k ≤ 0xBF → value = fget (s.w.die (core / 8)).devc 0 (k - 0xB0)) ∧
    (k = 0x10 → value = s.me.ctx.fpflags) ∧ (k = 0x11 → value = s.me.ctx.fpctrl) ∧
    (k = 0x40 → value = s.me.trapvec) ∧ (k = 0x41 → value = s.me.trappc) ∧ (k = 0x43 → value = s.me.trapinfo) ∧
    (0x60 ≤ k → k ≤ 0x73 → core < 32 → core % 8 < 4 → value = fget (s.w.die (core / 8)).tshape 0 (k - 0x60)) ∧
    (0x80 ≤ k → k ≤ 0x87 → value = fget s.me.ctx.evcsel 0 (k - 0x80)) ∧
    (0x88 ≤ k → k ≤ 0x8F → value = fget s.me.ctx.evc 0 (k - 0x88))

/-- The time reads, the scale-register load, the fences that hold, and the event control (R127, R129, R168, R231, R284,
R341). -/
def Obligations.TimeFencesEvents : Prop :=
  ∀ (s : State) (d n a : Nat) (b : Src) (sc : Scope) (op : EvOp) (die : Bool),
    let i := s.w.cur.issue
    let at_ := (((s.w.rdS a).toNat + (s.w.src b).toNat) % 2 ^ 21) / 16 * 16
    let others : Prop := ∀ k ∈ (s.w.gangAt s.w.cur.core).members, k ≠ s.w.cur.core →
      s.issuing k 15 = some .crclose ∨ ∃ x, s.issuing k 15 = some (.cropen x)
    exec (.rdtt d) s = .next (s.due [(1, s.scalar d (BitVec.ofNat 64 (s.w.gangAt s.w.cur.core).ttc))]) ∧
    exec (.rdwt d) s = .next (s.due [(1, s.scalar d (BitVec.ofNat 64 (s.w.now / 1000000 + s.w.wtcRef)))]) ∧
    (s.w.softErrs = [] → s.me.poison = [] → s.me.courses = [] → s.w.early (at_ / 256) 1 = none →
      ∃ v, IsNumber s.mem .spd (s.w.cur.core * 2 ^ 21 + at_) 16 v ∧ exec (.scld n a b) s =
        .next ((s.withWorld (s.w.count s.w.cur.core 0x20 1)).due [(4, .sc n (BitVec.ofNat 128 v))])) ∧
    (sc ≠ .pod → (s.w.promise sc).1 ≤ i → exec (.fence sc) s = .next s) ∧
    (sc ≠ .pod → i < (s.w.promise sc).1 → ∃ info, exec (.fence sc) s = .next (s.withWorld (s.w.trap 8 info))) ∧
    (s.me.ifstat.busy = false → exec .ifence s = .next (s.due [(1, .ifence)])) ∧
    (s.me.ifstat.busy = true → ∃ info, exec .ifence s = .next (s.withWorld (s.w.trap 8 info)) ∧ info / 2 ^ 32 % 2 = 1) ∧
    (others → s.me.ctx.crDepth < 4 → exec (.cropen b) s = .next (s.due [(1, .cropen ((s.w.src b).toNat % 2 ^ 16))])) ∧
    (others → 0 < s.me.ctx.crDepth → exec .crclose s = .next (s.due [(1, .crclose)])) ∧
    (others → 4 ≤ s.me.ctx.crDepth → exec (.cropen b) s = .next (s.withWorld (s.w.trap 1 (2 ^ 41 + 2 * 2 ^ 42)))) ∧
    (others → s.me.ctx.crDepth = 0 → exec .crclose s = .next (s.withWorld (s.w.trap 1 (2 ^ 41 + 3 * 2 ^ 42)))) ∧
    (die = false ∨ s.w.cur.sup = true → exec (.evctl op die b) s =
      .next (s.due [(1, .evctl op die ((s.w.src b).toNat % 2 ^ 16))])) ∧
    (die = true → s.w.cur.sup = false → exec (.evctl op die b) s = .next (s.withWorld (s.w.trap 2 (2 ^ 12 + 2 ^ 13))))


/-! ## Exceptions: entry, return, restart -/

/-- Taking a trap (R78, R300, R331, R333, R334, R335): with a handler the trap registers are set, the core's level is entered at
`TRAPVEC` after a restart gap of eight periods of the clock that it then has, TTC stands, every member's energy window is
empty, and of no core does anything else change but event counters; without one, or inside one, the task ends with kind 2 and
the trap in its record; a gang that has ended takes none. -/
def Obligations.TrapEntry : Prop :=
  ∀ (s : State) (k cause info pc : Nat),
    let gid := s.w.gangOf k
    let g := s.w.gang gid
    let c := s.w.core k
    let t := s.w.takeTrap k cause info pc
    let inside : Prop := ∃ j, g.stat = .handler j
    let counted (a b : Core) : Prop := a = { b with win := a.win, ctx := { b.ctx with evc := a.ctx.evc, evcsel := a.ctx.evcsel } }
    let ends : Prop := cause = 10 ∨ cause = 16 ∨ cause = 18 ∨ cause = 19 ∨
      (cause = 1 ∧ info / 2 ^ 17 % 2 = 1 ∧ info / 2 ^ 18 % 8 = 5)
    (g.stat ≠ .ended → g.live = true → g.hasHandler = true → ¬inside →
      (t.gang gid).stat = .handler k ∧ (t.gang gid).hcyc = 0 ∧ (t.gang gid).ttc = g.ttc ∧
      (t.gang gid).nextAt = max g.nextAt s.w.now + 8 * (t.gang gid).period ∧
      (t.core k).cause = cause ∧ (t.core k).trapinfo = info % 2 ^ 64 ∧ (t.core k).trappc = pc % 2 ^ 16 ∧
      (t.core k).trapcore = k ∧ ((t.core k).ends = true ↔ ends) ∧
      ((t.core k).event = true ↔ cause ∈ [3, 13, 14, 16, 19]) ∧
      (t.core k).hseq.pc = c.trapvec ∧ (t.core k).hpend = [] ∧ (t.core k).pend = c.pend ∧
      (t.core k).ctx = { c.ctx with seq := { c.ctx.seq with owedT := 0, owedJ := 0, beat := 99, bad := none },
                                    evc := (t.core k).ctx.evc, evcsel := (t.core k).ctx.evcsel } ∧
      (t.core k).win = [] ∧ (∀ j ∈ g.members, (t.core j).win = []) ∧ (∀ j, j ≠ k → counted (t.core j) (s.w.core j)) ∧
      (∀ j, j ≠ k → j ∉ g.members → t.core j = s.w.core j) ∧ t.flights = s.w.flights ∧ t.hub.tasks = s.w.hub.tasks) ∧
    ((g.stat ≠ .ended ∧ g.live = true ∧ g.hasHandler = false) ∨ inside →
      (t.gang gid).stat = .ended ∧ (∀ j, j ≠ k → t.core j = s.w.core j) ∧
      t.hub.tasks = s.w.hub.tasks.map (fun x => if isTaskOf g x then
        { x with stage := .ending, kind := 2, code := cause, info := info, ipc := pc, icore := k, ttcEnd := g.ttc } else x)) ∧
    (g.stat ≠ .ended → cause = 12 → info % 8 = 1 ∨ info % 8 = 2 → (t.die (k / 8)).lease = ArrayLease.free) ∧
    (g.stat = .ended → t = s.w) ∧ (cause ≠ 12 → ∀ d, t.die d = s.w.die d)

/-- The steps that only take a trap: a TRAP's at issue + 1, a misdirected transfer in the place of its target, an array lease
kept for 16,384 cycles, and a gang without a scan gap for 2^22 cycles (R67, R300, R337, R342). -/
def Obligations.TrapSteps : Prop :=
  ∀ (s : State) (k gid info pc : Nat) (e : EventTrap),
    let g := s.w.gang gid
    let c := s.w.core k
    let lease := (s.w.die (k / 8)).lease
    let here := s.w.core s.w.cur.core
    (c.gang = some gid → g.events = [e] → e.cause = 15 → e.core = k → e.due ≤ g.ttc → e.pc = some pc →
      exec (.trapinst k) s =
        .next (s.withWorld ((s.w.modGang gid (fun x => { x with events := [] })).takeTrap k 15 e.info pc))) ∧
    (¬(∃ x ∈ (s.w.gangAt k).events, x.cause = 15 ∧ x.core = k ∧ x.due ≤ (s.w.gangAt k).ttc) → exec (.trapinst k) s = .next s) ∧
    ((if s.w.cur.sup then here.hseq else here.ctx.seq).bad = some (info, pc) → s.ready s.w.cur.core s.w.cur.sup = true →
      exec .misdirectedTransfer s = .next (s.withWorld (s.w.takeTrap s.w.cur.core 1 info pc))) ∧
    (c.gang = some gid → lease.holder = some k → lease.grant + 16384 ≤ g.ttc → g.stat = .running →
      ∃ i, exec (.leaseDurationExpiry (k / 8)) s = .next (s.withWorld (s.w.takeTrap k 12 i c.ctx.seq.pc)) ∧ i % 8 = 2) ∧
    (lease.holder = none → exec (.leaseDurationExpiry (k / 8)) s = .next s) ∧
    (g.stat = .running → g.scanBase + 2 ^ 22 < g.ttc → g.members = [k] → s.ready k false = true →
      exec (.scanLimitExpiry gid) s =
        .next (s.withWorld (s.w.takeTrap k 1 (c.ctx.seq.pc % 2 ^ 16 + 2 ^ 17 + 5 * 2 ^ 18) c.ctx.seq.pc))) ∧
    (g.ttc ≤ g.scanBase + 2 ^ 22 → exec (.scanLimitExpiry gid) s = .next s)

/-- RFT (R336): TTC goes on after a restart gap, the trapping core issues at `TRAPPC`, no register of any core changes but its
event counters; a cause that ends the task ends it. RSTRT (R230, R338, R339): every member takes its restart state, what was
issued at or after it is discarded, the handler's own operations among it, a half whose fill is discarded is INVALID, TTC is the
restart point's; a trap that is pending of an operation that is not discarded stays so, and is due when TTC goes on (R381; which ones
those are is read from the rules as log 78 says). What an earlier handler's last bundle left in the cycle that it went back to counts as issued before the bundles of
that cycle (log 19). -/
def Obligations.HandlerReturns : Prop :=
  ∀ (s : State) (r : Restart),
    let k := s.w.cur.core
    let gid := s.w.gangOf k
    let g := s.w.gang gid
    let c := s.me
    let ended (ins : Instr) : Prop := ∃ t : State, exec ins s = .next t ∧ t.mem = s.mem ∧ (t.w.gang gid).stat = .ended ∧
      (∀ j, t.w.core j = s.w.core j) ∧
      t.w.hub.tasks = s.w.hub.tasks.map (fun x => if isTaskOf g x then
        { x with stage := .ending, kind := 2, code := c.cause, info := c.trapinfo, ipc := c.trappc, icore := k,
                 ttcEnd := g.ttc } else x)
    let counted (x : CoreCtx) (y : Core) : CoreCtx := { x with evc := y.ctx.evc, evcsel := y.ctx.evcsel }
    let before (f : Flight) : Prop := f.issue < r.ttc ∨ (f.issue = r.ttc ∧ 32 ≤ f.pos)
    let fillGone (j : Nat) (half : Bool) : Bool := s.w.flights.any (fun f => f.gang == gid &&
      (f.sup || !(decide (f.issue < r.ttc) || (f.issue == r.ttc && decide (32 ≤ f.pos)))) && f.core == j && (match f.op with | .ifill h _ => h == half | _ => false))
    (c.ends = true → ended .rft) ∧
    (c.ends = false → ∃ (t : State) (q : Seq), exec .rft s = .next t ∧ t.mem = s.mem ∧ (t.w.gang gid).stat = .running ∧
      (t.w.gang gid).ttc = g.ttc ∧ (t.w.gang gid).nextAt = max g.nextAt s.w.now + 8 * (t.w.gang gid).period ∧
      q.pc = c.trappc ∧ q.owedT = 0 ∧ q.owedJ = 0 ∧
      q.bad = (badTarget c false c.trappc).map (fun i => (i, c.trappc)) ∧
      (t.w.core k).ctx = counted { c.ctx with seq := q } (t.w.core k) ∧ (t.w.core k).hpend = [] ∧
      (∀ j ∈ g.members, (t.w.core j).win = []) ∧
      (∀ j, j ≠ k → (t.w.core j).ctx = counted (s.w.core j).ctx (t.w.core j) ∧ (t.w.core j).pend = (s.w.core j).pend) ∧
      t.w.hub.tasks = s.w.hub.tasks) ∧
    (c.rstvalid = true → c.restart = some r → ∃ t : State, exec .rstrt s = .next t ∧ t.mem = s.mem ∧
      (t.w.gang gid).stat = .running ∧ (t.w.gang gid).ttc = r.ttc ∧ (t.w.gang gid).scanBase = r.scanBase ∧
      (∀ e, e ∈ (t.w.gang gid).events ↔ ∃ y ∈ g.events, e = { y with due := min y.due r.ttc } ∧
        ¬(y.cause = 15 ∧ r.ttc ≤ y.issue) ∧ ∀ f ∈ s.w.flights, f.gang = gid → f.sup = false → f.core = y.core →
          f.issue = y.issue → f.pos = y.pos → before f) ∧ (t.w.gang gid).nextAt = max g.nextAt s.w.now + 8 * (t.w.gang gid).period ∧
      (∀ j ∈ g.members, ∀ x, (s.w.core j).restart = some x → (t.w.core j).pend = [] ∧ (t.w.core j).amos = [] ∧
        (t.w.core j).win = [] ∧ (t.w.core j).ctx = counted { x.ctx with
          seq := { pc := x.pc, owedT := 0, owedJ := 0, beat := 99, last := x.pc, bad := none },
          halfA := if fillGone j false then 5 else x.ctx.halfA,
          halfB := if fillGone j true then 5 else x.ctx.halfB } (t.w.core j)) ∧
      (∀ f ∈ t.w.flights, f.gang = gid → f.sup = false ∧ before f) ∧ t.w.hub.tasks = s.w.hub.tasks) ∧
    (c.rstvalid = false → ended .rstrt)

/-! ## The steps of a core without an encoding -/

/-- An empty bundle issues with its declared weight and falls through; a cycle without issue consumes one beat or bubble and
enters the window with weight 0; falling through out of an area is a checked indirect transfer (R59, R62, R67, R79, R84). -/
def Obligations.CyclesWithoutSlots : Prop :=
  ∀ (s : State),
    let k := s.w.cur.core
    let sup := s.w.cur.sup
    let c := s.me
    let pc := s.w.cur.pc
    let b := s.bundleAt k sup pc
    let q := if sup then c.hseq else c.ctx.seq
    let windowed (dw : Nat) (q : Seq) (c' : Core) : Prop := c'.win = (dw :: c.win).take 7 ∧ c'.pend = c.pend ∧
      (sup = true → c'.hseq = q ∧ c'.ctx = c.ctx) ∧ (sup = false → c'.hseq = c.hseq ∧ c'.ctx = { c.ctx with seq := q })
    let runs (ins : Instr) (dw : Nat) (q : Seq) : Prop := ∃ t : State, exec ins s = .next t ∧ t.mem = s.mem ∧
      windowed dw q (t.w.core k) ∧ (∀ j, j ≠ k → t.w.core j = s.w.core j) ∧ t.w.gangs = s.w.gangs ∧ t.w.hub = { s.w.hub with errs := t.w.hub.errs }
    let moving : Prop := sup = true ∨ c.ctx.halted = false
    (b.slots = [] → runs .emptyBundle b.hdr.dw (fallSeq s.mem c k sup pc (pc + Bundle.len b))) ∧
    (moving → 0 < q.owedT → runs .zeroWeightCycle 0 { q with owedT := q.owedT - 1 }) ∧
    (moving → q.owedT = 0 → 0 < q.owedJ → runs .zeroWeightCycle 0 { q with owedJ := q.owedJ - 1 }) ∧
    (moving → q.owedT = 0 → q.owedJ = 0 → runs .zeroWeightCycle 0 { q with beat := q.beat + 1 }) ∧
    (¬moving → runs .zeroWeightCycle 0 q) ∧
    (sup = false → s.w.cur.nxt < 65536 → areaOf s.w.cur.nxt ≠ areaOf pc → exec .areaFallThrough s = .next (s.goesTo
      (match badTarget c false s.w.cur.nxt with
       | none => { pc := s.w.cur.nxt, owedT := 0, owedJ := max (headerAt s.mem k false s.w.cur.nxt).jb 2, beat := 0,
                   last := pc, bad := none }
       | some i => { pc := s.w.cur.nxt, owedT := 0, owedJ := 2, beat := 0, last := pc, bad := some (i, pc) }))) ∧
    (sup = false → 65536 ≤ s.w.cur.nxt → exec .areaFallThrough s = .next (s.goesTo
      { pc := 0, owedT := 0, owedJ := 2, beat := 0, last := pc, bad := some (0, pc) }))

/-- What has fallen due on a core applies: SRW first, then EVCTL, then the rest. A register takes its value, or the masked bits of
it; `s0` and `p0` take none; flags are ORed in under `FEN` as it then stands; a system register takes the value with its reserved bits
clear; EVCTL starts, stops and clears the counters of its mask; IFENCE arms a ready idle half; CROPEN pushes its target and the loop
stack, CROPEN and CRCLOSE move the depth; an array lease is taken or given up. What nothing due writes stays, of the core, its die and
everything else (R64, R121, R125, R126, R128, R129, R160, R231, R297, R299, R335, R341). -/
def Obligations.DueWrites : Prop :=
  ∀ (s : State) (k : Nat),
    let c := s.w.core k
    let clock := s.w.clockOf k
    let all := if s.w.inHandler k then c.hpend else c.pend
    let due := all.filter (fun p => p.due ≤ clock)
    let sole (p : Pend) (same : RegW → Prop) : Prop := p ∈ due ∧ ∀ q ∈ due, same q.w → q = p
    let once (p : Pend) (same : RegW → Prop) : Prop := ∃ a b, due = a ++ p :: b ∧ ∀ q ∈ a ++ b, ¬same q.w
    let d := s.w.die (k / 8)
    let flagged (i : Nat) : Bool := due.any (fun p => match p.w with | .flags f => f.testBit i | _ => false)
    let noEv (die : Bool) : Prop := ∀ p ∈ due, ∀ op m, p.w ≠ .evctl op die m
    let region (w : RegW) : Prop := w = .crclose ∨ ∃ t, w = .cropen t
    let selector (op : EvOp) (en v : Nat) : Nat := match op with
      | .start => v ||| 2 ^ en
      | .stop => v - v / 2 ^ en % 2 * 2 ^ en
      | .clear => v - v / 2 ^ (en + 1) % 2 * 2 ^ (en + 1)
      | .restart => (v - v / 2 ^ (en + 1) % 2 * 2 ^ (en + 1)) ||| 2 ^ en
    let zeroes (op : EvOp) : Prop := op = .clear ∨ op = .restart
    ∃ u : State, exec (.exposedWrite k) s = .next u ∧ u.mem = s.mem ∧
      (if s.w.inHandler k then (u.w.core k).hpend else (u.w.core k).pend) = all.filter (fun p => ¬p.due ≤ clock) ∧
      (∀ j, j ≠ k → u.w.core j = s.w.core j) ∧
      (∀ p n v, n ≠ 0 → p.w = .s n v → sole p (fun w => ∃ x, w = .s n x) → sreg (u.w.core k) false n = v) ∧
      (∀ p n v, n ≠ 0 → p.w = .sup n v → sole p (fun w => ∃ x, w = .sup n x) → sreg (u.w.core k) true n = v) ∧
      (∀ p n x m, p.w = .v n x m → sole p (fun w => ∃ a b, w = .v n a b) → ∀ i,
        (fget (u.w.core k).ctx.vregs 0 n).getLsbD i =
          if m.getLsbD i then x.getLsbD i else (fget c.ctx.vregs 0 n).getLsbD i) ∧
      (∀ p n x m, n ≠ 0 → p.w = .p n x m → sole p (fun w => ∃ a b, w = .p n a b) → ∀ i,
        (preg (u.w.core k) n).getLsbD i = if m.getLsbD i then x.getLsbD i else (preg c n).getLsbD i) ∧
      (∀ p n x, p.w = .sc n x → sole p (fun w => ∃ y, w = .sc n y) → fget (u.w.core k).ctx.scales 0 n = x) ∧
      (∀ n, (∀ p ∈ due, ∀ v, p.w ≠ .s n v) → sreg (u.w.core k) false n = sreg c false n) ∧
      (∀ n, (∀ p ∈ due, ∀ x m, p.w ≠ .v n x m) → fget (u.w.core k).ctx.vregs 0 n = fget c.ctx.vregs 0 n) ∧
      (∀ n, (∀ p ∈ due, ∀ x m, p.w ≠ .p n x m) → preg (u.w.core k) n = preg c n) ∧
      sreg (u.w.core k) false 0 = 0 ∧ preg (u.w.core k) 0 = BitVec.allOnes 1024 ∧
      (∀ n, (∀ p ∈ due, ∀ x, p.w ≠ .sc n x) → fget (u.w.core k).ctx.scales 0 n = fget c.ctx.scales 0 n) ∧
      (∀ n, (∀ p ∈ due, ∀ v, p.w ≠ .sup n v) → sreg (u.w.core k) true n = sreg c true n) ∧
      (∀ i, due.any (fun p => match p.w with | .srw r _ => r == 0x10 | _ => false) = false → (u.w.core k).ctx.fpflags.testBit i =
        (c.ctx.fpflags.testBit i || ((u.w.core k).ctx.fpctrl.testBit i && flagged i))) ∧
      (∀ p r v, p.w = .srw r v → sole p (fun w => ∃ y, w = .srw r y) →
        (r = 0x10 → ∀ i, (u.w.core k).ctx.fpflags.testBit i =
          ((v.toNat % 32).testBit i || ((u.w.core k).ctx.fpctrl.testBit i && flagged i))) ∧
        (r = 0x11 → (u.w.core k).ctx.fpctrl = v.toNat % 32) ∧ (r = 0x41 → (u.w.core k).trappc = v.toNat % 2 ^ 16) ∧
        (0x60 ≤ r → r ≤ 0x73 → k < 32 → k % 8 < 4 → fget (u.w.die (k / 8)).tshape 0 (r - 0x60) = v.toNat % 2 ^ 26) ∧
        (0x80 ≤ r → r ≤ 0x87 → noEv false → fget (u.w.core k).ctx.evcsel 0 (r - 0x80) = coreSel v.toNat) ∧
        (0x88 ≤ r → r ≤ 0x8F → noEv false → fget (u.w.core k).ctx.evc 0 (r - 0x88) = v.toNat % 2 ^ 48) ∧
        (0xA0 ≤ r → r ≤ 0xAF → noEv true → fget (u.w.die (k / 8)).devsel 0 (r - 0xA0) = dieSel v.toNat) ∧
        (0xB0 ≤ r → r ≤ 0xBF → noEv true → fget (u.w.die (k / 8)).devc 0 (r - 0xB0) = v.toNat % 2 ^ 48)) ∧
      (∀ r, (∀ p ∈ due, ∀ v, p.w ≠ .srw r v) →
        (r = 0x11 → (u.w.core k).ctx.fpctrl = c.ctx.fpctrl) ∧ (r = 0x41 → (u.w.core k).trappc = c.trappc) ∧
        (0x60 ≤ r → r ≤ 0x73 → fget (u.w.die (k / 8)).tshape 0 (r - 0x60) = fget d.tshape 0 (r - 0x60)) ∧
        (0x80 ≤ r → r ≤ 0x87 → noEv false → fget (u.w.core k).ctx.evcsel 0 (r - 0x80) = fget c.ctx.evcsel 0 (r - 0x80)) ∧
        (0x88 ≤ r → r ≤ 0x8F → noEv false → fget (u.w.core k).ctx.evc 0 (r - 0x88) = fget c.ctx.evc 0 (r - 0x88)) ∧
        (0xA0 ≤ r → r ≤ 0xAF → noEv true → fget (u.w.die (k / 8)).devsel 0 (r - 0xA0) = fget d.devsel 0 (r - 0xA0)) ∧
        (0xB0 ≤ r → r ≤ 0xBF → noEv true → fget (u.w.die (k / 8)).devc 0 (r - 0xB0) = fget d.devc 0 (r - 0xB0))) ∧
      (∀ p op mask, p.w = .evctl op false mask → sole p (fun w => ∃ a b, w = .evctl a false b) → ∀ j < 8,
        (∀ q ∈ due, ∀ v, q.w ≠ .srw (0x80 + j) v ∧ q.w ≠ .srw (0x88 + j) v) →
        fget (u.w.core k).ctx.evcsel 0 j = (if mask.testBit j then selector op 6 (fget c.ctx.evcsel 0 j) else fget c.ctx.evcsel 0 j) ∧
        fget (u.w.core k).ctx.evc 0 j = (if mask.testBit j ∧ zeroes op then 0 else fget c.ctx.evc 0 j)) ∧
      (∀ p op mask, p.w = .evctl op true mask → sole p (fun w => ∃ a b, w = .evctl a true b) → ∀ j < 16,
        (∀ q ∈ due, ∀ v, q.w ≠ .srw (0xA0 + j) v ∧ q.w ≠ .srw (0xB0 + j) v) →
        fget (u.w.die (k / 8)).devsel 0 j = (if mask.testBit j then selector op 5 (fget d.devsel 0 j) else fget d.devsel 0 j) ∧
        fget (u.w.die (k / 8)).devc 0 j = (if mask.testBit j ∧ zeroes op then 0 else fget d.devc 0 j)) ∧
      ((∃ p ∈ due, p.w = .ifence) → (u.w.core k).ifstat = { c.ifstat with fenced := true } ∧
        (u.w.core k).ctx.halfA = (if c.ctx.halfAct = true ∧ c.ctx.halfA = 3 then 4 else c.ctx.halfA) ∧
        (u.w.core k).ctx.halfB = (if c.ctx.halfAct = false ∧ c.ctx.halfB = 3 then 4 else c.ctx.halfB)) ∧
      ((∀ p ∈ due, p.w ≠ .ifence) → (u.w.core k).ifstat = c.ifstat ∧ (u.w.core k).ctx.halfA = c.ctx.halfA ∧
        (u.w.core k).ctx.halfB = c.ctx.halfB) ∧
      (∀ p t, p.w = .cropen t → once p region → (u.w.core k).ctx.crDepth = c.ctx.crDepth + 1 ∧
        fget (u.w.core k).ctx.crvec 0 c.ctx.crDepth = t ∧ (u.w.core k).ctx.crLoops = c.ctx.crLoops.take c.ctx.crDepth ++ [c.ctx.loops]) ∧
      (∀ p, p.w = .crclose → once p region → (u.w.core k).ctx.crDepth = c.ctx.crDepth - 1 ∧
        (u.w.core k).ctx.crvec = c.ctx.crvec ∧ (u.w.core k).ctx.crLoops = c.ctx.crLoops) ∧
      ((∀ p ∈ due, ¬region p.w) → (u.w.core k).ctx.crDepth = c.ctx.crDepth ∧ (u.w.core k).ctx.crvec = c.ctx.crvec ∧
        (u.w.core k).ctx.crLoops = c.ctx.crLoops) ∧
      (∀ p take, p.w = .lease take → sole p (fun w => ∃ b, w = .lease b) → (u.w.die (k / 8)).lease =
        if take then { holder := some k, grant := p.issue, count := 0 } else ArrayLease.free) ∧
      ((∀ p ∈ due, ∀ b, p.w ≠ .lease b) → (u.w.die (k / 8)).lease = d.lease) ∧
      (u.w.core k).ctx.latches = c.ctx.latches ∧ (u.w.core k).ctx.loops = c.ctx.loops ∧ (u.w.core k).ctx.seq = c.ctx.seq ∧
      (u.w.core k).ctx.halted = c.ctx.halted ∧ (u.w.core k).ctx.halfAct = c.ctx.halfAct ∧
      (u.w.core k).ctx.ucore = c.ctx.ucore ∧ (u.w.core k).ctx.ukind = c.ctx.ukind ∧
      (if s.w.inHandler k then (u.w.core k).pend = c.pend else (u.w.core k).hpend = c.hpend) ∧
      { u.w.core k with ctx := c.ctx, pend := c.pend, hpend := c.hpend, trappc := c.trappc, ifstat := c.ifstat } = c ∧
      { u.w.die (k / 8) with tshape := d.tshape, devsel := d.devsel, devc := d.devc, lease := d.lease } = d ∧
      (∀ j, j ≠ k / 8 → u.w.die j = s.w.die j) ∧ u.w.gangs = s.w.gangs ∧ u.w.flights = s.w.flights ∧ u.w.hub = s.w.hub

/-! ## Homes -/

/-- A home performs the parts of global accesses in the coherence order: a store's bytes, a signal's 64-bit addition, a load's
bytes, an atomic's new value, with its old value kept for its result and its flags added to the tenant's `AMOFLAGS`; a home that is down answers with poison, a revoked write performs nothing; a request refused is sent again when its hint
has expired, over the links from its die again, and meanwhile its refusal alone comes back over them; homes go down and come back, and tasks that lease there end with HOMEDOWN; a lease is revoked only when its task
has ended and written back. A link's wheel turns slot by slot, each direction its own, and what has crossed to its home performs
there; a port's wheel lets the oldest flit of its slot's tenant leave, response or request, and where there is none the oldest of all; that
a response is as old as its wait at the port is the model's choice of log 52 (R201, R202, R203, R204, R206, R207, R208, R209,
R235, R236, R244, R367). -/
def Obligations.HomeActions : Prop :=
  ∀ (s : State) (f : Flight) (a : Acc) (v : Word) (old die lid : Nat) (out : Bool) (x : Task) (va : Nat) (op : AmoOp)
    (rt : Nat) (b c : Word) (ten k : Nat) (answer : Answer) (began : Nat),
    let first : Prop := ∀ g ∈ s.w.flights, precedes g f = false
    let home := s.w.die a.home
    let open_ : Prop := s.w.flight? f.id = some f ∧ f.parts = [] ∧ f.accs = [a] ∧ 0 < a.n ∧ a.n ≤ 16 ∧ a.pod = false ∧
      f.held = false ∧ first
    let serves : Prop := home.up = true ∧ a.lid ∉ home.revoked
    let clean : Prop := ∀ b ∈ s.w.gpoison, b < a.pa ∨ a.pa + a.n ≤ b
    let ended (y : Task) : Prop := y.stage = .ending ∧ (y.kind ≠ 0 ∨ y.wbDone = true)
    let port := fget s.w.hub.ports Port.idle die
    let turn (d : Die) : Die := if out then { d with wheelPosOut := (d.wheelPosOut + 1) % 64 }
      else { d with wheelPosIn := (d.wheelPosIn + 1) % 64 }
    let same (t : State) : Prop := t.mem = s.mem ∧ ∀ j, t.w.core j = s.w.core j
    let tenant := (s.w.gang f.gang).tenant
    let crossing (j : Nat) : Prop := j ∈ f.flit k ∧ s.w.waitsFor die out f j = true
    let slot := fget port.wheelOut { own := false, ten := 0, gang := 0 } port.wheelPosOut
    let leavesPort (l : List (Nat × Answer × Nat)) : Prop := ∃ t : State, exec (.wheelSlot (16 + die) true) s = .next t ∧ same t ∧
      t.w.flights = s.w.flights ∧ t.w.hub.out = s.w.hub.out ++ [answer] ∧
      fget t.w.hub.ports Port.idle die = { port with resp := l, wheelPosOut := (port.wheelPosOut + 1) % 64 }
    (open_ → serves → clean → f.op = .gamo op rt b c → a.n = amoBytes op → IsNumber s.mem .glb a.pa a.n old →
      ∃ t : State, exec (.homePerform f.id 0) s = .next t ∧ IsNumber t.mem .glb a.pa a.n ((amoNew op old b c).1 % 2 ^ (8 * a.n)) ∧
        SameBut s.mem t.mem [(.glb, a.pa, a.n)] ∧ (∀ j, t.w.core j = s.w.core j) ∧
        { f with parts := [0], res := old, flags := (amoNew op old b c).2 } ∈ t.w.flights ∧
        fget (t.w.die a.home).amoflags 0 tenant = fget home.amoflags 0 tenant ||| (amoNew op old b c).2) ∧
    (open_ → serves → f.op = .gstore → f.src.length = a.n → ∃ t : State, exec (.homePerform f.id 0) s = .next t ∧
      (∀ i < a.n, f.src[i]? = some (t.mem.byte .glb (a.pa + i))) ∧ SameBut s.mem t.mem [(.glb, a.pa, a.n)] ∧
      (∀ j, t.w.core j = s.w.core j) ∧ { f with parts := [0] } ∈ t.w.flights) ∧
    (open_ → serves → clean → f.op = .signal v → a.n = 8 → IsNumber s.mem .glb a.pa 8 old →
      ∃ t : State, exec (.signalAdd f.id) s = .next t ∧ IsNumber t.mem .glb a.pa 8 ((old + v.toNat) % 2 ^ 64) ∧
        SameBut s.mem t.mem [(.glb, a.pa, 8)] ∧ (∀ j, t.w.core j = s.w.core j) ∧ { f with parts := [0] } ∈ t.w.flights) ∧
    (∀ line sz sx rt, open_ → home.up = true → clean → f.op = .gload line sz sx rt → f.got = [] →
      ∃ t : State, exec (.homePerform f.id 0) s = .next t ∧ same t ∧
        { f with parts := [0], got := [(2 ^ 20, s.mem.bytes .glb a.pa a.n)] } ∈ t.w.flights) ∧
    (open_ → home.up = false → f.op = .gstore → f.badParts = [] →
      ∃ t : State, exec (.homePerform f.id 0) s = .next t ∧ same t ∧
        { f with parts := [0], badParts := [0], down := true } ∈ t.w.flights) ∧
    (∀ line sz sx rt, open_ → home.up = false → f.op = .gload line sz sx rt → f.badParts = [] →
      ∃ t : State, exec (.poisonedResponse f.id) s = .next t ∧ same t ∧
        { f with parts := [0], badParts := [0], down := true } ∈ t.w.flights) ∧
    (open_ → home.up = true → a.lid ∈ home.revoked → f.op = .gstore →
      ∃ t : State, exec (.homePerform f.id 0) s = .next t ∧ same t ∧ { f with parts := [0] } ∈ t.w.flights) ∧
    (∀ hint, f.retryAt = some hint → hint ≤ s.w.now → f ∈ s.w.flights → ∃ t : State, exec (.retryResend f.id) s = .next t ∧
      same t ∧ (∃ h, { f with held := false, retryAt := none, hops := h } ∈ t.w.flights ∧
        ∀ j, fget h 0 j = if j ∈ f.parts then fget f.hops 0 j else 0) ∧ ∀ g ∈ s.w.flights, g.id ≠ f.id → g ∈ t.w.flights) ∧
    ((∀ g ∈ s.w.flights, g.id = f.id → ∀ hint, g.retryAt = some hint → s.w.now < hint) →
      exec (.retryResend f.id) s = .next s) ∧
    (∃ t : State, exec (.homeDown die) s = .next t ∧ same t ∧ (t.w.die die).up = false ∧
      (∀ d, d ≠ die → t.w.die d = s.w.die d) ∧
      (x ∈ s.w.hub.tasks → x.stage = .run → x.downAt s.w.hub die = some va →
        (∃ y ∈ t.w.hub.tasks, y.order = x.order ∧ y.stage = .ending ∧ y.kind = 2 ∧ y.code = 19 ∧ y.info = va + 2 ^ 49 ∧
          y.ipc = 0 ∧ y.icore = 127) ∧
        ((s.w.gang x.gid).live = true → isTaskOf (s.w.gang x.gid) x = true → (t.w.gang x.gid).stat = .ended))) ∧
    (∃ t : State, exec (.memoryPlaneReset die) s = .next t ∧ same t ∧ (t.w.die die).up = true ∧
      (∀ d, d ≠ die → t.w.die d = s.w.die d) ∧ t.w.hub = s.w.hub) ∧
    ((∀ y ∈ s.w.hub.tasks, lid ∈ y.lids → ended y) → ∃ t : State, exec (.leaseRevocation lid die) s = .next t ∧
      same t ∧ (∀ l, l ∈ (t.w.die die).revoked ↔ l ∈ (s.w.die die).revoked ∨ l = lid) ∧ t.w.hub = s.w.hub) ∧
    ((∃ y ∈ s.w.hub.tasks, lid ∈ y.lids ∧ ¬ended y) → exec (.leaseRevocation lid die) s = .next s) ∧
    (die < 16 → (∀ g ∈ s.w.flights, s.w.waiting die out g = none) →
      exec (.wheelSlot die out) s = .next (s.withWorld (s.w.modDie die turn))) ∧
    (die < 16 → s.w.flights = [f] → s.w.waiting die out f = some k → (∀ p, f.partAt k = some p → p.home ≠ 8) →
      (∀ j, crossing j → f.hop j ≠ 1) → ∃ h : FMap Nat, exec (.wheelSlot die out) s = .next (s.withWorld
        { s.w.modDie die turn with flights := [{ f with hops := h }] }) ∧
        (∀ j, crossing j → fget h 0 j = f.hop j + 1) ∧ ∀ j, ¬crossing j → fget h 0 j = fget f.hops 0 j) ∧
    (die < 16 → s.w.flights = [f] → isEng f.op = false → isSend f.op = false → s.w.waiting die out f = some k →
      (∀ a ∈ f.accs, a.pod = false) → (∀ j, crossing j → j = k) →
      f.hop k = 1 → exec (.wheelSlot die out) s = exec (.homePerform f.id k) (s.withWorld
        { s.w.modDie die turn with flights := [{ f with hops := fput f.hops k 2 }] })) ∧
    (∀ r, die < 16 → port.resp = (ten, answer, began) :: r → slot.own = false →
      (∀ g ∈ s.w.flights, s.w.waiting (16 + die) true g ≠ none → began ≤ g.id) → leavesPort r) ∧
    (∀ l r, die < 16 → port.resp = l ++ (ten, answer, began) :: r → (∀ e ∈ l, e.1 ≠ ten) →
      slot = { own := true, ten := ten, gang := 0xFFF } →
      (∀ g ∈ s.w.flights, s.w.waiting (16 + die) true g ≠ none → (s.w.gang g.gang).tenant = ten → began ≤ g.id) →
      leavesPort (l ++ r)) ∧
    (die < 16 → s.w.flights = [f] → s.w.waiting (16 + die) true f = some k → (∀ e ∈ port.resp, f.id < e.2.2) →
      slot.own = false ∨ slot = { own := true, ten := tenant, gang := 0xFFF } →
      ∃ t : State, exec (.wheelSlot (16 + die) true) s = .next t ∧ (fget t.w.hub.ports Port.idle die).resp = port.resp ∧
        ∃ g, t.w.flights = [g] ∧ g.id = f.id ∧ f.hop k < g.hop k) ∧
    (∀ (e : EngCmd) p, f.op = .eng e → isSpd e.dst = true → e.crosses = none → f.begun = true → f.partAt k = some p → p.pod = false →
      p.home ≠ 8 → p.home ≠ f.dataDie → k ∉ f.parts → f.hop k = 2 → s.w.waitsFor p.home true f k = f.retryAt.isSome)

/-! ## Synchronisation -/

/-- An arrival at a barrier, bound to no group or to one that holds the core, answers the phase number before it, the last expected one
ends the phase; a barrier that the tenant does not hold answers bit 63, one whose group does not hold the core bit 62. A deque's owner
pushes and pops at the bottom, the head of its list here, any gang of the tenant steals at the top, each with its status. A watch is granted, and completes at once where its word meets the condition; a wait for a
barrier that is free or another's is met when it comes, and marks the record. A held gang whose waits all hold goes on, and
otherwise stays (R250, R251, R254, R255, R256, R259, R260, R261). -/
def Obligations.SynchronisationEngine : Prop :=
  ∀ (s : State) (f : Flight) (drop : Bool) (rt id gid pa home cond since : Nat) (op : DqOp) (v z : Word) (l : List Word),
    let ten := (s.w.gang f.gang).tenant
    let b := s.w.barrier id
    let q := s.w.deque id
    let batch : Prop := s.w.flights = [f] ∧ f.op = .bar drop rt id ∧ f.arrived = false ∧ f.held = false
    let answers (ins : Instr) (r : Nat) (p : State → Prop) : Prop := ∃ t : State, exec ins s = .next t ∧ t.mem = s.mem ∧
      (∀ j, t.w.core j = s.w.core j) ∧ t.w.flights = [{ f with res := r, arrived := true }] ∧ p t
    let cnt := b.cnt + 1
    let drops := b.dpend + (if drop then 1 else 0)
    let counts : Prop := ∀ g, b.grp = some g → f.core ∈ (s.w.group g).cores
    let ask : Prop := s.w.flights = [f] ∧ f.op = .deq op rt id v ∧ f.arrived = false ∧ f.held = false
    let ours : Prop := q.ten = some ten ∧ (q.owner = none ∨ q.owner = some f.gang)
    let held (w : List (Nat × Wait)) : Prop := (s.w.gang gid).stat = .held w since
    (batch → b.st = .held → b.ten = ten → counts → cnt < b.exp → answers (.barrierBatch id) b.ph
      (fun t => t.w.barrier id = { b with cnt := cnt, dpend := drops })) ∧
    (batch → b.st = .held → b.ten = ten → counts → b.exp ≤ cnt → answers (.barrierBatch id) b.ph
      (fun t => t.w.barrier id = { b with ph := (b.ph + 1) % 2 ^ 16, exp := b.exp - drops, cnt := 0, dpend := 0, st := if b.exp - drops = 0 then .drained else .held })) ∧
    (batch → b.st ≠ .held ∨ b.ten ≠ ten → answers (.barrierBatch id) (2 ^ 63) (fun t => t.w.hub = s.w.hub)) ∧
    (∀ g, batch → b.st = .held → b.ten = ten → b.grp = some g → f.core ∉ (s.w.group g).cores →
      answers (.barrierBatch id) (2 ^ 62) (fun t => t.w.hub = s.w.hub)) ∧
    (ask → q.ten ≠ some ten → answers (.dequeApply f.id) (4 * 2 ^ 64) (fun t => t.w.deque id = q)) ∧
    (ask → op ≠ .steal → q.ten = some ten → (∃ g, q.owner = some g ∧ g ≠ f.gang) →
      answers (.dequeApply f.id) (3 * 2 ^ 64) (fun t => t.w.deque id = q)) ∧
    (ask → op = .push → ours → q.items.length < q.cap →
      answers (.dequeApply f.id) 0 (fun t => t.w.deque id = { q with owner := some f.gang, items := v :: q.items })) ∧
    (ask → op = .push → ours → q.cap ≤ q.items.length →
      answers (.dequeApply f.id) (2 * 2 ^ 64) (fun t => (t.w.deque id).items = q.items)) ∧
    (ask → op = .pop → ours → q.items = z :: l →
      answers (.dequeApply f.id) z.toNat (fun t => t.w.deque id = { q with owner := some f.gang, items := l })) ∧
    (ask → op = .pop → ours → q.items = [] → answers (.dequeApply f.id) (2 ^ 64) (fun t => (t.w.deque id).items = [])) ∧
    (ask → op = .steal → q.ten = some ten → q.items = l ++ [z] →
      answers (.dequeApply f.id) z.toNat (fun t => t.w.deque id = { q with items := l })) ∧
    (ask → op = .steal → q.ten = some ten → q.items = [] → answers (.dequeApply f.id) (2 ^ 64) (fun t => t.w.deque id = q)) ∧
    (∀ k n, held [(k, .sig pa home cond)] → (∀ y ∈ s.w.hub.watches, y.1 ≠ k) → s.w.hub.watches.length < 1024 →
      IsNumber s.mem .glb pa 8 n → ∃ t : State, exec (.watchGrant gid) s = .next t ∧ t.mem = s.mem ∧
        t.w.hub.watches = s.w.hub.watches ++ [(k, if cond ≤ n then 1 else 0)]) ∧
    (∀ k t, held [(k, .bar id t)] → (s.w.barrier id).st = .free ∨ (s.w.barrier id).ten ≠ (s.w.gang gid).tenant →
      ∃ t : State, exec (.watchGrant gid) s = .next t ∧ t.mem = s.mem ∧ (t.w.gang gid).stat = .held [(k, .met)] since ∧
        ∀ x ∈ s.w.hub.tasks, isTaskOf (s.w.gang gid) x = true → { x with barw := true } ∈ t.w.hub.tasks) ∧
    (∀ w, held w → (s.w.gang gid).live = true → (s.w.gang gid).dbg = false → (s.w.gang gid).preempt = false → since < s.w.now →
      (∀ e ∈ w, s.w.waitMet (s.w.gang gid) since e = true) →
      ∃ t : State, exec (.collectiveRelease gid) s = .next t ∧ t.mem = s.mem ∧ (t.w.gang gid).stat = .running ∧
        (t.w.gang gid).ttc = (s.w.gang gid).ttc ∧ (t.w.gang gid).nextAt = max (s.w.gang gid).nextAt s.w.now ∧
        (∀ j, (t.w.core j).ctx = { (s.w.core j).ctx with evc := (t.w.core j).ctx.evc, evcsel := (t.w.core j).ctx.evcsel }) ∧
        ∀ y ∈ t.w.hub.watches, y.1 ∉ (s.w.gang gid).members) ∧
    (∀ w e, held w → e ∈ w → s.w.waitMet (s.w.gang gid) since e = false → exec (.collectiveRelease gid) s = .next s)

/-! ## Engines and deliveries -/

/-- An engine command starts at S, reads its source lines, performs its global parts, sends the parts of lines that cross dies, and leaves at C; what names bytes that are
not resident is refused with a hint (R203, R214, R215). A result that arrives has performed, and waits for its posted time,
at which a load, an atomic, a barrier, deque, launch or roster request writes its registers and a send its queue; a line of an engine
command or a catch commits at its own cycle, whole as a self-sealing write, in part as a bulk write of the bytes that it covers; what
has not arrived by its time is held to be LATE (R206, R207, R216, R241, R258, R260, R277, R322, R325, R332). -/
def Obligations.EnginesAndDeliveries : Prop :=
  ∀ (s : State) (f : Flight) (a : Acc) (c : EngCmd) (p : Part) (k line : Nat) (sz : MSize) (sx : Bool) (rt i : Nat)
    (aop : AmoOp) (v x : Word) (dq : DqOp) (cc : CarCmd) (ver : Nat) (poison : Bool),
    let clock := s.w.clock f.gang f.sup
    let here : Prop := s.w.flights = [f]
    let unread : Prop := s.w.softErrs = [] ∧ (s.w.core f.readCore).poison = [] ∧ (s.w.core f.readCore).courses = []
    let sent : Prop := f.arrived = true ∧ f.held = false ∧ k ∉ f.parts ∧ f.partAt k = some p ∧ p.pod = false ∧
      f.crosses = none ∧ (s.w.die p.home).up = true ∧ p.lid ∉ (s.w.die p.home).revoked
    let ready : Prop := sent ∧ p.lid ∈ (s.w.die p.home).lids
    let frees (a n : Nat) : Prop := ∀ b ∈ s.w.gpoison, b < a ∨ a + n ≤ b
    let settled : Prop := f.held = false ∧ f.missing = [] ∧ f.badParts = [] ∧ f.down = false ∧ f.lines = [] ∧ f.posted ≤ clock
    let commits (P : State → Prop) : Prop := ∃ t : State, exec (.postedCommit f.id i) s = .next t ∧
      (∀ j, j ≠ f.core → j ≠ f.lineCore → t.w.core j = s.w.core j) ∧ P t
    let reg (t : State) (n : Nat) : Word := sreg (t.w.core f.core) f.toSup n
    let scalars (l : List (Nat × Word)) (t : State) : Prop := t.mem = s.mem ∧ t.w.flights = [] ∧
      (∀ e ∈ l, e.1 ≠ 0 → reg t e.1 = e.2) ∧
      ∀ n, n ∉ l.map (·.1) → reg t n = sreg (s.w.core f.core) f.toSup n
    let quiet : Prop := s.w.softErrs = [] ∧ (s.w.core k).poison = [] ∧ (s.w.core k).courses = []
    let lineDue : Prop := f.lineCore = k ∧ f.lineList[i]? = some line ∧ i ∉ f.lines ∧ f.posted + i ≤ clock ∧ f.badParts = [] ∧
      f.present i = true
    let laid := lineOver ((f.preRead s.mem i).chunks c s.w.draws line)
    let spdByte (m : Mems) (b : Nat) : Byte := m.byte .spd (k * 2 ^ 21 + line * 1024 % 2 ^ 21 + b)
    let within (t : State) : Prop := SameBut s.mem t.mem [(.spd, k * 2 ^ 21 + line * 1024 % 2 ^ 21, 1024),
      (.mortar, k * 2 ^ 19 + line / 64 % 32 * 2 ^ 14 + line % 64 * 2 ^ 8, 256)] ∧ (t.w.core k).ctx.vregs = (s.w.core k).ctx.vregs
    let whole (bs : List Byte) (t : State) : Prop := within t ∧ (∀ b < 1024, bs[b]? = some (spdByte t.mem b)) ∧
      line ∉ (t.w.core k).stale ∧ line ∉ (t.w.core k).staleQ
    (here → f.op = .eng c → f.start = clock → f.arrived = false → ∃ t : State, exec (.engineStart f.id) s = .next t ∧
      t.mem = s.mem ∧ t.w.flights = [{ f with arrived := true }] ∧ ∀ j, t.w.core j = s.w.core j) ∧
    (here → unread → f.start + k = clock → f.reads[k]? = some line → k ∉ f.got.map (·.1) → earlyKey k ∉ f.got.map (·.1) →
      ∃ t : State, exec (.engineSourceRead f.id k) s = .next t ∧ t.mem = s.mem ∧ t.w.flights =
        [{ f with got := fput f.got k (s.mem.bytes .spd (f.readCore * 2 ^ 21 + line * 1024 % 2 ^ 21) 1024) }] ∧
        ∀ j, (t.w.core j).ctx = (s.w.core j).ctx) ∧
    (here → f.op = .eng c → isSpd c.dst = true → ready → frees p.pa p.n → ∃ t : State,
      exec (.engineGlobalPerform f.id k) s = .next t ∧ t.mem = s.mem ∧ t.w.flights =
        [{ f with parts := sadd f.parts k, got := fput f.got (2 ^ 20 + k) (s.mem.bytes .glb p.pa p.n) }]) ∧
    (here → f.op = .eng c → isSpd c.dst = false → f.canPerform c k = true → ready → ∃ t : State,
      exec (.engineGlobalPerform f.id k) s = .next t ∧ t.w.flights = [{ f with parts := sadd f.parts k }] ∧
      (∀ i < (f.partBytes k).length, (f.partBytes k)[i]? = some (t.mem.byte .glb (p.pa + i))) ∧
      SameBut s.mem t.mem [(.glb, p.pa, (f.partBytes k).length)]) ∧
    (here → f.op = .eng c → isSpd c.dst = true → sent → p.lid ∉ (s.w.die p.home).lids → ∃ (t : State) (hint : Nat),
      exec (.engineGlobalPerform f.id k) s = .next t ∧ t.mem = s.mem ∧ 1 ≤ hint ∧ hint ≤ 65535 ∧ t.w.flights =
        [{ f with held := true, refusals := f.refusals + 1, retryAt := some (s.w.now + hint * 1000000) }]) ∧
    (here → f.op = .eng c → f.crosses.isSome = true → f.arrived = true → f.held = false → k ∉ f.parts → f.partAt k = some p → ∃ t : State,
      exec (.engineGlobalPerform f.id k) s = .next t ∧ t.mem = s.mem ∧ t.w.flights = [{ f with parts := sadd f.parts k }] ∧
      ∀ j, t.w.core j = s.w.core j) ∧
    (here → f.op = .eng c → f.done ≤ clock → f.missing = [] → f.open_ = [] → f.held = false → f.down = false →
      exec (.engineComplete f.id) s = .next (s.withWorld { s.w with flights := [] })) ∧
    (here → f.op = .eng c → c.dst = .spd k → quiet → lineDue → (∀ m, c.mask = some m → lineOfAddr m.1 ≠ line) → commits (fun t =>
      within t ∧ (∀ b < 1024, spdByte t.mem b = match laid[b]? with | some (some y) => y | _ => spdByte s.mem b) ∧
      ((∀ b < 1024, ∃ y, laid[b]? = some (some y)) → line ∉ (t.w.core k).stale ∧ line ∉ (t.w.core k).staleQ) ∧
      ((∃ b < 1024, laid[b]? = some none) → (∃ b < 1024, ∃ y, laid[b]? = some (some y)) → line ∈ (t.w.core k).staleQ))) ∧
    (∀ m, here → f.op = .eng c → c.dst = .spd k → quiet → lineDue → c.mask = some m → lineOfAddr m.1 = line → m.2.length = 1024 →
      commits (whole m.2)) ∧
    (here → f.op = .car cc → cc.kind = .catch_ ∨ cc.kind = .catchv ∨ (cc.kind = .alight ∧ cc.cp = true) → cc.st = .done ver poison →
      f.src.length = 4096 → quiet → lineDue → commits (fun t => whole ((f.src.drop (1024 * i)).take 1024) t ∧
        (∀ b < 4, line * 4 + b ∈ (t.w.core k).poison ↔ poison = true) ∧
        (i = 0 → cc.rt ≠ 0 → reg t cc.rt = BitVec.ofNat 64 (ver + if poison then 2 ^ 8 else 0)) ∧
        ∀ n, i ≠ 0 ∨ n ≠ cc.rt → reg t n = sreg (s.w.core f.core) f.toSup n)) ∧
    (here → i = 0 → f.op = .gload true sz sx rt → settled → commits (fun t => t.mem = s.mem ∧ t.w.flights = [] ∧
      fget (t.w.core f.core).ctx.vregs 0 rt = BitVec.ofNat 8192 (leNat f.loadBytes) ∧
      (∀ n, n ≠ rt → fget (t.w.core f.core).ctx.vregs 0 n = fget (s.w.core f.core).ctx.vregs 0 n) ∧
      (t.w.core f.core).ctx.sregs = (s.w.core f.core).ctx.sregs)) ∧
    (here → i = 0 → f.op = .gload false .b16 sx rt → settled → commits
      (scalars [(rt, BitVec.ofNat 64 (leNat f.loadBytes)), (rt + 1, BitVec.ofNat 64 (leNat f.loadBytes / 2 ^ 64))])) ∧
    (here → i = 0 → f.op = .gamo aop rt v x → rt ≠ 0 → settled → commits (fun t => scalars [(rt, amoOld aop f.res)] t ∧
      (t.w.core f.core).ctx.fpflags = (s.w.core f.core).ctx.fpflags ||| (f.flags &&& (s.w.core f.core).ctx.fpctrl))) ∧
    (here → i = 0 → f.op = .gamo aop 0 v x → settled → exec (.postedCommit f.id 0) s = .next (s.withWorld { s.w with flights := [] })) ∧
    (∀ drop ccw id, here → i = 0 → f.op = .bar drop rt id ∨ f.op = .launch rt ∨ f.op = .roster ccw rt id → settled → f.arrived = true →
      commits (scalars [(rt, BitVec.ofNat 64 f.res)])) ∧
    (∀ id, here → i = 0 → f.op = .deq dq rt id v → settled → f.arrived = true → commits (scalars (if dq = .push
      then [(rt, BitVec.ofNat 64 (f.res / 2 ^ 64))]
      else [(rt, BitVec.ofNat 64 (f.res % 2 ^ 64)), (rt + 1, BitVec.ofNat 64 (f.res / 2 ^ 64))]))) ∧
    (∀ op id v, here → f.retryAt = none → f.op = .deq op rt id v → exec (.resultArrival f.id) s =
      exec (.dequeApply f.id) (s.withWorld { s.w with flights := [{ f with held := false }] })) ∧
    (here → f.retryAt = none → f.op = .gstore → f.parts = [] → f.accs = [a] → f.src.length = a.n → 0 < a.n → a.n ≤ 16 →
      a.pod = false → (s.w.die a.home).up = true → a.lid ∉ (s.w.die a.home).revoked →
      ∃ t : State, exec (.resultArrival f.id) s = .next t ∧ t.w.flights = [{ f with held := false, parts := [0] }] ∧
        (∀ i < a.n, f.src[i]? = some (t.mem.byte .glb (a.pa + i))) ∧ SameBut s.mem t.mem [(.glb, a.pa, a.n)] ∧
        ∀ j, t.w.core j = s.w.core j) ∧
    (here → f.op = .gload false sz sx rt → sz ≠ .b16 → settled → ∃ t : State,
      exec (.postedCommit f.id 0) s = .next t ∧ t.mem = s.mem ∧ t.w.flights = [] ∧
      (rt ≠ 0 → sreg (t.w.core f.core) f.toSup rt =
        if sx then BitVec.ofInt 64 (signed (8 * sz.bytes) (leNat f.loadBytes))
        else BitVec.ofNat 64 (leNat f.loadBytes % 2 ^ (8 * sz.bytes))) ∧
      (∀ n, n ≠ rt → sreg (t.w.core f.core) f.toSup n = sreg (s.w.core f.core) f.toSup n)) ∧
    (∀ j que sq, here → f.op = .send [j] que sq → settled → ∃ t : State, exec (.postedCommit f.id 0) s = .next t ∧
      t.mem = s.mem ∧ t.w.flights = [] ∧ (t.w.core j).ctx = (s.w.core j).ctx ∧
      (∃ e ∈ fget (t.w.core j).queues [] que, e.sender = f.core ∧ e.seq = sq ∧ e.posted = f.posted ∧
        e.data = BitVec.ofNat 8192 (leNat f.src))) ∧
    (here → (match f.op with | .gload .. | .gstore | .gamo .. | .send .. => True | _ => False) →
      exec (.late f.core f.id) s = .next (s.withWorld { s.w with flights := [{ f with held := true, retryAt := none }] }) ∧
      (f.lines = [] → f.held = true → f.posted ≤ clock → latePending (s.w.gang f.gang) f = false →
        ∃ i, i % 2 ^ 32 = f.issue % 2 ^ 32 ∧ s.w.lates f.gang f.sup clock = s.w.raise f clock 3 i) ∧
      (clock < f.posted → s.w.lates f.gang f.sup clock = s.w))

/-! ## Covered writes, the mortar, fills and matrix commits -/

/-- An atomic's new value is written two cycles after its issue; the sweep reads the lowest stale line in a course cycle without
an access, and in a second one makes the line's mortar row the parity of its rows, which is counted at once; a fill puts its words in the half and reports. At its
posted time TLOAD has put its lines into rows, with their validity, or into columns, TSCL its lines into the scale plane, MMA its
result into the accumulator, TCVT its result into a tile that is then whole, each with its flags; TSTORE writes a line in each of its
cycles; TZERO clears its tile; MCFG installs its shapes and clears every tile
(R177, R186, R229, R230, R296, R298, R306, R307, R308, R310, R311). -/
def Obligations.ScratchAndArrayCommits : Prop :=
  ∀ (s : State) (f : Flight) (k course line tile n : Nat) (a : AmoW) (half : Bool) (shapes : FMap Nat)
    (m tr q : Bool) (first i : Nat) (out : FMap Nat),
    let c := s.w.core k
    let d := k / 8
    let others (t : State) : Prop := ∀ j, j ≠ k → t.w.core j = s.w.core j
    let mine : Prop := s.w.flights = [f] ∧ f.core = k ∧ f.held = false ∧ f.badParts = [] ∧ f.lines = [] ∧
      f.posted ≤ s.w.clock f.gang f.sup
    let spd (i : Nat) : Nat := k * 2 ^ 21 + i % 2 ^ 21
    let mortarRow := k * 2 ^ 19 + line / 64 % 32 * 2 ^ 14 + line % 64 * 2 ^ 8
    let x := (s.w.die d).tile tile
    let shape := (s.w.die d).shape tile
    let rows := shape % 2 ^ 11
    let cols := shape / 2 ^ 11 % 2 ^ 11
    let fmt := shape / 2 ^ 22 % 16
    let width := if fmt = 4 then 2 else if fmt = 5 then 4 else 1
    let zero := if fmt = 1 then 0x77 else 0
    let bytes (j : Nat) : List Byte := if q then (f.src.drop (1024 * j)).take 1024 else fget f.got [] j
    let element (j e : Nat) : Nat := leNat (((bytes j).drop (width * e)).take width)
    let arrays (P : Tile → Core → Prop) : Prop := ∃ t : State, exec (.arrayCommit f.id) s = .next t ∧ t.mem = s.mem ∧
      t.w.flights = [] ∧ others t ∧ (∀ j, j ≠ tile → (t.w.die d).tile j = (s.w.die d).tile j) ∧
      (t.w.die d).shapes = (s.w.die d).shapes ∧ P ((t.w.die d).tile tile) (t.w.core k)
    let flagged : Core := { c with ctx := { c.ctx with fpflags := c.ctx.fpflags ||| (f.flags &&& c.ctx.fpctrl) } }
    let stored (l : Nat) : List (Space × Nat × Nat) :=
      [(.spd, k * 2 ^ 21 + l * 1024, 1024), (.mortar, k * 2 ^ 19 + l / 64 * 2 ^ 14 + l % 64 * 2 ^ 8, 256)]
    (c.amos = [a] → a.void = false → a.sup = s.w.inHandler k → a.issue + 2 ≤ s.w.clockOf k → c.courses = [] →
      a.addr / 256 = (a.addr + a.n - 1) / 256 → 0 < a.n → ∃ t : State, exec (.amoCoveredWrite k) s = .next t ∧
        IsNumber t.mem .spd (spd a.addr) a.n (a.value % 2 ^ (8 * a.n)) ∧
        SameBut s.mem t.mem [(.spd, spd a.addr, a.n), (.mortar, k * 2 ^ 19 + a.addr / 65536 % 32 * 2 ^ 14 +
          a.addr / 1024 % 64 * 2 ^ 8, 256)] ∧ others t ∧ (t.w.core k).ctx = c.ctx ∧
        (t.w.core k).amos = [{ a with void := true }]) ∧
    (course < 32 → line ∈ c.stale → line / 64 = course → (∀ l ∈ c.stale, l / 64 = course → l = line) → c.courses = [] →
      course ∉ c.touched → (∀ e ∈ c.sweep, e.1 ≠ course) →
      exec (.mortarSweep k course) s = .next (s.withWorld
        (s.w.modCore k (fun c => { c with sweep := fput c.sweep course (2 * line) })))) ∧
    (course < 32 → line / 64 = course → c.courses = [] → course ∉ c.touched → c.sweep = [(course, 2 * line + 1)] →
      ∃ t : State, exec (.mortarSweep k course) s = .next t ∧
        (t.w.core k).ctx = { c.ctx with evc := (t.w.core k).ctx.evc, evcsel := (t.w.core k).ctx.evcsel } ∧ others t ∧
        (c.evq = [] → ∀ j < 8, fget c.ctx.evcsel 0 j = 2 ^ 6 + 0x25 →
          fget (t.w.core k).ctx.evc 0 j = (fget c.ctx.evc 0 j + 1) % 2 ^ 48) ∧
        (∀ i < 256, t.mem.byte .mortar (mortarRow + i) = s.mem.byte .spd (spd (line * 1024) + i) ^^^
          s.mem.byte .spd (spd (line * 1024) + 256 + i) ^^^ s.mem.byte .spd (spd (line * 1024) + 512 + i) ^^^
          s.mem.byte .spd (spd (line * 1024) + 768 + i)) ∧
        SameBut s.mem t.mem [(.mortar, mortarRow, 256)] ∧ line ∉ (t.w.core k).stale ∧
        (t.w.core k).sweep = [] ∧ ∀ l, l ≠ line → (l ∈ (t.w.core k).stale ↔ l ∈ c.stale)) ∧
    ((∀ l ∈ c.stale, l / 64 ≠ course % 32) → (∀ e ∈ c.sweep, e.1 ≠ course % 32) →
      exec (.mortarSweep k course) s = .next s) ∧
    (course % 32 ∈ c.touched → s.w.coreRuns k = true → exec (.mortarSweep k course) s = .next s) ∧
    (mine → f.op = .ifill half n → f.missing = [] → ∃ (t : State) (code : Nat),
      exec (.ifillComplete f.id) s = .next t ∧ others t ∧ t.w.flights = [] ∧
      (∀ i b, (f.fillBytes n)[i]? = some b → t.mem.byte .isp (ispAt k (if half then 34816 else 4096) + i) = b) ∧
      SameBut s.mem t.mem [(.isp, ispAt k (if half then 34816 else 4096), 4 * n)] ∧
      (t.w.core k).ifstat.busy = false ∧ ((t.w.core k).ifstat.valid = true ↔ code = 0) ∧ (t.w.core k).ifstat.code = code ∧
      (if half then (t.w.core k).ctx.halfB else (t.w.core k).ctx.halfA) = (if code = 0 then 3 else 5) ∧
      (t.w.core k).ctx.sregs = c.ctx.sregs ∧ (t.w.core k).ctx.vregs = c.ctx.vregs) ∧
    (mine → f.op = .tload m false q tile first n line → cols ≤ 1024 → arrays (fun u e => e = c ∧ u.scale = x.scale ∧
      (∀ r j, j < 1024 → u.at zero r j = if first ≤ r ∧ r < first + n ∧ j < cols then element (r - first) j else x.at zero r j) ∧
      ∀ r, u.valid r = if first ≤ r ∧ r < first + n
        then (if m then decide (((bytes n).getD (r - first) 0).toNat % 2 = 1) else true) else x.valid r)) ∧
    (mine → f.op = .tload m true q tile first n line → first + n ≤ 1024 → arrays (fun u e => e = c ∧ u.scale = x.scale ∧
      u.invalid = x.invalid ∧
      ∀ r j, j < 1024 → u.at zero r j = if first ≤ j ∧ j < first + n ∧ r < rows then element (j - first) r else x.at zero r j)) ∧
    (mine → f.op = .tscl tile first n line → q = false → arrays (fun u e => e = c ∧ u.elems = x.elems ∧ u.invalid = x.invalid ∧
      ∀ g j, j < 1024 → u.sp g j = if first ≤ g ∧ g < first + n then ((bytes (g - first)).getD j 0).toNat else x.sp g j)) ∧
    (mine → f.op = .mma tile out → arrays (fun u e => e = flagged ∧ u = { x with elems := out })) ∧
    (mine → f.op = .tcvt tile out → arrays (fun u e => e = flagged ∧ u = { elems := out, invalid := [], scale := [] })) ∧
    (s.w.flights = [f] → f.core = k → f.held = false → i ∉ f.lines → f.issue + 32 + i ≤ s.w.clock f.gang f.sup → c.courses = [] →
      f.op = .tstore line → f.src.length = 1024 * n → i < n → ∃ t : State, exec (.postedCommit f.id i) s = .next t ∧ others t ∧
        (t.w.core k).ctx = c.ctx ∧ SameBut s.mem t.mem (stored ((line + i) % 2048)) ∧
        ∀ b < 1024, f.src[1024 * i + b]? = some (t.mem.byte .spd (k * 2 ^ 21 + (line + i) % 2048 * 1024 + b))) ∧
    (mine → f.op = .tzero tile → ∃ t : State, exec (.arrayCommit f.id) s = .next t ∧ t.mem = s.mem ∧ t.w.flights = [] ∧
      (t.w.die d).tile tile = Tile.cleared ∧ (∀ j, j ≠ tile → (t.w.die d).tile j = (s.w.die d).tile j) ∧
      ∀ j, t.w.core j = s.w.core j) ∧
    (mine → f.op = .mcfg shapes → ∃ t : State, exec (.mcfgCommit f.id) s = .next t ∧ t.mem = s.mem ∧ t.w.flights = [] ∧
      (t.w.die d).shapes = shapes ∧ (t.w.die d).mcfgAt = none ∧ (∀ j, (t.w.die d).tile j = Tile.cleared) ∧
      ∀ j, t.w.core j = s.w.core j)

/-! ## The carousel's ring and roster -/

/-- What a passage does: an accepted board fills an empty owned slot at version 0, a catch takes the tile and leaves it, a
replace stores and raises the version, an alight empties the slot; a withdrawn slot is given up at stop 0, as its tile leaves it,
or, where it is empty, once its tenant has a slot more than its accepted boards need (the model's choice of log 67); a command that
has consumed an error in its reads watches nothing; a tile that fails a check is poisoned first. The roster answers a board and a
CROST; a refused board traps CFULL and a command without a passage CMISS at its posted time (R314, R315, R316, R318, R321, R322, R324, R325, R328, R329, R359). -/
def Obligations.RingActions : Prop :=
  ∀ (s : State) (f : Flight) (c : CarCmd) (ccw : Bool) (n stop : Nat),
    let key := (if ccw then 1024 else 0) + n % 1024
    let x := s.w.slot key
    let g := s.w.gang f.gang
    let here : Prop := s.w.flights = [f] ∧ f.op = .car c
    let stands : Prop := here ∧ c.ccw = ccw ∧ c.st = .armed ∧ stop < 8 ∧ f.core / 8 = stop ∧ g.tenant = x.ten ∧ f.badParts = [] ∧
      g.ttc < f.issue + (if c.kind = .catchv then 8224 else 4128)
    let watching : Prop := stands ∧ s.w.errsAt (.slot key) = []
    let readTile : Prop := f.got.length = 4
    let full : Prop := x.own = true ∧ x.full = true ∧ c.name = x.name ∧ (stop = 0 → x.withdraw = false)
    let passes (y : Slot) (v : Nat) (p : Bool) (bs : List Byte) : Prop := ∃ t : State,
      exec (.ringPassage ccw n stop) s = .next t ∧ t.mem = s.mem ∧ (∀ j, t.w.core j = s.w.core j) ∧ t.w.slot key = y ∧
      (∀ j, j ≠ key → t.w.slot j = s.w.slot j) ∧ t.w.flights = [{ f with op := .car { c with st := .done v p }, src := bs }]
    let asks (l : List Flight) : Prop := ∃ t : State, exec (.rosterRequest f.id) s = .next t ∧ t.mem = s.mem ∧
      t.w.flights = l ∧ (∀ j, t.w.core j = s.w.core j) ∧ t.w.hub.slots = s.w.hub.slots
    let asking : Prop := here ∧ f.held = false ∧ f.arrived = false ∧ c.kind = .board ∧ c.st = .armed
    let quota := s.w.slotQuota c.ccw g.tenant
    let raises (ins : Instr) (cause info : Nat) : Prop := ∃ t : State, exec ins s = .next t ∧ t.mem = s.mem ∧
      t.w.flights = [] ∧ (∀ j, t.w.core j = s.w.core j) ∧ (t.w.gang f.gang).events = g.events ++
        [{ due := f.dueOf 0, core := f.core, issue := f.issue, pos := f.pos, cause := cause, info := info, pc := none }]
    let due : Prop := here ∧ f.held = false ∧ f.lines = [] ∧ f.sup = false ∧ f.dueOf 0 ≤ g.ttc
    (watching → readTile → c.kind = .board → f.arrived = true → x.own = true → x.full = false →
      (x.withdraw = true → s.w.spare ccw x.ten = false) → passes { x with full := true, name := c.name, ver := 0, poison := false, data := f.tile } 0 false []) ∧
    (watching → full → c.kind = .catch_ → passes x x.ver x.poison x.data) ∧
    (stands → s.w.errsAt (.slot key) ≠ [] → full → c.kind = .catch_ → passes { x with poison := true } x.ver true x.data) ∧
    (watching → full → c.kind = .catchv → (x.ver + 256 - c.ver % 256) % 256 < 128 → passes x x.ver x.poison x.data) ∧
    (watching → full → c.kind = .catchv → 128 ≤ (x.ver + 256 - c.ver % 256) % 256 →
      ∃ t : State, exec (.ringPassage ccw n stop) s = .next t ∧ t.w.flights = [f] ∧ t.w.slot key = x) ∧
    (watching → full → c.kind = .alight → x.withdraw = true → passes Slot.unowned x.ver x.poison x.data) ∧
    (watching → full → c.kind = .alight → x.withdraw = false →
      passes { x with full := false, name := 0, ver := 0, poison := false, data := [] } x.ver x.poison x.data) ∧
    (watching → full → readTile → c.kind = .repl →
      passes { x with data := f.tile, ver := (x.ver + 1) % 256, poison := false } ((x.ver + 1) % 256) false []) ∧
    (x.own = true → x.withdraw = true → (if x.full then stop = 0 else s.w.spare ccw x.ten = true) →
      ∃ t : State, exec (.ringPassage ccw n stop) s = .next t ∧ t.w.slot key = Slot.unowned ∧ t.w.flights = s.w.flights ∧
        t.mem = s.mem) ∧
    (x.own = false → exec (.ringPassage ccw n stop) s = .next s) ∧
    (here → f.badParts ≠ [] → s.w.errsAt (.slot key) = [] → x.own = true → x.withdraw = false →
      ∃ t : State, exec (.ringPassage ccw n stop) s = .next t ∧ t.w.flights = [f] ∧ t.w.slot key = x) ∧
    (asking → quota = 0 → asks [{ f with op := .car { c with st := .refused 2 }, arrived := true }]) ∧
    (asking → 0 < quota → (s.w.aboard c.ccw g.tenant c.name).isSome = true →
      asks [{ f with op := .car { c with st := .refused 1 }, arrived := true }]) ∧
    (asking → s.w.hub.pendBoards = [] → s.w.aboard c.ccw g.tenant c.name = none → s.w.aboardCount c.ccw g.tenant < quota →
      asks [{ f with arrived := true }]) ∧
    (asking → s.w.hub.pendBoards = [] → s.w.aboard c.ccw g.tenant c.name = none → 0 < quota →
      quota ≤ s.w.aboardCount c.ccw g.tenant → asks [{ f with op := .car { c with st := .refused 0 }, arrived := true }]) ∧
    (∀ rt name e, s.w.flights = [f] → f.op = .roster ccw rt name → f.held = false → f.arrived = false →
      s.w.aboard ccw g.tenant name = some e →
      asks [{ f with res := e.2.ver + (if e.2.poison then 256 else 0) + 512, arrived := true }]) ∧
    (∀ rt name, s.w.flights = [f] → f.op = .roster ccw rt name → f.held = false → f.arrived = false →
      s.w.aboard ccw g.tenant name = none → asks [{ f with res := 0, arrived := true }]) ∧
    (∀ r, due → c.kind = .board → c.st = .refused r → raises (.cfull f.id) 13
      (c.name + (if c.ccw then 2 ^ 24 else 0) + r * 2 ^ 36 + f.issue % 2 ^ 24 * 2 ^ 40)) ∧
    (due → c.kind ≠ .board → c.st = .armed → raises (.cmiss f.id) 14 (carInfo f c 0))

/-! ## The sorting office -/

/-- Admission takes the next eligible record; residency leases its ranges and gives it its wheel slots, under the task's own
mark (the model's choice of log 71), or fails or waits on a stage-2 fault, which the hypervisor repairs or declines, or waits for
slots; placement names its gang and gives it cores, lease-table entries and those slots under its GANGID, the fill its words, and dispatch starts it at TTC 0 after a restart gap with its arguments in s1 to s15, its member number in s16 and the
count in s17 (R78, R101, R170, R199, R228, R236, R262, R264, R265, R266, R267, R276). -/
def Obligations.SortingOffice : Prop :=
  ∀ (s : State) (t : Task) (id gid : Nat) (ps : List Page) (runs : List Rle) (cores : List Nat),
    let r := s.refreshed
    let next : Prop := r.nextRecord = some t
    let stands (ins : Instr) (st : Stage) (p : Task → State → Prop) : Prop := ∃ (u : State) (y : Task),
      exec ins s = .next u ∧ y ∈ u.w.hub.tasks ∧ y.order = t.order ∧ y.stage = st ∧ p y u
    let fails (ins : Instr) (code vcode : Nat) : Prop := stands ins .ending (fun y u =>
      y.kind = 1 ∧ y.code = code ∧ y.vcode = vcode ∧ u.mem = s.mem ∧ ∀ j, u.w.core j = s.w.core j)
    let is (st : Stage) : Prop := s.w.taskBy id = some t ∧ t.stage = st
    let im := Config.imageOf (s.pageBytes ps)
    let lo := t.lrec.toNat % 2 ^ 64
    let len := t.lrec.toNat / 2 ^ 64 % 2 ^ 32
    let resident : Prop := is .admitted ∧ t.s2wait = none
    let leased : Prop := resident ∧ s.prepRange t.ten 1 lo len = .ok ps ∧ imageFits t im = true ∧
      s.prepAll t.ten (t.ranges im) = .ok runs
    let quota : Prop := s.w.barriersOf t.ten + s.w.newBars im ≤ s.w.tenRec t.ten / 2 ^ 9 % 2 ^ 13
    let open_ (m : FMap WSlot) : Nat := (freeSlots m).length
    let fits : Prop := is .resident ∧ s.w.placing t [] = some cores ∧ (∀ g ∈ t.image.groups, groupCode s.w t.ten g = 0) ∧
      s.w.groupsOver t cores = false
    let ready : Prop := fits ∧ s.w.roomFor t (diesOf cores) = true ∧ s.w.freshGang = some gid
    let moved (was now : FMap WSlot) : Prop := ∀ n, (fget was WSlot.unowned n).own = true →
      fget now WSlot.unowned n = if (fget was WSlot.unowned n).gang = t.gid then { fget was WSlot.unowned n with gang := gid }
        else fget was WSlot.unowned n
    (r.nextRecord = none → exec .admitTask s = .next (s.withWorld r)) ∧
    (next → stands .admitTask .admitted (fun y u => y.lrec = t.lrec ∧ y.no = t.no ∧ y.ten = t.ten ∧
      (y.predf = true ↔ ∃ e ∈ t.predsSeen, e.2 ≠ 0) ∧ u.mem = s.mem ∧ u.w.hub.tasks.getLast? = some y)) ∧
    (s.w.taskBy id = some t → s.w.hub.tasks.filter untaken = [] → ∃ u : State, exec (.priorityAging id) s = .next u ∧
      u.mem = s.mem ∧ u.w.hub.tasks = s.w.hub.tasks.map (fun x => if x.stage = .queued then
        { x with eligible := if s.w.ready? x then some (x.eligible.getD s.w.now) else none } else x)) ∧
    (leased → s.w.residencyCode t im runs = 0 → quota → s.w.slotsFor t = true →
      stands (.residency id) .resident (fun y u => y.image = im ∧ y.gid = t.gid ∧ y.lids = y.runs.map (fun e => e.lid) ∧
        y.runs.map (fun e => { e with lid := 0 }) = runs.map (fun e => { e with lid := 0 }) ∧ u.mem = s.mem ∧
        (∀ d < 8, open_ (u.w.die d).wheelOut + t.wsl d = open_ (s.w.die d).wheelOut ∧
          open_ (u.w.die d).wheelIn + t.wsl d = open_ (s.w.die d).wheelIn) ∧
        ∀ l ∈ y.lids, ∀ d < 9, l ∈ (u.w.die d).lids ∧ l ∉ (u.w.die d).revoked)) ∧
    (resident → s.prepRange t.ten 1 lo len = .ok ps → imageFits t im = false → fails (.residency id) 14 0) ∧
    (leased → s.w.residencyCode t im runs ≠ 0 → fails (.residency id) (s.w.residencyCode t im runs) 0) ∧
    (leased → s.w.residencyCode t im runs = 0 → ¬quota ∨ s.w.slotsFor t = false → exec (.residency id) s = .next s) ∧
    (∀ c info, resident → s.prepRange t.ten 1 lo len = .fail c info → fails (.residency id) c 0) ∧
    (∀ ia va, resident → s.prepRange t.ten 1 lo len = .wait ia va → stands (.residency id) .admitted (fun y u =>
      y.s2wait = some (ia, va) ∧ u.w.hub.faults = s.w.hub.faults ++ [(ia, va, t.order)])) ∧
    (∀ w, s.w.taskBy id = some t → t.s2wait = some w → stands (.hypervisorRetry id) t.stage (fun y u =>
      y.s2wait = none ∧ ∀ x ∈ u.w.hub.faults, x.2.2 ≠ id)) ∧
    (∀ w, s.w.taskBy id = some t → t.s2wait = some w → fails (.hypervisorDecline id) 2 0) ∧
    (ready → s.handlerWords t.ten = [] → stands (.placement id) .placed (fun y u => y.cores = cores ∧ y.gid = gid ∧
      (∀ k ∈ cores, (u.w.core k).gang = some gid ∧ ∀ i < 2 ^ 21, u.mem.byte .spd (k * 2 ^ 21 + i) = 0) ∧
      (∀ d ∈ diesOf cores, (u.w.die d).rlt = (s.w.die d).rlt ++ t.runs.map (fun e => { e with gang := gid })) ∧
      (∀ d < 8, moved (s.w.die d).wheelOut (u.w.die d).wheelOut ∧ moved (s.w.die d).wheelIn (u.w.die d).wheelIn) ∧
      ∀ sp a, sp ≠ .spd → sp ≠ .mortar → u.mem.byte sp a = s.mem.byte sp a)) ∧
    (fits → s.w.roomFor t (diesOf cores) = false ∨ s.w.freshGang = none → exec (.placement id) s = .next s) ∧
    (is .resident → s.w.placing t [] = none → neverPlaced t = true → fails (.placement id) 13 0) ∧
    (is .resident → s.w.placing t [] = none → neverPlaced t = false → exec (.placement id) s = .next s) ∧
    (∀ k m, is .placed → t.cores = [k] → t.image.members = [m] → m.regions = [] → t.image.overlays = [] → t.imageCode = 0 →
      stands (.launchFill id) .filled (fun _ u =>
        (∀ i b, (bytesOf m.words)[i]? = some b → u.mem.byte .isp (k * 2 ^ 18 + i) = b) ∧
        SameBut s.mem u.mem [(.isp, k * 2 ^ 18, (bytesOf m.words).length)])) ∧
    (is .placed → t.imageCode ≠ 0 → fails (.launchFill id) 12 t.imageCode) ∧
    (is .filled → t.cores.Nodup → stands (.dispatch id) .run (fun y u => u.mem = s.mem ∧ y.wstart = s.w.wtc ∧
      (u.w.gang t.gid).live = true ∧ (u.w.gang t.gid).ttc = 0 ∧ (u.w.gang t.gid).stat = .running ∧
      (u.w.gang t.gid).members = t.cores ∧ (u.w.gang t.gid).tenant = t.ten ∧ (u.w.gang t.gid).task = t.no ∧
      (u.w.gang t.gid).nextAt = s.w.now + 8 * (u.w.gang t.gid).period ∧
      ∀ j k, t.cores[j]? = some k → (∀ i < 15, sreg (u.w.core k) false (i + 1) = BitVec.ofNat 64 (t.arg i)) ∧
        sreg (u.w.core k) false 16 = BitVec.ofNat 64 j ∧ sreg (u.w.core k) false 17 = BitVec.ofNat 64 t.nmem ∧
        (∀ i, 17 < i → sreg (u.w.core k) false i = 0) ∧ (u.w.core k).ctx.seq.pc = 0 ∧ (u.w.core k).ctx.fpctrl = 31))

/-! ## How tasks end -/

/-- Completion, write-back, the completion record, cancellation at tenant 0's request (a cancellation that another asks for, or before the mailbox is open, is answered with an error)
and the release after a kill; what goes to a home that is down is
discarded, and a record that cannot be written is logged; what was sent
to a pod peer stays known, under the gang 4096 that is none (R202, R204, R261, R262, R272, R273, R275, R276, R360, R370). -/
def Obligations.TasksEnd : Prop :=
  ∀ (s : State) (t : Task) (id gid : Nat),
    let is (st : Stage) : Prop := s.w.taskBy id = some t ∧ t.stage = st
    let stands (ins : Instr) (st : Stage) (p : Task → State → Prop) : Prop := ∃ (u : State) (y : Task),
      exec ins s = .next u ∧ y ∈ u.w.hub.tasks ∧ y.order = t.order ∧ y.stage = st ∧ p y u
    let asked (n : Nat) : Instr := .cancel { from_ := n, arg := id }
    let heard : Prop := s.w.hub.mailOpen = true
    let free (u : State) : Prop := (∀ p ∈ s.w.hub.podOut, 0 < p.left → (∀ f ∈ s.w.flights, f.gang ≠ t.gid) →
        (if p.gang = t.gid then { p with gang := 4096 } else p) ∈ u.w.hub.podOut) ∧ (∀ k ∈ t.cores, (s.w.core k).gang = some t.gid → (u.w.core k).gang = none) ∧
      (∀ f ∈ u.w.flights, f.gang ≠ t.gid) ∧ ∀ l ∈ t.lids, ∀ d < 9, l ∈ (u.w.die d).revoked ∧ l ∉ (u.w.die d).lids
    (s.w.finished gid = true → ∃ u : State, exec (.taskComplete gid) s = .next u ∧ u.mem = s.mem ∧
      (u.w.gang gid).stat = .ended ∧ (∀ j, u.w.core j = s.w.core j) ∧ (∀ e ∈ u.w.hub.watches, e.1 ∉ (s.w.gang gid).members) ∧
      u.w.hub.tasks = s.w.hub.tasks.map (fun x => if isTaskOf (s.w.gang gid) x then
        { x with stage := .ending, kind := 0, code := 0, info := 0, ipc := 0, icore := 0,
                 ttcEnd := (s.w.gang gid).ttc - 1 } else x)) ∧
    (s.w.finished gid = false → exec (.taskComplete gid) s = .next s) ∧
    (is .ending → t.kind = 0 → t.wbDone = false → (∀ k ∈ t.cores, ∀ r ∈ (s.w.core k).regions, r.bound = none) →
      stands (.boundWriteback id) .ending (fun y u => y.wbDone = true ∧ u.mem = s.mem)) ∧
    (∀ k r la va n e, is .ending → t.kind = 0 → t.wbDone = false → t.cores = [k] → (s.w.core k).regions = [r] →
      t.boundLines (s.w.core k) r = [(la, va, n)] → (s.w.core k).poison = [] → (s.w.core k).courses = [] → s.w.softErrs = [] → la + n ≤ 2 ^ 21 → 0 < n → va % 4096 + n ≤ 4096 →
      t.runs.find? (fun x => x.covers va) = some e →
      ((s.w.die (homeOf s.w.hub e.place e.home (e.pa va))).up = true → stands (.boundWriteback id) .ending (fun y u =>
        y.wbDone = true ∧ (∀ i < n, u.mem.byte .glb (e.pa va + i) = s.mem.byte .spd (k * 2 ^ 21 + la + i)) ∧
        SameBut s.mem u.mem [(.glb, e.pa va, n)])) ∧
      ((s.w.die (homeOf s.w.hub e.place e.home (e.pa va))).up = false → stands (.boundWriteback id) .ending (fun y u =>
        y.wbDone = true ∧ u.mem = s.mem))) ∧
    (∀ pa home, is .ending → t.wbDone = true → t.crecPa = some (pa, home) → (s.w.die home).up = true →
      stands (.completionRecordWrite id) .closed (fun y u => free u ∧ y.wend = s.w.wtc ∧
        SameBut s.mem u.mem [(.glb, pa, 128)] ∧ ∃ r, IsNumber u.mem .glb pa 128 r ∧ r % 4 = t.kind % 4 ∧
          r / 2 ^ 8 % 2 ^ 8 = t.code % 2 ^ 8 ∧ r / 2 ^ 16 % 2 ^ 8 = t.vcode % 2 ^ 8 ∧ r / 2 ^ 32 % 2 ^ 32 = t.no % 2 ^ 32 ∧
          r / 2 ^ 64 % 2 ^ 16 = t.ten % 2 ^ 16 ∧ r / 2 ^ 80 % 2 ^ 16 = t.preempts % 2 ^ 16 ∧
          r / 2 ^ 128 % 2 ^ 64 = t.wstart % 2 ^ 64 ∧ r / 2 ^ 192 % 2 ^ 64 = s.w.wtc % 2 ^ 64 ∧
          r / 2 ^ 256 % 2 ^ 64 = t.ttcEnd % 2 ^ 64 ∧ r / 2 ^ 896 % 2 ^ 64 = t.info % 2 ^ 64)) ∧
    (is .ending → t.wbDone = true → (∀ c, t.crecPa = some c → (s.w.die c.2).up = false) →
      stands (.completionRecordWrite id) .closed (fun _ u => free u ∧ u.mem = s.mem ∧ u.w.hub.seq = (s.w.hub.seq + 1) % 2 ^ 32)) ∧
    (is .ending → t.kind ≠ 0 → t.wbDone = false → stands (.kill id) .ending (fun y u => y.wbDone = true ∧ y.kind = t.kind ∧
      free u ∧ ∀ sp a, sp ≠ .glb → u.mem.byte sp a = s.mem.byte sp a)) ∧
    (heard → s.w.taskBy id = some t → t.stage ∈ [.queued, .admitted, .resident, .placed, .filled] →
      stands (asked 0) .ending (fun y u => y.kind = 3 ∧ y.code = 0 ∧ u.mem = s.mem)) ∧
    (heard → is .run → isTaskOf (s.w.gang t.gid) t = true → stands (asked 0) .ending (fun y u => y.kind = 3 ∧ y.code = 1 ∧
      (u.w.gang t.gid).stat = .ended ∧ u.mem = s.mem)) ∧
    (heard → is .saved → stands (asked 0) .ending (fun y u => y.kind = 3 ∧ y.code = 1 ∧ u.mem = s.mem)) ∧
    (heard → s.w.taskBy id = some t → t.stage = .ending ∨ t.stage = .closed → exec (asked 0) s = .next s) ∧
    (∀ n, n ≠ 0 ∨ s.w.hub.mailOpen = false → ∃ u : State, exec (asked n) s = .next u ∧ u.mem = s.mem ∧
      u.w.hub.tasks = s.w.hub.tasks ∧ u.w.gangs = s.w.gangs ∧ u.w.hub.out = s.w.hub.out ++ [.error])

/-- A running gang with a request is held as it comes past a yield point. Pre-emption takes a held gang that has a save area, and
here nothing in flight, off its cores with its whole context. Resumption gives it back on the same cores after a restart gap, a
pending wait held again: where all courses are healthy, each core is the saved one but for what belongs to the unit, its array with
it, its program counter and loops as its sequencer record says (RSTPC and the trap registers come back too, the model's choice of
log 44). A record changed to a depth above 6 or more than 11 cycles owed makes its next bundle misdirected, a part that fails its
check ends the task with SAVEBAD. A debug halt by tenant 0 stops the gangs of its scope, and a release starts them after a restart
gap, the halted cycles counted at the clock that they had (R10, R99, R122, R269, R270, R271, R274, R357, R360). -/
def Obligations.PreemptionAndDebug : Prop :=
  ∀ (s : State) (t : Task) (v : Saved) (id gid : Nat),
    let g := s.w.gang gid
    let stands (ins : Instr) (st : Stage) (p : Task → State → Prop) : Prop := ∃ (u : State) (y : Task),
      exec ins s = .next u ∧ y ∈ u.w.hub.tasks ∧ y.order = t.order ∧ y.stage = st ∧ p y u
    let other (u : State) : Prop := ∀ j, j ≠ gid → u.w.gang j = s.w.gang j
    let saved : Prop := s.w.taskBy id = some t ∧ t.stage = .saved ∧ t.saved = some v ∧ s.w.canResume v = true
    let seqBytes (j : Nat) : List Byte := s.readRuns t.runs (t.save + 4194304 * j) 112
    let head (j : Nat) : Nat := leNat ((seqBytes j).take 16)
    let heard : Prop := s.w.hub.mailOpen = true
    let halt (n : Nat) (sc : DbgScope) : Instr := .debugHalt { from_ := n, arg := sc }
    let release (n : Nat) (sc : DbgScope) : Instr := .debugRelease { from_ := n, arg := sc }
    let turned (ins : Instr) : Prop := ∃ u : State, exec ins s = .next u ∧ u.mem = s.mem ∧ u.w.gangs = s.w.gangs ∧
      u.w.cores = s.w.cores ∧ u.w.hub.out = s.w.hub.out ++ [.error]
    let whole : Prop := ∀ x ∈ v.cores, (s.w.core x.1).courses = []
    (s.w.taskOfGang gid = some t → t.save ≠ 0 → g.live = true →
      ∃ u : State, exec (.preemptRequest gid) s = .next u ∧ u.mem = s.mem ∧ u.w.gang gid = { g with preempt := true } ∧
        other u ∧ ∀ j, u.w.core j = s.w.core j) ∧
    (∀ l since, s.w.taskOfGang gid = some t → g.live = true → g.preempt = true → g.dbg = false → g.stat = .held l since →
      (∀ f ∈ s.w.flights, f.gang ≠ gid) →
      stands (.preemptStop gid) .saved (fun y u => y.preempts = t.preempts + 1 ∧ (u.w.gang gid).live = false ∧
        (∀ k ∈ t.cores, (s.w.core k).gang = some gid → (u.w.core k).gang = none) ∧
        (∀ sp a, sp ≠ .glb → u.mem.byte sp a = s.mem.byte sp a) ∧
        ∃ x, y.saved = some x ∧ x.gang = g ∧ x.cores = t.cores.map (fun k => (k, (s.w.countHeld gid).core k)) ∧
          x.spd = t.cores.map (fun k => (k, slice s.mem.spd (k * 2 ^ 21) (2 ^ 21))) ∧
          x.mortar = t.cores.map (fun k => (k, slice s.mem.mortar (k * 2 ^ 19) (2 ^ 19))) ∧
          x.isp = t.cores.map (fun k => (k, slice s.mem.isp (k * 2 ^ 18) (2 ^ 18))))) ∧
    (saved → firstBad (s.partCrcs t) v.crcs 0 = none → (v.cores.map (·.1)).Nodup →
      stands (.preemptResume id) .run (fun _ u => (u.w.gang t.gid).live = true ∧ (u.w.gang t.gid).ttc = v.gang.ttc ∧
        (∀ x ∈ v.cores, (u.w.core x.1).ctx.sregs = x.2.ctx.sregs ∧ (u.w.core x.1).ctx.vregs = x.2.ctx.vregs ∧
          (u.w.core x.1).ctx.preds = x.2.ctx.preds ∧ (u.w.core x.1).ctx.fpflags = x.2.ctx.fpflags ∧
          (u.w.core x.1).checkers = []) ∧
        (∀ j x, v.cores[j]? = some x → seqBytes j = seqRecord x.2.ctx →
          (u.w.core x.1).ctx.loops = x.2.ctx.loops ∧ (u.w.core x.1).ctx.seq.pc = x.2.ctx.seq.pc) ∧
        (∀ j x, v.cores[j]? = some x → seqBytes j ≠ seqRecord x.2.ctx →
          6 < head j / 2 ^ 16 % 8 ∨ 11 < head j / 2 ^ 19 % 16 →
          (u.w.core x.1).ctx.seq.bad = some (head j % 2 ^ 16, head j % 2 ^ 16)) ∧
        (∀ k l, v.spd = [(k, l)] → canon l = true → (∀ e ∈ l, k * 2 ^ 21 ≤ e.1 ∧ e.1 < (k + 1) * 2 ^ 21) →
          ∀ i < 2 ^ 21, u.mem.byte .spd (k * 2 ^ 21 + i) = cellAt l (k * 2 ^ 21 + i)))) ∧
    (saved → firstBad (s.partCrcs t) v.crcs 0 = none → (v.cores.map (·.1)).Nodup → (v.arrays.map (·.die)).Nodup → whole →
      stands (.preemptResume id) .run (fun _ u =>
        u.w.flights = s.w.flights ∧
        (u.w.gang t.gid = { v.gang with
          live := true, preempt := false, stat := (u.w.gang t.gid).stat, domCls := s.w.classFor t.cores,
          doms := t.cores.map s.w.domOf, domNext := [], half := (u.w.gang t.gid).half, khz := (u.w.gang t.gid).khz,
          why := (u.w.gang t.gid).why, stretch := (u.w.gang t.gid).stretch, nextAt := s.w.now + 8 * (u.w.gang t.gid).period }) ∧
        (∀ l since, v.gang.stat = .held l since → (u.w.gang t.gid).stat = if l = [] then .running else .held l s.w.now) ∧
        (v.gang.stat = .running → (u.w.gang t.gid).stat = .running) ∧
        (∀ x ∈ v.cores, u.w.core x.1 = { x.2 with
          ctx := (u.w.core x.1).ctx, courses := [], scanPos := (s.w.core x.1).scanPos, outOfPlace := (s.w.core x.1).outOfPlace,
          breakpoint := (s.w.core x.1).breakpoint, dws := (s.w.core x.1).dws, checkers := [], win := (u.w.core x.1).win } ∧
          (u.w.core x.1).ctx = { x.2.ctx with
            seq := (u.w.core x.1).ctx.seq, loops := (u.w.core x.1).ctx.loops, evc := (u.w.core x.1).ctx.evc,
            evcsel := (u.w.core x.1).ctx.evcsel } ∧
          ∀ j, fget x.2.ctx.evcsel 0 j % 64 ≠ 0x0B → fget (u.w.core x.1).ctx.evc 0 j = fget x.2.ctx.evc 0 j ∧
            fget (u.w.core x.1).ctx.evcsel 0 j = fget x.2.ctx.evcsel 0 j) ∧
        (∀ a ∈ v.arrays, (u.w.die a.die).arrayGang = some t.gid ∧ (u.w.die a.die).tiles = a.tiles ∧
          (u.w.die a.die).tshape = a.tshape ∧ (u.w.die a.die).shapes = a.shapes ∧ (u.w.die a.die).lease = a.lease ∧
          (u.w.die a.die).streamEnd = a.streamEnd ∧ (u.w.die a.die).mcfgAt = a.mcfgAt) ∧
        (∀ k l, v.mortar = [(k, l)] → canon l = true → (∀ e ∈ l, k * 2 ^ 19 ≤ e.1 ∧ e.1 < (k + 1) * 2 ^ 19) →
          ∀ i < 2 ^ 19, u.mem.byte .mortar (k * 2 ^ 19 + i) = cellAt l (k * 2 ^ 19 + i)) ∧
        (∀ k l, v.isp = [(k, l)] → canon l = true → (∀ e ∈ l, k * 2 ^ 18 ≤ e.1 ∧ e.1 < (k + 1) * 2 ^ 18) →
          ∀ i < 2 ^ 18, u.mem.byte .isp (k * 2 ^ 18 + i) = cellAt l (k * 2 ^ 18 + i)))) ∧
    (∀ now, g.stat = .running → g.preempt = true → (g.advance true now).stat = .held [] now ∧
      (g.advance true now).ttc = g.ttc + 1) ∧
    (∀ now, (g.advance false now).stat = g.stat ∧ (g.advance false now).ttc = g.ttc + 1) ∧
    (∀ k, saved → firstBad (s.partCrcs t) v.crcs 0 = some k → stands (.preemptResume id) .ending (fun y u =>
      y.kind = 2 ∧ y.code = 32 ∧ u.mem = s.mem ∧ ∀ j, u.w.core j = s.w.core j)) ∧
    (heard → g.live = true → g.dbg = false → ∃ u : State, exec (halt 0 (.gang gid)) s = .next u ∧ u.mem = s.mem ∧
      u.w.gang gid = { g with dbg := true, dbgSince := s.w.now } ∧ other u ∧ ∀ j, u.w.core j = s.w.core j) ∧
    (∀ d k, heard → g.live = true → k ∈ g.members → k / 8 = d → ∃ u : State, exec (halt 0 (.die d)) s = .next u ∧ u.mem = s.mem ∧
      (u.w.gang gid).dbg = true ∧ (u.w.gang gid).ttc = g.ttc ∧ ∀ j, u.w.core j = s.w.core j) ∧
    (heard → g.live = true → g.dbg = true → ∃ u : State, exec (release 0 (.gang gid)) s = .next u ∧ u.mem = s.mem ∧
      (u.w.gang gid).dbg = false ∧ (u.w.gang gid).ttc = g.ttc ∧
      (u.w.gang gid).nextAt = max g.nextAt s.w.now + 8 * (u.w.gang gid).period ∧
      fget (u.w.gang gid).thr 0 6 = fget g.thr 0 6 + (s.w.now - g.dbgSince) * g.khz / 10 ^ 12 ∧ other u ∧
      ∀ j, (u.w.core j).ctx = { (s.w.core j).ctx with evc := (u.w.core j).ctx.evc, evcsel := (u.w.core j).ctx.evcsel }) ∧
    (heard → g.live = false → exec (halt 0 (.gang gid)) s = .next s) ∧
    (∀ n sc, n ≠ 0 ∨ s.w.hub.mailOpen = false → turned (halt n sc) ∧ turned (release n sc))

/-! ## Power, clocks and firmware -/

/-- Class changes, each of which takes effect in its turn, at a yield point or after its own millisecond, limiter samples, a lost phase, thermal trips, undervoltage retreats
of a domain whose corrected errors in this millisecond are over its threshold, and the writes that configure clusters and
domains (R80, R348, R349, R350, R352, R353, R354, R372, R373; the threshold is free, log 54, and so is the moment when a write
reaches a gang, log 55). -/
def Obligations.PowerActions : Prop :=
  ∀ (s : State) (gid n i die sensor dom : Nat) (v : Word) (d : BitVec 16),
    let g := s.w.gang gid
    let r := s.w.reg n
    let same (u : State) : Prop := u.mem = s.mem ∧ ∀ j, u.w.core j = s.w.core j
    let sampled (x : Reg) : Prop := ∃ u : State, exec (.limiterSample n i) s = .next u ∧ same u ∧ u.w.reg n = x ∧
      ∀ j, j ≠ n → u.w.reg j = s.w.reg j
    let takes (ins : Instr) (x : ClassChange) (l : List ClassChange) : Prop := ∃ u : State, exec ins s = .next u ∧ same u ∧
      u.w.gang gid = { g with domCls := x.cls, doms := x.doms, domNext := l } ∧ ∀ j, j ≠ gid → u.w.gang j = s.w.gang j
    let ahead := match g.domNext.getLast? with | some x => (x.cls, x.doms) | none => (g.domCls, g.doms)
    let z := s.w.clCfg n
    (∀ l x, g.domNext = l ++ [x] → takes (.classChangeApply gid) x []) ∧
    (∀ x l, g.domNext = x :: l → x.since + 10 ^ 12 ≤ s.w.now → (∀ y ∈ l, s.w.now < y.since + 10 ^ 12) →
      takes (.classChangeTimeout gid) x l) ∧
    ((∀ x ∈ g.domNext, s.w.now < x.since + 10 ^ 12) → exec (.classChangeTimeout gid) s = .next s) ∧
    (n < 4 → i < 2 ^ 10 → r.ilim < i → sampled { r with imeas := i, step := min (r.step + 1) 12, low := 0 }) ∧
    (n < 4 → i < 2 ^ 10 → i ≤ r.ilim → 10 * i < 9 * r.ilim → r.low < 7 → sampled { r with imeas := i, low := r.low + 1 }) ∧
    (n < 4 → i < 2 ^ 10 → i ≤ r.ilim → 10 * i < 9 * r.ilim → r.low = 7 →
      sampled { r with imeas := i, step := r.step - 1, low := 0 }) ∧
    (n < 4 → i < 2 ^ 10 → i ≤ r.ilim → 9 * r.ilim ≤ 10 * i → sampled { r with imeas := i, low := 0 }) ∧
    (n < 4 → ∃ u : State, exec (.phaseLoss n) s = .next u ∧ same u ∧ u.w.hub.seq = (s.w.hub.seq + 1) % 2 ^ 32 ∧
      u.w.reg n = { r with phok := r.phok - 1, ilim := min r.ilim (18 * (r.phok - 1)), derated := true }) ∧
    (∃ u : State, exec (.thermalTrip die sensor) s = .next u ∧ same u ∧ (u.w.die die).trip = true ∧
      (u.w.die die).tripSince = s.w.now ∧
      ((s.w.die die).trip = false → u.w.hub.seq = (s.w.hub.seq + 1) % 2 ^ 32 ∧
        ∃ e ∈ u.w.hub.log, e.cls = 3 ∧ e.die = die ∧ e.wtc = s.w.wtc ∧ e.data = sensor % 512 + 512) ∧
      ((s.w.die die).trip = true → u.w.hub = s.w.hub)) ∧
    ((s.w.die die).trip = true → (s.w.die die).tripSince + 10 ^ 12 ≤ s.w.now → ∃ u : State,
      exec (.thermalTripEnd die sensor) s = .next u ∧ same u ∧ (u.w.die die).trip = false ∧ u.w.hub.seq = (s.w.hub.seq + 1) % 2 ^ 32) ∧
    ((s.w.die die).trip = false → exec (.thermalTripEnd die sensor) s = .next s) ∧
    (s.w.overRetreat dom = false → exec (.undervoltRetreat dom) s = .next s) ∧
    (n < 32 → z.dom = dom → s.w.overRetreat dom = true → ∃ u : State, exec (.undervoltRetreat dom) s = .next u ∧ same u ∧
      (u.w.clCfg n).vstep = min (z.vstep + 1) 255 ∧ (u.w.clCfg n).retr = true ∧ (u.w.clCfg n).dom = dom ∧
      (u.w.clCfg n).reg = z.reg ∧ fget u.w.hub.uvUntil 0 dom = s.w.now + 10 ^ 14 ∧
      ∀ m, (s.w.clCfg m).dom ≠ dom → u.w.clCfg m = s.w.clCfg m) ∧
    (n < 32 → v.toNat % 4 = z.reg ∨ s.w.clusterUsed n = false →
      fget s.w.hub.uvUntil 0 z.dom ≤ s.w.now ∨ z.vstep ≤ v.toNat / 2 ^ 8 % 2 ^ 8 →
      ∃ u : State, exec (.clcfgWrite n v) s = .next u ∧ same u ∧ (∀ m, m ≠ n → u.w.clCfg m = s.w.clCfg m) ∧
        u.w.clCfg n = { reg := v.toNat % 4, dom := v.toNat / 4 % 8, vstep := v.toNat / 2 ^ 8 % 2 ^ 8, retr := z.retr && v.getLsbD 16 }) ∧
    (n < 32 → v.toNat % 4 ≠ z.reg → s.w.clusterUsed n = true → ∃ u : State, exec (.clcfgWrite n v) s = .next u ∧ same u ∧
      u.w.hub.seq = (s.w.hub.seq + 1) % 2 ^ 32 ∧ ∀ m, u.w.clCfg m = s.w.clCfg m) ∧
    (∃ u : State, exec (.domclsWrite d) s = .next u ∧ same u ∧ u.w.hub.domcls = d.toNat ∧
      (g.live = true → s.w.gangs = [(gid, g)] → (u.w.gang gid).domCls = g.domCls ∧ (u.w.gang gid).doms = g.doms ∧
        (u.w.gang gid).domNext = if ahead = (u.w.classFor g.members, g.members.map s.w.domOf) then g.domNext
          else g.domNext ++ [{ cls := u.w.classFor g.members, doms := g.members.map s.w.domOf, since := s.w.now }]))

/-- Heartbeats unfreeze the frequency table and lift the safe table at the third in a row; a missed one freezes it, ten
milliseconds put the safe table in force; a frozen ceiling only falls; a cluster's energy is shared by the weights issued;
an image that replaces one which failed at power-on lets bring-up go on with its scan once both are in order; firmware images and
attestations use a leaf of 2^20, of tenant 0 alone; the identity is of part 48, stepping B0 (R1, R3, R353,
R355, R356, R357, R360, R371, R375, R376, R377). -/
def Obligations.FirmwareActions : Prop :=
  ∀ (s : State) (rel : Bool) (dom mhz gid k cluster nj array version leaf image sig from_ : Nat) (nonce : BitVec 256),
    let h := s.w.hub
    let f := s.w.firmware rel
    let clk := s.w.firmware false
    let sup := s.w.firmware true
    let same (u : State) : Prop := u.mem = s.mem ∧ (∀ j, u.w.core j = s.w.core j) ∧ u.w.gangs = s.w.gangs
    let accepts : Prop := Config.signatureOk image sig = true ∧ clk.leaf < leaf ∧ sup.leaf < leaf ∧ leaf < 2 ^ 20 ∧
      f.minVersion ≤ version
    let beats := if clk.beat + 10 ^ 12 < s.w.now then 1 else h.goodBeats + 1
    let cs := allCores.filter (fun j => clusterOf j == cluster)
    let total := (cs.map (fun j => (s.w.core j).dws)).sum
    let measured (n : Nat) : Prop := ∃ u : State, exec (.enmeasUpdate cluster ⟨nj, array⟩) s = .next u ∧ u.mem = s.mem ∧
      (∀ j, u.w.core j = if j ∈ cs then { (s.w.core j) with dws := 0 } else s.w.core j) ∧
      u.w.gang gid = { (s.w.gang gid) with enmeas := ((s.w.gang gid).enmeas + n) % 2 ^ 64 } ∧
      ∀ j, j ≠ gid → u.w.gang j = s.w.gang j
    let alone : Prop := k ∈ cs ∧ (s.w.core k).gang = some gid ∧ ∀ j ∈ cs, j ≠ k → (s.w.core j).gang = none
    (∃ u : State, exec (.heartbeat false) s = .next u ∧ same u ∧ u.w.firmware false = { clk with beat := s.w.now, updating := false } ∧
      u.w.hub.frozen = false ∧ u.w.hub.goodBeats = beats ∧ (u.w.hub.safe = true ↔ h.safe = true ∧ beats < 3)) ∧
    (∃ u : State, exec (.heartbeat true) s = .next u ∧ same u ∧ u.w.firmware true = { sup with beat := s.w.now, updating := false } ∧
      u.w.firmware false = clk ∧ u.w.hub.frozen = h.frozen ∧ u.w.hub.safe = h.safe) ∧
    (clk.beat + 10 ^ 12 < s.w.now → ∃ u : State, exec .heartbeatMiss s = .next u ∧ same u ∧ u.w.hub.frozen = true ∧
      u.w.hub.goodBeats = 0 ∧ u.w.hub.freq = h.freq) ∧
    (s.w.now ≤ clk.beat + 10 ^ 12 → exec .heartbeatMiss s = .next s) ∧
    (clk.beat + 10 ^ 13 ≤ s.w.now → clk.updating = false → ∃ u : State, exec .safeTable s = .next u ∧ same u ∧
      u.w.hub.safe = true ∧ u.w.hub.goodBeats = 0) ∧
    (s.w.now < clk.beat + 10 ^ 13 → exec .safeTable s = .next s) ∧
    (∃ u : State, exec (.freqTableWrite dom mhz) s = .next u ∧ same u ∧
      u.w.ceiling dom = (if h.frozen then min (s.w.ceiling dom) mhz else min mhz 3600) ∧
      ∀ e, e ≠ dom → u.w.ceiling e = s.w.ceiling e) ∧
    (alone → 16 ≤ cluster ∨ (s.w.die (cluster / 4)).arrayGang = none → 0 < total →
      measured (nj * (s.w.core k).dws / total)) ∧
    (alone → 16 ≤ cluster ∨ (s.w.die (cluster / 4)).arrayGang = none → total = 0 → measured (nj / cs.length)) ∧
    ((∀ j ∈ cs, (s.w.core j).gang = none) → cluster < 16 → (s.w.die (cluster / 4)).arrayGang = some gid → measured array) ∧
    (sup.beat + 10 ^ 14 ≤ s.w.now → ∃ u : State, exec .reliabilityRestart s = .next u ∧ same u ∧
      (u.w.firmware true).beat = s.w.now ∧ u.w.hub.seq = (h.seq + 1) % 2 ^ 32) ∧
    (s.w.now < sup.beat + 10 ^ 14 → exec .reliabilityRestart s = .next s) ∧
    (accepts → ∃ u : State, exec (.firmwareUpdate ⟨0, rel⟩ version leaf image sig) s = .next u ∧ u.mem = s.mem ∧ u.w.gangs = s.w.gangs ∧
      u.w.firmware rel = { f with version := version, leaf := leaf, image := image, updating := true } ∧
      u.w.firmware (!rel) = s.w.firmware (!rel) ∧ (u.w.hub.frozen = true ↔ h.frozen = true ∨ rel = false) ∧
      (∀ b, b ∈ u.w.hub.bootBad ↔ b ∈ h.bootBad ∧ b ≠ rel) ∧
      (u.w.hub.mailOpen = true ↔ h.mailOpen = true ∨ ∀ b ∈ h.bootBad, b = rel) ∧
      (h.mailOpen = true ∨ (∃ b ∈ h.bootBad, b ≠ rel) → same u ∧ u.w.dies = s.w.dies ∧ u.w.hub.seq = (h.seq + 1) % 2 ^ 32) ∧
      ∀ j, u.w.core j = { (s.w.core j) with outOfPlace := (u.w.core j).outOfPlace }) ∧
    (¬accepts → ∃ u : State, exec (.firmwareUpdate ⟨0, rel⟩ version leaf image sig) s = .next u ∧ same u ∧
      u.w.hub.fw = h.fw ∧ u.w.hub.frozen = h.frozen ∧ u.w.hub.seq = (h.seq + 1) % 2 ^ 32) ∧
    (h.leaves < 2 ^ 20 → ∃ (u : State) (y : Nat), exec (.attestationRequest ⟨0, nonce⟩) s = .next u ∧ same u ∧
      u.w.hub.leaves = h.leaves + 1 ∧ u.w.hub.out = h.out ++ [.identity 48 0xB0 ((List.range 9).map Config.serial)
        [clk.version, sup.version] [Config.digest clk.image, Config.digest sup.image] nonce (h.leaves + 1) y]) ∧
    (2 ^ 20 ≤ h.leaves → ∃ u : State, exec (.attestationRequest ⟨0, nonce⟩) s = .next u ∧ same u ∧ u.w.hub.leaves = h.leaves ∧
      u.w.hub.out = h.out ++ [.status 1]) ∧
    (from_ ≠ 0 → exec (.attestationRequest ⟨from_, nonce⟩) s = .next (s.withWorld (s.w.answer .error)) ∧
      exec (.firmwareUpdate ⟨from_, rel⟩ version leaf image sig) s = .next (s.withWorld (s.w.answer .error)))

/-! ## Bricks, errors and scans -/

/-- Retired and failed bricks degrade or lose a course and poison what cannot be rebuilt; a brick is retired only when it is worn
out, or was when its retirement began to wait; retirements, hard failures among them, and clearances wait while the reliability image
is down; errors that arise are held where they are, a tile
of the ring among these places (R329, log 37), a second bit of a 32-bit word making a double error of it (R172; which bits of a register
share a code is the model's choice of log 76), or invalidate an area of the instruction store or the handler store; repair and clearance bring
units back; a failed scan takes a unit out and makes its unconfirmed tasks suspect, and a passed one confirms a task whose units
are idle (R172, R178, R180, R181, R329, R340, R343, R352, R354, R371; what the firmware's own scans are is the model's choice of log 40). -/
def Obligations.FaultsAndScans : Prop :=
  ∀ (s : State) (k course brick line word n id pa home : Nat) (t : Task),
    let c := s.w.core k
    let x := c.course course
    let addr : Prop := course < 32 ∧ brick < 4
    let closed : Prop := s.w.taskBy id = some t ∧ t.stage = .closed ∧ t.susp = false ∧ t.conf = false ∧ t.ran = true
    let logged (u : State) : Prop := u.w.hub.seq = (s.w.hub.seq + 1) % 2 ^ 32
    let bricked (u : State) (l : List Nat) : Prop := logged u ∧ ((u.w.core k).course course).bricks = l ∧
      (u.w.core k).ctx = c.ctx ∧ ∀ j, j ≠ k → u.w.core j = s.w.core j
    let waits (i : Instr) : Prop := ∃ u : State, exec i s = .next u ∧ u.mem = s.mem ∧ i ∈ u.w.hub.relWait ∧
      ∀ j, u.w.core j = s.w.core j
    let mine (l : Nat) : Prop := ∃ j < 64, l = Nat.xor course c.xm * 64 + j
    let retire : Instr := .brickRetire k course brick
    let worn : Prop := s.w.wornOut k course brick = true ∨ retire ∈ s.w.hub.relWait
    let dropped (i : Instr) : Prop := exec i s = .next (s.withWorld (s.w.relDone i))
    let noted (site : ErrSite) (dbl : Bool) : Prop :=
      ((∀ e ∈ s.w.softErrs, e.1 = site → e.2.2 / 32 ≠ n / 32) → ∃ u : State, exec (.softError site dbl n) s = .next u ∧ u.mem = s.mem ∧
        u.w.softErrs = s.w.softErrs ++ [(site, dbl, n)] ∧ ∀ j, u.w.core j = s.w.core j)
    let again (site : ErrSite) : Prop := ∀ m d, (site, d, m) ∈ s.w.softErrs → m / 32 = n / 32 → m ≠ n →
      ∃ u : State, exec (.softError site false n) s = .next u ∧ u.mem = s.mem ∧ (∀ j, u.w.core j = s.w.core j) ∧
        ∀ e, e ∈ u.w.softErrs ↔ e = (site, true, n) ∨ (e ∈ s.w.softErrs ∧ ¬(e.1 = site ∧ e.2.2 / 32 = n / 32))
    (addr → x.bricks = [] → s.w.relDown = false → worn → ∃ u : State,
      exec retire s = .next u ∧ bricked u [brick] ∧ retire ∉ u.w.hub.relWait ∧ (u.w.core k).poison = c.poison ∧
      (∀ l, mine l → l ∉ (u.w.core k).stale) ∧ ∀ sp a, sp ≠ .mortar → u.mem.byte sp a = s.mem.byte sp a) ∧
    (addr → x.bricks ≠ [] → worn → s.w.relDown = false → dropped retire) ∧
    (addr → ¬worn → exec retire s = .next s) ∧
    (addr → s.w.relDown = true → (worn → waits retire) ∧ waits (.brickHardFail k course brick) ∧
      waits (.courseLost k course brick)) ∧
    (s.w.relDown = true → waits (.unitClearance (.core k n))) ∧
    (addr → s.w.relDown = false → x.bricks = [] → ∃ u : State, exec (.brickHardFail k course brick) s = .next u ∧ bricked u [brick] ∧
      u.mem = s.mem ∧ (∀ l, mine l → l ∈ c.stale → l * 4 + brick ∈ (u.w.core k).poison) ∧
      ∀ l, mine l → l ∉ (u.w.core k).stale) ∧
    (addr → s.w.relDown = false → x.bricks ≠ [] → brick ∉ x.bricks → ∀ i ∈ [Instr.courseLost k course brick,
      .brickHardFail k course brick], ∃ u : State, exec i s = .next u ∧ bricked u (x.bricks ++ [brick]) ∧ u.mem = s.mem ∧
      ∀ l, mine l → ∀ y ∈ x.bricks ++ [brick], l * 4 + y ∈ (u.w.core k).poison) ∧
    (addr → s.w.relDown = false → x.bricks = [] ∨ brick ∈ x.bricks → dropped (.courseLost k course brick)) ∧
    (addr → x.bricks.length = 1 → brick ∉ x.bricks → ∃ u : State, exec (.courseFailing k course brick) s = .next u ∧
      bricked u x.bricks ∧ ((u.w.core k).course course).failing = true) ∧
    (c.gang = none → course < 32 → ∃ u : State, exec (.deviceRepair (.course k course)) s = .next u ∧ u.mem = s.mem ∧
      (u.w.core k).course course = Course.healthy ∧ ∀ j, j ≠ k → u.w.core j = s.w.core j) ∧
    (∀ r, r < 4 → ∃ u : State, exec (.deviceRepair (.phases r)) s = .next u ∧ u.mem = s.mem ∧
      u.w.reg r = { (s.w.reg r) with phok := 36 }) ∧
    (∀ dbl, noted (.sreg k n) dbl ∧ noted (.vreg k n) dbl ∧ noted (.row k line) dbl) ∧
    again (.sreg k n) ∧ again (.vreg k n) ∧ again (.row k line) ∧
    (∃ u : State, exec (.softError (.word k word) true n) s = .next u ∧ u.mem = s.mem ∧
      (word < 4096 → (u.w.core k).resInvalid = true) ∧
      (4096 ≤ word → word < 34816 → (u.w.core k).ctx.halfA = 5 ∧ (u.w.core k).ctx.halfB = c.ctx.halfB) ∧
      (34816 ≤ word → (u.w.core k).ctx.halfB = 5 ∧ (u.w.core k).ctx.halfA = c.ctx.halfA)) ∧
    noted (.word k word) false ∧
    (∃ u : State, exec (.softError (.handlerWord k word) true n) s = .next u ∧ u.mem = s.mem ∧
      u.w.core k = { c with hstInvalid := true } ∧ ∀ j, j ≠ k → u.w.core j = s.w.core j) ∧
    (∀ dbl, (s.w.slot line).full = true → noted (.slot line) dbl) ∧
    ((s.w.slot line).full = false → exec (.softError (.slot line) true n) s = .next s) ∧
    (c.courses = [] → ∃ u : State, exec (.softError (.mortar k line) true n) s = .next u ∧ u.mem = s.mem ∧
      line ∈ (u.w.core k).stale) ∧
    (s.w.relDown = false → ∃ u : State, exec (.unitClearance (.core k n)) s = .next u ∧ u.mem = s.mem ∧
      u.w.core k = { c with outOfPlace := false } ∧ ∀ j, j ≠ k → u.w.core j = s.w.core j) ∧
    (∃ u : State, exec (.scanFail (.core k n)) s = .next u ∧ (u.w.core k).outOfPlace = true ∧ logged u ∧
      (t ∈ s.w.hub.tasks → .core k n ∈ t.used → t.conf = false → ∃ y ∈ u.w.hub.tasks, y.order = t.order ∧ y.susp = true)) ∧
    (closed → t.used.all s.w.unitIdle = false → exec (.scanConfirm id) s = .next s) ∧
    (closed → t.used.all s.w.unitIdle = true → t.crecPa = some (pa, home) → (s.w.die home).up = true →
      ∃ (u : State) (y : Task), exec (.scanConfirm id) s = .next u ∧ y ∈ u.w.hub.tasks ∧ y.order = t.order ∧ y.conf = true ∧
        (∀ x ∈ s.w.hub.tasks, x.order ≠ t.order → ∃ z ∈ u.w.hub.tasks, z.order = x.order ∧
          z.used = x.used.filter (fun e => !t.used.contains e)) ∧
        SameBut s.mem u.mem [(.glb, pa, 16)] ∧ ∃ r, IsNumber u.mem .glb pa 16 r ∧ r / 4 % 2 = 1 ∧ r % 4 = t.kind % 4)

/-! ## The host, management, the pod and resets -/

/-- Host requests to an open device: a put stores its bytes, a get returns them, an atomic of 8 bytes returns the old value (of a
32-bit form sign-extended, the model's choice of log 62), what R3 or R360 does not offer an error (log 72), poison and a home that is down answer as such; a post to the launch
window, or a swap there, answers its status and only status 0 queues, in this hub cycle and before every LAUNCH of it; `AMOFLAGS` is returned to tenant 0 and cleared; a queued record is read and checked when it is taken (the turn of which is the model's
choice of log 42) (R207, R263, R359, R360, R361, R362, R363). -/
def Obligations.HostRequests : Prop :=
  ∀ (s : State) (a n old from_ ten prio die id : Nat) (x : BitVec 128) (op : AmoOp) (v w addr : Word) (t : Task),
    let out (u : State) : List Answer := u.w.hub.out
    let replies (ins : Instr) (e : Answer) (p : State → Prop) : Prop := ∃ u : State, exec ins s = .next u ∧
      out u = out s ++ [e] ∧ (∀ j, u.w.core j = s.w.core j) ∧ u.w.gangs = s.w.gangs ∧ p u
    let same (u : State) : Prop := u.mem = s.mem
    let mail : Prop := s.w.hub.mailOpen = true
    let up (b : Nat) : Prop := (s.w.die (s.w.homeOfPa b)).up = true
    let clean (k : Nat) : Prop := ∀ b ∈ s.w.gpoison, b < a ∨ a + k ≤ b
    let size := amoBytes op
    let seen : Word := if size = 4 then (BitVec.ofNat 32 old).signExtend 64 else BitVec.ofNat 64 old
    let integer : Prop := op ≠ .faddF32 ∧ op ≠ .faddBf16
    let taken : Prop := s.w.hub.tasks.filter untaken = [t] ∧ s.w.taskBy id = some t
    let takes (st : Stage) (p : Task → State → Prop) : Prop := ∃ (u : State) (y : Task), exec (.priorityAging id) s = .next u ∧
      u.mem = s.mem ∧ (∀ j, u.w.core j = s.w.core j) ∧ y ∈ u.w.hub.tasks ∧ y.order = t.order ∧ y.stage = st ∧ p y u
    let turnedAway (code info : Nat) : Prop := takes .ending (fun y _ => y.kind = 1 ∧ y.code = code ∧ y.info = info)
    let number (r : Nat) : Nat := r / 2 ^ 1472 % 2 ^ 32
    let recorded (t : Nat) : Prop := s.w.tenRec t % 2 = 1
    let queued := s.w.queueLen ten prio
    let post : Instr := .launchWindowPost from_ ten prio addr
    (mail → a % 16 = 0 → a + 16 ≤ 0xFFF0000000000 → up a → replies (.hostPut ⟨from_, a⟩ [x]) (.data true []) (fun u =>
      IsNumber u.mem .glb a 16 x.toNat ∧ SameBut s.mem u.mem [(.glb, a, 16)])) ∧
    (mail → a % 16 = 0 → a + 16 ≤ 0xFFF0000000000 → ¬up a → replies (.hostPut ⟨from_, a⟩ [x]) (.data false []) same) ∧
    (mail → a % 16 ≠ 0 → replies (.hostPut ⟨from_, a⟩ [x]) .error same) ∧
    (mail → a % 16 = 0 → n % 16 = 0 → 16 ≤ n → n ≤ 256 → a + n ≤ 0xFFF0000000000 → clean n → (∀ i, i < n → up (a + i / 16 * 16)) →
      replies (.hostGet ⟨from_, a⟩ n) (.data true (s.mem.bytes .glb a n)) same) ∧
    (mail → a % 16 = 0 → n = 16 → a + n ≤ 0xFFF0000000000 → ¬clean n ∨ ¬up a → replies (.hostGet ⟨from_, a⟩ n) (.data false []) same) ∧
    (mail → integer → a % 8 = 0 → a + 8 ≤ 0xFFF0000000000 → up a → clean 8 → IsNumber s.mem .glb a size old →
      replies (.hostAtomic ⟨from_, a⟩ op v w) (.data true (leBytes 8 seen.toNat)) (fun u =>
        IsNumber u.mem .glb a size ((amoNew op old v w).1 % 2 ^ (8 * size)) ∧ SameBut s.mem u.mem [(.glb, a, size)])) ∧
    (mail → ¬integer ∨ a % 8 ≠ 0 → replies (.hostAtomic ⟨from_, a⟩ op v w) .error same) ∧
    (mail → prio < 8 → ten < 65536 → exec (.hostAtomic ⟨from_, 0xFFF0000000000 + 64 * ten + 8 * prio⟩ .swapI64 v w) s =
      exec (.launchWindowPost from_ ten prio v) s) ∧
    (¬mail → replies (.hostPut ⟨from_, a⟩ [x]) .error same ∧ replies (.hostGet ⟨from_, a⟩ n) .error same ∧
      replies (.hostAtomic ⟨from_, a⟩ op v w) .error same ∧ replies post .error same) ∧
    (mail → prio < 8 → from_ = ten ∨ from_ = 0 → ten ≠ 0 → recorded ten → addr.toNat % 256 = 0 → addr.toNat < 2 ^ 48 →
      queued < 64 → replies post (.status 0) (fun u => same u ∧ ∃ t : Task, u.w.hub.tasks = s.w.hub.tasks ++ [t] ∧
        t.stage = .queued ∧ t.ten = ten ∧ t.prio = prio ∧ t.addr = addr.toNat ∧ t.hubAt = s.w.now / 10 ^ 6 ∧ t.from_ = 0)) ∧
    (mail → prio < 8 → from_ = ten ∨ from_ = 0 → ten ≠ 0 → recorded ten → addr.toNat % 256 = 0 → addr.toNat < 2 ^ 48 →
      64 ≤ queued → replies post (.status 1) (fun u => same u ∧ u.w.hub.tasks = s.w.hub.tasks)) ∧
    (mail → from_ = ten ∨ from_ = 0 → ten ≠ 0 → recorded ten → addr.toNat % 256 ≠ 0 → replies post (.status 2)
      (fun u => same u ∧ u.w.hub.tasks = s.w.hub.tasks)) ∧
    (mail → from_ = ten ∨ from_ = 0 → ten = 0 ∨ ¬recorded ten → replies post (.status 3)
      (fun u => same u ∧ u.w.hub.tasks = s.w.hub.tasks)) ∧
    (mail → from_ ≠ ten → from_ ≠ 0 → replies post (.status 4) (fun u => same u ∧ u.w.hub.tasks = s.w.hub.tasks)) ∧
    (from_ ≠ 0 → replies (.amoflagsReadClear ⟨from_, die⟩ ten) .error (fun u => same u ∧ u.w.dies = s.w.dies)) ∧
    (mail → replies (.amoflagsReadClear ⟨0, die⟩ ten) (.data true (leBytes 8 (fget (s.w.die die).amoflags 0 ten))) (fun u => same u ∧
      fget (u.w.die die).amoflags 0 ten = 0 ∧ ∀ t, t ≠ ten → fget (u.w.die die).amoflags 0 t = fget (s.w.die die).amoflags 0 t)) ∧
    (∀ r, taken → s.peek t.ten t.addr = .ok r → recBad r = false → s.w.duplicate t (number r) = false →
      takes .queued (fun y _ => y.seen = true ∧ y.lrec = BitVec.ofNat 2048 r ∧ y.no = number r)) ∧
    (∀ r, taken → s.peek t.ten t.addr = .ok r → recBad r = true → turnedAway 14 0) ∧
    (∀ r, taken → s.peek t.ten t.addr = .ok r → recBad r = false → s.w.duplicate t (number r) = true → turnedAway 15 0) ∧
    (∀ c info, taken → s.peek t.ten t.addr = .fail c info → turnedAway c (if c = 1 then info else 0)) ∧
    (∀ ia va, taken → s.peek t.ten t.addr = .wait ia va → takes .queued (fun y u => y.s2wait = some (ia, va) ∧
      u.w.hub.faults = s.w.hub.faults ++ [(ia, va, t.order)]))

/-- Writes of the management processor: interleave sets while no lease names them, the registers of a core, a slot, a
regulator, a route, a port wheel; it writes the system registers that any level writes, and reads them all; an empty slot that an
accepted board needs keeps its owner (the model's choice of log 67); an interleave set keeps all four bits of a member of 8 to 15
(the model's choice of log 72); tenant records, deques, slots, keys and mirrors, for tenant 0 alone (R171, R197, R255, R315,
R352, R358, R359, R360, R365, R369, R374). -/
def Obligations.ManagementWrites : Prop :=
  ∀ (s : State) (k n ten id cap port addr from_ : Nat) (ccw b : Bool) (v : Word) (r : BitVec 384) (e : BitVec 128),
    let x := e.toNat
    let same (u : State) : Prop := u.mem = s.mem
    let does (ins : Instr) (p : State → Prop) : Prop := ∃ u : State, exec ins s = .next u ∧ same u ∧ p u
    let replies (ins : Instr) (a : Answer) (p : State → Prop) : Prop :=
      does ins (fun u => u.w.hub.out = s.w.hub.out ++ [a] ∧ (∀ j, u.w.core j = s.w.core j) ∧ p u)
    let mail : Prop := s.w.hub.mailOpen = true
    let refused (i : Instr) : Prop := exec i s = .next (s.withWorld (s.w.answer .error))
    let idle (t : Nat) : Prop := ∀ y ∈ s.w.hub.tasks, y.ten = t → y.stage = .closed
    let slot := s.w.slot ((if ccw then 1024 else 0) + n % 1024)
    let slotAfter (u : State) : Slot := u.w.slot ((if ccw then 1024 else 0) + n % 1024)
    let needed : Prop := slot.own = true ∧ s.w.spare ccw slot.ten = false
    let set (reg : Nat) (f : Core → Core) : Prop :=
      does (.registerWrite (.sys k reg) e) (fun u => u.w.core k = f (s.w.core k) ∧ u.w.dies = s.w.dies ∧ u.w.hub = s.w.hub)
    let named : Prop := ∃ t ∈ s.w.hub.tasks, ∃ y ∈ t.runs, y.place = if b then 1 else 0
    let setting := v.toNat % 2 + v.toNat / 2 ^ 4 % 2 ^ 32 * 2 ^ 4
    let key := fget (s.w.port port).keys KeyEntry.blank n
    let again (b i : Nat) : Nat := Nat.xor i (Nat.xor (s.w.core k).xm (x % 32) * 2 ^ b)
    (¬named → does (.isetWrite b v) (fun u => (if b then u.w.hub.isetb else u.w.hub.iseta) = setting ∧
      (if b then u.w.hub.iseta = s.w.hub.iseta else u.w.hub.isetb = s.w.hub.isetb))) ∧
    (named → exec (.isetWrite b v) s = .next s) ∧
    ((s.w.core k).gang = none → does (.registerWrite (.courseMap k) e) (fun u => u.w.core k = { (s.w.core k) with xm := x % 32 })) ∧
    ((s.w.core k).gang ≠ none → (s.w.core k).xm < 32 → s.Canonical → ∃ u : State, exec (.registerWrite (.courseMap k) e) s = .next u ∧
      (u.w.core k).xm = x % 32 ∧ (∀ i < 2 ^ 21, u.mem.byte .spd (k * 2 ^ 21 + again 16 i) = s.mem.byte .spd (k * 2 ^ 21 + i)) ∧
      (∀ i < 2 ^ 19, u.mem.byte .mortar (k * 2 ^ 19 + again 14 i) = s.mem.byte .mortar (k * 2 ^ 19 + i)) ∧
      SameBut s.mem u.mem [(.spd, k * 2 ^ 21, 2 ^ 21), (.mortar, k * 2 ^ 19, 2 ^ 19)] ∧
      (∀ l, again 6 l ∈ (u.w.core k).stale ↔ l ∈ (s.w.core k).stale) ∧
      (∀ r, again 8 r ∈ (u.w.core k).poison ↔ r ∈ (s.w.core k).poison) ∧ ∀ j, j ≠ k → u.w.core j = s.w.core j) ∧
    (n < 32 → ∃ y, y % 2 = (if (s.w.route n).valid then 1 else 0) ∧ y / 2 % 2 ^ 16 = (s.w.route n).ports % 2 ^ 16 ∧
      y / 2 ^ 17 % 2 ^ 10 = (s.w.route n).peer % 2 ^ 10 ∧ y / 2 ^ 32 % 2 ^ 16 = (s.w.route n).ten % 2 ^ 16 ∧
      y / 2 ^ 48 % 2 ^ 64 = (s.w.route n).key % 2 ^ 64 ∧ y / 2 ^ 112 = (s.w.route n).ref % 2 ^ 16 ∧
      replies (.registerWrite (.routeRead n) e) (.data true (leBytes 16 y)) (fun u => u.w.dies = s.w.dies)) ∧
    (port < 16 → n < 4096 → ∃ y, y / 2 ^ 96 = key.miss % 2 ^ 32 ∧ y / 2 ^ 32 % 2 ^ 64 = key.key % 2 ^ 64 ∧
      y % 2 = (if key.valid then 1 else 0) ∧
      replies (.registerWrite (.keyRead port n) e) (.data true (leBytes 16 y)) (fun u => u.w.dies = s.w.dies)) ∧
    does (.registerWrite (.trapVec k) e) (fun u => u.w.core k = { (s.w.core k) with trapvec := x % 4096 }) ∧
    set 0x10 (fun c => { c with ctx := { c.ctx with fpflags := x % 32 } }) ∧
    set 0x11 (fun c => { c with ctx := { c.ctx with fpctrl := x % 32 } }) ∧
    set 0x41 (fun c => { c with trappc := x % 2 ^ 16 }) ∧ set 0x40 (fun c => { c with trapvec := x % 4096 }) ∧
    ((s.w.core k).gang = none → set 0x30 (fun c => { c with xm := x % 32 })) ∧
    (n < 8 → does (.registerWrite (.sys k (0x88 + n)) e) (fun u => fget (u.w.core k).ctx.evc 0 n = x % 2 ^ 48)) ∧
    (n < 20 → isMx k = true → does (.registerWrite (.sys k (0x60 + n)) e) (fun u =>
      fget (u.w.die (k / 8)).tshape 0 n = x % 2 ^ 26 ∧ ∀ j, u.w.core j = s.w.core j)) ∧
    (∀ reg, replies (.registerWrite (.read k reg) e) (.data true (leBytes 8 (s.w.sysReg k (s.w.handling k) reg)))
      (fun u => u.w.dies = s.w.dies)) ∧
    (slot.full = false → ¬needed → does (.registerWrite (.slot ccw n) e) (fun u => (slotAfter u).own = e.getLsbD 0 ∧
      (slotAfter u).ten = x / 2 ^ 16 % 2 ^ 16 ∧ (slotAfter u).full = false)) ∧
    (slot.full = true ∨ needed → does (.registerWrite (.slot ccw n) e) (fun u => slotAfter u = slot)) ∧
    (n < 4 → x < 2 ^ 10 → x ≤ (s.w.reg n).ilim ∨ (s.w.reg n).phok = 36 →
      does (.registerWrite (.ilim n) e) (fun u => (u.w.reg n).ilim = x)) ∧
    (n < 4 → x < 2 ^ 10 → (s.w.reg n).ilim < x → (s.w.reg n).phok ≠ 36 →
      does (.registerWrite (.ilim n) e) (fun u => u.w.reg n = s.w.reg n)) ∧
    (n < 32 → does (.registerWrite (.route n) e) (fun u => u.w.route n = { (s.w.route n) with
      valid := e.getLsbD 0, ports := x / 2 % 2 ^ 16, peer := x / 2 ^ 17 % 2 ^ 10, ten := x / 2 ^ 32 % 2 ^ 16, key := x / 2 ^ 48 % 2 ^ 64 })) ∧
    (port < 16 → n < 64 → does (.registerWrite (.portWheel port n b) e) (fun u => fget (if b then (u.w.port port).wheelOut
      else (u.w.port port).wheelIn) WSlot.unowned n = { own := e.getLsbD 0, ten := x / 2 ^ 16 % 2 ^ 16, gang := x / 2 ^ 32 % 2 ^ 12 })) ∧
    (mail → ten ≠ 0 → ten ≤ 65535 → idle ten → replies (.tenantRecordWrite ⟨0, ten⟩ r) (.status 0) (fun u =>
      (u.w.tenRec ten).testBit 0 = r.getLsbD 0 ∧ u.w.tenRec ten / 2 ^ 64 % 2 ^ 128 = r.toNat / 2 ^ 64 % 2 ^ 128 ∧
      u.w.tenRec ten / 2 % 2 ^ 29 = r.toNat / 2 % 2 ^ 29 ∧ ∀ t, t ≠ ten → u.w.tenRec t = s.w.tenRec t)) ∧
    (mail → ten = 0 ∨ ¬idle ten → replies (.tenantRecordWrite ⟨0, ten⟩ r) .error (fun u => u.w.hub.tenants = s.w.hub.tenants)) ∧
    (mail → id < 1024 → 0 < cap → cap ≤ 4096 → (s.w.deque id).ten = none → s.w.dequeTotal + cap ≤ 2 ^ 20 →
      replies (.dequeAllot ⟨0, ten⟩ id cap) (.status 0) (fun u => u.w.deque id = { ten := some ten, cap := cap, items := [], owner := none } ∧
        ∀ j, j ≠ id → u.w.deque j = s.w.deque j)) ∧
    (mail → 4096 < cap ∨ 1024 ≤ id → replies (.dequeAllot ⟨0, ten⟩ id cap) .error (fun u => u.w.hub.deques = s.w.hub.deques)) ∧
    (mail → slot.full = false → ¬needed → replies (.slotWithdraw ⟨0, ccw⟩ n) (.status 0) (fun u => slotAfter u = Slot.unowned)) ∧
    (mail → slot.full = true ∨ needed → replies (.slotWithdraw ⟨0, ccw⟩ n) (.status 0) (fun u => slotAfter u = { slot with withdraw := true })) ∧
    (mail → port < 16 → n < 4096 → does (.keyTableWrite ⟨0, port⟩ n e) (fun u => fget (u.w.port port).keys KeyEntry.blank n =
      { valid := e.getLsbD 0, rights := x / 2 % 8, gang := x / 2 ^ 4 % 2 ^ 12, ten := x / 2 ^ 16 % 2 ^ 16,
        key := x / 2 ^ 32 % 2 ^ 64, miss := key.miss })) ∧
    (mail → ten = 0 ∨ s.w.tenRec ten % 2 = 1 → replies (.mirrorRingSet ⟨0, ten⟩ addr) (.status 0) (fun u =>
      fget u.w.hub.mirrors 0 ten = addr)) ∧
    (mail → ten ≠ 0 → s.w.tenRec ten % 2 = 0 → replies (.mirrorRingSet ⟨0, ten⟩ addr) .error
      (fun u => u.w.hub.mirrors = s.w.hub.mirrors)) ∧
    (from_ ≠ 0 ∨ ¬mail → refused (.tenantRecordWrite ⟨from_, ten⟩ r) ∧ refused (.dequeAllot ⟨from_, ten⟩ id cap) ∧
      refused (.slotWithdraw ⟨from_, ccw⟩ n) ∧ refused (.keyTableWrite ⟨from_, port⟩ n e) ∧ refused (.mirrorRingSet ⟨from_, ten⟩ addr))

/-- A pod request whose tag, key, right and alignment match an entry is translated under the gang's leases and performs at its
home; others are refused and counted, an unmapped page or a lease id that the home does not know is answered with a retry hint, a
revoked write is discarded (answered as done, the model's choice of log 62), and a request that fails its link check is refused
and counted to its tenant; its answer waits for a slot of the port's wheel; an acknowledgement ends a request of the device, a
refusal counts against its route and tenant, and a port that drops out refuses every request in flight on it, inbound ones whose
answers wait among them (R203, R364, R365,
R366, R367, R368, R370). -/
def Obligations.PodRequests : Prop :=
  ∀ (s : State) (port ten va id n old : Nat) (key v w : Word) (mask : BitVec 64) (data : BitVec 512) (op : AmoOp)
    (e : KeyEntry) (r : Rle) (p : PodOut),
    let q := s.w.port port
    let repliesTo (who : Nat) (k : PodKind) (tagged : Bool) (a : Answer) (f : State → Prop) : Prop := ∃ u : State,
      exec (.podRequest port k tagged ten key va) s = .next u ∧ u.w.hub.out = s.w.hub.out ∧
      (u.w.port port).resp = q.resp ++ [(who, a, s.w.nextId)] ∧ (∀ j, u.w.core j = s.w.core j) ∧ f u
    let replies := repliesTo ten
    let left (x : PodOut) : List PodOut := if x.left + x.togo = 0 then [] else [x]
    let same (u : State) : Prop := u.mem = s.mem
    let hinted : Prop := ∃ u : State, ∃ ns : Nat, exec (.podRequest port .read true ten key va) s = .next u ∧
      u.w.hub.out = s.w.hub.out ∧ (u.w.port port).resp = q.resp ++ [(ten, .retry ns, s.w.nextId)] ∧ 1 ≤ ns ∧ ns ≤ 65535 ∧ (∀ j, u.w.core j = s.w.core j) ∧ same u
    let known (right : Nat) : Prop := port < 16 ∧ q.up = true ∧ q.keys = [(n, e)] ∧ e.valid = true ∧ e.ten = ten ∧
      e.key = key.toNat ∧ e.rights.testBit right = true
    let pa := r.pa va
    let home := homeOf s.w.hub r.place r.home pa
    let maps (size right : Nat) : Prop := va % size = 0 ∧ hit (s.w.runsFor e.gang ten) va size right = some r ∧
      pa.testBit 51 = false ∧ (s.w.die home).up = true
    let leased : Prop := r.lid ∈ (s.w.die home).lids ∧ r.lid ∉ (s.w.die home).revoked
    let revoked : Prop := r.lid ∈ (s.w.die home).revoked
    let clean (k : Nat) : Prop := ∀ b ∈ s.w.gpoison, b < pa ∨ pa + k ≤ b
    let size := amoBytes op
    let seen : Word := if size = 4 then (BitVec.ofNat 32 old).signExtend 64 else BitVec.ofNat 64 old
    let integer : Prop := op ≠ .faddF32 ∧ op ≠ .faddBf16
    (known 0 → maps 64 0 → leased → clean 64 → replies .read true (.data true (s.mem.bytes .glb pa 64)) same) ∧
    (known 0 → maps 64 0 → leased → ¬clean 64 → replies .read true (.data false []) same) ∧
    (known 1 → maps 64 1 → leased → replies (.write mask data) true (.data true []) (fun u =>
      (∀ i < 64, u.mem.byte .glb (pa + i) =
        if mask.getLsbD i then BitVec.ofNat 8 (data.toNat / 2 ^ (8 * i)) else s.mem.byte .glb (pa + i)) ∧
      SameBut s.mem u.mem [(.glb, pa, 64)])) ∧
    (known 1 → maps 64 1 → revoked → replies (.write mask data) true (.data true []) (fun u => same u ∧ u.w.gpoison = s.w.gpoison) ∧
      replies (.poisoned mask) true (.data true []) (fun u => same u ∧ u.w.gpoison = s.w.gpoison)) ∧
    (known 0 → maps 64 0 → revoked ∨ r.lid ∉ (s.w.die home).lids → hinted) ∧
    (known 1 → maps 64 1 → leased → replies (.poisoned mask) true (.data true []) (fun u => same u ∧
      ∀ i < 64, mask.getLsbD i = true → pa + i ∈ u.w.gpoison)) ∧
    (known 2 → maps 8 2 → leased → integer → (s.w.die (s.w.homeOfPa pa)).up = true → clean 8 → IsNumber s.mem .glb pa size old →
      replies (.atomic op v w) true (.data true (leBytes 8 seen.toNat)) (fun u =>
        IsNumber u.mem .glb pa size ((amoNew op old v w).1 % 2 ^ (8 * size)) ∧ SameBut s.mem u.mem [(.glb, pa, size)])) ∧
    (known 0 → repliesTo 0 .read false .error same) ∧
    (known 0 → va % 64 ≠ 0 → ten = 0 → replies .read true .error same) ∧
    (port < 16 → q.up = true → q.keys = [] → ten = 0 → replies .read true .error same) ∧
    (port < 16 → q.up = true → q.keys = [(n, e)] → e.valid = true → e.ten = ten → e.key ≠ key.toNat → s.w.tenRec ten % 2 = 0 →
      replies .read true .error (fun u => same u ∧ (u.w.port port).keys = [(n, { e with miss := min (e.miss + 1) (2 ^ 32 - 1) })])) ∧
    (known 0 → va % 64 = 0 → hit (s.w.runsFor e.gang ten) va 64 0 = none → hinted) ∧
    (port < 16 → q.up = true → replies .corrupt true .error (fun u => same u ∧ (u.w.port port).keys = q.keys ∧
      fget (u.w.port port).refused 0 ten = fget q.refused 0 ten + 1)) ∧
    (port < 16 → q.up = false → ∀ k tagged, exec (.podRequest port k tagged ten key va) s = .next (s.withWorld (s.w.answer .error))) ∧
    (s.w.hub.podOut = [p] → p.id = id → 0 < p.left → ∃ u : State,
      exec (.podAck id true) s = .next u ∧ same u ∧ u.w.hub.podOut = left { p with left := p.left - 1 } ∧
      u.w.hub.routes = s.w.hub.routes ∧ u.w.hub.ports = s.w.hub.ports) ∧
    (s.w.hub.podOut = [p] → p.id = id → 0 < p.left → ∃ u : State,
      exec (.podAck id false) s = .next u ∧ same u ∧ u.w.hub.podOut = left { p with left := p.left - 1 } ∧
      (u.w.route p.route).ref = min ((s.w.route p.route).ref + 1) 65535 ∧
      fget (u.w.port p.port).refused 0 p.ten = fget (s.w.port p.port).refused 0 p.ten + 1) ∧
    (∀ ok, s.w.hub.podOut = [p] → p.left = 0 → exec (.podAck id ok) s = .next s) ∧
    (port < 16 → s.w.hub.podOut = [p] → p.port = port → ∃ u : State,
      exec (.portDropOut port) s = .next u ∧ same u ∧ (u.w.port port).up = false ∧ u.w.hub.podOut = left { p with left := 0 } ∧
      (u.w.route p.route).ref = min ((s.w.route p.route).ref + p.left) 65535 ∧ (u.w.port port).resp = [] ∧
      u.w.hub.out = s.w.hub.out ++ q.resp.map (fun _ => Answer.error) ∧
      ∀ t, fget (u.w.port port).refused 0 t =
        fget q.refused 0 t + (q.resp.filter (fun y => y.1 == t)).length + (if t = p.ten then p.left else 0))

/-- A die's reset, for tenant 0 alone, clears its cores and their memories, its array and its counters, and
nothing else of the die, of which R377 names the memory controllers alone; a task there is killed first, one that has still to write
back too; a power-on reset leaves every byte zero and everything as
bring-up does, but for failed bricks, firmware images and leaves used (what either keeps beyond R377 is the model's choice of log
73), with the units out of placement that its scan has found bad, each logged. It is how a run begins: memory in canonical form, no
task, no gang, nothing in flight, every regulator whole; where a boot image is refused (which one is free, log 3) the mailbox stays shut
and each refusal is logged (R170, R181, R197, R204, R349, R360, R373, R375, R376, R377, R378). -/
def Obligations.Resets : Prop :=
  ∀ (s : State) (die from_ : Nat),
    (from_ ≠ 0 ∨ s.w.hub.mailOpen = false → exec (.dieReset ⟨from_, die⟩) s = .next (s.withWorld (s.w.answer .error))) ∧
    (s.w.hub.mailOpen = true → (∀ t ∈ s.w.hub.tasks, ∀ k ∈ t.cores, k / 8 ≠ die) → ∃ u : State, exec (.dieReset ⟨0, die⟩) s = .next u ∧
      (∀ j ∈ allCores, j / 8 = die → (u.w.core j).ctx = CoreCtx.zero ∧ (u.w.core j).gang = none ∧ (u.w.core j).pend = [] ∧
        (∀ i < 2 ^ 21, u.mem.byte .spd (j * 2 ^ 21 + i) = 0) ∧ (∀ i < 2 ^ 19, u.mem.byte .mortar (j * 2 ^ 19 + i) = 0) ∧
        (∀ i < 2 ^ 18, u.mem.byte .isp (j * 2 ^ 18 + i) = 0) ∧ ∀ i < 2 ^ 14, u.mem.byte .hst (j * 2 ^ 14 + i) = 0) ∧
      (∀ j, j / 8 ≠ die → u.w.core j = s.w.core j) ∧ (∀ a, u.mem.byte .glb a = s.mem.byte .glb a) ∧
      (∀ d, d ≠ die → u.w.die d = s.w.die d) ∧ u.w.hub = s.w.hub ∧
      u.w.die die = { (s.w.die die) with
        arrayGang := none, tiles := [], shapes := [], tshape := [], lease := ArrayLease.free, streamEnd := 0, mcfgAt := none,
        devsel := [], devc := [] }) ∧
    (State.reset.Canonical ∧ (∀ sp a, State.reset.mem.byte sp a = 0) ∧ (∀ j, State.reset.w.core j = Core.zero) ∧
      Core.zero.ctx.fpctrl = 0x1F ∧ (∀ j, (State.reset.w.gang j).live = false) ∧ State.reset.w.flights = [] ∧
      State.reset.w.hub.tasks = [] ∧ State.reset.w.hub.iseta = 1 + 0x76543210 * 2 ^ 4 ∧
      State.reset.w.hub.isetb = 0x7654 * 2 ^ 4 ∧ State.reset.w.hub.domcls = 0 ∧
      ∀ j, (State.reset.w.reg j).imeas = 0 ∧ (State.reset.w.reg j).ilim = 720 ∧ (State.reset.w.reg j).phok = 36) ∧
    (∃ u : State, exec .powerOnReset s = .next u ∧ (∀ sp a, u.mem.byte sp a = 0) ∧ (∀ j, u.w.core j = { Core.zero with
        courses := (s.w.core j).courses, poison := (u.w.core j).poison, outOfPlace := (u.w.core j).outOfPlace }) ∧
      (∀ j, u.w.gang j = Gang.zero) ∧ (∀ j, u.w.die j = { Die.zero with arrayOut := (u.w.die j).arrayOut }) ∧
      u.w.hub.leaves = s.w.hub.leaves ∧ (∀ rel, (u.w.firmware rel).leaf = (s.w.firmware rel).leaf ∧
        (u.w.firmware rel).minVersion = (s.w.firmware rel).minVersion ∧ (u.w.firmware rel).version = (s.w.firmware rel).version ∧
        (u.w.firmware rel).image = (s.w.firmware rel).image) ∧ u.w.flights = [] ∧ u.w.gpoison = [] ∧ u.w.softErrs = [] ∧
      u.w.hub.tasks = [] ∧ u.w.hub.iseta = 1 + 0x76543210 * 2 ^ 4 ∧ u.w.hub.isetb = 0x7654 * 2 ^ 4 ∧ u.w.hub.slots = [] ∧
      (Config.bootOk s.w.draws = true → (∀ e ∈ u.w.hub.log, e.cls = 7) ∧ u.w.hub.mailOpen = true ∧ u.w.hub.bootBad = []) ∧
      (Config.bootOk s.w.draws = false → u.w.hub.mailOpen = false ∧ u.w.hub.bootBad ≠ [] ∧
        (∀ e ∈ u.w.hub.log, e.cls = 11 ∧ e.data / 2 % 2 = 1) ∧
        ∀ rel : Bool, rel ∈ u.w.hub.bootBad ↔ ∃ e ∈ u.w.hub.log, e.data % 2 = if rel then 1 else 0)) ∧
    (∀ (t : Task) k, s.w.hub.mailOpen = true → s.w.hub.tasks = [t] → t.cores = [k] → k / 8 = die → k < 64 → (s.w.core k).gang = some t.gid →
      t.stage = .ending → t.kind = 0 → t.wbDone = false → ∃ (u : State) (y : Task), exec (.dieReset ⟨0, die⟩) s = .next u ∧
        u.w.hub.tasks = [y] ∧ y.order = t.order ∧ y.stage = .ending ∧ y.kind = 3 ∧ y.code = 1 ∧ y.wbDone = true ∧
        (u.w.core k).gang = none ∧ ∀ i < 2 ^ 21, u.mem.byte .spd (k * 2 ^ 21 + i) = 0)

/-! ## Encodings -/

/-- The word of a well-formed slot operation has 32 bits in the classes C, A, M, E and X and 64 in F, I and P, and the decoder
of its class reads the operation back with every operand (R47 to R58). -/
def Obligations.DecodeEncode : Prop :=
  ∀ (i : Instr) (k : Cls), i.wellFormed = true → clsOf i = some k →
    encode i < (if k ∈ [Cls.f, .i, .p] then 2 ^ 64 else 2 ^ 32) ∧ decodeCls k (encode i) = .ok i

/-- Words of each class, written field by field from its layout, decode to the operations they stand for; a word with an
unassigned opcode, or with a reserved field that is not zero, is refused (R49 to R58, R65). -/
def Obligations.DecodedWords : Prop :=
  decodeCls .c 0b000010_000101_100_11111111111111101 = .ok (.bc .gt 5 (-3)) ∧
  decodeCls .a 0b000000_000001_000010_000011_00_000000 = .ok (.add 1 2 (.reg 3)) ∧
  decodeCls .a 0b000000_000001_000010_000000_10_000000 = .ok (.add 1 2 (.lit 1)) ∧
  decodeCls .m 0b000010_100101100_000100_00_11110_0000 = .ok (.ldv 300 { base := 4, off := .imm (-2) }) ∧
  decodeCls .f 0b000011_010_11_0_000000101_000000110_000000111_101111111_0_1_0_0011_1_00_000000 =
    .ok (.vfma .f16 .rdn 5 { n := 6, held := false } (.vec { n := 7, held := true }) { n := 383, held := false }
      { pr := 3, ps := true }) ∧
  decodeCls .i 0b000000_101_00_1_000000001_000000010_000000011_000000000_1_0_0_0000_0_00_000000 =
    .ok (.vadd .n16 true 1 { n := 2, held := true } (.vec { n := 3, held := false }) { pr := 0, ps := false }) ∧
  decodeCls .p 0b000000_011_00_0_000000001_000000010_000000011_000000000_0_0_0_0010_0_00_000000 =
    .ok (.vperm .f32 1 { n := 2, held := false } (.vec { n := 3, held := false }) { pr := 2, ps := false }) ∧
  decodeCls .e 0b000000_000001_000010_000011_00_000001 = .ok (.bcopy .gs 1 (.reg 2) 3) ∧
  decodeCls .x 0b000101_000000_000000_00_000000000010 = .ok (.fence .die) ∧
  decodeCls .a 0b011010_000001_000010_000011_00_000000 = .bad 1 ∧
  decodeCls .a 0b000000_000001_000010_000011_00_000001 = .bad 2 ∧
  decodeCls .x 0b000101_000000_000000_00_000000000101 = .bad 2

/-! ## The machine as a whole -/

/-- Whatever the step does, from any state whose byte memories are in canonical form, they are again. -/
def Obligations.StepKeepsCanonical : Prop :=
  ∀ (s t : State), s.Canonical → step s = .next t → t.Canonical

/-- A slot operation writes no byte of any memory at its issue, unless it is a store form of the scratchpad; what atomics,
engines, deliveries and homes write comes at their own cycles (R12, R60, R64). -/
def Obligations.OnlyStoresWrite : Prop :=
  ∀ (i : Instr) (s t : State), clsOf i ≠ none → isStore i = false → exec i s = .next t → t.mem = s.mem

/-- An entry of the script that names an event runs it; a cycle of a gang, to which time and the ring go on, runs after what falls
due, the reads of engines and commands and the rows it rebuilds, and unless a trap is due, the decoded bundle: here of one member and one slot other than the branch
slot, whose meaning runs on the state at its issue; then the bundle is counted, issue falls through, TTC advances by one, and
memory is as the meaning left it unless a seal or a part of an engine command is under way (R11, R14, R59, R62; log 1). -/
def Obligations.StepRunsTheDecoded : Prop :=
  ∀ (s t : State) (i : Instr) (rest : List Turn) (gid k pos : Nat) (p : Plan),
    let a := s.withWorld (s.popped rest)
    let b := a.withWorld (a.w.till (a.w.gang gid).nextAt)
    let c := b.withWorld ((b.w.reclock gid).modGang gid (fun g => { g with nextAt := b.w.now + g.period }))
    let now := (c.w.gang gid).ttc
    let due := c.commit (State.fallDue gid false [k] now c)
    let d := due.commit (State.sourceReads gid [k] now due)
    let e := (rebuildMembers d false now d [k]).1
    (s.w.script = .ev i :: rest → isEvent i = true → exec i a = .next t → step s = .next t) ∧
    (s.w.script = .cycle gid :: rest → (a.w.gang gid).runs = true → (a.w.gang gid).stat = .running →
      (a.w.gang gid).members = [k] → (d.w.gang gid).nextEvent = none → (due.w.gang gid).stat ≠ .ended →
      (d.w.gang gid).members = [k] → (e.w.gang gid).domNext = [] → (rebuildMembers d false now d [k]).2 = .clear →
      e.precheck k false now = none → d.plan k false now = some p → e.plan k false now = some p →
      p.b.hdr.rp = false → p.b.slots = [(pos, i)] → pos ≠ 0 →
      e.w.readsFaulty k pos false ((e.w.core k).ctx.readsNow i) = false → exec i (e.enter p pos) = .next t → t.w.abort = none →
      ∃ u : State, step s = .next u ∧
        ((t.w.core k).seals = [] → (∀ f ∈ t.w.flights, nextParts f now = []) → u.mem = t.mem) ∧ (u.w.gang gid).ttc = (t.w.gang gid).ttc + 1 ∧
        (u.w.core k).pend = (t.w.core k).pend ∧ (u.w.core k).ctx.sregs = (t.w.core k).ctx.sregs ∧
        (u.w.core k).ctx.vregs = (t.w.core k).ctx.vregs ∧ (u.w.core k).ctx.preds = (t.w.core k).ctx.preds ∧
        (u.w.core k).ctx.scales = (t.w.core k).ctx.scales ∧ (u.w.core k).ctx.latches = (t.w.core k).ctx.latches ∧
        (u.w.core k).ctx.loops = (t.w.core k).ctx.loops ∧ (u.w.core k).ctx.fpflags = (t.w.core k).ctx.fpflags ∧
        (u.w.core k).win = (p.b.hdr.dw :: (t.w.core k).win).take 7 ∧
        (u.w.core k).ctx.seq = fallSeq t.mem (t.w.core k) k false p.pc (p.pc + Bundle.len p.b))
end

