-- ==== Sys2Proof/Laws/Encoding.lean ====
section
/-! SUPPORT. The fields of a word read back: one lemma per word layout, operand and code of the decoder. -/
namespace Sys2Proof

/-! ## Words (R49 to R54) -/

theorem cWord_ofNat_toNat (x : CWord) (h : x.lo < 2 ^ 26) (ho : x.op < 2 ^ 6) : CWord.ofNat x.toNat = x := by
  obtain ⟨op, lo⟩ := x
  simp only [CWord.ofNat, CWord.toNat, field, CWord.mk.injEq] at *
  omega
theorem aWord_ofNat_toNat (x : AWord) (ho : x.op < 2 ^ 6) (h1 : x.sd < 2 ^ 6) (h2 : x.sa < 2 ^ 6) (h3 : x.sb < 2 ^ 6)
    (h4 : x.ls < 2 ^ 2) (h5 : x.m6 < 2 ^ 6) : AWord.ofNat x.toNat = x := by
  obtain ⟨op, sd, sa, sb, ls, m6⟩ := x
  simp only [AWord.ofNat, AWord.toNat, field, AWord.mk.injEq] at *
  omega
theorem mWord_ofNat_toNat (x : MWord) (ho : x.op < 2 ^ 6) (h1 : x.rt < 2 ^ 9) (h2 : x.sb < 2 ^ 6) (h3 : x.ls < 2 ^ 2)
    (h4 : x.off5 < 2 ^ 5) (h5 : x.q < 2 ^ 4) : MWord.ofNat x.toNat = x := by
  obtain ⟨op, rt, sb, ls, off5, q⟩ := x
  simp only [MWord.ofNat, MWord.toNat, field, MWord.mk.injEq] at *
  omega
theorem eWord_ofNat_toNat (x : EWord) (ho : x.op < 2 ^ 6) (h1 : x.sa < 2 ^ 6) (h2 : x.sb < 2 ^ 6) (h3 : x.sc < 2 ^ 6)
    (h4 : x.ls < 2 ^ 2) (h5 : x.m6 < 2 ^ 6) : EWord.ofNat x.toNat = x := by
  obtain ⟨op, sa, sb, sc, ls, m6⟩ := x
  simp only [EWord.ofNat, EWord.toNat, field, EWord.mk.injEq] at *
  omega
theorem xWord_ofNat_toNat (x : XWord) (ho : x.op < 2 ^ 6) (h1 : x.s1 < 2 ^ 6) (h2 : x.s2 < 2 ^ 6) (h3 : x.ls < 2 ^ 2)
    (h4 : x.k12 < 2 ^ 12) : XWord.ofNat x.toNat = x := by
  obtain ⟨op, s1, s2, ls, k12⟩ := x
  simp only [XWord.ofNat, XWord.toNat, field, XWord.mk.injEq] at *
  omega
/-- The widths of the fields of an F, I or P word. -/
def VWord.Fits (x : VWord) : Prop :=
  x.op < 2 ^ 6 ∧ x.fmt < 2 ^ 3 ∧ x.rm < 2 ^ 2 ∧ x.sat < 2 ∧ x.vd < 2 ^ 9 ∧ x.va < 2 ^ 9 ∧ x.vb < 2 ^ 9 ∧ x.vc < 2 ^ 9 ∧
    x.ha < 2 ∧ x.hb < 2 ∧ x.hc < 2 ∧ x.pr < 2 ^ 4 ∧ x.ps < 2 ∧ x.ls < 2 ^ 2 ∧ x.m6 < 2 ^ 6
theorem vWord_ofNat_toNat (x : VWord) (h : x.Fits) : VWord.ofNat x.toNat = x := by
  obtain ⟨op, fmt, rm, sat, vd, va, vb, vc, ha, hb, hc, pr, ps, ls, m6⟩ := x
  simp only [VWord.Fits] at h
  simp only [VWord.ofNat, VWord.toNat, field, VWord.mk.injEq]
  omega

/-! ## Operands (R50, R53, R57, R63) -/

/-- A signed field of `k` bits holds every value of its range. -/
theorem signed_bitsOf (k : Nat) (hk : 0 < k) (i : Int) (lo : -(2 ^ (k - 1) : Int) ≤ i) (hi : i < 2 ^ (k - 1)) :
    signed k (bitsOf k i) = i := by
  have hp : (2 : Int) ^ k = 2 * 2 ^ (k - 1) := by
    obtain ⟨n, rfl⟩ : ∃ n, k = n + 1 := ⟨k - 1, by omega⟩
    simp [pow_succ]; ring
  have hpn : (2 : Nat) ^ k = 2 * 2 ^ (k - 1) := by exact_mod_cast hp
  have pos : (0 : Int) < 2 ^ (k - 1) := by positivity
  have hn : ((2 ^ (k - 1) : Nat) : Int) = 2 ^ (k - 1) := by push_cast; rfl
  have hb : ((bitsOf k i : Nat) : Int) = i % 2 ^ k := by
    unfold bitsOf; exact Int.toNat_of_nonneg (Int.emod_nonneg _ (by rw [hp]; omega))
  have hlt : bitsOf k i < 2 ^ k := by
    have := Int.emod_lt_of_pos i (show (0 : Int) < 2 ^ k by rw [hp]; omega)
    have h2 : ((2 ^ k : Nat) : Int) = 2 ^ k := by push_cast; rfl
    omega
  unfold signed
  rw [Nat.mod_eq_of_lt hlt, hb, hp]
  rcases lt_or_ge i 0 with h | h
  · have e : i % (2 * 2 ^ (k - 1)) = i + 2 * 2 ^ (k - 1) := by
      rw [← Int.add_emod_right, Int.emod_eq_of_lt (by omega) (by omega)]
    rw [hp, e] at hb
    rw [e, if_neg (by omega)]; omega
  · have e : i % (2 * 2 ^ (k - 1)) = i := Int.emod_eq_of_lt h (by omega)
    rw [e]
    rw [hp, e] at hb
    rw [if_pos (by omega)]
theorem srcOf_src (b : Src) : srcOf (srcLs b) (srcReg b) = b := by
  cases b <;> simp [srcOf, srcLs, srcReg]
theorem held_bit (b : Bool) : (bit b == 1) = b := by cases b <;> rfl

/-! ## Codes (R55, R56, R87 and the forms' own) -/

theorem rmOf_code (m : RMode) : rmOf (rmCode m) = m := by cases m <;> rfl
theorem sfFmtOf_code (f : SfFmt) : sfFmtOf (sfFmtCode f) = some f := by cases f <;> rfl
theorem iFmtOf_code (f : IFmt) : iFmtOf (iFmtCode f) = some f := by cases f <;> rfl
theorem pFmtOf_code (f : PFmt) : pFmtOf (pFmtCode f) = f := by cases f <;> rfl
theorem sizeOf_code (z : MSize) : sizeOf' (sizeCode z) = some z := by cases z <;> rfl
theorem scopeOf_code (s : Scope) : scopeOf (scopeCode s) = some s := by cases s <;> rfl

end Sys2Proof
end

