-- ==== Sys2Proof/Laws/Engine.lean ====
section
/-! SUPPORT. The lines of an engine command, counted, and its times: that they are those of R214. -/
namespace Sys2Proof.Machine
open Sys2Proof

/-! ## Distinct numbers -/

theorem firsts_spec (l : List Nat) : ∀ seen : List Nat, seen.Nodup →
    (firsts seen l).Nodup ∧ ∀ x, x ∈ firsts seen l ↔ x ∈ seen ∨ x ∈ l := by
  induction l with
  | nil => intro seen h; simp [firsts, h]
  | cons y r ih =>
    intro seen h
    unfold firsts
    split
    · rename_i hc
      obtain ⟨h1, h2⟩ := ih seen h
      refine ⟨h1, fun x => ?_⟩
      rw [h2]; simp only [List.mem_cons]
      constructor
      · rintro (a | a) <;> simp [a]
      · rintro (a | rfl | a)
        · exact .inl a
        · exact .inl (by simpa using hc)
        · exact .inr a
    · rename_i hc
      obtain ⟨h1, h2⟩ := ih (y :: seen) (by simpa using ⟨by simpa using hc, h⟩)
      refine ⟨h1, fun x => ?_⟩
      rw [h2]; simp only [List.mem_cons]; tauto

/-! ## The pieces of a stretch -/

theorem toEdge_pos (e : End) (a : Nat) : 0 < toEdge e a := by unfold toEdge; split <;> omega
theorem toEdge_spd {e : End} (h : isSpd e = true) (a : Nat) : toEdge e a = 1024 - a % 1024 := by simp [toEdge, h]
/-- Two places that no line's end separates lie in one line. -/
theorem sameLine {a i : Nat} (h : i < 1024 - a % 1024) : (a + i) % 2 ^ 21 / 1024 = a % 2 ^ 21 / 1024 := by omega
/-- The first piece of a stretch that is not empty, and the stretch that is left. -/
theorem cut_step (dst src : End) (k : Nat) (g : Seg) (h : g.n ≠ 0) : ∃ n r, cut dst src (k + 1) g = { g with n := n } :: cut dst src k r ∧
    0 < n ∧ n ≤ g.n ∧ n ≤ toEdge dst g.d ∧ (∀ a, g.s = some a → n ≤ toEdge src a) ∧
    r.n = g.n - n ∧ r.d = g.d + n ∧ r.s = g.s.map (· + n) := by
  have hd := toEdge_pos dst g.d
  have hb : (g.n == 0) = false := by simpa using h
  cases hs : g.s with
  | none =>
    refine ⟨min g.n (toEdge dst g.d), _, by simp only [cut, hb, hs]; rfl, by omega, by omega, by omega, by simp, rfl, rfl, rfl⟩
  | some a =>
    have ha := toEdge_pos src a
    refine ⟨min (min g.n (toEdge dst g.d)) (toEdge src a), _, by simp only [cut, hb, hs]; rfl, by omega, by omega, by omega, ?_, rfl, rfl, rfl⟩
    intro b e; cases e; omega
/-- Pieces cover a stretch at both its ends, and each lies in one line of a scratchpad end. -/
theorem cut_lines (dst src : End) (fuel : Nat) : ∀ g : Seg, g.n < fuel → ∀ x,
    (isSpd dst = true → ((∃ p ∈ cut dst src fuel g, lineOfAddr p.d = x) ↔ Touches g.d g.n x)) ∧
    (isSpd src = true → ((∃ p ∈ cut dst src fuel g, ∃ b, p.s = some b ∧ lineOfAddr b = x) ↔ ∃ b, g.s = some b ∧ Touches b g.n x)) := by
  induction fuel with
  | zero => intro g h; omega
  | succ k ih =>
    intro g hg x
    by_cases h0 : g.n = 0
    · simp [cut, h0, Touches]
    · obtain ⟨n, r, e, p1, p2, p3, p4, hrn, hrd, hrs⟩ := cut_step dst src k g h0
      rw [e]
      obtain ⟨i1, i2⟩ := ih r (by omega) x
      constructor
      · intro hd
        rw [List.exists_mem_cons_iff, i1 hd, hrn, hrd]
        rw [toEdge_spd hd] at p3
        constructor
        · rintro (h | ⟨i, h, e⟩)
          · exact ⟨0, by omega, by simpa [lineOfAddr] using h⟩
          · exact ⟨n + i, by omega, by rw [← Nat.add_assoc]; exact e⟩
        · rintro ⟨i, h, e⟩
          by_cases hi : i < n
          · left; rw [← e, sameLine (by omega)]; rfl
          · right; exact ⟨i - n, by omega, by rw [show g.d + n + (i - n) = g.d + i by omega]; exact e⟩
      · intro hd
        rw [List.exists_mem_cons_iff, i2 hd, hrn, hrs]
        constructor
        · rintro (⟨b, h, e⟩ | ⟨b, h, i, hi, e⟩)
          · exact ⟨b, h, 0, by omega, by simpa [lineOfAddr] using e⟩
          · obtain ⟨c, hc, rfl⟩ := Option.map_eq_some_iff.mp h
            exact ⟨c, hc, n + i, by omega, by rw [← Nat.add_assoc]; exact e⟩
        · rintro ⟨b, h, i, hi, e⟩
          have hp := p4 b h
          rw [toEdge_spd hd] at hp
          by_cases hin : i < n
          · left; exact ⟨b, h, by rw [← e, sameLine (by omega)]; rfl⟩
          · right; exact ⟨b + n, by simp [h], i - n, by omega, by rw [show b + n + (i - n) = b + i by omega]; exact e⟩
/-- The lines that the pieces of a command name. -/
theorem pieces_lines (c : EngCmd) (x : Nat) :
    (isSpd c.dst = true → ((∃ p ∈ c.pieces, lineOfAddr p.d = x) ↔ ∃ g ∈ c.segs, Touches g.d g.n x)) ∧
    (isSpd c.src = true → ((∃ p ∈ c.pieces, ∃ b, p.s = some b ∧ lineOfAddr b = x) ↔ ∃ g ∈ c.segs, ∃ b, g.s = some b ∧ Touches b g.n x)) := by
  have key : ∀ P : Seg → Prop, (∃ p ∈ c.pieces, P p) ↔ ∃ g ∈ c.segs, ∃ p ∈ cut c.dst c.src (g.n + 1) g, P p := by
    intro P
    unfold EngCmd.pieces
    simp only [List.mem_flatten, List.mem_map]
    constructor
    · rintro ⟨p, ⟨_, ⟨g, hg, rfl⟩, hp⟩, h⟩; exact ⟨g, hg, p, hp, h⟩
    · rintro ⟨g, hg, p, hp, h⟩; exact ⟨p, ⟨_, ⟨g, hg, rfl⟩, hp⟩, h⟩
  constructor
  · intro h
    rw [key]
    exact ⟨fun ⟨g, hg, q⟩ => ⟨g, hg, ((cut_lines _ _ _ g (by omega) x).1 h).mp q⟩,
      fun ⟨g, hg, q⟩ => ⟨g, hg, ((cut_lines _ _ _ g (by omega) x).1 h).mpr q⟩⟩
  · intro h
    rw [key]
    exact ⟨fun ⟨g, hg, q⟩ => ⟨g, hg, ((cut_lines _ _ _ g (by omega) x).2 h).mp q⟩,
      fun ⟨g, hg, q⟩ => ⟨g, hg, ((cut_lines _ _ _ g (by omega) x).2 h).mpr q⟩⟩

/-! ## The lines of a command, counted -/

/-- What R214 calls n_s. -/
theorem count_srcLines (c : EngCmd) :
    CountOf (fun l => isSpd c.src = true ∧ ∃ g ∈ c.segs, ∃ a, g.s = some a ∧ Touches a g.n l) c.srcLines.length := by
  refine ⟨c.srcLines, ?_, fun x => ?_, rfl⟩
  · unfold EngCmd.srcLines
    split
    · exact (firsts_spec _ [] List.nodup_nil).1
    · exact List.nodup_nil
  · unfold EngCmd.srcLines
    by_cases h : isSpd c.src = true
    · simp only [h, if_true, true_and]
      rw [(firsts_spec _ [] List.nodup_nil).2, ← (pieces_lines c x).2 h]
      simp [List.mem_filterMap]
    · simp [h]
/-- What R214 calls n_d. -/
theorem count_dstLines (c : EngCmd) :
    CountOf (fun l => isSpd c.dst = true ∧ ((∃ g ∈ c.segs, Touches g.d g.n l) ∨ ∃ m, c.mask = some m ∧ m.1 % 2 ^ 21 / 1024 = l))
      c.dstLines.length := by
  refine ⟨c.dstLines, ?_, fun x => ?_, rfl⟩
  · unfold EngCmd.dstLines
    split
    · refine List.Nodup.append ((firsts_spec _ [] List.nodup_nil).1.filter _) ?_ ?_
      · cases c.mask <;> simp
      · intro a h1 h2
        have := (List.mem_filter.mp h1).2
        simp [h2] at this
    · exact List.nodup_nil
  · unfold EngCmd.dstLines
    by_cases h : isSpd c.dst = true
    · simp only [h, if_true, true_and]
      rw [List.mem_append, List.mem_filter, (firsts_spec _ [] List.nodup_nil).2, ← (pieces_lines c x).1 h]
      cases hm : c.mask with
      | none => simp
      | some m =>
        simp [lineOfAddr, List.mem_map]
        by_cases hx : x = m.1 % 2097152 / 1024
        · subst hx; simp
        · simp [hx, Ne.symm hx]
    · simp [h]
/-- The times of a command are those of R214. -/
theorem engTimes_spec (s : State) (c : EngCmd) (fill : Bool) (bytes start : Nat) (accs : List Acc) (hf : fill = true → c.src = c.dst) :
    EngineTimes s c fill bytes accs start (engTimes (s.w.cur.core / 8) (s.w.gangAt s.w.cur.core).sh start bytes c fill accs).1
      (engTimes (s.w.cur.core / 8) (s.w.gangAt s.w.cur.core).sh start bytes c fill accs).2 := by
  refine ⟨_, _, count_srcLines c, count_dstLines c, ?_⟩
  have on : endOn = onDie := by funext d e; cases e <;> rfl
  have hg : (!isSpd c.dst || (!fill && !isSpd c.src)) = !(isSpd c.dst && (fill || isSpd c.src)) := by
    cases isSpd c.dst <;> cases fill <;> cases isSpd c.src <;> rfl
  simp only [hg, on, engTimes, ceilDiv]
  by_cases hd : isSpd c.dst = true
  · simp only [hd, if_true]
    cases fill with
    | true => simp
    | false => cases isSpd c.src <;> simp <;> omega
  · have hd' : isSpd c.dst = false := by simpa using hd
    simp only [hd', if_true]
    cases fill with
    | true =>
      have : c.srcLines.length = 0 := by unfold EngCmd.srcLines; simp [hf rfl, hd']
      simp [this]
    | false => simp

end Sys2Proof.Machine
end

