-- ==== Sys2Proof/Laws/Memory.lean ====
section
/-! SUPPORT. Every operation on a byte memory keeps the canonical form, and what a byte reads after a write. -/
namespace Sys2Proof.Machine
open Sys2Proof

/-! ## The canonical form -/

theorem canonFrom_mono {lo lo' : Nat} {m : List Host.Cell} (h : lo' ≤ lo) (hm : canonFrom lo m = true) :
    canonFrom lo' m = true := by
  cases m with
  | nil => rfl
  | cons e r =>
    simp only [canonFrom, Bool.and_eq_true, decide_eq_true_eq] at hm ⊢
    exact ⟨⟨le_trans h hm.1.1, hm.1.2⟩, hm.2⟩

theorem canonFrom_filter (p : Host.Cell → Bool) {lo : Nat} {m : List Host.Cell} (hm : canonFrom lo m = true) :
    canonFrom lo (m.filter p) = true := by
  induction m generalizing lo with
  | nil => rfl
  | cons e r ih =>
    simp only [canonFrom, Bool.and_eq_true, decide_eq_true_eq] at hm
    by_cases hp : p e = true
    · simp only [List.filter_cons, hp, if_true, canonFrom, Bool.and_eq_true, decide_eq_true_eq]
      exact ⟨hm.1, ih hm.2⟩
    · simp only [List.filter_cons, hp]
      exact ih (canonFrom_mono (by omega) hm.2)

/-- The cells from an address up are canonical from that address. -/
theorem canonFrom_above {lo b : Nat} {m : List Host.Cell} (hm : canonFrom lo m = true) :
    canonFrom b (m.filter (fun e => decide (b ≤ e.1))) = true := by
  induction m generalizing lo with
  | nil => rfl
  | cons e r ih =>
    simp only [canonFrom, Bool.and_eq_true, decide_eq_true_eq] at hm
    by_cases hb : b ≤ e.1
    · simp only [List.filter_cons, hb, decide_true, if_true, canonFrom, Bool.and_eq_true]
      exact ⟨⟨trivial, hm.1.2⟩, canonFrom_filter _ hm.2⟩
    · simp only [List.filter_cons, hb, decide_false]
      exact ih hm.2

theorem canonFrom_append {lo a : Nat} {x y : List Host.Cell} (hx : canonFrom lo x = true) (hlo : lo ≤ a)
    (hk : ∀ e ∈ x, e.1 < a) (hy : canonFrom a y = true) : canonFrom lo (x ++ y) = true := by
  induction x generalizing lo with
  | nil => exact canonFrom_mono hlo hy
  | cons e r ih =>
    simp only [canonFrom, Bool.and_eq_true, decide_eq_true_eq] at hx
    simp only [List.cons_append, canonFrom, Bool.and_eq_true, decide_eq_true_eq]
    exact ⟨hx.1, ih hx.2 (hk e (by simp)) (fun z hz => hk z (by simp [hz]))⟩

theorem newCells_canon (a : Nat) (bs : List Byte) : canonFrom a (newCells a bs) = true := by
  induction bs generalizing a with
  | nil => rfl
  | cons b r ih =>
    unfold newCells
    split
    · exact canonFrom_mono (by omega) (ih (a + 1))
    · rename_i hb
      simp [canonFrom, ih (a + 1)]
      simpa using hb

theorem newCells_key {a : Nat} {bs : List Byte} : ∀ e ∈ newCells a bs, a ≤ e.1 ∧ e.1 < a + bs.length := by
  induction bs generalizing a with
  | nil => simp [newCells]
  | cons b r ih =>
    intro e he
    have tail : ∀ e ∈ newCells (a + 1) r, a ≤ e.1 ∧ e.1 < a + (b :: r).length := by
      intro z hz
      have := ih z hz
      simp only [List.length_cons]
      omega
    unfold newCells at he
    split at he
    · exact tail e he
    · rcases List.mem_cons.mp he with rfl | h
      · simp
      · exact tail e h

theorem below_key {a : Nat} {m : List Host.Cell} : ∀ e ∈ m.filter (fun e => decide (e.1 < a)), e.1 < a := by
  intro e he
  simpa using (List.mem_filter.mp he).2

/-- A write of bytes keeps the canonical form. -/
theorem writeBytes_canon {m : List Host.Cell} (hm : canon m = true) (a : Nat) (bs : List Byte) :
    canon (writeBytes m a bs) = true := by
  unfold writeBytes
  rw [List.append_assoc]
  refine canonFrom_append (canonFrom_filter _ hm) (Nat.zero_le a) below_key ?_
  exact canonFrom_append (newCells_canon a bs) (Nat.le_add_right _ _) (fun e he => (newCells_key e he).2)
    (canonFrom_above hm)

/-- Clearing bytes keeps the canonical form. -/
theorem clearBytes_canon {m : List Host.Cell} (hm : canon m = true) (a n : Nat) : canon (clearBytes m a n) = true :=
  canonFrom_append (canonFrom_filter _ hm) (Nat.zero_le _) (fun e he => lt_of_lt_of_le (below_key e he) (Nat.le_add_right a n))
    (canonFrom_above hm)

theorem wf_setCells {m : Mems} (hm : Memory.wf m = true) (sp : Space) {c : List Host.Cell} (hc : canon c = true) :
    Memory.wf (m.setCells sp c) = true := by
  simp only [Memory.wf, Bool.and_eq_true] at hm
  cases sp <;> simp [Memory.wf, Mems.setCells, hm, hc]

theorem wf_cells {m : Mems} (hm : Memory.wf m = true) (sp : Space) : canon (m.cells sp) = true := by
  simp only [Memory.wf, Bool.and_eq_true] at hm
  cases sp <;> simp [Mems.cells, hm]

/-- One write keeps every memory in canonical form. -/
theorem apply_wf {m : Mems} (hm : Memory.wf m = true) (x : MemW) : Memory.wf (m.apply x) = true := by
  cases x with
  | bytes sp a bs => exact wf_setCells hm sp (writeBytes_canon (wf_cells hm sp) a bs)
  | clear sp a n => exact wf_setCells hm sp (clearBytes_canon (wf_cells hm sp) a n)

theorem applyAll_wf {m : Mems} (hm : Memory.wf m = true) (l : List MemW) : Memory.wf (m.applyAll l) = true := by
  induction l generalizing m with
  | nil => exact hm
  | cons x r ih => exact ih (apply_wf hm x)

/-- Whatever a meaning does, the memories stay canonical. -/
theorem commit_wf {s : State} (hs : Memory.wf s.mem = true) (a : Act) : Memory.wf (s.commit a).mem = true :=
  applyAll_wf hs a.out

/-- The memories of reset are canonical. -/
theorem reset_wf : Memory.wf State.reset.mem = true := rfl

/-! ## Reading after a write -/

theorem cellAt_append_left {x y : List Host.Cell} {a : Nat} (h : ∀ e ∈ y, e.1 ≠ a) :
    cellAt (x ++ y) a = cellAt x a := by
  induction x with
  | nil =>
    induction y with
    | nil => rfl
    | cons e r ih =>
      have he : e.1 ≠ a := h e (by simp)
      simpa [cellAt, he] using ih (fun z hz => h z (by simp [hz]))
  | cons e r ih => simp only [List.cons_append, cellAt, ih]
theorem cellAt_append_right {x y : List Host.Cell} {a : Nat} (h : ∀ e ∈ x, e.1 ≠ a) :
    cellAt (x ++ y) a = cellAt y a := by
  induction x with
  | nil => rfl
  | cons e r ih =>
    have he : e.1 ≠ a := h e (by simp)
    simpa [cellAt, he] using ih (fun z hz => h z (by simp [hz]))
theorem cellAt_filter {m : List Host.Cell} {p : Host.Cell → Bool} {a : Nat} (h : ∀ e, e.1 = a → p e = true) :
    cellAt (m.filter p) a = cellAt m a := by
  induction m with
  | nil => rfl
  | cons e r ih =>
    by_cases he : e.1 = a
    · simp [h e he, cellAt, he]
    · by_cases hp : p e = true
      · simp [hp, cellAt, he, ih]
      · simp [hp, cellAt, he, ih]
theorem cellAt_newCells (a i : Nat) (bs : List Byte) (h : i < bs.length) : cellAt (newCells a bs) (a + i) = bs[i] := by
  induction bs generalizing a i with
  | nil => simp at h
  | cons b r ih =>
    have above : ∀ e ∈ newCells (a + 1) r, e.1 ≠ a := fun e he => by have := newCells_key e he; omega
    cases i with
    | zero =>
      unfold newCells
      split
      · rename_i hb
        have : cellAt (newCells (a + 1) r) a = 0 := by
          have := cellAt_append_left (x := []) (y := newCells (a + 1) r) (a := a) above
          simpa [cellAt] using this
        simp only [beq_iff_eq] at hb
        simp [this, hb]
      · simp [cellAt]
    | succ i =>
      have hi : i < r.length := by simpa using h
      have hs := ih (a + 1) i hi
      have e1 : a + 1 + i = a + (i + 1) := by omega
      rw [e1] at hs
      unfold newCells
      split
      · simpa using hs
      · have hne : ¬ a = a + (i + 1) := by omega
        simp [cellAt, hne]
        simpa using hs

/-- A byte written reads as written. -/
theorem cellAt_writeBytes_in {m : List Host.Cell} {a i : Nat} {bs : List Byte} (h : i < bs.length) :
    cellAt (writeBytes m a bs) (a + i) = bs[i] := by
  unfold writeBytes
  rw [cellAt_append_left, cellAt_append_right, cellAt_newCells a i bs h]
  · intro e he
    have := below_key e he
    omega
  · intro e he
    have : a + bs.length ≤ e.1 := by simpa using (List.mem_filter.mp he).2
    omega
/-- A byte that was not written reads as before. -/
theorem cellAt_writeBytes_out {m : List Host.Cell} {a x : Nat} {bs : List Byte} (h : x < a ∨ a + bs.length ≤ x) :
    cellAt (writeBytes m a bs) x = cellAt m x := by
  unfold writeBytes
  rcases h with h | h
  · rw [List.append_assoc, cellAt_append_left, cellAt_filter]
    · intro e he; simp [he, h]
    · intro e he
      rcases List.mem_append.mp he with he | he
      · have := newCells_key e he; omega
      · have : a + bs.length ≤ e.1 := by simpa using (List.mem_filter.mp he).2
        omega
  · rw [cellAt_append_right, cellAt_filter]
    · intro e he; simp [he, h]
    · intro e he
      rcases List.mem_append.mp he with he | he
      · have := below_key e he; omega
      · have := newCells_key e he; omega

end Sys2Proof.Machine
end

