-- ==== Sys2Proof/Laws/State.lean ====
section
/-! SUPPORT. The small lemmas of the state record: what each update writes, and that it writes nothing else; the sparse
maps; what a meaning's answer holds. -/
namespace Sys2Proof.Machine
open Sys2Proof

/-! ## Sparse maps -/

@[simp] theorem fget_nil {α : Type} (d : α) (k : Nat) : fget ([] : FMap α) d k = d := rfl
theorem fget_cons {α : Type} (e : Nat × α) (r : FMap α) (d : α) (k : Nat) :
    fget (e :: r) d k = if e.1 == k then e.2 else fget r d k := rfl
theorem fget_fins_same {α : Type} (m : FMap α) (d v : α) (k : Nat) (h : ∀ e ∈ m, e.1 ≠ k) :
    fget (fins m k v) d k = v := by
  induction m with
  | nil => simp [fins, fget]
  | cons e r ih =>
    have he : e.1 ≠ k := h e (by simp)
    have hr : ∀ x ∈ r, x.1 ≠ k := fun x hx => h x (by simp [hx])
    unfold fins
    split
    · simp [fget]
    · simp [fget, he, ih hr]
theorem fget_fins_other {α : Type} (m : FMap α) (d v : α) (k j : Nat) (h : j ≠ k) :
    fget (fins m k v) d j = fget m d j := by
  induction m with
  | nil => simp [fins, fget, Ne.symm h]
  | cons e r ih =>
    unfold fins
    split
    · simp [fget, Ne.symm h]
    · simp [fget, ih]
theorem fget_fdel_other {α : Type} (m : FMap α) (d : α) (k j : Nat) (h : j ≠ k) :
    fget (fdel m k) d j = fget m d j := by
  induction m with
  | nil => rfl
  | cons e r ih =>
    unfold fdel at ih ⊢
    by_cases he : e.1 = k
    · simp [he, fget, Ne.symm h, ih]
    · simp [he, fget, ih]
theorem fdel_ne {α : Type} (m : FMap α) (k : Nat) : ∀ e ∈ fdel m k, e.1 ≠ k := by
  intro e he
  simpa [fdel] using (List.mem_filter.mp he).2
@[simp] theorem fget_fput_same {α : Type} (m : FMap α) (d v : α) (k : Nat) : fget (fput m k v) d k = v :=
  fget_fins_same _ _ _ _ (fdel_ne m k)
theorem fget_fput_other {α : Type} (m : FMap α) (d v : α) (k j : Nat) (h : j ≠ k) :
    fget (fput m k v) d j = fget m d j := by
  unfold fput
  rw [fget_fins_other _ _ _ _ _ h, fget_fdel_other _ _ _ _ h]
/-- An entry just inserted is removed again. -/
theorem fdel_fins {α : Type} (m : FMap α) (k : Nat) (v : α) (h : ∀ e ∈ m, e.1 ≠ k) : fdel (fins m k v) k = m := by
  induction m with
  | nil => simp [fins, fdel]
  | cons e r ih =>
    have he := h e (by simp)
    have hr : ∀ x ∈ r, x.1 ≠ k := fun x hx => h x (by simp [hx])
    unfold fins
    split
    · have hs : fdel (e :: r) k = e :: r := by
        unfold fdel; rw [List.filter_eq_self]; intro x hx; simpa using h x hx
      simp only [fdel] at hs ⊢
      simp [hs]
    · simp [fdel, he]
      exact ih hr
/-- The later of two writes to a key stands. -/
@[simp] theorem fput_fput {α : Type} (m : FMap α) (k : Nat) (v x : α) : fput (fput m k v) k x = fput m k x := by
  unfold fput; rw [fdel_fins _ _ _ (fdel_ne m k)]
theorem fget_fdel_same {α : Type} (m : FMap α) (d : α) (k : Nat) : fget (fdel m k) d k = d := by
  induction m with
  | nil => rfl
  | cons e r ih =>
    unfold fdel at ih ⊢
    by_cases he : e.1 = k
    · simp [he, ih]
    · simp [he, fget, ih]
@[simp] theorem fget_fset_same {α : Type} [DecidableEq α] (m : FMap α) (d v : α) (k : Nat) : fget (fset m d k v) d k = v := by
  unfold fset
  split
  · rename_i h; rw [h, fget_fdel_same]
  · simp
theorem fget_fset_other {α : Type} [DecidableEq α] (m : FMap α) (d v : α) (k j : Nat) (h : j ≠ k) :
    fget (fset m d k v) d j = fget m d j := by
  unfold fset
  split
  · exact fget_fdel_other _ _ _ _ h
  · exact fget_fput_other _ _ _ _ _ h

/-! ## What a meaning answers -/

@[simp] theorem only_w (w : World) : (only w).w = w := rfl
@[simp] theorem only_out (w : World) : (only w).out = [] := rfl
@[simp] theorem commit_w (s : State) (a : Act) : (s.commit a).w = a.w := rfl
@[simp] theorem commit_mem (s : State) (a : Act) : (s.commit a).mem = s.mem.applyAll a.out := rfl
@[simp] theorem applyAll_nil (m : Mems) : m.applyAll [] = m := rfl
@[simp] theorem applyAll_cons (m : Mems) (x : MemW) (r : List MemW) : m.applyAll (x :: r) = (m.apply x).applyAll r := rfl
theorem applyAll_append (m : Mems) (a b : List MemW) : m.applyAll (a ++ b) = (m.applyAll a).applyAll b := by
  induction a generalizing m with
  | nil => rfl
  | cons x r ih => simp [ih]
/-- A meaning that writes no memory answers the state with its new world. -/
@[simp] theorem done_only (s : State) (w : World) : done s (only w) = .next { s with w := w } := rfl
theorem done_next (s : State) (a : Act) : done s a = .next (s.commit a) := rfl

/-! ## Updates of the world -/

@[simp] theorem setCore_cores (w : World) (k : Nat) (c : Core) : (w.setCore k c).cores = fput w.cores k c := rfl
@[simp] theorem setCore_gangs (w : World) (k : Nat) (c : Core) : (w.setCore k c).gangs = w.gangs := rfl
@[simp] theorem setCore_dies (w : World) (k : Nat) (c : Core) : (w.setCore k c).dies = w.dies := rfl
@[simp] theorem setCore_hub (w : World) (k : Nat) (c : Core) : (w.setCore k c).hub = w.hub := rfl
@[simp] theorem setCore_flights (w : World) (k : Nat) (c : Core) : (w.setCore k c).flights = w.flights := rfl
@[simp] theorem setCore_gpoison (w : World) (k : Nat) (c : Core) : (w.setCore k c).gpoison = w.gpoison := rfl
@[simp] theorem setCore_softErrs (w : World) (k : Nat) (c : Core) : (w.setCore k c).softErrs = w.softErrs := rfl
@[simp] theorem setCore_cur (w : World) (k : Nat) (c : Core) : (w.setCore k c).cur = w.cur := rfl
@[simp] theorem setCore_script (w : World) (k : Nat) (c : Core) : (w.setCore k c).script = w.script := rfl
@[simp] theorem setCore_now (w : World) (k : Nat) (c : Core) : (w.setCore k c).now = w.now := rfl
@[simp] theorem setCore_wtcRef (w : World) (k : Nat) (c : Core) : (w.setCore k c).wtcRef = w.wtcRef := rfl
@[simp] theorem setCore_draws (w : World) (k : Nat) (c : Core) : (w.setCore k c).draws = w.draws := rfl
@[simp] theorem setCore_nextId (w : World) (k : Nat) (c : Core) : (w.setCore k c).nextId = w.nextId := rfl
@[simp] theorem setCore_abort (w : World) (k : Nat) (c : Core) : (w.setCore k c).abort = w.abort := rfl

@[simp] theorem modCore_cores (w : World) (k : Nat) (f : Core → Core) : (w.modCore k f).cores = fput w.cores k (f (w.core k)) := rfl
@[simp] theorem modCore_gangs (w : World) (k : Nat) (f : Core → Core) : (w.modCore k f).gangs = w.gangs := rfl
@[simp] theorem modCore_dies (w : World) (k : Nat) (f : Core → Core) : (w.modCore k f).dies = w.dies := rfl
@[simp] theorem modCore_hub (w : World) (k : Nat) (f : Core → Core) : (w.modCore k f).hub = w.hub := rfl
@[simp] theorem modCore_flights (w : World) (k : Nat) (f : Core → Core) : (w.modCore k f).flights = w.flights := rfl
@[simp] theorem modCore_gpoison (w : World) (k : Nat) (f : Core → Core) : (w.modCore k f).gpoison = w.gpoison := rfl
@[simp] theorem modCore_softErrs (w : World) (k : Nat) (f : Core → Core) : (w.modCore k f).softErrs = w.softErrs := rfl
@[simp] theorem modCore_cur (w : World) (k : Nat) (f : Core → Core) : (w.modCore k f).cur = w.cur := rfl
@[simp] theorem modCore_script (w : World) (k : Nat) (f : Core → Core) : (w.modCore k f).script = w.script := rfl
@[simp] theorem modCore_now (w : World) (k : Nat) (f : Core → Core) : (w.modCore k f).now = w.now := rfl
@[simp] theorem modCore_wtcRef (w : World) (k : Nat) (f : Core → Core) : (w.modCore k f).wtcRef = w.wtcRef := rfl
@[simp] theorem modCore_draws (w : World) (k : Nat) (f : Core → Core) : (w.modCore k f).draws = w.draws := rfl
@[simp] theorem modCore_nextId (w : World) (k : Nat) (f : Core → Core) : (w.modCore k f).nextId = w.nextId := rfl
@[simp] theorem modCore_abort (w : World) (k : Nat) (f : Core → Core) : (w.modCore k f).abort = w.abort := rfl

@[simp] theorem setGang_cores (w : World) (k : Nat) (g : Gang) : (w.setGang k g).cores = w.cores := rfl
@[simp] theorem setGang_gangs (w : World) (k : Nat) (g : Gang) : (w.setGang k g).gangs = fput w.gangs k g := rfl
@[simp] theorem setGang_dies (w : World) (k : Nat) (g : Gang) : (w.setGang k g).dies = w.dies := rfl
@[simp] theorem setGang_hub (w : World) (k : Nat) (g : Gang) : (w.setGang k g).hub = w.hub := rfl
@[simp] theorem setGang_flights (w : World) (k : Nat) (g : Gang) : (w.setGang k g).flights = w.flights := rfl
@[simp] theorem setGang_gpoison (w : World) (k : Nat) (g : Gang) : (w.setGang k g).gpoison = w.gpoison := rfl
@[simp] theorem setGang_softErrs (w : World) (k : Nat) (g : Gang) : (w.setGang k g).softErrs = w.softErrs := rfl
@[simp] theorem setGang_cur (w : World) (k : Nat) (g : Gang) : (w.setGang k g).cur = w.cur := rfl
@[simp] theorem setGang_script (w : World) (k : Nat) (g : Gang) : (w.setGang k g).script = w.script := rfl
@[simp] theorem setGang_now (w : World) (k : Nat) (g : Gang) : (w.setGang k g).now = w.now := rfl
@[simp] theorem setGang_wtcRef (w : World) (k : Nat) (g : Gang) : (w.setGang k g).wtcRef = w.wtcRef := rfl
@[simp] theorem setGang_draws (w : World) (k : Nat) (g : Gang) : (w.setGang k g).draws = w.draws := rfl
@[simp] theorem setGang_nextId (w : World) (k : Nat) (g : Gang) : (w.setGang k g).nextId = w.nextId := rfl
@[simp] theorem setGang_abort (w : World) (k : Nat) (g : Gang) : (w.setGang k g).abort = w.abort := rfl

@[simp] theorem modGang_cores (w : World) (k : Nat) (f : Gang → Gang) : (w.modGang k f).cores = w.cores := rfl
@[simp] theorem modGang_gangs (w : World) (k : Nat) (f : Gang → Gang) : (w.modGang k f).gangs = fput w.gangs k (f (w.gang k)) := rfl
@[simp] theorem modGang_dies (w : World) (k : Nat) (f : Gang → Gang) : (w.modGang k f).dies = w.dies := rfl
@[simp] theorem modGang_hub (w : World) (k : Nat) (f : Gang → Gang) : (w.modGang k f).hub = w.hub := rfl
@[simp] theorem modGang_flights (w : World) (k : Nat) (f : Gang → Gang) : (w.modGang k f).flights = w.flights := rfl
@[simp] theorem modGang_gpoison (w : World) (k : Nat) (f : Gang → Gang) : (w.modGang k f).gpoison = w.gpoison := rfl
@[simp] theorem modGang_softErrs (w : World) (k : Nat) (f : Gang → Gang) : (w.modGang k f).softErrs = w.softErrs := rfl
@[simp] theorem modGang_cur (w : World) (k : Nat) (f : Gang → Gang) : (w.modGang k f).cur = w.cur := rfl
@[simp] theorem modGang_script (w : World) (k : Nat) (f : Gang → Gang) : (w.modGang k f).script = w.script := rfl
@[simp] theorem modGang_now (w : World) (k : Nat) (f : Gang → Gang) : (w.modGang k f).now = w.now := rfl
@[simp] theorem modGang_wtcRef (w : World) (k : Nat) (f : Gang → Gang) : (w.modGang k f).wtcRef = w.wtcRef := rfl
@[simp] theorem modGang_draws (w : World) (k : Nat) (f : Gang → Gang) : (w.modGang k f).draws = w.draws := rfl
@[simp] theorem modGang_nextId (w : World) (k : Nat) (f : Gang → Gang) : (w.modGang k f).nextId = w.nextId := rfl
@[simp] theorem modGang_abort (w : World) (k : Nat) (f : Gang → Gang) : (w.modGang k f).abort = w.abort := rfl

@[simp] theorem setDie_cores (w : World) (k : Nat) (d : Die) : (w.setDie k d).cores = w.cores := rfl
@[simp] theorem setDie_gangs (w : World) (k : Nat) (d : Die) : (w.setDie k d).gangs = w.gangs := rfl
@[simp] theorem setDie_dies (w : World) (k : Nat) (d : Die) : (w.setDie k d).dies = fput w.dies k d := rfl
@[simp] theorem setDie_hub (w : World) (k : Nat) (d : Die) : (w.setDie k d).hub = w.hub := rfl
@[simp] theorem setDie_flights (w : World) (k : Nat) (d : Die) : (w.setDie k d).flights = w.flights := rfl
@[simp] theorem setDie_gpoison (w : World) (k : Nat) (d : Die) : (w.setDie k d).gpoison = w.gpoison := rfl
@[simp] theorem setDie_softErrs (w : World) (k : Nat) (d : Die) : (w.setDie k d).softErrs = w.softErrs := rfl
@[simp] theorem setDie_cur (w : World) (k : Nat) (d : Die) : (w.setDie k d).cur = w.cur := rfl
@[simp] theorem setDie_script (w : World) (k : Nat) (d : Die) : (w.setDie k d).script = w.script := rfl
@[simp] theorem setDie_now (w : World) (k : Nat) (d : Die) : (w.setDie k d).now = w.now := rfl
@[simp] theorem setDie_wtcRef (w : World) (k : Nat) (d : Die) : (w.setDie k d).wtcRef = w.wtcRef := rfl
@[simp] theorem setDie_draws (w : World) (k : Nat) (d : Die) : (w.setDie k d).draws = w.draws := rfl
@[simp] theorem setDie_nextId (w : World) (k : Nat) (d : Die) : (w.setDie k d).nextId = w.nextId := rfl
@[simp] theorem setDie_abort (w : World) (k : Nat) (d : Die) : (w.setDie k d).abort = w.abort := rfl

@[simp] theorem modDie_cores (w : World) (k : Nat) (f : Die → Die) : (w.modDie k f).cores = w.cores := rfl
@[simp] theorem modDie_gangs (w : World) (k : Nat) (f : Die → Die) : (w.modDie k f).gangs = w.gangs := rfl
@[simp] theorem modDie_dies (w : World) (k : Nat) (f : Die → Die) : (w.modDie k f).dies = fput w.dies k (f (w.die k)) := rfl
@[simp] theorem modDie_hub (w : World) (k : Nat) (f : Die → Die) : (w.modDie k f).hub = w.hub := rfl
@[simp] theorem modDie_flights (w : World) (k : Nat) (f : Die → Die) : (w.modDie k f).flights = w.flights := rfl
@[simp] theorem modDie_gpoison (w : World) (k : Nat) (f : Die → Die) : (w.modDie k f).gpoison = w.gpoison := rfl
@[simp] theorem modDie_softErrs (w : World) (k : Nat) (f : Die → Die) : (w.modDie k f).softErrs = w.softErrs := rfl
@[simp] theorem modDie_cur (w : World) (k : Nat) (f : Die → Die) : (w.modDie k f).cur = w.cur := rfl
@[simp] theorem modDie_script (w : World) (k : Nat) (f : Die → Die) : (w.modDie k f).script = w.script := rfl
@[simp] theorem modDie_now (w : World) (k : Nat) (f : Die → Die) : (w.modDie k f).now = w.now := rfl
@[simp] theorem modDie_wtcRef (w : World) (k : Nat) (f : Die → Die) : (w.modDie k f).wtcRef = w.wtcRef := rfl
@[simp] theorem modDie_draws (w : World) (k : Nat) (f : Die → Die) : (w.modDie k f).draws = w.draws := rfl
@[simp] theorem modDie_nextId (w : World) (k : Nat) (f : Die → Die) : (w.modDie k f).nextId = w.nextId := rfl
@[simp] theorem modDie_abort (w : World) (k : Nat) (f : Die → Die) : (w.modDie k f).abort = w.abort := rfl

@[simp] theorem modHub_cores (w : World) (f : Hub → Hub) : (w.modHub f).cores = w.cores := rfl
@[simp] theorem modHub_gangs (w : World) (f : Hub → Hub) : (w.modHub f).gangs = w.gangs := rfl
@[simp] theorem modHub_dies (w : World) (f : Hub → Hub) : (w.modHub f).dies = w.dies := rfl
@[simp] theorem modHub_hub (w : World) (f : Hub → Hub) : (w.modHub f).hub = f w.hub := rfl
@[simp] theorem modHub_flights (w : World) (f : Hub → Hub) : (w.modHub f).flights = w.flights := rfl
@[simp] theorem modHub_gpoison (w : World) (f : Hub → Hub) : (w.modHub f).gpoison = w.gpoison := rfl
@[simp] theorem modHub_softErrs (w : World) (f : Hub → Hub) : (w.modHub f).softErrs = w.softErrs := rfl
@[simp] theorem modHub_cur (w : World) (f : Hub → Hub) : (w.modHub f).cur = w.cur := rfl
@[simp] theorem modHub_script (w : World) (f : Hub → Hub) : (w.modHub f).script = w.script := rfl
@[simp] theorem modHub_now (w : World) (f : Hub → Hub) : (w.modHub f).now = w.now := rfl
@[simp] theorem modHub_wtcRef (w : World) (f : Hub → Hub) : (w.modHub f).wtcRef = w.wtcRef := rfl
@[simp] theorem modHub_draws (w : World) (f : Hub → Hub) : (w.modHub f).draws = w.draws := rfl
@[simp] theorem modHub_nextId (w : World) (f : Hub → Hub) : (w.modHub f).nextId = w.nextId := rfl
@[simp] theorem modHub_abort (w : World) (f : Hub → Hub) : (w.modHub f).abort = w.abort := rfl

/-! ## Reading back -/

@[simp] theorem core_setCore_same (w : World) (k : Nat) (c : Core) : (w.setCore k c).core k = c := by
  simp [World.core]
theorem core_setCore_other (w : World) (k j : Nat) (c : Core) (h : j ≠ k) : (w.setCore k c).core j = w.core j := by
  simp [World.core, fget_fput_other _ _ _ _ _ h]
@[simp] theorem core_modCore_same (w : World) (k : Nat) (f : Core → Core) : (w.modCore k f).core k = f (w.core k) := by
  simp [World.core]
theorem core_modCore_other (w : World) (k j : Nat) (f : Core → Core) (h : j ≠ k) : (w.modCore k f).core j = w.core j := by
  simp [World.core, fget_fput_other _ _ _ _ _ h]
@[simp] theorem gang_setGang_same (w : World) (k : Nat) (g : Gang) : (w.setGang k g).gang k = g := by
  simp [World.gang]
theorem gang_setGang_other (w : World) (k j : Nat) (g : Gang) (h : j ≠ k) : (w.setGang k g).gang j = w.gang j := by
  simp [World.gang, fget_fput_other _ _ _ _ _ h]
@[simp] theorem gang_modGang_same (w : World) (k : Nat) (f : Gang → Gang) : (w.modGang k f).gang k = f (w.gang k) := by
  simp [World.gang]
theorem gang_modGang_other (w : World) (k j : Nat) (f : Gang → Gang) (h : j ≠ k) : (w.modGang k f).gang j = w.gang j := by
  simp [World.gang, fget_fput_other _ _ _ _ _ h]
@[simp] theorem die_setDie_same (w : World) (k : Nat) (d : Die) : (w.setDie k d).die k = d := by
  simp [World.die]
theorem die_setDie_other (w : World) (k j : Nat) (d : Die) (h : j ≠ k) : (w.setDie k d).die j = w.die j := by
  simp [World.die, fget_fput_other _ _ _ _ _ h]
@[simp] theorem die_modDie_same (w : World) (k : Nat) (f : Die → Die) : (w.modDie k f).die k = f (w.die k) := by
  simp [World.die]
theorem die_modDie_other (w : World) (k j : Nat) (f : Die → Die) (h : j ≠ k) : (w.modDie k f).die j = w.die j := by
  simp [World.die, fget_fput_other _ _ _ _ _ h]
@[simp] theorem setCore_die (w : World) (k j : Nat) (c : Core) : (w.setCore k c).die j = w.die j := rfl
@[simp] theorem setCore_gang (w : World) (k j : Nat) (c : Core) : (w.setCore k c).gang j = w.gang j := rfl
@[simp] theorem setGang_core (w : World) (k j : Nat) (g : Gang) : (w.setGang k g).core j = w.core j := rfl
@[simp] theorem setDie_core (w : World) (k j : Nat) (d : Die) : (w.setDie k d).core j = w.core j := rfl
@[simp] theorem modCore_die (w : World) (k j : Nat) (f : Core → Core) : (w.modCore k f).die j = w.die j := rfl
@[simp] theorem modCore_gang (w : World) (k j : Nat) (f : Core → Core) : (w.modCore k f).gang j = w.gang j := rfl
@[simp] theorem modGang_core (w : World) (k j : Nat) (f : Gang → Gang) : (w.modGang k f).core j = w.core j := rfl
@[simp] theorem modDie_core (w : World) (k j : Nat) (f : Die → Die) : (w.modDie k f).core j = w.core j := rfl
@[simp] theorem modDie_gang (w : World) (k j : Nat) (f : Die → Die) : (w.modDie k f).gang j = w.gang j := rfl
@[simp] theorem modGang_die (w : World) (k j : Nat) (f : Gang → Gang) : (w.modGang k f).die j = w.die j := rfl
@[simp] theorem modHub_core (w : World) (j : Nat) (f : Hub → Hub) : (w.modHub f).core j = w.core j := rfl
@[simp] theorem modHub_gang (w : World) (j : Nat) (f : Hub → Hub) : (w.modHub f).gang j = w.gang j := rfl
@[simp] theorem modHub_die (w : World) (j : Nat) (f : Hub → Hub) : (w.modHub f).die j = w.die j := rfl

/-! ## The slot's core -/

@[simp] theorem onCur_cur (w : World) (f : Core → Core) : (w.onCur f).cur = w.cur := rfl
@[simp] theorem onCur_cc (w : World) (f : Core → Core) : (w.onCur f).cc = f w.cc := by
  simp [World.onCur, World.cc]
@[simp] theorem post_cur (w : World) (lat : Nat) (r : RegW) : (w.post lat r).cur = w.cur := rfl
/-- What posting does: one entry more on the slot's core, at the level of the slot. -/
theorem post_cc (w : World) (lat : Nat) (r : RegW) :
    (w.post lat r).cc =
      if w.cur.sup then { w.cc with hpend := w.cc.hpend ++ [⟨w.cur.issue + lat, w.cur.issue, w.cur.pos, r⟩] }
      else { w.cc with pend := w.cc.pend ++ [⟨w.cur.issue + lat, w.cur.issue, w.cur.pos, r⟩] } := by
  simp [World.post]
/-- Posting changes no other core. -/
theorem post_core_other (w : World) (lat : Nat) (r : RegW) (j : Nat) (h : j ≠ w.cur.core) :
    (w.post lat r).core j = w.core j := by
  simp [World.post, World.onCur, core_modCore_other _ _ _ _ h]
/-- Scalar register 0 reads zero in every state (R100). -/
@[simp] theorem rdS_zero (w : World) : w.rdS 0 = 0 := rfl
/-- Predicate 0 reads all ones in every state (R136). -/
@[simp] theorem rdP_zero (w : World) : w.rdP 0 = BitVec.allOnes 1024 := rfl

end Sys2Proof.Machine
end

