-- ==== Sys2Proof/Laws/Ops.lean ====
section
/-! SUPPORT. What the shared operations can do, once each: acting, counting, ending a task, taking an exception, consuming
an error, putting an operation in flight, a turn. -/
namespace Sys2Proof.Machine
open Sys2Proof

/-! ## Acting -/

/-- An action without writes replaces the world and nothing else. -/
@[simp] theorem commit_only (s : State) (w : World) : s.commit (only w) = { s with w := w } := rfl
/-- What a meaning answers, read back: the committed action. -/
theorem done_inv {s t : State} {a : Act} (h : done s a = .next t) : t = s.commit a := by
  simpa [done] using h.symm

/-- Every instruction completes, from every state. -/
theorem exec_goesOn (i : Instr) (s : State) : ∃ t, exec i s = .next t := by
  cases i with
  | pmov p2v d a => cases p2v <;> exact ⟨_, rfl⟩
  | _ => exact ⟨_, rfl⟩
/-- The machine never stops. -/
theorem step_goesOn (s : State) : step s = .next (turn runInstr s) := rfl
/-- What the cycle runs for an instruction is what it answers. -/
theorem runInstr_of_exec {i : Instr} {s t : State} (h : exec i s = .next t) : runInstr i s = t := by
  simp [runInstr, h]

/-! ## Counting -/

@[simp] theorem count_ctx (c : Core) (src n : Nat) : (c.count src n).ctx = c.ctx := rfl
@[simp] theorem count_pend (c : Core) (src n : Nat) : (c.count src n).pend = c.pend := rfl
@[simp] theorem count_hpend (c : Core) (src n : Nat) : (c.count src n).hpend = c.hpend := rfl
@[simp] theorem count_hseq (c : Core) (src n : Nat) : (c.count src n).hseq = c.hseq := rfl
@[simp] theorem count_gang (c : Core) (src n : Nat) : (c.count src n).gang = c.gang := rfl
@[simp] theorem world_count_gangs (w : World) (core src n : Nat) : (w.count core src n).gangs = w.gangs := rfl
@[simp] theorem world_count_hub (w : World) (core src n : Nat) : (w.count core src n).hub = w.hub := rfl
@[simp] theorem world_count_ctx (w : World) (core src n j : Nat) : ((w.count core src n).core j).ctx = (w.core j).ctx := by
  unfold World.count
  rcases eq_or_ne j core with rfl | h
  · simp
  · rw [core_modCore_other _ _ _ _ h]
/-- An event is one more of its source in the cycle, and of no other source (R128). -/
theorem count_evq (c : Core) (src n : Nat) : fget (c.count src n).evq 0 src = fget c.evq 0 src + n := by
  simp [Core.count]
theorem count_evq_other (c : Core) (src n k : Nat) (h : k ≠ src) : fget (c.count src n).evq 0 k = fget c.evq 0 k := by
  simp [Core.count, fget_fput_other _ _ _ _ _ h]

/-! ## Watches and requests to a pod peer -/

@[simp] theorem unwatch_cores (w : World) (l : List Nat) : (w.unwatch l).cores = w.cores := rfl
@[simp] theorem unwatch_gangs (w : World) (l : List Nat) : (w.unwatch l).gangs = w.gangs := rfl
@[simp] theorem unwatch_gang (w : World) (l : List Nat) (j : Nat) : (w.unwatch l).gang j = w.gang j := rfl
@[simp] theorem unwatch_dies (w : World) (l : List Nat) : (w.unwatch l).dies = w.dies := rfl
@[simp] theorem unwatch_flights (w : World) (l : List Nat) : (w.unwatch l).flights = w.flights := rfl
/-- A watch that is free again is no core's. -/
theorem mem_unwatch {w : World} {l : List Nat} {x : Nat × Nat} : x ∈ (w.unwatch l).hub.watches ↔ x ∈ w.hub.watches ∧ x.1 ∉ l := by
  simp [World.unwatch]
@[simp] theorem unsent_cores (w : World) (l : List Flight) : (w.unsent l).cores = w.cores := rfl
@[simp] theorem unsent_gangs (w : World) (l : List Flight) : (w.unsent l).gangs = w.gangs := rfl
@[simp] theorem unsent_dies (w : World) (l : List Flight) : (w.unsent l).dies = w.dies := rfl
@[simp] theorem unsent_flights (w : World) (l : List Flight) : (w.unsent l).flights = w.flights := rfl

/-! ## Ending a task (R272, R275) -/

/-- The gang of a task that ends has stopped. -/
theorem endTask_stat (w : World) (gid kind code info ipc icore : Nat) :
    ((w.endTask gid kind code info ipc icore).gang gid).stat = .ended := by
  simp [World.endTask, World.modTask]
/-- Ending a task touches no core, no die, no operation in flight and no memory. -/
@[simp] theorem endTask_cores (w : World) (gid kind code info ipc icore : Nat) :
    (w.endTask gid kind code info ipc icore).cores = w.cores := rfl
@[simp] theorem endTask_dies (w : World) (gid kind code info ipc icore : Nat) :
    (w.endTask gid kind code info ipc icore).dies = w.dies := rfl
@[simp] theorem endTask_flights (w : World) (gid kind code info ipc icore : Nat) :
    (w.endTask gid kind code info ipc icore).flights = w.flights := rfl
theorem endTask_gang_other (w : World) (gid kind code info ipc icore j : Nat) (h : j ≠ gid) :
    (w.endTask gid kind code info ipc icore).gang j = w.gang j := by
  unfold World.endTask World.modTask
  dsimp only
  rw [modHub_gang, unwatch_gang, gang_modGang_other _ _ _ _ h]

/-! ## Taking an exception (R331 to R335) -/

@[simp] theorem enterHandler_cause (c : Core) (core cause info pc : Nat) : (c.enterHandler core cause info pc).cause = cause := rfl
@[simp] theorem enterHandler_info (c : Core) (core cause info pc : Nat) :
    (c.enterHandler core cause info pc).trapinfo = info % 2 ^ 64 := rfl
@[simp] theorem enterHandler_pc (c : Core) (core cause info pc : Nat) : (c.enterHandler core cause info pc).trappc = pc % 2 ^ 16 := rfl
@[simp] theorem enterHandler_core (c : Core) (core cause info pc : Nat) : (c.enterHandler core cause info pc).trapcore = core := rfl
@[simp] theorem enterHandler_hseq (c : Core) (core cause info pc : Nat) :
    (c.enterHandler core cause info pc).hseq = { Seq.zero with pc := c.trapvec, last := c.trapvec } := rfl
/-- The program's registers, predicates and results due are kept (R333). -/
@[simp] theorem enterHandler_sregs (c : Core) (core cause info pc : Nat) :
    (c.enterHandler core cause info pc).ctx.sregs = c.ctx.sregs := rfl
@[simp] theorem enterHandler_vregs (c : Core) (core cause info pc : Nat) :
    (c.enterHandler core cause info pc).ctx.vregs = c.ctx.vregs := rfl
@[simp] theorem enterHandler_preds (c : Core) (core cause info pc : Nat) :
    (c.enterHandler core cause info pc).ctx.preds = c.ctx.preds := rfl
@[simp] theorem enterHandler_pend (c : Core) (core cause info pc : Nat) :
    (c.enterHandler core cause info pc).pend = c.pend := rfl

/-- A slot that traps says so: the rest of its bundle is suppressed (R61). -/
theorem trap_abort (w : World) (cause info : Nat) :
    (w.trap cause info).abort = some (.trap w.cur.core cause info w.cur.pc) := rfl
theorem consumed_abort (s : State) (w : World) (kind addr : Nat) :
    (s.consumed w kind addr).abort = some (.consume s.w.cur.core kind addr) := rfl
/-- A trap in a handler ends the task (R334). -/
theorem takeTrap_in_handler (w : World) (core cause info pc h : Nat) (hs : (w.gang (w.gangOf core)).stat = .handler h)
    (hm : cause ≠ 12) (he : cause ≠ 18) :
    w.takeTrap core cause info pc = (w.count core 0x34 1).endTask (w.gangOf core) 2 cause info pc core := by
  simp [World.takeTrap, hs, hm, he]
/-- Event counters alone change when an event is counted (R128). -/
theorem bump_frame (c : CoreCtx) (src n j : Nat) :
    { c with evc := (c.bump src n j).evc, evcsel := (c.bump src n j).evcsel } = c.bump src n j := by
  unfold CoreCtx.bump
  dsimp only
  split <;> [split; rfl] <;> rfl
theorem bumpAll_frame (src n : Nat) (l : List Nat) : ∀ c : CoreCtx,
    { c with evc := (bumpAll c src n l).evc, evcsel := (bumpAll c src n l).evcsel } = bumpAll c src n l := by
  induction l with
  | nil => intro c; rfl
  | cons j r ih =>
    intro c
    have h := ih (c.bump src n j)
    rw [← bump_frame c src n j] at h
    simpa [bumpAll, bump_frame] using h
/-- What a restart gap may change of a core: its event counters and its energy window (R78, R128). -/
def gapOnly (c d : Core) : Prop := { d with win := c.win, ctx := { d.ctx with evc := c.ctx.evc, evcsel := c.ctx.evcsel } } = c
theorem gapOnly_refl (c : Core) : gapOnly c c := rfl
theorem gapOnly_trans {a b c : Core} (h : gapOnly a b) (k : gapOnly b c) : gapOnly a c := by
  unfold gapOnly at *
  rw [← h, ← k]
theorem gapFold (l : List Nat) : ∀ w : World,
    let v := l.foldl (fun a k => (a.countNow k 0x0B 1).modCore k (fun c => { c with win := [] })) w
    v.gangs = w.gangs ∧ v.dies = w.dies ∧ v.hub = w.hub ∧ v.flights = w.flights ∧ ∀ j, gapOnly (v.core j) (w.core j) := by
  induction l with
  | nil => intro w; exact ⟨rfl, rfl, rfl, rfl, fun j => rfl⟩
  | cons k r ih =>
    intro w
    obtain ⟨h1, h2, h3, h4, h5⟩ := ih ((w.countNow k 0x0B 1).modCore k (fun c => { c with win := [] }))
    refine ⟨h1, h2, h3, h4, fun j => gapOnly_trans (h5 j) ?_⟩
    unfold World.countNow World.modCtx
    rcases eq_or_ne j k with rfl | h
    · simp only [core_modCore_same]
      unfold gapOnly
      rw [bumpAll_frame]
    · rw [core_modCore_other _ _ _ _ h, core_modCore_other _ _ _ _ h]
      rfl
/-- A restart gap moves the gang's next cycle and its clock, and on its cores the event counters and the window; nothing else. -/
theorem restartGap_frame (w : World) (gid : Nat) :
    let v := w.restartGap gid
    (v.gang gid).stat = (w.gang gid).stat ∧ (v.gang gid).hcyc = (w.gang gid).hcyc ∧ (v.gang gid).ttc = (w.gang gid).ttc ∧
      v.dies = w.dies ∧ v.hub = w.hub ∧ v.flights = w.flights ∧ ∀ j, gapOnly (v.core j) (w.core j) := by
  obtain ⟨h1, h2, h3, h4, h5⟩ := gapFold (w.gang gid).members ((w.reclock gid).modGang gid (fun g => g.gap w.now))
  unfold World.restartGap
  have hg : ∀ v : World, v.gangs = ((w.reclock gid).modGang gid (fun g => g.gap w.now)).gangs →
      (v.gang gid).stat = (w.gang gid).stat ∧ (v.gang gid).hcyc = (w.gang gid).hcyc ∧ (v.gang gid).ttc = (w.gang gid).ttc := by
    intro v hv
    have he : v.gang gid = ((w.reclock gid).modGang gid (fun g => g.gap w.now)).gang gid := by unfold World.gang; rw [hv]
    rw [he]
    simp [World.reclock, Gang.gap]
  obtain ⟨a, b, c⟩ := hg _ h1
  exact ⟨a, b, c, h2, h3, h4, h5⟩
/-- A trap of a program whose tenant has a handler: its gang is in the handler, whose cycles count from 0 (R333). -/
theorem takeTrap_enters (w : World) (core cause info pc : Nat) (hs : (w.gang (w.gangOf core)).stat = .running)
    (hh : (w.gang (w.gangOf core)).hasHandler = true) (hm : cause ≠ 12) (he : cause ≠ 18) :
    let v := w.takeTrap core cause info pc
    (v.gang (w.gangOf core)).stat = .handler core ∧ (v.gang (w.gangOf core)).hcyc = 0 ∧
      (v.gang (w.gangOf core)).ttc = (w.gang (w.gangOf core)).ttc ∧
      gapOnly (v.core core) ((w.core core).enterHandler core cause info pc) ∧ v.dies = w.dies ∧ v.hub = w.hub ∧
      v.flights = w.flights := by
  have hv : w.takeTrap core cause info pc = ((w.modCore core (fun c => c.enterHandler core cause info pc)).modGang (w.gangOf core)
      (fun g => { g with stat := .handler core, hcyc := 0, hevents := [] })).restartGap (w.gangOf core) := by
    simp [World.takeTrap, hs, hh, hm, he]
  obtain ⟨h1, h2, h3, h4, h5, h6, h7⟩ := restartGap_frame ((w.modCore core (fun c => c.enterHandler core cause info pc)).modGang
    (w.gangOf core) (fun g => { g with stat := .handler core, hcyc := 0, hevents := [] })) (w.gangOf core)
  rw [hv]
  refine ⟨by simpa using h1, by simpa using h2, by simpa using h3, by simpa using h7 core, by simpa using h4, by simpa using h5, by simpa using h6⟩

/-! ## Operations in flight -/

@[simp] theorem fly_cores (w : World) (a b c : Nat) (op : FOp) (l : List Acc) (x : List Byte) : (w.fly a b c op l x).cores = w.cores := rfl
@[simp] theorem fly_gangs (w : World) (a b c : Nat) (op : FOp) (l : List Acc) (x : List Byte) : (w.fly a b c op l x).gangs = w.gangs := rfl
@[simp] theorem fly_dies (w : World) (a b c : Nat) (op : FOp) (l : List Acc) (x : List Byte) : (w.fly a b c op l x).dies = w.dies := rfl
@[simp] theorem fly_hub (w : World) (a b c : Nat) (op : FOp) (l : List Acc) (x : List Byte) : (w.fly a b c op l x).hub = w.hub := rfl
@[simp] theorem fly_cur (w : World) (a b c : Nat) (op : FOp) (l : List Acc) (x : List Byte) : (w.fly a b c op l x).cur = w.cur := rfl
/-- One operation more, after those that are in flight. -/
theorem fly_flights (w : World) (a b c : Nat) (op : FOp) (l : List Acc) (x : List Byte) :
    ∃ f, (w.fly a b c op l x).flights = w.flights ++ [f] ∧ f.op = op ∧ f.start = a ∧ f.posted = b ∧ f.done = c ∧
      f.accs = l ∧ f.src = x ∧ f.core = w.cur.core ∧ f.issue = w.cur.issue := ⟨_, rfl, rfl, rfl, rfl, rfl, rfl, rfl, rfl, rfl⟩
@[simp] theorem dropFlight_cores (w : World) (id : Nat) : (w.dropFlight id).cores = w.cores := rfl
@[simp] theorem dropFlight_hub (w : World) (id : Nat) : (w.dropFlight id).hub = w.hub := rfl
/-- An operation that is dropped is in flight no more. -/
theorem mem_dropFlight {w : World} {id : Nat} {f : Flight} : f ∈ (w.dropFlight id).flights ↔ f ∈ w.flights ∧ f.id ≠ id := by
  simp [World.dropFlight]

/-! ## A turn (log 1) -/

theorem turn_script {run : Run} {s : State} {t : Turn} {r : List Turn} (h : s.w.script = t :: r) :
    turn run s = takeTurn run t (s.withW (s.popped r)) := by
  simp [turn, h]
/-- Where no task is known, an entry goes from the script and nothing else changes. -/
theorem popped_idle {s : State} (r : List Turn) (h : s.w.hub.tasks = []) : s.popped r = { s.w with script := r } := by
  simp [State.popped, h]
theorem turn_free {run : Run} {s : State} (h : s.w.script = []) : turn run s = takeTurn run s.nextTurn s := by
  simp [turn, h]
theorem takeTurn_event {run : Run} {s : State} {i : Instr} (h : isEvent i = true) : takeTurn run (.ev i) s = run i s := by
  simp [takeTurn, h]
theorem takeTurn_pass (run : Run) (s : State) (fs : Nat) :
    takeTurn run (.pass fs) s = s.withW (s.w.till (s.w.now + fs)) := rfl

end Sys2Proof.Machine
end

