-- ==== Sys2Proof/Tests/Slice0.lean ====
section
/-! SUPPORT. Tests: ill-formed operations refused, words written out from the spec's layouts decoded, one small step per form,
and for each statement a state and operands that meet its hypotheses. Expected values come from the spec, by hand. -/
namespace Sys2Proof.Tests
set_option Elab.async false
open Sys2Proof Sys2Proof.Machine

/-! ## States to test on -/

/-- Core 0 alone is gang 0 of tenant 1's task 1. -/
def soleG : Gang :=
  { Gang.zero with live := true, tenant := 1, task := 1, members := [0], hasHandler := true }
/-- The slot being issued: core 0, position 0, the bundle at word 10, the next at word 12, cycle 5. -/
def slotAt : Ctx := { Ctx.zero with pc := 10, nxt := 12, issue := 5 }
def mk (c : Core) (f : World → World) : State :=
  { w := f { World.zero with cores := [(0, { c with gang := some 0 })], gangs := [(0, soleG)], cur := slotAt },
    mem := Mems.zero }
/-- A core that has done nothing. -/
def idle : State := mk Core.zero (fun w => w)
/-- One whose context is changed. -/
def ctx (f : CoreCtx → CoreCtx) : State := mk { Core.zero with ctx := f CoreCtx.zero } (fun w => w)
/-- One with these scalars. -/
def scalars (l : List (Nat × Word)) : State := ctx (fun c => { c with sregs := l })
def vectors (l : List (Nat × Line)) : State := ctx (fun c => { c with vregs := l })
/-- The next state; the state itself where there is none. -/
def after (i : Instr) (s : State) : State := runInstr i s
/-- What a step has due on core 0: latency, write. -/
def posts (i : Instr) (s : State) : List (Nat × RegW) :=
  (((after i s).w.core 0).pend.drop (s.w.core 0).pend.length).map (fun p => (p.due - s.w.cur.issue, p.w))
/-- The same, of a vector write only what it writes. -/
def writes (i : Instr) (s : State) : List (Nat × RegW) :=
  (posts i s).map (fun e => match e.2 with | .v d x m => (e.1, .v d (x &&& m) m) | w => (e.1, w))
def mem1 (sp : Space) (a : Nat) (bs : List Byte) (s : State) : State := { s with mem := s.mem.applyAll [.bytes sp a bs] }

def stepped (s : State) : State := match step s with | .next t => t | _ => s

/-! ## Ill-formed operations -/

theorem test_wf_sequencer :
    Instr.wellFormed (.br 65536) = false ∧ Instr.wellFormed (.call (-65537)) = false ∧ Instr.wellFormed (.bri 64) = false ∧
    Instr.wellFormed (.calli 64) = false ∧ Instr.wellFormed (.brswap 64) = false ∧ Instr.wellFormed (.bc .eq 64 0) = false ∧
    Instr.wellFormed (.bc .eq 1 65536) = false ∧ Instr.wellFormed (.bp .any 16 0) = false ∧
    Instr.wellFormed (.loop 1 8 0) = false ∧ Instr.wellFormed (.lbrk 6) = false ∧ Instr.wellFormed (.trap 65536) = false ∧
    Instr.wellFormed (.pwin 1 256) = false := by decide
theorem test_wf_scalar :
    Instr.wellFormed (.add 64 0 (.reg 0)) = false ∧ Instr.wellFormed (.add 0 64 (.reg 0)) = false ∧
    Instr.wellFormed (.add 0 0 (.reg 64)) = false ∧ Instr.wellFormed (.add 0 0 (.lit 3)) = false ∧
    Instr.wellFormed (.scmp .eq 64 0 (.reg 0)) = false ∧ Instr.wellFormed (.sel 0 0 (.reg 0) 64) = false ∧
    Instr.wellFormed (.movl .lo 1 2 (.reg 0)) = false ∧ Instr.wellFormed (.ext .w8 true 64 0) = false ∧
    Instr.wellFormed (.bfx true 0 64 (.reg 0)) = false ∧ Instr.wellFormed (.lea 0 0 (.reg 0) 16) = false ∧
    Instr.wellFormed (.lidx 0 0 (.reg 0) 6) = false ∧ Instr.wellFormed (.sfadd .f32 .rne 64 0 (.reg 0)) = false ∧
    Instr.wellFormed (.sfcvt .bf16f32 .rtz 0 0) = false := by decide
theorem test_wf_memory :
    Instr.wellFormed (.lds .b8 true 1 ⟨0, .imm 0⟩) = false ∧ Instr.wellFormed (.lds .b16 false 1 ⟨0, .imm 0⟩) = false ∧
    Instr.wellFormed (.lds .b1 false 1 ⟨64, .imm 0⟩) = false ∧ Instr.wellFormed (.lds .b1 false 1 ⟨0, .imm 16⟩) = false ∧
    Instr.wellFormed (.sts .b16 true 3 ⟨0, .imm 0⟩) = false ∧ Instr.wellFormed (.ldv 384 ⟨0, .lit 0⟩) = false ∧
    Instr.wellFormed (.ldv 0 ⟨0, .lit 3⟩) = false ∧ Instr.wellFormed (.ldr 4 0 ⟨0, .imm 0⟩) = false ∧
    Instr.wellFormed (.str 4 false 0 ⟨0, .imm 0⟩) = false ∧ Instr.wellFormed (.amo .casI64 1 ⟨0, .imm 0⟩) = false ∧
    Instr.wellFormed (.gamo .casI32 1 ⟨0, .imm 0⟩) = false ∧ Instr.wellFormed (.pseal 64 ⟨0, .imm 0⟩) = false := by decide
theorem test_wf_vector_float :
    Instr.wellFormed (.vfadd .f32 .rne 384 ⟨0, false⟩ (.lit 0) ⟨0, false⟩) = false ∧
    Instr.wellFormed (.vfadd .f32 .rne 0 ⟨384, false⟩ (.lit 0) ⟨0, false⟩) = false ∧
    Instr.wellFormed (.vfadd .f32 .rne 0 ⟨0, false⟩ (.lit 0) ⟨0, true⟩) = false ∧
    Instr.wellFormed (.vfma .f32 .rne 0 ⟨0, false⟩ (.lit 0) ⟨384, false⟩ ⟨0, false⟩) = false ∧
    Instr.wellFormed (.vfmin .f32 0 ⟨0, false⟩ (.vec ⟨384, false⟩) ⟨0, false⟩) = false ∧
    Instr.wellFormed (.vfabs .f32 0 ⟨0, false⟩ ⟨16, false⟩) = false ∧
    Instr.wellFormed (.vfcmp .f32 .eq 0 ⟨0, false⟩ (.lit 0) ⟨0, false⟩) = false ∧
    Instr.wellFormed (.vfrcp .f32 .rne 384 ⟨0, false⟩ ⟨0, false⟩) = false ∧
    Instr.wellFormed (.vfcvt .f32 .f32 .rne false 0 0 ⟨0, false⟩ ⟨0, false⟩) = false ∧
    Instr.wellFormed (.vfcvt .i32 .i8 .rne false 0 0 ⟨0, false⟩ ⟨0, false⟩) = false ∧
    Instr.wellFormed (.vfcvt .i32 .f32 .rne true 0 0 ⟨0, false⟩ ⟨0, false⟩) = false ∧
    Instr.wellFormed (.vfcvt .f32 .bf16 .rne false 2 0 ⟨0, false⟩ ⟨0, false⟩) = false ∧
    Instr.wellFormed (.vfcvt .f32 .bf16 .rtz false 1 0 ⟨0, false⟩ ⟨0, false⟩) = false ∧
    Instr.wellFormed (.vfscl .f32 .rne true false 0 ⟨0, false⟩ (.lit 0) ⟨0, false⟩) = false ∧
    Instr.wellFormed (.vfscl .f32 .rne true false 0 ⟨0, false⟩ (.reg 16) ⟨0, false⟩) = false := by decide
theorem test_wf_vector_integer :
    Instr.wellFormed (.vdot4 true false 0 ⟨0, false⟩ (.lit 0) ⟨1, false⟩ ⟨0, false⟩) = false ∧
    Instr.wellFormed (.vabs .n8 false 0 ⟨0, false⟩ ⟨0, false⟩) = false ∧
    Instr.wellFormed (.vcmp .i8 .eq 16 ⟨0, false⟩ (.lit 0) ⟨0, false⟩) = false ∧
    Instr.wellFormed (.vsel .i8 0 ⟨0, false⟩ (.lit 0) 16 ⟨0, false⟩) = false ∧
    Instr.wellFormed (.vsat .i8 0 0 ⟨0, false⟩ ⟨0, false⟩) = false ∧ Instr.wellFormed (.vsat .i8 9 0 ⟨0, false⟩ ⟨0, false⟩) = false ∧
    Instr.wellFormed (.vcvt .i8 .i32 false 4 0 ⟨0, false⟩ ⟨0, false⟩) = false ∧
    Instr.wellFormed (.vclz .i8 384 ⟨0, false⟩ ⟨0, false⟩) = false ∧ Instr.wellFormed (.vidx .i8 64 0 (.lit 0) ⟨0, false⟩) = false ∧
    Instr.wellFormed (.vbcs .i8 0 (.reg 64) ⟨0, false⟩) = false ∧
    Instr.wellFormed (.vadd .i8 false 0 ⟨0, false⟩ (.lit 3) ⟨0, false⟩) = false := by decide
theorem test_wf_permute :
    Instr.wellFormed (.vrot .i8 0 ⟨0, false⟩ (.reg 64) ⟨0, false⟩) = false ∧
    Instr.wellFormed (.vshuf .i8 .rev 0 ⟨0, false⟩ (.vec ⟨1, false⟩) ⟨0, false⟩) = false ∧
    Instr.wellFormed (.vrmg .i8 0 ⟨0, false⟩ (.lit 0) 64 ⟨0, false⟩) = false ∧
    Instr.wellFormed (.vwin .i8 64 0 ⟨0, false⟩ (.lit 0) ⟨0, false⟩) = false ∧
    Instr.wellFormed (.vred .i8 .sum .rtz false 0 ⟨0, false⟩ ⟨0, false⟩) = false ∧
    Instr.wellFormed (.vscan .i8 .sum true .rtz false 0 ⟨0, false⟩ ⟨0, false⟩) = false ∧
    Instr.wellFormed (.vpack .i8 .rne false 0 ⟨0, false⟩ (.lit 0) ⟨0, false⟩) = false ∧
    Instr.wellFormed (.vpack .i16 .rtz false 0 ⟨0, false⟩ (.lit 0) ⟨0, false⟩) = false ∧
    Instr.wellFormed (.vunpk .i32 false 0 ⟨0, false⟩ ⟨0, false⟩) = false ∧ Instr.wellFormed (.vext .i8 64 ⟨0, false⟩ (.lit 0)) = false ∧
    Instr.wellFormed (.vins .i8 0 64 (.lit 0)) = false ∧ Instr.wellFormed (.pand 0 1 1) = false ∧ Instr.wellFormed (.por 1 16 1) = false ∧
    Instr.wellFormed (.pnot 1 16) = false ∧ Instr.wellFormed (.pmov true 0 ⟨0, true⟩) = false ∧
    Instr.wellFormed (.pmov false 0 ⟨0, false⟩) = false := by decide
theorem test_wf_engines :
    Instr.wellFormed (.bcopy .ss 64 (.reg 0) 0) = false ∧ Instr.wellFormed (.tcopy .ss 0 (.lit 3) 0) = false ∧
    Instr.wellFormed (.bfill true .b1 0 (.reg 0) 64) = false ∧ Instr.wellFormed (.bchk 4 0 (.reg 0)) = false ∧
    Instr.wellFormed (.ifill true 64 (.reg 0)) = false ∧ Instr.wellFormed (.send 4 0 (.reg 0)) = false ∧
    Instr.wellFormed (.mcast 0 384 (.reg 0)) = false ∧ Instr.wellFormed (.sends 64 (.reg 0)) = false ∧
    Instr.wellFormed (.recv 384 (.reg 0)) = false ∧ Instr.wellFormed (.recvs 64 (.reg 0)) = false ∧
    Instr.wellFormed (.signal 64 (.reg 0)) = false ∧ Instr.wellFormed (.bararr 64 (.reg 0)) = false ∧
    Instr.wellFormed (.dqpush 0 64 (.reg 0)) = false ∧ Instr.wellFormed (.dqpop 1 (.reg 0)) = false ∧
    Instr.wellFormed (.dqsteal 3 (.reg 0)) = false ∧ Instr.wellFormed (.launch 0 64) = false ∧ Instr.wellFormed (.twait (.reg 64)) = false ∧
    Instr.wellFormed (.mlease 64) = false ∧ Instr.wellFormed (.tload true true false 0 0 (.reg 0)) = false ∧
    Instr.wellFormed (.tload false false false 16 0 (.reg 0)) = false ∧ Instr.wellFormed (.tstore false 20 0 (.reg 0)) = false ∧
    Instr.wellFormed (.tzero 20) = false ∧ Instr.wellFormed (.mma false false 4 0 0) = false ∧
    Instr.wellFormed (.mma false false 0 16 0) = false ∧ Instr.wellFormed (.tcvt .rne false 16 0 (.reg 0)) = false ∧
    Instr.wellFormed (.tscl 16 0 (.reg 0)) = false := by decide
theorem test_wf_carousel_and_system :
    Instr.wellFormed (.cboard true 64 (.reg 0)) = false ∧ Instr.wellFormed (.calight true false 0 1 (.reg 0)) = false ∧
    Instr.wellFormed (.ccatch true 64 0 (.reg 0)) = false ∧ Instr.wellFormed (.crost true 0 (.lit 3)) = false ∧
    Instr.wellFormed (.srr 64 0) = false ∧ Instr.wellFormed (.srr 0 0x07) = false ∧ Instr.wellFormed (.srr 0 4096) = false ∧
    Instr.wellFormed (.srw 0 (.reg 0)) = false ∧ Instr.wellFormed (.srw 0x10 (.reg 64)) = false ∧ Instr.wellFormed (.rdtt 64) = false ∧
    Instr.wellFormed (.scld 16 0 (.reg 0)) = false ∧ Instr.wellFormed (.cropen (.reg 64)) = false ∧
    Instr.wellFormed (.evctl .start false (.lit 3)) = false := by decide
/-- The largest operands that their fields hold are accepted. -/
theorem test_wf_accepts :
    Instr.wellFormed (.br (-65536)) = true ∧ Instr.wellFormed (.add 63 63 (.lit 2)) = true ∧
    Instr.wellFormed (.lds .b16 false 62 ⟨63, .imm (-16)⟩) = true ∧
    Instr.wellFormed (.vfma .f16 .rdn 383 ⟨383, true⟩ (.vec ⟨383, true⟩) ⟨383, true⟩ ⟨15, true⟩) = true ∧
    Instr.wellFormed (.srr 63 0xBF) = true := by decide

/-! ## Words written field by field from R49 to R54 and the forms' own tables -/

/-- `loop s3, 4, -5` (R90), `lbrk 2` (R92), `trap #0xABCD` (R337). -/
theorem test_decode_sequencer :
    decodeCls .c 0b000111_000011_011_11111111111111011 = .ok (.loop 3 3 (-5)) ∧
    decodeCls .c 0b001001_00000000000000000000000_001 = .ok (.lbrk 1) ∧
    decodeCls .c 0b001011_0000000000_1010101111001101 = .ok (.trap 0xABCD) := by decide
/-- `mul s1, s2, s3` (R114), `movl.hk s1, s2, #L0` (R108), an unassigned opcode (R65). -/
theorem test_decode_scalar :
    decodeCls .a 0b100000_000001_000010_000011_00_000000 = .ok (.mul 1 2 (.reg 3)) ∧
    decodeCls .a 0b010000_000001_000010_000000_01_000011 = .ok (.movl .hk 1 2 (.lit 0)) ∧
    decodeCls .a 0b110000_000001_000010_000011_00_000000 = .bad 1 := by decide
/-- `amo.cas.i32 s4, [s2+3]` (R186), `gld.i32 s5, [s1]` (R182, R206), AMO with q 15 refused (R186). -/
theorem test_decode_memory :
    decodeCls .m 0b000111_000000100_000010_00_00011_1100 = .ok (.amo .casI32 4 ⟨2, .imm 3⟩) ∧
    decodeCls .m 0b010000_000000101_000001_00_00000_1010 = .ok (.gld .b4 true 5 ⟨1, .imm 0⟩) ∧
    decodeCls .m 0b000111_000000100_000010_00_00011_1111 = .bad 2 := by decide
/-- `vfcmp.f16.un p3, v1, v2` (R164), `vfcvt.bf16.sf32.rne v1, v2, 1` (R166), a destination above 383 (R66). -/
theorem test_decode_vector_float :
    decodeCls .f 0b001010_010_11_0_000000011_000000001_000000010_000000000_0_0_0_0000_0_00_000000 =
      .ok (.vfcmp .f16 .un 3 ⟨1, false⟩ (.vec ⟨2, false⟩) ⟨0, false⟩) ∧
    decodeCls .f 0b001110_001_00_0_000000001_000000010_000000000_000000000_0_0_0_0000_0_00_001000 =
      .ok (.vfcvt .bf16 .f32 .rne false 1 1 ⟨2, false⟩ ⟨0, false⟩) ∧
    decodeCls .f 0b000000_000_00_0_110000000_000000001_000000010_000000000_0_0_0_0000_0_00_000000 = .bad 3 := by decide
/-- `vdot4.n8.acc v1, v2, v3, v4` (R140), a reserved format (R55), `(!p0)` (R58). -/
theorem test_decode_vector_integer :
    decodeCls .i 0b000100_100_00_1_000000001_000000010_000000011_000000100_0_0_0_0000_0_00_000000 =
      .ok (.vdot4 false true 1 ⟨2, false⟩ (.vec ⟨3, false⟩) ⟨4, false⟩ ⟨0, false⟩) ∧
    decodeCls .i 0b000000_011_00_0_000000001_000000010_000000011_000000000_0_0_0_0000_0_00_000000 = .bad 4 ∧
    decodeCls .i 0b000000_000_00_0_000000001_000000010_000000011_000000000_0_0_0_0000_1_00_000000 = .bad 3 := by decide
/-- `vscan.i32.max.ex v1, v2` (R149), `pmov.p2v v5, p3` (R152), a held b with a literal (R57). -/
theorem test_decode_permute :
    decodeCls .p 0b000110_010_00_0_000000001_000000010_000000000_000000000_0_0_0_0000_0_00_000110 =
      .ok (.vscan .i32 .max true .rne false 1 ⟨2, false⟩ ⟨0, false⟩) ∧
    decodeCls .p 0b001111_000_00_0_000000101_000000011_000000000_000000000_0_0_0_0000_0_00_000001 =
      .ok (.pmov true 5 ⟨3, false⟩) ∧
    decodeCls .p 0b000000_010_00_0_000000001_000000010_000000000_000000000_0_1_0_0000_0_01_000000 = .bad 5 := by decide
/-- `send.l2 v300, s7` (R241), `bararr s5, s6` (R258), `ccatch.ccw s5, s3, s4` (R320). -/
theorem test_decode_engines :
    decodeCls .e 0b001000_101100_000111_000000_00_010100 = .ok (.send 2 300 (.reg 7)) ∧
    decodeCls .e 0b010000_000000_000110_000101_00_000000 = .ok (.bararr 5 (.reg 6)) ∧
    decodeCls .e 0b110010_000011_000100_000101_00_000001 = .ok (.ccatch true 5 3 (.reg 4)) := by decide
/-- `srr s5, FPFLAGS` (R121, R125), `evctl.clear.die #L2` (R129), an unassigned register number (R125). -/
theorem test_decode_system :
    decodeCls .x 0b000000_000101_000000_00_000000010000 = .ok (.srr 5 0x10) ∧
    decodeCls .x 0b001010_000000_000000_11_000000000110 = .ok (.evctl .clear true (.lit 2)) ∧
    decodeCls .x 0b000000_000101_000000_00_000000000111 = .bad 2 := by decide
def firstStep : State :=
  stepped (State.reset.withFetchWord 64 0b000011_000_00_0_000000001_000000010_000000011_000000100_0_0_0_0000_0_00_000000)
/-- A word of the opcode table is read in its class, and the next step runs it: TTC has advanced by one. -/
theorem test_first_instruction :
    decodeTableWord 64 0b000011_000_00_0_000000001_000000010_000000011_000000100_0_0_0_0000_0_00_000000 =
      some (.vfma .f32 .rne 1 ⟨2, false⟩ (.vec ⟨3, false⟩) ⟨4, false⟩ ⟨0, false⟩) ∧
    (firstStep.w.gang 0).ttc = 1 ∧ (firstStep.w.core 0).pend.length = 2 ∧ (firstStep.w.core 0).ctx.seq.pc = 3 := by decide +kernel

/-! ## One step of a form: scalars -/

theorem test_add_wraps : posts (.add 1 2 (.reg 3)) (scalars [(2, 0xFFFFFFFFFFFFFFFF), (3, 2)]) = [(1, .s 1 1)] := by decide +kernel
theorem test_sub_borrows : posts (.sub 1 0 (.reg 3)) (scalars [(3, 1)]) = [(1, .s 1 0xFFFFFFFFFFFFFFFF)] := by decide +kernel
theorem test_andn_complements_b : posts (.andn 1 2 (.reg 3)) (scalars [(2, 0b1100), (3, 0b1010)]) = [(1, .s 1 0b0100)] := by decide +kernel
theorem test_sar_keeps_sign_and_masks_count :
    posts (.sar 1 2 (.reg 3)) (scalars [(2, -8), (3, 65)]) = [(1, .s 1 (-4))] := by decide +kernel
theorem test_shr_is_logical : posts (.shr 1 2 (.reg 3)) (scalars [(2, -1), (3, 63)]) = [(1, .s 1 1)] := by decide +kernel
theorem test_rol_carries_round : posts (.rol 1 2 (.reg 3)) (scalars [(2, 0x8000000000000001), (3, 1)]) = [(1, .s 1 3)] := by decide +kernel
theorem test_min_signed_minn_unsigned :
    posts (.min 1 2 (.reg 3)) (scalars [(2, -1), (3, 1)]) = [(1, .s 1 (-1))] ∧
    posts (.minn 1 2 (.reg 3)) (scalars [(2, -1), (3, 1)]) = [(1, .s 1 1)] := by decide +kernel
theorem test_scmp_ltn_unsigned : posts (.scmp .ltn 1 2 (.reg 3)) (scalars [(2, -1), (3, 1)]) = [(1, .s 1 0)] := by decide +kernel
theorem test_sel_of_s0_takes_b : posts (.sel 1 2 (.reg 3) 0) (scalars [(2, 5), (3, 9)]) = [(1, .s 1 9)] := by decide +kernel
theorem test_movl_hk_keeps_low : posts (.movl .hk 1 2 (.reg 3)) (scalars [(2, 0x1122334455667788), (3, 0xAABBCCDD)]) =
    [(1, .s 1 0xAABBCCDD55667788)] := by decide +kernel
theorem test_ext_sign : posts (.ext .w8 true 1 2) (scalars [(2, 0x180)]) = [(1, .s 1 (-128))] := by decide +kernel
theorem test_bfx_sign : posts (.bfx true 1 2 (.reg 3)) (scalars [(2, 0xF0), (3, 0x404)]) = [(1, .s 1 (-1))] := by decide +kernel
theorem test_bfi_inserts : posts (.bfi 1 2 (.reg 3)) (scalars [(1, 0xFFFF), (2, 0x5), (3, 0x404)]) = [(1, .s 1 0xFF5F)] := by decide +kernel
theorem test_counts :
    posts (.clz 1 2) (scalars [(2, 1)]) = [(1, .s 1 63)] ∧ posts (.ctz 1 0) idle = [(1, .s 1 64)] ∧
    posts (.popc 1 2) (scalars [(2, 0xF0F)]) = [(1, .s 1 8)] := by decide +kernel
theorem test_lea_scales_b : posts (.lea 1 2 (.reg 3) 3) (scalars [(2, 100), (3, 2)]) = [(1, .s 1 116)] := by decide +kernel
theorem test_mulh_mulhn :
    posts (.mulh 1 2 (.reg 3)) (scalars [(2, -1), (3, 2)]) = [(3, .s 1 (-1))] ∧
    posts (.mulhn 1 2 (.reg 3)) (scalars [(2, -1), (3, 2)]) = [(3, .s 1 1)] := by decide +kernel
theorem test_madd_adds_destination : posts (.madd 1 2 (.reg 3)) (scalars [(1, 10), (2, 3), (3, 4)]) = [(3, .s 1 22)] := by decide +kernel
theorem test_div_truncates_to_zero :
    posts (.div 1 2 (.reg 3)) (scalars [(2, -7), (3, 2)]) = [(16, .s 1 (-3))] ∧
    posts (.rem 1 2 (.reg 3)) (scalars [(2, -7), (3, 2)]) = [(16, .s 1 (-1))] := by decide +kernel
theorem test_div_by_zero :
    posts (.div 1 2 (.reg 0)) (scalars [(2, 7)]) = [(16, .s 1 (-1))] ∧
    posts (.rem 1 2 (.reg 0)) (scalars [(2, 7)]) = [(16, .s 1 7)] := by decide +kernel
/-- 1.0 + 2.0 = 3.0 and 3.0 × -2.0 = -6.0, exactly. -/
theorem test_sfadd_sfmul :
    posts (.sfadd .f32 .rne 1 2 (.reg 3)) (scalars [(2, 0x3F800000), (3, 0x40000000)]) = [(4, .s 1 0x40400000), (4, .flags 0)] ∧
    posts (.sfmul .f32 .rne 1 2 (.reg 3)) (scalars [(2, 0x40400000), (3, 0xC0000000)]) = [(4, .s 1 0xC0C00000), (4, .flags 0)] := by
  decide +kernel
theorem test_sfcmp_zeros_equal : posts (.sfcmp .f32 .eq 1 2 (.reg 3)) (scalars [(2, 0x80000000), (3, 0)]) =
    [(4, .s 1 1), (4, .flags 0)] := by decide +kernel

/-! ## The sequencer -/

theorem test_br_offset_from_header : ((after (.br (-3)) idle).w.core 0).ctx.seq = { Seq.zero with pc := 7, owedT := 1, last := 10 } := by
  decide +kernel
theorem test_bc_gt_zero_is_not_taken : ((after (.bc .gt 0 (-3)) idle).w.core 0).ctx.seq.pc = 12 := by decide +kernel
theorem test_call_links : posts (.call 5) idle = [(1, .s 63 12)] ∧ ((after (.call 5) idle).w.core 0).ctx.seq.pc = 15 := by decide +kernel
theorem test_bri_drops_high_bits : ((after (.bri 1) (scalars [(1, 0x50020)])).w.core 0).ctx.seq.pc = 0x20 := by decide +kernel
theorem test_loop_pushes : ((after (.loop 1 0 6) (scalars [(1, 3)])).w.core 0).ctx.loops =
    [{ start := 12, exit := 16, stg := 0, rem := 3, idx := 0 }] := by decide +kernel
theorem test_loop_of_no_trips_skips : ((after (.loop 1 0 6) idle).w.core 0).ctx.loops = [] ∧
    ((after (.loop 1 0 6) idle).w.core 0).ctx.seq.pc = 16 := by decide +kernel
def inLoop : State := ctx (fun c => { c with loops := [{ start := 4, exit := 12, stg := 0, rem := 2, idx := 0 }] })
theorem test_lend_goes_back : ((after .lend inLoop).w.core 0).ctx.seq.pc = 4 ∧
    ((after .lend inLoop).w.core 0).ctx.loops = [{ start := 4, exit := 12, stg := 0, rem := 1, idx := 1 }] := by decide +kernel
theorem test_lend_without_loop_traps : ((after .lend idle).w.core 0).cause = 1 ∧ ((after .lend idle).w.core 0).trappc = 10 ∧
    ((after .lend idle).w.gang 0).stat = .handler 0 := by decide +kernel
theorem test_lbrk_leaves : ((after (.lbrk 0) inLoop).w.core 0).ctx.seq.pc = 12 ∧ ((after (.lbrk 0) inLoop).w.core 0).ctx.loops = [] := by
  decide +kernel
theorem test_halt : ((after .halt idle).w.core 0).ctx.halted = true := by decide +kernel
theorem test_trap_is_taken_later : ((after (.trap 7) idle).w.gang 0).events =
    [{ due := 6, core := 0, issue := 5, pos := 0, cause := 15, info := 7, pc := some 12 }] := by decide +kernel

/-! ## Memory -/

theorem test_lds_extends_sign : posts (.lds .b1 true 1 ⟨2, .imm 1⟩) (mem1 .spd 16 [0x80] (scalars [(2, 15)])) = [(4, .s 1 (-128))] := by
  decide +kernel
theorem test_lds_is_little_endian : posts (.lds .b2 false 1 ⟨0, .imm 8⟩) (mem1 .spd 16 [0x34, 0x12] idle) = [(4, .s 1 0x1234)] := by
  decide +kernel
theorem test_sts_stores_low_bytes : (after (.sts .b2 false 1 ⟨0, .imm 8⟩) (scalars [(1, 0xABCDEF)])).mem.bytes .spd 16 3 = [0xEF, 0xCD, 0] := by
  decide +kernel
theorem test_bulk_store_makes_stale : ((after (.sts .b2 true 1 ⟨0, .imm 8⟩) (scalars [(1, 1)])).w.core 0).staleQ = [0] := by decide +kernel
theorem test_covered_store_keeps_parity :
    (after (.sts .b1 false 1 ⟨0, .imm 5⟩) (mem1 .spd 5 [0x0F] (scalars [(1, 0xFF)]))).mem.byte .mortar 5 = 0xF0 := by decide +kernel
theorem test_amo_reads_at_issue :
    posts (.amo .addI32 4 ⟨0, .imm 2⟩) (mem1 .spd 8 [0xFF, 0xFF, 0xFF, 0xFF] (scalars [(4, 2)])) = [(6, .s 4 (-1)), (6, .flags 0)] ∧
    (((after (.amo .addI32 4 ⟨0, .imm 2⟩) (mem1 .spd 8 [0xFF, 0xFF, 0xFF, 0xFF] (scalars [(4, 2)]))).w.core 0).amos.map
      (fun a => (a.issue, a.addr, a.n, a.value))) = [(5, 8, 4, 1)] := by decide +kernel
theorem test_gld_without_lease_traps : ((after (.gld .b8 false 1 ⟨0, .imm 0⟩) idle).w.core 0).cause = 10 := by decide +kernel

/-! ## Vectors -/

theorem test_vadd_wraps_and_saturates :
    posts (.vadd .i8 false 1 ⟨2, false⟩ (.vec ⟨3, false⟩) ⟨0, false⟩) (vectors [(2, 0x7F), (3, 1)]) = [(2, .v 1 0x80 allV)] ∧
    posts (.vadd .i8 true 1 ⟨2, false⟩ (.vec ⟨3, false⟩) ⟨0, false⟩) (vectors [(2, 0x7F), (3, 1)]) = [(2, .v 1 0x7F allV)] := by
  decide +kernel
theorem test_vsub_unsigned_saturates_at_zero :
    posts (.vsub .n16 true 1 ⟨2, false⟩ (.vec ⟨3, false⟩) ⟨0, false⟩) (vectors [(2, 1), (3, 2)]) = [(2, .v 1 0 allV)] := by decide +kernel
theorem test_vabs_of_the_least : posts (.vabs .i8 true 1 ⟨2, false⟩ ⟨0, false⟩) (vectors [(2, 0x80)]) = [(2, .v 1 0x7F allV)] := by
  decide +kernel
theorem test_vdot4_is_signed :
    posts (.vdot4 true false 1 ⟨2, false⟩ (.vec ⟨3, false⟩) ⟨0, false⟩ ⟨0, false⟩) (vectors [(2, 0x0201FF02), (3, 0x01020304)]) =
      [(4, .v 1 9 allV)] := by decide +kernel
theorem test_vshl_count_modulo_width :
    posts (.vshl .n8 1 ⟨2, false⟩ (.vec ⟨3, false⟩) ⟨0, false⟩) (vectors [(2, 0x81), (3, 9)]) = [(2, .v 1 2 allV)] := by decide +kernel
/-- 1.0 + 1.0 = 2.0 in f16; zeros elsewhere. -/
theorem test_vfadd : posts (.vfadd .f16 .rne 1 ⟨2, false⟩ (.vec ⟨3, false⟩) ⟨0, false⟩) (vectors [(2, 0x3C00), (3, 0x3C00)]) =
    [(4, .v 1 0x4000 allV), (4, .flags 0)] := by decide +kernel
theorem test_vfneg_of_nan_flips_sign : writes (.vfneg .f32 1 ⟨2, false⟩ ⟨1, false⟩)
    (ctx (fun c => { c with vregs := [(2, 0x7FC00001)], preds := [(1, 1)] })) = [(4, .v 1 0xFFC00001 0xFFFFFFFF), (4, .flags 0)] := by
  decide +kernel
theorem test_vrot_moves_toward_zero :
    posts (.vrot .n32 1 ⟨2, false⟩ (.reg 3) ⟨0, false⟩) (ctx (fun c => { c with vregs := [(2, 0xBBBBBBBB_AAAAAAAA)], sregs := [(3, 1)] })) =
      [(3, .v 1 (0xBBBBBBBB + 0xAAAAAAAA * 2 ^ (32 * 255)) allV)] := by decide +kernel
theorem test_vred_counts_enabled_elements : posts (.vred .i32 .sum .rne false 1 ⟨2, false⟩ ⟨1, false⟩)
    (ctx (fun c => { c with vregs := [(2, 0x00000005_00000004_00000003)], preds := [(1, 0xF0F)] })) =
      [(6, .v 1 8 allV), (6, .flags 0)] := by decide +kernel
theorem test_vext_extends_sign : posts (.vext .i16 1 ⟨2, false⟩ (.reg 3))
    (ctx (fun c => { c with vregs := [(2, 0x8000_0001)], sregs := [(3, 1)] })) = [(3, .s 1 (-32768))] := by decide +kernel
theorem test_predicate_forms :
    posts (.pnot 1 0) idle = [(1, .p 1 0 allP)] ∧ posts (.pand 1 0 2) (ctx (fun c => { c with preds := [(2, 5)] })) = [(1, .p 1 5 allP)] := by
  decide +kernel
theorem test_latch_is_recorded_and_held :
    ((after (.vor .n8 1 ⟨2, false⟩ (.vec ⟨3, false⟩) ⟨0, false⟩) (vectors [(2, 6), (3, 9)])).w.core 0).ctx.latches = [(0, 6), (1, 9)] ∧
    posts (.vor .n8 1 ⟨2, true⟩ (.vec ⟨3, false⟩) ⟨0, false⟩) (ctx (fun c => { c with vregs := [(2, 6), (3, 9)], latches := [(0, 0x10)] })) =
      [(2, .v 1 0x19 allV)] := by decide +kernel

/-! ## Engines, queues, system -/

theorem test_bcopy_of_nothing : (after (.bcopy .ss 1 (.reg 2) 3) idle).w.flights = [] ∧ ((after (.bcopy .ss 1 (.reg 2) 3) idle).w.core 0).cause = 0 := by
  decide +kernel
theorem test_recv_of_an_empty_queue_traps : ((after (.recv 1 (.reg 0)) idle).w.core 0).cause = 4 := by decide +kernel
theorem test_sends_flies : ((after (.sends 1 (.reg 0)) idle).w.flights.map (fun f => (f.posted, f.op))) = [(21, .send [0] 0 0)] := by
  decide +kernel
theorem test_bararr_posted : ((after (.bararr 1 (.reg 2)) (scalars [(2, 0x1007)])).w.flights.map (fun f => (f.posted, f.op))) =
    [(1541, .bar false 1 7)] := by decide +kernel
theorem test_mlease_free : posts (.mlease 1) idle = [(1, .s 1 1), (1, .lease true)] := by decide +kernel
theorem test_tzero_without_lease_traps : ((after (.tzero 0) idle).w.core 0).cause = 12 := by decide +kernel
theorem test_ccatch_watch : ((after (.ccatch true 1 0 (.reg 2)) (scalars [(2, 0xFF000042)])).w.flights.map (fun f => f.posted)) = [4165] := by
  decide +kernel
theorem test_srr_coreid_and_fpctrl : posts (.srr 1 0) idle = [(2, .s 1 0)] ∧ posts (.srr 1 0x11) idle = [(2, .s 1 31)] := by decide +kernel
theorem test_srr_privileged_traps : ((after (.srr 1 0x40) idle).w.core 0).cause = 2 ∧ ((after (.srr 1 0x40) idle).w.core 0).trapinfo = 0x40 := by
  decide +kernel
theorem test_crclose_without_region_traps : ((after .crclose idle).w.core 0).cause = 1 := by decide +kernel
theorem test_fence_with_nothing_before : after (.fence .pkg) idle = idle := by decide +kernel
theorem test_rstrt_without_restart_state_ends : ((after .rstrt idle).w.gang 0).stat = .ended := by decide +kernel

/-! ## Steps without an encoding -/

/-- A masked write at its cycle; `s0` keeps zero. -/
theorem test_due_write_is_masked : fget ((after (.exposedWrite 0)
      (mk { Core.zero with pend := [⟨0, 0, 0, .v 1 0xFFFF 0xFF⟩, ⟨0, 0, 0, .s 0 5⟩] } (fun w => w))).w.core 0).ctx.vregs 0 1 = 0xFF ∧
    sreg ((after (.exposedWrite 0) (mk { Core.zero with pend := [⟨0, 0, 0, .s 0 5⟩] } (fun w => w))).w.core 0) false 0 = 0 := by
  decide +kernel
theorem test_host_put_stores : (after (.hostPut ⟨0, 32⟩ [0x0F0E0D0C0B0A09080706050403020100]) idle).mem.bytes .glb 32 4 = [0, 1, 2, 3] := by
  decide +kernel
theorem test_host_put_misaligned_refused : (after (.hostPut ⟨0, 33⟩ [1]) idle).w.hub.out = [.error] := by decide +kernel
/-- 35 phases of 18 A. -/
theorem test_phase_loss : (after (.phaseLoss 0) idle).w.reg 0 = { imeas := 0, ilim := 630, phok := 35, step := 0, low := 0, derated := true } := by
  decide +kernel
theorem test_launch_window_needs_a_record : (after (.launchWindowPost 1 1 0 0) idle).w.hub.out = [.status 3] := by decide +kernel
theorem test_course_map : ((after (.registerWrite (.courseMap 9) 0x25) idle).w.core 9).xm = 5 := by decide +kernel
theorem test_home_down : ((after (.homeDown 3) idle).w.die 3).up = false := by decide +kernel
theorem test_roster_miss : ((after (.rosterRequest 0) (mk Core.zero (fun w => w.fly 5 165 165 (.roster false 1 7) [] []))).w.flights.map
    (fun f => (f.res, f.arrived))) = [(0, true)] := by decide +kernel

/-! ## Hypotheses met: the sequencer and scalars -/

/-- The core with one register `s1`. -/
def sg (v : Word) : State := scalars [(1, v)]
def pr (p : Pred) : State := ctx (fun c => { c with preds := [(1, p)] })
def loops (l : List LoopEntry) (v : Word) : State := ctx (fun c => { c with loops := l, sregs := [(1, v)] })
def anEntry : LoopEntry := { start := 4, exit := 12, stg := 0, rem := 2, idx := 0 }
def aw (op ls m6 : Nat) : AWord := { op := op, sd := 1, sa := 0, sb := 0, ls := ls, m6 := m6 }
def inHandlerSlot : State := mk { Core.zero with ctx := { CoreCtx.zero with sup := [(1, 9)] } }
  (fun w => { w with cur := { slotAt with sup := true } })

theorem witness_DirectBranches :
    (((sg 0).w.rdS 1).toInt = 0 ∧ ((sg 1).w.rdS 1).toInt ≠ 0 ∧ ((sg (-1)).w.rdS 1).toInt < 0 ∧ 0 ≤ ((sg 0).w.rdS 1).toInt ∧
      0 < ((sg 1).w.rdS 1).toInt ∧ ((sg 0).w.rdS 1).toInt ≤ 0 ∧ ¬((sg 0).w.rdS 1).toInt < 0 ∧ ¬0 ≤ ((sg (-1)).w.rdS 1).toInt ∧
      ¬0 < ((sg 0).w.rdS 1).toInt ∧ ¬((sg 1).w.rdS 1).toInt ≤ 0) ∧
    ((∃ i < 1024, ((pr 1).w.rdP 1).getLsbD i = true) ∧ (∃ i < 1024, ((pr 1).w.rdP 1).getLsbD i = false) ∧
      (∀ i < 1024, ((pr allP).w.rdP 1).getLsbD i = true) ∧ (∀ i < 1024, ((pr 0).w.rdP 1).getLsbD i = false)) ∧
    ([BCond.eq, .ne, .lt, .ge, .gt, .le][5]? = some .le ∧ (5 * 2 ^ 17) / 2 ^ 17 % 8 = 5) ∧
    ([BTest.any, .all, .none, .nall][3]? = some .nall ∧ (3 * 2 ^ 20) / 2 ^ 17 % 8 = 0 ∧ (3 * 2 ^ 20) / 2 ^ 20 % 4 = 3) := by
  decide +kernel
def misdirected : State := ctx (fun c => { c with seq := { Seq.zero with pc := 7, bad := some (0x10007, 3) } })
theorem witness_IndirectTransfers :
    misdirected.w.cur.sup = false ∧ misdirected.me.ctx.seq.bad = some (0x10007, 3) ∧
      misdirected.ready misdirected.w.cur.core misdirected.w.cur.sup = true := by decide +kernel
theorem witness_Loops :
    (((sg 0).w.rdS 1).toNat = 0) ∧
    (0 < ((sg 1).w.rdS 1).toNat ∧ ((sg 0x7FFFFFFF).w.rdS 1).toNat < 2 ^ 31 ∧ (sg 1).me.ctx.loops.length < 6) ∧
    ((loops (List.replicate 5 anEntry) 1).me.ctx.loops.length < 6 ∧ 6 ≤ (loops (List.replicate 6 anEntry) 1).me.ctx.loops.length) ∧
    (2 ^ 31 ≤ ((sg 0x80000000).w.rdS 1).toNat) ∧
    ((loops [anEntry] 0).me.ctx.loops = [anEntry] ∧ (loops [anEntry] 0).w.cur.nxt = anEntry.exit ∧ 1 < anEntry.rem) ∧
    ((loops [{ anEntry with rem := 1 }] 0).me.ctx.loops = [{ anEntry with rem := 1 }] ∧ { anEntry with rem := 1 }.rem ≤ 1) ∧
    ((loops [{ anEntry with exit := 13 }] 0).w.cur.nxt ≠ { anEntry with exit := 13 }.exit) ∧ idle.me.ctx.loops = [] ∧
    ((loops [anEntry] 0).me.ctx.loops[0]? = some anEntry ∧ (loops [anEntry] 0).me.ctx.loops.length ≤ 1) := by decide +kernel
def armed : State := mk { Core.zero with startMap := [4096, 34816], ctx := { CoreCtx.zero with halfB := 4, sregs := [(1, 34816)] } } (fun w => w)
def armedB : State :=
  mk { Core.zero with startMap := [4096, 34816], ctx := { CoreCtx.zero with halfAct := true, halfA := 4, halfB := 1, sregs := [(1, 4096)] } }
    (fun w => w)
theorem witness_WindowHaltTrapSwap :
    (idle.w.cur.sup = false ∧ inHandlerSlot.w.cur.sup = true) ∧
    ((if armed.me.ctx.halfAct then armed.me.ctx.halfA else armed.me.ctx.halfB) = 4 ∧ areaOf ((armed.w.rdS 1).toNat % 65536) = 2 ∧
      (armed.w.rdS 1).toNat % 65536 ∈ armed.me.startMap ∧ armed.w.cur.sup = false) ∧
    ((if armedB.me.ctx.halfAct then armedB.me.ctx.halfA else armedB.me.ctx.halfB) = 4 ∧ areaOf ((armedB.w.rdS 1).toNat % 65536) = 1 ∧
      (armedB.w.rdS 1).toNat % 65536 ∈ armedB.me.startMap) ∧
    (if idle.me.ctx.halfAct then idle.me.ctx.halfA else idle.me.ctx.halfB) ≠ 4 := by decide +kernel
theorem witness_OperandReads :
    ((sg 5).w.cur.sup = false ∧ (sg 5).w.rdS 1 = 5) ∧ (inHandlerSlot.w.cur.sup = true ∧ inHandlerSlot.w.rdS 1 = 9) ∧
    (pr 6).w.rdP 1 = 6 := by decide +kernel
theorem witness_IntegerArithmetic :
    let forms : List (Nat → Nat → Src → Instr) :=
      [.add, .sub, .and, .or, .xor, .andn, .shl, .shr, .sar, .rol, .min, .max, .minn, .maxn]
    forms[(aw 0 0 0).op]? = some .add ∧ forms[(aw 13 0 1).op]? = some .maxn ∧ (aw 0 0 0).ls = 0 ∧ (aw 0 0 0).m6 = 0 ∧ (aw 13 0 1).m6 ≠ 0 :=
  ⟨rfl, rfl, rfl, rfl, by decide⟩
theorem witness_CompareAndSelect :
    (((sg 0).w.rdS 1).toNat = ((sg 0).w.src (.reg 0)).toNat ∧ ((sg (-1)).w.rdS 1).toInt < ((sg 0).w.src (.reg 0)).toInt ∧
      ((sg (-1)).w.src (.reg 0)).toNat ≤ ((sg (-1)).w.rdS 1).toNat ∧ ¬((sg (-1)).w.rdS 1).toNat < ((sg (-1)).w.src (.reg 0)).toNat) ∧
    ((sg 1).w.rdS 1 ≠ 0 ∧ (sg 1).w.rdS 2 = 0) ∧ ((aw 0x0F 0 63).op = 0x0F ∧ (aw 0x0F 0 63).ls = 0) ∧
    ((aw 0x0E 0 5).op = 0x0E ∧ (aw 0x0E 0 5).m6 < 64 ∧ (aw 0x0E 0 6).m6 < 64) := by decide +kernel
theorem witness_ConstantsAndFields :
    let len (b : Word) := Min.min (Min.min (b.toNat / 256 % 128) 64) (64 - b.toNat % 64)
    (0 < len 0x7F3F ∧ len 0x7F3F = 1 ∧ len 0x4000 = 64 ∧ len 0x003F = 0) ∧
    ((aw 0x10 0 3).op = 0x10 ∧ (aw 0x10 0 3).m6 < 64 ∧ (aw 0x10 0 4).m6 < 64) ∧
    ((aw 0x11 0 6).op = 0x11 ∧ (aw 0x11 0 6).sb = 0 ∧ (aw 0x11 0 6).m6 < 64) ∧ ((aw 0x12 0 1).op = 0x12 ∧ (aw 0x12 0 2).m6 < 64) ∧
    ((aw 0x13 0 0).op = 0x13 ∧ (aw 0x13 0 0).ls = 0) := by decide +kernel
theorem witness_CountsAndAddresses :
    let counts : List (Nat → Nat → Instr) := [.clz, .ctz, .popc]
    (counts[2]? = some .popc ∧ (aw 0x16 0 0).op = 0x14 + 2 ∧ (aw 0x16 0 0).ls = 0 ∧ (aw 0x16 0 0).sb = 0) ∧
    ((aw 0x17 0 15).op = 0x17 ∧ (aw 0x17 0 15).m6 < 64 ∧ (aw 0x17 0 16).m6 < 64) ∧ ((aw 0x18 0 5).op = 0x18 ∧ (aw 0x18 0 6).m6 < 64) :=
  ⟨⟨rfl, rfl, rfl, rfl⟩, by decide, by decide⟩
theorem witness_MultiplyAndDivide :
    let forms : List (Nat → Nat → Src → Instr) := [.mul, .mulh, .mulhn, .madd, .div, .divn, .rem, .remn]
    ((sg 0).w.src (.reg 1) = 0 ∧ (sg 3).w.src (.reg 1) ≠ 0) ∧
    (((scalars [(1, 0x8000000000000000), (2, -1)]).w.rdS 1).toInt = -(2 ^ 63) ∧
      ((scalars [(1, 0x8000000000000000), (2, -1)]).w.src (.reg 2)).toInt = -1) ∧
    (forms[7]? = some .remn ∧ (aw 0x27 0 0).op = 0x20 + 7 ∧ (aw 0x27 0 0).ls = 0 ∧ (aw 0x27 0 0).m6 = 0) :=
  ⟨by decide +kernel, by decide +kernel, rfl, rfl, rfl, rfl⟩

/-! ## Hypotheses met: memory and vectors -/

/-- A catch due at cycle 4165 into line 0, guarded by checker 0. -/
def guardedLine : State := mk { Core.zero with checkers := [(0, (0, 256))] } (fun w => w.fly 5 4165 4165
  (.car { kind := .catch_, ccw := false, cp := false, rt := 0, line := 0, name := 0, ver := 0, st := .armed }) [] [])
def poisoned : State := mk { Core.zero with poison := [0] } (fun w => w)
/-- Row 0 has a double error in bit 3; brick 0 of course 0 has failed in the second state; line 0 is stale in the third. -/
def doubled (c : Core) : World := (mk c (fun w => { w with softErrs := [(.row 0 0, true, 3)] })).w
def degraded : World := (mk { Core.zero with courses := [(0, { bricks := [0], failing := false })] } (fun w => w)).w
theorem witness_ScratchpadLoads :
    let seen (s : State) (a n : Nat) : Look := (s.w.count s.w.cur.core 0x20 1).look s.w.cur.core a n
    (idle.w.early (idle.spdAddr ⟨0, .imm 0⟩ 8 / 256) 1 = none ∧ (seen idle 0 8).bad = false) ∧
    (idle.w.early 0 4 = none ∧ (seen idle 0 1024).bad = false) ∧
    (poisoned.w.early 0 1 = none ∧ (seen poisoned 0 8).bad = true) ∧
    (guardedLine.w.early (guardedLine.spdAddr ⟨0, .imm 0⟩ 8 / 256) 1).isSome = true ∧
    (idle.w.softErrs = [] ∧ (idle.w.core 0).poison = [] ∧ (idle.w.core 0).courses = []) ∧ 0 ∈ (poisoned.w.core 0).poison ∧
    (0 ∉ (degraded.core 0).poison ∧ (degraded.core 0).rowFailed 0 = true ∧ ((degraded.core 0).health (0 / 256)).bricks.length < 2 ∧
      degraded.faultyRest 0 0 = false) ∧
    (0 ∉ ((doubled Core.zero).core 0).poison ∧ ((doubled Core.zero).core 0).rowFailed 0 = false ∧
      hasDouble (inWords 0 4 ((doubled Core.zero).errsAt (.row 0 0))) = true ∧ (((doubled Core.zero).core 0).health (0 / 256)).bricks = [] ∧
      0 / 4 ∉ ((doubled Core.zero).core 0).stale ∧ (doubled Core.zero).faultyRest 0 0 = false) ∧
    (((doubled { Core.zero with stale := [0] }).core 0).rowFailed 0 = false ∧
      hasDouble (inWords 0 4 ((doubled { Core.zero with stale := [0] }).errsAt (.row 0 0))) = true ∧
      0 / 4 ∈ ((doubled { Core.zero with stale := [0] }).core 0).stale) := by decide +kernel
theorem witness_ScratchpadStores : idle.w.softErrs = [] ∧ idle.me.poison = [] ∧ idle.me.courses = [] := by decide +kernel
theorem witness_AtomicSealStatus :
    (idle.w.softErrs = [] ∧ idle.me.poison = [] ∧ idle.me.courses = [] ∧ idle.w.early (idle.spdAddr ⟨0, .imm (-1)⟩ 8 / 256) 1 = none) ∧
    (idle.w.rdS 1 = 0 ∧ (sg 65).w.rdS 1 ≠ 0) := by decide +kernel
/-- One run of one page, all rights, at home `home` or in the pod. -/
def run1 (place home pbase : Nat) : Rle :=
  { vbase := 0, pages := 1, pbase := pbase, rd := true, wr := true, at_ := true, cb := true, place := place, home := home, lid := 1,
    ten := 1, gang := 0 }
def leasing (r : Rle) : State := mk Core.zero (fun w => { w with dies := [(0, { Die.zero with rlt := [r], lids := [1] })] })
def isOk {ε α : Type} (x : Except ε α) (p : α → Bool) : Bool := match x with | .ok a => p a | .error _ => false
def isErr {ε α : Type} (x : Except ε α) : Bool := match x with | .ok _ => false | .error _ => true
theorem witness_LeaseCheck :
    let s := leasing (run1 2 0 0)
    isOk (s.w.access 65528 8 0 true) (fun _ => true) = true ∧
    ((run1 2 0 0) ∈ s.w.entries s.w.cur.core ∧ (run1 2 0 0).vbase * 65536 ≤ 65528 ∧ 65528 + 8 ≤ ((run1 2 0 0).vbase + (run1 2 0 0).pages) * 65536 ∧
      (run1 2 0 0).rd = true) ∧
    (∀ e ∈ s.w.entries s.w.cur.core, ¬(65529 + 8 ≤ (e.vbase + e.pages) * 65536)) ∧
    idle.w.entries idle.w.cur.core = [] := by decide +kernel
theorem witness_GlobalForms :
    let same := leasing (run1 2 0 0)
    let other := leasing (run1 2 3 0)
    let pod := leasing (run1 3 8 (2 ^ 35))
    isOk (same.w.access (same.virtAddr ⟨0, .imm 0⟩ 8) 8 0 false) (fun a => a.home == 0) = true ∧
    isOk (other.w.access (other.virtAddr ⟨0, .imm 0⟩ 8) 8 0 false) (fun a => a.home == 3) = true ∧
    isOk (same.w.access (same.virtAddr ⟨0, .imm 0⟩ 16) 16 1 true) (fun a => !a.pod) = true ∧
    isOk (same.w.access (same.virtAddr ⟨0, .imm 0⟩ 1024) 1024 0 false) (fun _ => true) = true ∧
    isOk (same.w.access (same.virtAddr ⟨0, .imm 0⟩ 1024) 1024 1 true) (fun a => !a.pod) = true ∧
    isOk (same.w.access (same.virtAddr ⟨0, .imm 0⟩ 8) 8 2 false) (fun a => !a.pod) = true ∧
    isOk (same.w.access (same.virtAddr ⟨0, .imm 0⟩ 8) 8 2 true) (fun a => !a.pod) = true ∧
    isOk (pod.w.access (pod.virtAddr ⟨0, .imm 0⟩ 8) 8 1 true) (fun a => a.pod) = true ∧
    isErr (idle.w.access (idle.virtAddr ⟨0, .imm 0⟩ 8) 8 1 true) = true ∧
    isErr (idle.w.access (idle.virtAddr ⟨0, .imm 0⟩ 8) 8 0 false) = true := by decide +kernel
theorem witness_VectorConversions :
    (1 < parts CvtSrc.f32.bytes CvtDst.bf16.bytes ∧ 3 < parts CvtSrc.i8.bytes CvtDst.f32.bytes ∧ 0 < parts CvtSrc.f32.bytes CvtDst.i32.bytes) ∧
    (3 < parts IFmt.i32.bytes IFmt.i8.bytes ∧ 1 < parts IFmt.i8.bytes IFmt.n16.bytes) := by decide
theorem witness_VectorIntegerOthers : (1 ≤ 1 ∧ 1 ≤ 8 * IFmt.i8.bytes) ∧ (1 ≤ 32 ∧ 32 ≤ 8 * IFmt.n32.bytes) := by decide
theorem witness_Permutes : 63 * pBytes .f32 ≤ 1024 ∧ 63 * pBytes .i8 ≤ 1024 := by decide
theorem witness_Reductions : PFmt.isFloat .i8 = false ∧ PFmt.isFloat .bf16 = true := by decide
theorem witness_PacksElementsPredicates : 1 < pBytes .i16 ∧ 1 < pBytes .f32 ∧ pBytes .i8 < 4 ∧ pBytes .bf16 < 4 := by decide

/-! ## Hypotheses met: engines, queues, synchronisation, the matrix array, the carousel, system forms -/

def aCopy : EngCmd := { dst := .spd 0, src := .spd 0, segs := [], mask := none }
/-- So many operations of one kind in flight from core 0. -/
def flying (n : Nat) (op : FOp) : State :=
  mk Core.zero (fun w => (List.range n).foldl (fun a _ => a.fly 5 600 600 op [] []) w)
theorem witness_BlockTransfers :
    let s := scalars [(1, 2048), (3, 0x200000)]
    let copied (src dst : End) (n : Nat) : EngCmd :=
      { dst := dst, src := src, mask := none, segs := [{ d := 2048, s := some 0, n := n, pat := [] }] }
    let lease := leasing (run1 2 0 0)
    (((s.w.rdS 3).toNat / 2 ^ 22 % 2 ^ 18 = 0 ∧ (s.w.rdS 3).toNat % 2 ^ 22 / 16 * 16 = 2 ^ 21) ∧
      ((s.w.rdS 1).toNat / 2 ^ 21 % 128) ∈ (s.w.gangAt 0).members ∧ (s.w.rdS 1).toNat / 2 ^ 28 = 0 ∧
      lowestBad (s.w.entries 0) (copied (.spd 0) (.spd 0) (2 ^ 21)).global.2 (copied (.spd 0) (.spd 0) (2 ^ 21)).global.1 = none ∧
      s.w.engHeld 0 < (if isMx 0 then 64 else 32)) ∧
    (lowestBad (lease.w.entries 0) (copied .glb (.spd 0) 16).global.2 (copied .glb (.spd 0) 16).global.1 = none) ∧
    (lowestBad (lease.w.entries 0) (copied (.spd 0) .glb 16).global.2 (copied (.spd 0) .glb 16).global.1 = none) ∧
    ((idle.w.rdS 3).toNat % 2 ^ 22 / 16 * 16 = 0) ∧ ¬((flying 64 (.eng aCopy)).w.engHeld 0 < (if isMx 0 then 64 else 32)) ∧
    (((scalars [(3, 0x400000)]).w.rdS 3).toNat / 2 ^ 22 % 2 ^ 18 ≠ 0) := by decide +kernel
/-- One row of 16 bytes. -/
def record : List Byte := [16, 0, 1, 0, 16, 0, 1, 0, 0, 0, 0, 0, 0, 0, 0, 0, 16, 0, 0, 0, 0, 0, 0, 0, 16, 0, 0, 0, 0, 0, 0, 0]
theorem witness_TensorFillCheck :
    let s := mem1 .spd 0 record idle
    let l := Layout.ofNat (s.spd 0 0 64)
    let cmd : EngCmd := { dst := .spd 0, src := .spd 0, segs := l.segs 0 0 true (2 ^ 21), mask := none }
    let two := leasing { run1 2 0 0 with pages := 2 }
    (((s.w.rdS 1).toNat / 2 ^ 21 % 128) ∈ (s.w.gangAt 0).members ∧ l.ok = true ∧ l.mask = false ∧ cmd.segs ≠ [] ∧ s.w.softErrs = [] ∧
      lowestBad (s.w.entries 0) cmd.global.2 cmd.global.1 = none ∧ s.w.engHeld 0 < 64) ∧
    (Layout.ofNat (idle.spd 0 0 64)).ok = false ∧
    (idle.me.ctx.halfAct ≠ true ∧ idle.w.cur.swap = false ∧ two.me.ifstat.busy = false ∧
      lowestBad (two.w.entries 0) 0 [(0, 4 * 1)] = none ∧ lowestBad (two.w.entries 0) 0 [(0, 4 * 30720)] = none) := by decide +kernel
def entry (sender seq : Nat) : QEntry := { posted := 0, sender := sender, seq := seq, data := 7 }
def queued (l : List QEntry) : State := mk { Core.zero with queues := [(0, l)] } (fun w => w)
theorem witness_OperandQueues :
    let grouped := mk Core.zero (fun w => w.modHub (fun h => { h with groups := [(0, { mem := [(0, 1)], ten := 1, holders := [1], claims := [] })] }))
    ((idle.w.srcZ (.reg 2)).toNat / 128 % 2 = 0 ∧ (idle.w.srcZ (.reg 2)).toNat / 2 ^ 11 % 32 = 0 ∧ 0 ∈ (idle.w.gangAt 0).members ∧
      idle.w.reserved 0 0 < 16 ∧ fget idle.me.lanes none 0 = none) ∧
    ((queued (List.replicate 15 (entry 0 0))).w.reserved 0 0 < 16 ∧ 16 ≤ (queued (List.replicate 16 (entry 0 0))).w.reserved 0 0) ∧
    ((grouped.w.group 0).holders ≠ [] ∧ (∀ k ∈ (grouped.w.group 0).cores, k ∈ (grouped.w.gangAt 0).members ∧ grouped.w.reserved k 0 < 16)) ∧
    ((queued [entry 0 0]).me.queue 0 = [entry 0 0] ∧ (entry 0 0).sender = 0 ∧ (entry 0 0).seq = 0) ∧
    ((queued [entry 0 1]).me.queue 0 = [entry 0 1] ∧ (entry 0 1).seq ≠ 0) ∧ idle.me.queue 0 = [] := by decide +kernel
/-- A store sent earlier and posted later. -/
def unreleased : State :=
  mk Core.zero (fun w => { (w.fly 0 500 500 .gstore [] []) with flights := (w.fly 0 500 500 .gstore [] []).flights.map (fun f => { f with issue := 0 }) })
theorem witness_SynchronisationRequests :
    let s := leasing (run1 2 0 0)
    (∀ f ∈ idle.w.flights, f.core = idle.w.cur.core → f.promised ≤ idle.w.cur.issue) ∧
    isOk (s.w.access 0 256 0 false) (fun _ => true) = true ∧ isOk (s.w.access 0 8 2 true) (fun a => !a.pod) = true ∧
    (∃ f ∈ unreleased.w.flights, f.core = unreleased.w.cur.core ∧ f.gang = unreleased.w.gangOf unreleased.w.cur.core ∧
      f.sup = unreleased.w.cur.sup ∧ f.issue < unreleased.w.cur.issue ∧ f.released = true ∧ ¬f.promised ≤ unreleased.w.cur.issue) := by
  decide +kernel
def haltedCore : State := ctx (fun c => { c with halted := true })
theorem witness_CollectiveWaits :
    (∀ j ∈ (idle.w.gangAt 0).members, (idle.w.core j).ctx.halted = false) ∧
    ¬(∀ j ∈ (haltedCore.w.gangAt 0).members, (haltedCore.w.core j).ctx.halted = false) ∧
    isOk ((leasing (run1 2 0 0)).w.access 0 8 0 false) (fun _ => true) = true ∧ (idle.w.promise .pod).1 ≤ idle.w.cur.issue := by
  decide +kernel
def leased (holder : Option Nat) (count : Nat) (d : Die → Die) : State :=
  mk Core.zero (fun w => { w with dies := [(0, d { Die.zero with lease := { holder := holder, grant := 0, count := count } })] })
def contestedLease : State := mk Core.zero (fun w =>
  w.setCore 1 { Core.zero with pend := [{ due := 6, issue := 5, pos := 14, w := .lease true }] })
theorem witness_ArrayLeases :
    ((leased (some 0) 63 id).w.die 0).lease.holder = some 0 ∧ ((leased (some 1) 0 id).w.die 0).lease.holder = some 1 ∧
    ((idle.w.die 0).lease.holder = none ∧ ∀ i < 4, ∀ p ∈ (idle.w.core (0 / 8 * 8 + i)).pend, ¬(p.issue = idle.w.cur.issue ∧ p.w = .lease true)) ∧
    ((contestedLease.w.die 0).lease.holder = none ∧
      ∃ i < 4, ∃ p ∈ (contestedLease.w.core (0 / 8 * 8 + i)).pend, p.issue = contestedLease.w.cur.issue ∧ p.w = .lease true) ∧
    (((leased (some 0) 63 id).w.die 0).lease.count < 64 ∧
      (leased (some 0) 63 id).w.cur.issue < ((leased (some 0) 63 id).w.die 0).lease.grant + 16384 ∧ ((leased (some 0) 63 id).w.die 0).mcfgAt = none ∧
      ∀ j < 20, shapeOk j (fget ((leased (some 0) 63 id).w.die 0).tshape 0 j) = true) ∧
    ¬(∀ j < 20, shapeOk j (fget ((leased (some 0) 0 (fun d => { d with tshape := [(19, 1)] })).w.die 0).tshape 0 j) = true) := by decide +kernel
/-- Tiles 0 (4 by 16), 1 (16 by 8) and 2 (4 by 8) of two bytes, accumulator 0 (4 by 8). -/
def shaped (l : List (Nat × Word)) (q : List QEntry) : State :=
  mk { Core.zero with ctx := { CoreCtx.zero with sregs := l }, queues := [(0, q)] } (fun w => { w with
    dies := [(0, { Die.zero with lease := { holder := some 0, grant := 0, count := 63 },
                                 shapes := [(0, 4 + 16 * 2 ^ 11 + 4 * 2 ^ 22), (1, 16 + 8 * 2 ^ 11 + 4 * 2 ^ 22),
                                            (2, 4 + 8 * 2 ^ 11 + 4 * 2 ^ 22), (16, 4 + 8 * 2 ^ 11 + 5 * 2 ^ 22)] })] })
theorem witness_TileCommands :
    let s := shaped [(2, 4 * 2 ^ 11), (3, 16 * 2 ^ 11), (4, 32 * 32)] [entry 0 0, entry 0 1, entry 0 2, entry 0 3]
    let d := s.w.die 0
    (d.lease.holder = some 0 ∧ d.lease.count < 64 ∧ s.w.cur.issue < d.lease.grant + 16384 ∧ d.mcfgAt = none ∧ s.w.softErrs = [] ∧
      s.me.poison = [] ∧ s.me.courses = []) ∧
    (shFmt (d.shape 0) ≠ 0 ∧ 1 ≤ (s.w.src (.reg 2)).toNat / 2 ^ 11 % 2 ^ 11 ∧
      (s.w.src (.reg 2)).toNat % 2 ^ 11 + (s.w.src (.reg 2)).toNat / 2 ^ 11 % 2 ^ 11 = shRows (d.shape 0)) ∧
    ((s.w.src (.reg 3)).toNat % 2 ^ 11 + (s.w.src (.reg 3)).toNat / 2 ^ 11 % 2 ^ 11 = shCols (d.shape 0) ∧
      shRows (d.shape 0) * fmtBytes (shFmt (d.shape 0)) ≤ 1024) ∧
    (∀ j < 4, (s.me.queue 0)[j]? = some (entry 0 j)) ∧
    (1 ≤ (s.w.src (.reg 4)).toNat / 32 % 64 ∧ (s.w.src (.reg 4)).toNat % 32 + (s.w.src (.reg 4)).toNat / 32 % 64 ≤ 32) ∧
    (s.w.cur.issue ≥ d.streamEnd ∧ shFmt (d.shape 1) ≠ 0 ∧ shFmt (d.shape 16) ≠ 0 ∧ shRows (d.shape 0) = shRows (d.shape 16) ∧
      shCols (d.shape 0) = shRows (d.shape 1) ∧ shCols (d.shape 1) = shCols (d.shape 16) ∧ shFmt (d.shape 1) = shFmt (d.shape 0) ∧
      shFmt (d.shape 0) ∈ [2, 3, 4]) ∧
    (shFmt (d.shape 2) ≠ 0 ∧ shFmt (d.shape 2) ≠ 1 ∧ shRows (d.shape 2) = shRows (d.shape 16) ∧ shCols (d.shape 2) = shCols (d.shape 16)) := by
  decide +kernel
def aCar (kind : CarKind) (st : CarState) : CarCmd :=
  { kind := kind, ccw := false, cp := false, rt := 1, line := 0, name := 7, ver := 0, st := st }
theorem witness_CarouselCommands :
    ((flying 15 (.car (aCar .catch_ .armed))).w.carHeld 0 < (if isMx 0 then 16 else 8)) ∧
    ¬((flying 16 (.car (aCar .catch_ .armed))).w.carHeld 0 < (if isMx 0 then 16 else 8)) ∧
    (idle.w.softErrs = [] ∧ noBoard idle.me (idle.w.imageOf 0) 2047 = []) := by decide +kernel
def counting : State := mk Core.zero (fun w => { w with dies := [(0, { Die.zero with devsel := [(0, 2 * 2 ^ 16), (1, 2 ^ 16)] })] })
theorem witness_SystemRegisters :
    (¬(0x40 ≤ 0x3F ∧ 0x3F ≤ 0x44) ∧ ¬(0xA0 ≤ 0x3F ∧ 0x3F ≤ 0xAF) ∧ ¬0xB0 ≤ 0x3F) ∧
    (inHandlerSlot.w.cur.sup = true ∧ idle.w.cur.sup = false) ∧
    (0xB0 ≤ 0xB0 ∧ fget (counting.w.die 0).devsel 0 (0xB0 - 0xB0) / 2 ^ 16 % 2 ^ 16 ≠ (counting.w.gangAt 0).tenant) ∧
    (0xB0 ≤ 0xB1 ∧ fget (counting.w.die 0).devsel 0 (0xB1 - 0xB0) / 2 ^ 16 % 2 ^ 16 = (counting.w.gangAt 0).tenant) ∧
    (¬¬(0x40 ≤ 0x44 ∧ 0x44 ≤ 0x44) ∧ ¬¬(0xA0 ≤ 0xAF ∧ 0xAF ≤ 0xAF)) ∧ (0x9F ≠ 0x41 ∧ 0x9F < 0xA0) := by decide +kernel
def busyFill : State := mk { Core.zero with ifstat := { IfStat.zero with busy := true } } (fun w => w)
theorem witness_TimeFencesEvents :
    (idle.w.softErrs = [] ∧ idle.me.poison = [] ∧ idle.w.early (2 ^ 21 / 256 - 1) 1 = none) ∧
    ((idle.w.promise .pkg).1 ≤ idle.w.cur.issue ∧ Scope.pkg ≠ .pod) ∧
    (unreleased.w.cur.issue < (unreleased.w.promise .pkg).1) ∧ (idle.me.ifstat.busy = false ∧ busyFill.me.ifstat.busy = true) ∧
    (∀ k ∈ (idle.w.gangAt idle.w.cur.core).members, k = idle.w.cur.core) ∧
    ((ctx (fun c => { c with crDepth := 3 })).me.ctx.crDepth < 4 ∧ 4 ≤ (ctx (fun c => { c with crDepth := 4 })).me.ctx.crDepth ∧
      0 < (ctx (fun c => { c with crDepth := 1 })).me.ctx.crDepth ∧ idle.me.ctx.crDepth = 0) ∧
    (inHandlerSlot.w.cur.sup = true ∧ idle.w.cur.sup = false) := by decide +kernel

/-! ## Hypotheses met: exceptions, deliveries, homes -/

def gangOf0 (f : Gang → Gang) (c : Core) : State := mk c (fun w => w.modGang 0 f)
def trapAt (due : Nat) : EventTrap := { due := due, core := 0, issue := 5, pos := 0, cause := 15, info := 7, pc := some 12 }
theorem witness_TrapEntry :
    ((idle.w.gang 0).live = true ∧ (idle.w.gang 0).hasHandler = true ∧ (idle.w.gang 0).stat = .running) ∧
    ((gangOf0 (fun g => { g with hasHandler := false }) Core.zero).w.gang 0).hasHandler = false ∧
    ((gangOf0 (fun g => { g with stat := .handler 0 }) Core.zero).w.gang 0).stat = .handler 0 ∧
    (1 % 8 = 1 ∧ 10 % 8 = 2) ∧ (1 = 1 ∧ (2 ^ 17 + 5 * 2 ^ 18) / 2 ^ 17 % 2 = 1 ∧ (2 ^ 17 + 5 * 2 ^ 18) / 2 ^ 18 % 8 = 5) := by decide +kernel
theorem witness_TrapSteps :
    (let s := gangOf0 (fun g => { g with events := [trapAt 6], ttc := 6 }) Core.zero
     (s.w.core 0).gang = some 0 ∧ (s.w.gang 0).events = [trapAt 6] ∧ (trapAt 6).due ≤ (s.w.gang 0).ttc) ∧
    (let s := gangOf0 (fun g => { g with events := [trapAt 6], ttc := 5 }) Core.zero
     ∀ x ∈ (s.w.gangAt 0).events, ¬(x.cause = 15 ∧ x.core = 0 ∧ x.due ≤ (s.w.gangAt 0).ttc)) ∧
    (misdirected.me.ctx.seq.bad = some (0x10007, 3) ∧ misdirected.ready 0 false = true) ∧
    (let s := leased (some 0) 0 id
     let t := s.withWorld (s.w.modGang 0 (fun g => { g with ttc := 16384 }))
     (t.w.die (0 / 8)).lease.holder = some 0 ∧ (t.w.die (0 / 8)).lease.grant + 16384 ≤ (t.w.gang 0).ttc ∧ (t.w.gang 0).stat = .running) ∧
    (idle.w.die 0).lease.holder = none ∧
    (let s := gangOf0 (fun g => { g with ttc := 2 ^ 22 + 1 }) Core.zero
     (s.w.gang 0).stat = .running ∧ (s.w.gang 0).scanBase + 2 ^ 22 < (s.w.gang 0).ttc ∧ (s.w.gang 0).members = [0] ∧ s.ready 0 false = true) ∧
    ((gangOf0 (fun g => { g with ttc := 2 ^ 22 }) Core.zero).w.gang 0).ttc ≤ 0 + 2 ^ 22 := by decide +kernel
def aRestart : Restart := { pc := 4, ttc := 2, ctx := CoreCtx.zero, tshape := [], lease := ArrayLease.free, scanBase := 0 }
theorem witness_HandlerReturns :
    ((mk { Core.zero with ends := true } (fun w => w)).me.ends = true ∧ idle.me.ends = false) ∧
    ((mk { Core.zero with rstvalid := true, restart := some aRestart } (fun w => w)).me.rstvalid = true ∧
      (mk { Core.zero with rstvalid := true, restart := some aRestart } (fun w => w)).me.restart = some aRestart) ∧ idle.me.rstvalid = false := by
  decide +kernel
def standing (q : Seq) : State := ctx (fun c => { c with seq := q })
theorem witness_CyclesWithoutSlots :
    (idle.bundleAt 0 false 10).slots = [] ∧ idle.me.ctx.halted = false ∧ inHandlerSlot.w.cur.sup = true ∧
    (0 < (standing { Seq.zero with owedT := 1 }).me.ctx.seq.owedT) ∧
    ((standing { Seq.zero with owedJ := 1 }).me.ctx.seq.owedT = 0 ∧ 0 < (standing { Seq.zero with owedJ := 1 }).me.ctx.seq.owedJ) ∧
    (idle.me.ctx.seq.owedT = 0 ∧ idle.me.ctx.seq.owedJ = 0) ∧ (haltedCore.me.ctx.halted = true ∧ haltedCore.w.cur.sup = false) ∧
    (4096 < 65536 ∧ areaOf 4096 ≠ areaOf 4094 ∧ areaOf 34816 ≠ areaOf 34814 ∧ areaOf 4095 = areaOf 0) := by decide +kernel
/-- One result due. -/
def dueOne (r : RegW) : State := mk { Core.zero with pend := [⟨0, 0, 0, r⟩] } (fun w => w)
def dueOf0 (s : State) : List Pend := (s.w.core 0).pend.filter (fun p => p.due ≤ s.w.clockOf 0)
theorem witness_DueWrites :
    dueOf0 (dueOne (.s 63 5)) = [⟨0, 0, 0, .s 63 5⟩] ∧ dueOf0 (dueOne (.v 383 5 1)) = [⟨0, 0, 0, .v 383 5 1⟩] ∧
    dueOf0 (dueOne (.p 15 5 1)) = [⟨0, 0, 0, .p 15 5 1⟩] ∧ dueOf0 (dueOne (.sc 15 5)) = [⟨0, 0, 0, .sc 15 5⟩] ∧
    dueOf0 (dueOne (.sup 1 5)) = [⟨0, 0, 0, .sup 1 5⟩] ∧ dueOf0 idle = [] := by decide +kernel

def acc (n home : Nat) : Acc := { va := 0, pa := 0, n := n, home := home, lid := 1, pod := false }
def fl (op : FOp) (accs : List Acc) (src : List Byte) : Flight :=
  { id := 0, gang := 0, core := 0, pos := 6, issue := 5, sup := false, toSup := false, start := 5, posted := 0, done := 0, op := op, accs := accs,
    src := src, got := [], badParts := [], parts := [], lines := [], hops := [], res := 0, flags := 0, arrived := false, held := false,
    refusals := 0, retryAt := none, down := false }
def mkF (f : Flight) (g : World → World) : State := mk Core.zero (fun w => g { w with flights := [f] })
def openAt (s : State) (f : Flight) (a : Acc) : Prop :=
  s.w.flight? f.id = some f ∧ f.parts = [] ∧ f.accs = [a] ∧ 0 < a.n ∧ a.n ≤ 16 ∧ a.pod = false ∧ f.held = false ∧
    ∀ g ∈ s.w.flights, precedes g f = false
def aTask (st : Stage) (f : Task → Task) : Task :=
  f { Task.posted 1 0 0 1 0 0 0 with stage := st, cores := [0], gid := 0, runs := [run1 2 3 0], lids := [1] }
def withTask (t : Task) (f : World → World) : State := mk Core.zero (fun w => f (w.modHub (fun h => { h with tasks := [t] })))
def downDie (w : World) : World := w.setDie 3 { Die.zero with up := false }
def revokedDie (w : World) : World := w.setDie 3 { Die.zero with revoked := [1] }
theorem witness_HomeActions :
    (let f := fl .gstore [acc 16 3] (List.replicate 16 0)
     openAt (mkF f id) f (acc 16 3) ∧ ((mkF f id).w.die 3).up = true ∧ 1 ∉ ((mkF f id).w.die 3).revoked ∧ f.src.length = 16) ∧
    (let f := fl (.signal 5) [acc 8 3] []
     openAt (mkF f id) f (acc 8 3) ∧ (mkF f id).w.gpoison = [] ∧ IsNumber (mkF f id).mem .glb 0 8 0) ∧
    (let f := fl (.gload false .b1 false 1) [acc 1 3] []
     openAt (mkF f id) f (acc 1 3) ∧ f.got = [] ∧ openAt (mkF f downDie) f (acc 1 3) ∧ ((mkF f downDie).w.die 3).up = false ∧ f.badParts = []) ∧
    (let f := fl .gstore [acc 16 3] (List.replicate 16 0)
     openAt (mkF f downDie) f (acc 16 3) ∧ openAt (mkF f revokedDie) f (acc 16 3) ∧ ((mkF f revokedDie).w.die 3).up = true ∧
       1 ∈ ((mkF f revokedDie).w.die 3).revoked) ∧
    (let f := { fl .gstore [acc 16 3] [] with retryAt := some 7, held := true }
     f.retryAt = some 7 ∧ 7 ≤ (mkF f (fun w => { w with now := 7 })).w.now ∧ (mkF f (fun w => { w with now := 6 })).w.now < 7 ∧
       f ∈ (mkF f id).w.flights) ∧
    (let t := aTask .run id
     t ∈ (withTask t id).w.hub.tasks ∧ t.downAt (withTask t id).w.hub 3 = some 0 ∧ ((withTask t id).w.gang t.gid).live = true ∧
       isTaskOf ((withTask t id).w.gang t.gid) t = true) ∧
    ((∀ y ∈ (withTask (aTask .ending (fun t => { t with wbDone := true })) id).w.hub.tasks, 1 ∈ y.lids →
        y.stage = .ending ∧ (y.kind ≠ 0 ∨ y.wbDone = true)) ∧
      ∃ y ∈ (withTask (aTask .ending id) id).w.hub.tasks, 1 ∈ y.lids ∧ ¬(y.stage = .ending ∧ (y.kind ≠ 0 ∨ y.wbDone = true))) ∧
    (let f := fl .gstore [acc 16 3] (List.replicate 16 0)
     let g := { f with hops := [(0, 1)] }
     (∀ x ∈ (mkF f id).w.flights, (mkF f id).w.waiting 2 false x = none) ∧ (mkF f id).w.waiting 0 true f = some 0 ∧
       (f.partAt 0).any (fun p => p.home != 8) = true ∧ f.hop 0 ≠ 1 ∧ (mkF g id).w.waiting 3 false g = some 0 ∧ g.hop 0 = 1 ∧
       isEng f.op = false ∧ isSend f.op = false) ∧
    (let s := mk Core.zero (fun w => w.modHub (fun h => { h with ports := [(5, { Port.idle with resp := [(1, .status 0, 9)] })] }))
     (fget s.w.hub.ports Port.idle 5).resp = [(1, .status 0, 9)] ∧ ∀ g ∈ s.w.flights, s.w.waiting (16 + 5) true g = none) := by
  refine ⟨?_, ?_, ?_, ?_, ?_, ?_, ?_, ?_, ?_⟩ <;> (try unfold openAt) <;> (try unfold IsNumber) <;> decide +kernel

/-! ## Hypotheses met: the synchronisation engine, deliveries, commits, the ring -/

def barred (b : Barrier) (w : World) : World := w.modHub (fun h => { h with barriers := [(7, b)] })
def heldBar : Barrier := { exp := 2, exp0 := 2, cnt := 0, dpend := 0, ph := 0, grp := none, ten := 1, st := .held, holders := [1] }
def dequed (q : Deque) (w : World) : World := w.modHub (fun h => { h with deques := [(7, q)] })
def aDeque : Deque := { ten := some 1, cap := 2, items := [5], owner := none }
def heldGang (l : List (Nat × Wait)) (f : World → World) : State :=
  mk Core.zero (fun w => f { (w.modGang 0 (fun g => { g with stat := .held l 0 })) with now := 1 })
theorem witness_SynchronisationEngine_barriers :
    let f := fl (.bar false 1 7) [] []
    let s (b : Barrier) := mkF f (barred b)
    ((s heldBar).w.flights = [f] ∧ f.arrived = false ∧ f.held = false ∧ ((s heldBar).w.gang f.gang).tenant = 1) ∧
    (((s heldBar).w.barrier 7).st = .held ∧ ((s heldBar).w.barrier 7).cnt + 1 < ((s heldBar).w.barrier 7).exp) ∧
    (((s { heldBar with exp := 1 }).w.barrier 7).exp ≤ ((s { heldBar with exp := 1 }).w.barrier 7).cnt + 1) ∧
    ((mkF f id).w.barrier 7).st ≠ .held ∧ ((s { heldBar with ten := 2 }).w.barrier 7).ten ≠ 1 ∧
    (((s { heldBar with grp := some 3 }).w.barrier 7).grp = some 3 ∧ f.core ∉ ((s { heldBar with grp := some 3 }).w.group 3).cores) := by
  decide +kernel
theorem witness_SynchronisationEngine_deques :
    let f := fl (.deq .push 2 7 9) [] []
    let s (q : Deque) := mkF f (dequed q)
    ((s aDeque).w.flights = [f] ∧ f.op = .deq .push 2 7 9 ∧ f.arrived = false ∧ f.held = false) ∧
    (((mkF f id).w.deque 7).ten ≠ some 1) ∧ (((s { aDeque with owner := some 1 }).w.deque 7).owner = some 1 ∧ 1 ≠ f.gang) ∧
    (((s aDeque).w.deque 7).ten = some 1 ∧ ((s aDeque).w.deque 7).owner = none ∧ ((s aDeque).w.deque 7).items.length < ((s aDeque).w.deque 7).cap) ∧
    (((s { aDeque with cap := 1, owner := some 0 }).w.deque 7).cap ≤ ((s { aDeque with cap := 1, owner := some 0 }).w.deque 7).items.length ∧
      ((s { aDeque with cap := 1, owner := some 0 }).w.deque 7).owner = some f.gang) ∧
    (((s aDeque).w.deque 7).items = 5 :: [] ∧ ((s aDeque).w.deque 7).items = [] ++ [5]) ∧
    ((s { aDeque with items := [] }).w.deque 7).items = [] := by decide +kernel
theorem witness_SynchronisationEngine_waits :
    (let s := heldGang [(0, .sig 8 3 1)] id
     (s.w.gang 0).stat = .held [(0, .sig 8 3 1)] 0 ∧ s.w.hub.watches = [] ∧ s.w.hub.watches.length < 1024 ∧
       s.mem.num .glb 8 8 = 0) ∧
    (let s := heldGang [(0, .bar 7 1)] (barred { heldBar with ph := 1 })
     (s.w.gang 0).stat = .held [(0, .bar 7 1)] 0 ∧ (s.w.gang 0).live = true ∧ (s.w.gang 0).dbg = false ∧ (s.w.gang 0).preempt = false ∧ 0 < s.w.now ∧
       ∀ e ∈ [(0, Wait.bar 7 1)], s.w.waitMet (s.w.gang 0) 0 e = true) ∧
    (let s := heldGang [(0, .bar 7 1)] (barred heldBar)
     (0, Wait.bar 7 1) ∈ [(0, Wait.bar 7 1)] ∧ s.w.waitMet (s.w.gang 0) 0 (0, .bar 7 1) = false) ∧
    (let s := heldGang [(0, .bar 7 1)] id
     (s.w.gang 0).stat = .held [(0, .bar 7 1)] 0 ∧ (s.w.barrier 7).st = .free) := by decide +kernel
def engine (dst src : End) : EngCmd := { dst := dst, src := src, segs := [{ d := 0, s := some 0, n := 16, pat := [] }], mask := none }
def at5 (f : Flight) : State := mkF f (fun w => w.modGang 0 (fun g => { g with ttc := 5 }))
def knowing (w : World) : World := w.setDie 3 { Die.zero with lids := [1] }
theorem witness_EnginesAndDeliveries_engines :
    (let f := fl (.eng (engine (.spd 0) (.spd 0))) [] []
     (at5 f).w.flights = [f] ∧ f.start = (at5 f).w.clock f.gang f.sup ∧ f.arrived = false ∧ f.start + 0 = (at5 f).w.clock f.gang f.sup ∧
       f.reads[0]? = some 0 ∧ 0 ∉ f.got.map (·.1) ∧ earlyKey 0 ∉ f.got.map (·.1) ∧ (at5 f).w.softErrs = [] ∧ ((at5 f).w.core f.readCore).poison = [] ∧
       ((at5 f).w.core f.readCore).courses = []) ∧
    (let f := { fl (.eng (engine (.spd 0) .glb)) [acc 16 3] [] with arrived := true }
     f.held = false ∧ 0 ∉ f.parts ∧ f.crosses = none ∧ isSpd (engine (.spd 0) .glb).dst = true ∧
       (f.partAt 0).any (fun p => !p.pod && ((mkF f knowing).w.die p.home).up && !((mkF f knowing).w.die p.home).revoked.contains p.lid &&
         ((mkF f knowing).w.die p.home).lids.contains p.lid && !((mkF f id).w.die p.home).lids.contains p.lid) = true ∧
       (mkF f knowing).w.gpoison = []) ∧
    (let f := { fl (.eng (engine .glb (.spd 0))) [acc 16 3] [] with got := [(0, [])], arrived := true }
     isSpd (engine .glb (.spd 0)).dst = false ∧ f.crosses = none ∧ f.canPerform (engine .glb (.spd 0)) 0 = true ∧ 0 ∉ f.parts ∧
       (f.partAt 0).any (fun p => !p.pod && ((mkF f knowing).w.die p.home).up && ((mkF f knowing).w.die p.home).lids.contains p.lid) = true) ∧
    (let f := { fl (.eng (engine (.spd 0) (.spd 32))) [] [] with arrived := true }
     f.crosses.isSome = true ∧ f.held = false ∧ 0 ∉ f.parts ∧ (f.partAt 0).isSome = true) ∧
    (let f := { fl (.eng (engine .glb (.spd 0))) [acc 16 3] [] with parts := [0] }
     f.done ≤ (at5 f).w.clock f.gang f.sup ∧ f.missing = [] ∧ f.open_ = [] ∧ f.held = false ∧ f.down = false) := by decide +kernel
theorem witness_EnginesAndDeliveries_results :
    (let f := { fl (.gload false .b4 true 1) [acc 4 3] [] with parts := [0] }
     (at5 f).w.flights = [f] ∧ f.held = false ∧ f.missing = [] ∧ f.badParts = [] ∧ f.down = false ∧ f.lines = [] ∧
       f.posted ≤ (at5 f).w.clock f.gang f.sup ∧ f.lateBy ((at5 f).w.clock f.gang f.sup) = false) ∧
    (let f := fl (.send [0] 7 3) [] []
     f.held = false ∧ f.missing = [] ∧ f.badParts = [] ∧ f.lines = [] ∧ f.posted ≤ (at5 f).w.clock f.gang f.sup) ∧
    (let f := fl (.deq .push 2 7 9) [] []
     (at5 f).w.flights = [f] ∧ f.op = .deq .push 2 7 9 ∧ f.retryAt = none) ∧
    (let f := fl .gstore [acc 16 3] (List.replicate 16 0)
     (mkF f id).w.flights = [f] ∧ f.retryAt = none ∧ f.parts = [] ∧ f.src.length = 16 ∧ ((mkF f id).w.die 3).up = true ∧
       1 ∉ ((mkF f id).w.die 3).revoked) ∧
    (let f := fl (.gload false .b4 true 1) [acc 4 3] []
     f.lateBy ((at5 f).w.clock f.gang f.sup) = true ∧ f.sup = false ∧ ((at5 f).w.gang f.gang).stat = .running ∧
       ((at5 f).w.gang f.gang).events = [] ∧
       ((mkF f (fun w => w.modGang 0 (fun g => { g with stat := .handler 0 }))).w.gang f.gang).stat ≠ .running ∧
       latePending ((mkF f (fun w => w.modGang 0 (fun g => { g with stat := .handler 0 }))).w.gang f.gang) f = false) := by decide +kernel
def aAmo : AmoW := { issue := 3, course := 0, addr := 252, n := 4, value := 9, void := false, sup := false, prior := false }
theorem witness_ScratchAndArrayCommits :
    (let s := mk { Core.zero with amos := [aAmo] } (fun w => w.modGang 0 (fun g => { g with ttc := 5 }))
     (s.w.core 0).amos = [aAmo] ∧ aAmo.sup = s.w.inHandler 0 ∧ aAmo.issue + 2 ≤ s.w.clockOf 0 ∧ (s.w.core 0).courses = [] ∧
       aAmo.addr / 256 = (aAmo.addr + aAmo.n - 1) / 256 ∧ 0 < aAmo.n) ∧
    (let s := mk { Core.zero with stale := [2047] } (fun w => w)
     31 < 32 ∧ 2047 ∈ (s.w.core 0).stale ∧ 2047 / 64 = 31 ∧ (∀ l ∈ (s.w.core 0).stale, l / 64 = 31 → l = 2047) ∧
       31 ∉ (s.w.core 0).touched ∧ (∀ e ∈ (s.w.core 0).sweep, e.1 ≠ 31) ∧ ∀ l ∈ (s.w.core 0).stale, l / 64 ≠ 30 % 32) ∧
    (let s := mk { Core.zero with stale := [2047], sweep := [(31, 2 * 2047 + 1)] } (fun w => w)
     (s.w.core 0).sweep = [(31, 2 * 2047 + 1)] ∧ 31 ∉ (s.w.core 0).touched) ∧
    (let s := mk { Core.zero with touched := [31] } (fun w => w)
     31 % 32 ∈ (s.w.core 0).touched ∧ s.w.coreRuns 0 = true) ∧
    (let f := { fl (.ifill true 1) [acc 4 3] [] with parts := [0] }
     (at5 f).w.flights = [f] ∧ f.core = 0 ∧ f.held = false ∧ f.badParts = [] ∧ f.lines = [] ∧ f.missing = [] ∧
       f.posted ≤ (at5 f).w.clock f.gang f.sup) ∧
    (let f := fl (.tzero 19) [] []
     (at5 f).w.flights = [f] ∧ f.posted ≤ (at5 f).w.clock f.gang f.sup) ∧
    (let f := fl (.mcfg []) [] []
     (at5 f).w.flights = [f] ∧ f.posted ≤ (at5 f).w.clock f.gang f.sup) := by decide +kernel
def aSlot (full : Bool) (ver : Nat) (withdraw : Bool) : Slot :=
  { own := true, ten := 1, full := full, name := if full then 7 else 0, ver := ver, poison := false, withdraw := withdraw, data := [] }
def ringWith (l : FMap Slot) (f : Flight) : State := mkF f (fun w => w.modHub (fun h => { h with slots := l }))
def carF (kind : CarKind) (st : CarState) : Flight :=
  { fl (.car (aCar kind st)) [] [] with got := [(0, []), (1, []), (2, []), (3, [])], posted := 4165, done := 4165 }
theorem witness_RingActions_passages :
    (let f := { carF .board .armed with arrived := true }
     let s := ringWith [(0, aSlot false 0 false)] f
     s.w.flights = [f] ∧ f.core / 8 = 0 ∧ (s.w.gang f.gang).tenant = (s.w.slot 0).ten ∧ (s.w.gang f.gang).ttc < f.issue + 4128 ∧
       f.got.length = 4 ∧ (s.w.slot 0).own = true ∧ (s.w.slot 0).full = false ∧ (s.w.slot 0).withdraw = false) ∧
    (let f := carF .catchv .armed
     let s (v : Nat) := ringWith [(0, aSlot true v false)] f
     ((s 127).w.slot 0).full = true ∧ (aCar .catchv .armed).name = ((s 127).w.slot 0).name ∧
       (((s 127).w.slot 0).ver + 256 - (aCar .catchv .armed).ver % 256) % 256 < 128 ∧
       128 ≤ (((s 128).w.slot 0).ver + 256 - (aCar .catchv .armed).ver % 256) % 256) ∧
    ((ringWith [(0, aSlot true 0 false)] (carF .catch_ .armed)).w.errsAt (.slot 0) = [] ∧
      (State.withWorld (ringWith [(0, aSlot true 0 false)] (carF .catch_ .armed))
        { (ringWith [(0, aSlot true 0 false)] (carF .catch_ .armed)).w with softErrs := [(.slot 0, true, 0)] }).w.errsAt (.slot 0) ≠ []) ∧
    (((ringWith [(0, aSlot false 0 true)] (carF .catch_ .armed)).w.slot 0).withdraw = true ∧
      ((ringWith [(0, aSlot false 0 true)] (carF .catch_ .armed)).w.slot 0).own = true) ∧
    ((mkF (carF .catch_ .armed) id).w.slot 0).own = false := by decide +kernel
theorem witness_RingActions_roster :
    (let f := carF .board .armed
     f.held = false ∧ f.arrived = false ∧ (mkF f id).w.slotQuota false 1 = 0) ∧
    (let s := ringWith [(0, aSlot true 0 false)] (carF .board .armed)
     0 < s.w.slotQuota false 1 ∧ (s.w.aboard false 1 7).isSome = true) ∧
    (let s := ringWith [(0, { aSlot true 0 false with name := 9 })] (carF .board .armed)
     0 < s.w.slotQuota false 1 ∧ s.w.aboard false 1 7 = none ∧ s.w.slotQuota false 1 ≤ s.w.aboardCount false 1 ∧ s.w.hub.pendBoards = []) ∧
    (let s := ringWith [(0, aSlot false 0 false)] (carF .board .armed)
     s.w.aboard false 1 7 = none ∧ s.w.aboardCount false 1 < s.w.slotQuota false 1) ∧
    (let f := fl (.roster false 1 7) [] []
     f.held = false ∧ f.arrived = false ∧ ((ringWith [(0, aSlot true 0 false)] f).w.aboard false 1 7).isSome = true ∧
       (mkF f id).w.aboard false 1 7 = none) ∧
    (let f := { carF .board (.refused 1) with posted := 0 }
     f.held = false ∧ f.lines = [] ∧ f.sup = false ∧ f.dueOf 0 ≤ ((mkF f id).w.gang f.gang).ttc) ∧
    (let f := { carF .repl .armed with posted := 0 }
     f.dueOf 0 ≤ ((mkF f id).w.gang f.gang).ttc) := by decide +kernel

/-! ## Hypotheses met: the sorting office, ends, pre-emption -/

/-- Tables at 0x10000 and 0x20000 that map the first GiB onto itself with every right, for both stages; a launch record of one
member, priority class 0 and number 1 at address 0. -/
def tables (s : State) : State :=
  mem1 .glb 0x10000 [3, 0, 2] (mem1 .glb 0x20000 [0x3D] s)
def aRecord (s : State) : State := mem1 .glb 13 [1, 1] (mem1 .glb 184 [1] s)
def recordOf1 (v : BitVec 384) (w : World) : World := w.modHub (fun h => { h with tenants := [(1, v)] })
def tenant1 : BitVec 384 := BitVec.ofNat 384 (3 + 2 ^ 22 + 0x10000 * 2 ^ 64 + 0x10000 * 2 ^ 128)
def queuedTask : Task := Task.posted 1 0 0 0 2 0 0
def office (l : List Task) : State := tables (mk Core.zero (fun w => recordOf1 tenant1 (w.modHub (fun h => { h with tasks := l }))))
def readBits (s : State) : Nat := match s.peek 1 0 with | .ok v => v | _ => 0
def isRec (s : State) : Bool := match s.peek 1 0 with | .ok _ => true | _ => false
theorem witness_SortingOffice_admission :
    ((office []).refreshed.nextRecord = none) ∧
    ((aRecord (office [queuedTask])).refreshed.nextRecord.map (fun t => (t.order, t.ten, t.addr)) = some (2, 1, 0) ∧
      (aRecord (office [queuedTask])).refreshed.nextRecord.any (fun t => t.seen && t.predsSeen.isEmpty) = true) ∧
    (let t := { queuedTask with seen := true }
     (office [t]).w.taskBy 2 = some t ∧ (office [t]).w.hub.tasks.filter untaken = []) := by decide +kernel
def mxImg : MemImg := { (default : MemImg) with mx := true, words := [5, 6] }
/-- An admitted task whose image is 16 bytes at address 0. -/
def admitted (f : Task → Task) : Task := f { queuedTask with stage := .admitted, no := 1, lrec := BitVec.ofNat 2048 (16 * 2 ^ 64 + 2 ^ 104 + 2 ^ 112) }
/-- What the bytes of an image hold is a free value; the hypotheses before it are met. -/
theorem witness_SortingOffice_residency :
    (let s := office [admitted id]
     s.w.taskBy 2 = some (admitted id) ∧ (admitted id).stage = .admitted ∧ (admitted id).s2wait = none ∧
       s.prepRange 1 1 0 16 = .ok [{ va := 0, pa := 0, n := 16, place := 0, home := 0 }]) ∧
    (let s := office [admitted id]
     let im : Image := { (default : Image) with members := [mxImg] }
     imageFits (admitted id) im = true ∧ s.prepAll 1 ((admitted id).ranges im) = .ok [] ∧ s.w.residencyCode (admitted id) im [] = 0 ∧
       s.w.barriersOf 1 + s.w.newBars im ≤ s.w.tenRec 1 / 2 ^ 9 % 2 ^ 13 ∧ s.w.slotsFor (admitted id) = true ∧ s.w.freshGang = some 1) ∧
    (let t := admitted (fun t => { t with lrec := t.lrec + BitVec.ofNat 2048 (64 * 2 ^ 448) })
     let s := office [t]
     let busy := s.withWorld (s.w.modDie 0 (fun d => { d with wheelOut := [(0, { own := true, ten := 1, gang := 0 })] }))
     t.wsl 0 = 64 ∧ s.w.slotsFor t = true ∧ busy.w.slotsFor t = false) ∧
    (let s := tables (mk Core.zero (fun w => recordOf1 (BitVec.ofNat 384 (3 + 0x30000 * 2 ^ 64 + 0x10000 * 2 ^ 128)) w))
     s.prepRange 1 1 0 16 = .fail 1 0) ∧
    (idle.prepRange 1 1 0 16 = .wait 0 0) ∧ (admitted (fun t => { t with s2wait := some (0, 0) })).s2wait = some (0, 0) := by decide +kernel
def resident (ms : List MemImg) : Task := admitted (fun t => { t with stage := .resident, image := { (default : Image) with members := ms } })
theorem witness_SortingOffice_placement :
    (let s := office [resident [mxImg]]
     (resident [mxImg]).stage = .resident ∧ s.w.placing (resident [mxImg]) [] = some [1] ∧ s.w.groupsOver (resident [mxImg]) [1] = false ∧
       s.w.roomFor (resident [mxImg]) (diesOf [1]) = true ∧ s.handlerWords 1 = []) ∧
    (let t := resident (List.replicate 17 mxImg)
     (office [t]).w.placing t [] = none ∧ neverPlaced t = true) ∧
    (let t := resident (List.replicate 16 mxImg)
     (office [t]).w.placing t [] = none ∧ neverPlaced t = false) ∧
    (let t := { resident [mxImg] with stage := .placed, cores := [1] }
     t.image.members = [mxImg] ∧ mxImg.regions = [] ∧ t.image.overlays = [] ∧ t.cores.Nodup) := by decide +kernel
def fillTask (ws : List Word32) : Task := { resident [{ mxImg with words := ws }] with stage := .placed, cores := [1] }
theorem witness_SortingOffice_fill_accepts : (fillTask []).imageCode = 0 := by decide +kernel
theorem witness_SortingOffice_fill_rejects :
    (fillTask [0xFFFFFFFF]).imageCode ≠ 0 := by decide +kernel
/-- Region of one line bound to the start of a lease that may be written, marked. -/
def aRegion : Region := { base := 1024, size := 1024, bound := some (0, 0) }
def boundTask : Task :=
  aTask .ending (fun t => { t with image := { (default : Image) with leases := [{ va := 0, size := 65536, rights := 2 }] } })
theorem witness_TasksEnd :
    (haltedCore.w.finished 0 = true ∧ idle.w.finished 0 = false) ∧
    (let t := aTask .ending id
     (withTask t id).w.taskBy t.order = some t ∧ t.kind = 0 ∧ t.wbDone = false ∧ ∀ k ∈ t.cores, ∀ r ∈ ((withTask t id).w.core k).regions, r.bound = none) ∧
    (let c := { Core.zero with regions := [aRegion], marks := [1] }
     boundTask.boundLines c aRegion = [(1024, 0, 1024)] ∧ stretches boundTask.runs 0 1024 = [(0, 1024)] ∧ c.poison = [] ∧ c.courses = [] ∧ boundTask.cores = [0] ∧
       0 % 4096 + 1024 ≤ 4096 ∧ boundTask.runs.find? (fun x => x.covers 0) = some (run1 2 3 0) ∧ homeOf idle.w.hub 2 3 ((run1 2 3 0).pa 0) = 3 ∧
       ((withTask boundTask id).w.die 3).up = true ∧ ((withTask boundTask downDie).w.die 3).up = false) ∧
    (let t := aTask .ending (fun t => { t with wbDone := true, crecPa := some (0, 3) })
     (withTask t id).w.taskBy t.order = some t ∧ t.crecPa = some (0, 3) ∧ ((withTask t id).w.die 3).up = true ∧
       ((withTask t downDie).w.die 3).up = false) ∧
    (let t := aTask .ending (fun t => { t with wbDone := true })
     t.crecPa = none ∧ t.wbDone = true) ∧
    (let t := aTask .ending (fun t => { t with kind := 2 })
     t.kind ≠ 0 ∧ t.wbDone = false) ∧
    (let t := aTask .placed id
     t.stage ∈ [.queued, .admitted, .resident, .placed, .filled]) ∧
    (let t := aTask .run id
     (withTask t id).w.taskBy t.order = some t ∧ t.stage = .run ∧ isTaskOf ((withTask t id).w.gang t.gid) t = true) ∧
    ((aTask .saved id).stage = .saved ∧ (aTask .closed id).stage = .closed) := by decide +kernel
def saving (t : Task) : Task := { t with lrec := BitVec.ofNat 2048 (0x10000 * 2 ^ 192), runs := [] }
def savedCtx (crcs : List Nat) : Saved :=
  { gang := soleG, gid := 0, cores := [(2, Core.zero)], spd := [(2, [])], mortar := [], isp := [], arrays := [], crcs := crcs }
theorem witness_PreemptionAndDebug :
    (let t := saving (aTask .run id)
     (withTask t id).w.taskOfGang 0 = some t ∧ t.save ≠ 0 ∧ ((withTask t id).w.gang 0).live = true) ∧
    (let t := saving (aTask .run id)
     let s := withTask t (fun w => w.modGang 0 (fun g => { g with preempt := true, stat := .held [(0, .scan)] 0 }))
     s.w.taskOfGang 0 = some t ∧ (s.w.gang 0).live = true ∧ (s.w.gang 0).preempt = true ∧ (s.w.gang 0).dbg = false ∧
       (s.w.gang 0).stat = .held [(0, .scan)] 0 ∧ ∀ f ∈ s.w.flights, f.gang ≠ 0) ∧
    (let t := saving (aTask .saved (fun t => { t with cores := [2] }))
     let v := savedCtx ((withTask t id).partCrcs t)
     let u := { t with saved := some v }
     (withTask u id).w.taskBy u.order = some u ∧ (withTask u id).w.canResume v = true ∧ firstBad ((withTask u id).partCrcs u) v.crcs 0 = none ∧
       (v.cores.map (·.1)).Nodup) ∧
    (let t := saving (aTask .saved (fun t => { t with cores := [2], saved := some (savedCtx []) }))
     (withTask t id).w.canResume (savedCtx []) = true ∧ firstBad ((withTask t id).partCrcs t) [] 0 = some 0) ∧
    ((idle.w.gang 0).live = true ∧ (idle.w.gang 0).dbg = false ∧ ((gangOf0 (fun g => { g with dbg := true }) Core.zero).w.gang 0).dbg = true ∧
      (idle.w.gang 1).live = false) := by decide +kernel
theorem firstBad_self (l : List Nat) : ∀ k, firstBad l l k = none := by
  induction l with
  | nil => intro k; rfl
  | cons a l ih => intro k; simp [firstBad, ih]
/-- A task saved with one member whose save area, mapped at machine address 0, reads as its record; then with a depth of 7. -/
def savedAt (bs : List Byte) : State × Task × Saved :=
  let t := aTask .saved (fun t => { t with cores := [2], lrec := BitVec.ofNat 2048 (0x10000 * 2 ^ 192), runs := [{ run1 2 3 0 with vbase := 1 }] })
  let v := savedCtx ((mem1 .glb 0 bs (withTask t id)).partCrcs t)
  (mem1 .glb 0 bs (withTask { t with saved := some v } id), { t with saved := some v }, v)
theorem witness_PreemptionAndDebug_resume (bs : List Byte) :
    (savedAt bs).1.w.taskBy (savedAt bs).2.1.order = some (savedAt bs).2.1 ∧ (savedAt bs).2.1.saved = some (savedAt bs).2.2 ∧
      firstBad ((savedAt bs).1.partCrcs (savedAt bs).2.1) (savedAt bs).2.2.crcs 0 = none := ⟨rfl, rfl, firstBad_self _ 0⟩
theorem witness_PreemptionAndDebug_record :
    (∀ bs ∈ [[], [0, 0, 7]], let x := savedAt bs
      x.2.1.stage = .saved ∧ x.1.w.canResume x.2.2 = true ∧ (x.2.2.cores.map (·.1)).Nodup ∧
        x.2.2.cores[0]? = some (2, Core.zero)) ∧
    (savedAt []).1.readRuns (savedAt []).2.1.runs (savedAt []).2.1.save 112 = seqRecord Core.zero.ctx ∧
    (savedAt [0, 0, 7]).1.readRuns (savedAt [0, 0, 7]).2.1.runs (savedAt [0, 0, 7]).2.1.save 112 ≠ seqRecord Core.zero.ctx ∧
    6 < leNat (((savedAt [0, 0, 7]).1.readRuns (savedAt [0, 0, 7]).2.1.runs (savedAt [0, 0, 7]).2.1.save 112).take 16) / 2 ^ 16 % 8 := by
  decide +kernel
/-! ## Hypotheses met: power, firmware, faults, the host, management, the pod, the whole machine -/

def hubbed (f : Hub → Hub) : State := mk Core.zero (fun w => w.modHub f)
def later (n : Nat) (f : World → World) : State := mk Core.zero (fun w => f { w with now := n })
def regAt (r : Reg) : State := hubbed (fun h => { h with regs := [(0, r)] })
def aReg : Reg := { imeas := 0, ilim := 720, phok := 36, step := 0, low := 0, derated := false }
theorem witness_PowerActions :
    (let x (n : Nat) : ClassChange := { cls := 2, doms := [0], since := n }
     let s (l : List ClassChange) := later (10 ^ 12) (fun w => w.modGang 0 (fun g => { g with domNext := l }))
     ((s [x 0, x 1]).w.gang 0).domNext = [x 0] ++ [x 1] ∧ ((s [x 0, x 1]).w.gang 0).domNext = x 0 :: [x 1] ∧
       (x 0).since + 10 ^ 12 ≤ (s []).w.now ∧ (∀ y ∈ [x 1], (s []).w.now < y.since + 10 ^ 12) ∧ ((s [x 1]).w.gang 0).domNext = [x 1]) ∧
    ((regAt aReg).w.reg 0 = aReg ∧ 720 < 721 ∧ 721 < 2 ^ 10) ∧ (10 * 647 < 9 * 720 ∧ 9 * 720 ≤ 10 * 648 ∧ 648 ≤ 720) ∧
    (((regAt { aReg with low := 6 }).w.reg 0).low < 7 ∧ ((regAt { aReg with low := 7, step := 1 }).w.reg 0).low = 7) ∧
    (let s := later (10 ^ 12) (fun w => w.setDie 0 { Die.zero with trip := true })
     (s.w.die 0).trip = true ∧ (s.w.die 0).tripSince + 10 ^ 12 ≤ s.w.now ∧ (idle.w.die 0).trip = false) ∧
    (31 < 32 ∧ (idle.w.clCfg 31).dom = 0) ∧
    ((0 : Word).toNat % 4 = (idle.w.clCfg 0).reg ∧ fget idle.w.hub.uvUntil 0 (idle.w.clCfg 0).dom ≤ idle.w.now ∧
      (1 : Word).toNat % 4 ≠ (idle.w.clCfg 0).reg ∧ idle.w.clusterUsed 0 = true) ∧
    (let s := hubbed (fun h => { h with domcls := 1 })
     (s.w.gang 0).live = true ∧ s.w.gangs = [(0, s.w.gang 0)] ∧ s.w.classFor (s.w.gang 0).members ≠ (s.w.gang 0).domCls) ∧
    (let ahead (s : State) := match (s.w.gang 0).domNext.getLast? with
       | some x => (x.cls, x.doms) | none => ((s.w.gang 0).domCls, (s.w.gang 0).doms)
     let s := gangOf0 (fun g => { g with domNext := [{ cls := 0, doms := [0], since := 0 }] }) Core.zero
     ahead s = (s.w.classFor (s.w.gang 0).members, (s.w.gang 0).members.map s.w.domOf) ∧
       ahead idle ≠ (idle.w.classFor (idle.w.gang 0).members, (idle.w.gang 0).members.map idle.w.domOf)) ∧
    (later (10 ^ 12) id).w.overRetreat 0 = false ∧ (idle.w.die 0).trip = false := by decide +kernel
/-- The threshold is a free value. -/
theorem witness_PowerActions_retreat (h : retreatRate 0 < 5) :
    (hubbed (fun h => { h with errs := [(0, { ms := 0, n := 5, hit := false })] })).w.overRetreat 0 = true ∧
      ((hubbed (fun h => { h with errs := [(0, { ms := 0, n := 5, hit := false })] })).w.clCfg 31).dom = 0 := by
  refine ⟨?_, by decide +kernel⟩
  show ((true && decide (retreatRate 0 < 5)) && true) = true
  rw [decide_eq_true h]; rfl
theorem witness_FirmwareActions :
    ((later (10 ^ 12 + 1) id).w.firmware false).beat + 10 ^ 12 < (later (10 ^ 12 + 1) id).w.now ∧
    (later (10 ^ 12) id).w.now ≤ ((later (10 ^ 12) id).w.firmware false).beat + 10 ^ 12 ∧
    (((later (10 ^ 13) id).w.firmware false).beat + 10 ^ 13 ≤ (later (10 ^ 13) id).w.now ∧ ((later (10 ^ 13) id).w.firmware false).updating = false) ∧
    (later (10 ^ 13 - 1) id).w.now < ((later (10 ^ 13 - 1) id).w.firmware false).beat + 10 ^ 13 ∧
    ((later (10 ^ 14) id).w.firmware true).beat + 10 ^ 14 ≤ (later (10 ^ 14) id).w.now ∧
    (later (10 ^ 14 - 1) id).w.now < ((later (10 ^ 14 - 1) id).w.firmware true).beat + 10 ^ 14 ∧
    ((hubbed (fun h => { h with leaves := 2 ^ 20 - 1 })).w.hub.leaves < 2 ^ 20 ∧ 2 ^ 20 ≤ (hubbed (fun h => { h with leaves := 2 ^ 20 })).w.hub.leaves) ∧
    ((later (10 ^ 12 + 1) (fun w => w.modHub (fun h => { h with safe := true, goodBeats := 2 }))).w.hub.safe = true ∧
      ¬((later (10 ^ 12) id).w.firmware false).beat + 10 ^ 12 < (later (10 ^ 12) id).w.now) := by
  decide +kernel
/-- Cluster 0 with core 0 of gang 0 alone, its weights issued given; cluster 1 with no gang, the die's arrays of gang 0. -/
def weighed (n : Nat) : State := mk { Core.zero with dws := n } (fun w => w)
theorem witness_FirmwareActions_energy :
    (∀ n ∈ [0, 7], let s := weighed n
      let cs := allCores.filter (fun j => clusterOf j == 0)
      0 ∈ cs ∧ (s.w.core 0).gang = some 0 ∧ (∀ j ∈ cs, j ≠ 0 → (s.w.core j).gang = none) ∧ (s.w.die (0 / 4)).arrayGang = none ∧
        (cs.map (fun j => (s.w.core j).dws)).sum = n) ∧
    (let s := mk Core.zero (fun w => w.setDie 0 { Die.zero with arrayGang := some 0 })
     (∀ j ∈ allCores.filter (fun j => clusterOf j == 1), (s.w.core j).gang = none) ∧ 1 < 16 ∧ (s.w.die (1 / 4)).arrayGang = some 0) := by
  decide +kernel
/-- Whether a signature verifies is a free value; a leaf and a version that are no older are met, or not. -/
theorem witness_FirmwareActions_update (h : Config.signatureOk 0 0 = true) :
    (Config.signatureOk 0 0 = true ∧ 2 ^ 20 - 1 < 2 ^ 20 ∧ (idle.w.firmware false).leaf < 1 ∧ (idle.w.firmware true).leaf < 1 ∧ (idle.w.firmware true).minVersion ≤ 0) ∧
    ¬(idle.w.firmware false).leaf < 0 := ⟨⟨h, by decide, by decide +kernel⟩, by decide +kernel⟩
def coursed (c : Course) (k : Nat) : State := mk Core.zero (fun w => w.setCore k { Core.zero with courses := [(31, c)], stale := [2047] })
def usedTask : Task := aTask .run (fun t => { t with used := [.core 40 3] })
theorem witness_FaultsAndScans :
    (31 < 32 ∧ 3 < 4 ∧ (((coursed Course.healthy 40).w.core 40).course 31).bricks = [] ∧ (coursed Course.healthy 40).w.relDown = false ∧
      (later (10 ^ 13 + 1) id).w.relDown = true ∧ (coursed Course.healthy 40).w.wornOut 40 31 3 = false) ∧
    (((coursed { bricks := [1], failing := false } 40).w.core 40).course 31).bricks = [1] ∧ (3 ∉ [1] ∧ [1].length = 1 ∧ 1 ∈ [1]) ∧
    (2047 ∈ ((coursed Course.healthy 40).w.core 40).stale ∧ 2047 = Nat.xor 31 ((coursed Course.healthy 40).w.core 40).xm * 64 + 63) ∧
    (((ringWith [(0, aSlot true 0 false)] (carF .catch_ .armed)).w.slot 0).full = true ∧ (idle.w.slot 0).full = false) ∧
    ((coursed Course.healthy 40).w.core 40).gang = none ∧ (4095 < 4096 ∧ 4096 < 34816 ∧ 34816 ≤ 34816) ∧ (idle.w.core 40).courses = [] ∧
    (31 < 32 ∧ (((coursed { bricks := [1], failing := false } 40).w.core 40).course 31).bricks.length = 1) ∧
    (usedTask ∈ (withTask usedTask id).w.hub.tasks ∧ .core 40 3 ∈ usedTask.used ∧ usedTask.conf = false) ∧
    (let t := aTask .closed (fun t => { t with ran := true, crecPa := some (0, 3), used := [.core 40 3] })
     (withTask t id).w.taskBy t.order = some t ∧ t.susp = false ∧ t.conf = false ∧ t.ran = true ∧ t.crecPa = some (0, 3) ∧
       t.used.all (withTask t id).w.unitIdle = true ∧ ((withTask t id).w.die 3).up = true) ∧
    (let t := aTask .closed (fun t => { t with ran := true, used := [.core 0 3] })
     (withTask t id).w.taskBy t.order = some t ∧ t.used.all (withTask t id).w.unitIdle = false) := by decide +kernel
/-- The threshold is a free value. -/
def wearing : State := later (10 ^ 12) (fun w => w.modHub (fun h => { h with nominal := [(clusterOf 40, 0)], errs := [(brickKey 40 31 3, { ms := 0, n := 5, hit := false })] }))
theorem witness_FaultsAndScans_worn (h : failureRate < 5) : wearing.w.wornOut 40 31 3 = true ∧ wearing.w.relDown = false ∧
    ((wearing.w.core 40).course 31).bricks = [] := by
  refine ⟨?_, by decide +kernel⟩
  unfold World.wornOut
  exact (Bool.and_eq_true _ _).mpr ⟨by decide +kernel, decide_eq_true h⟩
def tenanted (f : World → World) : State := mk Core.zero (fun w => f (recordOf1 tenant1 w))
/-- Queue 7 of tenant 1 full. -/
def full : State := tenanted (fun w => w.modHub (fun h => { h with tasks := List.replicate 64 (Task.posted 1 7 0 0 2 0 0) }))
def waitsAt (s : State) : Option (Nat × Nat) := match s.peek 1 0 with | .wait a b => some (a, b) | _ => none
def failsAt (s : State) : Option (Nat × Nat) := match s.peek 1 0 with | .fail a b => some (a, b) | _ => none
theorem witness_HostRequests :
    (idle.w.hub.mailOpen = true ∧ (hubbed (fun h => { h with mailOpen := false })).w.hub.mailOpen = false) ∧
    (0xFFEFFFFFFFFF0 % 16 = 0 ∧ 0xFFEFFFFFFFFF0 + 16 ≤ 0xFFF0000000000 ∧ (idle.w.die (idle.w.homeOfPa 0)).up = true ∧
      (later 0 (fun w => w.setDie (w.homeOfPa 0) { Die.zero with up := false })).w.homeOfPa 0 = idle.w.homeOfPa 0 ∧
      ((later 0 (fun w => w.setDie (w.homeOfPa 0) { Die.zero with up := false })).w.die (idle.w.homeOfPa 0)).up = false) ∧
    (1 % 16 ≠ 0 ∧ 256 % 16 = 0 ∧ 16 ≤ 256 ∧ 256 ≤ 256 ∧ idle.w.gpoison = [] ∧ (∀ i < 256, (idle.w.die (idle.w.homeOfPa (0 + i / 16 * 16))).up = true)) ∧
    (15 ∈ (later 0 (fun w => { w with gpoison := [15] })).w.gpoison) ∧
    (AmoOp.addI64 ≠ .faddF32 ∧ 8 % 8 = 0 ∧ idle.mem.num .glb 8 (amoBytes .addI64) = 0 ∧ amoBytes .addI32 = 4 ∧ 12 % 8 ≠ 0 ∧
      8 + 8 ≤ 0xFFF0000000000) ∧
    ((tenanted id).w.tenRec 1 % 2 = 1 ∧ (tenanted id).w.queueLen 1 7 < 64 ∧ idle.w.tenRec 1 % 2 = 0) ∧
    64 ≤ full.w.queueLen 1 7 ∧
    ((office [queuedTask]).w.hub.tasks.filter untaken = [queuedTask] ∧ (office [queuedTask]).w.taskBy 2 = some queuedTask ∧
      isRec (aRecord (office [queuedTask])) = true ∧ recBad (readBits (aRecord (office [queuedTask]))) = false ∧
      (aRecord (office [queuedTask])).w.duplicate queuedTask (readBits (aRecord (office [queuedTask])) / 2 ^ 1472 % 2 ^ 32) = false) ∧
    (isRec (office [queuedTask]) = true ∧ recBad (readBits (office [queuedTask])) = true) ∧
    (let s := aRecord (office [aTask .run id, queuedTask])
     s.w.hub.tasks.filter untaken = [queuedTask] ∧ s.w.taskBy 2 = some queuedTask ∧ isRec s = true ∧ recBad (readBits s) = false ∧
       s.w.duplicate queuedTask (readBits s / 2 ^ 1472 % 2 ^ 32) = true) ∧
    (let s := (withTask queuedTask id)
     let r := tables (s.withWorld (recordOf1 (BitVec.ofNat 384 (3 + 0x30000 * 2 ^ 64 + 0x10000 * 2 ^ 128)) s.w))
     s.w.hub.tasks.filter untaken = [queuedTask] ∧ waitsAt s = some (0, 0) ∧ r.w.hub.tasks.filter untaken = [queuedTask] ∧
       failsAt r = some (1, 0)) := by
  decide +kernel
def named1 : State := withTask (aTask .run (fun t => { t with runs := [run1 0 0 0] })) id
theorem witness_ManagementWrites :
    ((∀ t ∈ idle.w.hub.tasks, ∀ y ∈ t.runs, y.place ≠ 0) ∧ ∃ t ∈ named1.w.hub.tasks, ∃ y ∈ t.runs, y.place = 0) ∧
    ((idle.w.core 9).gang = none ∧ (idle.w.slot 1023).full = false ∧ ((ringWith [(1023, aSlot true 0 false)] (fl .gstore [] [])).w.slot 1023).full = true) ∧
    (720 ≤ (idle.w.reg 3).ilim ∧ (idle.w.reg 3).phok = 36 ∧ ((regAt { aReg with ilim := 630, phok := 35 }).w.reg 0).ilim < 720 ∧
      ((regAt { aReg with ilim := 630, phok := 35 }).w.reg 0).phok ≠ 36) ∧
    ((∀ y ∈ (withTask (aTask .closed id) id).w.hub.tasks, y.ten = 1 → y.stage = .closed) ∧
      ¬(∀ y ∈ (withTask (aTask .run id) id).w.hub.tasks, y.ten = 1 → y.stage = .closed)) ∧
    ((idle.w.deque 1023).ten = none ∧ 0 < 4096 ∧ idle.w.dequeTotal + 4096 ≤ 2 ^ 20) ∧
    ((tenanted id).w.tenRec 1 % 2 = 1 ∧ idle.w.tenRec 1 % 2 = 0) := by decide +kernel
def aKey (rights : Nat) : KeyEntry := { valid := true, rights := rights, gang := 0, ten := 1, key := 9, miss := 0 }
def keyed (rights : Nat) (f : World → World) : State :=
  withTask (aTask .run id) (fun w => f ((w.modHub (fun h => { h with
    ports := [(15, { Port.idle with keys := [(0, aKey rights)] })] })).setDie 3 { Die.zero with lids := [1] }))
def outTo (p : PodOut) : State := mk Core.zero (fun w => w.modHub (fun h => { h with podOut := [p] }))
def aPodOut : PodOut := { id := 4, gang := 0, core := 0, after := 6, route := 2, port := 15, ten := 1, left := 1, togo := 0 }
theorem witness_PodRequests :
    (let s := keyed 7 id
     (s.w.port 15).up = true ∧ (s.w.port 15).keys = [(0, aKey 7)] ∧ (aKey 7).valid = true ∧ (aKey 7).ten = 1 ∧ (aKey 7).rights.testBit 0 = true ∧
       (aKey 7).rights.testBit 1 = true ∧ (aKey 7).rights.testBit 2 = true ∧
       (hit (s.w.runsFor 0 1) 65472 64 0).any (fun r => !(r.pa 65472).testBit 51 && (s.w.die (homeOf s.w.hub r.place r.home (r.pa 65472))).up &&
         (s.w.die (homeOf s.w.hub r.place r.home (r.pa 65472))).lids.contains r.lid) = true ∧
       (hit (s.w.runsFor 0 1) 65472 64 1).isSome = true ∧ (hit (s.w.runsFor 0 1) 65528 8 2).isSome = true ∧
       hit (s.w.runsFor 0 1) 65536 64 0 = none ∧ s.w.gpoison = [] ∧ s.mem.num .glb 65528 8 = 0 ∧
       (s.w.die (s.w.homeOfPa 65528)).up = true ∧ (aKey 7).key ≠ 8 ∧ s.w.tenRec 1 % 2 = 0) ∧
    (let s := keyed 7 (fun w => { w with gpoison := [65472] })
     65472 ∈ s.w.gpoison) ∧
    (let s := keyed 7 (fun w => w.modDie 3 (fun d => { d with revoked := [1] }))
     1 ∈ (s.w.die 3).revoked ∧ (hit (s.w.runsFor 0 1) 65472 64 1).any (fun r => homeOf s.w.hub r.place r.home (r.pa 65472) == 3) = true) ∧
    ((idle.w.port 15).up = true ∧ (idle.w.port 15).keys = []) ∧
    ((hubbed (fun h => { h with ports := [(15, { Port.idle with up := false })] })).w.port 15).up = false ∧
    ((outTo aPodOut).w.hub.podOut = [aPodOut] ∧ 0 < aPodOut.left ∧ ({ aPodOut with left := 0, togo := 1 }).left = 0 ∧ aPodOut.port = 15) := by decide +kernel
theorem witness_Resets :
    (∀ t ∈ idle.w.hub.tasks, ∀ k ∈ t.cores, k / 8 ≠ 0) ∧ (40 ∈ allCores ∧ 40 / 8 = 5) ∧ idle.w.hub.mailOpen = true ∧
      (hubbed (fun h => { h with mailOpen := false })).w.hub.mailOpen = false := by decide +kernel
theorem witness_DecodeEncode :
    Instr.wellFormed (.vfma .f16 .rdn 383 ⟨383, true⟩ (.vec ⟨383, true⟩) ⟨383, true⟩ ⟨15, true⟩) = true ∧
    clsOf (.vfma .f16 .rdn 383 ⟨383, true⟩ (.vec ⟨383, true⟩) ⟨383, true⟩ ⟨15, true⟩) = some .f ∧
    Instr.wellFormed (.lds .b4 true 63 ⟨63, .lit 2⟩) = true ∧ clsOf (.lds .b4 true 63 ⟨63, .lit 2⟩) = some .m := by decide
theorem witness_StepKeepsCanonical : State.reset.Canonical ∧ (mem1 .glb 7 [1, 0, 3] idle).Canonical ∧
    ∃ t, step (mem1 .glb 7 [1, 0, 3] idle) = .next t :=
  ⟨rfl, by unfold State.Canonical; decide +kernel, _, rfl⟩
theorem witness_OnlyStoresWrite : clsOf (.add 1 2 (.reg 3)) ≠ none ∧ isStore (.add 1 2 (.reg 3)) = false ∧
    ∃ t, exec (.add 1 2 (.reg 3)) idle = .next t := ⟨by decide, by decide, _, rfl⟩

/-! ### A step runs what is decoded -/

/-- `add s1, s2, s3` in position `sa0` at word 0 of core 0: header, slot. -/
def oneSlot : State :=
  { mem1 .isp 0 [0x20, 0, 8, 0, 0, 0x83, 0x10, 0] idle with
    w := { idle.w with script := [.cycle 0], cores := [(0, { Core.zero with gang := some 0, startMap := [0] })], now := 7 } }
def evented : State := { idle with w := { idle.w with script := [.ev .powerOnReset] } }
def cycled (s : State) : State :=
  let a := s.withWorld (s.popped [])
  let b := a.withWorld (a.w.till (a.w.gang 0).nextAt)
  b.withWorld ((b.w.reclock 0).modGang 0 (fun g => { g with nextAt := b.w.now + g.period }))
def fallen0 (s : State) : State := let c := cycled s; c.commit (State.fallDue 0 false [0] (c.w.gang 0).ttc c)
def settled0 (s : State) : State := let c := fallen0 s; c.commit (State.sourceReads 0 [0] ((cycled s).w.gang 0).ttc c)
def rebuilt (s : State) : State × Trial := rebuildMembers (settled0 s) false 0 (settled0 s) [0]
def rebuilt0 (s : State) : State := (rebuilt s).1
theorem witness_StepRunsTheDecoded_event : evented.w.script = .ev .powerOnReset :: [] ∧ isEvent .powerOnReset = true ∧
    ∃ t, exec .powerOnReset (evented.withWorld (evented.popped [])) = .next t := ⟨rfl, rfl, _, rfl⟩
theorem witness_StepRunsTheDecoded_cycle :
    oneSlot.w.script = .cycle 0 :: [] ∧ (oneSlot.w.gang 0).runs = true ∧ (oneSlot.w.gang 0).stat = .running ∧ (oneSlot.w.gang 0).members = [0] ∧
    ((settled0 oneSlot).w.gang 0).ttc = 0 ∧ ((settled0 oneSlot).w.gang 0).nextEvent = none ∧ ((fallen0 oneSlot).w.gang 0).stat ≠ .ended ∧
    ((settled0 oneSlot).w.gang 0).members = [0] ∧ ((rebuilt0 oneSlot).w.gang 0).domNext = [] ∧ (rebuilt oneSlot).2 = .clear ∧
    (settled0 oneSlot).plan 0 false 0 = (rebuilt0 oneSlot).plan 0 false 0 ∧
    (rebuilt0 oneSlot).precheck 0 false 0 = none ∧
    ((rebuilt0 oneSlot).plan 0 false 0).any (fun p => !p.b.hdr.rp && p.b.slots == [(3, .add 1 2 (.reg 3))] &&
      !(rebuilt0 oneSlot).w.readsFaulty 0 3 false (((rebuilt0 oneSlot).w.core 0).ctx.readsNow (.add 1 2 (.reg 3))) &&
      (runInstr (.add 1 2 (.reg 3)) ((rebuilt0 oneSlot).enter p 3)).w.abort == none &&
      ((runInstr (.add 1 2 (.reg 3)) ((rebuilt0 oneSlot).enter p 3)).w.core 0).seals.isEmpty &&
      (runInstr (.add 1 2 (.reg 3)) ((rebuilt0 oneSlot).enter p 3)).w.flights.all (fun f => (nextParts f 0).isEmpty)) = true := by
  decide +kernel


/-! ### The clauses added to the statements -/

theorem witness_ScratchpadLoads_single :
    let w := (mk Core.zero (fun w => { w with softErrs := [(.row 0 0, false, 3)] })).w
    0 ∉ (w.core 0).poison ∧ (w.core 0).rowFailed 0 = false ∧ hasDouble (inWords 0 4 (w.errsAt (.row 0 0))) = false ∧
      inWords 0 4 (w.errsAt (.row 0 0)) ≠ [] := by decide +kernel
def aSeal : SealOp := { issue := 5, course := 31, line := 63, n := 2, dirty := [], sup := false, prior := false }
theorem witness_AtomicSealStatus_seal :
    let s (c : Core) := mk { c with seals := [aSeal] } (fun w => w)
    ((s Core.zero).w.core 0).seals = [aSeal] ∧ (1 < aSeal.n ∧ 10 = aSeal.issue + 3 + 2 * 1) ∧
      (((s Core.zero).w.core 0).health aSeal.course).bricks = [] ∧
      (((s { Core.zero with courses := [(31, { bricks := [2], failing := false })] }).w.core 0).health 31).bricks ≠ [] ∧
      (aSeal.issue + 4 + 2 * aSeal.n ≤ 13 ∧ 12 < aSeal.issue + 4 + 2 * aSeal.n) := by decide +kernel
theorem witness_BlockTransfers_turnedAway :
    let len (x : Word) := x.toNat % 2 ^ 22 / 16 * 16
    let fill (n : Nat) : EngCmd := { dst := .glb, src := .glb, mask := none, segs := [{ d := 0, s := none, n := n, pat := [1] }] }
    let copy : EngCmd := { dst := .glb, src := .spd 0, mask := none, segs := [{ d := 65536, s := some 0, n := 16, pat := [] }] }
    (2 ^ 21 < len 0x200010 ∧ (0x200010 : Word).toNat / 2 ^ 22 % 2 ^ 18 = 0) ∧
    ((0x200000 : Word).toNat / 2 ^ 21 % 128 ∉ (idle.w.gangAt 0).members ∧ (0x200000 : Word).toNat / 2 ^ 28 = 0) ∧
    ((0x10000000 : Word).toNat / 2 ^ 21 % 128 ∈ (idle.w.gangAt 0).members ∧ (0x10000000 : Word).toNat / 2 ^ 28 ≠ 0) ∧
    (lowestBad ((leasing (run1 2 0 0)).w.entries 0) (fill 65536).global.2 (fill 65536).global.1 = none ∧
      lowestBad ((leasing (run1 2 0 0)).w.entries 0) (fill 65552).global.2 (fill 65552).global.1 = some 65536 ∧
      lowestBad ((leasing (run1 2 0 0)).w.entries 0) copy.global.2 copy.global.1 = some 65536) ∧
    (((leasing (run1 2 0 0)).w.entries 0).find? (fun r => r.covers 4080 && r.grants 1) = some (run1 2 0 0) ∧
      4080 + 16 ≤ ((run1 2 0 0).vbase + (run1 2 0 0).pages) * 65536 ∧ 4080 / 4096 = (4080 + 16 - 1) / 4096) ∧
    (len 15 = 0 ∧ ¬(flying 64 (.eng aCopy)).w.engHeld 0 < (if isMx 0 then 64 else 32)) := by decide +kernel
theorem witness_TensorFillCheck_record :
    let s (f : World → World) (c : Core) := mem1 .spd 0 record (mk c f)
    (let l := Layout.ofNat ((s id { Core.zero with poison := [0] }).spd 0 0 64)
     l.ok = true ∧ ((s id { Core.zero with poison := [0] }).w.look 0 0 64).bad = true ∧
       (s id { Core.zero with poison := [0] }).w.engHeld 0 < 64) ∧
    (let l := Layout.ofNat ((s (fun w => (flying 64 (.eng aCopy)).w.flights.foldl (fun a f => { a with flights := a.flights ++ [f] }) w) Core.zero).spd 0 0 64)
     l.ok = true ∧ 64 ≤ (flying 64 (.eng aCopy)).w.engHeld 0) ∧
    (let l := Layout.ofNat ((mem1 .spd 0 (record.set 4 0) idle).spd 0 0 64)
     l.ok = true ∧ l.segs 0 0 false (2 ^ 21) = []) := by decide +kernel
theorem witness_SystemRegisters_values :
    let s := mk { Core.zero with groups := [3, 255, 0, 7] } (fun w => { w with cur := { slotAt with core := 4 } })
    s.w.cur.core = 4 ∧ ¬(4 < 32 ∧ 4 % 8 < 4) ∧ idle.w.cur.core = 0 ∧ [3, 255, 0, 7].length ≤ 4 ∧ (∀ x ∈ [3, 255, 0, 7], x < 256) ∧
      (mk { Core.zero with groups := [3, 255, 0, 7] } id).me.groups = [3, 255, 0, 7] := by decide +kernel
theorem witness_TrapEntry_ended :
    ((gangOf0 (fun g => { g with stat := .ended }) Core.zero).w.gang 0).stat = .ended ∧ (idle.w.gang 0).stat ≠ .ended := by decide +kernel
theorem witness_DueWrites_registers :
    (∀ p : Nat × Word, p ∈ [(0x10, 31), (0x11, 0), (0x41, 9), (0x60, 1), (0x73, 1), (0x80, 1), (0x87, 1), (0x88, 1), (0x8F, 1),
        (0xA0, 1), (0xAF, 1), (0xB0, 1), (0xBF, 1)] → dueOf0 (dueOne (.srw p.1 p.2)) = [⟨0, 0, 0, .srw p.1 p.2⟩]) ∧ (0 < 32 ∧ 0 % 8 < 4) ∧
    dueOf0 (dueOne (.flags 16)) = [⟨0, 0, 0, .flags 16⟩] ∧ dueOf0 (dueOne .ifence) = [⟨0, 0, 0, .ifence⟩] ∧
    dueOf0 (dueOne (.cropen 9)) = [] ++ ⟨0, 0, 0, .cropen 9⟩ :: [] ∧ dueOf0 (dueOne .crclose) = [] ++ ⟨0, 0, 0, .crclose⟩ :: [] ∧
    (∀ die ∈ [true, false], ∀ op ∈ [EvOp.start, .stop, .clear, .restart],
      dueOf0 (dueOne (.evctl op die 0x8081)) = [⟨0, 0, 0, .evctl op die 0x8081⟩]) ∧
    (∀ take ∈ [true, false], dueOf0 (dueOne (.lease take)) = [⟨0, 0, 0, .lease take⟩]) ∧
    (mk { Core.zero with hpend := [⟨0, 0, 0, .sup 1 5⟩] } (fun w => w.modGang 0 (fun g => { g with stat := .handler 0 }))).w.inHandler 0 = true := by
  decide +kernel
theorem witness_HomeActions_atomics :
    let f := fl (.gamo .addI64 1 5 0) [acc 8 3] []
    openAt (mkF f id) f (acc 8 3) ∧ ((mkF f id).w.die 3).up = true ∧ 1 ∉ ((mkF f id).w.die 3).revoked ∧ (mkF f id).w.gpoison = [] ∧
      8 = amoBytes .addI64 ∧ IsNumber (mkF f id).mem .glb 0 8 0 := by
  refine ⟨?_, ?_, ?_, ?_, ?_, ?_⟩ <;> (try unfold openAt) <;> (try unfold IsNumber) <;> decide +kernel
theorem witness_HomeActions_wheels :
    (let f := fl .gstore [acc 16 3] (List.replicate 16 0)
     (∀ j ∈ f.flit 0, f.hop j ≠ 1) ∧ (∀ j ∈ f.flit 0, j = 0)) ∧
    (let s := mk Core.zero (fun w => w.modHub (fun h => { h with ports := [(15, { Port.idle with
       resp := [(2, .status 0, 3), (1, .error, 4)], wheelOut := [(0, { own := true, ten := 1, gang := 0xFFF })] })] }))
     let q := fget s.w.hub.ports Port.idle 15
     q.resp = [(2, .status 0, 3)] ++ (1, .error, 4) :: [] ∧ (∀ e ∈ [((2 : Nat), Answer.status 0, (3 : Nat))], e.1 ≠ 1) ∧
       fget q.wheelOut { own := false, ten := 0, gang := 0 } q.wheelPosOut = { own := true, ten := 1, gang := 0xFFF }) := by decide +kernel
def quietAt (s : State) (k : Nat) : Prop := s.w.softErrs = [] ∧ (s.w.core k).poison = [] ∧ (s.w.core k).courses = []
/-- A command of 16 bytes into line 0, and one of the whole line, whose source has been read. -/
def lineOf (n : Nat) (mask : Option (Nat × List Byte)) : Flight :=
  { fl (.eng { dst := .spd 0, src := .spd 0, segs := [{ d := 0, s := some 2048, n := n, pat := [] }], mask := mask }) [] [] with
    got := [(0, List.replicate 1024 1)], arrived := true }
def laidOf (f : Flight) : List (Option Byte) :=
  match f.op with | .eng c => lineOver ((f.preRead Mems.zero 0).chunks c 0 0) | _ => []
theorem witness_EnginesAndDeliveries_lines :
    (∀ f ∈ [lineOf 16 none, lineOf 1024 none, lineOf 16 (some (1024, [])), carF .catch_ (.done 3 true)],
      f.lineCore = 0 ∧ (f.lineList[0]?).isSome = true ∧ 0 ∉ f.lines ∧ f.badParts = [] ∧ f.present 0 = true) ∧
    ((lineOf 16 none).lineList[0]? = some 0 ∧ (lineOf 16 none).posted + 0 ≤ (at5 (lineOf 16 none)).w.clock 0 false) ∧
    (lineOfAddr 1024 ≠ 0 ∧ lineOfAddr 1023 = 0 ∧ (List.replicate 1024 (0 : Byte)).length = 1024) ∧
    ((laidOf (lineOf 1024 none)).all (fun o => o.isSome) = true ∧ (laidOf (lineOf 1024 none)).length = 1024 ∧
      (laidOf (lineOf 16 none))[15]? = some (some 1) ∧ (laidOf (lineOf 16 none))[16]? = some none) ∧
    ((at5 (lineOf 16 none)).w.softErrs = [] ∧ ((at5 (lineOf 16 none)).w.core 0).poison = [] ∧ ((at5 (lineOf 16 none)).w.core 0).courses = []) ∧
    (let f := { carF .catch_ (.done 3 true) with src := List.replicate 4096 7, posted := 0 }
     f.op = .car (aCar .catch_ (.done 3 true)) ∧ f.src.length = 4096 ∧ f.lineList[3]? = some 3 ∧ f.posted + 3 ≤ (at5 f).w.clock 0 false) := by
  decide +kernel
theorem witness_EnginesAndDeliveries_registers :
    let settled (f : Flight) : Prop := f.held = false ∧ f.missing = [] ∧ f.badParts = [] ∧ f.down = false ∧ f.lines = [] ∧
      f.posted ≤ (at5 f).w.clock f.gang f.sup ∧ (at5 f).w.flights = [f]
    settled { fl (.gload true .b1 false 383) [] [] with parts := [0] } ∧ settled { fl (.gload false .b16 false 62) [acc 16 3] [] with parts := [0] } ∧
    settled { fl (.gamo .addI64 63 5 0) [acc 8 3] [] with parts := [0] } ∧ settled { fl (.gamo .addI64 0 5 0) [acc 8 3] [] with parts := [0] } ∧
    (∀ op ∈ [FOp.bar true 1 7, .launch 1, .roster true 1 7, .deq .push 1 7 9, .deq .pop 1 7 0, .deq .steal 1 7 0],
      settled { fl op [] [] with arrived := true } ∧ { fl op [] [] with arrived := true }.arrived = true) ∧
    (let f := { fl (.gload false .b4 true 1) [acc 4 3] [] with held := true }
     f.lines = [] ∧ f.posted ≤ (at5 f).w.clock f.gang f.sup ∧ latePending ((at5 f).w.gang f.gang) f = false ∧
       (at5 f).w.clock f.gang f.sup < { f with posted := 6 }.posted) := by decide +kernel
/-- Core 0 with tile 3 of 4 rows by 8 columns of two bytes. -/
def tiled (f : Flight) : State := mkF f (fun w => (w.modGang 0 (fun g => { g with ttc := 5 })).setDie 0
  { Die.zero with shapes := [(3, 4 + 8 * 2 ^ 11 + 4 * 2 ^ 22)] })
theorem witness_ScratchAndArrayCommits_tiles :
    (∀ op ∈ [FOp.tload true false false 3 0 4 0, .tload false true true 3 1016 8 0, .tscl 3 0 32 0, .mma 16 [], .tcvt 3 []],
      let f := fl op [] []
      (tiled f).w.flights = [f] ∧ f.core = 0 ∧ f.held = false ∧ f.badParts = [] ∧ f.lines = [] ∧ f.posted ≤ (tiled f).w.clock f.gang f.sup) ∧
    ((tiled (fl (.tscl 3 0 32 0) [] [])).w.die 0).shape 3 / 2 ^ 11 % 2 ^ 11 ≤ 1024 ∧ 1016 + 8 ≤ 1024 ∧
    (let f := { fl (.tstore 2047) [] (List.replicate 2048 0) with issue := 0 }
     let s := mkF f (fun w => w.modGang 0 (fun g => { g with ttc := 33 }))
     s.w.flights = [f] ∧ 1 ∉ f.lines ∧ f.issue + 32 + 1 ≤ s.w.clock f.gang f.sup ∧ f.src.length = 1024 * 2 ∧ (s.w.core 0).courses = []) := by
  decide +kernel
theorem witness_RingActions_withdrawn :
    (let s := ringWith [(0, aSlot false 0 true)] { carF .board .armed with arrived := true }
     s.w.spare false 1 = true) ∧
    (let s := (ringWith [(0, aSlot false 0 true)] { carF .board .armed with arrived := true })
     let t := s.withWorld (s.w.modHub (fun h => { h with pendBoards := [(1, false, 7)] }))
     t.w.spare false 1 = false ∧ (t.w.slot 0).withdraw = true ∧ (t.w.slot 0).full = false) ∧
    (let s := ringWith [(0, aSlot true 3 true)] (carF .alight .armed)
     (s.w.slot 0).full = true ∧ (s.w.slot 0).withdraw = true ∧ (aCar .alight .armed).name = (s.w.slot 0).name ∧ 5 < 8 ∧ 40 / 8 = 5) ∧
    (let s := ringWith [(0, aSlot true 3 false)] { carF .board .armed with badParts := [0] }
     { carF .board .armed with badParts := [0] }.badParts ≠ [] ∧ s.w.errsAt (.slot 0) = [] ∧ (s.w.slot 0).own = true ∧
       (s.w.slot 0).withdraw = false) := by decide +kernel
theorem witness_SortingOffice_waits :
    (let s := office [resident [mxImg]]
     let t := { resident [mxImg] with runs := [run1 2 0 0] }
     let crowded := s.withWorld (s.w.modDie 0 (fun d => { d with rlt := List.replicate 64 (run1 2 0 0) }))
     (∀ g ∈ (resident [mxImg]).image.groups, groupCode s.w 1 g = 0) ∧ s.w.freshGang = some 1 ∧
       crowded.w.placing t [] = some [1] ∧ crowded.w.roomFor t (diesOf [1]) = false) ∧
    imageFits (admitted id) (default : Image) = false := by decide +kernel
theorem witness_TasksEnd_asked :
    idle.w.hub.mailOpen = true ∧ (1 ≠ 0 ∨ idle.w.hub.mailOpen = false) ∧ (hubbed (fun h => { h with mailOpen := false })).w.hub.mailOpen = false ∧
    (let s := withTask (aTask .ending (fun t => { t with wbDone := true })) (fun w => w.modHub (fun h => { h with podOut := [aPodOut] }))
     aPodOut ∈ s.w.hub.podOut ∧ 0 < aPodOut.left ∧ aPodOut.gang = 0 ∧ ∀ f ∈ s.w.flights, f.gang ≠ 0) := by decide +kernel
def savedArray : SavedArray :=
  { die := 0, tiles := [], tshape := [], shapes := [], lease := ArrayLease.free, streamEnd := 0, mcfgAt := none }
theorem witness_PreemptionAndDebug_whole :
    (let v := { savedCtx [] with arrays := [savedArray], mortar := [(2, [])], isp := [(2, [])] }
     (v.arrays.map (·.die)).Nodup ∧ (∀ x ∈ v.cores, (idle.w.core x.1).courses = []) ∧ idle.w.canResume v = true ∧ v.gang.stat = .running ∧
       v.mortar = [(2, [])] ∧ v.isp = [(2, [])] ∧ canon ([] : List Host.Cell) = true ∧ fget Core.zero.ctx.evcsel 0 0 % 64 ≠ 0x0B) ∧
    (let g := { soleG with stat := .held [(0, .scan)] 3, preempt := true }
     g.stat = .held [(0, .scan)] 3 ∧ { g with stat := .running }.stat = .running ∧ { g with stat := .running }.preempt = true) ∧
    ((idle.w.gang 0).live = true ∧ 0 ∈ (idle.w.gang 0).members ∧ 0 / 8 = 0 ∧ idle.w.hub.mailOpen = true) := by decide +kernel
theorem witness_FaultsAndScans_waiting :
    (let s := mk Core.zero (fun w => w.modHub (fun h => { h with relWait := [.brickRetire 40 31 3] }))
     .brickRetire 40 31 3 ∈ s.w.hub.relWait ∧ s.w.relDown = false ∧ s.w.wornOut 40 31 3 = false) ∧
    (let s := later (10 ^ 13 + 1) (fun w => w.modHub (fun h => { h with relWait := [.brickRetire 40 31 3] }))
     s.w.relDown = true ∧ .brickRetire 40 31 3 ∈ s.w.hub.relWait) := by decide +kernel
theorem witness_ManagementWrites_needed :
    (let s := ringWith [(0, aSlot false 0 false)] { carF .board .armed with arrived := true }
     let t := s.withWorld (s.w.modHub (fun h => { h with pendBoards := [(1, false, 7)] }))
     (t.w.slot 0).own = true ∧ t.w.spare false (t.w.slot 0).ten = false ∧ (s.w.slot 0).full = false ∧
       ¬(s.w.spare false (s.w.slot 0).ten = false)) ∧ (isMx 0 = true ∧ (idle.w.core 9).gang = none) := by decide +kernel
theorem witness_PodRequests_ports :
    (let s := outTo { aPodOut with left := 0, togo := 2 }
     s.w.hub.podOut = [{ aPodOut with left := 0, togo := 2 }] ∧ { aPodOut with left := 0, togo := 2 }.left = 0) ∧
    (65472 % 64 = 0 ∧ 65473 % 64 ≠ 0 ∧ (hubbed (fun h => { h with ports := [(15, { Port.idle with keys := [(3, { aKey 7 with ten := 0 })] })] })).w.port 15
      = { Port.idle with keys := [(3, { aKey 7 with ten := 0 })] }) ∧
    (let s := keyed 7 (fun w => w.setDie 3 Die.zero)
     (s.w.die 3).up = true ∧ 1 ∉ (s.w.die 3).lids ∧ (hit (s.w.runsFor 0 1) 65472 64 0).any (fun r => r.lid == 1) = true) := by decide +kernel

/-! ### Rounding, loops, reconstruction, what is pending over a restart -/

/-- 1, the least subnormal, an infinity, a quiet and a signalling NaN, and a zero of `f32`. -/
theorem witness_FloatRounding :
    let f := sfSpec .f32
    (∀ x ∈ [0x3F800000, 1, 0xFF7FFFFF, 0x80000000], f.finite x = true) ∧ (f.rat 0x3F800000 = (1 : Int) ∧ f.rat 0x3F800000 ≠ 0 ∧
      0 < f.rat 0x3F800000 ∧ f.rat 0xBF800000 < 0) ∧ (∀ j : Int, f.rat 0x3F000000 ≠ j) ∧ 254 < 255 ∧
    (f.expo 0x7F800000 = 2 ^ f.eb - 1 ∧ f.frac 0x7F800000 = 0) ∧ (f.expo 0x7FC00000 = 2 ^ f.eb - 1 ∧ f.frac 0x7FC00000 ≠ 0 ∧
      ¬f.frac 0x7FC00000 < 2 ^ (f.fb - 1)) ∧ (f.frac 0x7F800001 ≠ 0 ∧ f.frac 0x7F800001 < 2 ^ (f.fb - 1)) ∧
    (f.expo 0x80000000 = 0 ∧ f.frac 0x80000000 = 0) ∧
    (⟨4, 3, 7, true⟩ : FSpec) ∈ [(⟨8, 23, 127, false⟩ : FSpec), ⟨4, 3, 7, true⟩] ∧ (⟨4, 3, 7, true⟩ : FSpec).finite 0x7E = true ∧
    PFmt.isFloat .bf16 = true ∧ (∀ e ∈ [0x3F80, 0xBF80], (pSpec .bf16).finite e = true) := by
  have h1 : (sfSpec .f32).rat 0x3F800000 = 1 := by decide +kernel
  have h2 : (sfSpec .f32).rat 0x3F000000 = 1 / 2 := by decide +kernel
  have h3 : (sfSpec .f32).rat 0xBF800000 < 0 := by decide +kernel
  have h4 (j : Int) : (sfSpec .f32).rat 0x3F000000 ≠ j := by
    rw [h2]; intro hj
    have : (1 : Int) = 2 * j := by exact_mod_cast (by linarith : (1 : ℚ) = 2 * j)
    omega
  refine ⟨by decide +kernel, ⟨by simp [h1], by simp [h1], by simp [h1], h3⟩, h4, by decide, by decide +kernel, by decide +kernel,
    by decide +kernel, by decide +kernel, by decide, by decide +kernel, rfl, by decide +kernel⟩
theorem witness_Loops_badTarget :
    badTarget (loops [anEntry] 0).me false anEntry.exit ≠ none ∧
      badTarget (mk { Core.zero with startMap := [12], ctx := { CoreCtx.zero with loops := [anEntry] } } id).me false anEntry.exit = none := by
  decide +kernel
theorem witness_ScratchpadLoads_rebuilds :
    let w := (mk { Core.zero with rebuilds := [255], courses := [(0, { bricks := [3], failing := false })] } id).w
    255 ∉ (w.core 0).poison ∧ 255 ∈ (w.core 0).rebuilds ∧ ((w.core 0).health (255 / 256)).bricks.length < 2 ∧
      (∀ e ∈ (doubled Core.zero).softErrs, e.1 = .row 0 0) := by decide +kernel
/-- A trap that is pending of a store of cycle 1 over a restart at cycle 2, and one of a command of cycle 3. -/
def pendingTrap (issue cause : Nat) : State :=
  (mk { Core.zero with rstvalid := true, restart := some aRestart } (fun w => (w.modGang 0 (fun g =>
    { g with stat := .handler 0, events := [{ due := 9, core := 0, issue := issue, pos := 6, cause := cause, info := 7, pc := none }] }))))
theorem witness_HandlerReturns_pending :
    ((pendingTrap 1 19).me.rstvalid = true ∧ (pendingTrap 1 19).me.restart = some aRestart ∧ (pendingTrap 1 19).w.flights = [] ∧
      ∃ y ∈ ((pendingTrap 1 19).w.gang 0).events, ¬(y.cause = 15 ∧ aRestart.ttc ≤ y.issue)) ∧
    (∃ y ∈ ((pendingTrap 3 15).w.gang 0).events, y.cause = 15 ∧ aRestart.ttc ≤ y.issue) := by decide +kernel

/-! ### Links, ports and barriers -/

/-- A store refused at home 3 after its request has crossed. -/
def crossed : Flight :=
  { fl .gstore [acc 16 3] (List.replicate 16 0) with hops := [(0, 2)], held := true, refusals := 1, retryAt := some 7 }
def portOf (r : List (Nat × Answer × Nat)) (s : WSlot) : World → World :=
  fun w => w.modHub (fun h => { h with podOut := [aPodOut], ports := [(15, { Port.idle with resp := r, wheelOut := [(0, s)] })] })
def podStore : Flight := { fl .gstore [{ acc 16 8 with pod := true }] (List.replicate 16 0) with id := 4, hops := [(0, 1)] }
theorem witness_HomeActions_refusal :
    (crossed ∈ (mkF crossed (fun w => { w with now := 7 })).w.flights ∧ crossed.retryAt = some 7 ∧ crossed.parts = [] ∧ crossed.hop 0 = 2) ∧
    (let e := engine .glb (.spd 0)
     let f := { fl (.eng (engine (.spd 0) .glb)) [acc 16 3] [] with arrived := true, hops := [(0, 2)] }
     isSpd e.dst = false ∧ isSpd (engine (.spd 0) .glb).dst = true ∧ (engine (.spd 0) .glb).crosses = none ∧ f.begun = true ∧ 0 ∉ f.parts ∧
       f.hop 0 = 2 ∧ (f.partAt 0).any (fun p => !p.pod && p.home != 8 && p.home != f.dataDie) = true) := by decide +kernel
theorem witness_HomeActions_ports :
    (let s := mkF podStore (portOf [(1, .status 0, 3)] WSlot.unowned)
     (s.w.port 15).resp = (1, .status 0, 3) :: [] ∧ s.w.waiting (16 + 15) true podStore = some 0 ∧ (∀ g ∈ s.w.flights, s.w.waiting (16 + 15) true g ≠ none → 3 ≤ g.id)) ∧
    (let s := mkF podStore (portOf [(1, .status 0, 9)] { own := true, ten := 1, gang := 0xFFF })
     s.w.flights = [podStore] ∧ s.w.waiting (16 + 15) true podStore = some 0 ∧ (∀ e ∈ (s.w.port 15).resp, podStore.id < e.2.2)) := by decide +kernel
theorem witness_SynchronisationEngine_bound :
    let s := mkF (fl (.bar false 1 7) [] []) (fun w => (barred { heldBar with grp := some 3 } w).modHub
      (fun h => { h with groups := [(3, { mem := [(0, 1)], ten := 1, holders := [1], claims := [] })] }))
    (s.w.barrier 7).grp = some 3 ∧ (∀ g, (s.w.barrier 7).grp = some g → 0 ∈ (s.w.group g).cores) ∧ (s.w.barrier 7).cnt + 1 < (s.w.barrier 7).exp := by
  intro s
  refine ⟨by decide +kernel, fun g h => ?_, by decide +kernel⟩
  obtain rfl : 3 = g := Option.some.inj (show some 3 = some g from (by decide +kernel : some 3 = (s.w.barrier 7).grp).trans h)
  decide +kernel

/-! ### Queues, array leases, tiles -/

/-- Queue 0 of core 0 with 16 entries, and a lane used at the cycle before. -/
def laned : State := mk { Core.zero with lanes := [(0, some 4)] } (fun w =>
  w.modHub (fun h => { h with groups := [(0, { mem := [(0, 1)], ten := 1, holders := [1], claims := [] })] }))
theorem witness_OperandQueues_turnedAway :
    let pm (n : Word) : State := scalars [(2, n)]
    (fget laned.me.lanes none 0 = some 4 ∧ 4 < laned.w.cur.issue ∧ laned.w.cur.issue < 4 + 4 ∧ laned.w.reserved 0 0 < 16 ∧
      (∀ k ∈ (laned.w.group 0).cores, k ∈ (laned.w.gangAt 0).members) ∧ (laned.w.group 0).holders ≠ [] ∧ 0 ∈ (laned.w.group 0).cores) ∧
    (((pm 9).w.srcZ (.reg 2)).toNat % 128 ∉ ((pm 9).w.gangAt 0).members) ∧
    (((pm 0x800).w.srcZ (.reg 2)).toNat % 128 ∈ ((pm 0x800).w.gangAt 0).members ∧ ((pm 0x800).w.srcZ (.reg 2)).toNat / 2 ^ 11 % 32 ≠ 0) ∧
    (idle.w.group 0).holders = [] ∧ (∀ k ∈ (idle.w.group 0).cores, k ∈ (idle.w.gangAt 0).members) := by decide +kernel
theorem witness_ArrayLeases_turnedAway :
    let s (d : Die → Die) := (leased (some 0) 0 d).w.die 0
    (idle.w.die 0).lease.holder ≠ some 0 ∧ (64 ≤ ((leased (some 0) 64 id).w.die 0).lease.count) ∧
    (let late := (leased (some 0) 0 id)
     (late.w.die 0).lease.grant + 16384 ≤ 16384 ∧ ¬(late.w.die 0).lease.grant + 16384 ≤ late.w.cur.issue) ∧
    ((s (fun d => { d with streamEnd := 6 })).streamEnd = 6 ∧ 5 < 6 ∧ ¬5 < (s id).streamEnd) ∧
    ((s (fun d => { d with mcfgAt := some 6 })).mcfgAt = some 6) := by decide +kernel
theorem witness_TileCommands_turnedAway :
    let s := shaped [(2, 5 * 2 ^ 11), (5, 33 * 32)] [entry 0 1]
    let d := s.w.die 0
    (shFmt (d.shape 5) = 0 ∧ shFmt (d.shape 0) ≠ 0) ∧
    (¬(s.w.src (.reg 2)).toNat % 2 ^ 11 + (s.w.src (.reg 2)).toNat / 2 ^ 11 % 2 ^ 11 ≤ shRows (d.shape 0)) ∧
    (¬(s.w.src (.reg 5)).toNat % 32 + (s.w.src (.reg 5)).toNat / 32 % 64 ≤ 32) ∧ d.streamEnd ≤ s.w.cur.issue ∧
    (¬(shCols (d.shape 2) = shRows (d.shape 1)) ∧ shFmt (d.shape 2) ≠ 0) ∧ ¬(shRows (d.shape 1) = shRows (d.shape 16)) ∧
    ¬(∀ j < 4, ∃ e, (s.me.queue 0)[j]? = some e ∧ e.sender = 0 ∧ e.seq = j) := by
  intro s d
  refine ⟨by decide +kernel, by decide +kernel, by decide +kernel, by decide +kernel, by decide +kernel, by decide +kernel, fun h => ?_⟩
  obtain ⟨e, h0, -, h1⟩ := h 0 (by decide)
  obtain rfl : entry 0 1 = e := Option.some.inj ((by decide +kernel : some (entry 0 1) = (s.me.queue 0)[0]?).trans h0)
  exact absurd h1 (by decide)

/-! ### Management, resets, errors -/

theorem witness_FirmwareActions_bringUp (h : Config.signatureOk 0 0 = true) :
    let s (l : List Bool) := hubbed (fun h => { h with mailOpen := false, bootBad := l })
    (∀ l ∈ [[true], [false, true]], Config.signatureOk 0 0 = true ∧ ((s l).w.firmware false).leaf < 1 ∧ ((s l).w.firmware true).leaf < 1 ∧
      ((s l).w.firmware true).minVersion ≤ 0) ∧
    (∀ b ∈ (s [true]).w.hub.bootBad, b = true) ∧ (∃ b ∈ (s [false, true]).w.hub.bootBad, b ≠ true) :=
  ⟨fun l hl => ⟨h, by revert l; decide +kernel⟩, by decide +kernel, by decide +kernel⟩
theorem witness_FaultsAndScans_again :
    let s := mk Core.zero (fun w => { w with softErrs := [(.row 0 0, false, 32)] })
    (.row 0 0, false, 32) ∈ s.w.softErrs ∧ 32 / 32 = 63 / 32 ∧ 32 ≠ 63 ∧ (∀ e ∈ s.w.softErrs, e.1 = ErrSite.row 0 0 → e.2.2 / 32 ≠ 64 / 32) := by
  decide +kernel
theorem witness_ManagementWrites_running :
    (idle.w.core 0).gang ≠ none ∧ (idle.w.core 0).xm < 32 ∧ idle.Canonical ∧ 31 < 32 ∧ 15 < 16 ∧ 4095 < 4096 :=
  ⟨by decide +kernel, by decide +kernel, rfl, by decide, by decide, by decide⟩
theorem witness_Resets_writeBack :
    let t := aTask .ending id
    let s := withTask t id
    s.w.hub.mailOpen = true ∧ s.w.hub.tasks = [t] ∧ t.cores = [0] ∧ 0 / 8 = 0 ∧ (s.w.core 0).gang = some t.gid ∧ t.stage = .ending ∧ t.kind = 0 ∧
      t.wbDone = false := by decide +kernel
/-- Whether a boot image verifies is a free value. -/
theorem witness_Resets_boot : Config.bootOk idle.w.draws = true ∨ Config.bootOk idle.w.draws = false := by
  cases Config.bootOk idle.w.draws <;> simp
theorem witness_ScratchAndArrayCommits_counted :
    let s := mk { Core.zero with stale := [2047], sweep := [(31, 2 * 2047 + 1)], ctx := { CoreCtx.zero with evcsel := [(7, 2 ^ 6 + 0x25)] } } id
    (s.w.core 0).evq = [] ∧ 7 < 8 ∧ fget (s.w.core 0).ctx.evcsel 0 7 = 2 ^ 6 + 0x25 ∧ 31 ∉ (s.w.core 0).touched := by decide +kernel

end Sys2Proof.Tests
end

/-! SUPPORT. Rules for the operations that the host's requests and the firmware's actions share. -/
section
namespace Sys2Proof.Machine
open Sys2Proof

/-! ## What an action answers -/

/-- An action that writes no memory answers the world that it comes to. -/
theorem done_only_eq {s : State} {w v : World} (h : w = v) : done s (only w) = .next { s with w := v } := by
  rw [h, done_only]

/-! ## Numbers in memory (R36, R64) -/

@[simp] theorem leBytes_length (n v : Nat) : (leBytes n v).length = n := by
  induction n generalizing v with
  | zero => rfl
  | succ n ih => simp [leBytes, ih]
/-- Byte `i` of a number, little-endian. -/
theorem leBytes_getElem (n v i : Nat) (h : i < (leBytes n v).length) :
    (leBytes n v)[i] = BitVec.ofNat 8 (v / 2 ^ (8 * i)) := by
  induction n generalizing v i with
  | zero => simp at h
  | succ n ih =>
    cases i with
    | zero => simp [leBytes]
    | succ i =>
      have hi : i < (leBytes n (v / 256)).length := by simpa using h
      simp only [leBytes, List.getElem_cons_succ, ih _ _ hi, Nat.div_div_eq_div_mul]
      rw [show 256 * 2 ^ (8 * i) = 2 ^ (8 * (i + 1)) by rw [Nat.mul_add, pow_add]; ring]
/-- A number whose bytes are those of a list is the list's. -/
theorem leNat_eq (l : List Byte) (v : Nat) (hv : v < 2 ^ (8 * l.length))
    (h : ∀ i (hi : i < l.length), v / 2 ^ (8 * i) % 256 = l[i].toNat) : leNat l = v := by
  induction l generalizing v with
  | nil => simp at hv; simp [leNat, hv]
  | cons b r ih =>
    have h0 : v % 256 = b.toNat := by have h0 := h 0 (by simp); rwa [Nat.mul_zero, pow_zero, Nat.div_one] at h0
    have hr : leNat r = v / 256 := by
      refine ih _ ?_ fun i hi => ?_
      · simp only [List.length_cons, Nat.mul_add, pow_add] at hv
        omega
      · have hs := h (i + 1) (by simpa using hi)
        rw [Nat.div_div_eq_div_mul, show 256 * 2 ^ (8 * i) = 2 ^ (8 * (i + 1)) by rw [Nat.mul_add, pow_add]; ring]
        simpa using hs
    simp only [leNat, hr]
    omega
theorem bytes_length (m : Mems) (sp : Space) (a n : Nat) : (m.bytes sp a n).length = n := by
  simp [Mems.bytes, bytesAt]
theorem bytes_getElem (m : Mems) (sp : Space) (a n i : Nat) (h : i < (m.bytes sp a n).length) :
    (m.bytes sp a n)[i] = m.byte sp (a + i) := by
  have hi : i < n := by simpa [bytes_length] using h
  simp only [Mems.bytes, bytesAt, List.getElem_map, List.getElem_range, slice, Mems.byte]
  exact cellAt_filter fun e he => by simp [he, hi]
/-- The number that some bytes hold is the one that the memory reads there. -/
theorem num_of_isNumber {m : Mems} {sp : Space} {a n v : Nat} (h : IsNumber m sp a n v) : m.num sp a n = v := by
  obtain ⟨hv, hb⟩ := h
  refine leNat_eq _ _ (by rwa [bytes_length]) fun i hi => ?_
  rw [bytes_getElem, hb i (by simpa [bytes_length] using hi)]
@[simp] theorem cells_setCells_same (m : Mems) (sp : Space) (c : List Host.Cell) : (m.setCells sp c).cells sp = c := by
  cases sp <;> rfl
theorem cells_setCells_other {sp sp' : Space} (h : sp' ≠ sp) (m : Mems) (c : List Host.Cell) :
    (m.setCells sp c).cells sp' = m.cells sp' := by
  revert h; cases sp <;> cases sp' <;> simp [Mems.setCells, Mems.cells]
/-- A number written reads back, in as many bytes as were written. -/
theorem isNumber_written (m : Mems) (sp : Space) (a n v : Nat) :
    IsNumber (m.apply (.bytes sp a (leBytes n v))) sp a n (v % 2 ^ (8 * n)) := by
  refine ⟨Nat.mod_lt _ (by positivity), fun i hi => ?_⟩
  have hr : (m.apply (.bytes sp a (leBytes n v))).byte sp (a + i) = BitVec.ofNat 8 (v / 2 ^ (8 * i)) := by
    simp only [Mems.apply, Mems.byte, cells_setCells_same]
    rw [cellAt_writeBytes_in (by simpa using hi), leBytes_getElem]
  rw [hr, BitVec.toNat_ofNat, show 8 * n = 8 * i + 8 * (n - i) by omega, pow_add, Nat.mod_mul_right_div_self]
  exact Nat.mod_mod_of_dvd _ (pow_dvd_pow 2 (show 8 ≤ 8 * (n - i) by omega))
/-- A write of bytes changes no byte elsewhere. -/
theorem sameBut_written (m : Mems) (sp : Space) (a : Nat) (bs : List Byte) :
    SameBut m (m.apply (.bytes sp a bs)) [(sp, a, bs.length)] := by
  intro sp' b h
  have hout : ¬(sp = sp' ∧ a ≤ b ∧ b < a + bs.length) := h _ List.mem_cons_self
  simp only [Mems.apply, Mems.byte]
  by_cases hs : sp' = sp
  · subst hs
    rw [cells_setCells_same, cellAt_writeBytes_out]
    by_contra hc
    exact hout ⟨rfl, by omega, by omega⟩
  · rw [cells_setCells_other hs]

/-! ## Counts at the dies (R130) -/

theorem bumpDie_frame (src ten n : Nat) (l : List Nat) (d : Die) :
    bumpDie d src ten n l = { d with devsel := (bumpDie d src ten n l).devsel, devc := (bumpDie d src ten n l).devc } := by
  have one (d : Die) (j : Nat) :
      d.bump src ten n j = { d with devsel := (d.bump src ten n j).devsel, devc := (d.bump src ten n j).devc } := by
    unfold Die.bump
    dsimp only
    split <;> [split; skip] <;> rfl
  induction l generalizing d with
  | nil => rfl
  | cons j r ih => rw [bumpDie, ih, one]
/-- A world in which events have been counted at dies: their counters alone differ. -/
structure Counted (w v : World) : Prop where
  frame : v = { w with dies := v.dies }
  counters : ∀ d, v.die d = { (w.die d) with devsel := (v.die d).devsel, devc := (v.die d).devc }
namespace Counted
theorem refl (w : World) : Counted w w := ⟨rfl, fun _ => rfl⟩
theorem trans {u v w : World} (h : Counted u v) (k : Counted v w) : Counted u w :=
  ⟨by rw [k.frame, h.frame], fun d => by rw [k.counters, h.counters]⟩
theorem foldl {α : Type} {f : World → α → World} (hf : ∀ w x, Counted w (f w x)) (l : List α) (w : World) :
    Counted w (l.foldl f w) := by
  induction l generalizing w with
  | nil => exact refl w
  | cons x r ih => exact (hf w x).trans (ih _)
variable {w v : World} (h : Counted w v)
include h
theorem hub : v.hub = w.hub := by rw [h.frame]
theorem cores : v.cores = w.cores := by rw [h.frame]
theorem gangs : v.gangs = w.gangs := by rw [h.frame]
theorem gpoison : v.gpoison = w.gpoison := by rw [h.frame]
theorem up (d : Nat) : (v.die d).up = (w.die d).up := by rw [h.counters]
theorem homeUp (pa : Nat) : v.homeUp pa = w.homeUp pa := by simp only [World.homeUp, World.homeOfPa, h.up, h.hub]
theorem poisonedAt (a n : Nat) : v.poisonedAt a n = w.poisonedAt a n := by simp only [World.poisonedAt, h.gpoison]
end Counted
theorem countDie_counted (w : World) (die src ten n : Nat) : Counted w (w.countDie die src ten n) := by
  refine ⟨rfl, fun d => ?_⟩
  unfold World.countDie
  rcases eq_or_ne d die with rfl | hd
  · rw [die_modDie_same, ← bumpDie_frame]
  · rw [die_modDie_other _ _ _ _ hd]
theorem arrived_counted (w : World) (ten home n : Nat) : Counted w (w.arrived ten home n) := by
  unfold World.arrived
  split
  · exact countDie_counted ..
  · exact ((countDie_counted ..).trans (countDie_counted ..)).trans (countDie_counted ..)
theorem arrivals_counted (ten : Nat) (w : World) (l : List Nat) : Counted w (arrivals ten w l) :=
  Counted.foldl (fun a x => arrived_counted a ten (a.homeOfPa x) 1) l w
theorem officeReq_counted (w : World) (ten pa n : Nat) : Counted w (w.officeReq ten pa n) :=
  Counted.foldl (fun a x => by dsimp only; split <;> [exact arrived_counted ..; exact Counted.refl a]) _ w
theorem officeReqs_counted (w : World) (ten : Nat) (l : List (Nat × Nat)) : Counted w (w.officeReqs ten l) :=
  Counted.foldl (f := fun a (x : Nat × Nat) => a.officeReq ten x.1 x.2) (fun a x => officeReq_counted a ten x.1 x.2) l w
/-- The definition is opened as a function: opened at an argument, the kernel would evaluate the walk of the record's pages. -/
theorem recordReq_counted (s : State) (ten addr : Nat) : Counted s.w (s.recordReq ten addr) := by
  suffices h : ∀ f, f = @State.recordReq → Counted s.w (f s ten addr) from h _ rfl
  intro f hf
  delta State.recordReq at hf
  subst hf
  beta_reduce
  generalize s.prepRange ten 1 addr 256 = p
  cases p with
  | ok ps => exact officeReqs_counted ..
  | fail c i => exact Counted.refl _
  | wait ia va => exact Counted.refl _

/-! ## The event log (R372-R374) -/

/-- Mirrors of entries are written to the host and change nothing else. -/
theorem mirrorTo_frame (h : Hub) (t : Nat) (e : LogEntry) : h.mirrorTo t e = { h with out := (h.mirrorTo t e).out } := by
  unfold Hub.mirrorTo; split <;> rfl
theorem mirrorEntry_frame (h : Hub) (e : LogEntry) : h.mirrorEntry e = { h with out := (h.mirrorEntry e).out } := by
  unfold Hub.mirrorEntry
  split
  · exact mirrorTo_frame h 0 e
  · rw [mirrorTo_frame, mirrorTo_frame]
theorem mirrorClear_frame (h : Hub) (e : LogEntry) : h.mirrorClear e = { h with out := (h.mirrorClear e).out } := by
  unfold Hub.mirrorClear
  generalize (if e.ten == 0 then none else h.mirrorSlot e.ten e) = o
  cases o <;> rfl
theorem foldl_out_frame {f : Hub → LogEntry → Hub} (hf : ∀ h e, f h e = { h with out := (f h e).out }) (l : List LogEntry) (h : Hub) :
    l.foldl f h = { h with out := (l.foldl f h).out } := by
  induction l generalizing h with
  | nil => rfl
  | cons e r ih => rw [List.foldl_cons, ih, hf]
/-- An event that enters the log takes the next number; beside the log and the mirrors' writes nothing changes. -/
theorem logEvent_frame (w : World) (cls die ten data : Nat) :
    let v := w.logEvent cls die ten data
    v = { w with hub := { w.hub with seq := (w.hub.seq + 1) % 2 ^ 32, log := v.hub.log, out := v.hub.out } } := by
  unfold World.logEvent World.modHub nextSeq
  dsimp only
  rw [foldl_out_frame mirrorEntry_frame, foldl_out_frame mirrorClear_frame]

section
variable (w : World) (cls die ten data : Nat)

@[simp] theorem logEvent_cores : (w.logEvent cls die ten data).cores = w.cores := by rw [logEvent_frame]
@[simp] theorem logEvent_gangs : (w.logEvent cls die ten data).gangs = w.gangs := by rw [logEvent_frame]
@[simp] theorem logEvent_dies : (w.logEvent cls die ten data).dies = w.dies := by rw [logEvent_frame]
@[simp] theorem logEvent_seq : (w.logEvent cls die ten data).hub.seq = (w.hub.seq + 1) % 2 ^ 32 := by rw [logEvent_frame]
@[simp] theorem logEvent_fw : (w.logEvent cls die ten data).hub.fw = w.hub.fw := by rw [logEvent_frame]
@[simp] theorem logEvent_frozen : (w.logEvent cls die ten data).hub.frozen = w.hub.frozen := by rw [logEvent_frame]
@[simp] theorem logEvent_bootBad : (w.logEvent cls die ten data).hub.bootBad = w.hub.bootBad := by rw [logEvent_frame]
@[simp] theorem logEvent_mailOpen : (w.logEvent cls die ten data).hub.mailOpen = w.hub.mailOpen := by rw [logEvent_frame]

end

/-! ## Writes to global memory (R206, R261) -/

/-! A write changes the watches and the poison and nothing else of the world. -/

@[simp] theorem glbWrite_out (s : State) (w : World) (pa : Nat) (bs : List Byte) : (s.glbWrite w pa bs).out = [.bytes .glb pa bs] := rfl
@[simp] theorem glbWrite_cores (s : State) (w : World) (pa : Nat) (bs : List Byte) : (s.glbWrite w pa bs).w.cores = w.cores := rfl
@[simp] theorem glbWrite_gangs (s : State) (w : World) (pa : Nat) (bs : List Byte) : (s.glbWrite w pa bs).w.gangs = w.gangs := rfl
@[simp] theorem glbWrite_answers (s : State) (w : World) (pa : Nat) (bs : List Byte) : (s.glbWrite w pa bs).w.hub.out = w.hub.out := rfl
@[simp] theorem glbWrite_homeUp (s : State) (w : World) (pa : Nat) (bs : List Byte) (a : Nat) :
    (s.glbWrite w pa bs).w.homeUp a = w.homeUp a := rfl

/-! ## Answers (R360) -/

@[simp] theorem answer_cores (w : World) (e : Answer) : (w.answer e).cores = w.cores := rfl
@[simp] theorem answer_gangs (w : World) (e : Answer) : (w.answer e).gangs = w.gangs := rfl
@[simp] theorem answer_dies (w : World) (e : Answer) : (w.answer e).dies = w.dies := rfl
@[simp] theorem answer_out (w : World) (e : Answer) : (w.answer e).hub.out = w.hub.out ++ [e] := rfl
@[simp] theorem answer_tasks (w : World) (e : Answer) : (w.answer e).hub.tasks = w.hub.tasks := rfl
/-- Nothing of the memories, the cores and the gangs changes. -/
def Untouched (s u : State) : Prop := u.mem = s.mem ∧ (∀ j, u.w.core j = s.w.core j) ∧ u.w.gangs = s.w.gangs
theorem untouched_of {s : State} {v : World} (hc : v.cores = s.w.cores) (hg : v.gangs = s.w.gangs) : Untouched s { s with w := v } :=
  ⟨rfl, fun j => by simp only [World.core, hc], hg⟩
/-- The outcome answers `e`, changes no core and no gang, and has the property `p`. -/
def Replies (o : Host.Outcome State Fault Refusal) (s : State) (e : Answer) (p : State → Prop) : Prop :=
  ∃ u : State, o = .next u ∧ u.w.hub.out = s.w.hub.out ++ [e] ∧ (∀ j, u.w.core j = s.w.core j) ∧ u.w.gangs = s.w.gangs ∧ p u
/-- An action that ends in an answer, and before it has changed no core, no gang and no answer. -/
theorem replies_done {s : State} {v : World} {out : List MemW} {e : Answer} {p : State → Prop} (ho : v.hub.out = s.w.hub.out)
    (hc : v.cores = s.w.cores) (hg : v.gangs = s.w.gangs) (hp : p { w := v.answer e, mem := s.mem.applyAll out }) :
    Replies (done s { w := v.answer e, out := out }) s e p :=
  ⟨_, rfl, by simp [ho], fun j => by simp [World.core, hc], hg, hp⟩
/-- A request that is refused or answered at once leaves all else as it is. -/
theorem replies_only {s : State} {e : Answer} {p : State → Prop} (hp : p { s with w := s.w.answer e }) :
    Replies (done s (only (s.w.answer e))) s e p := replies_done rfl rfl rfl hp

end Sys2Proof.Machine
end

/-! SUPPORT. The host's requests (R207, R263, R359 to R363) settle O52. -/
section
namespace Sys2Proof.Machine
open Sys2Proof

/-! ## Puts and gets -/

section
variable {s : State} {a n from_ : Nat} {x : BitVec 128}

theorem hostRange_of (h0 : a % 16 = 0) (h1 : n % 16 = 0) (h2 : 16 ≤ n) (h3 : n ≤ 256) (h4 : a + n ≤ 0xFFF0000000000) :
    hostRange a n = true := by
  simp [hostRange, launchWindow, h0, h1, h2, h3, h4]
/-- A put of 16 bytes: the request is counted, the bytes go to a home that is up, and the answer says whether it is. -/
theorem putAct_part (hm : s.w.hub.mailOpen = true) (h : hostRange a 16 = true) :
    putAct from_ a [x] s =
      let w := arrivals from_ s.w (blocksOf a 16)
      let b := if w.homeUp a then State.glbWrite { s with w := w } w a (leBytes 16 x.toNat) else only w
      { w := b.w.answer (.data (b.w.homeUp a) []), out := b.out } := by
  have hall (w : World) : (partAddrs a 16).all w.homeUp = w.homeUp a := by simp [partAddrs]
  simp only [putAct, State.hosted, hm, h, List.length_singleton, Nat.mul_one, if_true, putParts,
    List.cons_append, List.nil_append, State.inOrder, State.andThen, hall, only_w, only_out, commit_w, List.append_nil]
  rfl
theorem hostPut_stores (hm : s.w.hub.mailOpen = true) (h0 : a % 16 = 0) (h1 : a + 16 ≤ 0xFFF0000000000) (hu : s.w.homeUp a = true) :
    Replies (exec (.hostPut ⟨from_, a⟩ [x]) s) s (.data true [])
      (fun u => IsNumber u.mem .glb a 16 x.toNat ∧ SameBut s.mem u.mem [(.glb, a, 16)]) := by
  have hc := arrivals_counted from_ s.w (blocksOf a 16)
  have hact := putAct_part (s := s) (from_ := from_) (x := x) hm (hostRange_of h0 rfl le_rfl (by decide) h1)
  simp only [hc.homeUp, hu, if_true, glbWrite_homeUp] at hact
  rw [show exec (.hostPut ⟨from_, a⟩ [x]) s = done s (putAct from_ a [x] s) from rfl, hact]
  refine replies_done (by simp [hc.hub]) (by simp [hc.cores]) (by simp [hc.gangs]) ⟨?_, ?_⟩
  · simpa [Nat.mod_eq_of_lt x.isLt] using isNumber_written s.mem .glb a 16 x.toNat
  · simpa using sameBut_written s.mem .glb a (leBytes 16 x.toNat)
theorem hostPut_down (hm : s.w.hub.mailOpen = true) (h0 : a % 16 = 0) (h1 : a + 16 ≤ 0xFFF0000000000) (hu : ¬s.w.homeUp a = true) :
    Replies (exec (.hostPut ⟨from_, a⟩ [x]) s) s (.data false []) (fun u => u.mem = s.mem) := by
  have hc := arrivals_counted from_ s.w (blocksOf a 16)
  have hact := putAct_part (s := s) (from_ := from_) (x := x) hm (hostRange_of h0 rfl le_rfl (by decide) h1)
  rw [Bool.not_eq_true] at hu
  simp only [hc.homeUp, hu, Bool.false_eq_true, if_false, only_w, only_out] at hact
  rw [show exec (.hostPut ⟨from_, a⟩ [x]) s = done s (putAct from_ a [x] s) from rfl, hact]
  exact replies_done (by rw [hc.hub]) hc.cores hc.gangs rfl
theorem hostPut_misaligned (hm : s.w.hub.mailOpen = true) (h0 : a % 16 ≠ 0) :
    Replies (exec (.hostPut ⟨from_, a⟩ [x]) s) s .error (fun u => u.mem = s.mem) := by
  rw [show exec (.hostPut ⟨from_, a⟩ [x]) s = done s (only (s.w.answer .error)) by
    simp [exec, execHostPut, putAct, State.hosted, hm, hostRange, h0]]
  exact replies_only rfl
/-- Every 16-byte part of a stretch has its home up when the home of each byte's part is. -/
theorem partAddrs_homeUp {w : World} (h1 : n % 16 = 0) (hu : ∀ i, i < n → w.homeUp (a + i / 16 * 16) = true) :
    (partAddrs a n).all w.homeUp = true := by
  simp only [partAddrs, List.all_eq_true, List.mem_map, List.mem_range]
  rintro _ ⟨i, hi, rfl⟩
  have hb := hu (16 * i) (by omega)
  rwa [show a + 16 * i / 16 * 16 = a + 16 * i by omega] at hb
theorem poisonedAt_eq_false {w : World} : w.poisonedAt a n = false ↔ ∀ b ∈ w.gpoison, b < a ∨ a + n ≤ b := by
  simp only [World.poisonedAt, List.any_eq_false, Bool.and_eq_true, decide_eq_true_eq]
  exact forall₂_congr fun b _ => by omega
theorem getAct_of (hm : s.w.hub.mailOpen = true) (h : hostRange a n = true) :
    getAct from_ a n s = (arrivals from_ s.w (blocksOf a n)).answer
      (if (partAddrs a n).all s.w.homeUp && !s.w.poisonedAt a n then .data true (s.mem.bytes .glb a n) else .data false []) := by
  simp [getAct, World.hosted, hm, h]
/-- A get is counted at the homes and changes nothing else. -/
theorem replies_get (e : Answer) :
    Replies (done s (only ((arrivals from_ s.w (blocksOf a n)).answer e))) s e (fun u => u.mem = s.mem) :=
  have hc := arrivals_counted from_ s.w (blocksOf a n)
  replies_done (by rw [hc.hub]) hc.cores hc.gangs rfl
theorem hostGet_returns (hm : s.w.hub.mailOpen = true) (h0 : a % 16 = 0) (h1 : n % 16 = 0) (h2 : 16 ≤ n) (h3 : n ≤ 256)
    (h4 : a + n ≤ 0xFFF0000000000) (hp : ∀ b ∈ s.w.gpoison, b < a ∨ a + n ≤ b)
    (hu : ∀ i, i < n → s.w.homeUp (a + i / 16 * 16) = true) :
    Replies (exec (.hostGet ⟨from_, a⟩ n) s) s (.data true (s.mem.bytes .glb a n)) (fun u => u.mem = s.mem) := by
  have hact := getAct_of (from_ := from_) hm (hostRange_of h0 h1 h2 h3 h4)
  rw [partAddrs_homeUp h1 hu, poisonedAt_eq_false.2 hp, Bool.not_false, Bool.and_true, if_pos rfl] at hact
  rw [show exec (.hostGet ⟨from_, a⟩ n) s = done s (only (getAct from_ a n s)) from rfl, hact]
  exact replies_get _
theorem hostGet_poisoned (hm : s.w.hub.mailOpen = true) (h0 : a % 16 = 0) (hn : n = 16) (h4 : a + n ≤ 0xFFF0000000000)
    (h : ¬(∀ b ∈ s.w.gpoison, b < a ∨ a + n ≤ b) ∨ ¬s.w.homeUp a = true) :
    Replies (exec (.hostGet ⟨from_, a⟩ n) s) s (.data false []) (fun u => u.mem = s.mem) := by
  subst hn
  have hact := getAct_of (from_ := from_) hm (hostRange_of h0 rfl le_rfl (by decide) h4)
  have hbad : ((partAddrs a 16).all s.w.homeUp && !s.w.poisonedAt a 16) = false := by
    rw [← poisonedAt_eq_false, Bool.not_eq_false, Bool.not_eq_true] at h
    obtain hp | hu := h
    · rw [hp, Bool.not_true, Bool.and_false]
    · simp [partAddrs, hu]
  rw [hbad, if_neg Bool.false_ne_true] at hact
  rw [show exec (.hostGet ⟨from_, a⟩ 16) s = done s (only (getAct from_ a 16 s)) from rfl, hact]
  exact replies_get _

end

/-! ## Atomics (R186, R360; log 62) -/

section
variable {s : State} {a old from_ : Nat} {op : AmoOp} {v w : Word}

theorem hostOp_iff : hostOp op = true ↔ op ≠ .faddF32 ∧ op ≠ .faddBf16 := by cases op <;> decide
theorem word_signed32 (n : Nat) : word (signed 32 n) = (BitVec.ofNat 32 n).signExtend 64 := by
  have h : signed 32 n = (BitVec.ofNat 32 n).toInt := by
    simp only [signed, BitVec.toInt_eq_toNat_bmod, BitVec.toNat_ofNat, Int.bmod]
    norm_num
    omega
  rw [BitVec.signExtend, word, h]
/-- The old value is returned sign-extended of a 32-bit form (R186), and as it stands of the other forms that a host has. -/
theorem amoOld_eq (h : op ≠ .faddF32 ∧ op ≠ .faddBf16) :
    amoOld op old = if amoBytes op = 4 then (BitVec.ofNat 32 old).signExtend 64 else BitVec.ofNat 64 old := by
  cases op with
  | addI32 | swapI32 | casI32 => exact word_signed32 old
  | faddF32 => exact absurd rfl h.1
  | _ => rfl
theorem hostAtomic_performs (hm : s.w.hub.mailOpen = true) (hi : op ≠ .faddF32 ∧ op ≠ .faddBf16) (h0 : a % 8 = 0)
    (h1 : a + 8 ≤ 0xFFF0000000000) (hu : s.w.homeUp a = true) (hp : ∀ b ∈ s.w.gpoison, b < a ∨ a + 8 ≤ b)
    (hn : IsNumber s.mem .glb a (amoBytes op) old) :
    Replies (exec (.hostAtomic ⟨from_, a⟩ op v w) s) s (.data true (leBytes 8 (amoOld op old).toNat)) (fun u =>
      IsNumber u.mem .glb a (amoBytes op) ((amoNew op old v w).1 % 2 ^ (8 * amoBytes op)) ∧
        SameBut s.mem u.mem [(.glb, a, amoBytes op)]) := by
  have hc := arrivals_counted from_ s.w (blocksOf a 8)
  have hact : hostAtomicAct from_ a op v w s = atomicAt World.answer a op v w { s with w := arrivals from_ s.w (blocksOf a 8) } := by
    simp [hostAtomicAct, State.hosted, hm, hostOp_iff.2 hi, h0, launchWindow, h1]
  simp only [atomicAt, hc.homeUp, hu, hc.poisonedAt, poisonedAt_eq_false.2 hp, num_of_isNumber hn, Bool.not_true, Bool.or_self,
    Bool.false_eq_true, if_false] at hact
  rw [show exec (.hostAtomic ⟨from_, a⟩ op v w) s = done s (hostAtomicAct from_ a op v w s) from rfl, hact]
  refine ⟨_, rfl, ?_, fun j => ?_, ?_, ?_, ?_⟩
  · simp [hc.hub]
  · simp [World.core, hc.cores]
  · simp [hc.gangs]
  · simpa using isNumber_written s.mem .glb a (amoBytes op) (amoNew op old v w).1
  · simpa using sameBut_written s.mem .glb a (leBytes (amoBytes op) (amoNew op old v w).1)
theorem hostAtomic_unsupported (hm : s.w.hub.mailOpen = true) (h : ¬(op ≠ .faddF32 ∧ op ≠ .faddBf16) ∨ a % 8 ≠ 0) :
    Replies (exec (.hostAtomic ⟨from_, a⟩ op v w) s) s .error (fun u => u.mem = s.mem) := by
  have hbad : (!hostOp op || a % 8 != 0) = true := by
    rwa [← hostOp_iff, Bool.not_eq_true, ← Bool.not_eq_true', ← bne_iff_ne, ← Bool.or_eq_true] at h
  rw [show exec (.hostAtomic ⟨from_, a⟩ op v w) s = done s (only (s.w.answer .error)) by
    simp only [exec, execHostAtomic, hostAtomicAct, State.hosted, hm, hbad, if_true]]
  exact replies_only rfl

end

/-! ## Posts to the launch window (R361; log 23) -/

section
variable {s : State} {from_ ten prio : Nat} {addr v w : Word}

/-- A swap in the launch window is a post. -/
theorem hostAtomic_launchWindow (hm : s.w.hub.mailOpen = true) (hp : prio < 8) (ht : ten < 65536) :
    exec (.hostAtomic ⟨from_, 0xFFF0000000000 + 64 * ten + 8 * prio⟩ .swapI64 v w) s = exec (.launchWindowPost from_ ten prio v) s := by
  generalize ha : 0xFFF0000000000 + 64 * ten + 8 * prio = a
  have hal : a % 8 = 0 := by omega
  have habove : ¬a + 8 ≤ launchWindow := by simp only [launchWindow]; omega
  have hin : a < windowEnd := by rw [show windowEnd = 0xFFF0000400000 from rfl]; omega
  have hten : (a - launchWindow) / 64 = ten := by simp only [launchWindow]; omega
  have hprio : (a - launchWindow) / 8 % 8 = prio % 8 := by simp only [launchWindow]; omega
  have hact : hostAtomicAct from_ a .swapI64 v w s = only (windowAct from_ ten (prio % 8) v.toNat s) := by
    simp [hostAtomicAct, State.hosted, hm, hostOp, hal, habove, hin, hten, hprio]
  simp only [exec, execHostAtomic, hact, execLaunchWindowPost]
theorem windowAct_of_status {st : Nat} (hm : s.w.hub.mailOpen = true) (hs : postStatus s.w from_ ten (prio % 8) addr.toNat = st)
    (h0 : st ≠ 0) :
    exec (.launchWindowPost from_ ten prio addr) s = done s (only (s.w.answer (.status st))) := by
  simp [exec, execLaunchWindowPost, windowAct, World.hosted, hm, hs, h0]
theorem launchWindowPost_queues (hm : s.w.hub.mailOpen = true) (hp : prio < 8) (hs : postStatus s.w from_ ten prio addr.toNat = 0) :
    Replies (exec (.launchWindowPost from_ ten prio addr) s) s (.status 0) (fun u => u.mem = s.mem ∧ ∃ t : Task,
      u.w.hub.tasks = s.w.hub.tasks ++ [t] ∧ t.stage = .queued ∧ t.ten = ten ∧ t.prio = prio ∧ t.addr = addr.toNat ∧
        t.hubAt = s.w.now / 10 ^ 6 ∧ t.from_ = 0) := by
  obtain ⟨no, hact⟩ : ∃ no, windowAct from_ ten (prio % 8) addr.toNat s =
      (s.w.postTask s.w.hubCycle 0 ten prio addr.toNat no).answer (.status 0) := by
    rw [Nat.mod_eq_of_lt hp]
    simp only [windowAct, World.hosted, hm, if_true, hs, beq_self_eq_true]
    exact ⟨_, rfl⟩
  rw [show exec (.launchWindowPost from_ ten prio addr) s = done s (only (windowAct from_ ten (prio % 8) addr.toNat s)) from rfl, hact]
  exact replies_done rfl rfl rfl ⟨rfl, _, rfl, rfl, rfl, rfl, rfl, rfl, rfl⟩
theorem launchWindowPost_answers {st : Nat} (hm : s.w.hub.mailOpen = true) (hs : postStatus s.w from_ ten (prio % 8) addr.toNat = st)
    (h0 : st ≠ 0) : Replies (exec (.launchWindowPost from_ ten prio addr) s) s (.status st)
      (fun u => u.mem = s.mem ∧ u.w.hub.tasks = s.w.hub.tasks) := by
  rw [windowAct_of_status hm hs h0]
  exact replies_only ⟨rfl, rfl⟩

/-- The tests of a post in their order (log 23). -/
theorem postStatus_own {w : World} {a : Nat} (h : from_ = ten ∨ from_ = 0) :
    postStatus w from_ ten prio a = if ten = 0 ∨ ¬w.tenRec ten % 2 = 1 then 3 else if a % 256 ≠ 0 ∨ 2 ^ 48 ≤ a then 2
      else if 64 ≤ w.queueLen ten prio then 1 else 0 := by
  have hown : (from_ != ten && from_ != 0) = false := by rcases h with rfl | rfl <;> simp
  simp [postStatus, hown, bitOf]
theorem postStatus_foreign {w : World} {a : Nat} (h : from_ ≠ ten) (h0 : from_ ≠ 0) : postStatus w from_ ten prio a = 4 := by
  simp [postStatus, h, h0]

end

/-! ## AMOFLAGS (R207, R362) -/

theorem amoflagsReadClear_refused {s : State} {from_ die ten : Nat} (h : from_ ≠ 0) :
    Replies (exec (.amoflagsReadClear ⟨from_, die⟩ ten) s) s .error (fun u => u.mem = s.mem ∧ u.w.dies = s.w.dies) := by
  rw [show exec (.amoflagsReadClear ⟨from_, die⟩ ten) s = done s (only (s.w.answer .error)) by
    simp [exec, execAmoflagsReadClear, amoflagsAct, World.mailbox, h]]
  exact replies_only ⟨rfl, rfl⟩
theorem amoflagsReadClear_returns {s : State} {die ten : Nat} (hm : s.w.hub.mailOpen = true) :
    Replies (exec (.amoflagsReadClear ⟨0, die⟩ ten) s) s (.data true (leBytes 8 (fget (s.w.die die).amoflags 0 ten))) (fun u =>
      u.mem = s.mem ∧ fget (u.w.die die).amoflags 0 ten = 0 ∧
        ∀ t, t ≠ ten → fget (u.w.die die).amoflags 0 t = fget (s.w.die die).amoflags 0 t) := by
  have hact : amoflagsAct 0 die ten s = (s.w.modDie die (fun d => { d with amoflags := fdel d.amoflags ten })).answer
      (.data true (leBytes 8 (fget (s.w.die die).amoflags 0 ten))) := by
    simp [amoflagsAct, World.mailbox, hm]
  rw [show exec (.amoflagsReadClear ⟨0, die⟩ ten) s = done s (only (amoflagsAct 0 die ten s)) from rfl, hact]
  refine replies_done rfl rfl rfl ⟨rfl, ?_, fun t ht => ?_⟩
  · simp [World.answer, fget_fdel_same]
  · simp [World.answer, fget_fdel_other _ _ _ _ ht]

/-! ## A record that is taken from its queue (R263, R264; log 42) -/

/-- Eligibility and the round-robin follow the tasks and change nothing else of them. -/
theorem refreshAll_frame (l : List Nat) (w : World) :
    refreshAll w l = { w with hub := { w.hub with rr := (refreshAll w l).hub.rr } } := by
  have one (w : World) (p : Nat) : w.refreshAt p = { w with hub := { w.hub with rr := (w.refreshAt p).hub.rr } } := by
    unfold World.refreshAt
    dsimp only
    split <;> rfl
  induction l generalizing w with
  | nil => rfl
  | cons p r ih => rw [refreshAll, ih, one]
theorem tended_frame (w : World) :
    w.tended = { w with hub := { w.hub with tasks := w.markEligible.hub.tasks, rr := w.tended.hub.rr } } := by
  unfold World.tended
  generalize List.range 8 = l
  exact refreshAll_frame l w.markEligible
/-- A task of the office is still there after its eligibility has been marked. -/
theorem mem_tended {w : World} {x : Task} (h : x ∈ w.hub.tasks) : ∃ e, { x with eligible := e } ∈ w.tended.hub.tasks := by
  rw [tended_frame]
  simp only [World.markEligible, modHub_hub, List.mem_map]
  by_cases hq : x.stage = .queued
  · exact ⟨_, x, h, if_pos (by simp [hq])⟩
  · exact ⟨x.eligible, x, h, by simp [hq]⟩
/-- The task takes the place of the one under its number. -/
theorem mem_setTask {w : World} {t x : Task} (h : t ∈ w.hub.tasks) (hx : x.order = t.order) : x ∈ (w.setTask x).hub.tasks := by
  simp only [World.setTask, World.modTask, modHub_hub, List.mem_map]
  exact ⟨t, h, by simp [hx]⟩

/-- What keeping the queues and the round-robin leaves as it is. -/
theorem tended_cores (w : World) : w.tended.cores = w.cores := by rw [tended_frame]
theorem tended_faults (w : World) : w.tended.hub.faults = w.hub.faults := by rw [tended_frame]

section
variable {s : State} {t : Task} {id r : Nat}

/-- The `no` of a launch record (R263). -/
def recordNo (r : Nat) : Nat := r / 2 ^ 1472 % 2 ^ 32
theorem withRecord_order (s : State) (t : Task) (r : Nat) : (s.withRecord t r).order = t.order := rfl
theorem withRecord_stage (s : State) (t : Task) (r : Nat) : (s.withRecord t r).stage = t.stage := rfl
theorem withRecord_no (s : State) (t : Task) (r : Nat) : (s.withRecord t r).no = recordNo r := rfl
/-- A record that the office can read is checked: its fields first, then its number. -/
theorem takeRecord_ok (h : s.peek t.ten t.addr = .ok r) :
    let w := s.recordReq t.ten t.addr
    takeRecord s t = if recBad r = true then w.failLaunch (s.withRecord t r) 14 0 0
      else if s.w.duplicate t (recordNo r) = true then w.failLaunch (s.withRecord t r) 15 0 0 else w.setTask (s.withRecord t r) := by
  unfold takeRecord
  rw [h]
  dsimp only
  rw [withRecord_no]
theorem takeRecord_sound (h : s.peek t.ten t.addr = .ok r) (hb : recBad r = false) (hd : s.w.duplicate t (recordNo r) = false) :
    takeRecord s t = (s.recordReq t.ten t.addr).setTask (s.withRecord t r) := by
  rw [takeRecord_ok h, if_neg (by simp [hb]), if_neg (by simp [hd])]
theorem takeRecord_bad (h : s.peek t.ten t.addr = .ok r) (hb : recBad r = true) :
    takeRecord s t = (s.recordReq t.ten t.addr).failLaunch (s.withRecord t r) 14 0 0 := by
  rw [takeRecord_ok h, if_pos hb]
theorem takeRecord_duplicate (h : s.peek t.ten t.addr = .ok r) (hb : recBad r = false) (hd : s.w.duplicate t (recordNo r) = true) :
    takeRecord s t = (s.recordReq t.ten t.addr).failLaunch (s.withRecord t r) 15 0 0 := by
  rw [takeRecord_ok h, if_neg (by simp [hb]), if_pos hd]
theorem takeRecord_fails {c info : Nat} (h : s.peek t.ten t.addr = .fail c info) :
    takeRecord s t = s.w.failLaunch t c 0 (if c = 1 then info else 0) := by
  unfold takeRecord
  rw [h]
  simp only [beq_iff_eq]
theorem takeRecord_waits {ia va : Nat} (h : s.peek t.ten t.addr = .wait ia va) : takeRecord s t = s.w.stage2Fault t ia va := by
  unfold takeRecord
  rw [h]

/-- A record is taken: no memory and no core changes, and a task at stage `st` with the property `p` stands in its place. -/
def Takes (o : Host.Outcome State Fault Refusal) (s : State) (t : Task) (st : Stage) (p : Task → State → Prop) : Prop :=
  ∃ (u : State) (y : Task), o = .next u ∧ u.mem = s.mem ∧ (∀ j, u.w.core j = s.w.core j) ∧
    y ∈ u.w.hub.tasks ∧ y.order = t.order ∧ y.stage = st ∧ p y u
theorem priorityAging_exec {w : World} (hone : s.w.hub.tasks.filter untaken = [t]) (hid : s.w.taskBy id = some t)
    (htake : takeRecord s t = w) : exec (.priorityAging id) s = .next { s with w := w.tended } := by
  have hact : s.refreshed = w.tended := by simp only [State.refreshed, hone, takeAll, htake]
  simp only [exec, execPriorityAging, hid, Option.isSome_some, if_true, hact, done_only]
/-- The only record that waits in a queue is taken: the task that the office makes of it stands in its place. -/
theorem priorityAging_takes {w : World} {x : Task} {p : Task → State → Prop} (hone : s.w.hub.tasks.filter untaken = [t])
    (hid : s.w.taskBy id = some t) (htake : takeRecord s t = w) (hc : w.cores = s.w.cores) (hx : x ∈ w.hub.tasks) (ho : x.order = t.order)
    (hp : ∀ e u, u.w.hub.faults = w.hub.faults → p { x with eligible := e } u) : Takes (exec (.priorityAging id) s) s t x.stage p := by
  obtain ⟨e, he⟩ := mem_tended hx
  have hexec := priorityAging_exec hone hid htake
  have hc' := tended_cores w
  have hf := tended_faults w
  generalize w.tended = v at *
  exact ⟨{ s with w := v }, { x with eligible := e }, hexec, rfl, fun j => by simp only [World.core, hc', hc], he, ho, rfl, hp _ _ hf⟩

theorem untaken_of_only (hone : s.w.hub.tasks.filter untaken = [t]) : t ∈ s.w.hub.tasks ∧ t.stage = .queued := by
  have hmem : t ∈ s.w.hub.tasks.filter untaken := by simp [hone]
  obtain ⟨h1, h2⟩ := List.mem_filter.mp hmem
  simp only [untaken, Bool.and_eq_true, beq_iff_eq] at h2
  exact ⟨h1, h2.1.1⟩
/-- A record whose task is set, after the requests that read it have been counted. -/
theorem priorityAging_sets {w : World} {x : Task} {p : Task → State → Prop} (hone : s.w.hub.tasks.filter untaken = [t])
    (hid : s.w.taskBy id = some t) (hw : Counted s.w w) (htake : takeRecord s t = w.setTask x) (ho : x.order = t.order)
    (hp : ∀ e u, p { x with eligible := e } u) : Takes (exec (.priorityAging id) s) s t x.stage p :=
  have hmem : t ∈ w.hub.tasks := hw.hub ▸ (untaken_of_only hone).1
  priorityAging_takes hone hid htake hw.cores (mem_setTask hmem ho) ho (fun e u _ => hp e u)
theorem priorityAging_reads (hone : s.w.hub.tasks.filter untaken = [t]) (hid : s.w.taskBy id = some t)
    (h : s.peek t.ten t.addr = .ok r) (hb : recBad r = false) (hd : s.w.duplicate t (recordNo r) = false) :
    Takes (exec (.priorityAging id) s) s t .queued (fun y _ => y.seen = true ∧ y.lrec = BitVec.ofNat 2048 r ∧ y.no = recordNo r) := by
  have hread : (s.withRecord t r).seen = true ∧ (s.withRecord t r).lrec = BitVec.ofNat 2048 r ∧ (s.withRecord t r).no = recordNo r :=
    ⟨rfl, rfl, withRecord_no s t r⟩
  rw [← (withRecord_stage s t r).trans (untaken_of_only hone).2]
  exact priorityAging_sets hone hid (recordReq_counted ..) (takeRecord_sound h hb hd) (withRecord_order s t r) (fun _ _ => hread)
/-- A launch that fails as its record is taken. -/
theorem priorityAging_turnsAway {w : World} {x : Task} {code info : Nat} (hone : s.w.hub.tasks.filter untaken = [t])
    (hid : s.w.taskBy id = some t) (hw : Counted s.w w) (ho : x.order = t.order) (htake : takeRecord s t = w.failLaunch x code 0 info) :
    Takes (exec (.priorityAging id) s) s t .ending (fun y _ => y.kind = 1 ∧ y.code = code ∧ y.info = info) :=
  priorityAging_sets (x := { x with stage := .ending, kind := 1, code := code, vcode := 0, info := info }) hone hid hw htake ho
    (fun _ _ => ⟨rfl, rfl, rfl⟩)
theorem priorityAging_waits {ia va : Nat} (hone : s.w.hub.tasks.filter untaken = [t]) (hid : s.w.taskBy id = some t)
    (h : s.peek t.ten t.addr = .wait ia va) : Takes (exec (.priorityAging id) s) s t .queued (fun y u =>
      y.s2wait = some (ia, va) ∧ u.w.hub.faults = s.w.hub.faults ++ [(ia, va, t.order)]) := by
  obtain ⟨hmem, hq⟩ := untaken_of_only hone
  have htakes := priorityAging_takes (x := { t with s2wait := some (ia, va) })
    (p := fun y u => y.s2wait = some (ia, va) ∧ u.w.hub.faults = s.w.hub.faults ++ [(ia, va, t.order)]) hone hid (takeRecord_waits h)
    rfl (mem_setTask hmem rfl) rfl (fun _ _ hf => ⟨rfl, hf⟩)
  rwa [show ({ t with s2wait := some (ia, va) } : Task).stage = .queued from hq] at htakes

end

/-! ## Before the mailbox is open (R377) -/

theorem host_shut {s : State} (hm : ¬s.w.hub.mailOpen = true) (from_ a n ten prio : Nat) (data : List (BitVec 128))
    (op : AmoOp) (v w addr : Word) :
    ∀ i ∈ [Instr.hostPut ⟨from_, a⟩ data, .hostGet ⟨from_, a⟩ n, .hostAtomic ⟨from_, a⟩ op v w,
        .launchWindowPost from_ ten prio addr],
      Replies (exec i s) s .error (fun u => u.mem = s.mem) := by
  have hshut (i : Instr) (h : exec i s = done s (only (s.w.answer .error))) : Replies (exec i s) s .error (fun u => u.mem = s.mem) := by
    rw [h]; exact replies_only rfl
  rw [Bool.not_eq_true] at hm
  simp only [List.forall_mem_cons, List.not_mem_nil, false_imp_iff, implies_true, and_true]
  refine ⟨hshut _ ?_, hshut _ ?_, hshut _ ?_, hshut _ ?_⟩
  · simp [exec, execHostPut, putAct, State.hosted, hm]
  · simp [exec, execHostGet, getAct, World.hosted, hm]
  · simp [exec, execHostAtomic, hostAtomicAct, State.hosted, hm]
  · simp [exec, execLaunchWindowPost, windowAct, World.hosted, hm]

/-! ## The obligation -/

/-- Settles O52: each clause is the rule of its request above. -/
theorem hostRequests : Obligations.HostRequests := by
  intro s a n old from_ ten prio die id x op v w addr t
  dsimp only
  refine ⟨hostPut_stores, hostPut_down, hostPut_misaligned, hostGet_returns, hostGet_poisoned, ?_, hostAtomic_unsupported,
    hostAtomic_launchWindow, ?_, ?_, ?_, ?_, ?_, ?_, amoflagsReadClear_refused, amoflagsReadClear_returns, ?_, ?_, ?_, ?_, ?_⟩
  · intro hm hi h0 h1 hu hp hn
    rw [← amoOld_eq hi]
    exact hostAtomic_performs hm hi h0 h1 hu hp hn
  · intro hm
    have hshut := host_shut hm from_ a n ten prio [x] op v w addr
    simp only [List.forall_mem_cons, List.not_mem_nil, false_imp_iff, implies_true, and_true] at hshut
    exact hshut
  · intro hm hp hf ht hr h0 h1 hq
    exact launchWindowPost_queues hm hp (by rw [postStatus_own hf, if_neg (by tauto), if_neg (by omega), if_neg (by omega)])
  · intro hm hp hf ht hr h0 h1 hq
    exact launchWindowPost_answers hm (by
      rw [Nat.mod_eq_of_lt hp, postStatus_own hf, if_neg (by tauto), if_neg (by omega), if_pos hq]) (by decide)
  · intro hm hf ht hr h0
    exact launchWindowPost_answers hm (by rw [postStatus_own hf, if_neg (by tauto), if_pos (.inl h0)]) (by decide)
  · intro hm hf h
    exact launchWindowPost_answers hm (by rw [postStatus_own hf, if_pos h]) (by decide)
  · intro hm hf h0
    exact launchWindowPost_answers hm (postStatus_foreign hf h0) (by decide)
  · rintro r ⟨hone, hid⟩ h hb hd
    exact priorityAging_reads hone hid h hb hd
  · rintro r ⟨hone, hid⟩ h hb
    exact priorityAging_turnsAway hone hid (recordReq_counted ..) (withRecord_order s t r) (takeRecord_bad h hb)
  · rintro r ⟨hone, hid⟩ h hb hd
    exact priorityAging_turnsAway hone hid (recordReq_counted ..) (withRecord_order s t r) (takeRecord_duplicate h hb hd)
  · rintro c info ⟨hone, hid⟩ h
    exact priorityAging_turnsAway hone hid (Counted.refl _) rfl (takeRecord_fails h)
  · rintro ia va ⟨hone, hid⟩ h
    exact priorityAging_waits hone hid h

end Sys2Proof.Machine
end

/-! SUPPORT. The firmware's actions (R353 to R357, R371, R375, R376) settle O50. -/
section
namespace Sys2Proof.Machine
open Sys2Proof

/-! ## Firmware images and heartbeats (R353, R355, R371) -/

theorem firmware_congr {w v : World} (h : v.hub.fw = w.hub.fw) (rel : Bool) : v.firmware rel = w.firmware rel := by
  simp only [World.firmware, h]
@[simp] theorem firmware_setFw_same (w : World) (rel : Bool) (x : Fw) : (w.setFw rel x).firmware rel = x := by
  simp [World.firmware, World.setFw]
theorem firmware_setFw_other (w : World) (rel : Bool) (x : Fw) : (w.setFw rel x).firmware (!rel) = w.firmware (!rel) := by
  have hne : bit (!rel) ≠ bit rel := by cases rel <;> decide
  simp [World.firmware, World.setFw, fget_fput_other _ _ _ _ _ hne]

section
variable {s : State} {dom mhz : Nat}

theorem heartbeat_controller :
    let beats := if (s.w.firmware false).beat + 10 ^ 12 < s.w.now then 1 else s.w.hub.goodBeats + 1
    ∃ u : State, exec (.heartbeat false) s = .next u ∧ Untouched s u ∧
      u.w.firmware false = { (s.w.firmware false) with beat := s.w.now, updating := false } ∧
      u.w.hub.frozen = false ∧ u.w.hub.goodBeats = beats ∧ (u.w.hub.safe = true ↔ s.w.hub.safe = true ∧ beats < 3) :=
  ⟨_, rfl, untouched_of rfl rfl, firmware_setFw_same .., rfl, rfl,
    (Bool.and_eq_true _ _).to_iff.trans (and_congr_right fun _ => decide_eq_true_iff)⟩
theorem heartbeat_reliability : ∃ u : State, exec (.heartbeat true) s = .next u ∧ Untouched s u ∧
    u.w.firmware true = { (s.w.firmware true) with beat := s.w.now, updating := false } ∧
    u.w.firmware false = s.w.firmware false ∧ u.w.hub.frozen = s.w.hub.frozen ∧ u.w.hub.safe = s.w.hub.safe :=
  ⟨_, rfl, untouched_of rfl rfl, firmware_setFw_same .., firmware_setFw_other s.w true _, rfl, rfl⟩
theorem heartbeatMiss_freezes (h : (s.w.firmware false).beat + 10 ^ 12 < s.w.now) : ∃ u : State, exec .heartbeatMiss s = .next u ∧
    Untouched s u ∧ u.w.hub.frozen = true ∧ u.w.hub.goodBeats = 0 ∧ u.w.hub.freq = s.w.hub.freq := by
  have hact : heartbeatMissAct s = s.w.modHub (fun h => { h with frozen := true, goodBeats := 0 }) := if_pos (decide_eq_true h)
  refine ⟨_, done_only_eq hact, untouched_of rfl rfl, rfl, rfl, rfl⟩
theorem heartbeatMiss_early (h : s.w.now ≤ (s.w.firmware false).beat + 10 ^ 12) : exec .heartbeatMiss s = .next s := by
  have hact : heartbeatMissAct s = s.w := if_neg (by simpa [World.beatMissed] using h)
  exact done_only_eq hact
theorem safeTable_enters (h : (s.w.firmware false).beat + 10 ^ 13 ≤ s.w.now) (hu : (s.w.firmware false).updating = false) :
    ∃ u : State, exec .safeTable s = .next u ∧ Untouched s u ∧ u.w.hub.safe = true ∧ u.w.hub.goodBeats = 0 := by
  have hact : safeTableAct s = s.w.modHub (fun h => { h with safe := true, goodBeats := 0 }) :=
    if_pos (by simpa [World.controllerHung, hu] using h)
  exact ⟨_, done_only_eq hact, untouched_of rfl rfl, rfl, rfl⟩
theorem safeTable_early (h : s.w.now < (s.w.firmware false).beat + 10 ^ 13) : exec .safeTable s = .next s := by
  have hact : safeTableAct s = s.w := if_neg (by simp [World.controllerHung]; omega)
  exact done_only_eq hact
theorem freqTableWrite_ceiling : ∃ u : State, exec (.freqTableWrite dom mhz) s = .next u ∧ Untouched s u ∧
    u.w.ceiling dom = (if s.w.hub.frozen then min (s.w.ceiling dom) mhz else min mhz 3600) ∧
    ∀ e, e ≠ dom → u.w.ceiling e = s.w.ceiling e :=
  ⟨_, rfl, untouched_of rfl rfl, by simp [freqAct, World.ceiling],
    fun e he => by simp [freqAct, World.ceiling, fget_fput_other _ _ _ _ _ he]⟩
theorem reliabilityRestart_restarts (h : (s.w.firmware true).beat + 10 ^ 14 ≤ s.w.now) :
    ∃ u : State, exec .reliabilityRestart s = .next u ∧ Untouched s u ∧ (u.w.firmware true).beat = s.w.now ∧
      u.w.hub.seq = (s.w.hub.seq + 1) % 2 ^ 32 := by
  have hact : relRestartAct s = (s.w.setFw true { (s.w.firmware true) with beat := s.w.now }).logEvent 12 8 0 0 := if_pos h
  refine ⟨_, done_only_eq hact, untouched_of (by simp [World.setFw]) (by simp [World.setFw]), ?_, ?_⟩
  · simp [firmware_congr (logEvent_fw ..)]
  · simp [World.setFw]
theorem reliabilityRestart_early (h : s.w.now < (s.w.firmware true).beat + 10 ^ 14) : exec .reliabilityRestart s = .next s := by
  have hact : relRestartAct s = s.w := if_neg (not_le.2 h)
  exact done_only_eq hact

end

/-! ## Measured energy (R356) -/

/-- A core whose issued weights are counted anew. -/
def Core.unweighed (c : Core) : Core := { c with dws := 0 }

section
variable {nj total n k gid : Nat} {w : World} {l : List Nat}

theorem shareAll_cons_free (h : (w.core k).gang = none) :
    shareAll nj total n w (k :: l) = shareAll nj total n (w.modCore k Core.unweighed) l := by
  simp only [shareAll, h]
  rfl
theorem shareAll_cons_gang (h : (w.core k).gang = some gid) : shareAll nj total n w (k :: l) =
    shareAll nj total n ((w.modGang gid (fun g => g.draws (energyShare nj total (w.core k).dws n))).modCore k Core.unweighed) l := by
  simp only [shareAll, h]
  rfl
theorem modCore_unweighed_core (w : World) (k j : Nat) :
    (w.modCore k Core.unweighed).core j = if j = k then (w.core j).unweighed else w.core j := by
  split
  · next h => rw [h, core_modCore_same]
  · next h => exact core_modCore_other _ _ _ _ h
/-- The shared energy is a matter of the gangs: of the cores in the list the weights are counted anew. -/
theorem shareAll_core (w : World) (j : Nat) :
    (shareAll nj total n w l).core j = if j ∈ l then (w.core j).unweighed else w.core j := by
  induction l generalizing w with
  | nil => rfl
  | cons x r ih =>
    have hstep (v : World) (hv : v.core j = w.core j) : (shareAll nj total n (v.modCore x Core.unweighed) r).core j =
        if j ∈ x :: r then (w.core j).unweighed else w.core j := by
      rw [ih, modCore_unweighed_core, hv]
      by_cases h1 : j = x <;> by_cases h2 : j ∈ r <;> simp [h1, h2, Core.unweighed]
    cases hx : (w.core x).gang with
    | none => rw [shareAll_cons_free hx]; exact hstep w rfl
    | some g => rw [shareAll_cons_gang hx]; exact hstep _ rfl
theorem unweighed_gang (w : World) (k j : Nat) : ((w.modCore k Core.unweighed).core j).gang = (w.core j).gang := by
  rw [modCore_unweighed_core]
  split <;> rfl
theorem shareAll_free (hfree : ∀ j ∈ l, (w.core j).gang = none) : (shareAll nj total n w l).gangs = w.gangs := by
  induction l generalizing w with
  | nil => rfl
  | cons x r ih =>
    rw [shareAll_cons_free (hfree x (by simp)), ih (fun j hj => ?_)]
    · rfl
    · rw [unweighed_gang]; exact hfree j (by simp [hj])
/-- The one core of a gang in the cluster has its share. -/
theorem shareAll_alone (hk : k ∈ l) (hg : (w.core k).gang = some gid) (hfree : ∀ j ∈ l, j ≠ k → (w.core j).gang = none)
    (hnd : l.Nodup) : (shareAll nj total n w l).gangs =
      (w.modGang gid (fun g => g.draws (energyShare nj total (w.core k).dws n))).gangs := by
  induction l generalizing w with
  | nil => simp at hk
  | cons x r ih =>
    obtain ⟨hxr, hr⟩ := List.nodup_cons.1 hnd
    by_cases hx : x = k
    · subst hx
      rw [shareAll_cons_gang hg, shareAll_free (fun j hj => ?_)]
      · rfl
      · rw [unweighed_gang]; exact hfree j (by simp [hj]) (fun h => hxr (h ▸ hj))
    · have hkr : k ∈ r := by simpa [Ne.symm hx] using hk
      rw [shareAll_cons_free (hfree x (by simp) hx), ih hkr (by rwa [unweighed_gang]) (fun j hj hjk => ?_) hr,
        core_modCore_other _ _ _ _ (Ne.symm hx)]
      · rfl
      · rw [unweighed_gang]; exact hfree j (by simp [hj]) hjk

end

section
variable {s : State} {cluster nj array gid k n : Nat}

/-- The cores of a cluster. -/
def clusterCores (cluster : Nat) : List Nat := allCores.filter (fun j => clusterOf j == cluster)
/-- The weights issued in a cluster since the last sample. -/
def World.clusterDws (w : World) (cluster : Nat) : Nat := ((clusterCores cluster).map (fun j => (w.core j).dws)).sum
theorem clusterCores_nodup (cluster : Nat) : (clusterCores cluster).Nodup :=
  (List.nodup_range.filter _).filter _
/-- A sample of a cluster's energy: its cores' weights are counted anew, and gang `gid` alone has energy, `n` more. -/
def Measured (o : Host.Outcome State Fault Refusal) (s : State) (cluster gid n : Nat) : Prop :=
  ∃ u : State, o = .next u ∧ u.mem = s.mem ∧
    (∀ j, u.w.core j = if j ∈ clusterCores cluster then { (s.w.core j) with dws := 0 } else s.w.core j) ∧
    u.w.gang gid = { (s.w.gang gid) with enmeas := ((s.w.gang gid).enmeas + n) % 2 ^ 64 } ∧
    ∀ j, j ≠ gid → u.w.gang j = s.w.gang j
theorem measured_of {w : World} (h : enmeasAct cluster nj array s = w)
    (hc : ∀ j, w.core j = if j ∈ clusterCores cluster then (s.w.core j).unweighed else s.w.core j)
    (hg : w.gangs = (s.w.modGang gid (fun g => g.draws n)).gangs) :
    Measured (exec (.enmeasUpdate cluster ⟨nj, array⟩) s) s cluster gid n := by
  have hgang (j : Nat) : w.gang j = (s.w.modGang gid (fun g => g.draws n)).gang j := by simp only [World.gang, hg]
  refine ⟨_, done_only_eq h, rfl, hc, ?_, fun j hj => ?_⟩
  · rw [hgang, gang_modGang_same]
    rfl
  · rw [hgang, gang_modGang_other _ _ _ _ hj]
/-- The array of an MX die has no gang, or the cluster is of no MX die. -/
theorem enmeasAct_cores (ha : 16 ≤ cluster ∨ (s.w.die (cluster / 4)).arrayGang = none) : enmeasAct cluster nj array s =
    shareAll nj (s.w.clusterDws cluster) (clusterCores cluster).length s.w (clusterCores cluster) := by
  unfold enmeasAct
  dsimp only
  split
  · next g hg =>
    rw [hg] at ha
    rw [if_neg (by simpa using ha)]
    rfl
  · rfl
theorem energyShare_weighed {total dws : Nat} (h : 0 < total) : energyShare nj total dws n = nj * dws / total :=
  if_neg (by simpa using Nat.ne_of_gt h)
theorem energyShare_unweighed {dws : Nat} (h : 0 < n) : energyShare nj 0 dws n = nj / n := by
  rw [energyShare, if_pos (by rfl), Nat.max_eq_left h]

section
variable (hk : k ∈ clusterCores cluster) (hg : (s.w.core k).gang = some gid)
  (hfree : ∀ j ∈ clusterCores cluster, j ≠ k → (s.w.core j).gang = none)
  (ha : 16 ≤ cluster ∨ (s.w.die (cluster / 4)).arrayGang = none)
include hk hg hfree ha

theorem enmeasUpdate_alone : Measured (exec (.enmeasUpdate cluster ⟨nj, array⟩) s) s cluster gid
    (energyShare nj (s.w.clusterDws cluster) (s.w.core k).dws (clusterCores cluster).length) :=
  measured_of (enmeasAct_cores ha) (shareAll_core _) (shareAll_alone hk hg hfree (clusterCores_nodup cluster))
theorem enmeasUpdate_weighed (h : 0 < s.w.clusterDws cluster) : Measured (exec (.enmeasUpdate cluster ⟨nj, array⟩) s) s cluster gid
    (nj * (s.w.core k).dws / s.w.clusterDws cluster) :=
  energyShare_weighed h ▸ enmeasUpdate_alone hk hg hfree ha
theorem enmeasUpdate_unweighed (h : s.w.clusterDws cluster = 0) : Measured (exec (.enmeasUpdate cluster ⟨nj, array⟩) s) s cluster gid
    (nj / (clusterCores cluster).length) := by
  have hshare := enmeasUpdate_alone (nj := nj) (array := array) hk hg hfree ha
  rwa [h, energyShare_unweighed (List.length_pos_of_mem hk)] at hshare

end
theorem enmeasUpdate_array (hfree : ∀ j ∈ clusterCores cluster, (s.w.core j).gang = none) (hc : cluster < 16)
    (ha : (s.w.die (cluster / 4)).arrayGang = some gid) :
    Measured (exec (.enmeasUpdate cluster ⟨nj, array⟩) s) s cluster gid array := by
  have hact : enmeasAct cluster nj array s = (shareAll nj (s.w.clusterDws cluster) (clusterCores cluster).length s.w
      (clusterCores cluster)).modGang gid (fun g => g.draws array) := by
    simp only [enmeasAct, ha, if_pos hc]
    rfl
  refine measured_of hact (shareAll_core _) ?_
  have hgang := shareAll_free (nj := nj) (total := s.w.clusterDws cluster) (n := (clusterCores cluster).length) hfree
  simp only [modGang_gangs, World.gang, hgang]

end

/-! ## Images (R375, R377) -/

/-- Bring-up's scans: units that fail go out of placement, and beside that the dies, the log and the mirrors' writes alone change. -/
structure ScannedFrom (w v : World) : Prop where
  gangs : v.gangs = w.gangs
  fw : v.hub.fw = w.hub.fw
  frozen : v.hub.frozen = w.hub.frozen
  bootBad : v.hub.bootBad = w.hub.bootBad
  core : ∀ j, v.core j = { (w.core j) with outOfPlace := (v.core j).outOfPlace }
namespace ScannedFrom
theorem refl (w : World) : ScannedFrom w w := ⟨rfl, rfl, rfl, rfl, fun _ => rfl⟩
theorem trans {u v w : World} (h : ScannedFrom u v) (k : ScannedFrom v w) : ScannedFrom u w :=
  ⟨k.gangs.trans h.gangs, k.fw.trans h.fw, k.frozen.trans h.frozen, k.bootBad.trans h.bootBad, fun j => by rw [k.core, h.core]⟩
end ScannedFrom
theorem unitOut_scanned (w : World) (u : ScanUnit) (out : Bool) : ScannedFrom w (w.unitOut u out) := by
  cases u with
  | strip d n => exact ⟨rfl, rfl, rfl, rfl, fun _ => rfl⟩
  | core k p =>
    refine ⟨rfl, rfl, rfl, rfl, fun j => ?_⟩
    rcases eq_or_ne j k with rfl | h
    · simp only [World.unitOut, core_modCore_same]
    · simp only [World.unitOut, core_modCore_other _ _ _ _ h]
theorem logEvent_scanned (w : World) (cls die ten data : Nat) : ScannedFrom w (w.logEvent cls die ten data) :=
  ⟨logEvent_gangs .., logEvent_fw .., logEvent_frozen .., logEvent_bootBad .., fun j => by simp only [World.core, logEvent_cores]⟩
theorem scanUnits_scanned (draw : Nat) (l : List ScanUnit) (w : World) (n : Nat) : ScannedFrom w (scanUnits draw w n l) := by
  induction l generalizing w n with
  | nil => exact .refl w
  | cons u r ih =>
    rw [scanUnits]
    refine .trans ?_ (ih ..)
    split
    · exact .refl w
    · exact (unitOut_scanned w u true).trans (logEvent_scanned ..)

section
variable {w : World} {rel : Bool}

theorem bringUp_ended_iff : (w.hub.mailOpen || !(w.hub.bootBad.filter (· != rel)).isEmpty) = true ↔
    w.hub.mailOpen = true ∨ ∃ b ∈ w.hub.bootBad, b ≠ rel := by
  rw [Bool.or_eq_true, Bool.not_eq_true', ← Bool.not_eq_true, List.isEmpty_iff, List.filter_eq_nil_iff]
  simp only [bne_iff_ne, not_forall, not_not, exists_prop]
/-- Bring-up stands where it stood: it has ended, or the other image is still to be replaced. -/
theorem bringUp_stands (h : w.hub.mailOpen = true ∨ ∃ b ∈ w.hub.bootBad, b ≠ rel) :
    w.bringUp rel = w.modHub (fun h => { h with bootBad := w.hub.bootBad.filter (· != rel) }) := by
  simp only [World.bringUp, bringUp_ended_iff.2 h, if_true]
/-- Bring-up goes on with its scan and opens the mailbox. -/
theorem bringUp_goesOn (h : ¬(w.hub.mailOpen = true ∨ ∃ b ∈ w.hub.bootBad, b ≠ rel)) : ∃ v,
    ScannedFrom (w.modHub (fun h => { h with bootBad := w.hub.bootBad.filter (· != rel) })) v ∧
      w.bringUp rel = v.modHub (fun h => { h with mailOpen := true }) := by
  have hcond := Bool.eq_false_iff.2 (mt bringUp_ended_iff.1 h)
  refine ⟨_, ?_, by simp only [World.bringUp, hcond, Bool.false_eq_true, if_false]; rfl⟩
  obtain ⟨h1, h2, h3, h4, h5⟩ := scanUnits_scanned w.draws (unitsOf allCores)
    { w.modHub (fun h => { h with bootBad := w.hub.bootBad.filter (· != rel) }) with draws := w.draws + 1 } 0
  exact ⟨h1, h2, h3, h4, h5⟩
/-- Whether or not bring-up goes on: what it keeps, the images that are still to be replaced, and when the mailbox is open after it. -/
theorem bringUp_spec (w : World) (rel : Bool) :
    let v := w.bringUp rel
    v.gangs = w.gangs ∧ v.hub.fw = w.hub.fw ∧ v.hub.frozen = w.hub.frozen ∧
      (∀ b, b ∈ v.hub.bootBad ↔ b ∈ w.hub.bootBad ∧ b ≠ rel) ∧
      (v.hub.mailOpen = true ↔ w.hub.mailOpen = true ∨ ∀ b ∈ w.hub.bootBad, b = rel) ∧
      ∀ j, v.core j = { (w.core j) with outOfPlace := (v.core j).outOfPlace } := by
  intro v
  by_cases h : w.hub.mailOpen = true ∨ ∃ b ∈ w.hub.bootBad, b ≠ rel
  · have hv : v = w.modHub (fun h => { h with bootBad := w.hub.bootBad.filter (· != rel) }) := bringUp_stands h
    rw [hv]
    refine ⟨rfl, rfl, rfl, by simp, (or_iff_left_of_imp fun hall => ?_).symm, fun _ => rfl⟩
    exact h.resolve_right fun ⟨b, hb, hne⟩ => hne (hall b hb)
  · obtain ⟨x, hx, hv⟩ := bringUp_goesOn h
    have hv : v = x.modHub (fun h => { h with mailOpen := true }) := hv
    rw [hv]
    refine ⟨hx.gangs, hx.fw, hx.frozen, by simp [hx.bootBad], ?_, hx.core⟩
    simp only [not_or, not_exists, not_and, not_not] at h
    exact iff_of_true rfl (.inr h.2)

end

section
variable {s : State} {rel : Bool} {version leaf image sig from_ : Nat}

/-- What an image has to meet (R375). -/
theorem acceptsImage_iff {w : World} : w.acceptsImage rel version leaf image sig = true ↔ Config.signatureOk image sig = true ∧
    (w.firmware false).leaf < leaf ∧ (w.firmware true).leaf < leaf ∧ leaf < 2 ^ 20 ∧ (w.firmware rel).minVersion ≤ version := by
  simp only [World.acceptsImage, Bool.and_eq_true, decide_eq_true_eq, max_lt_iff, and_assoc]
  rfl
/-- The world in which an accepted image has been swapped in and logged. -/
def World.swapped (w : World) (rel : Bool) (version leaf image : Nat) : World :=
  ((w.setFw rel { (w.firmware rel) with version := version, leaf := leaf, image := image, updating := true }).modHub
    (fun h => { h with frozen := h.frozen || !rel })).logEvent 11 8 0 (firmwareData rel false version)
section
variable (w : World) (rel : Bool) (version leaf image : Nat)

theorem swapped_cores : (w.swapped rel version leaf image).cores = w.cores := logEvent_cores ..
theorem swapped_gangs : (w.swapped rel version leaf image).gangs = w.gangs := logEvent_gangs ..
theorem swapped_dies : (w.swapped rel version leaf image).dies = w.dies := logEvent_dies ..
theorem swapped_seq : (w.swapped rel version leaf image).hub.seq = (w.hub.seq + 1) % 2 ^ 32 := logEvent_seq ..
theorem swapped_frozen : (w.swapped rel version leaf image).hub.frozen = (w.hub.frozen || !rel) := logEvent_frozen ..
theorem swapped_bootBad : (w.swapped rel version leaf image).hub.bootBad = w.hub.bootBad := logEvent_bootBad ..
theorem swapped_mailOpen : (w.swapped rel version leaf image).hub.mailOpen = w.hub.mailOpen := logEvent_mailOpen ..
theorem swapped_fw : (w.swapped rel version leaf image).hub.fw =
    (w.setFw rel { (w.firmware rel) with version := version, leaf := leaf, image := image, updating := true }).hub.fw := logEvent_fw ..

end

theorem updateAct_accepted (h : s.w.acceptsImage rel version leaf image sig = true) :
    updateAct 0 rel version leaf image sig s = (s.w.swapped rel version leaf image).bringUp rel := by
  simp only [updateAct, World.early?, beq_self_eq_true, if_true, h]
  rfl
theorem firmwareUpdate_accepted (h : s.w.acceptsImage rel version leaf image sig = true) :
    ∃ u : State, exec (.firmwareUpdate ⟨0, rel⟩ version leaf image sig) s = .next u ∧ u.mem = s.mem ∧ u.w.gangs = s.w.gangs ∧
      u.w.firmware rel = { (s.w.firmware rel) with version := version, leaf := leaf, image := image, updating := true } ∧
      u.w.firmware (!rel) = s.w.firmware (!rel) ∧ (u.w.hub.frozen = true ↔ s.w.hub.frozen = true ∨ rel = false) ∧
      (∀ b, b ∈ u.w.hub.bootBad ↔ b ∈ s.w.hub.bootBad ∧ b ≠ rel) ∧
      (u.w.hub.mailOpen = true ↔ s.w.hub.mailOpen = true ∨ ∀ b ∈ s.w.hub.bootBad, b = rel) ∧
      (s.w.hub.mailOpen = true ∨ (∃ b ∈ s.w.hub.bootBad, b ≠ rel) →
        Untouched s u ∧ u.w.dies = s.w.dies ∧ u.w.hub.seq = (s.w.hub.seq + 1) % 2 ^ 32) ∧
      ∀ j, u.w.core j = { (s.w.core j) with outOfPlace := (u.w.core j).outOfPlace } := by
  obtain ⟨hgangs, hfw, hfrozen, hbad, hmail, hcore⟩ := bringUp_spec (s.w.swapped rel version leaf image) rel
  have hstands := bringUp_stands (w := s.w.swapped rel version leaf image) (rel := rel)
  have hfw' := hfw.trans (swapped_fw ..)
  rw [swapped_gangs] at hgangs
  rw [swapped_frozen] at hfrozen
  simp only [swapped_bootBad] at hbad
  rw [swapped_mailOpen, swapped_bootBad] at hmail hstands
  simp only [World.core, swapped_cores] at hcore
  refine ⟨_, done_only_eq (updateAct_accepted h), rfl, hgangs,
    (firmware_congr hfw' rel).trans (firmware_setFw_same ..), (firmware_congr hfw' (!rel)).trans (firmware_setFw_other ..), ?_,
    hbad, hmail, fun hst => ?_, hcore⟩
  · rw [hfrozen]
    simp
  · rw [hstands hst]
    refine ⟨untouched_of ?_ ?_, ?_, ?_⟩
    · rw [modHub_cores, swapped_cores]
    · rw [modHub_gangs, swapped_gangs]
    · rw [modHub_dies, swapped_dies]
    · rw [modHub_hub, swapped_seq]
theorem firmwareUpdate_refused (h : ¬s.w.acceptsImage rel version leaf image sig = true) :
    ∃ u : State, exec (.firmwareUpdate ⟨0, rel⟩ version leaf image sig) s = .next u ∧ Untouched s u ∧
      u.w.hub.fw = s.w.hub.fw ∧ u.w.hub.frozen = s.w.hub.frozen ∧ u.w.hub.seq = (s.w.hub.seq + 1) % 2 ^ 32 := by
  have hact : updateAct 0 rel version leaf image sig s = s.w.logEvent 11 8 0 (firmwareData rel true version) := by
    simp only [updateAct, World.early?, beq_self_eq_true, if_true, if_neg h]
  exact ⟨_, done_only_eq hact, untouched_of (logEvent_cores ..) (logEvent_gangs ..),
    logEvent_fw .., logEvent_frozen .., logEvent_seq ..⟩

/-! ## Identity and attestation (R1, R3, R360, R376) -/

theorem attestationRequest_signs {nonce : BitVec 256} (h : s.w.hub.leaves < 2 ^ 20) :
    ∃ (u : State) (y : Nat), exec (.attestationRequest ⟨0, nonce⟩) s = .next u ∧ Untouched s u ∧
      u.w.hub.leaves = s.w.hub.leaves + 1 ∧ u.w.hub.out = s.w.hub.out ++ [.identity 48 0xB0 ((List.range 9).map Config.serial)
        [(s.w.firmware false).version, (s.w.firmware true).version]
        [Config.digest (s.w.firmware false).image, Config.digest (s.w.firmware true).image] nonce (s.w.hub.leaves + 1) y] := by
  obtain ⟨y, hact⟩ : ∃ y, attestAct 0 nonce s = (s.w.modHub (fun h => { h with leaves := s.w.hub.leaves + 1 })).answer
      (.identity partNumber stepping ((List.range 9).map Config.serial) [(s.w.firmware false).version, (s.w.firmware true).version]
        [Config.digest (s.w.firmware false).image, Config.digest (s.w.firmware true).image] nonce (s.w.hub.leaves + 1) y) := by
    simp only [attestAct, World.early?, beq_self_eq_true, if_true]
    exact ⟨_, if_neg (not_le.2 h)⟩
  exact ⟨_, y, done_only_eq hact, untouched_of rfl rfl, rfl, rfl⟩
theorem attestationRequest_exhausted {nonce : BitVec 256} (h : 2 ^ 20 ≤ s.w.hub.leaves) :
    ∃ u : State, exec (.attestationRequest ⟨0, nonce⟩) s = .next u ∧ Untouched s u ∧ u.w.hub.leaves = s.w.hub.leaves ∧
      u.w.hub.out = s.w.hub.out ++ [.status 1] := by
  have hact : attestAct 0 nonce s = s.w.answer (.status 1) := by
    simp only [attestAct, World.early?, beq_self_eq_true, if_true]
    exact if_pos h
  exact ⟨_, done_only_eq hact, untouched_of rfl rfl, rfl, rfl⟩
/-- Both are tenant 0's alone (R360). -/
theorem early_refused {nonce : BitVec 256} (h : from_ ≠ 0) :
    exec (.attestationRequest ⟨from_, nonce⟩) s = .next (s.withWorld (s.w.answer .error)) ∧
      exec (.firmwareUpdate ⟨from_, rel⟩ version leaf image sig) s = .next (s.withWorld (s.w.answer .error)) := by
  have hearly (f : World → World) : s.w.early? from_ f = s.w.answer .error := if_neg (by simpa using h)
  exact ⟨done_only_eq (hearly _), done_only_eq (hearly _)⟩

end

/-! ## The obligation -/

/-- Settles O50: each clause is the rule of its action above. -/
theorem firmwareActions : Obligations.FirmwareActions := by
  intro s rel dom mhz gid k cluster nj array version leaf image sig from_ nonce
  dsimp only
  refine ⟨heartbeat_controller, heartbeat_reliability, heartbeatMiss_freezes, heartbeatMiss_early, safeTable_enters, safeTable_early,
    freqTableWrite_ceiling, ?_, ?_, enmeasUpdate_array, reliabilityRestart_restarts, reliabilityRestart_early, ?_, ?_,
    attestationRequest_signs, attestationRequest_exhausted, early_refused⟩
  · exact fun ⟨hk, hg, hfree⟩ ha htot => enmeasUpdate_weighed hk hg hfree ha htot
  · exact fun ⟨hk, hg, hfree⟩ ha htot => enmeasUpdate_unweighed hk hg hfree ha htot
  · exact fun h => firmwareUpdate_accepted (acceptsImage_iff.2 h)
  · exact fun h => firmwareUpdate_refused (mt acceptsImage_iff.1 h)

end Sys2Proof.Machine
end

/-! SUPPORT. Slot operations write no memory at their issue (R12, R60, R64): settles O59. -/
section
namespace Sys2Proof.Machine
open Sys2Proof

/-- A scratchpad load, whether it traps, consumes an error or delivers, changes the world alone. -/
theorem loadAct_only (s : State) (la n : Nat) (f : World → Nat → World) : ∃ w, s.loadAct la n f = only w := by
  unfold State.loadAct
  split
  · exact ⟨_, rfl⟩
  · dsimp only
    split <;> exact ⟨_, rfl⟩
theorem done_loadAct_only (s : State) (la n : Nat) (f : World → Nat → World) :
    ∃ w, done s (s.loadAct la n f) = done s (only w) :=
  (loadAct_only s la n f).imp fun _ => congrArg (done s)
/-- What a slot operation that is no scratchpad store answers is the state with another world: the loads, AMO and SCLD read through
the scratchpad, the other forms answer a world outright, and a form without a class is no slot operation. -/
theorem exec_slot_only (i : Instr) (s : State) (hk : clsOf i ≠ none) (hs : isStore i = false) :
    ∃ w, exec i s = done s (only w) := by
  cases i with
  | sts | stv | str => cases hs
  | lds | ldv | ldr | ldb | amo | scld => exact done_loadAct_only ..
  | pmov p2v => cases p2v <;> exact ⟨_, rfl⟩
  | br | bri | bc | bp | call | calli | ret | loop | lend | lbrk | brswap | trap | halt | rft | rstrt | pwin | add | sub | and
  | or | xor | andn | shl | shr | sar | rol | min | max | minn | maxn | scmp | sel | movl | ext | bfx | bfi | clz | ctz | popc
  | lea | lidx | smix | mul | mulh | mulhn | madd | div | divn | rem | remn | sfadd | sfmul | sfma | sfcvt | sfcmp | pseal
  | pstat | gld | gst | gldv | gstv | gamo | vfadd | vfsub | vfmul | vfma | vfms | vfnma | vfmin | vfmax | vfabs | vfneg
  | vfcmp | vfrcp | vfrsq | vfexp2 | vfcvt | vfscl | vadd | vsub | vmul | vmulh | vdot4 | vshl | vshr | vsar | vand | vor
  | vxor | vandn | vmin | vmax | vabs | vcmp | vsel | vsat | vcvt | vclz | vpopc | vidx | vsmix | vbcs | vperm | vrot | vshuf
  | vrmg | vwin | vred | vscan | vpack | vunpk | vext | vins | pand | por | pxor | pnot | bcopy | tcopy | bfill | bchk | ifill
  | send | sends | recv | recvs | mcast | signal | bararr | bardrp | barwt | dqpush | dqpop | dqsteal | launch | twait | sigwt
  | mlease | mrel | mcfg | tload | tstore | tzero | mma | tcvt | tscl | cboard | calight | ccatch | ccatchv | crepl | crost
  | srr | srw | rdtt | rdwt | fence | ifence | cropen | crclose | scangap | evctl => exact ⟨_, rfl⟩
  | _ => exact absurd rfl hk
/-- Settles O59. -/
theorem onlyStoresWrite : Obligations.OnlyStoresWrite := by
  intro i s t hk hs h
  obtain ⟨w, hw⟩ := exec_slot_only i s hk hs
  rw [done_inv (hw.symm.trans h), commit_only]

end Sys2Proof.Machine
end

/-! SUPPORT. What homes, links, the carousel and the office leave as it is: the cores and the gangs. -/
section
namespace Sys2Proof.Machine
open Sys2Proof

/-! ## What leaves the cores and the gangs as they are -/

/-- Of the cores and the gangs nothing changes. -/
structure Aside (w v : World) : Prop where
  cores : v.cores = w.cores
  gangs : v.gangs = w.gangs
namespace Aside
theorem refl (w : World) : Aside w w := ⟨rfl, rfl⟩
theorem trans {u v w : World} (h : Aside u v) (k : Aside v w) : Aside u w := ⟨k.cores.trans h.cores, k.gangs.trans h.gangs⟩
/-- The same, the second step first: it says what the first leads to. -/
theorem after {u v w : World} (k : Aside v w) (h : Aside u v) : Aside u w := h.trans k
theorem gang {w v : World} (h : Aside w v) (g : Nat) : v.gang g = w.gang g := by rw [World.gang, h.gangs]; rfl
theorem core {w v : World} (h : Aside w v) (k : Nat) : v.core k = w.core k := by rw [World.core, h.cores]; rfl
theorem ite {w : World} {c : Prop} [Decidable c] {a b : Act} (ha : Aside w a.w) (hb : Aside w b.w) :
    Aside w (if c then a else b).w := by
  split <;> assumption
theorem foldl {α : Type} {f : World → α → World} (hf : ∀ w x, Aside w (f w x)) (l : List α) (w : World) : Aside w (l.foldl f w) := by
  induction l generalizing w with
  | nil => exact refl w
  | cons x r ih => exact (hf w x).trans (ih _)
end Aside
/-- What each of some actions does to the world, they do one after another. -/
theorem inOrder_rel {R : World → World → Prop} (hrefl : ∀ w, R w w) (htrans : ∀ {u v w}, R u v → R v w → R u w)
    {l : List (State → Act)} (hl : ∀ f ∈ l, ∀ s : State, R s.w (f s).w) (s : State) : R s.w (s.inOrder l).w := by
  induction l generalizing s with
  | nil => exact hrefl _
  | cons f r ih => exact htrans (hl f (by simp) s) (ih (fun g hg => hl g (by simp [hg])) (s.commit (f s)))
theorem inOrder_aside {l : List (State → Act)} (hl : ∀ f ∈ l, ∀ s : State, Aside s.w (f s).w) (s : State) :
    Aside s.w (s.inOrder l).w := inOrder_rel .refl .trans hl s

/-! ## Homes, links and ports -/

theorem homeCounted_aside (w : World) (p : Part) (die data ten : Nat) : Aside w (w.homeCounted p die data ten) := by
  unfold World.homeCounted
  split
  · dsimp only
    split <;> exact ⟨rfl, rfl⟩
  · exact .refl w
theorem podLeaves_aside (w : World) (f : Flight) (k : Nat) (p : Part) : Aside w (w.podLeaves f k p) := by
  unfold World.podLeaves
  split
  · exact .refl w
  · split <;> exact ⟨rfl, rfl⟩
theorem performPart_aside (s : State) (f : Flight) (k : Nat) : Aside s.w (s.performPart f k).w := by
  unfold State.performPart
  refine .ite (.refl _) ?_
  cases f.partAt k with
  | none => exact .refl _
  | some p =>
    have hw := homeCounted_aside s.w p (dieOf f.core) f.dataDie (s.w.gang f.gang).tenant
    dsimp only
    generalize s.w.homeCounted p (dieOf f.core) f.dataDie (s.w.gang f.gang).tenant = w at *
    have hplain {a : Act} (hc : a.w.cores = w.cores) (hg : a.w.gangs = w.gangs) : Aside s.w a.w := hw.trans ⟨hc, hg⟩
    refine .ite ⟨rfl, rfl⟩ (.ite ?_ (.ite ?_ (.ite (hplain rfl rfl) (.ite (hplain rfl rfl) (.ite (hplain rfl rfl) ?_)))))
    · split <;> exact ⟨rfl, rfl⟩
    · split
      · exact hplain rfl rfl
      · exact hw.trans ((podLeaves_aside w f k p).trans ⟨rfl, rfl⟩)
    · split
      · exact hplain rfl rfl
      · exact .ite (hplain rfl rfl) (hplain rfl rfl)
      · refine .ite (hplain rfl rfl) ?_
        split <;> exact hplain rfl rfl
      · exact .ite (.ite (hplain rfl rfl) (hplain rfl rfl)) (hplain rfl rfl)
      · exact .ite (hplain rfl rfl) (hplain rfl rfl)
theorem engPerformAct_aside (id k : Nat) (s : State) : Aside s.w (engPerformAct id k s).w := by
  unfold engPerformAct
  split
  · split
    · split
      · exact performPart_aside ..
      · exact .refl _
    · exact .refl _
  · exact .refl _
theorem performNow_aside (k id : Nat) (s : State) : Aside s.w (State.performNow k id s).w := by
  unfold State.performNow
  split
  · split
    · exact .refl _
    split
    · exact engPerformAct_aside ..
    split
    · exact performPart_aside ..
    · exact .refl _
  · exact .refl _
theorem hops_aside (s : State) (f : Flight) (k : Nat) : Aside s.w (s.hops f k).w := by
  unfold State.hops
  dsimp only
  split
  · exact (performNow_aside ..).after ⟨rfl, rfl⟩
  · exact ⟨rfl, rfl⟩
theorem flitHops_aside (link : Nat) (out : Bool) (f : Flight) (k : Nat) (s : State) : Aside s.w (State.flitHops link out f k s).w := by
  refine inOrder_aside (fun g hg t => ?_) s
  obtain ⟨j, -, rfl⟩ := List.mem_map.1 hg
  dsimp only
  split
  · exact hops_aside ..
  · exact .refl _
theorem portAct_aside (port : Nat) (out : Bool) (s : State) : Aside s.w (portAct port out s).w := by
  unfold portAct
  dsimp only
  split
  · exact ⟨rfl, rfl⟩
  split
  · exact ⟨rfl, rfl⟩
  · exact (flitHops_aside ..).after ⟨rfl, rfl⟩
  · exact ⟨rfl, rfl⟩
theorem podTurns_aside (port k id n : Nat) (s : State) : Aside s.w (State.podTurns port k id n s).w := by
  induction n generalizing s with
  | zero =>
    unfold State.podTurns
    split
    · exact performPart_aside ..
    · exact .refl _
  | succ n ih =>
    unfold State.podTurns
    split
    · exact .refl _
    · exact (ih _).after (portAct_aside port true s)
theorem podForce_aside (k : Nat) (f : Flight) (s : State) : Aside s.w (State.podForce k f s).w := by
  unfold State.podForce
  split
  · exact performPart_aside ..
  · exact (podTurns_aside ..).after ⟨rfl, rfl⟩
/-- A part that performs by its posted time. -/
theorem performId_aside (k id : Nat) (s : State) : Aside s.w (State.performId k id s).w := by
  unfold State.performId
  split
  · split
    · exact .refl _
    split
    · exact podForce_aside ..
    · exact performPart_aside ..
  · exact .refl _

/-! ## The carousel and the office -/

theorem askRoster_aside (w : World) (f : Flight) : Aside w (w.askRoster f) := by
  unfold World.askRoster
  dsimp only
  split
  · split
    · split <;> exact ⟨rfl, rfl⟩
    · exact .refl w
  · split
    · exact .refl w
    · split <;> exact ⟨rfl, rfl⟩
  · exact .refl w
theorem boardInto_aside (w : World) (k stop : Nat) (x : Slot) (f : Flight) : Aside w (w.boardInto k stop x f) := by
  unfold World.boardInto
  split <;> exact ⟨rfl, rfl⟩
theorem carForce_aside (w : World) (f : Flight) (t : Nat) : Aside w (w.carForce f t) := by
  unfold World.carForce
  split
  · split
    · split
      · exact boardInto_aside ..
      · exact .refl w
    · split
      · exact askRoster_aside ..
      · exact .refl w
  · split
    · exact askRoster_aside ..
    · exact .refl w
  · exact .refl w
theorem carForces_aside (t : Nat) (l : List Nat) (w : World) : Aside w (carForces t w l) := by
  induction l generalizing w with
  | nil => exact .refl w
  | cons id r ih =>
    unfold carForces
    split
    · exact (carForce_aside ..).trans (ih _)
    · exact ih w
theorem replaces_aside (l : List Flight) (w : World) (x : Slot) : Aside w (replaces w x l).1 := by
  induction l generalizing w x with
  | nil => exact .refl w
  | cons f r ih => exact (ih _ _).after ⟨rfl, rfl⟩
theorem catches_aside (l : List Flight) (w : World) (x : Slot) : Aside w (catches w x l) := by
  induction l generalizing w with
  | nil => exact .refl w
  | cons f r ih => exact (ih _).after ⟨rfl, rfl⟩
theorem passFull_aside (w : World) (k stop : Nat) (x : Slot) : Aside w (w.passFull k stop x) := by
  unfold World.passFull
  dsimp only
  split <;> exact ((replaces_aside ..).trans (catches_aside ..)).trans ⟨rfl, rfl⟩
theorem passEmpty_aside (w : World) (k stop : Nat) (x : Slot) : Aside w (w.passEmpty k stop x) := by
  unfold World.passEmpty
  split
  · exact .refl w
  · exact boardInto_aside ..
theorem logEvent_aside (w : World) (cls die ten data : Nat) : Aside w (w.logEvent cls die ten data) :=
  ⟨logEvent_cores .., logEvent_gangs ..⟩
theorem checked_aside (w : World) (k stop : Nat) : Aside w (w.checked k stop) := by
  unfold World.checked
  dsimp only
  split
  · exact .refl w
  split
  · exact ⟨rfl, rfl⟩
  · exact (logEvent_aside ..).after ⟨rfl, rfl⟩
theorem passage_aside (w : World) (k stop : Nat) : Aside w (w.passage k stop) := by
  unfold World.passage
  dsimp only
  split
  · exact .refl w
  split
  · split
    · exact (checked_aside ..).trans ⟨rfl, rfl⟩
    · exact (checked_aside ..).trans (passFull_aside ..)
  split
  · exact ⟨rfl, rfl⟩
  · exact passEmpty_aside ..
theorem passAll_aside (n : Nat) (l : List Nat) (w : World) : Aside w (passAll n w l) := by
  induction l generalizing w with
  | nil => exact .refl w
  | cons k r ih =>
    refine Aside.trans ?_ (ih _)
    split
    · exact passage_aside ..
    · exact .refl w
theorem ringTurns_aside (w : World) (n : Nat) : Aside w (ringTurns w n) := by
  induction n with
  | zero => exact .refl w
  | succ n ih => exact ih.trans ((passAll_aside ..).trans ⟨rfl, rfl⟩)
theorem ringTo_aside (w : World) : Aside w w.ringTo := by
  unfold World.ringTo
  split
  · exact ⟨rfl, rfl⟩
  · exact ringTurns_aside ..
theorem launchPost_aside (w : World) (f : Flight) : Aside w (w.launchPost f) := by
  unfold World.launchPost
  dsimp only
  split
  · exact .refl w
  split
  · exact ⟨rfl, rfl⟩
  split
  · exact ⟨rfl, rfl⟩
  · split <;> exact ⟨rfl, rfl⟩
/-- As time goes on, the ring turns and LAUNCHes are applied. -/
theorem till_aside (w : World) (t : Nat) : Aside w (w.till t) :=
  (Aside.foldl launchPost_aside _ _).after ((ringTo_aside { w with now := max w.now t }).after ⟨rfl, rfl⟩)

end Sys2Proof.Machine
end

/-! SUPPORT. What the bookkeeping of a cycle keeps of the cores. -/
section
namespace Sys2Proof.Machine
open Sys2Proof

/-! ## What the bookkeeping of a cycle keeps -/

/-- A core whose events have been counted, whose rows have been read and whose parity has been written: what it has due, its window,
its seals and its context are kept, but for the event counters. -/
structure Core.Keeps (c d : Core) : Prop where
  pend : d.pend = c.pend
  win : d.win = c.win
  seals : d.seals = c.seals
  ctx : d.ctx = { c.ctx with evc := d.ctx.evc, evcsel := d.ctx.evcsel }
/-- So it is of every core, and no gang's TTC changes. -/
structure World.Keeps (w v : World) : Prop where
  core : ∀ k, (w.core k).Keeps (v.core k)
  ttc : ∀ g, (v.gang g).ttc = (w.gang g).ttc
theorem Core.Keeps.refl (c : Core) : c.Keeps c := ⟨rfl, rfl, rfl, rfl⟩
theorem Core.Keeps.trans {a b c : Core} (h : a.Keeps b) (k : b.Keeps c) : a.Keeps c :=
  ⟨k.pend.trans h.pend, k.win.trans h.win, k.seals.trans h.seals, by rw [k.ctx, h.ctx]⟩
namespace World.Keeps
theorem refl (w : World) : w.Keeps w := ⟨fun _ => .refl _, fun _ => rfl⟩
theorem trans {u v w : World} (h : u.Keeps v) (k : v.Keeps w) : u.Keeps w :=
  ⟨fun j => (h.core j).trans (k.core j), fun g => (k.ttc g).trans (h.ttc g)⟩
theorem after {u v w : World} (k : v.Keeps w) (h : u.Keeps v) : u.Keeps w := h.trans k
theorem foldl {α : Type} {f : World → α → World} (hf : ∀ (w : World) x, w.Keeps (f w x)) (l : List α) (w : World) : w.Keeps (l.foldl f w) := by
  induction l generalizing w with
  | nil => exact refl w
  | cons x r ih => exact (hf w x).trans (ih _)
end World.Keeps
theorem Aside.keeps {w v : World} (h : Aside w v) : w.Keeps v :=
  ⟨fun k => by rw [h.core]; exact .refl _, fun g => by rw [h.gang]⟩
theorem modCore_keeps (w : World) (k : Nat) {f : Core → Core} (hf : (w.core k).Keeps (f (w.core k))) : w.Keeps (w.modCore k f) := by
  refine ⟨fun j => ?_, fun _ => rfl⟩
  rcases eq_or_ne j k with rfl | h
  · rwa [core_modCore_same]
  · rw [core_modCore_other _ _ _ _ h]
    exact .refl _
theorem inOrder_keeps {l : List (State → Act)} (hl : ∀ f ∈ l, ∀ s : State, s.w.Keeps (f s).w) (s : State) :
    s.w.Keeps (s.inOrder l).w := inOrder_rel .refl .trans hl s

/-! ### Counting and the end of a cycle (R128) -/

theorem count_keeps (w : World) (k src n : Nat) : w.Keeps (w.count k src n) := modCore_keeps _ _ ⟨rfl, rfl, rfl, rfl⟩
theorem countDie_keeps (w : World) (d src ten n : Nat) : w.Keeps (w.countDie d src ten n) := Aside.keeps ⟨rfl, rfl⟩
theorem flushAll_frame (l : FMap Nat) (c : CoreCtx) :
    { c with evc := (flushAll c l).evc, evcsel := (flushAll c l).evcsel } = flushAll c l := by
  induction l generalizing c with
  | nil => rfl
  | cons e r ih =>
    rw [flushAll, ← ih, ← bumpAll_frame e.1 e.2 (List.range 8) c]
theorem flush_keeps (c : Core) : c.Keeps c.flush := ⟨rfl, rfl, rfl, (flushAll_frame c.evq c.ctx).symm⟩
theorem flushAllCores_keeps (t : Nat) (sup : Bool) (l : List Nat) (w : World) : w.Keeps (flushAllCores t sup w l) := by
  induction l generalizing w with
  | nil => exact .refl w
  | cons k r ih =>
    refine (ih _).after (modCore_keeps _ _ ?_)
    obtain ⟨hp, hw, hs, hc⟩ := flush_keeps (w.core k)
    exact ⟨hp, hw, hs, hc⟩
theorem countTtc_keeps (why : Nat) (l : List Nat) (w : World) : w.Keeps (countTtc why w l) := by
  induction l generalizing w with
  | nil => exact .refl w
  | cons k r ih =>
    refine (ih _).after ?_
    split
    · exact count_keeps ..
    · exact (count_keeps ..).trans (count_keeps ..)
theorem keepAccesses_keeps (s : State) (sup : Bool) (t : Nat) (l : List Nat) (w : World) : w.Keeps (keepAccesses s sup t w l) := by
  induction l generalizing w with
  | nil => exact .refl w
  | cons k r ih => exact (ih _).after (modCore_keeps _ _ ⟨rfl, rfl, rfl, rfl⟩)
theorem countSlots_keeps (k : Nat) (l : List (Nat × Instr)) (w : World) : w.Keeps (countSlots w k l) := by
  induction l generalizing w with
  | nil => exact .refl w
  | cons x r ih => exact (ih _).after (count_keeps ..)

/-! ### Reading rows (R172, R178) -/

theorem fixed_aside (w : World) (k n : Nat) : Aside w (w.fixed k n) := by
  unfold World.fixed
  split <;> exact ⟨rfl, rfl⟩
theorem worn_keeps (w : World) (k row n : Nat) : w.Keeps (w.worn k row n) := by
  unfold World.worn
  split <;> exact Aside.keeps ⟨rfl, rfl⟩
theorem corrected_keeps (w : World) (k n : Nat) : w.Keeps (w.corrected k n) := by
  unfold World.corrected
  split
  · exact .refl w
  · exact (count_keeps ..).trans (fixed_aside ..).keeps
theorem mendRest_keeps (w : World) (k row : Nat) (ws : List Nat) : w.Keeps (w.mendRest k row ws) :=
  (corrected_keeps ..).after (.foldl (fun _ _ => worn_keeps ..) _ _)
theorem poisonRow_keeps (w : World) (k row : Nat) : w.Keeps (w.poisonRow k row) := modCore_keeps _ _ ⟨rfl, rfl, rfl, rfl⟩
theorem rebuilt_keeps (w : World) (k : Nat) : w.Keeps (w.rebuilt k) := (countDie_keeps ..).after (count_keeps ..)
theorem lookWords_keeps (w : World) (k row : Nat) (ws : List Nat) : w.Keeps (w.lookWords k row ws).w := by
  unfold World.lookWords
  dsimp only
  split
  · exact poisonRow_keeps ..
  split
  · exact .refl w
  split
  · split
    · exact poisonRow_keeps ..
    · exact (mendRest_keeps ..).after (rebuilt_keeps ..)
  split
  · split
    · exact poisonRow_keeps ..
    · exact (mendRest_keeps ..).after ((worn_keeps ..).after ((corrected_keeps ..).after (Aside.keeps ⟨rfl, rfl⟩)))
  · exact (worn_keeps ..).after (corrected_keeps ..)
theorem quietRead_keeps (w : World) (k row : Nat) (ws : List Nat) : w.Keeps (w.quietRead k row ws) := by
  unfold World.quietRead
  dsimp only
  split
  · exact (corrected_keeps ..).after (worn_keeps ..)
  · exact lookWords_keeps ..

/-! ### Seals and what performs ahead of the next cycle (R173, R188, R215) -/

theorem sealAccess_keeps (k t : Nat) (w : World) (x : SealOp) : w.Keeps (w.sealAccess k t x) := by
  unfold World.sealAccess
  split
  · exact .refl w
  · dsimp only
    split
    · exact (World.Keeps.foldl (fun _ _ => quietRead_keeps ..) _ _).after (count_keeps ..)
    · exact count_keeps ..
theorem sealLine_keeps (k line : Nat) (s : State) : s.w.Keeps (State.sealLine k line s).w := by
  unfold State.sealLine
  split
  · exact .refl _
  · exact (countDie_keeps ..).after ((count_keeps ..).after (Aside.keeps ⟨rfl, rfl⟩))
theorem sealCycle_keeps (k : Nat) (sup : Bool) (t : Nat) (s : State) : s.w.Keeps (State.sealCycle k sup t s).w := by
  refine inOrder_keeps (fun f hf u => ?_) s
  rcases List.mem_cons.1 hf with rfl | hf
  · exact .foldl (fun _ _ => sealAccess_keeps ..) _ _
  · obtain ⟨line, -, rfl⟩ := List.mem_map.1 hf
    exact sealLine_keeps ..
theorem lookAhead_keeps (gid t : Nat) (s : State) : s.w.Keeps (State.lookAhead gid t s).w := by
  refine inOrder_keeps (fun f hf u => ?_) s
  simp only [List.mem_append, List.mem_flatten, List.mem_map, List.mem_singleton] at hf
  obtain ⟨l, ⟨g, -, rfl⟩, hf⟩ | rfl := hf
  · obtain ⟨part, -, rfl⟩ := List.mem_map.1 hf
    exact (performId_aside ..).keeps
  · exact (carForces_aside ..).keeps

end Sys2Proof.Machine
end

/-! SUPPORT. A cycle of one member and one slot runs the decoded bundle (R11, R14, R59 to R62): settles O60. -/
section
namespace Sys2Proof.Machine
open Sys2Proof

/-! ## The engine's position holds no store (R46, R54) -/

theorem judge_ok {i j : Instr} {cs : List (Nat × Bool)} (h : judge i cs = .ok j) : j = i := by
  unfold judge at h
  split at h <;> cases h
  rfl
theorem judgeWith_ok {α : Type} {o : Option α} {code : Nat} {k : α → Instr} {cs : List (Nat × Bool)} {j : Instr}
    (h : judgeWith o code k cs = .ok j) : ∃ v, j = k v := by
  cases o with
  | none => cases h
  | some v => exact ⟨v, judge_ok h⟩
theorem decodeE_not_store {x : EWord} {i : Instr} (h : decodeE x = .ok i) : isStore i = false := by
  unfold decodeE at h
  dsimp only at h
  split at h
  case h_1 | h_2 => obtain ⟨v, rfl⟩ := judgeWith_ok h; rfl
  case h_36 => cases h
  all_goals rw [judge_ok h]; rfl
/-- A slot that decodes is what the decoder of its position's class makes of its word. -/
theorem slotVerdict_ok {site : Site} {pos w : Nat} {i : Instr} (h : slotVerdict site pos w = .ok i) :
    decodeCls (clsAt pos) w = .ok i := by
  unfold slotVerdict at h
  split at h
  · split at h <;> cases h
  · next j hj =>
    split_ifs at h
    rw [hj, h]
theorem mem_decodeBundle {site : Site} {rd : Nat → Nat} {pos : Nat} {i : Instr} (h : (pos, i) ∈ (decodeBundle site rd).slots) :
    ∃ w, decodeCls (clsAt pos) w = .ok i := by
  obtain ⟨⟨p, w⟩, -, hx⟩ := List.mem_filterMap.1 h
  split at hx
  · next j hj =>
    cases hx
    exact ⟨w, slotVerdict_ok hj⟩
  · cases hx
theorem next_engine_not_store {s : State} {core : Nat} {sup : Bool} {i : Instr} (h : (14, i) ∈ (s.next core sup).slots) :
    isStore i = false := by
  obtain ⟨w, hw⟩ := mem_decodeBundle h
  exact decodeE_not_store hw

/-! ## A cycle of one member and one slot (R59 to R62) -/

theorem inIdOrder_singleton (k : Nat) : inIdOrder [k] = [k] := rfl
/-- What a plan says of the member whose bundle it is. -/
theorem plan_some {s : State} {k t : Nat} {sup : Bool} {p : Plan} (h : s.plan k sup t = some p) :
    s.ready k sup = true ∧ p = { core := k, sup := sup, b := s.next k sup, pc := ((s.w.core k).seq sup).pc, issue := t } := by
  unfold State.plan at h
  split at h
  · next hg =>
    simp only [State.goes, Bool.and_eq_true] at hg
    exact ⟨hg.1, (Option.some.inj h).symm⟩
  · cases h

section
variable {e t : State} {p : Plan} {i : Instr} {pos k now gid : Nat}

/-- The trial of the only slot of the only member finds nothing that stops the cycle. -/
theorem tryAll_clear (hpre : e.precheck k false now = none) (hplan : e.plan k false now = some p) (hslots : p.b.slots = [(pos, i)])
    (hreads : e.w.readsFaulty k pos false ((e.w.core k).ctx.readsNow i) = false) (hexec : exec i (e.enter p pos) = .next t)
    (habort : t.w.abort = none) : tryAll runInstr false now e e [k] = .clear := by
  have hcore : p.core = k ∧ p.sup = false := by rw [(plan_some hplan).2]; exact ⟨rfl, rfl⟩
  have htrial : trialOf t = .clear := by simp only [trialOf, habort]
  have hslot : trySlots runInstr p e e p.b.slots = (if pos == 14 then t else e, .clear) := by
    simp [hslots, trySlots, runInstr_of_exec hexec, htrial, hcore, hreads, Trial.orConsume, Trial.isTrap]
  simp [tryAll, hpre, hplan, hslot, Trial.isTrap, Trial.orConsume]
/-- A filter that takes the only slot of a bundle runs it, one that does not runs nothing. -/
theorem runAll_one (run : Run) (sel : Nat × Instr → Bool) (s : State) (hslots : p.b.slots = [(pos, i)]) :
    runAll run sel s [p] = if sel (pos, i) then run i (s.enter p pos) else s := by
  by_cases h : sel (pos, i) <;> simp [runAll, hslots, h, runSlots]
/-- The only slot of a bundle, no transfer, is performed once, and then the bundle has issued. -/
theorem perform_one (hslots : p.b.slots = [(pos, i)]) (hpos : pos ≠ 0) (hstore : pos = 14 → isStore i = false)
    (hexec : exec i (e.enter p pos) = .next t) : perform runInstr e [p] = t.withW (t.issued p) := by
  have hrun := runInstr_of_exec hexec
  unfold perform
  simp only [runAll_one _ _ _ hslots, issueAll]
  by_cases h14 : pos = 14
  · simp [h14, hstore h14, ← hrun]
  · by_cases hs : isStore i <;> simp [h14, hs, hpos, hrun]
end

/-! ## A gang's books for a cycle on TTC -/

/-- A cycle on TTC is counted. -/
def Gang.ticked (g : Gang) : Gang :=
  { g with ttc := g.ttc + 1, cycles := g.cycles + 1, wallRun := g.wallRun + g.period,
           clocks := fput g.clocks g.khz (fget g.clocks 0 g.khz + 1),
           thr := if g.why == 0 then g.thr else fput g.thr (thrIndex g.why) (fget g.thr 0 (thrIndex g.why) + 1) }
theorem advance_of_no_yp (g : Gang) (now : Nat) : g.advance false now = g.ticked := rfl
theorem advance_of_yp (g : Gang) (now : Nat) : g.advance true now =
    match g.ticked.takeClass.stat with
    | .running => if g.ticked.takeClass.preempt then { g.ticked.takeClass with stat := .held [] now } else g.ticked.takeClass
    | _ => g.ticked.takeClass := rfl
/-- A running gang with a request is held as it comes past a yield point (R269). -/
theorem advance_holds {g : Gang} (hs : g.stat = .running) (hp : g.preempt = true) (now : Nat) :
    g.advance true now = { g.ticked.takeClass with stat := .held [] now } := by
  have hs' : g.ticked.takeClass.stat = .running := hs
  have hp' : g.ticked.takeClass.preempt = true := hp
  rw [advance_of_yp, hs']
  exact if_pos hp'
theorem advance_ttc (g : Gang) (yp : Bool) (now : Nat) : (g.advance yp now).ttc = g.ttc + 1 := by
  cases yp with
  | false => rfl
  | true =>
    have ht : g.ticked.takeClass.ttc = g.ttc + 1 := rfl
    rw [advance_of_yp]
    generalize g.ticked.takeClass = g2 at *
    split
    · split <;> exact ht
    · exact ht

section
variable {t : State} {p : Plan} {k now gid : Nat}

theorem countSlots_flights (k : Nat) (l : List (Nat × Instr)) (w : World) : (countSlots w k l).flights = w.flights := by
  induction l generalizing w with
  | nil => rfl
  | cons x r ih => exact ih _
/-- What counts a bundle that issues (R128). -/
def State.bundleCounted (s : State) (p : Plan) : World :=
  countSlots (((((s.w.fetched p).count p.core 0x02 1).count p.core 0x08 p.b.hdr.dw).count p.core 0x09
    (Bundle.held p.b)).count p.core 0x0A p.b.slots.length) p.core p.b.slots
theorem bundleCounted_keeps (s : State) (p : Plan) : s.w.Keeps (s.bundleCounted p) :=
  (countSlots_keeps ..).after ((count_keeps ..).after ((count_keeps ..).after ((count_keeps ..).after ((count_keeps ..).after
    (fixed_aside ..).keeps))))
theorem bundleCounted_flights (s : State) (p : Plan) : (s.bundleCounted p).flights = s.w.flights := by
  refine (countSlots_flights ..).trans ?_
  show (World.fixed ..).flights = _
  unfold World.fixed
  split <;> rfl
/-- A bundle without a transfer has issued: it is counted, its weight enters the window, and issue falls through. -/
theorem issued_eq (hslots : (p.b.slots.any fun x => x.1 == 0) = false) : t.issued p =
    ((t.bundleCounted p).modCore p.core (fun c => { c with win := (p.b.hdr.dw :: c.win).take 7, dws := c.dws + p.b.hdr.dw })).setSeq
      p.core p.sup (fallSeq t.mem (t.w.core p.core) p.core p.sup p.pc p.nxt) := by
  exact if_neg (by rw [hslots]; exact Bool.false_ne_true)
theorem issued_core (hslots : (p.b.slots.any fun x => x.1 == 0) = false) (hk : p.core = k) (hsup : p.sup = false) :
    ((t.issued p).core k).pend = (t.w.core k).pend ∧ ((t.issued p).core k).seals = (t.w.core k).seals ∧
      ((t.issued p).core k).win = (p.b.hdr.dw :: (t.w.core k).win).take 7 ∧
      ((t.issued p).core k).ctx = { (t.w.core k).ctx with
        seq := fallSeq t.mem (t.w.core k) k false p.pc p.nxt
        evc := ((t.issued p).core k).ctx.evc, evcsel := ((t.issued p).core k).ctx.evcsel } := by
  obtain ⟨hpend, hwin, hseals, hctx⟩ := (bundleCounted_keeps t p).core k
  subst hk
  rw [issued_eq hslots, hsup]
  generalize fallSeq t.mem (t.w.core p.core) p.core false p.pc p.nxt = q
  generalize t.bundleCounted p = w at *
  rw [World.setSeq, core_modCore_same, core_modCore_same]
  refine ⟨hpend, hseals, congrArg (fun l => (p.b.hdr.dw :: l).take 7) hwin, ?_⟩
  exact congrArg (fun x : CoreCtx => { x with seq := q }) hctx
theorem issued_gangs (hslots : (p.b.slots.any fun x => x.1 == 0) = false) (g : Nat) :
    ((t.issued p).gang g).ttc = (t.w.gang g).ttc := by
  rw [issued_eq hslots]
  exact (bundleCounted_keeps t p).ttc g
theorem issued_flights (hslots : (p.b.slots.any fun x => x.1 == 0) = false) : (t.issued p).flights = t.w.flights := by
  rw [issued_eq hslots]
  exact bundleCounted_flights t p

/-- What the seals of a member and the parts that feed the next cycle do once the bundle has issued. -/
def endAct (gid k now : Nat) (s : State) : Act := s.inOrder ([State.sealCycle k false now] ++ [State.lookAhead gid now])
theorem endAct_keeps (gid k now : Nat) (s : State) : s.w.Keeps (endAct gid k now s).w := by
  refine inOrder_keeps (fun f hf u => ?_) s
  simp only [List.cons_append, List.nil_append, List.mem_cons, List.not_mem_nil, or_false] at hf
  obtain rfl | rfl := hf
  · exact sealCycle_keeps ..
  · exact lookAhead_keeps ..
theorem sealCycle_idle {s : State} (h : (s.w.core k).seals = []) : State.sealCycle k false now s = only s.w := by
  unfold State.sealCycle
  rw [h]
  rfl
theorem lookAhead_idle {s : State} (h : ∀ f ∈ s.w.flights, nextParts f now = []) : (State.lookAhead gid now s).out = [] := by
  have hparts : ((s.w.flights.filter (fun f => f.mine gid false)).map
      (fun f => (nextParts f now).map (fun j => State.performId j f.id))).flatten = [] := by
    simp only [List.flatten_eq_nil_iff, List.mem_map, forall_exists_index, and_imp]
    rintro _ f hf rfl
    rw [h f (List.mem_filter.1 hf).1, List.map_nil]
  unfold State.lookAhead
  dsimp only
  rw [hparts]
  rfl
theorem endAct_idle {s : State} (hs : (s.w.core k).seals = []) (hf : ∀ f ∈ s.w.flights, nextParts f now = []) :
    (endAct gid k now s).out = [] := by
  have hahead : (State.lookAhead gid now (s.commit (only s.w))).out = [] := lookAhead_idle hf
  unfold endAct
  rw [List.cons_append, List.nil_append, State.inOrder, sealCycle_idle hs]
  simp only [State.inOrder, State.andThen, hahead, only_out, List.append_nil]
/-- The world as a cycle's books stand before TTC goes on. -/
def cycleBooks (d : State) (k now why : Nat) (w : World) : World := keepAccesses d false now (countTtc why w [k]) [k]
theorem cycleBooks_keeps (d : State) (k now why : Nat) (w : World) : w.Keeps (cycleBooks d k now why w) :=
  (keepAccesses_keeps ..).after (countTtc_keeps ..)
end
/-- In state `d`, as what falls due and the reads of cycle `now` leave it, and `e`, in which rows have been rebuilt, the gang's one member
is about to issue the bundle of plan `p`, whose one slot is no transfer; its meaning leads to `t`, and nothing stops the cycle. -/
structure LoneSlot (gid k now pos : Nat) (i : Instr) (p : Plan) (d e t : State) : Prop where
  members : (d.w.gang gid).members = [k]
  rebuilt : (rebuildMembers d false now d [k]).1 = e
  clear : (rebuildMembers d false now d [k]).2 = .clear
  noClassChange : (e.w.gang gid).domNext = []
  precheck : e.precheck k false now = none
  planned : d.plan k false now = some p
  plan : e.plan k false now = some p
  noRestart : p.b.hdr.rp = false
  slots : p.b.slots = [(pos, i)]
  noTransfer : pos ≠ 0
  reads : e.w.readsFaulty k pos false ((e.w.core k).ctx.readsNow i) = false
  runs : exec i (e.enter p pos) = .next t
  noAbort : t.w.abort = none

section
variable {s0 d e t : State} {p : Plan} {i : Instr} {pos k now gid : Nat}

theorem issueCycle_one (h : LoneSlot gid k now pos i p d e t) :
    issueCycle runInstr gid now s0 d =
      let a := endAct gid k now (t.withW (t.issued p))
      let v := cycleBooks d k now (e.w.gang gid).why a.w
      { w := flushAllCores now false (v.modGang gid (fun g => g.advance p.b.hdr.yp v.now)) [k], mem := t.mem.applyAll a.out } := by
  obtain ⟨hmem, he, hclear, hdom, hpre, hd, hplan, hrp, hslots, hpos, hreads, hexec, habort⟩ := h
  have htry := tryAll_clear hpre hplan hslots hreads hexec habort
  have hready : d.ready k false = true := (plan_some hd).1
  have hsup : p.sup = false := by rw [(plan_some hd).2]
  have hstore : pos = 14 → isStore i = false := by
    rintro rfl
    have hb : p.b = d.next k false := by rw [(plan_some hd).2]
    exact next_engine_not_store (s := d) (core := k) (sup := false) (by rw [← hb, hslots]; exact List.mem_singleton.2 rfl)
  have htimed : e.w.classTimed gid = e.w := by simp [World.classTimed, Gang.classLate, hdom]
  have hcapture : captureAll e (d.w.gang gid).scanBase [p] = e := by simp [captureAll, hrp]
  unfold issueCycle
  simp only [hmem, inIdOrder_singleton, he, hclear, Trial.orConsume, htry, List.filterMap_cons, hd, List.filterMap_nil,
    List.isEmpty_cons, Bool.false_eq_true, if_false, htimed]
  rw [show e.withW e.w = e from rfl, hcapture, perform_one hslots hpos hstore hexec]
  simp [hready, bubbles, endAct, cycleBooks, State.does, State.withW, State.commit]
end
section
variable {d e t : State} {p : Plan} {k now gid : Nat}

/-- What the end of such a cycle leaves: what the meaning has left of the member, its bundle in the window, issue fallen through, TTC
one further. -/
theorem cycle_end_effects (hslots : (p.b.slots.any fun x => x.1 == 0) = false) (hk : p.core = k) (hsup : p.sup = false)
    {w : World} {why : Nat} (hw : (t.issued p).Keeps w) :
    let v := cycleBooks d k now why w
    let u := flushAllCores now false (v.modGang gid (fun g => g.advance p.b.hdr.yp v.now)) [k]
    (u.gang gid).ttc = (t.w.gang gid).ttc + 1 ∧ (u.core k).pend = (t.w.core k).pend ∧
      (u.core k).win = (p.b.hdr.dw :: (t.w.core k).win).take 7 ∧
      (u.core k).ctx = { (t.w.core k).ctx with
        seq := fallSeq t.mem (t.w.core k) k false p.pc p.nxt, evc := (u.core k).ctx.evc, evcsel := (u.core k).ctx.evcsel } := by
  intro v u
  have hv : (t.issued p).Keeps v := hw.trans (cycleBooks_keeps ..)
  have hu : (v.modGang gid (fun g => g.advance p.b.hdr.yp v.now)).Keeps u := flushAllCores_keeps ..
  obtain ⟨hpend, -, hwin, hctx⟩ := issued_core (t := t) hslots hk hsup
  obtain ⟨hpend', hwin', -, hctx'⟩ := (hv.core k).trans (hu.core k)
  refine ⟨?_, hpend'.trans hpend, hwin'.trans hwin, by rw [hctx', hctx]⟩
  rw [hu.ttc, gang_modGang_same, advance_ttc, hv.ttc, issued_gangs hslots]

end
section
variable {s0 d e t : State} {p : Plan} {i : Instr} {pos k now gid : Nat}

theorem issueCycle_one_effects (h : LoneSlot gid k now pos i p d e t) :
    let u := issueCycle runInstr gid now s0 d
    ((t.w.core k).seals = [] → (∀ f ∈ t.w.flights, nextParts f now = []) → u.mem = t.mem) ∧
      (u.w.gang gid).ttc = (t.w.gang gid).ttc + 1 ∧ (u.w.core k).pend = (t.w.core k).pend ∧
      (u.w.core k).win = (p.b.hdr.dw :: (t.w.core k).win).take 7 ∧
      (u.w.core k).ctx = { (t.w.core k).ctx with
        seq := fallSeq t.mem (t.w.core k) k false p.pc p.nxt, evc := (u.w.core k).ctx.evc, evcsel := (u.w.core k).ctx.evcsel } := by
  have hno0 : (p.b.slots.any fun x => x.1 == 0) = false := by simp [h.slots, h.noTransfer]
  have hcore : p.core = k ∧ p.sup = false := by rw [(plan_some h.plan).2]; exact ⟨rfl, rfl⟩
  rw [issueCycle_one h]
  refine ⟨fun hseals hparts => ?_, cycle_end_effects hno0 hcore.1 hcore.2 (endAct_keeps gid k now (t.withW (t.issued p)))⟩
  have hout : (endAct gid k now (t.withW (t.issued p))).out = [] := by
    refine endAct_idle ((issued_core hno0 hcore.1 hcore.2).2.1.trans hseals) ?_
    rwa [show (t.withW (t.issued p)).w.flights = t.w.flights from issued_flights hno0]
  dsimp only
  rw [hout, applyAll_nil]

end
section
variable {s : State} {gid k : Nat}

/-- The state in which a gang's cycle starts: its clock has been chosen and its next cycle's time set. -/
theorem gangCycle_running {b : State} (hs : (b.w.gang gid).stat = .running) :
    gangCycle runInstr gid b = runningCycle runInstr gid
      (b.withWorld ((b.w.reclock gid).modGang gid (fun g => { g with nextAt := b.w.now + g.period }))) := by
  have hstat : ((((b.w.reclock gid).modGang gid (fun g => { g with nextAt := b.w.now + g.period })).gang gid).stat) = .running := by
    rw [gang_modGang_same, World.reclock, gang_modGang_same, ← hs]
  unfold gangCycle
  dsimp only
  split
  · rfl
  · next h => cases hstat.symm.trans h
  · next h _ => exact absurd hstat h
theorem runningCycle_issues {c : State} {ms : List Nat} {now : Nat} (hm : (c.w.gang gid).members = ms) (hn : (c.w.gang gid).ttc = now)
    (hev : let due := c.commit (State.fallDue gid false ms now c)
      ((due.commit (State.sourceReads gid ms now due)).w.gang gid).nextEvent = none)
    (hend : ((c.commit (State.fallDue gid false ms now c)).w.gang gid).stat ≠ .ended) :
    runningCycle runInstr gid c =
      let due := c.commit (State.fallDue gid false ms now c)
      issueCycle runInstr gid now due (due.commit (State.sourceReads gid ms now due)) := by
  subst hm hn
  unfold runningCycle
  simp only [State.does]
  rw [hev]
  exact if_neg (by simpa using hend)
end

/-- Settles O60, by the rules of a step, of a cycle that issues, and of what a cycle with one slot does. -/
theorem stepRunsTheDecoded : Obligations.StepRunsTheDecoded := by
  intro s t i rest gid k pos p a b c now due d e
  refine ⟨fun hscript hev hexec => ?_, ?_⟩
  · rw [step_goesOn, turn_script hscript, takeTurn_event hev]
    exact congrArg _ (runInstr_of_exec hexec)
  · intro hscript hruns hstat hmem hnext hend hdmem hdom hclear hpre hd hplan hrp hslots hpos hreads hexec habort
    have htill : Aside a.w b.w := till_aside ..
    have hbstat : (b.w.gang gid).stat = .running := by rw [htill.gang, hstat]
    have hcmem : (c.w.gang gid).members = [k] := by
      show (World.gang (World.modGang _ _ _) gid).members = _
      rw [gang_modGang_same, World.reclock, gang_modGang_same]
      show (b.w.gang gid).members = _
      rw [htill.gang, hmem]
    have hcycle : takeTurn runInstr (.cycle gid) a = issueCycle runInstr gid now due d := by
      have hrun : takeTurn runInstr (.cycle gid) a = gangCycle runInstr gid b := if_pos hruns
      rw [hrun, gangCycle_running hbstat]
      exact runningCycle_issues hcmem rfl hnext hend
    obtain ⟨hmem', httc, hpend, hwin, hctx⟩ := issueCycle_one_effects (s0 := due)
      ⟨hdmem, rfl, hclear, hdom, hpre, hd, hplan, hrp, hslots, hpos, hreads, hexec, habort⟩
    have hstep : step s = .next (issueCycle runInstr gid now due d) := by
      rw [step_goesOn, turn_script hscript]
      exact congrArg _ hcycle
    generalize issueCycle runInstr gid now due d = u at *
    refine ⟨u, hstep, hmem', httc, hpend, ?_, ?_, ?_, ?_, ?_, ?_, ?_, hwin, ?_⟩
    all_goals rw [hctx]
    rfl

end Sys2Proof.Machine
end

/-! SUPPORT. What some writes leave of a memory, and what a saved stretch gives back. -/
section
namespace Sys2Proof.Machine
open Sys2Proof

/-! ## Memory: what some writes leave and what a saved stretch gives back (R270) -/

/-- The memory that a write goes to. -/
def MemW.space : MemW → Space
  | .bytes sp _ _ => sp
  | .clear sp _ _ => sp
theorem apply_cells_other {sp : Space} {x : MemW} (h : x.space ≠ sp) (m : Mems) : (m.apply x).cells sp = m.cells sp := by
  cases x <;> exact cells_setCells_other (Ne.symm h) ..
/-- Writes to other memories leave a memory as it is. -/
theorem applyAll_cells_other {sp : Space} {l : List MemW} (h : ∀ x ∈ l, x.space ≠ sp) (m : Mems) :
    (m.applyAll l).cells sp = m.cells sp := by
  induction l generalizing m with
  | nil => rfl
  | cons x r ih =>
    rw [applyAll_cons, ih (fun y hy => h y (List.mem_cons_of_mem _ hy)), apply_cells_other (h x List.mem_cons_self)]
theorem applyAll_byte_other {sp : Space} {l : List MemW} (h : ∀ x ∈ l, x.space ≠ sp) (m : Mems) (a : Nat) :
    (m.applyAll l).byte sp a = m.byte sp a := by
  simp only [Mems.byte, applyAll_cells_other h]
theorem inOrder_out {Q : MemW → Prop} {l : List (State → Act)} (hl : ∀ f ∈ l, ∀ s : State, ∀ x ∈ (f s).out, Q x) (s : State) :
    ∀ x ∈ (s.inOrder l).out, Q x := by
  induction l generalizing s with
  | nil => intro x hx; cases hx
  | cons f r ih =>
    intro x hx
    rcases List.mem_append.1 hx with hx | hx
    · exact hl f (by simp) s x hx
    · exact ih (fun g hg => hl g (by simp [hg])) _ x hx
theorem commit_inOrder_append (s : State) (a b : List (State → Act)) :
    s.commit (s.inOrder (a ++ b)) = (s.commit (s.inOrder a)).commit ((s.commit (s.inOrder a)).inOrder b) := by
  induction a generalizing s with
  | nil => rfl
  | cons f r ih =>
    have hcons (l : List (State → Act)) : s.commit (s.inOrder (f :: l)) = (s.commit (f s)).commit ((s.commit (f s)).inOrder l) := by
      simp only [State.inOrder, State.andThen, State.commit, applyAll_append]
    rw [List.cons_append, hcons, hcons, ih]

theorem byte_single_same (m : Mems) (sp : Space) (a : Nat) (b : Byte) : (m.apply (.bytes sp a [b])).byte sp a = b := by
  simp only [Mems.apply, Mems.byte, cells_setCells_same]
  exact cellAt_writeBytes_in (i := 0) (bs := [b]) (by simp)
theorem byte_single_other (m : Mems) (sp : Space) {a x : Nat} (b : Byte) (h : x ≠ a) :
    (m.apply (.bytes sp a [b])).byte sp x = m.byte sp x := by
  simp only [Mems.apply, Mems.byte, cells_setCells_same]
  exact cellAt_writeBytes_out (by simp only [List.length_singleton]; omega)
theorem cellAt_absent {m : List Host.Cell} {a : Nat} (h : ∀ e ∈ m, e.1 ≠ a) : cellAt m a = 0 :=
  cellAt_append_left (x := []) h
theorem byte_cleared (m : Mems) (sp : Space) {a n x : Nat} (h : a ≤ x ∧ x < a + n) : (m.apply (.clear sp a n)).byte sp x = 0 := by
  simp only [Mems.apply, Mems.byte, cells_setCells_same, clearBytes]
  refine cellAt_absent fun e he => ?_
  simp only [List.mem_append, List.mem_filter, decide_eq_true_eq] at he
  omega
theorem canonFrom_le {lo : Nat} {l : List Host.Cell} (h : canonFrom lo l = true) : ∀ e ∈ l, lo ≤ e.1 := by
  induction l generalizing lo with
  | nil => intro e he; cases he
  | cons c r ih =>
    simp only [canonFrom, Bool.and_eq_true, decide_eq_true_eq] at h
    intro e he
    rcases List.mem_cons.1 he with rfl | he
    · exact h.1.1
    · have := ih h.2 e he
      omega
theorem byte_cellWrites_other {sp : Space} {l : List Host.Cell} {x : Nat} (h : ∀ e ∈ l, e.1 ≠ x) (m : Mems) :
    (m.applyAll (cellWrites sp l)).byte sp x = m.byte sp x := by
  induction l generalizing m with
  | nil => rfl
  | cons e r ih =>
    have hx : x ≠ e.1 := (h e List.mem_cons_self).symm
    exact (ih (fun y hy => h y (List.mem_cons_of_mem _ hy)) _).trans (byte_single_other m sp e.2 hx)
/-- Where the memory is zero, the cells of a canonical memory read as they stand in it. -/
theorem byte_cellWrites {sp : Space} {l : List Host.Cell} {lo x : Nat} (hl : canonFrom lo l = true) (m : Mems)
    (hx : m.byte sp x = 0) : (m.applyAll (cellWrites sp l)).byte sp x = cellAt l x := by
  induction l generalizing lo m with
  | nil => exact hx
  | cons e r ih =>
    simp only [canonFrom, Bool.and_eq_true, decide_eq_true_eq] at hl
    obtain ⟨-, hr⟩ := hl
    show ((m.apply (.bytes sp e.1 [e.2])).applyAll (cellWrites sp r)).byte sp x = _
    by_cases he : e.1 = x
    · subst he
      rw [byte_cellWrites_other (fun y hy => by have := canonFrom_le hr y hy; omega), byte_single_same]
      simp [cellAt]
    · rw [ih hr _ (by rw [byte_single_other _ _ _ (Ne.symm he), hx])]
      simp [cellAt, he]
/-- A stretch cleared and filled again with saved cells reads as they do. -/
theorem byte_refilled {sp : Space} {l : List Host.Cell} (hl : canon l = true) (m : Mems) {a n x : Nat} (hx : a ≤ x ∧ x < a + n) :
    (m.applyAll (.clear sp a n :: cellWrites sp l)).byte sp x = cellAt l x :=
  byte_cellWrites hl _ (byte_cleared m sp hx)
end Sys2Proof.Machine
end

/-! SUPPORT. Restart gaps and debug halts. -/
section
namespace Sys2Proof.Machine
open Sys2Proof

/-! ## The restart gap (R78, R128) -/

/-- A core after a restart gap: beside its window and its event counters nothing has changed, and the counters of another source
stand as they did. -/
structure Gapped (c d : Core) : Prop where
  frame : gapOnly d c
  counters : ∀ j, fget c.ctx.evcsel 0 j % 64 ≠ 0x0B →
    fget d.ctx.evc 0 j = fget c.ctx.evc 0 j ∧ fget d.ctx.evcsel 0 j = fget c.ctx.evcsel 0 j
namespace Gapped
theorem refl (c : Core) : Gapped c c := ⟨rfl, fun _ _ => ⟨rfl, rfl⟩⟩
theorem trans {a b c : Core} (h : Gapped a b) (k : Gapped b c) : Gapped a c := by
  refine ⟨gapOnly_trans k.frame h.frame, fun j hj => ?_⟩
  obtain ⟨h1, h2⟩ := h.counters j hj
  obtain ⟨k1, k2⟩ := k.counters j (by rwa [h2])
  exact ⟨k1.trans h1, k2.trans h2⟩
theorem ctx {c d : Core} (h : Gapped c d) : d.ctx = { c.ctx with evc := d.ctx.evc, evcsel := d.ctx.evcsel } :=
  (congrArg Core.ctx h.frame).symm
theorem eq {c d : Core} (h : Gapped c d) : d = { c with ctx := d.ctx, win := d.win } := by
  have hc := h.ctx
  have hf : { c with win := d.win, ctx := { c.ctx with evc := d.ctx.evc, evcsel := d.ctx.evcsel } } = d := h.frame
  rw [← hc] at hf
  exact hf.symm
end Gapped
/-- An event of a source leaves a counter that counts another one as it is. -/
theorem bump_counter_other {c : CoreCtx} {src j : Nat} (h : fget c.evcsel 0 j % 64 ≠ src) (n i : Nat) :
    fget (c.bump src n i).evc 0 j = fget c.evc 0 j ∧ fget (c.bump src n i).evcsel 0 j = fget c.evcsel 0 j := by
  unfold CoreCtx.bump
  dsimp only
  split
  · next hsel =>
    have hij : j ≠ i := by
      rintro rfl
      simp [field] at hsel
      exact h hsel.1.1
    split
    · exact ⟨fget_fput_other _ _ _ _ _ hij, fget_fput_other _ _ _ _ _ hij⟩
    · exact ⟨fget_fput_other _ _ _ _ _ hij, rfl⟩
  · exact ⟨rfl, rfl⟩
theorem bumpAll_counter_other {src j : Nat} (n : Nat) (l : List Nat) (c : CoreCtx) (h : fget c.evcsel 0 j % 64 ≠ src) :
    fget (bumpAll c src n l).evc 0 j = fget c.evc 0 j ∧ fget (bumpAll c src n l).evcsel 0 j = fget c.evcsel 0 j := by
  induction l generalizing c with
  | nil => exact ⟨rfl, rfl⟩
  | cons i r ih =>
    obtain ⟨h1, h2⟩ := bump_counter_other h n i
    obtain ⟨k1, k2⟩ := ih (c.bump src n i) (by rwa [h2])
    exact ⟨k1.trans h1, k2.trans h2⟩
theorem gapCore_gapped (w : World) (k j : Nat) :
    Gapped (w.core j) (((w.countNow k 0x0B 1).modCore k (fun c => { c with win := [] })).core j) := by
  rcases eq_or_ne j k with rfl | h
  · rw [core_modCore_same, World.countNow, World.modCtx, core_modCore_same]
    refine ⟨?_, fun i hi => bumpAll_counter_other 1 (List.range 8) (w.core j).ctx hi⟩
    unfold gapOnly
    dsimp only
    rw [bumpAll_frame]
  · rw [core_modCore_other _ _ _ _ h, World.countNow, World.modCtx, core_modCore_other _ _ _ _ h]
    exact .refl _
theorem restartGap_core (w : World) (gid j : Nat) : Gapped (w.core j) ((w.restartGap gid).core j) := by
  suffices h : ∀ (l : List Nat) (v : World), Gapped (v.core j)
      ((l.foldl (fun a k => (a.countNow k 0x0B 1).modCore k (fun c => { c with win := [] })) v).core j) from
    h (w.gang gid).members ((w.reclock gid).modGang gid (fun g => g.gap w.now))
  intro l
  induction l with
  | nil => exact fun v => .refl _
  | cons k r ih => exact fun v => (gapCore_gapped v k j).trans (ih _)
theorem restartGap_gangs (w : World) (gid : Nat) :
    (w.restartGap gid).gangs = ((w.reclock gid).modGang gid (fun g => g.gap w.now)).gangs := (gapFold _ _).1
theorem restartGap_gang_other (w : World) {gid j : Nat} (h : j ≠ gid) : (w.restartGap gid).gang j = w.gang j := by
  rw [World.gang, restartGap_gangs]
  exact (gang_modGang_other _ _ _ _ h).trans (gang_modGang_other _ _ _ _ h)
/-- The gang's clock is chosen anew, and eight of its cycles pass before the next. -/
theorem restartGap_gang (w : World) (gid : Nat) :
    let v := (w.restartGap gid).gang gid
    v = { w.gang gid with khz := v.khz, why := v.why, stretch := v.stretch,
                          nextAt := max (w.gang gid).nextAt w.now + 8 * v.period } := by
  have hv : (w.restartGap gid).gang gid = ((w.reclock gid).gang gid).gap w.now := by
    rw [World.gang, restartGap_gangs]
    exact gang_modGang_same ..
  rw [hv, World.reclock, gang_modGang_same]
  rfl
theorem restartGap_dies (w : World) (gid : Nat) : (w.restartGap gid).dies = w.dies := (restartGap_frame w gid).2.2.2.1
theorem restartGap_hub (w : World) (gid : Nat) : (w.restartGap gid).hub = w.hub := (restartGap_frame w gid).2.2.2.2.1
theorem restartGap_flights (w : World) (gid : Nat) : (w.restartGap gid).flights = w.flights := (restartGap_frame w gid).2.2.2.2.2.1

/-! ## Debug halts (R274, R357, R360) -/

section
variable {s : State} {gid : Nat} {f : World → Nat → World}

theorem debugAct_heard (hm : s.w.hub.mailOpen = true) (sc : DbgScope) : debugAct f 0 sc s = eachGang f s.w (s.w.inScope sc) :=
  if_pos (by simp [hm])
theorem inScope_gang_live (h : (s.w.gang gid).live = true) : s.w.inScope (.gang gid) = [gid] := by
  simp [World.inScope, h]
theorem debugAct_gang (hm : s.w.hub.mailOpen = true) (h : (s.w.gang gid).live = true) : debugAct f 0 (.gang gid) s = f s.w gid := by
  rw [debugAct_heard hm, inScope_gang_live h]
  rfl
theorem debugHalt_gang (hm : s.w.hub.mailOpen = true) (hl : (s.w.gang gid).live = true) (hd : (s.w.gang gid).dbg = false) :
    ∃ u : State, exec (.debugHalt ⟨0, .gang gid⟩) s = .next u ∧ u.mem = s.mem ∧
      u.w.gang gid = { s.w.gang gid with dbg := true, dbgSince := s.w.now } ∧ (∀ j, j ≠ gid → u.w.gang j = s.w.gang j) ∧
      ∀ j, u.w.core j = s.w.core j := by
  have hact : debugAct World.halt 0 (.gang gid) s = s.w.modGang gid (fun g => { g with dbg := true, dbgSince := s.w.now }) := by
    rw [debugAct_gang hm hl]
    exact if_neg (by simp [hd])
  exact ⟨_, done_only_eq hact, rfl, gang_modGang_same .., fun j hj => gang_modGang_other _ _ _ _ hj, fun _ => rfl⟩
theorem halt_cores (w : World) (g : Nat) : (w.halt g).cores = w.cores := by
  unfold World.halt
  split <;> rfl
/-- A halt leaves a gang's TTC, and a gang that is halted stays so. -/
theorem halt_gang (w : World) (g j : Nat) : ((w.halt g).gang j).ttc = (w.gang j).ttc ∧
    ((w.gang j).dbg = true ∨ j = g → ((w.halt g).gang j).dbg = true) := by
  unfold World.halt
  split
  · next hd =>
    refine ⟨rfl, fun h => ?_⟩
    rcases h with h | rfl
    · exact h
    · exact hd
  · rcases eq_or_ne j g with rfl | hj
    · rw [gang_modGang_same]
      exact ⟨rfl, fun _ => rfl⟩
    · rw [gang_modGang_other _ _ _ _ hj]
      exact ⟨rfl, fun h => h.resolve_right hj⟩
theorem eachGang_halt (l : List Nat) (w : World) (j : Nat) : (eachGang World.halt w l).cores = w.cores ∧
    ((eachGang World.halt w l).gang j).ttc = (w.gang j).ttc ∧
    ((w.gang j).dbg = true ∨ j ∈ l → ((eachGang World.halt w l).gang j).dbg = true) := by
  induction l generalizing w with
  | nil => exact ⟨rfl, rfl, fun h => h.resolve_right (by simp)⟩
  | cons g r ih =>
    obtain ⟨hc, ht, hd⟩ := ih (w.halt g)
    obtain ⟨ht', hd'⟩ := halt_gang w g j
    refine ⟨hc.trans (halt_cores w g), ht.trans ht', fun h => hd ?_⟩
    rw [List.mem_cons, ← or_assoc] at h
    exact h.imp_left hd'
/-- A gang that runs is one of the live gangs. -/
theorem mem_liveGangs {w : World} {g : Nat} (h : (w.gang g).live = true) : g ∈ w.liveGangs := by
  have key (m : FMap Gang) (h : (fget m Gang.zero g).live = true) : g ∈ (m.filter (fun e => e.2.live)).map (·.1) := by
    induction m with
    | nil => cases h
    | cons e r ih =>
      rw [fget_cons] at h
      by_cases he : e.1 = g
      · rw [if_pos (by simpa using he)] at h
        simp [h, he]
      · rw [if_neg (by simpa using he)] at h
        have hr := ih h
        simp only [List.mem_map, List.mem_filter] at hr ⊢
        obtain ⟨x, ⟨hx, hl⟩, hg⟩ := hr
        exact ⟨x, ⟨List.mem_cons_of_mem _ hx, hl⟩, hg⟩
  exact key _ h
theorem debugHalt_die {d k : Nat} (hm : s.w.hub.mailOpen = true) (hl : (s.w.gang gid).live = true)
    (hk : k ∈ (s.w.gang gid).members) (hd : k / 8 = d) :
    ∃ u : State, exec (.debugHalt ⟨0, .die d⟩) s = .next u ∧ u.mem = s.mem ∧ (u.w.gang gid).dbg = true ∧
      (u.w.gang gid).ttc = (s.w.gang gid).ttc ∧ ∀ j, u.w.core j = s.w.core j := by
  have hin : gid ∈ s.w.inScope (.die d) :=
    List.mem_filter.2 ⟨mem_liveGangs hl, List.any_eq_true.2 ⟨k, hk, by simpa [dieOf] using hd⟩⟩
  obtain ⟨hc, ht, hg⟩ := eachGang_halt (s.w.inScope (.die d)) s.w gid
  exact ⟨_, done_only_eq (debugAct_heard hm _), rfl, hg (.inr hin), ht, fun j => by simp only [World.core, hc]⟩
theorem debugRelease_gang (hm : s.w.hub.mailOpen = true) (hl : (s.w.gang gid).live = true) (hd : (s.w.gang gid).dbg = true) :
    ∃ u : State, exec (.debugRelease ⟨0, .gang gid⟩) s = .next u ∧ u.mem = s.mem ∧
      (u.w.gang gid).dbg = false ∧ (u.w.gang gid).ttc = (s.w.gang gid).ttc ∧
      (u.w.gang gid).nextAt = max (s.w.gang gid).nextAt s.w.now + 8 * (u.w.gang gid).period ∧
      fget (u.w.gang gid).thr 0 6 =
        fget (s.w.gang gid).thr 0 6 + (s.w.now - (s.w.gang gid).dbgSince) * (s.w.gang gid).khz / 10 ^ 12 ∧
      (∀ j, j ≠ gid → u.w.gang j = s.w.gang j) ∧
      ∀ j, (u.w.core j).ctx = { (s.w.core j).ctx with evc := (u.w.core j).ctx.evc, evcsel := (u.w.core j).ctx.evcsel } := by
  have hact : debugAct World.unhalt 0 (.gang gid) s = (s.w.modGang gid (fun g => g.endHalt s.w.now)).restartGap gid := by
    rw [debugAct_gang hm hl]
    exact if_pos hd
  have hend : (s.w.gang gid).endHalt s.w.now = { s.w.gang gid with
      dbg := false, thr := fput (s.w.gang gid).thr 6 (fget (s.w.gang gid).thr 0 6 +
        (s.w.gang gid).cyclesIn (s.w.now - (s.w.gang gid).dbgSince)) } := if_pos hd
  have hgap := restartGap_gang (s.w.modGang gid (fun g => g.endHalt s.w.now)) gid
  have hother (j : Nat) (hj : j ≠ gid) := restartGap_gang_other (s.w.modGang gid (fun g => g.endHalt s.w.now)) hj
  have hcore := restartGap_core (s.w.modGang gid (fun g => g.endHalt s.w.now)) gid
  rw [gang_modGang_same, hend] at hgap
  refine ⟨_, done_only_eq hact, rfl, ?_⟩
  generalize (s.w.modGang gid (fun g => g.endHalt s.w.now)).restartGap gid = v at *
  refine ⟨by rw [hgap], by rw [hgap], by rw [hgap]; rfl, ?_, fun j hj => ?_, fun j => (hcore j).ctx⟩
  · rw [hgap]
    exact fget_fput_same ..
  · rw [hother j hj, gang_modGang_other _ _ _ _ hj]
theorem debugHalt_dead (hm : s.w.hub.mailOpen = true) (hl : (s.w.gang gid).live = false) :
    exec (.debugHalt ⟨0, .gang gid⟩) s = .next s := by
  have hact : debugAct World.halt 0 (.gang gid) s = s.w := by
    rw [debugAct_heard hm, show s.w.inScope (.gang gid) = [] by simp [World.inScope, hl]]
    rfl
  exact done_only_eq hact
/-- A debug request of another tenant, or before the mailbox is open, is answered with an error. -/
theorem debug_refused {n : Nat} (h : n ≠ 0 ∨ s.w.hub.mailOpen = false) (sc : DbgScope) :
    ∀ i ∈ [Instr.debugHalt ⟨n, sc⟩, .debugRelease ⟨n, sc⟩], ∃ u : State, exec i s = .next u ∧ u.mem = s.mem ∧
      u.w.gangs = s.w.gangs ∧ u.w.cores = s.w.cores ∧ u.w.hub.out = s.w.hub.out ++ [.error] := by
  have hact (f : World → Nat → World) : debugAct f n sc s = s.w.answer .error := if_neg (by
    rcases h with h | h <;> simp [h])
  simp only [List.forall_mem_cons, List.not_mem_nil, false_imp_iff, implies_true, and_true]
  exact ⟨⟨_, done_only_eq (hact _), rfl, rfl, rfl, rfl⟩, ⟨_, done_only_eq (hact _), rfl, rfl, rfl, rfl⟩⟩
end
end Sys2Proof.Machine
end

/-! SUPPORT. A gang with a request, and one that stops. -/
section
namespace Sys2Proof.Machine
open Sys2Proof

/-! ## Requests (R269) -/

section
variable {s : State} {t : Task} {gid : Nat}

theorem preemptRequest_reaches (h : s.w.taskOfGang gid = some t) (hs : t.save ≠ 0) (hl : (s.w.gang gid).live = true) :
    ∃ u : State, exec (.preemptRequest gid) s = .next u ∧ u.mem = s.mem ∧
      u.w.gang gid = { s.w.gang gid with preempt := true } ∧ (∀ j, j ≠ gid → u.w.gang j = s.w.gang j) ∧
      ∀ j, u.w.core j = s.w.core j := by
  have hact : preemptAct gid s = s.w.modGang gid (fun g => { g with preempt := true }) := by
    unfold preemptAct
    rw [h]
    exact if_pos (by simp [hs, hl])
  exact ⟨_, done_only_eq hact, rfl, gang_modGang_same .., fun j hj => gang_modGang_other _ _ _ _ hj, fun _ => rfl⟩

/-! ## Writing to the save area (R202, R204, R270) -/

/-- Of the cores, the gangs and the tasks nothing changes. -/
structure TaskAside (w v : World) : Prop where
  aside : Aside w v
  tasks : v.hub.tasks = w.hub.tasks
namespace TaskAside
theorem refl (w : World) : TaskAside w w := ⟨.refl w, rfl⟩
theorem trans {u v w : World} (h : TaskAside u v) (k : TaskAside v w) : TaskAside u w :=
  ⟨h.aside.trans k.aside, k.tasks.trans h.tasks⟩
end TaskAside
theorem glbWrite_tasks (s : State) (w : World) (pa : Nat) (bs : List Byte) : (s.glbWrite w pa bs).w.hub.tasks = w.hub.tasks := rfl
/-- A granule that is written is counted at its home and goes to global memory alone. -/
theorem writeGranules_frame {rs : List Rle} {l : List (Nat × Nat)} (bs : List Byte) : ∀ f ∈ writeGranules rs bs l, ∀ s : State,
    TaskAside s.w (f s).w ∧ ∀ x ∈ (f s).out, x.space = .glb := by
  induction l generalizing bs with
  | nil => intro f hf; cases hf
  | cons x r ih =>
    intro f hf s
    rcases List.mem_cons.1 hf with rfl | hf
    · dsimp only
      split
      · next e _ =>
        split
        · have hc := arrived_counted s.w e.ten (homeOf s.w.hub e.place e.home (e.pa x.1)) (blockCount (e.pa x.1) x.2)
          exact ⟨⟨⟨hc.cores, hc.gangs⟩, (glbWrite_tasks ..).trans (congrArg Hub.tasks hc.hub)⟩, by simp [MemW.space]⟩
        · exact ⟨.refl _, by simp⟩
      · exact ⟨.refl _, by simp⟩
    · exact ih _ f hf s
theorem writeRuns_frame (rs : List Rle) (va : Nat) (bs : List Byte) (s : State) :
    TaskAside s.w (State.writeRuns rs va bs s).w ∧ ∀ x ∈ (State.writeRuns rs va bs s).out, x.space = .glb :=
  ⟨inOrder_rel .refl .trans (fun f hf s => (writeGranules_frame bs f hf s).1) s,
    inOrder_out (fun f hf s => (writeGranules_frame bs f hf s).2) s⟩
theorem writeParts_frame (rs : List Rle) (parts : List (Nat × List Byte)) (s : State) :
    let a := s.inOrder (parts.map (fun x => State.writeRuns rs x.1 x.2))
    TaskAside s.w a.w ∧ ∀ x ∈ a.out, x.space = .glb := by
  have hpart (f : State → Act) (hf : f ∈ parts.map (fun x => State.writeRuns rs x.1 x.2)) (s : State) :
      TaskAside s.w (f s).w ∧ ∀ x ∈ (f s).out, x.space = .glb := by
    obtain ⟨x, -, rfl⟩ := List.mem_map.1 hf
    exact writeRuns_frame rs x.1 x.2 s
  exact ⟨inOrder_rel .refl .trans (fun f hf s => (hpart f hf s).1) s, inOrder_out (fun f hf s => (hpart f hf s).2) s⟩

/-! ## A gang that stops (R262, R270) -/

/-- The cycles of a hold are counted on the members, and nothing else changes. -/
theorem countHeld_frame (w : World) (gid : Nat) : (w.countHeld gid).gangs = w.gangs ∧ (w.countHeld gid).hub = w.hub ∧
    ∀ j, ((w.countHeld gid).core j).gang = (w.core j).gang := by
  have fold (n : Nat) (l : List Nat) (v : World) : let x := l.foldl (fun a k => a.countNow k 0x07 n) v
      x.gangs = v.gangs ∧ x.hub = v.hub ∧ ∀ j, (x.core j).gang = (v.core j).gang := by
    induction l generalizing v with
    | nil => exact ⟨rfl, rfl, fun _ => rfl⟩
    | cons k r ih =>
      obtain ⟨h1, h2, h3⟩ := ih (v.countNow k 0x07 n)
      refine ⟨h1, h2, fun j => (h3 j).trans ?_⟩
      rw [World.countNow, World.modCtx]
      rcases eq_or_ne j k with rfl | h
      · rw [core_modCore_same]
      · rw [core_modCore_other _ _ _ _ h]
  unfold World.countHeld
  dsimp only
  split
  · exact fold _ _ _
  · exact ⟨rfl, rfl, fun _ => rfl⟩
theorem dieAll_frame (f : Nat → Die → Die) (l : List Nat) (w : World) : dieAll f w l = { w with dies := (dieAll f w l).dies } := by
  induction l generalizing w with
  | nil => rfl
  | cons d r ih => rw [dieAll, ih]; rfl
/-- The cores of a gang are free, other cores stay as they are. -/
theorem freeCores_gang (gid : Nat) (l : List Nat) (w : World) (k : Nat) : ((freeCores gid w l).core k).gang =
    if k ∈ l ∧ (w.core k).gang = some gid then none else (w.core k).gang := by
  induction l generalizing w with
  | nil => simp [freeCores]
  | cons j r ih =>
    by_cases hj : (w.core j).gang = some gid
    · have hstep : freeCores gid w (j :: r) = freeCores gid (w.modCore j (fun c => { c with gang := none, groups := [] })) r := by
        rw [freeCores, if_pos (by simpa using hj)]
      rw [hstep, ih]
      rcases eq_or_ne k j with rfl | hk
      · simp [hj]
      · simp [core_modCore_other _ _ _ _ hk, hk]
    · have hstep : freeCores gid w (j :: r) = freeCores gid w r := by
        rw [freeCores, if_neg (by simpa using hj)]
      rw [hstep, ih]
      rcases eq_or_ne k j with rfl | hk
      · simp [hj]
      · simp [hk]
theorem freeCores_frame (gid : Nat) (l : List Nat) (w : World) : freeCores gid w l = { w with cores := (freeCores gid w l).cores } := by
  induction l generalizing w with
  | nil => rfl
  | cons k r ih =>
    rw [freeCores, ih]
    split <;> rfl
theorem stopped_gang (w : World) (t : Task) (v : Saved) : ((w.stopped t v).gang t.gid).live = false := by
  unfold World.stopped World.setTask World.modTask
  dsimp only
  rw [modHub_gang, gang_modGang_same]
theorem stopped_core {w : World} {t : Task} {v : Saved} {k : Nat} (hk : k ∈ t.cores) (hg : (w.core k).gang = some t.gid) :
    ((w.stopped t v).core k).gang = none := by
  have hfree := freeCores_gang t.gid t.cores
    (dieAll (fun _ d => if d.arrayGang == some t.gid then d.freshArray none else d) w (List.range 8)) k
  have hcore : (dieAll (fun _ d => if d.arrayGang == some t.gid then d.freshArray none else d) w (List.range 8)).core k = w.core k := by
    rw [dieAll_frame]
    rfl
  rw [hcore, if_pos ⟨hk, hg⟩] at hfree
  exact hfree
theorem mem_stopped {w : World} {t : Task} {v : Saved} (h : t ∈ w.hub.tasks) :
    { t with stage := .saved, preempts := t.preempts + 1, saved := some v } ∈ (w.stopped t v).hub.tasks := by
  refine mem_setTask (t := t) ?_ rfl
  show t ∈ (freeCores _ _ _).hub.tasks
  rw [freeCores_frame, dieAll_frame]
  exact h

theorem taskOfGang_spec (h : s.w.taskOfGang gid = some t) : t ∈ s.w.hub.tasks ∧ t.gid = gid := by
  have hp := List.find?_some h
  simp only [Bool.and_eq_true, beq_iff_eq] at hp
  exact ⟨List.mem_of_find?_eq_some h, hp.1.2⟩
/-- With nothing in flight, what the gang has been held is counted and its context goes to the save area. -/
theorem preemptStopAct_held {l : List (Nat × Wait)} {since : Nat} (h : s.w.taskOfGang gid = some t) (hl : (s.w.gang gid).live = true)
    (hp : (s.w.gang gid).preempt = true) (hd : (s.w.gang gid).dbg = false) (hs : (s.w.gang gid).stat = .held l since)
    (hf : ∀ f ∈ s.w.flights, f.gang ≠ gid) : s.commit (preemptStopAct gid s) =
      (s.withWorld (s.w.countHeld gid)).commit (State.stopTask t (s.withWorld (s.w.countHeld gid))) := by
  have hland : State.landAll gid s = only s.w := by
    have hnone : s.w.flights.filter (fun f => f.gang == gid) = [] := List.filter_eq_nil_iff.2 (by simpa using hf)
    unfold State.landAll
    rw [hnone]
    rfl
  have hact : preemptStopAct gid s = s.inOrder [State.landAll gid, fun u => only (u.w.countHeld gid), State.stopTask t] := by
    unfold preemptStopAct
    dsimp only
    rw [h]
    exact if_pos (by simp [hl, hp, hd, Gang.heldNow, hs])
  rw [hact]
  simp only [State.inOrder, State.andThen, hland, only_w, only_out, List.nil_append, commit_only]
  simp only [State.commit, List.append_nil, State.withWorld]
/-- The save area is written, and then what the gang ran on is free. -/
theorem stopTask_commit (q : State) (t : Task) : ∃ (r : State) (x : Saved), TaskAside q.w r.w ∧
    (∀ sp a, sp ≠ .glb → r.mem.byte sp a = q.mem.byte sp a) ∧ x = { q.capture t with crcs := x.crcs } ∧
    q.commit (State.stopTask t q) = r.withWorld { r.w.stopped t x with draws := r.w.draws + 1 } := by
  obtain ⟨haside, hout⟩ := writeParts_frame t.runs (q.saveParts t) q
  let r := q.commit (q.inOrder ((q.saveParts t).map fun x => State.writeRuns t.runs x.1 x.2))
  refine ⟨r, { q.capture t with crcs := r.partCrcs t }, haside,
    fun sp a hsp => applyAll_byte_other (fun x hx => by rw [hout x hx]; exact hsp.symm) _ _, rfl, ?_⟩
  rw [State.stopTask, commit_inOrder_append]
  exact commit_only ..
theorem preemptStop_saves {l : List (Nat × Wait)} {since : Nat} (h : s.w.taskOfGang gid = some t) (hl : (s.w.gang gid).live = true)
    (hp : (s.w.gang gid).preempt = true) (hd : (s.w.gang gid).dbg = false) (hs : (s.w.gang gid).stat = .held l since)
    (hf : ∀ f ∈ s.w.flights, f.gang ≠ gid) : ∃ (u : State) (y : Task), exec (.preemptStop gid) s = .next u ∧
      y ∈ u.w.hub.tasks ∧ y.order = t.order ∧ y.stage = .saved ∧ y.preempts = t.preempts + 1 ∧ (u.w.gang gid).live = false ∧
      (∀ k ∈ t.cores, (s.w.core k).gang = some gid → (u.w.core k).gang = none) ∧
      (∀ sp a, sp ≠ .glb → u.mem.byte sp a = s.mem.byte sp a) ∧
      ∃ x, y.saved = some x ∧ x.gang = s.w.gang gid ∧ x.cores = t.cores.map (fun k => (k, (s.w.countHeld gid).core k)) ∧
        x.spd = t.cores.map (fun k => (k, slice s.mem.spd (k * 2 ^ 21) (2 ^ 21))) ∧
        x.mortar = t.cores.map (fun k => (k, slice s.mem.mortar (k * 2 ^ 19) (2 ^ 19))) ∧
        x.isp = t.cores.map (fun k => (k, slice s.mem.isp (k * 2 ^ 18) (2 ^ 18))) := by
  obtain ⟨hmem, rfl⟩ := taskOfGang_spec h
  obtain ⟨hgangs, hhub, hcores⟩ := countHeld_frame s.w t.gid
  obtain ⟨r, x, ⟨haside, htasks⟩, hbyte, hx, hcommit⟩ := stopTask_commit (s.withWorld (s.w.countHeld t.gid)) t
  have hexec := (congrArg Host.Outcome.next ((preemptStopAct_held h hl hp hd hs hf).trans hcommit) :
    exec (.preemptStop t.gid) s = _)
  have hin : t ∈ r.w.hub.tasks := by
    rw [htasks]
    exact hhub ▸ hmem
  refine ⟨_, _, hexec, mem_stopped hin, rfl, rfl, rfl, stopped_gang r.w t x, fun k hk hg => ?_, hbyte, x, rfl, ?_⟩
  · refine stopped_core (v := x) hk ?_
    rw [haside.core]
    exact (hcores k).trans hg
  · rw [hx]
    exact ⟨congrArg (fget · Gang.zero t.gid) hgangs, rfl, by simp [State.capture, spdAt, State.withWorld],
      by simp [State.capture, mortarAt, State.withWorld], by simp [State.capture, ispAt, State.withWorld]⟩
end
end Sys2Proof.Machine
end

/-! SUPPORT. A saved core on the unit. -/
section
namespace Sys2Proof.Machine
open Sys2Proof

/-! ## A core takes its context back (R99, R180, R181, R223, R270) -/

/-- Of a saved context, its loops and its sequencer state follow the record. -/
theorem fromRecord_frame (c : CoreCtx) (bs : List Byte) :
    c.fromRecord bs = { c with loops := (c.fromRecord bs).loops, seq := (c.fromRecord bs).seq } := by
  unfold CoreCtx.fromRecord
  split <;> rfl
theorem fromRecord_same (c : CoreCtx) : c.fromRecord (seqRecord c) = c := if_pos (by simp)
/-- A record changed to a depth above 6 or more than 11 cycles owed is misdirected. -/
theorem fromRecord_bad {c : CoreCtx} {bs : List Byte} (h : bs ≠ seqRecord c)
    (hv : 6 < leNat (bs.take 16) / 2 ^ 16 % 8 ∨ 11 < leNat (bs.take 16) / 2 ^ 19 % 16) :
    (c.fromRecord bs).seq.bad = some (leNat (bs.take 16) % 2 ^ 16, leNat (bs.take 16) % 2 ^ 16) := by
  have hfield : field 15 0 (leNat (bs.take 16)) = leNat (bs.take 16) % 2 ^ 16 := by simp [field]
  unfold CoreCtx.fromRecord
  rw [if_neg (by simpa using h), ← hfield]
  have hdec : (decide (6 < field 18 16 (leNat (bs.take 16))) || decide (11 < field 22 19 (leNat (bs.take 16)))) = true := by
    rw [Bool.or_eq_true, decide_eq_true_eq, decide_eq_true_eq]
    exact hv
  exact if_pos hdec
theorem freshenAll_frame (c : Core) (l : List Nat) :
    c.freshenAll l = { c with stale := (c.freshenAll l).stale, staleQ := (c.freshenAll l).staleQ } := by
  induction l generalizing c with
  | nil => rfl
  | cons x r ih => rw [Core.freshenAll, ih]; rfl
/-- A core before its next bundle's target is looked at. -/
def Core.unchecked (phys saved : Core) : Core :=
  let x := phys.onto saved
  (x.freshenAll x.sealedBack).withLost
theorem unchecked_frame (phys saved : Core) : let d := phys.unchecked saved
    d = { phys.onto saved with stale := d.stale, staleQ := d.staleQ, poison := d.poison } := by
  dsimp only [Core.unchecked, Core.withLost]
  rw [freshenAll_frame]
/-- The check of the next bundle's target touches nothing but the mark of a misdirected bundle, and no mark that stands. -/
theorem restored_cases (phys saved : Core) : let c := phys.unchecked saved
    phys.restored saved = c ∨ c.ctx.seq.bad = none ∧
      ∃ b, phys.restored saved = { c with ctx := { c.ctx with seq := { c.ctx.seq with bad := some b } } } := by
  unfold Core.restored
  dsimp only
  rw [show ((phys.onto saved).freshenAll (phys.onto saved).sealedBack).withLost = phys.unchecked saved from rfl]
  generalize phys.unchecked saved = c
  split
  · next hbad _ =>
    split
    · exact .inl rfl
    · exact .inr ⟨hbad, _, rfl⟩
  · exact .inl rfl
theorem restored_unchecked (phys saved : Core) : let d := phys.restored saved
    d = { phys.unchecked saved with ctx := { (phys.unchecked saved).ctx with
      seq := { (phys.unchecked saved).ctx.seq with bad := d.ctx.seq.bad } } } := by
  rcases restored_cases phys saved with h | ⟨-, b, h⟩ <;> simp only [h]
theorem restored_ctx (phys saved : Core) : let d := phys.restored saved
    d.ctx = { saved.ctx with seq := { saved.ctx.seq with bad := d.ctx.seq.bad } } := by
  dsimp only
  rw [restored_unchecked, unchecked_frame]
  rfl
/-- A bundle that is misdirected stays so. -/
theorem restored_bad {phys saved : Core} {b : Nat × Nat} (h : saved.ctx.seq.bad = some b) : (phys.restored saved).ctx.seq.bad = some b := by
  have hbad : (phys.unchecked saved).ctx.seq.bad = some b := by
    rw [unchecked_frame]
    exact h
  rcases restored_cases phys saved with hd | ⟨hnone, -⟩
  · rw [hd, hbad]
  · rw [hbad] at hnone
    cases hnone
theorem restored_courses (phys saved : Core) : (phys.restored saved).courses = phys.courses := by
  rw [restored_unchecked, unchecked_frame]
  rfl
theorem restored_checkers (phys saved : Core) : (phys.restored saved).checkers = [] := by
  rw [restored_unchecked, unchecked_frame]
  rfl
theorem sealedBack_whole {c : Core} (h : c.courses = []) : c.sealedBack = [] :=
  List.filter_eq_nil_iff.2 (fun l _ => by simp [Core.health, h, Course.healthy, Course.degraded])
/-- Where all courses are healthy, a core is the saved one but for what belongs to the unit. -/
theorem restored_whole {phys : Core} (h : phys.courses = []) (saved : Core) : let d := phys.restored saved
    d = { phys.onto saved with ctx := d.ctx } := by
  have hsealed : (phys.onto saved).sealedBack = [] := sealedBack_whole h
  have hlost : (phys.onto saved).lostRows = [] := by simp [Core.lostRows, Core.onto, h]
  have hun : phys.unchecked saved = phys.onto saved := by
    dsimp only [Core.unchecked]
    rw [hsealed]
    dsimp only [Core.freshenAll, Core.withLost]
    rw [hlost]
    rfl
  dsimp only
  rw [restored_unchecked, hun]

end Sys2Proof.Machine
end

/-! SUPPORT. The world after a resumption. -/
section
namespace Sys2Proof.Machine
open Sys2Proof

/-! ## The gang goes on (R10, R99, R270, R271) -/

theorem restoreCores_frame (l : List (Nat × Core)) (w : World) : restoreCores w l = { w with cores := (restoreCores w l).cores } := by
  induction l generalizing w with
  | nil => rfl
  | cons x r ih => rw [restoreCores, ih]; rfl
theorem restoreCores_other {l : List (Nat × Core)} {k : Nat} (h : k ∉ l.map (·.1)) (w : World) : (restoreCores w l).core k = w.core k := by
  induction l generalizing w with
  | nil => rfl
  | cons x r ih =>
    simp only [List.map_cons, List.mem_cons, not_or] at h
    rw [restoreCores, ih h.2, core_modCore_other _ _ _ _ h.1]
theorem restoreCores_core {l : List (Nat × Core)} (hl : (l.map (·.1)).Nodup) {x : Nat × Core} (hx : x ∈ l) (w : World) :
    (restoreCores w l).core x.1 = (w.core x.1).restored x.2 := by
  induction l generalizing w with
  | nil => cases hx
  | cons y r ih =>
    obtain ⟨hy, hr⟩ := List.nodup_cons.1 hl
    rw [restoreCores]
    rcases List.mem_cons.1 hx with rfl | hx
    · rw [restoreCores_other hy, core_modCore_same]
    · have hne : x.1 ≠ y.1 := fun h => hy (List.mem_map.2 ⟨x, hx, h⟩)
      rw [ih hr hx, core_modCore_other _ _ _ _ hne]
theorem restoreArrays_frame (gid : Nat) (l : List SavedArray) (w : World) :
    restoreArrays gid w l = { w with dies := (restoreArrays gid w l).dies } := by
  induction l generalizing w with
  | nil => rfl
  | cons x r ih => rw [restoreArrays, ih]; rfl
theorem restoreArrays_other {l : List SavedArray} {k : Nat} (h : k ∉ l.map (·.die)) (gid : Nat) (w : World) :
    (restoreArrays gid w l).die k = w.die k := by
  induction l generalizing w with
  | nil => rfl
  | cons x r ih =>
    simp only [List.map_cons, List.mem_cons, not_or] at h
    rw [restoreArrays, ih h.2, die_modDie_other _ _ _ _ h.1]
/-- An array that a gang has back. -/
structure ArrayBack (gid : Nat) (a : SavedArray) (d : Die) : Prop where
  gang : d.arrayGang = some gid
  tiles : d.tiles = a.tiles
  tshape : d.tshape = a.tshape
  shapes : d.shapes = a.shapes
  lease : d.lease = a.lease
  streamEnd : d.streamEnd = a.streamEnd
  mcfgAt : d.mcfgAt = a.mcfgAt
theorem restoreArrays_die {l : List SavedArray} (hl : (l.map (·.die)).Nodup) {a : SavedArray} (ha : a ∈ l) (gid : Nat) (w : World) :
    ArrayBack gid a ((restoreArrays gid w l).die a.die) := by
  induction l generalizing w with
  | nil => cases ha
  | cons y r ih =>
    obtain ⟨hy, hr⟩ := List.nodup_cons.1 hl
    rw [restoreArrays]
    rcases List.mem_cons.1 ha with rfl | ha
    · rw [restoreArrays_other hy, die_modDie_same]
      exact ⟨rfl, rfl, rfl, rfl, rfl, rfl, rfl⟩
    · exact ih hr ha _

theorem resumeReqs_counted (s : State) (t : Task) : Counted s.w (s.resumeReqs t) :=
  (Counted.foldl (fun w x => officeReqs_counted w t.ten (stretches t.runs x.1 x.2)) t.partPlaces s.w).trans (officeReqs_counted ..)
/-- Half-rate issue is a matter of the gang and of its task's record. -/
theorem rehalf_gang (w : World) (gid : Nat) : let g := (w.rehalf gid).gang gid
    g = { w.gang gid with half := g.half } := by
  let f (g : Gang) : Gang := { g with half := (w.gang gid).members.any (fun k => (w.core k).halfRate) }
  have hg : (w.rehalf gid).gang gid = f (w.gang gid) := gang_modGang_same w gid f
  dsimp only
  rw [hg]
theorem rehalf_core (w : World) (gid k : Nat) : (w.rehalf gid).core k = w.core k := rfl
theorem mem_rehalf {w : World} {t : Task} (h : t ∈ w.hub.tasks) (gid : Nat) :
    ∃ y ∈ (w.rehalf gid).hub.tasks, y.order = t.order ∧ y.stage = t.stage := by
  refine ⟨_, List.mem_map.2 ⟨t, h, rfl⟩, ?_⟩
  split <;> exact ⟨rfl, rfl⟩

section
variable (w : World) (t : Task) (v : Saved)

/-- The gang as it goes on, before half-rate issue and the clock are chosen. -/
def World.backGang : Gang := { v.gang with
  live := true, preempt := false, stat := v.gang.stat.resumed w.now, domCls := w.classFor t.cores, doms := t.cores.map w.domOf,
  domNext := [], nextAt := w.now }
/-- Cores, arrays, gang and task are back. -/
def World.back : World :=
  ((restoreArrays t.gid (restoreCores w v.cores) v.arrays).setGang t.gid (w.backGang t v)).setTask
    { t with stage := .run, saved := none, used := unitsOf t.cores }
theorem resumed_back : w.resumed t v = ((w.back t v).rehalf t.gid).restartGap t.gid := rfl
theorem restored_world : restoreArrays t.gid (restoreCores w v.cores) v.arrays =
    { w with cores := (restoreCores w v.cores).cores, dies := (restoreArrays t.gid (restoreCores w v.cores) v.arrays).dies } := by
  rw [restoreArrays_frame, restoreCores_frame]
theorem back_core (k : Nat) : (w.back t v).core k = (restoreCores w v.cores).core k := by
  unfold World.back
  rw [restored_world]
  rfl
theorem back_now : (w.back t v).now = w.now := by
  unfold World.back
  rw [restored_world]
  rfl
theorem resumed_gang : let g := (w.resumed t v).gang t.gid
    g = { w.backGang t v with half := g.half, khz := g.khz, why := g.why, stretch := g.stretch, nextAt := w.now + 8 * g.period } := by
  have hgap := restartGap_gang ((w.back t v).rehalf t.gid) t.gid
  have hback : (w.back t v).gang t.gid = w.backGang t v := gang_setGang_same _ t.gid (w.backGang t v)
  have hnow : ((w.back t v).rehalf t.gid).now = w.now := back_now w t v
  rw [hnow, rehalf_gang, hback, ← resumed_back] at hgap
  generalize (w.resumed t v).gang t.gid = g at *
  generalize (((w.back t v).rehalf t.gid).gang t.gid).half = h at *
  have hmax : max (w.backGang t v).nextAt w.now = w.now := max_self w.now
  dsimp only at hgap
  rw [hmax] at hgap
  have hh : g.half = h := congrArg Gang.half hgap
  rwa [← hh] at hgap
theorem resumed_core {x : Nat × Core} (hv : (v.cores.map (·.1)).Nodup) (hx : x ∈ v.cores) :
    Gapped ((w.core x.1).restored x.2) ((w.resumed t v).core x.1) := by
  have hgap := restartGap_core ((w.back t v).rehalf t.gid) t.gid x.1
  rwa [rehalf_core, back_core, restoreCores_core hv hx] at hgap
theorem resumed_die {a : SavedArray} (hv : (v.arrays.map (·.die)).Nodup) (ha : a ∈ v.arrays) :
    ArrayBack t.gid a ((w.resumed t v).die a.die) := by
  rw [World.die, resumed_back, restartGap_dies]
  exact restoreArrays_die hv ha t.gid (restoreCores w v.cores)
theorem resumed_flights : (w.resumed t v).flights = w.flights := by
  rw [resumed_back, restartGap_flights]
  show (restoreArrays t.gid (restoreCores w v.cores) v.arrays).flights = _
  rw [restored_world]
theorem mem_resumed {w : World} {t : Task} (h : t ∈ w.hub.tasks) (v : Saved) :
    ∃ y ∈ (w.resumed t v).hub.tasks, y.order = t.order ∧ y.stage = .run := by
  rw [resumed_back, restartGap_hub]
  refine mem_rehalf (t := { t with stage := .run, saved := none, used := unitsOf t.cores }) (mem_setTask (t := t) ?_ rfl) t.gid
  show t ∈ (restoreArrays t.gid (restoreCores w v.cores) v.arrays).hub.tasks
  rw [restored_world]
  exact h
end
end Sys2Proof.Machine
end

/-! SUPPORT. Resumption, and the settlement of O48. -/
section
namespace Sys2Proof.Machine
open Sys2Proof

/-! ## What resumption writes (R10, R180, R270) -/

/-- Stretches that are cleared and filled with saved cells. -/
def refills (sp : Space) (at_ : Nat → Nat) (n : Nat) (l : List (Nat × List Host.Cell)) : List MemW :=
  (l.map (fun x => .clear sp (at_ x.1) n :: cellWrites sp x.2)).flatten
theorem writes_refills (v : Saved) : v.writes = refills .spd (spdAt · 0) (2 ^ 21) v.spd ++
    refills .mortar (mortarAt · 0 0) (2 ^ 19) v.mortar ++ refills .isp (ispAt · 0) (2 ^ 18) v.isp := rfl
theorem refills_space {sp : Space} {at_ : Nat → Nat} {n : Nat} {l : List (Nat × List Host.Cell)} :
    ∀ x ∈ refills sp at_ n l, x.space = sp := by
  intro x hx
  obtain ⟨y, hy, hx⟩ := List.mem_flatten.1 hx
  obtain ⟨z, -, rfl⟩ := List.mem_map.1 hy
  rcases List.mem_cons.1 hx with rfl | hx
  · rfl
  · obtain ⟨e, -, rfl⟩ := List.mem_map.1 hx
    rfl
theorem handlerWrites_space (s : State) (t : Task) : ∀ x ∈ s.handlerWrites t, x.space = .hst := by
  intro x hx
  obtain ⟨k, -, rfl⟩ := List.mem_map.1 hx
  rfl
/-- A stretch refilled reads as it was saved, whatever is written before, and to other memories after. -/
theorem byte_refills {sp : Space} {at_ : Nat → Nat} {n k x : Nat} {l : List Host.Cell} {before after : List MemW} (hl : canon l = true)
    (hafter : ∀ y ∈ after, y.space ≠ sp) (m : Mems) (hx : at_ k ≤ x ∧ x < at_ k + n) :
    (m.applyAll (before ++ (refills sp at_ n [(k, l)] ++ after))).byte sp x = cellAt l x := by
  have hone : refills sp at_ n [(k, l)] = .clear sp (at_ k) n :: cellWrites sp l := List.append_nil _
  rw [applyAll_append, applyAll_append, applyAll_byte_other hafter, hone, byte_refilled hl _ hx]

/-! ## Lines written back self-sealing (R180) -/

theorem mem_reseals {v : Saved} {s : State} {f : State → Act} (h : f ∈ (v.cores.map (fun x =>
    (((s.w.core x.1).onto x.2).sealedBack.filter (fun l => !((s.w.core x.1).health (l / 64)).lost)).map
      (fun l => State.reseal x.1 l))).flatten) : ∃ k line, f = State.reseal k line := by
  obtain ⟨l, hl, hf⟩ := List.mem_flatten.1 h
  obtain ⟨x, -, rfl⟩ := List.mem_map.1 hl
  obtain ⟨line, -, rfl⟩ := List.mem_map.1 hf
  exact ⟨x.1, line, rfl⟩
theorem resealBack_world (v : Saved) (s : State) :
    (State.resealBack v s).w = { s.w with softErrs := (State.resealBack v s).w.softErrs } := by
  refine inOrder_rel (R := fun w u => u = { w with softErrs := u.softErrs }) (fun _ => rfl) (fun {u v w} h k => by rw [k, h]) ?_ s
  intro f hf s
  obtain ⟨k, line, rfl⟩ := mem_reseals hf
  rfl
theorem resealBack_space (v : Saved) (s : State) : ∀ x ∈ (State.resealBack v s).out, x.space = .mortar := by
  refine inOrder_out (fun f hf s x hx => ?_) s
  obtain ⟨k, line, rfl⟩ := mem_reseals hf
  rw [List.mem_singleton.1 hx]
  rfl
theorem resealBack_whole {v : Saved} {s : State} (h : ∀ x ∈ v.cores, (s.w.core x.1).courses = []) : State.resealBack v s = only s.w := by
  have hnil (x : Nat × Core) (hx : x ∈ v.cores) : ((s.w.core x.1).onto x.2).sealedBack = [] := sealedBack_whole (h x hx)
  have hlist : (v.cores.map (fun x => (((s.w.core x.1).onto x.2).sealedBack.filter
      (fun l => !((s.w.core x.1).health (l / 64)).lost)).map (fun l => State.reseal x.1 l))).flatten = [] := by
    rw [List.flatten_eq_nil_iff]
    intro l hl
    obtain ⟨x, hx, rfl⟩ := List.mem_map.1 hl
    rw [hnil x hx]
    rfl
  rw [State.resealBack, hlist]
  rfl

/-! ## Resumption (R271) -/

section
variable {s : State} {t : Task} {v : Saved} {id : Nat}

theorem atStage_eq {st : Stage} (h : s.w.taskBy id = some t) (hst : t.stage = st) (f : Task → Act) : s.atStage id st f = f t := by
  unfold State.atStage
  rw [h]
  exact if_pos (by simp [hst])
theorem resumeAct_good (h : s.w.taskBy id = some t) (hst : t.stage = .saved) (hs : t.saved = some v) (hc : s.w.canResume v = true)
    (hg : firstBad (s.partCrcs t) v.crcs 0 = none) : resumeAct id s = s.resumeTask t v := by
  rw [resumeAct, atStage_eq h hst, hs]
  dsimp only
  rw [if_pos hc, hg]
theorem resumeAct_bad {k : Nat} (h : s.w.taskBy id = some t) (hst : t.stage = .saved) (hs : t.saved = some v)
    (hc : s.w.canResume v = true) (hb : firstBad (s.partCrcs t) v.crcs 0 = some k) : ∃ info,
      resumeAct id s = only (s.w.setTask { t with
        stage := .ending, kind := 2, code := 32, info := info, ipc := 0, icore := 127, ttcEnd := v.gang.lastTtc 0 }) := by
  rw [resumeAct, atStage_eq h hst, hs]
  dsimp only
  rw [if_pos hc, hb]
  exact ⟨_, rfl⟩
/-- A part that fails its check ends the task with SAVEBAD. -/
theorem preemptResume_savebad {k : Nat} (h : s.w.taskBy id = some t) (hst : t.stage = .saved) (hs : t.saved = some v)
    (hc : s.w.canResume v = true) (hb : firstBad (s.partCrcs t) v.crcs 0 = some k) : ∃ (u : State) (y : Task),
      exec (.preemptResume id) s = .next u ∧ y ∈ u.w.hub.tasks ∧ y.order = t.order ∧ y.stage = .ending ∧ y.kind = 2 ∧ y.code = 32 ∧
      u.mem = s.mem ∧ ∀ j, u.w.core j = s.w.core j := by
  obtain ⟨info, hact⟩ := resumeAct_bad h hst hs hc hb
  have hmem : t ∈ s.w.hub.tasks := List.mem_of_find?_eq_some h
  exact ⟨_, _, (congrArg (done s) hact).trans (done_only ..), mem_setTask hmem rfl, rfl, rfl, rfl, rfl, rfl, fun _ => rfl⟩

/-- A state in which a saved gang has gone on: the world is as after resumption, but for the errors that lines written back have
cleared, and what was saved has been written, and after it parity alone. -/
structure Resumed (s : State) (t : Task) (v : Saved) (u : State) : Prop where
  world : u.w = { (s.resumeReqs t).resumed t (s.readSeqs t v) with softErrs := u.w.softErrs }
  mem : ∃ l, (∀ x ∈ l, x.space = .mortar) ∧ u.mem = s.mem.applyAll (v.writes ++ (s.handlerWrites t ++ l)) ∧
    ((v.cores.map (·.1)).Nodup → (∀ x ∈ v.cores, (s.w.core x.1).courses = []) → l = [])

/-- A saved core with the sequencer state that its record in the save area holds. -/
def State.readCore (s : State) (t : Task) (j : Nat) (c : Core) : Core :=
  { c with ctx := c.ctx.fromRecord (s.readRuns t.runs (t.save + 4194304 * j) 112) }
theorem readCore_frame (s : State) (t : Task) (j : Nat) (c : Core) : let d := s.readCore t j c
    d = { c with ctx := { c.ctx with loops := d.ctx.loops, seq := d.ctx.seq } } := by
  unfold State.readCore
  generalize s.readRuns t.runs (t.save + 4194304 * j) 112 = bs
  dsimp only
  rw [← fromRecord_frame]
theorem readSeqs_keys (s : State) (t : Task) (v : Saved) : (s.readSeqs t v).cores.map (·.1) = v.cores.map (·.1) := by
  have hzip : ((v.cores.zip (List.range v.cores.length)).map Prod.fst) = v.cores := List.map_fst_zip (by simp)
  calc (s.readSeqs t v).cores.map (·.1)
      = ((v.cores.zip (List.range v.cores.length)).map Prod.fst).map (·.1) := by
        simp only [State.readSeqs, List.map_map, Function.comp_def]
    _ = v.cores.map (·.1) := by rw [hzip]
theorem mem_readSeqs {j : Nat} {x : Nat × Core} (h : v.cores[j]? = some x) : (x.1, s.readCore t j x.2) ∈ (s.readSeqs t v).cores := by
  obtain ⟨hj, -⟩ := List.getElem?_eq_some_iff.1 h
  have hzip : (v.cores.zip (List.range v.cores.length))[j]? = some (x, j) :=
    List.getElem?_zip_eq_some.2 ⟨h, by simp [hj]⟩
  exact List.mem_map.2 ⟨(x, j), List.mem_of_getElem? hzip, rfl⟩
theorem resumeReqs_core (s : State) (t : Task) (k : Nat) : (s.resumeReqs t).core k = s.w.core k :=
  congrArg (fget · Core.zero k) (resumeReqs_counted s t).cores
theorem resumed_member {j : Nat} {x : Nat × Core} (hv : (v.cores.map (·.1)).Nodup) (h : v.cores[j]? = some x) :
    Gapped ((s.w.core x.1).restored (s.readCore t j x.2)) (((s.resumeReqs t).resumed t (s.readSeqs t v)).core x.1) := by
  rw [← resumeReqs_core s t x.1]
  exact resumed_core (s.resumeReqs t) t (s.readSeqs t v) (by rwa [readSeqs_keys]) (mem_readSeqs h)
theorem commit_inOrder_pair (s : State) (f g : State → Act) :
    s.commit (s.inOrder [f, g]) = (s.commit (f s)).commit (g (s.commit (f s))) := by
  simp only [State.inOrder, State.andThen, State.commit, only_w, only_out, List.append_nil, applyAll_append]
theorem preemptResume_resumed (h : s.w.taskBy id = some t) (hst : t.stage = .saved) (hs : t.saved = some v)
    (hc : s.w.canResume v = true) (hg : firstBad (s.partCrcs t) v.crcs 0 = none) :
    ∃ u, exec (.preemptResume id) s = .next u ∧ Resumed s t v u := by
  let a : Act := { w := (s.resumeReqs t).resumed t (s.readSeqs t v), out := v.writes ++ s.handlerWrites t }
  let b := State.resealBack v (s.commit a)
  have hexec : exec (.preemptResume id) s = .next ((s.commit a).commit b) := by
    have hact := (done_next s (resumeAct id s)).trans (by
      rw [resumeAct_good h hst hs hc hg, State.resumeTask, commit_inOrder_pair])
    exact hact
  have hmem : ((s.commit a).commit b).mem = s.mem.applyAll (v.writes ++ (s.handlerWrites t ++ b.out)) := by
    rw [← List.append_assoc, applyAll_append]
    rfl
  refine ⟨_, hexec, resealBack_world v (s.commit a), b.out, resealBack_space v (s.commit a), hmem, fun hv hw => ?_⟩
  have hwhole : ∀ x ∈ v.cores, ((s.commit a).w.core x.1).courses = [] := by
    intro x hx
    obtain ⟨j, hj⟩ := List.mem_iff_getElem?.1 hx
    have hframe := (resumed_member (s := s) (t := t) hv hj).eq
    calc (a.w.core x.1).courses = ((s.w.core x.1).restored (s.readCore t j x.2)).courses := by rw [hframe]
      _ = [] := (restored_courses ..).trans (hw x hx)
  have hb : b = only (s.commit a).w := resealBack_whole hwhole
  rw [hb]
  rfl

theorem backGang_resumeReqs (s : State) (t : Task) (v : Saved) : (s.resumeReqs t).backGang t (s.readSeqs t v) = s.w.backGang t v := by
  rw [(resumeReqs_counted s t).frame]
  rfl
theorem resumed_running {x : GStat} (h : x = .running) (now : Nat) : x.resumed now = .running := by
  rw [h]
  rfl
theorem resumed_held {x : GStat} {l : List (Nat × Wait)} {since : Nat} (h : x = .held l since) (now : Nat) :
    x.resumed now = if l = [] then .running else .held l now := by
  rw [h]
  cases l <;> rfl

section
variable {phys c q d : Core} (hq : q = { c with ctx := { c.ctx with loops := q.ctx.loops, seq := q.ctx.seq } })
  (hd : Gapped (phys.restored q) d)
include hq hd
/-- A core that a saved one was restored to, its loops and sequencer state aside, and a restart gap after it. -/
theorem gapped_ctx : d.ctx = { c.ctx with seq := d.ctx.seq, loops := d.ctx.loops, evc := d.ctx.evc, evcsel := d.ctx.evcsel } := by
  have hctx := hd.ctx
  rw [restored_ctx, hq] at hctx
  dsimp only at hctx
  rw [hctx]
theorem gapped_counters (i : Nat) (hi : fget c.ctx.evcsel 0 i % 64 ≠ 0x0B) :
    fget d.ctx.evc 0 i = fget c.ctx.evc 0 i ∧ fget d.ctx.evcsel 0 i = fget c.ctx.evcsel 0 i := by
  have hcount := hd.counters i
  rw [restored_ctx, hq] at hcount
  exact hcount hi
theorem gapped_whole (hw : phys.courses = []) : d = { c with
    ctx := d.ctx, courses := [], scanPos := phys.scanPos, outOfPlace := phys.outOfPlace, breakpoint := phys.breakpoint,
    dws := phys.dws, checkers := [], win := d.win } := by
  have heq := hd.eq
  rw [restored_whole hw, Core.onto, hq, hw] at heq
  exact heq
end
namespace Resumed
variable {u : State} (hr : Resumed s t v u)
include hr

/-! ### The gang, its arrays and its task -/

theorem gang : let g := u.w.gang t.gid
    g = { s.w.backGang t v with half := g.half, khz := g.khz, why := g.why, stretch := g.stretch, nextAt := s.w.now + 8 * g.period } := by
  have hg : u.w.gang t.gid = ((s.resumeReqs t).resumed t (s.readSeqs t v)).gang t.gid := by
    rw [hr.world]
    rfl
  have hnow : (s.resumeReqs t).now = s.w.now := by rw [(resumeReqs_counted s t).frame]
  rw [hg, ← backGang_resumeReqs, ← hnow]
  exact resumed_gang (s.resumeReqs t) t (s.readSeqs t v)
theorem stat : (u.w.gang t.gid).stat = v.gang.stat.resumed s.w.now := by
  rw [hr.gang]
  rfl
theorem gang_saved : let g := u.w.gang t.gid
    g = { v.gang with
      live := true, preempt := false, stat := g.stat, domCls := s.w.classFor t.cores, doms := t.cores.map s.w.domOf, domNext := [],
      half := g.half, khz := g.khz, why := g.why, stretch := g.stretch, nextAt := s.w.now + 8 * g.period } := by
  have hgang := hr.gang
  dsimp only [World.backGang] at hgang ⊢
  rwa [← hr.stat] at hgang
theorem flights : u.w.flights = s.w.flights := by
  rw [hr.world]
  exact (resumed_flights ..).trans (by rw [(resumeReqs_counted s t).frame])
theorem array {a : SavedArray} (hv : (v.arrays.map (·.die)).Nodup) (ha : a ∈ v.arrays) : ArrayBack t.gid a (u.w.die a.die) := by
  rw [hr.world]
  exact resumed_die (s.resumeReqs t) t (s.readSeqs t v) hv ha
theorem task (h : t ∈ s.w.hub.tasks) : ∃ y ∈ u.w.hub.tasks, y.order = t.order ∧ y.stage = .run := by
  rw [hr.world]
  refine mem_resumed ?_ (s.readSeqs t v)
  rwa [(resumeReqs_counted s t).hub]

/-! ### Its cores -/

theorem member {j : Nat} {x : Nat × Core} (hv : (v.cores.map (·.1)).Nodup) (h : v.cores[j]? = some x) :
    Gapped ((s.w.core x.1).restored (s.readCore t j x.2)) (u.w.core x.1) := by
  rw [hr.world]
  exact resumed_member hv h
theorem ctx {x : Nat × Core} (hv : (v.cores.map (·.1)).Nodup) (hx : x ∈ v.cores) : let c := (u.w.core x.1).ctx
    c = { x.2.ctx with seq := c.seq, loops := c.loops, evc := c.evc, evcsel := c.evcsel } := by
  obtain ⟨j, hj⟩ := List.mem_iff_getElem?.1 hx
  exact gapped_ctx (readCore_frame s t j x.2) (hr.member hv hj)
theorem checkers {x : Nat × Core} (hv : (v.cores.map (·.1)).Nodup) (hx : x ∈ v.cores) : (u.w.core x.1).checkers = [] := by
  obtain ⟨j, hj⟩ := List.mem_iff_getElem?.1 hx
  rw [(hr.member hv hj).eq]
  exact restored_checkers ..
/-- Where the record is as it was saved, so are the loops and the program counter. -/
theorem sequencer {j : Nat} {x : Nat × Core} (hv : (v.cores.map (·.1)).Nodup) (h : v.cores[j]? = some x)
    (hrec : s.readRuns t.runs (t.save + 4194304 * j) 112 = seqRecord x.2.ctx) :
    (u.w.core x.1).ctx.loops = x.2.ctx.loops ∧ (u.w.core x.1).ctx.seq.pc = x.2.ctx.seq.pc := by
  rw [(hr.member hv h).ctx, restored_ctx, State.readCore, hrec, fromRecord_same]
  exact ⟨rfl, rfl⟩
theorem misdirected {j : Nat} {x : Nat × Core} {bs : List Byte} (hv : (v.cores.map (·.1)).Nodup) (h : v.cores[j]? = some x)
    (hbs : s.readRuns t.runs (t.save + 4194304 * j) 112 = bs) (hrec : bs ≠ seqRecord x.2.ctx)
    (hhead : 6 < leNat (bs.take 16) / 2 ^ 16 % 8 ∨ 11 < leNat (bs.take 16) / 2 ^ 19 % 16) :
    (u.w.core x.1).ctx.seq.bad = some (leNat (bs.take 16) % 2 ^ 16, leNat (bs.take 16) % 2 ^ 16) := by
  have hbad : (s.readCore t j x.2).ctx.seq.bad = some (leNat (bs.take 16) % 2 ^ 16, leNat (bs.take 16) % 2 ^ 16) := by
    rw [State.readCore, hbs]
    exact fromRecord_bad hrec hhead
  rw [(hr.member hv h).ctx]
  exact restored_bad hbad
/-- Where all courses are healthy, a core is the saved one but for what belongs to the unit. -/
theorem core {x : Nat × Core} (hv : (v.cores.map (·.1)).Nodup) (hw : ∀ y ∈ v.cores, (s.w.core y.1).courses = []) (hx : x ∈ v.cores) :
    u.w.core x.1 = { x.2 with
      ctx := (u.w.core x.1).ctx, courses := [], scanPos := (s.w.core x.1).scanPos, outOfPlace := (s.w.core x.1).outOfPlace,
      breakpoint := (s.w.core x.1).breakpoint, dws := (s.w.core x.1).dws, checkers := [], win := (u.w.core x.1).win } := by
  obtain ⟨j, hj⟩ := List.mem_iff_getElem?.1 hx
  exact gapped_whole (readCore_frame s t j x.2) (hr.member hv hj) (hw x hx)
/-- A counter that does not count restart gaps is as it was saved. -/
theorem counters {x : Nat × Core} (hv : (v.cores.map (·.1)).Nodup) (hx : x ∈ v.cores) (i : Nat) (hi : fget x.2.ctx.evcsel 0 i % 64 ≠ 0x0B) :
    fget (u.w.core x.1).ctx.evc 0 i = fget x.2.ctx.evc 0 i ∧ fget (u.w.core x.1).ctx.evcsel 0 i = fget x.2.ctx.evcsel 0 i := by
  obtain ⟨j, hj⟩ := List.mem_iff_getElem?.1 hx
  exact gapped_counters (readCore_frame s t j x.2) (hr.member hv hj) i hi

/-! ### Its memories -/

/-- Each memory reads as it was saved: it is filled again, and what is written after it goes to other memories. -/
theorem spd {k : Nat} {l : List Host.Cell} (hv : v.spd = [(k, l)]) (hl : canon l = true) {i : Nat} (hi : i < 2 ^ 21) :
    u.mem.byte .spd (k * 2 ^ 21 + i) = cellAt l (k * 2 ^ 21 + i) := by
  obtain ⟨p, hp, hmem, -⟩ := hr.mem
  have hafter : ∀ y ∈ refills .mortar (mortarAt · 0 0) (2 ^ 19) v.mortar ++ (refills .isp (ispAt · 0) (2 ^ 18) v.isp ++
      (s.handlerWrites t ++ p)), y.space ≠ .spd := by
    simp only [List.mem_append]
    rintro y (h | h | h | h)
    · simp [refills_space y h]
    · simp [refills_space y h]
    · simp [handlerWrites_space s t y h]
    · simp [hp y h]
  have hin : spdAt k 0 ≤ k * 2 ^ 21 + i ∧ k * 2 ^ 21 + i < spdAt k 0 + 2 ^ 21 := by
    simp only [spdAt]
    omega
  have hbyte := byte_refills (before := []) (at_ := (spdAt · 0)) hl hafter s.mem hin
  rw [hmem, writes_refills, hv, List.append_assoc, List.append_assoc]
  exact hbyte
theorem mortar {k : Nat} {l : List Host.Cell} (hk : (v.cores.map (·.1)).Nodup) (hw : ∀ x ∈ v.cores, (s.w.core x.1).courses = [])
    (hv : v.mortar = [(k, l)]) (hl : canon l = true) {i : Nat} (hi : i < 2 ^ 19) :
    u.mem.byte .mortar (k * 2 ^ 19 + i) = cellAt l (k * 2 ^ 19 + i) := by
  obtain ⟨p, -, hmem, hnone⟩ := hr.mem
  have hafter : ∀ y ∈ refills .isp (ispAt · 0) (2 ^ 18) v.isp ++ (s.handlerWrites t ++ []), y.space ≠ .mortar := by
    rw [List.append_nil]
    simp only [List.mem_append]
    rintro y (h | h)
    · simp [refills_space y h]
    · simp [handlerWrites_space s t y h]
  have hin : mortarAt k 0 0 ≤ k * 2 ^ 19 + i ∧ k * 2 ^ 19 + i < mortarAt k 0 0 + 2 ^ 19 := by
    simp only [mortarAt]
    omega
  have hbyte := byte_refills (before := refills .spd (spdAt · 0) (2 ^ 21) v.spd) (at_ := (mortarAt · 0 0)) hl hafter s.mem hin
  rw [hmem, hnone hk hw, writes_refills, hv, List.append_assoc, List.append_assoc]
  exact hbyte
theorem isp {k : Nat} {l : List Host.Cell} (hv : v.isp = [(k, l)]) (hl : canon l = true) {i : Nat} (hi : i < 2 ^ 18) :
    u.mem.byte .isp (k * 2 ^ 18 + i) = cellAt l (k * 2 ^ 18 + i) := by
  obtain ⟨p, hp, hmem, -⟩ := hr.mem
  have hafter : ∀ y ∈ s.handlerWrites t ++ p, y.space ≠ .isp := by
    simp only [List.mem_append]
    rintro y (h | h)
    · simp [handlerWrites_space s t y h]
    · simp [hp y h]
  have hin : ispAt k 0 ≤ k * 2 ^ 18 + i ∧ k * 2 ^ 18 + i < ispAt k 0 + 2 ^ 18 := by
    simp only [ispAt]
    omega
  have hbyte := byte_refills (before := refills .spd (spdAt · 0) (2 ^ 21) v.spd ++ refills .mortar (mortarAt · 0 0) (2 ^ 19) v.mortar)
    (at_ := (ispAt · 0)) hl hafter s.mem hin
  rw [hmem, writes_refills, hv, List.append_assoc]
  exact hbyte
end Resumed
/-- Resumption gives the gang back, and its task runs. -/
theorem preemptResume_runs (h : s.w.taskBy id = some t) (hst : t.stage = .saved) (hs : t.saved = some v)
    (hc : s.w.canResume v = true) (hg : firstBad (s.partCrcs t) v.crcs 0 = none) : ∃ (u : State) (y : Task),
      exec (.preemptResume id) s = .next u ∧ y ∈ u.w.hub.tasks ∧ y.order = t.order ∧ y.stage = .run ∧ Resumed s t v u := by
  obtain ⟨u, hexec, hr⟩ := preemptResume_resumed h hst hs hc hg
  obtain ⟨y, hy, horder, hstage⟩ := hr.task (List.mem_of_find?_eq_some h)
  exact ⟨u, y, hexec, hy, horder, hstage, hr⟩
end

/-- Settles O48: the rules of requests, stops, resumptions and debug halts, put together. -/
theorem preemptionAndDebug : Obligations.PreemptionAndDebug := by
  intro s t v id gid
  dsimp only
  refine ⟨preemptRequest_reaches, fun l since => preemptStop_saves, ?_, ?_, ?_, ?_, ?_, debugHalt_gang, fun d k => debugHalt_die,
    debugRelease_gang, debugHalt_dead, ?_⟩
  · rintro ⟨htask, hst, hs, hc⟩ hg hk
    obtain ⟨u, y, hexec, hy, horder, hstage, hr⟩ := preemptResume_runs htask hst hs hc hg
    refine ⟨u, y, hexec, hy, horder, hstage, ?_, ?_, fun x hx => ?_, fun j x hj => hr.sequencer hk hj,
      fun j x hj => hr.misdirected hk hj rfl,
      fun k l hv hl _ i => hr.spd hv hl⟩
    · rw [hr.gang]
      rfl
    · rw [hr.gang]
      rfl
    · have hctx := hr.ctx hk hx
      have hnone := hr.checkers hk hx
      rw [hctx]
      exact ⟨rfl, rfl, rfl, rfl, hnone⟩
  · rintro ⟨htask, hst, hs, hc⟩ hg hk ha hw
    obtain ⟨u, y, hexec, hy, horder, hstage, hr⟩ := preemptResume_runs htask hst hs hc hg
    refine ⟨u, y, hexec, hy, horder, hstage, hr.flights, hr.gang_saved, fun l since hheld => ?_, fun hrun => ?_, fun x hx => ?_,
      fun a hmem => ?_, fun k l hv hl _ i => hr.mortar hk hw hv hl, fun k l hv hl _ i => hr.isp hv hl⟩
    · rw [hr.stat, resumed_held hheld]
    · rw [hr.stat, resumed_running hrun]
    · exact ⟨hr.core hk hw hx, hr.ctx hk hx, hr.counters hk hx⟩
    · obtain ⟨h1, h2, h3, h4, h5, h6, h7⟩ := hr.array ha hmem
      exact ⟨h1, h2, h3, h4, h5, h6, h7⟩
  · intro now hs hp
    exact ⟨by rw [advance_holds hs hp], advance_ttc ..⟩
  · exact fun now => ⟨rfl, advance_ttc ..⟩
  · rintro k ⟨htask, hst, hs, hc⟩ hb
    exact preemptResume_savebad htask hst hs hc hb
  · intro n sc hn
    have hrefused := debug_refused hn sc
    exact ⟨hrefused _ (by simp), hrefused _ (by simp)⟩
end Sys2Proof.Machine
end

/-! SUPPORT. The checks and the fields of a word, and what it is to be read back (R47 to R58, R66). -/
section
namespace Sys2Proof

/-! ## Checks and verdicts (R66) -/

/-- Every check of a list holds. -/
def Passed (cs : List (Nat × Bool)) : Prop := ∀ c ∈ cs, c.2 = true
@[simp] theorem passed_nil : Passed [] := by simp [Passed]
@[simp] theorem passed_cons (c : Nat × Bool) (cs : List (Nat × Bool)) : Passed (c :: cs) ↔ c.2 = true ∧ Passed cs := by
  simp [Passed]
@[simp] theorem passed_append (a b : List (Nat × Bool)) : Passed (a ++ b) ↔ Passed a ∧ Passed b := by
  simp [Passed, or_imp, forall_and]
@[simp] theorem ck_snd (c : Nat) (b : Bool) : (ck c b).2 = b := rfl
@[simp] theorem zero_snd (n : Nat) : (zero n).2 = true ↔ n = 0 := by simp [zero]
theorem failing_of_passed {cs : List (Nat × Bool)} (h : Passed cs) : failing cs = 0 := by
  induction cs with
  | nil => rfl
  | cons c r ih =>
    obtain ⟨hc, hr⟩ := (passed_cons c r).mp h
    simp [failing, hc, ih hr]
/-- An instruction whose checks hold is read. -/
theorem judge_reads {i j : Instr} {cs : List (Nat × Bool)} (h : Passed cs) (e : i = j) : judge i cs = .ok j := by
  simp [judge, failing_of_passed h, e]
/-- The same where the code of a field names something. -/
theorem judgeWith_reads {α : Type} {o : Option α} {v : α} {code : Nat} {k : α → Instr} {cs : List (Nat × Bool)} {j : Instr}
    (ho : o = some v) (h : Passed cs) (e : k v = j) : judgeWith o code k cs = .ok j := by
  subst ho
  exact judge_reads h e

/-! ## Fields -/

theorem field_low {hi x : Nat} (h : x < 2 ^ (hi + 1)) : field hi 0 x = x := by
  simp [field, Nat.mod_eq_of_lt h]
theorem field_above {hi lo x : Nat} (h : x < 2 ^ lo) : field hi lo x = 0 := by
  simp [field, Nat.div_eq_of_lt h]
/-- The lower of two fields that are packed side by side. -/
theorem field_packed_low {hi m b a : Nat} (hm : m = 2 ^ (hi + 1)) (hb : b < m) : field hi 0 (b + m * a) = b := by
  subst hm
  simp [field, Nat.mod_eq_of_lt hb]
/-- The upper one. -/
theorem field_packed_high {hi lo m b a : Nat} (hm : m = 2 ^ lo) (hb : b < m) (ha : a < 2 ^ (hi + 1 - lo)) :
    field hi lo (b + m * a) = a := by
  subst hm
  rw [field, Nat.add_mul_div_left _ _ (by positivity), Nat.div_eq_of_lt hb, Nat.zero_add, Nat.mod_eq_of_lt ha]
/-- A flag above a field. -/
theorem bitOf_packed {i m b : Nat} {c : Bool} (hm : m = 2 ^ i) (hb : b < m) : bitOf i (b + m * bit c) = c := by
  subst hm
  rw [bitOf, Nat.add_mul_div_left _ _ (by positivity), Nat.div_eq_of_lt hb]
  cases c <;> rfl
@[simp] theorem bitOf_bit (b : Bool) : bitOf 0 (bit b) = b := by cases b <;> rfl
theorem bit_lt (b : Bool) : bit b < 2 := by cases b <;> decide
/-- Two flags side by side. -/
theorem two_flags_packed (x y : Bool) : bitOf 0 (bit x + 2 * bit y) = x ∧ bitOf 1 (bit x + 2 * bit y) = y := by
  cases x <;> cases y <;> decide

/-! ## Bounds and codes of the enumerations -/

theorem rmCode_lt (m : RMode) : rmCode m < 4 := by cases m <;> decide
theorem sfFmtCode_lt (f : SfFmt) : sfFmtCode f < 3 := by cases f <;> decide
theorem bCondCode_lt (c : BCond) : bCondCode c < 6 := by cases c <;> decide
theorem bCondOf_code (c : BCond) : bCondOf (bCondCode c) = some c := by cases c <;> rfl
theorem bTestCode_lt (m : BTest) : bTestCode m < 4 := by cases m <;> decide
theorem bTestOf_code (m : BTest) : bTestOf (bTestCode m) = m := by cases m <;> rfl
theorem sCondCode_lt (c : SCond) : sCondCode c < 6 := by cases c <;> decide
theorem sCondOf_code (c : SCond) : sCondOf (sCondCode c) = some c := by cases c <;> rfl
theorem fCondCode_lt (c : FCond) : fCondCode c < 4 := by cases c <;> decide
theorem fCondOf_code (c : FCond) : fCondOf (fCondCode c) = c := by cases c <;> rfl
theorem movCode_lt (m : MovMode) : movCode m < 4 := by cases m <;> decide
theorem movOf_code (m : MovMode) : movOf (movCode m) = m := by cases m <;> rfl
theorem movCode_hk (m : MovMode) : movCode m = 3 ↔ m = .hk := by cases m <;> decide
theorem extCode_lt (w : ExtW) : extCode w < 4 := by cases w <;> decide
theorem extOf_code (w : ExtW) : extOf (extCode w) = some w := by cases w <;> rfl
theorem sfConvCode_lt (c : SfConv) : sfConvCode c < 16 := by cases c <;> decide
theorem sfConvOf_code (c : SfConv) : sfConvOf (sfConvCode c) = some c := by cases c <;> rfl
theorem rmCode_zero (m : RMode) : rmCode m = 0 ↔ m = .rne := by cases m <;> decide

/-! ## The operand of an A, E or X form (R57) -/

theorem srcReg_lt {b : Src} (h : b.ok = true) : srcReg b < 64 := by
  cases b <;> simp_all [Src.ok, srcReg]
theorem srcLs_lt {b : Src} (h : b.ok = true) : srcLs b < 4 := by
  cases b <;> simp_all [Src.ok, srcLs]; omega
@[simp] theorem replaced_src (b : Src) : (replaced (srcLs b) (srcReg b)).2 = true := by
  cases b <;> simp [replaced, srcLs, srcReg]

/-! ## What it is to be read back -/

/-- The word has the width of its class, and the decoder of the class reads the operation from it. -/
def Reads (k : Cls) (w : Nat) (i : Instr) : Prop :=
  w < (if k ∈ [Cls.f, .i, .p] then 2 ^ 64 else 2 ^ 32) ∧ decodeCls k w = .ok i
/-- The parts of a check that is a conjunction. -/
theorem both {x y : Bool} (h : (x && y) = true) : x = true ∧ y = true := Bool.and_eq_true_iff.mp h

end Sys2Proof
end

/-! SUPPORT. The words of the classes C, A and M are read back (R49, R50, R53). -/
section
namespace Sys2Proof

/-! ## C (R53) -/

theorem bitsOf_lt (k : Nat) (i : Int) : bitsOf k i < 2 ^ k := by
  have hp : (0 : Int) < 2 ^ k := by positivity
  rw [bitsOf, Int.toNat_lt (Int.emod_nonneg _ hp.ne')]
  exact_mod_cast Int.emod_lt_of_pos i hp
/-- The low 26 bits stand as a variable while the word is read: the kernel would else count up to the number. -/
theorem reads_encC {op lo : Nat} {i : Instr} (hl : lo < 2 ^ 26) (h : ∀ x, x = lo → decodeC ⟨op, x⟩ = .ok i)
    (ho : op < 64 := by decide) : Reads .c (encC op lo) i := by
  constructor
  · simp only [encC, CWord.toNat, List.mem_cons, reduceCtorEq, List.not_mem_nil, or_self, if_false]
    omega
  · simp only [decodeCls, encC]
    rw [cWord_ofNat_toNat _ hl ho, h lo rfl]
/-- The offset is read from the low 17 bits. -/
theorem offOf_low {o : Int} {w : Nat} (ho : offOk o = true) (hw : w % 2 ^ 17 = bitsOf 17 o) : offOf w = o := by
  simp only [offOk, Bool.and_eq_true, decide_eq_true_eq] at ho
  have hs : signed 17 w = signed 17 (bitsOf 17 o) := by
    simp only [signed, hw, Nat.mod_eq_of_lt (bitsOf_lt 17 o)]
  rw [offOf, hs]
  exact signed_bitsOf 17 (by decide) o ho.1 (by simpa using ho.2)

/-- A word with a scalar, a code and an offset. -/
theorem fits_cWord {a m x : Nat} (ha : a < 64) (hm : m < 8) (hx : x < 2 ^ 17) : a * 2 ^ 20 + m * 2 ^ 17 + x < 2 ^ 26 := by
  omega
theorem fields_cWord {a m x w : Nat} (ha : a < 64) (hm : m < 8) (hx : x < 2 ^ 17) (hw : w = a * 2 ^ 20 + m * 2 ^ 17 + x) :
    field 25 20 w = a ∧ field 19 17 w = m ∧ w % 2 ^ 17 = x := by
  unfold field
  omega

theorem reads_encode_c (i : Instr) (h : i.wellFormed = true) (hk : clsOf i = some .c) : Reads .c (encode i) i := by
  cases i with
  | br o | call o =>
    have hl := bitsOf_lt 17 o
    refine reads_encC (by omega) fun x hx => judge_reads ?_ ?_
    · simp (disch := omega) [field_above]
    · have hx : x % 2 ^ 17 = bitsOf 17 o := by omega
      rw [offOf_low h hx]
  | bri a | calli a | brswap a =>
    have ha : a < 64 := of_decide_eq_true h
    refine reads_encC (by omega) fun x hx => judge_reads ?_ ?_
    · have hz : field 19 0 x = 0 := by unfold field; omega
      simpa using hz
    · have hf : field 25 20 x = a := by unfold field; omega
      rw [hf]
  | bc c a o =>
    obtain ⟨ha, ho⟩ := both h
    have hc := bCondCode_lt c
    refine reads_encC (fits_cWord (of_decide_eq_true ha) (by omega) (bitsOf_lt 17 o)) fun x hx => ?_
    obtain ⟨h1, h2, h3⟩ := fields_cWord (of_decide_eq_true ha) (by omega : bCondCode c < 8) (bitsOf_lt 17 o) hx
    exact judgeWith_reads (v := c) (by rw [h2, bCondOf_code]) (by simp) (by rw [h1, offOf_low ho h3])
  | bp m p o =>
    obtain ⟨hp, ho⟩ := both h
    have hp : p < 16 := of_decide_eq_true hp
    have hm := bTestCode_lt m
    have hl := bitsOf_lt 17 o
    refine reads_encC (by omega) fun x hx => judge_reads ?_ ?_
    · have h3 : field 19 17 x = 0 := by unfold field; omega
      simpa using h3
    · have h1 : field 25 22 x = p := by unfold field; omega
      have h2 : field 21 20 x = bTestCode m := by unfold field; omega
      have h4 : x % 2 ^ 17 = bitsOf 17 o := by omega
      rw [h1, h2, bTestOf_code, offOf_low ho h4]
  | ret | lend | halt | rft | rstrt => exact reads_encC (by decide) fun x hx => by subst hx; rfl
  | loop a stg o =>
    obtain ⟨h, ho⟩ := both h
    obtain ⟨ha, hs⟩ := both h
    refine reads_encC (fits_cWord (of_decide_eq_true ha) (of_decide_eq_true hs) (bitsOf_lt 17 o)) fun x hx => ?_
    obtain ⟨h1, h2, h3⟩ := fields_cWord (of_decide_eq_true ha) (of_decide_eq_true hs) (bitsOf_lt 17 o) hx
    show Verdict.ok (.loop (field 25 20 x) (field 19 17 x) (offOf x)) = _
    rw [h1, h2, offOf_low ho h3]
  | lbrk k =>
    have hk : k < 6 := of_decide_eq_true h
    refine reads_encC (by omega) fun x hx => judge_reads ?_ ?_
    · simp (disch := omega) [field_low, field_above]
      omega
    · simp (disch := omega) [field_low, hx]
  | trap k =>
    have hk : k < 65536 := of_decide_eq_true h
    refine reads_encC (by omega) fun x hx => judge_reads ?_ ?_
    · simp (disch := omega) [field_above]
    · simp (disch := omega) [field_low, hx]
  | pwin a m =>
    obtain ⟨ha, hm⟩ := both h
    have ha : a < 64 := of_decide_eq_true ha
    have hm : m < 256 := of_decide_eq_true hm
    refine reads_encC (by omega) fun x hx => judge_reads ?_ ?_
    · have h3 : field 11 0 x = 0 := by unfold field; omega
      simpa using h3
    · have h1 : field 25 20 x = a := by unfold field; omega
      have h2 : field 19 12 x = m := by unfold field; omega
      rw [h1, h2]
  | _ => cases hk
/-! ## A (R49) -/

theorem reads_encA {op d a m6 : Nat} {b : Src} {i : Instr} (hd : d < 64) (ha : a < 64) (hb : b.ok = true)
    (hm : m6 < 64) (h : decodeA ⟨op, d, a, srcReg b, srcLs b, m6⟩ = .ok i) (ho : op < 64 := by decide) : Reads .a (encA op d a b m6) i := by
  have hr := srcReg_lt hb
  have hl := srcLs_lt hb
  constructor
  · simp only [encA, AWord.toNat, List.mem_cons, reduceCtorEq, List.not_mem_nil, or_self, if_false]
    omega
  · simp only [decodeCls, encA]
    rw [aWord_ofNat_toNat _ ho hd ha hr hl hm, h]
/-- The operands of a form with a scalar destination and two sources. -/
theorem fit_dab {d a : Nat} {b : Src} (h : (sOk d && sOk a && b.ok) = true) : d < 64 ∧ a < 64 ∧ b.ok = true := by
  simpa [sOk, and_assoc] using h
theorem fit_da {d a : Nat} (h : (sOk d && sOk a) = true) : d < 64 ∧ a < 64 := by
  simpa [sOk] using h

/-- SFCVT, where its conversion has a name. -/
theorem decodeA_sfcvt {x : AWord} {c : SfConv} (ho : x.op = 0x2B) (hc : sfConvOf (field 5 2 x.m6) = some c) :
    decodeA x = judge (.sfcvt c (rmOf (field 1 0 x.m6)) x.sd x.sa)
      [ck 2 (!c.exact || field 1 0 x.m6 == 0), zero x.sb, zero x.ls] := by
  obtain ⟨op, sd, sa, sb, ls, m6⟩ := x
  subst ho
  change (match sfConvOf (field 5 2 m6) with | some c => _ | none => _) = _
  rw [hc]

theorem reads_encode_a (i : Instr) (h : i.wellFormed = true) (hk : clsOf i = some .a) : Reads .a (encode i) i := by
  cases i with
  | add d a b | sub d a b | and d a b | or d a b | xor d a b | andn d a b | shl d a b | shr d a b | sar d a b | rol d a b
  | min d a b | max d a b | minn d a b | maxn d a b | bfi d a b | smix d a b | mul d a b | mulh d a b | mulhn d a b
  | madd d a b | div d a b | divn d a b | rem d a b | remn d a b =>
    obtain ⟨hd, ha, hb⟩ := fit_dab h
    exact reads_encA hd ha hb (by decide) (judge_reads (by simp) (by simp [srcOf_src]))
  | scmp c d a b =>
    obtain ⟨hd, ha, hb⟩ := fit_dab h
    have hc := sCondCode_lt c
    exact reads_encA hd ha hb (by omega) (judgeWith_reads (v := c) (by simp (disch := omega) [field_low, sCondOf_code])
      (by simp (disch := omega) [field_above]) (by simp [srcOf_src]))
  | sel d a b c =>
    obtain ⟨h, hc⟩ := both h
    obtain ⟨hd, ha, hb⟩ := fit_dab h
    exact reads_encA hd ha hb (of_decide_eq_true hc) (judge_reads (by simp) (by simp [srcOf_src]))
  | movl m d a b =>
    obtain ⟨h, hm⟩ := both h
    obtain ⟨hd, ha, hb⟩ := fit_dab h
    have hc := movCode_lt m
    exact reads_encA hd ha hb (by omega) (judge_reads (by simpa (disch := omega) [field_above, field_low, movCode_hk] using hm)
      (by simp (disch := omega) [srcOf_src, field_low, movOf_code]))
  | ext w sx d a =>
    obtain ⟨hd, ha⟩ := fit_da h
    have hc := extCode_lt w
    have hs := bit_lt sx
    exact reads_encA hd ha rfl (by omega) (judgeWith_reads (v := w) (by simp (disch := omega) [field_packed_low, extOf_code])
      (by simp (disch := omega) [field_above, srcReg, srcLs]) (by simp (disch := omega) [bitOf_packed]))
  | bfx sx d a b =>
    obtain ⟨hd, ha, hb⟩ := fit_dab h
    have hs := bit_lt sx
    exact reads_encA hd ha hb (by omega) (judge_reads (by simp (disch := omega) [field_above]) (by simp [srcOf_src]))
  | clz d a | ctz d a | popc d a =>
    obtain ⟨hd, ha⟩ := fit_da h
    exact reads_encA hd ha rfl (by decide) rfl
  | lea d a b sh =>
    obtain ⟨h, hs⟩ := both h
    obtain ⟨hd, ha, hb⟩ := fit_dab h
    have hs := of_decide_eq_true hs
    exact reads_encA hd ha hb (by omega) (judge_reads (by simp (disch := omega) [field_above]) (by simp (disch := omega) [srcOf_src, field_low]))
  | lidx d a b n =>
    obtain ⟨h, hs⟩ := both h
    obtain ⟨hd, ha, hb⟩ := fit_dab h
    have hs := of_decide_eq_true hs
    exact reads_encA hd ha hb (by omega) (judge_reads (by simp (disch := omega) [field_above, field_low, hs])
      (by simp (disch := omega) [srcOf_src, field_low]))
  | sfadd f rm d a b | sfmul f rm d a b | sfma f rm d a b =>
    obtain ⟨hd, ha, hb⟩ := fit_dab h
    have hf := sfFmtCode_lt f
    have hr := rmCode_lt rm
    exact reads_encA hd ha hb (by omega) (judgeWith_reads (v := f) (by simp (disch := omega) [Nat.add_comm, field_packed_high, sfFmtOf_code])
      (by simp (disch := omega) [field_above]) (by simp (disch := omega) [Nat.add_comm, srcOf_src, field_packed_low, rmOf_code]))
  | sfcvt c rm d a =>
    obtain ⟨h, hx⟩ := both h
    obtain ⟨hd, ha⟩ := fit_da h
    have hc := sfConvCode_lt c
    have hr := rmCode_lt rm
    have hm : field 1 0 (4 * sfConvCode c + rmCode rm) = rmCode rm := by
      rw [Nat.add_comm]
      exact field_packed_low rfl hr
    refine reads_encA hd ha rfl (by omega) ((decodeA_sfcvt (c := c) rfl ?_).trans (judge_reads ?_ ?_))
    · simp (disch := omega) [Nat.add_comm, field_packed_high, sfConvOf_code]
    · simpa [hm, srcReg, srcLs, rmCode_zero] using hx
    · simp [hm, rmOf_code]
  | sfcmp f c d a b =>
    obtain ⟨hd, ha, hb⟩ := fit_dab h
    have hf := sfFmtCode_lt f
    have hr := fCondCode_lt c
    exact reads_encA hd ha hb (by omega) (judgeWith_reads (v := f)
      (by simp (disch := omega) [Nat.add_comm, field_packed_high, sfFmtOf_code])
      (by simp (disch := omega) [field_above])
      (by simp (disch := omega) [Nat.add_comm, srcOf_src, field_packed_low, fCondOf_code]))
  | _ => cases hk

/-! ## M (R50, R182 to R189, R205 to R208) -/

theorem sizeCode_lt (z : MSize) : sizeCode z < 8 := by cases z <;> decide
theorem amoCode_lt (o : AmoOp) : amoCode o < 16 := by cases o <;> decide
theorem amoOf_code (o : AmoOp) : amoOf (amoCode o) = some o := by cases o <;> rfl
theorem pstatCode_lt (k : PstatKind) : pstatCode k < 4 := by cases k <;> decide
theorem pstatOf_code (k : PstatKind) : pstatOf (pstatCode k) = some k := by cases k <;> rfl
/-- A size and a flag above it. -/
theorem size_packed (z : MSize) (b : Bool) : sizeCode z + 8 * bit b < 16 ∧ field 2 0 (sizeCode z + 8 * bit b) = sizeCode z ∧
    bitOf 3 (sizeCode z + 8 * bit b) = b := by
  have hz := sizeCode_lt z
  have hb := bit_lt b
  exact ⟨by omega, field_packed_low rfl hz, bitOf_packed rfl hz⟩
/-- What an offset puts in `ls` and in `off5` (R50, R57). -/
def MOff.ls : MOff → Nat
  | .imm _ => 0
  | .lit k => k + 1
def MOff.bits : MOff → Nat
  | .imm i => bitsOf 5 i
  | .lit _ => 0
/-- The fields of an encoded M word. -/
@[simps] def mWord (op rt : Nat) (ea : Ea) (q : Nat) : MWord :=
  { op := op, rt := rt, sb := ea.base, ls := ea.off.ls, off5 := ea.off.bits, q := q }
theorem encM_eq (op rt : Nat) (ea : Ea) (q : Nat) : encM op rt ea q = (mWord op rt ea q).toNat := by
  obtain ⟨base, off⟩ := ea
  cases off <;> rfl
theorem eaOf_mWord {op rt q : Nat} {ea : Ea} (h : ea.ok = true) : eaOf (mWord op rt ea q) = ea := by
  obtain ⟨base, off⟩ := ea
  cases off with
  | imm i =>
    obtain ⟨-, hi⟩ := both h
    obtain ⟨lo, hi⟩ := both hi
    have hs := signed_bitsOf 5 (by decide) i (of_decide_eq_true lo) (of_decide_eq_true hi)
    simp [eaOf, moffOf, MOff.ls, MOff.bits, hs]
  | lit k => simp [eaOf, moffOf, MOff.ls]
@[simp] theorem mChk_mWord (op rt : Nat) (ea : Ea) (q : Nat) : (mChk (mWord op rt ea q)).2 = true := by
  obtain ⟨base, off⟩ := ea
  cases off <;> simp [mChk, replaced, MOff.ls, MOff.bits]
@[simp] theorem mScalar_snd (x : MWord) : (mScalar x).2 = true ↔ x.rt < 64 := by simp [mScalar]
@[simp] theorem mVector_snd (x : MWord) : (mVector x).2 = true ↔ x.rt < 384 := by simp [mVector]
theorem reads_encM {op rt q : Nat} {ea : Ea} {i : Instr} (ht : rt < 384) (he : ea.ok = true) (hq : q < 16)
    (h : decodeM (mWord op rt ea q) = .ok i) (ho : op < 64 := by decide) : Reads .m (encM op rt ea q) i := by
  obtain ⟨hb, hoff⟩ := both he
  have hb : ea.base < 64 := of_decide_eq_true hb
  have hl : ea.off.ls < 4 := by
    cases hk : ea.off with
    | imm i => simp [MOff.ls]
    | lit k => rw [hk] at hoff; have := of_decide_eq_true hoff; simp only [MOff.ls]; omega
  have h5 : ea.off.bits < 32 := by
    cases ea.off with
    | imm i => exact bitsOf_lt 5 i
    | lit k => simp [MOff.bits]
  rw [encM_eq]
  constructor
  · simp only [MWord.toNat, mWord, List.mem_cons, reduceCtorEq, List.not_mem_nil, or_self, if_false]
    omega
  · simp only [decodeCls]
    rw [mWord_ofNat_toNat _ ho (by simpa using by omega) hb hl h5 hq, h]

section
variable {x : MWord} {z : MSize} {o : AmoOp}

/-! The forms whose size or operation has a name. -/

theorem decodeM_lds (ho : x.op = 0x00) (hz : sizeOf' (field 2 0 x.q) = some z) : decodeM x =
    judge (.lds z (bitOf 3 x.q) x.rt (eaOf x)) [mChk x, mScalar x, ck 2 (z.signOk (bitOf 3 x.q)), ck 2 (pairOk z x.rt)] := by
  simp only [decodeM, ho, hz]
theorem decodeM_sts (ho : x.op = 0x01) (hz : sizeOf' (field 2 0 x.q) = some z) : decodeM x =
    judge (.sts z (bitOf 3 x.q) x.rt (eaOf x)) [mChk x, mScalar x, ck 2 (pairOk z x.rt)] := by
  simp only [decodeM, ho, hz]
theorem decodeM_amo (ho : x.op = 0x07) (hz : amoOf x.q = some o) : decodeM x =
    judge (.amo o x.rt (eaOf x)) [mChk x, mScalar x, ck 2 (casOk o x.rt)] := by
  simp only [decodeM, ho, hz]
theorem decodeM_gld (ho : x.op = 0x10) (hz : sizeOf' (field 2 0 x.q) = some z) : decodeM x =
    judge (.gld z (bitOf 3 x.q) x.rt (eaOf x)) [mChk x, mScalar x, ck 2 (z.signOk (bitOf 3 x.q)), ck 2 (pairOk z x.rt)] := by
  simp only [decodeM, ho, hz]
theorem decodeM_gst (ho : x.op = 0x11) (hz : sizeOf' (field 2 0 x.q) = some z) : decodeM x =
    judge (.gst z x.rt (eaOf x)) [mChk x, mScalar x, zero (field 3 3 x.q), ck 2 (pairOk z x.rt)] := by
  simp only [decodeM, ho, hz]
theorem decodeM_gamo (ho : x.op = 0x14) (hz : amoOf x.q = some o) : decodeM x =
    judge (.gamo o x.rt (eaOf x)) [mChk x, mScalar x, ck 2 (casOk o x.rt)] := by
  simp only [decodeM, ho, hz]
end

theorem fit_tea {t : Nat} {ea : Ea} (h : (sOk t && ea.ok) = true) : t < 64 ∧ ea.ok = true := by
  simpa [sOk] using h
theorem fit_vea {t : Nat} {ea : Ea} (h : (vOk t && ea.ok) = true) : t < 384 ∧ ea.ok = true := by
  simpa [vOk] using h

theorem reads_encode_m (i : Instr) (h : i.wellFormed = true) (hk : clsOf i = some .m) : Reads .m (encode i) i := by
  cases i with
  | lds z sx t ea =>
    obtain ⟨h, hp⟩ := both h
    obtain ⟨h, hs⟩ := both h
    obtain ⟨ht, he⟩ := fit_tea h
    obtain ⟨hq, hc, hx⟩ := size_packed z sx
    exact reads_encM (by omega) he hq ((decodeM_lds (z := z) rfl (by simp [hc, sizeOf_code])).trans
      (judge_reads (by simp [hx, ht, hs, hp]) (by simp [hx, eaOf_mWord he])))
  | gld z sx t ea =>
    obtain ⟨h, hp⟩ := both h
    obtain ⟨h, hs⟩ := both h
    obtain ⟨ht, he⟩ := fit_tea h
    obtain ⟨hq, hc, hx⟩ := size_packed z sx
    exact reads_encM (by omega) he hq ((decodeM_gld (z := z) rfl (by simp [hc, sizeOf_code])).trans
      (judge_reads (by simp [hx, ht, hs, hp]) (by simp [hx, eaOf_mWord he])))
  | sts z bulk t ea =>
    obtain ⟨h, hp⟩ := both h
    obtain ⟨ht, he⟩ := fit_tea h
    obtain ⟨hq, hc, hx⟩ := size_packed z bulk
    exact reads_encM (by omega) he hq ((decodeM_sts (z := z) rfl (by simp [hc, sizeOf_code])).trans
      (judge_reads (by simp [ht, hp]) (by simp [hx, eaOf_mWord he])))
  | gst z t ea =>
    obtain ⟨h, hp⟩ := both h
    obtain ⟨ht, he⟩ := fit_tea h
    have hz := sizeCode_lt z
    exact reads_encM (by omega) he (by omega) ((decodeM_gst (z := z) rfl (by simp (disch := omega) [field_low, sizeOf_code])).trans
      (judge_reads (by simp (disch := omega) [ht, hp, field_above]) (by simp [eaOf_mWord he])))
  | amo o t ea =>
    obtain ⟨h, hc⟩ := both h
    obtain ⟨ht, he⟩ := fit_tea h
    exact reads_encM (by omega) he (amoCode_lt o) ((decodeM_amo (o := o) rfl (by simp [amoOf_code])).trans
      (judge_reads (by simp [ht, hc]) (by simp [eaOf_mWord he])))
  | gamo o t ea =>
    obtain ⟨h, hc⟩ := both h
    obtain ⟨ht, he⟩ := fit_tea h
    exact reads_encM (by omega) he (amoCode_lt o) ((decodeM_gamo (o := o) rfl (by simp [amoOf_code])).trans
      (judge_reads (by simp [ht, hc]) (by simp [eaOf_mWord he])))
  | ldv t ea | stv t ea | gldv t ea | gstv t ea =>
    obtain ⟨ht, he⟩ := fit_vea h
    exact reads_encM ht he (by decide) (judge_reads (by simp [ht]) (by simp [eaOf_mWord he]))
  | ldr k t ea =>
    obtain ⟨h, he⟩ := both h
    obtain ⟨hk, ht⟩ := both h
    have hk : k < 4 := of_decide_eq_true hk
    have ht : t < 384 := of_decide_eq_true ht
    exact reads_encM ht he (by omega) (judge_reads (by simp (disch := omega) [ht, field_above])
      (by simp (disch := omega) [eaOf_mWord he, field_low]))
  | str k bulk t ea =>
    obtain ⟨h, he⟩ := both h
    obtain ⟨hk, ht⟩ := both h
    have hk : k < 4 := of_decide_eq_true hk
    have ht : t < 384 := of_decide_eq_true ht
    have hb := bit_lt bulk
    have h1 : field 1 0 (k + 8 * bit bulk) = k := by unfold field; omega
    have h2 : field 2 2 (k + 8 * bit bulk) = 0 := by unfold field; omega
    have h3 : bitOf 3 (k + 8 * bit bulk) = bulk := bitOf_packed rfl (by omega)
    exact reads_encM ht he (by omega) (judge_reads (by simp [ht, h2]) (by simp [eaOf_mWord he, h1, h3]))
  | ldb z t ea =>
    obtain ⟨ht, he⟩ := fit_vea h
    have hz := sizeCode_lt z
    exact reads_encM ht he (by omega) (judgeWith_reads (v := z) (by simp (disch := omega) [field_low, sizeOf_code])
      (by simp (disch := omega) [ht, field_above]) (by simp [eaOf_mWord he]))
  | pseal t ea =>
    obtain ⟨ht, he⟩ := fit_tea h
    exact reads_encM (by omega) he (by decide) (judge_reads (by simp [ht]) (by simp [eaOf_mWord he]))
  | pstat k t ea =>
    obtain ⟨ht, he⟩ := fit_tea h
    have hc := pstatCode_lt k
    exact reads_encM (by omega) he (by omega) (judgeWith_reads (v := k) (by simp (disch := omega) [field_low, pstatOf_code])
      (by simp (disch := omega) [ht, field_above]) (by simp [eaOf_mWord he]))
  | _ => cases hk

end Sys2Proof
end

/-! SUPPORT. The words of the classes F, I and P are read back (R54). -/
section
namespace Sys2Proof

/-! ## F, I and P (R54) -/

/-- The fields of an encoded F, I or P word. -/
@[simps] def vWord (op fmt rm sat vd : Nat) (a : VReg) (b : VSrc) (c : VReg) (g : PredG) (m6 : Nat) : VWord :=
  { op := op, fmt := fmt, rm := rm, sat := sat, vd := vd, va := a.n, vb := vsrcN b, vc := c.n, ha := bit a.held,
    hb := vsrcH b, hc := bit c.held, pr := g.pr, ps := bit g.ps, ls := vsrcLs b, m6 := m6 }
theorem vWord_fits {op fmt rm sat vd m6 : Nat} {a c : VReg} {b : VSrc} {g : PredG} (ho : op < 64) (hf : fmt < 8) (hr : rm < 4)
    (hs : sat < 2) (hd : vd < 384) (ha : a.ok = true) (hb : b.ok = true) (hc : c.ok = true) (hg : g.ok = true) (hm : m6 < 64) :
    (vWord op fmt rm sat vd a b c g m6).Fits := by
  have ha : a.n < 384 := of_decide_eq_true ha
  have hc : c.n < 384 := of_decide_eq_true hc
  have hg : g.pr < 16 := of_decide_eq_true (both hg).1
  have h1 := bit_lt a.held
  have h2 := bit_lt c.held
  have h3 := bit_lt g.ps
  have h4 : vsrcN b < 384 ∧ vsrcH b < 2 ∧ vsrcLs b < 4 := by
    cases b with
    | vec r => exact ⟨of_decide_eq_true hb, bit_lt r.held, by simp [vsrcLs]⟩
    | lit k => have hk : k < 3 := of_decide_eq_true hb; simp only [vsrcN, vsrcH, vsrcLs]; omega
  obtain ⟨hn, hh, hl⟩ := h4
  simp only [VWord.Fits, vWord]
  refine ⟨?_, ?_, ?_, ?_, ?_, ?_, ?_, ?_, ?_, ?_, ?_, ?_, ?_, ?_, ?_⟩ <;> omega
theorem vWord_lt {x : VWord} (h : x.Fits) : x.toNat < 2 ^ 64 := by
  simp only [VWord.Fits] at h
  simp only [VWord.toNat]
  omega

section
variable {op fmt rm sat vd m6 : Nat} {a c : VReg} {b : VSrc} {g : PredG} {i : Instr}

theorem reads_encV_f (hf : fmt < 8) (hr : rm < 4) (hs : sat < 2) (hd : vd < 384) (ha : a.ok = true) (hb : b.ok = true)
    (hc : c.ok = true) (hg : g.ok = true) (hm : m6 < 64) (h : decodeF (vWord op fmt rm sat vd a b c g m6) = .ok i)
    (ho : op < 64 := by decide) : Reads .f (encV op fmt rm sat vd a b c g m6) i :=
  have fits := vWord_fits ho hf hr hs hd ha hb hc hg hm
  ⟨vWord_lt fits, (congrArg decodeF (vWord_ofNat_toNat _ fits)).trans h⟩
theorem reads_encV_i (hf : fmt < 8) (hr : rm < 4) (hs : sat < 2) (hd : vd < 384) (ha : a.ok = true) (hb : b.ok = true)
    (hc : c.ok = true) (hg : g.ok = true) (hm : m6 < 64) (h : decodeI (vWord op fmt rm sat vd a b c g m6) = .ok i)
    (ho : op < 64 := by decide) : Reads .i (encV op fmt rm sat vd a b c g m6) i :=
  have fits := vWord_fits ho hf hr hs hd ha hb hc hg hm
  ⟨vWord_lt fits, (congrArg decodeI (vWord_ofNat_toNat _ fits)).trans h⟩
theorem reads_encV_p (hf : fmt < 8) (hr : rm < 4) (hs : sat < 2) (hd : vd < 384) (ha : a.ok = true) (hb : b.ok = true)
    (hc : c.ok = true) (hg : g.ok = true) (hm : m6 < 64) (h : decodeP (vWord op fmt rm sat vd a b c g m6) = .ok i)
    (ho : op < 64 := by decide) : Reads .p (encV op fmt rm sat vd a b c g m6) i :=
  have fits := vWord_fits ho hf hr hs hd ha hb hc hg hm
  ⟨vWord_lt fits, (congrArg decodeP (vWord_ofNat_toNat _ fits)).trans h⟩

/-! The operands of a word are read back, and its checks hold. -/

@[simp] theorem predOf_vWord : predOf (vWord op fmt rm sat vd a b c g m6) = g := by simp [predOf, held_bit]
@[simp] theorem vaOf_vWord : vaOf (vWord op fmt rm sat vd a b c g m6) = a := by simp [vaOf, held_bit]
@[simp] theorem vcOf_vWord : vcOf (vWord op fmt rm sat vd a b c g m6) = c := by simp [vcOf, held_bit]
@[simp] theorem vbOf_vWord : vbOf (vWord op fmt rm sat vd a b c g m6) = b := by
  cases b <;> simp [vbOf, vsrcN, vsrcH, vsrcLs, held_bit]
theorem srcOf_asVb (b : Src) : srcOf (vsrcLs (asVb b)) (vsrcN (asVb b)) = b := by
  cases b <;> simp [srcOf, asVb, vsrcN, vsrcLs]
theorem passed_cPred (h : g.ok = true) : Passed (cPred (vWord op fmt rm sat vd a b c g m6)) := by
  have hg := (both h).2
  obtain ⟨pr, ps⟩ := g
  cases ps with
  | false => simp [cPred, bit]
  | true => simpa [cPred, bit] using hg
theorem passed_cVb (h : b.ok = true) : Passed (cVb (vWord op fmt rm sat vd a b c g m6)) := by
  cases b with
  | vec r => simpa [cVb, replaced, vsrcN, vsrcH, vsrcLs] using of_decide_eq_true h
  | lit k => simp [cVb, replaced, vsrcN, vsrcH]
/-- A scalar in the place of `vb`. -/
theorem passed_cSb {b : Src} (h : b.ok = true) : Passed (cSb (vWord op fmt rm sat vd a (asVb b) c g m6)) := by
  cases b with
  | reg n => simpa [cSb, replaced, asVb, vsrcN, vsrcH, vsrcLs, bit] using of_decide_eq_true h
  | lit k => simp [cSb, replaced, asVb, vsrcN, vsrcH]
end
theorem asVb_ok {b : Src} (h : b.ok = true) : (asVb b).ok = true := by
  cases b with
  | reg n => have hn : n < 64 := of_decide_eq_true h; simp only [asVb, VSrc.ok, decide_eq_true_eq]; omega
  | lit k => exact h
theorem asVc_ok {n : Nat} (h : n < 384) : (asVc n).ok = true := decide_eq_true h
theorem vreg_lt {a : VReg} (h : a.ok = true) : a.n < 384 := of_decide_eq_true h
@[simp] theorem bit_false : bit false = 0 := rfl
@[simp] theorem noReg_n : noReg.n = 0 := rfl
@[simp] theorem noReg_held : noReg.held = false := rfl
@[simp] theorem asVc_n (n : Nat) : (asVc n).n = n := rfl
@[simp] theorem asVc_held (n : Nat) : (asVc n).held = false := rfl
@[simp] theorem vsrcN_noB : vsrcN noB = 0 := rfl
@[simp] theorem vsrcH_noB : vsrcH noB = 0 := rfl
@[simp] theorem vsrcLs_noB : vsrcLs noB = 0 := rfl
@[simp] theorem noG_pr : noG.pr = 0 := rfl
@[simp] theorem noG_ps : noG.ps = false := rfl
@[simp] theorem passed_cVd (x : VWord) : Passed (cVd x) ↔ x.vd < 384 := by simp [cVd]
@[simp] theorem passed_cVa (x : VWord) : Passed (cVa x) ↔ x.va < 384 := by simp [cVa]
@[simp] theorem passed_cVc (x : VWord) : Passed (cVc x) ↔ x.vc < 384 := by simp [cVc]
@[simp] theorem passed_noVa (x : VWord) : Passed (noVa x) ↔ x.va = 0 ∧ x.ha = 0 := by simp [noVa]
@[simp] theorem passed_noVb (x : VWord) : Passed (noVb x) ↔ x.vb = 0 ∧ x.hb = 0 ∧ x.ls = 0 := by simp [noVb]
@[simp] theorem passed_noVc (x : VWord) : Passed (noVc x) ↔ x.vc = 0 ∧ x.hc = 0 := by simp [noVc]
@[simp] theorem passed_cPd (x : VWord) : Passed (cPd x) ↔ x.vd < 16 ∧ x.vd % 16 ≠ 0 := by simp [cPd]
@[simp] theorem passed_noRm (x : VWord) : Passed (noRm x) ↔ x.rm = 0 := by simp [noRm]
@[simp] theorem passed_noSat (x : VWord) : Passed (noSat x) ↔ x.sat = 0 := by simp [noSat]
@[simp] theorem passed_noM6 (x : VWord) : Passed (noM6 x) ↔ x.m6 = 0 := by simp [noM6]
@[simp] theorem passed_noPred (x : VWord) : Passed (noPred x) ↔ x.pr = 0 ∧ x.ps = 0 := by simp [noPred]

theorem fit_dag {d : Nat} {a : VReg} {g : PredG} (h : (vOk d && a.ok && g.ok) = true) : d < 384 ∧ a.ok = true ∧ g.ok = true := by
  simpa [vOk, and_assoc] using h
theorem fit_dabg {d : Nat} {a : VReg} {b : VSrc} {g : PredG} (h : (vOk d && a.ok && b.ok && g.ok) = true) :
    d < 384 ∧ a.ok = true ∧ b.ok = true ∧ g.ok = true := by
  simpa [vOk, and_assoc] using h
theorem fit_pabg {p : Nat} {a : VReg} {b : VSrc} {g : PredG} (h : (pdOk p && a.ok && b.ok && g.ok) = true) :
    (p < 16 ∧ p % 16 ≠ 0) ∧ a.ok = true ∧ b.ok = true ∧ g.ok = true := by
  simp only [pdOk, Bool.and_eq_true, decide_eq_true_eq] at h
  obtain ⟨⟨⟨hp, ha⟩, hb⟩, hg⟩ := h
  exact ⟨by omega, ha, hb, hg⟩

/-! ### F (R161 to R169) -/

theorem cvtDstCode_lt (d : CvtDst) : cvtDstCode d < 8 := by cases d <;> decide
theorem cvtSrcCode_lt (s : CvtSrc) : cvtSrcCode s < 8 := by cases s <;> decide
theorem cvtDstOf_code (d : CvtDst) : cvtDstOf (bit d.isInt) (cvtDstCode d) = some d := by cases d <;> rfl
theorem cvtSrcOf_code (s : CvtSrc) : cvtSrcOf (cvtSrcCode s) = s := by cases s <;> rfl
theorem parts_cvt (s : CvtSrc) (d : CvtDst) : parts s.bytes d.bytes ≤ 4 := by cases s <;> cases d <;> decide
/-- VFCVT, where its destination has a name. -/
theorem decodeF_vfcvt {x : VWord} {dst : CvtDst} (ho : x.op = 0x0E) (hd : cvtDstOf (field 5 5 x.m6) x.fmt = some dst) :
    decodeF x =
      let src := cvtSrcOf (field 2 0 x.m6)
      let part := field 4 3 x.m6
      let sat := x.sat == 1
      judge (.vfcvt dst src (rmOf x.rm) sat part x.vd (vaOf x) (predOf x))
        ([ck 2 (!cvtSame dst src), ck 2 (!(dst.isInt && src.isInt)), ck 2 (!(sat && dst.isInt)),
          ck 2 (part < parts src.bytes dst.bytes), ck 2 (!(cvtExact dst src && sat)),
          ck 4 (!(cvtExact dst src && x.rm != 0))] ++ (cVd x ++ cVa x ++ noVb x ++ noVc x ++ cPred x)) := by
  obtain ⟨op, fmt, rm, sat, vd, va, vb, vc, ha, hb, hc, pr, ps, ls, m6⟩ := x
  subst ho
  change (match cvtDstOf (field 5 5 m6) fmt with | some dst => _ | none => _) = _
  rw [hd]

theorem okScale_ok {b : Src} (h : b.okScale = true) : b.ok = true := by
  cases b with
  | reg n => have hn : n < 16 := of_decide_eq_true h; simp only [Src.ok, decide_eq_true_eq]; omega
  | lit k => exact h

theorem reads_encode_f (i : Instr) (h : i.wellFormed = true) (hk : clsOf i = some .f) : Reads .f (encode i) i := by
  cases i with
  | vfadd f rm d a b g | vfsub f rm d a b g | vfmul f rm d a b g =>
    obtain ⟨hd, ha, hb, hg⟩ := fit_dabg h
    have hf := sfFmtCode_lt f
    exact reads_encV_f (by omega) (rmCode_lt rm) (by decide) hd ha hb rfl hg (by decide)
      (judgeWith_reads (v := f) (by simp [sfFmtOf_code]) (by simp [hd, vreg_lt ha, passed_cVb hb, passed_cPred hg])
        (by simp [rmOf_code]))
  | vfma f rm d a b c g | vfms f rm d a b c g | vfnma f rm d a b c g =>
    obtain ⟨h, hg⟩ := both h
    obtain ⟨h, hc⟩ := both h
    obtain ⟨h, hb⟩ := both h
    obtain ⟨hd, ha⟩ := both h
    have hd : d < 384 := of_decide_eq_true hd
    have hf := sfFmtCode_lt f
    exact reads_encV_f (by omega) (rmCode_lt rm) (by decide) hd ha hb hc hg (by decide)
      (judgeWith_reads (v := f) (by simp [sfFmtOf_code])
        (by simp [hd, vreg_lt ha, vreg_lt hc, passed_cVb hb, passed_cPred hg]) (by simp [rmOf_code]))
  | vfmin f d a b g | vfmax f d a b g =>
    obtain ⟨hd, ha, hb, hg⟩ := fit_dabg h
    have hf := sfFmtCode_lt f
    exact reads_encV_f (by omega) (by decide) (by decide) hd ha hb rfl hg (by decide)
      (judgeWith_reads (v := f) (by simp [sfFmtOf_code]) (by simp [hd, vreg_lt ha, passed_cVb hb, passed_cPred hg]) (by simp))
  | vfabs f d a g | vfneg f d a g =>
    obtain ⟨hd, ha, hg⟩ := fit_dag h
    have hf := sfFmtCode_lt f
    exact reads_encV_f (by omega) (by decide) (by decide) hd ha rfl rfl hg (by decide)
      (judgeWith_reads (v := f) (by simp [sfFmtOf_code]) (by simp [hd, vreg_lt ha, passed_cPred hg]) (by simp))
  | vfrcp f rm d a g | vfrsq f rm d a g | vfexp2 f rm d a g =>
    obtain ⟨hd, ha, hg⟩ := fit_dag h
    have hf := sfFmtCode_lt f
    exact reads_encV_f (by omega) (rmCode_lt rm) (by decide) hd ha rfl rfl hg (by decide)
      (judgeWith_reads (v := f) (by simp [sfFmtOf_code]) (by simp [hd, vreg_lt ha, passed_cPred hg]) (by simp [rmOf_code]))
  | vfcmp f c p a b g =>
    obtain ⟨hp, ha, hb, hg⟩ := fit_pabg h
    have hf := sfFmtCode_lt f
    exact reads_encV_f (by omega) (fCondCode_lt c) (by decide) (by omega) ha hb rfl hg (by decide)
      (judgeWith_reads (v := f) (by simp [sfFmtOf_code]) (by simp [hp, vreg_lt ha, passed_cVb hb, passed_cPred hg])
        (by simp [fCondOf_code]))
  | vfcvt dst src rm sat part d a g =>
    obtain ⟨h, hx⟩ := both h
    obtain ⟨h, hp⟩ := both h
    obtain ⟨h, hs⟩ := both h
    obtain ⟨h, hi⟩ := both h
    obtain ⟨h, hsame⟩ := both h
    obtain ⟨hd, ha, hg⟩ := fit_dag h
    have hsrc := cvtSrcCode_lt src
    have hpart : part < 4 := lt_of_lt_of_le (of_decide_eq_true hp) (parts_cvt src dst)
    have hint := bit_lt dst.isInt
    have h1 : field 2 0 (cvtSrcCode src + 8 * part + 32 * bit dst.isInt) = cvtSrcCode src := by unfold field; omega
    have h2 : field 4 3 (cvtSrcCode src + 8 * part + 32 * bit dst.isInt) = part := by unfold field; omega
    have h3 : field 5 5 (cvtSrcCode src + 8 * part + 32 * bit dst.isInt) = bit dst.isInt := by unfold field; omega
    have hexact : (cvtExact dst src = false ∨ sat = false) ∧ (cvtExact dst src = false ∨ rmCode rm = 0) := by
      simp only [rmCode_zero]
      revert hx
      cases cvtExact dst src <;> cases sat <;> simp
    refine reads_encV_f (cvtDstCode_lt dst) (rmCode_lt rm) (bit_lt sat) hd ha rfl rfl hg (by omega)
      ((decodeF_vfcvt (dst := dst) rfl ?_).trans (judge_reads ?_ ?_))
    · simp [h3, cvtDstOf_code]
    · simp only [Bool.not_eq_true'] at hsame hi hs
      simp [h1, h2, cvtSrcOf_code, held_bit, hsame, hi, hs, of_decide_eq_true hp, hexact, hd, vreg_lt ha, passed_cPred hg]
    · simp [h1, h2, cvtSrcOf_code, held_bit, rmOf_code]
  | vfscl f rm bc inv d a b g =>
    obtain ⟨h, hbc⟩ := both h
    obtain ⟨h, hg⟩ := both h
    obtain ⟨h, hb⟩ := both h
    obtain ⟨hd, ha⟩ := both h
    have hd : d < 384 := of_decide_eq_true hd
    have hf := sfFmtCode_lt f
    have h1 := bit_lt bc
    have h2 := bit_lt inv
    obtain ⟨h3, h4⟩ := two_flags_packed bc inv
    have hok : (asVb b).ok = true := asVb_ok (okScale_ok hb)
    refine reads_encV_f (by omega) (rmCode_lt rm) (by decide) hd ha hok rfl hg (by omega)
      (judgeWith_reads (v := f) (by simp [sfFmtOf_code]) ?_ (by simp [h3, h4, rmOf_code, srcOf_asVb]))
    cases b with
    | reg n =>
      have hn : n < 16 := of_decide_eq_true hb
      simp (disch := omega) [field_above, asVb, vsrcN, vsrcH, vsrcLs, replaced, hn, hd, vreg_lt ha, passed_cPred hg]
    | lit k =>
      have hbc : bc = false := by simpa using hbc
      have h3 : bitOf 0 (2 * bit inv) = false := by simpa [hbc] using h3
      simp (disch := omega) [field_above, asVb, vsrcN, vsrcH, replaced, h3, hbc, hd, vreg_lt ha, passed_cPred hg]
  | _ => cases hk

/-! ### I (R138 to R145) -/

theorem iFmtCode_lt (f : IFmt) : iFmtCode f < 8 := by cases f <;> decide
theorem vCondCode_lt (c : VCond) : vCondCode c < 4 := by cases c <;> decide
theorem vCondOf_code (c : VCond) : vCondOf (vCondCode c) = c := by cases c <;> rfl
theorem iFmtCode_signed (f : IFmt) : iFmtCode f < 3 ↔ (f == .i8 || f == .i16 || f == .i32) = true := by cases f <;> decide
theorem parts_iFmt (s f : IFmt) : parts s.bytes f.bytes ≤ 4 := by cases s <;> cases f <;> decide
/-- VSAT and VCVT, where their formats have names. -/
theorem decodeI_vsat {x : VWord} {f : IFmt} (ho : x.op = 0x11) (hf : iFmtOf x.fmt = some f) :
    decodeI x = judge (.vsat f x.m6 x.vd (vaOf x) (predOf x)) ((ck 2 (1 ≤ x.m6 && x.m6 ≤ 8 * f.bytes)) ::
      (noSat x ++ noRm x ++ cVd x ++ cVa x ++ noVb x ++ noVc x ++ cPred x)) := by
  obtain ⟨op, fmt, rm, sat, vd, va, vb, vc, ha, hb, hc, pr, ps, ls, m6⟩ := x
  subst ho
  change (match iFmtOf fmt with | some f => _ | none => _) = _
  rw [hf]
theorem decodeI_vcvt {x : VWord} {f s : IFmt} (ho : x.op = 0x12) (hf : iFmtOf x.fmt = some f)
    (hs : iFmtOf (field 2 0 x.m6) = some s) :
    decodeI x = judge (.vcvt f s (x.sat == 1) (field 4 3 x.m6) x.vd (vaOf x) (predOf x))
      ((ck 2 (field 4 3 x.m6 < parts s.bytes f.bytes)) ::
        (noRm x ++ [zero (field 5 5 x.m6)] ++ cVd x ++ cVa x ++ noVb x ++ noVc x ++ cPred x)) := by
  obtain ⟨op, fmt, rm, sat, vd, va, vb, vc, ha, hb, hc, pr, ps, ls, m6⟩ := x
  subst ho
  change (match iFmtOf fmt, iFmtOf (field 2 0 m6) with
    | some f, some s => _ | some k, none | none, some k => _ | none, none => _) = _
  rw [hf, hs]

theorem reads_encode_i (i : Instr) (h : i.wellFormed = true) (hk : clsOf i = some .i) : Reads .i (encode i) i := by
  cases i with
  | vadd f sat d a b g | vsub f sat d a b g | vmul f sat d a b g =>
    obtain ⟨hd, ha, hb, hg⟩ := fit_dabg h
    exact reads_encV_i (iFmtCode_lt f) (by decide) (bit_lt sat) hd ha hb rfl hg (by decide)
      (judgeWith_reads (v := f) (by simp [iFmtOf_code]) (by simp [hd, vreg_lt ha, passed_cVb hb, passed_cPred hg])
        (by simp [held_bit]))
  | vmulh f d a b g | vshl f d a b g | vshr f d a b g | vsar f d a b g | vand f d a b g | vor f d a b g | vxor f d a b g
  | vandn f d a b g | vmin f d a b g | vmax f d a b g =>
    obtain ⟨hd, ha, hb, hg⟩ := fit_dabg h
    exact reads_encV_i (iFmtCode_lt f) (by decide) (by decide) hd ha hb rfl hg (by decide)
      (judgeWith_reads (v := f) (by simp [iFmtOf_code]) (by simp [hd, vreg_lt ha, passed_cVb hb, passed_cPred hg]) (by simp))
  | vdot4 sgn acc d a b c g =>
    obtain ⟨h, hc⟩ := both h
    obtain ⟨hd, ha, hb, hg⟩ := fit_dabg h
    cases acc with
    | true =>
      have hc : c.ok = true := hc
      refine reads_encV_i (by split <;> decide) (by decide) (by decide) hd ha hb hc hg (by decide) (judge_reads ?_ ?_)
      · cases sgn <;> simp [bit, hd, vreg_lt ha, vreg_lt hc, passed_cVb hb, passed_cPred hg]
      · cases sgn <;> simp [bit]
    | false =>
      have hc : c = noReg := by
        obtain ⟨n, held⟩ := c
        simpa [noReg] using hc
      subst hc
      refine reads_encV_i (by split <;> decide) (by decide) (by decide) hd ha hb rfl hg (by decide) (judge_reads ?_ ?_)
      · cases sgn <;> simp [hd, vreg_lt ha, passed_cVb hb, passed_cPred hg]
      · cases sgn <;> simp
  | vabs f sat d a g =>
    obtain ⟨h, hf⟩ := both h
    obtain ⟨hd, ha, hg⟩ := fit_dag h
    have hf := (iFmtCode_signed f).mpr hf
    exact reads_encV_i (iFmtCode_lt f) (by decide) (bit_lt sat) hd ha rfl rfl hg (by decide)
      (judgeWith_reads (v := f) (by simp [iFmtOf_code]) (by simp [hf, hd, vreg_lt ha, passed_cPred hg]) (by simp [held_bit]))
  | vcmp f c p a b g =>
    obtain ⟨hp, ha, hb, hg⟩ := fit_pabg h
    exact reads_encV_i (iFmtCode_lt f) (vCondCode_lt c) (by decide) (by omega) ha hb rfl hg (by decide)
      (judgeWith_reads (v := f) (by simp [iFmtOf_code]) (by simp [hp, vreg_lt ha, passed_cVb hb, passed_cPred hg])
        (by simp [vCondOf_code]))
  | vsel f d a b p g =>
    obtain ⟨h, hg⟩ := both h
    obtain ⟨h, hp⟩ := both h
    obtain ⟨h, hb⟩ := both h
    obtain ⟨hd, ha⟩ := both h
    have hd : d < 384 := of_decide_eq_true hd
    have hp : p < 16 := of_decide_eq_true hp
    exact reads_encV_i (iFmtCode_lt f) (by decide) (by decide) hd ha hb (asVc_ok (by omega)) hg (by decide)
      (judgeWith_reads (v := f) (by simp [iFmtOf_code]) (by simp [hp, hd, vreg_lt ha, passed_cVb hb, passed_cPred hg]) (by simp))
  | vsat f k d a g =>
    obtain ⟨h, hu⟩ := both h
    obtain ⟨h, hl⟩ := both h
    obtain ⟨hd, ha, hg⟩ := fit_dag h
    have hu : k ≤ 8 * f.bytes := of_decide_eq_true hu
    have hf : f.bytes ≤ 4 := by cases f <;> decide
    exact reads_encV_i (iFmtCode_lt f) (by decide) (by decide) hd ha rfl rfl hg (by omega)
      ((decodeI_vsat (f := f) rfl (by simp [iFmtOf_code])).trans (judge_reads
        (by simp [hu, of_decide_eq_true hl, hd, vreg_lt ha, passed_cPred hg]) (by simp)))
  | vcvt f s sat part d a g =>
    obtain ⟨h, hp⟩ := both h
    obtain ⟨hd, ha, hg⟩ := fit_dag h
    have hs := iFmtCode_lt s
    have hp : part < parts s.bytes f.bytes := of_decide_eq_true hp
    have hpart : part < 4 := lt_of_lt_of_le hp (parts_iFmt s f)
    have h1 : field 2 0 (iFmtCode s + 8 * part) = iFmtCode s := field_packed_low rfl hs
    have h2 : field 4 3 (iFmtCode s + 8 * part) = part := field_packed_high rfl hs hpart
    have h3 : field 5 5 (iFmtCode s + 8 * part) = 0 := field_above (by omega)
    exact reads_encV_i (iFmtCode_lt f) (by decide) (bit_lt sat) hd ha rfl rfl hg (by omega)
      ((decodeI_vcvt (f := f) (s := s) rfl (by simp [iFmtOf_code]) (by simp [h1, iFmtOf_code])).trans (judge_reads
        (by simp [h2, h3, hp, hd, vreg_lt ha, passed_cPred hg]) (by simp [h2, held_bit])))
  | vclz f d a g | vpopc f d a g =>
    obtain ⟨hd, ha, hg⟩ := fit_dag h
    exact reads_encV_i (iFmtCode_lt f) (by decide) (by decide) hd ha rfl rfl hg (by decide)
      (judgeWith_reads (v := f) (by simp [iFmtOf_code]) (by simp [hd, vreg_lt ha, passed_cPred hg]) (by simp))
  | vidx f step d b g =>
    obtain ⟨h, hs⟩ := both h
    obtain ⟨h, hg⟩ := both h
    obtain ⟨hd, hb⟩ := both h
    have hd : d < 384 := of_decide_eq_true hd
    exact reads_encV_i (iFmtCode_lt f) (by decide) (by decide) hd rfl hb rfl hg (of_decide_eq_true hs)
      (judgeWith_reads (v := f) (by simp [iFmtOf_code]) (by simp [hd, passed_cVb hb, passed_cPred hg]) (by simp))
  | vsmix sgn d a b g =>
    obtain ⟨hd, ha, hb, hg⟩ := fit_dabg h
    refine reads_encV_i (by split <;> decide) (by decide) (by decide) hd ha hb rfl hg (by decide) (judge_reads ?_ ?_)
    · cases sgn <;> simp [hd, vreg_lt ha, passed_cVb hb, passed_cPred hg]
    · cases sgn <;> simp
  | vbcs f d b g =>
    obtain ⟨h, hg⟩ := both h
    obtain ⟨hd, hb⟩ := both h
    have hd : d < 384 := of_decide_eq_true hd
    exact reads_encV_i (iFmtCode_lt f) (by decide) (by decide) hd rfl (asVb_ok hb) rfl hg (by decide)
      (judgeWith_reads (v := f) (by simp [iFmtOf_code]) (by simp [hd, passed_cSb hb, passed_cPred hg]) (by simp [srcOf_asVb]))
  | _ => cases hk

/-! ### P (R146 to R152) -/

theorem pFmtCode_lt (f : PFmt) : pFmtCode f < 8 := by cases f <;> decide
theorem pFmtCode_f32 (f : PFmt) : pFmtCode f = 3 ↔ f = .f32 := by cases f <;> decide
theorem pFmtCode_wide (f : PFmt) : ((((pFmtCode f = 1 ∨ pFmtCode f = 2) ∨ pFmtCode f = 5) ∨ pFmtCode f = 6) ∨ pFmtCode f = 3) ↔
    (f == .i16 || f == .i32 || f == .n16 || f == .n32 || f == .f32) = true := by cases f <;> decide
theorem pFmtCode_narrow (f : PFmt) : ((((pFmtCode f = 0 ∨ pFmtCode f = 1) ∨ pFmtCode f = 4) ∨ pFmtCode f = 5) ∨ pFmtCode f = 7) ↔
    (f == .i8 || f == .i16 || f == .n8 || f == .n16 || f == .bf16) = true := by cases f <;> decide
theorem shufCode_lt (s : Shuf) : shufCode s < 8 := by cases s <;> decide
theorem shufOf_code (s : Shuf) : shufOf (shufCode s) = some s := by cases s <;> rfl
theorem shufCode_rev (s : Shuf) : shufCode s = 4 ↔ s = .rev := by cases s <;> decide
theorem redCode_lt (o : RedOp) : redCode o < 4 := by cases o <;> decide
theorem redOf_code (o : RedOp) : redOf (redCode o) = some o := by cases o <;> rfl
theorem fit_pdp {d a : Nat} (h : (pdOk d && pOk a) = true) : (d < 16 ∧ d % 16 ≠ 0) ∧ a < 16 := by
  simp only [pdOk, pOk, Bool.and_eq_true, decide_eq_true_eq] at h
  omega

theorem reads_encode_p (i : Instr) (h : i.wellFormed = true) (hk : clsOf i = some .p) : Reads .p (encode i) i := by
  cases i with
  | vperm f d a b g =>
    obtain ⟨hd, ha, hb, hg⟩ := fit_dabg h
    exact reads_encV_p (pFmtCode_lt f) (by decide) (by decide) hd ha hb rfl hg (by decide)
      (judge_reads (by simp [hd, vreg_lt ha, passed_cVb hb, passed_cPred hg]) (by simp [pFmtOf_code]))
  | vrot f d a b g =>
    obtain ⟨h, hg⟩ := both h
    obtain ⟨h, hb⟩ := both h
    obtain ⟨hd, ha⟩ := both h
    have hd : d < 384 := of_decide_eq_true hd
    exact reads_encV_p (pFmtCode_lt f) (by decide) (by decide) hd ha (asVb_ok hb) rfl hg (by decide)
      (judge_reads (by simp [hd, vreg_lt ha, passed_cSb hb, passed_cPred hg]) (by simp [pFmtOf_code, srcOf_asVb]))
  | vshuf f s d a b g =>
    obtain ⟨h, hb⟩ := both h
    obtain ⟨hd, ha, hg⟩ := fit_dag h
    have hs := shufCode_lt s
    by_cases hr : s = .rev
    · subst hr
      have hb : b = noB := by simpa [noB, noReg] using hb
      subst hb
      exact reads_encV_p (pFmtCode_lt f) (by decide) (by decide) hd ha rfl rfl hg (by decide)
        (judge_reads (by simp [hd, vreg_lt ha, passed_cPred hg, shufCode]) (by simp [pFmtOf_code]))
    · have hm : shufCode s ≠ 4 := mt (shufCode_rev s).mp hr
      have hb : b.ok = true := by simpa [hr] using hb
      exact reads_encV_p (pFmtCode_lt f) (by decide) (by decide) hd ha hb rfl hg (by omega)
        (judgeWith_reads (v := s) (by simp [shufOf_code]) (by simp [hm, hd, vreg_lt ha, passed_cVb hb, passed_cPred hg])
          (by simp [pFmtOf_code]))
  | vrmg f d a b c g =>
    obtain ⟨h, hg⟩ := both h
    obtain ⟨h, hc⟩ := both h
    obtain ⟨h, hb⟩ := both h
    obtain ⟨hd, ha⟩ := both h
    have hd : d < 384 := of_decide_eq_true hd
    have hc : c < 64 := of_decide_eq_true hc
    exact reads_encV_p (pFmtCode_lt f) (by decide) (by decide) hd ha hb (asVc_ok (by omega)) hg (by decide)
      (judge_reads (by simp [hc, hd, vreg_lt ha, passed_cVb hb, passed_cPred hg]) (by simp [pFmtOf_code]))
  | vwin f k d a b g =>
    obtain ⟨h, hk⟩ := both h
    obtain ⟨hd, ha, hb, hg⟩ := fit_dabg h
    exact reads_encV_p (pFmtCode_lt f) (by decide) (by decide) hd ha hb rfl hg (of_decide_eq_true hk)
      (judge_reads (by simp [hd, vreg_lt ha, passed_cVb hb, passed_cPred hg]) (by simp [pFmtOf_code]))
  | vred f o rm sat d a g =>
    obtain ⟨h, hr⟩ := both h
    obtain ⟨hd, ha, hg⟩ := fit_dag h
    have ho := redCode_lt o
    have hr : f.isFloat = true ∨ rmCode rm = 0 := by simpa [rmCode_zero] using hr
    exact reads_encV_p (pFmtCode_lt f) (rmCode_lt rm) (bit_lt sat) hd ha rfl rfl hg (by omega)
      (judgeWith_reads (v := o) (by simp (disch := omega) [field_low, redOf_code])
        (by simp (disch := omega) [field_above, pFmtOf_code, hr, hd, vreg_lt ha, passed_cPred hg])
        (by simp [pFmtOf_code, rmOf_code, held_bit]))
  | vscan f o ex rm sat d a g =>
    obtain ⟨h, hr⟩ := both h
    obtain ⟨hd, ha, hg⟩ := fit_dag h
    have ho := redCode_lt o
    have hx := bit_lt ex
    have hr : f.isFloat = true ∨ rmCode rm = 0 := by simpa [rmCode_zero] using hr
    exact reads_encV_p (pFmtCode_lt f) (rmCode_lt rm) (bit_lt sat) hd ha rfl rfl hg (by omega)
      (judgeWith_reads (v := o) (by simp (disch := omega) [field_packed_low, redOf_code])
        (by simp (disch := omega) [field_above, pFmtOf_code, hr, hd, vreg_lt ha, passed_cPred hg])
        (by simp (disch := omega) [bitOf_packed, pFmtOf_code, rmOf_code, held_bit]))
  | vpack f rm sat d a b g =>
    obtain ⟨h, hf⟩ := both h
    obtain ⟨h, hr⟩ := both h
    obtain ⟨hd, ha, hb, hg⟩ := fit_dabg h
    refine reads_encV_p (pFmtCode_lt f) (rmCode_lt rm) (bit_lt sat) hd ha hb rfl hg (by decide) (judge_reads ?_ ?_)
    · have hr : pFmtCode f = 3 ∨ rmCode rm = 0 := by
        rw [rmCode_zero, pFmtCode_f32]
        simpa using hr
      have hf := (pFmtCode_wide f).mpr hf
      simp [hf, hr, hd, vreg_lt ha, passed_cVb hb, passed_cPred hg]
    · simp [pFmtOf_code, rmOf_code, held_bit]
  | vunpk f hi d a g =>
    obtain ⟨h, hf⟩ := both h
    obtain ⟨hd, ha, hg⟩ := fit_dag h
    have hh := bit_lt hi
    refine reads_encV_p (pFmtCode_lt f) (by decide) (by decide) hd ha rfl rfl hg (by omega) (judge_reads ?_ ?_)
    · have hf := (pFmtCode_narrow f).mpr hf
      simp (disch := omega) [hf, field_above, hd, vreg_lt ha, passed_cPred hg]
    · simp [pFmtOf_code]
  | vext f d a b =>
    obtain ⟨h, hb⟩ := both h
    obtain ⟨hd, ha⟩ := both h
    have hd : d < 64 := of_decide_eq_true hd
    exact reads_encV_p (pFmtCode_lt f) (by decide) (by decide) (by omega) ha (asVb_ok hb) rfl rfl (by decide)
      (judge_reads (by simp [hd, vreg_lt ha, passed_cSb hb]) (by simp [pFmtOf_code, srcOf_asVb]))
  | vins f d a b =>
    obtain ⟨h, hb⟩ := both h
    obtain ⟨hd, ha⟩ := both h
    have hd : d < 384 := of_decide_eq_true hd
    have ha : a < 64 := of_decide_eq_true ha
    exact reads_encV_p (pFmtCode_lt f) (by decide) (by decide) hd (asVc_ok (by omega)) (asVb_ok hb) rfl rfl (by decide)
      (judge_reads (by simp [hd, ha, passed_cSb hb]) (by simp [pFmtOf_code, srcOf_asVb]))
  | pand d a b | por d a b | pxor d a b =>
    obtain ⟨h, hb⟩ := both h
    obtain ⟨hd, ha⟩ := fit_pdp h
    have hb : b < 16 := of_decide_eq_true hb
    exact reads_encV_p (by decide) (by decide) (by decide) (by omega) (asVc_ok (by omega)) (asVc_ok (by omega) : _) rfl rfl
      (by decide) (judge_reads (by simp [hd, ha, hb, vsrcN, vsrcH, vsrcLs]) (by simp [vsrcN]))
  | pnot d a =>
    obtain ⟨hd, ha⟩ := fit_pdp h
    exact reads_encV_p (by decide) (by decide) (by decide) (by omega) (asVc_ok (by omega)) rfl rfl rfl
      (by decide) (judge_reads (by simp [hd, ha]) (by simp))
  | pmov p2v d a =>
    cases p2v with
    | true =>
      obtain ⟨h, hheld⟩ := both (h : (vOk d && pOk a.n && !a.held) = true)
      obtain ⟨hd, ha⟩ := both h
      have hd : d < 384 := of_decide_eq_true hd
      have ha : a.n < 16 := of_decide_eq_true ha
      have hheld : a.held = false := by simpa using hheld
      exact reads_encV_p (by decide) (by decide) (by decide) hd (decide_eq_true (by omega)) rfl rfl rfl (by decide)
        (judge_reads (by simp [bit, bitOf, field, hd, ha, hheld]) (by simp))
    | false =>
      obtain ⟨hd, ha⟩ := both (h : (pdOk d && a.ok) = true)
      have hd : d < 16 ∧ d % 16 ≠ 0 := by
        simp only [pdOk, Bool.and_eq_true, decide_eq_true_eq] at hd
        omega
      exact reads_encV_p (by decide) (by decide) (by decide) (by omega) ha rfl rfl rfl (by decide)
        (judge_reads (by simp [bitOf, field, hd, vreg_lt ha]) (by simp [bitOf]))
  | _ => cases hk

end Sys2Proof
end

/-! SUPPORT. The words of the classes E and X are read back (R51, R52); the classes together settle O56, and the words of the layouts O57. -/
section
namespace Sys2Proof

/-! ## E (R51) -/

theorem endsCode_lt (e : Ends) : endsCode e < 16 := by cases e <;> decide
theorem endsOf_code (e : Ends) : endsOf (endsCode e) = some e := by cases e <;> rfl
theorem fillCode_lt (z : FillSize) : fillCode z < 4 := by cases z <;> decide
theorem fillOf_code (z : FillSize) : fillOf (fillCode z) = z := by cases z <;> rfl
theorem reads_encE {op sa sc m6 : Nat} {b : Src} {i : Instr} (ha : sa < 64) (hb : b.ok = true) (hc : sc < 64) (hm : m6 < 64)
    (h : decodeE ⟨op, sa, srcReg b, sc, srcLs b, m6⟩ = .ok i) (ho : op < 64 := by decide) : Reads .e (encE op sa b sc m6) i := by
  have hr := srcReg_lt hb
  have hl := srcLs_lt hb
  constructor
  · simp only [encE, EWord.toNat, List.mem_cons, reduceCtorEq, List.not_mem_nil, or_self, if_false]
    omega
  · simp only [decodeCls, encE]
    rw [eWord_ofNat_toNat _ ho ha hr hc hl hm, h]
theorem fit_sb {a : Nat} {b : Src} (h : (sOk a && b.ok) = true) : a < 64 ∧ b.ok = true := by
  simpa [sOk] using h
/-- A vector register is named by a scalar field and the low bits of `m6`. -/
theorem vector_packed {v l : Nat} (hv : v < 384) : v % 64 + 64 * field 2 0 (v / 64 + 8 * l) = v := by
  have hf : field 2 0 (v / 64 + 8 * l) = v / 64 := field_packed_low rfl (by omega)
  rw [hf, Nat.mod_add_div]
/-- Three flags side by side. -/
theorem flags_packed (x y z : Bool) : bitOf 0 (bit x + 2 * bit y + 4 * bit z) = x ∧ bitOf 1 (bit x + 2 * bit y + 4 * bit z) = y ∧
    bitOf 2 (bit x + 2 * bit y + 4 * bit z) = z := by
  cases x <;> cases y <;> cases z <;> decide

theorem reads_encode_e (i : Instr) (h : i.wellFormed = true) (hk : clsOf i = some .e) : Reads .e (encode i) i := by
  cases i with
  | bcopy e d s c | tcopy e d s c =>
    obtain ⟨h, hc⟩ := both h
    obtain ⟨hd, hs⟩ := fit_sb h
    have he := endsCode_lt e
    exact reads_encE hd hs (of_decide_eq_true hc) (by omega) (judgeWith_reads (v := e)
      (by simp (disch := omega) [field_low, endsOf_code]) (by simp (disch := omega) [field_above]) (by simp [srcOf_src]))
  | bfill glb z d v c =>
    obtain ⟨h, hc⟩ := both h
    obtain ⟨hd, hv⟩ := fit_sb h
    have hz := fillCode_lt z
    have hg := bit_lt glb
    have h1 : bitOf 2 (4 * bit glb + 16 * fillCode z) = glb := by cases glb <;> cases z <;> rfl
    have h2 : field 5 4 (4 * bit glb + 16 * fillCode z) = fillCode z := field_packed_high rfl (by omega) (by omega)
    have h3 : field 1 0 (4 * bit glb + 16 * fillCode z) = 0 := by unfold field; omega
    have h4 : field 3 3 (4 * bit glb + 16 * fillCode z) = 0 := by unfold field; omega
    exact reads_encE hd hv (of_decide_eq_true hc) (by omega) (judge_reads (by simp [h3, h4])
      (by simp [h1, h2, fillOf_code, srcOf_src]))
  | bchk k a b =>
    obtain ⟨h, hb⟩ := both h
    obtain ⟨hk, ha⟩ := both h
    have hk : k < 4 := of_decide_eq_true hk
    exact reads_encE (of_decide_eq_true ha) hb (by decide) (by omega) (judge_reads (by simp (disch := omega) [field_above])
      (by simp (disch := omega) [field_low, srcOf_src]))
  | ifill hb a b =>
    obtain ⟨ha, hs⟩ := fit_sb h
    have hf := bit_lt hb
    exact reads_encE ha hs (by decide) (by omega) (judge_reads (by simp (disch := omega) [field_above]) (by simp [srcOf_src]))
  | send l v p | mcast l v p =>
    obtain ⟨h, hp⟩ := both h
    obtain ⟨hl, hv⟩ := both h
    have hl : l < 4 := of_decide_eq_true hl
    have hv : v < 384 := of_decide_eq_true hv
    have hr := vector_packed (l := l) hv
    have h1 : field 4 3 (v / 64 + 8 * l) = l := field_packed_high rfl (by omega) hl
    exact reads_encE (by omega) hp (by decide) (by omega) (judge_reads (by simp (disch := omega) [hr, hv, field_above])
      (by simp [hr, h1, srcOf_src]))
  | recv v p =>
    obtain ⟨hv, hp⟩ := both h
    have hv : v < 384 := of_decide_eq_true hv
    have hr : v % 64 + 64 * field 2 0 (v / 64) = v := vector_packed (l := 0) hv
    exact reads_encE (by omega) hp (by decide) (by omega) (judge_reads (by simp (disch := omega) [hr, hv, field_above])
      (by simp [hr, srcOf_src]))
  | sends a p | signal a p | barwt a p | sigwt a p =>
    obtain ⟨ha, hp⟩ := fit_sb h
    exact reads_encE ha hp (by decide) (by decide) (judge_reads (by simp) (by simp [srcOf_src]))
  | recvs t p | bararr t p | bardrp t p =>
    obtain ⟨ht, hp⟩ := fit_sb h
    exact reads_encE (by decide) hp ht (by decide) (judge_reads (by simp) (by simp [srcOf_src]))
  | dqpush t a b =>
    obtain ⟨ht, ha, hb⟩ := fit_dab h
    exact reads_encE ha hb ht (by decide) (judge_reads (by simp) (by simp [srcOf_src]))
  | dqpop t b | dqsteal t b =>
    obtain ⟨h, hb⟩ := both h
    obtain ⟨ht, he⟩ := both h
    exact reads_encE (by decide) hb (of_decide_eq_true ht) (by decide) (judge_reads (by simpa using he) (by simp [srcOf_src]))
  | launch t a =>
    obtain ⟨ht, ha⟩ := fit_da h
    exact reads_encE ha rfl ht (by decide) rfl
  | twait b => exact reads_encE (by decide) h (by decide) (by decide) (judge_reads (by simp) (by simp [srcOf_src]))
  | mlease t => exact reads_encE (by decide) rfl (of_decide_eq_true h) (by decide) rfl
  | mrel | mcfg => exact reads_encE (by decide) rfl (by decide) (by decide) rfl
  | tload m tr q n a b =>
    obtain ⟨h, hm⟩ := both h
    obtain ⟨h, hb⟩ := both h
    obtain ⟨hn, ha⟩ := both h
    have hn : n < 16 := of_decide_eq_true hn
    have h1 := bit_lt m
    have h2 := bit_lt tr
    have h3 := bit_lt q
    exact reads_encE (of_decide_eq_true ha) hb (by omega) (by omega) (judge_reads
      (by simpa (disch := omega) [field_above, flags_packed] using hm)
      (by simp (disch := omega) [flags_packed, field_low, srcOf_src]))
  | tstore m tile a b =>
    obtain ⟨h, hb⟩ := both h
    obtain ⟨ht, ha⟩ := both h
    have ht : tile < 20 := of_decide_eq_true ht
    have hm := bit_lt m
    exact reads_encE (of_decide_eq_true ha) hb (by omega) (by omega) (judge_reads
      (by simp (disch := omega) [field_above, field_low, ht]) (by simp (disch := omega) [field_low, srcOf_src]))
  | tzero tile =>
    have ht : tile < 20 := of_decide_eq_true h
    exact reads_encE (by decide) rfl (by omega) (by decide) (judge_reads
      (by simp (disch := omega) [field_above, field_low, ht, srcReg, srcLs]) (by simp (disch := omega) [field_low]))
  | mma as z acc a w =>
    obtain ⟨h, hw⟩ := both h
    obtain ⟨hc, ha⟩ := both h
    have hw : w < 16 := of_decide_eq_true hw
    have hc : acc < 4 := of_decide_eq_true hc
    have ha : a < 16 := of_decide_eq_true ha
    have h1 := bit_lt as
    have h2 := bit_lt z
    exact reads_encE (b := .reg w) (by omega) (decide_eq_true (by omega)) (by omega) (by omega) (judge_reads
      (by simp (disch := omega) [field_above, srcReg, srcLs])
      (by simp (disch := omega) [field_low, two_flags_packed, srcReg]))
  | tcvt rm sat n acc k =>
    obtain ⟨h, hk⟩ := both h
    obtain ⟨hn, hc⟩ := both h
    have hn : n < 16 := of_decide_eq_true hn
    have hc : acc < 4 := of_decide_eq_true hc
    have hr := rmCode_lt rm
    have hs := bit_lt sat
    have h1 : bitOf 2 (rmCode rm + 4 * bit sat) = sat := bitOf_packed rfl hr
    have h2 : field 1 0 (rmCode rm + 4 * bit sat) = rmCode rm := field_packed_low rfl hr
    exact reads_encE (by omega) hk (by omega) (by omega) (judge_reads (by simp (disch := omega) [field_above])
      (by simp (disch := omega) [h1, h2, field_low, rmOf_code, srcOf_src]))
  | tscl n a b =>
    obtain ⟨h, hb⟩ := both h
    obtain ⟨hn, ha⟩ := both h
    have hn : n < 16 := of_decide_eq_true hn
    exact reads_encE (of_decide_eq_true ha) hb (by omega) (by decide) (judge_reads (by simp (disch := omega) [field_above])
      (by simp (disch := omega) [field_low, srcOf_src]))
  | cboard ccw a n =>
    obtain ⟨ha, hn⟩ := fit_sb h
    have hc := bit_lt ccw
    exact reads_encE ha hn (by decide) (by omega) (judge_reads (by simp (disch := omega) [field_above]) (by simp [srcOf_src]))
  | calight ccw cp t a n =>
    obtain ⟨h, hp⟩ := both h
    obtain ⟨ht, ha, hn⟩ := fit_dab h
    have h1 := bit_lt ccw
    have h2 := bit_lt cp
    exact reads_encE ha hn ht (by omega) (judge_reads (by simpa (disch := omega) [field_above, two_flags_packed] using hp)
      (by simp [two_flags_packed, srcOf_src]))
  | ccatch ccw t a n | ccatchv ccw t a n | crepl ccw t a n =>
    obtain ⟨ht, ha, hn⟩ := fit_dab h
    have hc := bit_lt ccw
    exact reads_encE ha hn ht (by omega) (judge_reads (by simp (disch := omega) [field_above]) (by simp [srcOf_src]))
  | crost ccw t n =>
    obtain ⟨ht, hn⟩ := fit_sb h
    have hc := bit_lt ccw
    exact reads_encE (by decide) hn ht (by omega) (judge_reads (by simp (disch := omega) [field_above]) (by simp [srcOf_src]))
  | _ => cases hk

/-! ## X (R52) -/

theorem scopeCode_lt (s : Scope) : scopeCode s < 8 := by cases s <;> decide
theorem evCode_lt (o : EvOp) : evCode o < 4 := by cases o <;> decide
theorem evOf_code (o : EvOp) : evOf (evCode o) = o := by cases o <;> rfl
theorem reads_encX {op s1 k12 : Nat} {b : Src} {i : Instr} (h1 : s1 < 64) (hb : b.ok = true) (hk : k12 < 4096)
    (h : decodeX ⟨op, s1, srcReg b, srcLs b, k12⟩ = .ok i) (ho : op < 64 := by decide) : Reads .x (encX op s1 b k12) i := by
  have hr := srcReg_lt hb
  have hl := srcLs_lt hb
  constructor
  · simp only [encX, XWord.toNat, List.mem_cons, reduceCtorEq, List.not_mem_nil, or_self, if_false]
    omega
  · simp only [decodeCls, encX]
    rw [xWord_ofNat_toNat _ ho h1 hr hl hk, h]

theorem reads_encode_x (i : Instr) (h : i.wellFormed = true) (hk : clsOf i = some .x) : Reads .x (encode i) i := by
  cases i with
  | srr d k =>
    obtain ⟨h, hs⟩ := both h
    obtain ⟨hd, hk⟩ := both h
    exact reads_encX (of_decide_eq_true hd) rfl (of_decide_eq_true hk) (judge_reads (by simp [hs, srcReg, srcLs]) (by simp))
  | srw k b =>
    obtain ⟨h, hb⟩ := both h
    obtain ⟨hk, hs⟩ := both h
    exact reads_encX (by decide) hb (of_decide_eq_true hk) (judge_reads (by simp [hs]) (by simp [srcOf_src]))
  | rdtt d | rdwt d => exact reads_encX (of_decide_eq_true h) rfl (by decide) rfl
  | scld n a b =>
    obtain ⟨h, hb⟩ := both h
    obtain ⟨hn, ha⟩ := both h
    have hn : n < 16 := of_decide_eq_true hn
    exact reads_encX (of_decide_eq_true ha) hb (by omega) (judge_reads (by simp (disch := omega) [field_above])
      (by simp (disch := omega) [field_low, srcOf_src]))
  | fence s =>
    have hs := scopeCode_lt s
    exact reads_encX (by decide) rfl (by omega) (judgeWith_reads (v := s) (by simp (disch := omega) [field_low, scopeOf_code])
      (by simp (disch := omega) [field_above, srcReg, srcLs]) rfl)
  | ifence | crclose | scangap => exact reads_encX (by decide) rfl (by decide) rfl
  | cropen b => exact reads_encX (by decide) h (by decide) (judge_reads (by simp) (by simp [srcOf_src]))
  | evctl o die b =>
    have ho := evCode_lt o
    have hd := bit_lt die
    have h1 : bitOf 2 (evCode o + 4 * bit die) = die := bitOf_packed rfl ho
    have h2 : field 1 0 (evCode o + 4 * bit die) = evCode o := field_packed_low rfl ho
    exact reads_encX (by decide) h (by omega) (judge_reads (by simp (disch := omega) [field_above])
      (by simp [h1, h2, evOf_code, srcOf_src]))
  | _ => cases hk

/-! ## All classes -/

/-- Settles O56, class by class: a word's fields are read back, and the checks on them are those of a well-formed operation. -/
theorem decodeEncode : Obligations.DecodeEncode := by
  intro i k h hk
  cases k with
  | c => exact reads_encode_c i h hk
  | a => exact reads_encode_a i h hk
  | m => exact reads_encode_m i h hk
  | f => exact reads_encode_f i h hk
  | i => exact reads_encode_i i h hk
  | p => exact reads_encode_p i h hk
  | e => exact reads_encode_e i h hk
  | x => exact reads_encode_x i h hk
/-- Settles O57: each word is decoded by computation. -/
theorem decodedWords : Obligations.DecodedWords :=
  ⟨rfl, rfl, rfl, rfl, rfl, rfl, rfl, rfl, rfl, rfl, rfl, rfl⟩

end Sys2Proof
end

/-! SUPPORT. Where the issuing core stands and what it has due, as updates of the state; the loop forms settle O3. -/
section
namespace Sys2Proof.Machine
open Sys2Proof

/-! ## The issuing core -/

section
variable (s : State) (c c' : Core) (q : Seq) (w : World)

@[simp] theorem me_withMe : (s.withMe c).me = c := by simp [State.me, State.withMe]
@[simp] theorem withMe_withMe : (s.withMe c).withMe c' = s.withMe c' := by simp [State.withMe]
@[simp] theorem withMe_cur : (s.withMe c).w.cur = s.w.cur := rfl
@[simp] theorem withMe_mem : (s.withMe c).mem = s.mem := rfl
@[simp] theorem withWorld_self : s.withWorld s.w = s := rfl
/-- A world in which the issuing core's level stands elsewhere. -/
theorem withWorld_setSeq : s.withWorld (w.setSeq w.cur.core w.cur.sup q) = (s.withWorld w).goesTo q := rfl
/-- The loop stack of the issuing core, written. -/
def State.withLoops (l : List LoopEntry) : State := s.withMe { s.me with ctx := { s.me.ctx with loops := l } }
theorem withWorld_setLoops (l : List LoopEntry) : s.withWorld (s.w.setLoops l) = s.withLoops l := rfl
@[simp] theorem due_cur (l : List (Nat × RegW)) : (s.due l).w.cur = s.w.cur := rfl
@[simp] theorem due_me (l : List (Nat × RegW)) : (s.due l).me =
    if s.w.cur.sup then { s.me with hpend := s.me.hpend ++ l.map s.dueAt } else { s.me with pend := s.me.pend ++ l.map s.dueAt } := by
  simp [State.due]
end

/-! ## What falls due -/

/-- What is due in two parts is due together. -/
theorem due_due (s : State) (a b : List (Nat × RegW)) : (s.due a).due b = s.due (a ++ b) := by
  have hat : (s.due a).dueAt = s.dueAt := rfl
  rw [State.due, State.due, State.due, withMe_withMe, ← State.due, due_me, due_cur, hat]
  split <;> simp
/-- The writes of the stage window from `p{k}` up, at issue + 1 (R91, R95). -/
def windowWrites (k : Nat) : List Pred → List (Nat × RegW)
  | [] => []
  | v :: r => (1, .p k v allP) :: windowWrites (k + 1) r
theorem withWorld_setWindow (s : State) (k : Nat) {l : List Pred} (h : l ≠ []) :
    s.withWorld (s.w.setWindow k l) = s.due (windowWrites k l) := by
  obtain ⟨v, r, rfl⟩ := List.exists_cons_of_ne_nil h
  clear h
  induction r generalizing s k v with
  | nil => rfl
  | cons x r ih =>
    have hrest : s.withWorld (s.w.setWindow k (v :: x :: r)) =
        (s.due [(1, .p k v allP)]).withWorld ((s.due [(1, .p k v allP)]).w.setWindow (k + 1) (x :: r)) := rfl
    rw [hrest, ih, due_due]
    rfl
theorem withWorld_setLoops_setWindow (s : State) (k : Nat) (e : List LoopEntry) {l : List Pred} (h : l ≠ []) :
    s.withWorld ((s.w.setLoops e).setWindow k l) = (s.withLoops e).due (windowWrites k l) :=
  withWorld_setWindow (s.withLoops e) k h
@[simp] theorem setWindow_cur (w : World) (k : Nat) (l : List Pred) : (w.setWindow k l).cur = w.cur := by
  induction l generalizing w k with
  | nil => rfl
  | cons v r ih => exact ih (w.wrP 1 k v allP) (k + 1)

/-! ## The loop forms (R90 to R94) -/

theorem windowWrites_map (k n : Nat) (f : Nat → Pred) :
    windowWrites k ((List.range n).map f) = (List.range n).map (fun i => (1, RegW.p (k + i) (f i) allP)) := by
  induction n generalizing k f with
  | zero => rfl
  | succ n ih =>
    simp only [List.range_succ_eq_map, List.map_cons, List.map_map, windowWrites]
    exact congrArg _ ((ih (k + 1) (f ∘ Nat.succ)).trans (by simp [Nat.add_comm, Nat.add_left_comm]))

section
variable (s : State)

theorem withWorld_fall (w : World) (hw : w.cur = s.w.cur) : s.withWorld (s.fall w) =
    (s.withWorld w).goesTo (fallSeq s.mem s.me s.w.cur.core s.w.cur.sup s.w.cur.pc s.w.cur.nxt) := by
  rw [State.fall, ← hw, withWorld_setSeq, hw]
  rfl
/-- A direct transfer of the slot. -/
theorem withWorld_jump (t fixed : Nat) : s.withWorld (s.jump s.w t fixed false) =
    s.goesTo (arrivalBy (badDirect s.me s.w.cur.sup t) s.mem s.w.cur.core s.w.cur.sup s.w.cur.pc t fixed false) := rfl
/-- A transfer to a target that the loop stack names, as R67 and R228 check it. -/
theorem withWorld_loopJump (w : World) (hw : w.cur = s.w.cur) (t fixed : Nat) :
    s.withWorld (s.loopJump w t fixed) = (s.withWorld w).goesTo
      (arrivalBy (badTarget s.me s.w.cur.sup t) s.mem s.w.cur.core s.w.cur.sup s.w.cur.pc t fixed false) := by
  rw [State.loopJump, ← hw, withWorld_setSeq, hw]
  rfl
@[simp] theorem withLoops_due_nil (l : List LoopEntry) : (s.due []).withLoops l = s.withLoops l := by
  rw [State.withLoops, due_me, State.due, withMe_withMe, State.withLoops]
  split <;> simp

variable {s} {a stg : Nat} {off : Int}

theorem exec_loop_skips (h : (s.w.rdS a).toNat = 0) : exec (.loop a stg off) s =
    .next (s.goesTo (arrivalBy (badDirect s.me s.w.cur.sup (s.target off)) s.mem s.w.cur.core s.w.cur.sup s.w.cur.pc
      (s.target off) 1 false)) := by
  have hact : loopAct a stg off s = s.jump s.w (s.target off) 1 false := by simp [loopAct, h]
  rw [← withWorld_jump, ← hact]
  rfl
theorem exec_loop_traps {n : Nat} (h : loopAct a stg off s = s.w.trapLoop n) :
    exec (.loop a stg off) s = .next (s.withWorld (s.w.trap 1 (loopInfo s.w.cur.pc n))) :=
  done_only_eq h
/-- The entry that LOOP puts on the stack. -/
def loopEntry (s : State) (a stg : Nat) (off : Int) : LoopEntry :=
  { start := s.w.cur.nxt, exit := s.target off, stg := stg, rem := (s.w.rdS a).toNat + stg, idx := 0 }
/-- A loop is opened: its entry stands on the stack, and if it has stages the first of them is enabled. -/
theorem loopAct_opens (h0 : 0 < (s.w.rdS a).toNat) (h1 : (s.w.rdS a).toNat < 2 ^ 31) (hl : s.me.ctx.loops.length < 6) :
    loopAct a stg off s = s.fall (if stg = 0 then s.w.setLoops (loopEntry s a stg off :: s.me.ctx.loops)
      else (s.w.setLoops (loopEntry s a stg off :: s.me.ctx.loops)).setWindow 8 ((List.range 8).map (fun k => fullP (k == 0)))) := by
  have hl : ¬6 ≤ s.w.cc.ctx.loops.length := not_le.mpr hl
  simp only [loopAct, beq_iff_eq]
  rw [if_neg (by omega), if_neg (by omega), if_neg hl]
  rfl
theorem exec_loop_opens (h0 : 0 < (s.w.rdS a).toNat) (h1 : (s.w.rdS a).toNat < 2 ^ 31) (hl : s.me.ctx.loops.length < 6)
    (hs : stg = 0) : exec (.loop a stg off) s = .next ((s.withLoops (loopEntry s a stg off :: s.me.ctx.loops)).goesTo
      (fallSeq s.mem s.me s.w.cur.core s.w.cur.sup s.w.cur.pc s.w.cur.nxt)) := by
  have hact := (loopAct_opens (stg := stg) (off := off) h0 h1 hl).trans (by rw [if_pos hs])
  exact (done_only_eq hact).trans (congrArg Host.Outcome.next (withWorld_fall s _ rfl))
theorem exec_loop_opens_staged (h0 : 0 < (s.w.rdS a).toNat) (h1 : (s.w.rdS a).toNat < 2 ^ 31) (hl : s.me.ctx.loops.length < 6)
    (hs : stg ≠ 0) : exec (.loop a stg off) s = .next (((s.withLoops (loopEntry s a stg off :: s.me.ctx.loops)).due
      (windowWrites 8 ((List.range 8).map (fun k => fullP (k == 0))))).goesTo
      (fallSeq s.mem s.me s.w.cur.core s.w.cur.sup s.w.cur.pc s.w.cur.nxt)) := by
  have hexec : exec (.loop a stg off) s = .next (s.withWorld (loopAct a stg off s)) := rfl
  rw [hexec, loopAct_opens h0 h1 hl, if_neg hs, withWorld_fall, withWorld_setLoops_setWindow s 8 _ (by simp)]
  exact setWindow_cur ..

/-! LEND and LBRK -/

/-- The rotation of the stage window falls due at issue + 1, where the loop has stages. -/
def rotation (s : State) (e : LoopEntry) : List (Nat × RegW) :=
  if e.stg = 0 then []
  else windowWrites 8 (fullP (e.idx + 1 + e.stg < e.rem + e.idx) :: (List.range 7).map (fun k => s.w.rdP (8 + k)))
theorem rotate_setLoops_cur (w : World) (e : LoopEntry) (l : List LoopEntry) : ((w.rotate e).setLoops l).cur = w.cur := by
  have h : (w.rotate e).cur = w.cur := by
    unfold World.rotate
    split
    · rfl
    · exact setWindow_cur ..
  exact h
/-- A trip's end: the window turns and the loop stack is written. -/
theorem withWorld_rotate_setLoops (e : LoopEntry) (l : List LoopEntry) :
    s.withWorld ((s.w.rotate e).setLoops l) = (s.due (rotation s e)).withLoops l := by
  by_cases h : e.stg = 0
  · rw [rotation, if_pos h, withLoops_due_nil]
    simp only [World.rotate, h, beq_self_eq_true, if_true]
    rfl
  · rw [rotation, if_neg h, ← withWorld_setWindow s 8 (by simp), ← withWorld_setLoops]
    simp only [World.rotate, beq_iff_eq, h, if_false]
    rfl

variable {e : LoopEntry} {r : List LoopEntry}

theorem exec_lend_traps {n : Nat} (h : lendAct s = s.w.trapLoop n) :
    exec .lend s = .next (s.withWorld (s.w.trap 1 (loopInfo s.w.cur.pc n))) := done_only_eq h
/-- While trips remain, the loop goes back to its start. -/
theorem exec_lend_again (hl : s.me.ctx.loops = e :: r) (hx : s.w.cur.nxt = e.exit) (hr : 1 < e.rem) :
    exec .lend s = .next (((s.due (rotation s e)).withLoops ({ e with rem := e.rem - 1, idx := e.idx + 1 } :: r)).goesTo
      (arrivalBy (badTarget s.me s.w.cur.sup e.start) s.mem s.w.cur.core s.w.cur.sup s.w.cur.pc e.start 0 false)) := by
  have hl : s.w.cc.ctx.loops = e :: r := hl
  have hact : lendAct s = s.loopJump ((s.w.rotate e).setLoops ({ e with rem := e.rem - 1, idx := e.idx + 1 } :: r)) e.start 0 := by
    simp [lendAct, hl, hx, hr]
  have hexec : exec .lend s = .next (s.withWorld (lendAct s)) := rfl
  rw [hexec, hact, withWorld_loopJump _ _ (rotate_setLoops_cur ..), withWorld_rotate_setLoops]
/-- After the last trip the loop is left, to the bundle after. -/
theorem exec_lend_leaves (hl : s.me.ctx.loops = e :: r) (hx : s.w.cur.nxt = e.exit) (hr : e.rem ≤ 1) :
    exec .lend s = .next (((s.due (rotation s e)).withLoops r).goesTo
      (fallSeq s.mem s.me s.w.cur.core s.w.cur.sup s.w.cur.pc s.w.cur.nxt)) := by
  have hl : s.w.cc.ctx.loops = e :: r := hl
  have hact : lendAct s = s.fall ((s.w.rotate e).setLoops r) := by
    simp [lendAct, hl, hx, not_lt.mpr hr]
  have hexec : exec .lend s = .next (s.withWorld (lendAct s)) := rfl
  rw [hexec, hact, withWorld_fall _ _ (rotate_setLoops_cur ..), withWorld_rotate_setLoops]
theorem exec_lbrk {k : Nat} (h : s.me.ctx.loops[k]? = some e) :
    exec (.lbrk k) s = .next ((s.withLoops (s.me.ctx.loops.drop (k + 1))).goesTo
      (arrivalBy (badTarget s.me s.w.cur.sup e.exit) s.mem s.w.cur.core s.w.cur.sup s.w.cur.pc e.exit 1 false)) := by
  have h : s.w.cc.ctx.loops[k]? = some e := h
  have hact : lbrkAct k s = s.loopJump (s.w.setLoops (s.w.cc.ctx.loops.drop (k + 1))) e.exit 1 := by
    simp [lbrkAct, h]
  have hexec : exec (.lbrk k) s = .next (s.withWorld (lbrkAct k s)) := rfl
  rw [hexec, hact, withWorld_loopJump]
  · rfl
  · rfl
theorem exec_lbrk_traps {k : Nat} (h : s.me.ctx.loops.length ≤ k) :
    exec (.lbrk k) s = .next (s.withWorld (s.w.trap 1 (loopInfo s.w.cur.pc 1))) := by
  have h : s.w.cc.ctx.loops[k]? = none := List.getElem?_eq_none_iff.mpr h
  exact done_only_eq (by simp [lbrkAct, h]; rfl)

/-! The transfers and the window, as the statement writes them out. -/

theorem arrivalBy_direct (bad : Option Nat) (m : Mems) (k : Nat) (sup : Bool) (pc t n : Nat) :
    arrivalBy bad m k sup pc t n false = match bad with
      | some i => { pc := t, owedT := n, owedJ := 0, beat := 0, last := pc, bad := some (i, pc) }
      | none => { pc := t, owedT := n, owedJ := (headerAt m k sup t).jb, beat := 0, last := pc, bad := none } := by
  cases bad <;> rfl
theorem arrivalBy_badDirect (c : Core) (m : Mems) (k : Nat) (sup : Bool) (pc t n : Nat) :
    arrivalBy (badDirect c sup t) m k sup pc t n false = if shut c sup t = true then
      { pc := t, owedT := n, owedJ := 0, beat := 0, last := pc, bad := some (t + 2 ^ 16, pc) }
      else { pc := t, owedT := n, owedJ := (headerAt m k sup t).jb, beat := 0, last := pc, bad := none } := by
  unfold badDirect
  split <;> rfl
theorem rotation_eq (s : State) (e : LoopEntry) : rotation s e = if e.stg = 0 then []
    else (1, .p 8 (if e.stg + 1 < e.rem then BitVec.allOnes 1024 else 0) (BitVec.allOnes 1024)) ::
      (List.range 7).map (fun i => (1, RegW.p (9 + i) (s.w.rdP (8 + i)) (BitVec.allOnes 1024))) := by
  have hlast : fullP (decide (e.idx + 1 + e.stg < e.rem + e.idx)) = if e.stg + 1 < e.rem then BitVec.allOnes 1024 else 0 := by
    simp only [fullP, decide_eq_true_eq]
    congr 1
    exact propext ⟨by omega, by omega⟩
  rw [rotation, windowWrites, windowWrites_map, hlast]
  rfl
end

/-- Settles O3: each form's rule, put together. -/
theorem loops : Obligations.Loops := by
  refine ⟨fun s a stg off => ?_, fun s e r k => ?_⟩
  · dsimp only
    refine ⟨fun h => ?_, exec_loop_opens, exec_loop_opens_staged, fun h => ?_, fun h0 h1 hl => ?_⟩
    · rw [exec_loop_skips h, arrivalBy_badDirect]
      rfl
    · exact exec_loop_traps (by rw [loopAct, if_pos (by omega)])
    · have hl : 6 ≤ s.w.cc.ctx.loops.length := hl
      exact exec_loop_traps (by simp only [loopAct, beq_iff_eq]; rw [if_neg (by omega), if_neg (by omega), if_pos hl])
  · dsimp only
    refine ⟨fun hl hx hr => ?_, fun hl hx hr => ?_, fun hl hx => ?_, fun hl => ?_, fun f hf => ?_, exec_lbrk_traps⟩
    · rw [exec_lend_again hl hx hr, arrivalBy_direct, rotation_eq]
      rfl
    · rw [exec_lend_leaves hl hx hr, rotation_eq]
      rfl
    · have hl : s.w.cc.ctx.loops = e :: r := hl
      exact exec_lend_traps (by simp [lendAct, hl, hx])
    · have hl : s.w.cc.ctx.loops = [] := hl
      exact exec_lend_traps (by simp [lendAct, hl])
    · rw [exec_lbrk hf, arrivalBy_direct]
      rfl

end Sys2Proof.Machine
end

/-! SUPPORT. What falls due on a core, as an update of the core and of its die; it settles O40. -/
section
namespace Sys2Proof.Machine
open Sys2Proof

/-! ## What one write does to each field of the core and of its die (R126) -/

namespace RegW
def onSregs (m : FMap Word) : RegW → FMap Word
  | .s n y => if n = 0 then m else fset m 0 n y
  | _ => m
def onSup (m : FMap Word) : RegW → FMap Word
  | .sup n y => if n = 0 then m else fset m 0 n y
  | _ => m
def onVregs (m : FMap Line) : RegW → FMap Line
  | .v n x b => fset m 0 n (merged (fget m 0 n) x b)
  | _ => m
def onPreds (m : FMap Pred) : RegW → FMap Pred
  | .p n x b => if n = 0 then m else fset m 0 n (merged (fget m 0 n) x b)
  | _ => m
def onScales (m : FMap Scales) : RegW → FMap Scales
  | .sc n x => fset m 0 n x
  | _ => m
def onFlags (f ctrl : Nat) : RegW → Nat
  | .flags x => f ||| (x &&& ctrl)
  | .srw r y => if r = 0x10 then y.toNat % 32 else f
  | _ => f
def onCtrl (f : Nat) : RegW → Nat
  | .srw r y => if r = 0x11 then y.toNat % 32 else f
  | _ => f
def onTrappc (pc : Nat) : RegW → Nat
  | .srw r y => if r = 0x41 then y.toNat % 2 ^ 16 else pc
  | _ => pc
def onEvcsel (c : CoreCtx) : RegW → FMap Nat
  | .srw r y => if 0x80 ≤ r ∧ r ≤ 0x87 then fset c.evcsel 0 (r - 0x80) (coreSel y.toNat) else c.evcsel
  | .evctl op false mask => (evCore op mask (List.range 8) c).evcsel
  | _ => c.evcsel
def onEvc (c : CoreCtx) : RegW → FMap Nat
  | .srw r y => if 0x88 ≤ r ∧ r ≤ 0x8F then fset c.evc 0 (r - 0x88) (y.toNat % 2 ^ 48) else c.evc
  | .evctl op false mask => (evCore op mask (List.range 8) c).evc
  | _ => c.evc
def onIfstat (x : IfStat) : RegW → IfStat
  | .ifence => { x with fenced := true }
  | _ => x
/-- A READY half is ARMED by IFENCE if it is the idle one (R231). -/
def onHalf (idle : Bool) (h : Nat) : RegW → Nat
  | .ifence => if idle = true ∧ h = 3 then 4 else h
  | _ => h
def onDepth (d : Nat) : RegW → Nat
  | .cropen _ => d + 1
  | .crclose => d - 1
  | _ => d
def onCrvec (c : CoreCtx) : RegW → FMap Nat
  | .cropen t => fset c.crvec 0 c.crDepth t
  | _ => c.crvec
def onCrLoops (c : CoreCtx) : RegW → List (List LoopEntry)
  | .cropen _ => c.crLoops.take c.crDepth ++ [c.loops]
  | _ => c.crLoops
def onTshape (mx : Bool) (m : FMap Nat) : RegW → FMap Nat
  | .srw r y => if (0x60 ≤ r ∧ r ≤ 0x73) ∧ mx = true then fset m 0 (r - 0x60) (y.toNat % 2 ^ 26) else m
  | _ => m
def onDevsel (d : Die) : RegW → FMap Nat
  | .srw r y => if 0xA0 ≤ r ∧ r ≤ 0xAF then fset d.devsel 0 (r - 0xA0) (dieSel y.toNat) else d.devsel
  | .evctl op true mask => (evDie op mask (List.range 16) d).devsel
  | _ => d.devsel
def onDevc (d : Die) : RegW → FMap Nat
  | .srw r y => if 0xB0 ≤ r ∧ r ≤ 0xBF then fset d.devc 0 (r - 0xB0) (y.toNat % 2 ^ 48) else d.devc
  | .evctl op true mask => (evDie op mask (List.range 16) d).devc
  | _ => d.devc
end RegW
/-- The core after a write that is due on it. -/
def Core.take (c : Core) (p : Pend) : Core :=
  { c with
    trappc := p.w.onTrappc c.trappc
    ifstat := p.w.onIfstat c.ifstat
    ctx := { c.ctx with
      sregs := p.w.onSregs c.ctx.sregs, sup := p.w.onSup c.ctx.sup, vregs := p.w.onVregs c.ctx.vregs
      preds := p.w.onPreds c.ctx.preds, scales := p.w.onScales c.ctx.scales
      fpflags := p.w.onFlags c.ctx.fpflags c.ctx.fpctrl, fpctrl := p.w.onCtrl c.ctx.fpctrl
      evcsel := p.w.onEvcsel c.ctx, evc := p.w.onEvc c.ctx
      halfA := p.w.onHalf c.ctx.halfAct c.ctx.halfA, halfB := p.w.onHalf (!c.ctx.halfAct) c.ctx.halfB
      crDepth := p.w.onDepth c.ctx.crDepth, crvec := p.w.onCrvec c.ctx, crLoops := p.w.onCrLoops c.ctx } }
def Pend.onLease (k : Nat) (l : ArrayLease) (p : Pend) : ArrayLease :=
  match p.w with
  | .lease take => if take then { holder := some k, grant := p.issue, count := 0 } else ArrayLease.free
  | _ => l
/-- The die of core `k` after a write that is due on it. -/
def Die.take (k : Nat) (d : Die) (p : Pend) : Die :=
  { d with tshape := p.w.onTshape (isMx k) d.tshape, devsel := p.w.onDevsel d, devc := p.w.onDevc d, lease := p.onLease k d.lease }

/-! ## One write applies -/

/-- EVCTL changes selectors and counts (R129). -/
theorem evCore_frame (op : EvOp) (mask : Nat) (l : List Nat) (c : CoreCtx) :
    evCore op mask l c = { c with evcsel := (evCore op mask l c).evcsel, evc := (evCore op mask l c).evc } := by
  induction l generalizing c with
  | nil => rfl
  | cons j r ih =>
    unfold evCore
    split
    · rw [ih]
    · exact ih c
theorem evDie_frame (op : EvOp) (mask : Nat) (l : List Nat) (d : Die) :
    evDie op mask l d = { d with devsel := (evDie op mask l d).devsel, devc := (evDie op mask l d).devc } := by
  induction l generalizing d with
  | nil => rfl
  | cons j r ih =>
    unfold evDie
    split
    · rw [ih]
    · exact ih d
theorem core_modCtx_same (w : World) (k : Nat) (f : CoreCtx → CoreCtx) :
    (w.modCtx k f).core k = { w.core k with ctx := f (w.core k).ctx } := by
  simp [World.modCtx]
/-- A write changes the core and the die as told, and nothing else but the errors that stood in what is written. -/
structure Took (k : Nat) (p : Pend) (w v : World) : Prop where
  core : v.core k = (w.core k).take p
  die : v.die (k / 8) = (w.die (k / 8)).take k p
  coreOther : ∀ j, j ≠ k → v.core j = w.core j
  dieOther : ∀ j, j ≠ k / 8 → v.die j = w.die j
  rest : v = { w with cores := v.cores, dies := v.dies, softErrs := v.softErrs }
section
variable {k : Nat} {p : Pend} {w v : World}

theorem took_modCtx {f : CoreCtx → CoreCtx} (hv : v = { w with softErrs := v.softErrs })
    (hc : { w.core k with ctx := f (w.core k).ctx } = (w.core k).take p) (hd : w.die (k / 8) = (w.die (k / 8)).take k p) :
    Took k p w (v.modCtx k f) := by
  have hcore : ∀ j, v.core j = w.core j := fun j => by rw [hv]; rfl
  refine ⟨?_, ?_, fun j hj => ?_, fun j _ => ?_, ?_⟩
  · rw [core_modCtx_same, hcore, hc]
  · rw [← hd, hv]; rfl
  · rw [World.modCtx, core_modCore_other _ _ _ _ hj, hcore]
  · rw [hv]; rfl
  · rw [hv]; rfl
theorem took_modCore {f : Core → Core} (hc : f (w.core k) = (w.core k).take p) (hd : w.die (k / 8) = (w.die (k / 8)).take k p) :
    Took k p w (w.modCore k f) :=
  ⟨by rw [core_modCore_same, hc], hd, fun j hj => core_modCore_other _ _ _ _ hj, fun _ _ => rfl, rfl⟩
theorem took_modDie {f : Die → Die} (hc : w.core k = (w.core k).take p) (hd : f (w.die (k / 8)) = (w.die (k / 8)).take k p) :
    Took k p w (w.modDie (k / 8) f) :=
  ⟨hc, by rw [die_modDie_same, hd], fun _ _ => rfl, fun j hj => die_modDie_other _ _ _ _ hj, rfl⟩
theorem took_nothing (hc : w.core k = (w.core k).take p) (hd : w.die (k / 8) = (w.die (k / 8)).take k p) : Took k p w w :=
  ⟨hc, hd, fun _ _ => rfl, fun _ _ => rfl, rfl⟩

/-! An SRW goes to the core or to the die, by its register (R121). -/

theorem core_take_srw (c : Core) {r : Nat} {x : Word} (hp : p.w = .srw r x) : c.take p =
    { c with
      trappc := if r = 0x41 then x.toNat % 2 ^ 16 else c.trappc
      ctx := { c.ctx with
        fpflags := if r = 0x10 then x.toNat % 32 else c.ctx.fpflags
        fpctrl := if r = 0x11 then x.toNat % 32 else c.ctx.fpctrl
        evcsel := if 0x80 ≤ r ∧ r ≤ 0x87 then fset c.ctx.evcsel 0 (r - 0x80) (coreSel x.toNat) else c.ctx.evcsel
        evc := if 0x88 ≤ r ∧ r ≤ 0x8F then fset c.ctx.evc 0 (r - 0x88) (x.toNat % 2 ^ 48) else c.ctx.evc } } := by
  simp only [Core.take, hp]
  rfl
theorem die_take_srw (d : Die) {r : Nat} {x : Word} (hp : p.w = .srw r x) : d.take k p =
    { d with
      tshape := if (0x60 ≤ r ∧ r ≤ 0x73) ∧ isMx k = true then fset d.tshape 0 (r - 0x60) (x.toNat % 2 ^ 26) else d.tshape
      devsel := if 0xA0 ≤ r ∧ r ≤ 0xAF then fset d.devsel 0 (r - 0xA0) (dieSel x.toNat) else d.devsel
      devc := if 0xB0 ≤ r ∧ r ≤ 0xBF then fset d.devc 0 (r - 0xB0) (x.toNat % 2 ^ 48) else d.devc } := by
  simp only [Die.take, Pend.onLease, hp]
  rfl
theorem took_putSys {r : Nat} {x : Word} (w : World) (hp : p.w = .srw r x) : Took k p w (w.putSys k r x.toNat) := by
  have hc := core_take_srw (w.core k) hp
  have hd := die_take_srw (k := k) (w.die (k / 8)) hp
  simp only [World.putSys, beq_iff_eq, Bool.and_eq_true, decide_eq_true_eq]
  by_cases h10 : r = 0x10
  · rw [if_pos h10]
    subst h10
    exact took_modCtx rfl hc.symm hd.symm
  rw [if_neg h10] at hc ⊢
  by_cases h11 : r = 0x11
  · rw [if_pos h11]
    subst h11
    exact took_modCtx rfl hc.symm hd.symm
  rw [if_neg h11] at hc ⊢
  by_cases h41 : r = 0x41
  · rw [if_pos h41]
    subst h41
    exact took_modCore hc.symm hd.symm
  rw [if_neg h41] at hc ⊢
  by_cases h60 : 0x60 ≤ r ∧ r ≤ 0x73
  · rw [if_neg (by omega), if_neg (by omega)] at hc
    rw [if_neg (by omega : ¬(0xA0 ≤ r ∧ r ≤ 0xAF)), if_neg (by omega : ¬(0xB0 ≤ r ∧ r ≤ 0xBF))] at hd
    rw [if_pos h60]
    by_cases hm : isMx k = true
    · rw [if_pos ⟨h60, hm⟩] at hd
      rw [if_pos hm]
      exact took_modDie hc.symm hd.symm
    · rw [if_neg (fun h : (0x60 ≤ r ∧ r ≤ 0x73) ∧ isMx k = true => hm h.2)] at hd
      rw [if_neg hm]
      exact took_nothing hc.symm hd.symm
  have hmx : ¬((0x60 ≤ r ∧ r ≤ 0x73) ∧ isMx k = true) := fun h => h60 h.1
  rw [if_neg hmx] at hd
  rw [if_neg h60]
  by_cases h80 : 0x80 ≤ r ∧ r ≤ 0x87
  · rw [if_pos h80, if_neg (by omega)] at hc
    rw [if_neg (by omega), if_neg (by omega)] at hd
    rw [if_pos h80]
    exact took_modCtx rfl hc.symm hd.symm
  rw [if_neg h80] at hc ⊢
  by_cases h88 : 0x88 ≤ r ∧ r ≤ 0x8F
  · rw [if_pos h88] at hc ⊢
    rw [if_neg (by omega), if_neg (by omega)] at hd
    exact took_modCtx rfl hc.symm hd.symm
  rw [if_neg h88] at hc ⊢
  by_cases hA0 : 0xA0 ≤ r ∧ r ≤ 0xAF
  · rw [if_pos hA0, if_neg (by omega)] at hd
    rw [if_pos hA0]
    exact took_modDie hc.symm hd.symm
  rw [if_neg hA0] at hd ⊢
  split
  · rename_i hB0
    rw [if_pos hB0] at hd
    exact took_modDie hc.symm hd.symm
  · rename_i hB0
    rw [if_neg hB0] at hd
    exact took_nothing hc.symm hd.symm
/-- IFENCE arms the idle half and no other (R231). -/
theorem core_take_ifence (c : Core) (hp : p.w = .ifence) : c.fence = c.take p := by
  have ht : c.take p = { c with
      ifstat := { c.ifstat with fenced := true }
      ctx := { c.ctx with halfA := if c.ctx.halfAct = true ∧ c.ctx.halfA = 3 then 4 else c.ctx.halfA
                          halfB := if (!c.ctx.halfAct) = true ∧ c.ctx.halfB = 3 then 4 else c.ctx.halfB } } := by
    rw [Core.take, hp]; rfl
  rw [ht, Core.fence]
  cases c.ctx.halfAct <;> simp
theorem apply_took (k : Nat) (p : Pend) (w : World) : Took k p w (w.apply k p) := by
  rw [World.apply]
  cases hp : p.w with
  | s n x =>
    have hc : (w.core k).take p = { w.core k with ctx := { (w.core k).ctx with
      sregs := if n = 0 then (w.core k).ctx.sregs else fset (w.core k).ctx.sregs 0 n x } } := by rw [Core.take, hp]; rfl
    have hd : (w.die (k / 8)).take k p = w.die (k / 8) := by rw [Die.take, Pend.onLease, hp]; rfl
    simp only [World.putS, beq_iff_eq, Bool.false_eq_true, if_false]
    by_cases hn : n = 0
    · rw [if_pos hn] at hc ⊢
      exact took_nothing hc.symm hd.symm
    · rw [if_neg hn] at hc ⊢
      exact took_modCtx rfl hc.symm hd.symm
  | sup n x =>
    have hc : (w.core k).take p = { w.core k with ctx := { (w.core k).ctx with
      sup := if n = 0 then (w.core k).ctx.sup else fset (w.core k).ctx.sup 0 n x } } := by rw [Core.take, hp]; rfl
    have hd : (w.die (k / 8)).take k p = w.die (k / 8) := by rw [Die.take, Pend.onLease, hp]; rfl
    simp only [World.putS, beq_iff_eq, if_true]
    by_cases hn : n = 0
    · rw [if_pos hn] at hc ⊢
      exact took_nothing hc.symm hd.symm
    · rw [if_neg hn] at hc ⊢
      exact took_modCtx rfl hc.symm hd.symm
  | v n x m =>
    refine took_modCtx (w := w) (by split <;> rfl) ?_ ?_
    · rw [Core.take, hp]; rfl
    · rw [Die.take, Pend.onLease, hp]; rfl
  | p n x m =>
    have hc : (w.core k).take p = { w.core k with ctx := { (w.core k).ctx with
      preds := if n = 0 then (w.core k).ctx.preds
        else fset (w.core k).ctx.preds 0 n (merged (fget (w.core k).ctx.preds 0 n) x m) } } := by rw [Core.take, hp]; rfl
    have hd : (w.die (k / 8)).take k p = w.die (k / 8) := by rw [Die.take, Pend.onLease, hp]; rfl
    simp only [World.putP, beq_iff_eq]
    by_cases hn : n = 0
    · rw [if_pos hn] at hc ⊢
      exact took_nothing hc.symm hd.symm
    · rw [if_neg hn] at hc ⊢
      exact took_modCtx (by split <;> rfl) hc.symm hd.symm
  | sc n x | flags f | cropen t | crclose =>
    exact took_modCtx (w := w) rfl (by rw [Core.take, hp]; rfl) (by rw [Die.take, Pend.onLease, hp]; rfl)
  | srw r x => exact took_putSys w hp
  | evctl op die mask =>
    cases die with
    | true =>
      exact took_modDie (by rw [Core.take, hp]; rfl) (by rw [Die.take, Pend.onLease, hp, evDie_frame]; rfl)
    | false =>
      exact took_modCtx (w := w) rfl (by rw [Core.take, hp, evCore_frame]; rfl) (by rw [Die.take, Pend.onLease, hp]; rfl)
  | ifence => exact took_modCore (core_take_ifence _ hp) (by rw [Die.take, Pend.onLease, hp]; rfl)
  | lease take => exact took_modDie (by rw [Core.take, hp]; rfl) (by rw [Die.take, Pend.onLease, hp]; rfl)
end

/-! ## All writes that are due -/

/-- The core and its die after some writes, in order. -/
def Core.takes (c : Core) (l : List Pend) : Core := l.foldl Core.take c
def Die.takes (k : Nat) (d : Die) (l : List Pend) : Die := l.foldl (Die.take k) d
structure TookAll (k : Nat) (l : List Pend) (w v : World) : Prop where
  core : v.core k = (w.core k).takes l
  die : v.die (k / 8) = (w.die (k / 8)).takes k l
  coreOther : ∀ j, j ≠ k → v.core j = w.core j
  dieOther : ∀ j, j ≠ k / 8 → v.die j = w.die j
  rest : v = { w with cores := v.cores, dies := v.dies, softErrs := v.softErrs }
theorem applyPends_took (k : Nat) (l : List Pend) (w : World) : TookAll k l w (applyPends k w l) := by
  induction l generalizing w with
  | nil => exact ⟨rfl, rfl, fun _ _ => rfl, fun _ _ => rfl, rfl⟩
  | cons p r ih =>
    obtain ⟨hc, hd, hco, hdo, hr⟩ := apply_took k p w
    obtain ⟨ic, id, ico, ido, ir⟩ := ih (w.apply k p)
    refine ⟨?_, ?_, fun j hj => ?_, fun j hj => ?_, ?_⟩
    · rw [applyPends, ic, hc]; rfl
    · rw [applyPends, id, hd]; rfl
    · rw [applyPends, ico j hj, hco j hj]
    · rw [applyPends, ido j hj, hdo j hj]
    · rw [applyPends, ir, hr]
/-- A core once what is due by cycle `t` at a level has left its list. -/
def Core.drained (c : Core) (sup : Bool) (t : Nat) : Core :=
  if sup then { c with hpend := c.hpend.filter (fun p => !p.dueBy t) } else { c with pend := c.pend.filter (fun p => !p.dueBy t) }
def Core.dueOn (c : Core) (sup : Bool) (t : Nat) : List Pend := (if sup then c.hpend else c.pend).filter (Pend.dueBy t)
theorem exposed_took (w : World) (k : Nat) (sup : Bool) (t : Nat) :
    TookAll k (inRank ((w.core k).dueOn sup t)) (w.setCore k ((w.core k).drained sup t)) (w.exposed k sup t) := by
  cases sup <;> exact applyPends_took ..

/-! ## The order of R126 -/

theorem insertBy_perm {α : Type} (key : α → Nat) (x : α) (l : List α) : (insertBy key x l).Perm (x :: l) := by
  induction l with
  | nil => exact .refl _
  | cons y r ih =>
    unfold insertBy
    split
    · exact .refl _
    · exact (ih.cons y).trans (.swap x y r)
theorem sortBy_perm {α : Type} (key : α → Nat) (l : List α) : (sortBy key l).Perm l := by
  have hfold : ∀ (l a : List α), (l.foldl (fun a x => insertBy key x a) a).Perm (l ++ a) := by
    intro l
    induction l with
    | nil => exact fun a => .refl _
    | cons x r ih => exact fun a => (ih _).trans (((insertBy_perm key x a).append_left r).trans List.perm_middle)
  have h := hfold l []
  rwa [List.append_nil] at h
theorem inRank_perm (l : List Pend) : (inRank l).Perm l :=
  (sortBy_perm ..).trans ((sortBy_perm ..).trans (sortBy_perm ..))
@[simp] theorem mem_inRank {l : List Pend} {p : Pend} : p ∈ inRank l ↔ p ∈ l := (inRank_perm l).mem_iff
theorem insertBy_sorted {α : Type} (key : α → Nat) (x : α) {l : List α} (h : l.Pairwise (fun a b => key a ≤ key b)) :
    (insertBy key x l).Pairwise (fun a b => key a ≤ key b) := by
  induction l with
  | nil => simp [insertBy]
  | cons y r ih =>
    obtain ⟨hy, hr⟩ := List.pairwise_cons.mp h
    unfold insertBy
    split
    · rename_i hxy
      refine List.pairwise_cons.mpr ⟨fun z hz => ?_, h⟩
      rcases List.mem_cons.mp hz with rfl | hz
      · exact hxy.le
      · exact hxy.le.trans (hy z hz)
    · rename_i hxy
      refine List.pairwise_cons.mpr ⟨fun z hz => ?_, ih hr⟩
      rcases List.mem_cons.mp ((insertBy_perm key x r).mem_iff.mp hz) with rfl | hz
      · exact not_lt.mp hxy
      · exact hy z hz
theorem sortBy_sorted {α : Type} (key : α → Nat) (l : List α) : (sortBy key l).Pairwise (fun a b => key a ≤ key b) := by
  have hfold : ∀ l a : List α, a.Pairwise (fun a b => key a ≤ key b) →
      (l.foldl (fun a x => insertBy key x a) a).Pairwise (fun a b => key a ≤ key b) := by
    intro l
    induction l with
    | nil => exact fun a h => h
    | cons x r ih => exact fun a h => ih _ (insertBy_sorted key x h)
  exact hfold l [] .nil
/-- In a list in order of rank, the SRWs come first. -/
theorem srw_first {l : List Pend} (h : l.Pairwise (fun a b => a.rank ≤ b.rank)) :
    l = l.filter (fun p => p.rank = 0) ++ l.filter (fun p => p.rank ≠ 0) := by
  induction l with
  | nil => rfl
  | cons p r ih =>
    obtain ⟨hp, hr⟩ := List.pairwise_cons.mp h
    by_cases h0 : p.rank = 0
    · simpa [h0] using ih hr
    · have hnone : r.filter (fun p => p.rank = 0) = [] := by
        refine List.filter_eq_nil_iff.mpr fun q hq => ?_
        have := hp q hq
        simp only [decide_eq_true_eq]
        omega
      have hall : r.filter (fun p => p.rank ≠ 0) = r := by
        refine List.filter_eq_self.mpr fun q hq => ?_
        have := hp q hq
        simp only [decide_eq_true_eq]
        omega
      simp only [List.filter_cons, h0, hnone, hall]
      simp [h0]

/-! ## What a field holds after all -/

/-- One write of a list writes a register, though it may stand there more than once. -/
def Sole (l : List Pend) (p : Pend) (same : RegW → Prop) : Prop := p ∈ l ∧ ∀ q ∈ l, same q.w → q = p
theorem sole_inRank {l : List Pend} {p : Pend} {same : RegW → Prop} (h : Sole l p same) : Sole (inRank l) p same :=
  ⟨mem_inRank.mpr h.1, fun q hq => h.2 q (mem_inRank.mp hq)⟩

section
variable {α β : Type} {f : α → Pend → α} {φ : α → β} {l : List Pend}

/-- What no write changes stays. -/
theorem foldl_same (h : ∀ q ∈ l, ∀ a, φ (f a q) = φ a) (a : α) : φ (l.foldl f a) = φ a := by
  induction l generalizing a with
  | nil => rfl
  | cons q r ih =>
    rw [List.foldl_cons, ih (fun x hx => h x (by simp [hx])), h q (by simp)]
/-- What every write keeps holds after all of them. -/
theorem foldl_keeps {P : α → Prop} (h : ∀ q ∈ l, ∀ a, P a → P (f a q)) {a : α} (ha : P a) : P (l.foldl f a) := by
  induction l generalizing a with
  | nil => exact ha
  | cons q r ih => exact ih (fun x hx => h x (by simp [hx])) (h q (by simp) a ha)
/-- A write stands in the list, and each of the list changes nothing or does the same as it. -/
theorem foldl_idem {p : Pend} {g : β → β} (hp : p ∈ l) (hidem : ∀ x, g (g x) = g x) (hw : ∀ a, φ (f a p) = g (φ a))
    (hstep : ∀ q ∈ l, ∀ a, φ (f a q) = φ a ∨ φ (f a q) = g (φ a)) (a : α) : φ (l.foldl f a) = g (φ a) := by
  obtain ⟨x, y, rfl⟩ := List.append_of_mem hp
  have hbefore : φ (x.foldl f a) = φ a ∨ φ (x.foldl f a) = g (φ a) := by
    refine foldl_keeps (P := fun b => φ b = φ a ∨ φ b = g (φ a)) (fun q hq b hb => ?_) (.inl rfl)
    rcases hstep q (by simp [hq]) b with h | h <;> rw [h]
    · exact hb
    · rcases hb with hb | hb <;> rw [hb]
      · exact .inr rfl
      · exact .inr (hidem _)
  have hat : φ (f (x.foldl f a) p) = g (φ a) := by
    rw [hw]
    rcases hbefore with h | h <;> rw [h]
    exact hidem _
  rw [List.foldl_append, List.foldl_cons]
  refine foldl_keeps (P := fun b => φ b = g (φ a)) (fun q hq b hb => ?_) hat
  rcases hstep q (by simp [hq]) b with h | h
  · rw [h, hb]
  · rw [h, hb, hidem]
/-- What one write alone changes, however often it stands in the list, is as that write leaves it. -/
theorem foldl_sole {p : Pend} {g : β → β} {same : RegW → Prop} (h : Sole l p same) (hidem : ∀ x, g (g x) = g x)
    (hw : ∀ a, φ (f a p) = g (φ a)) (ho : ∀ q ∈ l, ¬same q.w → ∀ a, φ (f a q) = φ a) (a : α) :
    φ (l.foldl f a) = g (φ a) := by
  refine foldl_idem h.1 hidem hw (fun q hq a => ?_) a
  by_cases hq' : same q.w
  · rw [h.2 q hq hq', hw]
    exact .inr rfl
  · exact .inl (ho q hq hq' a)
end

/-! ## Registers -/

section
variable {l : List Pend} {p : Pend} {n : Nat}

theorem fget_set_if {α : Type} [DecidableEq α] {P : Prop} [Decidable P] {j : Nat} (m : FMap α) (a y : α) (h : P → n ≠ j) :
    fget (if P then fset m a j y else m) a n = fget m a n := by
  split
  · rename_i hP
    exact fget_fset_other _ _ _ _ _ (h hP)
  · rfl
theorem fget_set_unless {α : Type} [DecidableEq α] {P : Prop} [Decidable P] {j : Nat} (m : FMap α) (a y : α) (h : n ≠ j) :
    fget (if P then m else fset m a j y) a n = fget m a n := by
  split
  · rfl
  · exact fget_fset_other _ _ _ _ _ h
theorem RegW.onSregs_other (m : FMap Word) {r : RegW} (h : ¬∃ y, r = .s n y) : fget (r.onSregs m) 0 n = fget m 0 n := by
  cases r with
  | s j y =>
    exact fget_set_unless _ _ _ fun he => h ⟨y, by rw [he]⟩
  | _ => rfl
theorem RegW.onSup_other (m : FMap Word) {r : RegW} (h : ¬∃ y, r = .sup n y) : fget (r.onSup m) 0 n = fget m 0 n := by
  cases r with
  | sup j y =>
    exact fget_set_unless _ _ _ fun he => h ⟨y, by rw [he]⟩
  | _ => rfl
theorem RegW.onVregs_other (m : FMap Line) {r : RegW} (h : ¬∃ x b, r = .v n x b) : fget (r.onVregs m) 0 n = fget m 0 n := by
  cases r with
  | v j x b => exact fget_fset_other _ _ _ _ _ fun he => h ⟨x, b, by rw [he]⟩
  | _ => rfl
theorem RegW.onPreds_other (m : FMap Pred) {r : RegW} (h : ¬∃ x b, r = .p n x b) : fget (r.onPreds m) 0 n = fget m 0 n := by
  cases r with
  | p j x b =>
    exact fget_set_unless _ _ _ fun he => h ⟨x, b, by rw [he]⟩
  | _ => rfl
theorem RegW.onScales_other (m : FMap Scales) {r : RegW} (h : ¬∃ x, r = .sc n x) : fget (r.onScales m) 0 n = fget m 0 n := by
  cases r with
  | sc j x => exact fget_fset_other _ _ _ _ _ fun he => h ⟨x, by rw [he]⟩
  | _ => rfl
theorem sreg_take_other (h : ¬∃ y, p.w = .s n y) (c : Core) : sreg (c.take p) false n = sreg c false n := by
  simp only [sreg, Core.take, RegW.onSregs_other _ h, Bool.false_eq_true, if_false]
theorem sup_take_other (h : ¬∃ y, p.w = .sup n y) (c : Core) : sreg (c.take p) true n = sreg c true n := by
  simp only [sreg, Core.take, RegW.onSup_other _ h, if_true]
theorem vreg_take_other (h : ¬∃ x b, p.w = .v n x b) (c : Core) :
    fget (c.take p).ctx.vregs 0 n = fget c.ctx.vregs 0 n :=
  RegW.onVregs_other _ h
theorem preg_take_other (h : ¬∃ x b, p.w = .p n x b) (c : Core) : preg (c.take p) n = preg c n := by
  simp only [preg, Core.take, RegW.onPreds_other _ h]
theorem scale_take_other (h : ¬∃ x, p.w = .sc n x) (c : Core) :
    fget (c.take p).ctx.scales 0 n = fget c.ctx.scales 0 n :=
  RegW.onScales_other _ h
theorem merged_getLsbD {k : Nat} (old x m : BitVec k) (i : Nat) :
    (merged old x m).getLsbD i = if m.getLsbD i then x.getLsbD i else old.getLsbD i := by
  have hout : i < k ∨ old.getLsbD i = false := (Nat.lt_or_ge i k).imp_right (BitVec.getLsbD_of_ge old i)
  unfold merged
  rw [BitVec.getLsbD_or, BitVec.getLsbD_and, BitVec.getLsbD_and, BitVec.getLsbD_not]
  cases m.getLsbD i with
  | true => simp
  | false => rcases hout with h | h <;> simp [h]
theorem merged_merged {k : Nat} (old x m : BitVec k) : merged (merged old x m) x m = merged old x m := by
  refine BitVec.eq_of_getLsbD_eq fun i _ => ?_
  rw [merged_getLsbD, merged_getLsbD]
  split <;> rfl
theorem takes_s {y : Word} (hn : n ≠ 0) (hp : p.w = .s n y) (h : Sole l p (fun w => ∃ x, w = .s n x)) (c : Core) :
    sreg (c.takes l) false n = y :=
  foldl_sole (φ := fun c => sreg c false n) (g := fun _ => y) h (fun _ => rfl)
    (fun c => by simp [sreg, Core.take, hp, RegW.onSregs, hn]) (fun _ _ ho => sreg_take_other ho) c
theorem takes_sup {y : Word} (hn : n ≠ 0) (hp : p.w = .sup n y) (h : Sole l p (fun w => ∃ x, w = .sup n x)) (c : Core) :
    sreg (c.takes l) true n = y :=
  foldl_sole (φ := fun c => sreg c true n) (g := fun _ => y) h (fun _ => rfl)
    (fun c => by simp [sreg, Core.take, hp, RegW.onSup, hn]) (fun _ _ ho => sup_take_other ho) c
theorem takes_v {x b : Line} (hp : p.w = .v n x b) (h : Sole l p (fun w => ∃ a b, w = .v n a b)) (c : Core) :
    fget (c.takes l).ctx.vregs 0 n = merged (fget c.ctx.vregs 0 n) x b :=
  foldl_sole (φ := fun c : Core => fget c.ctx.vregs 0 n) (g := fun a => merged a x b) h (fun _ => merged_merged ..)
    (fun c => by simp [Core.take, hp, RegW.onVregs]) (fun _ _ ho => vreg_take_other ho) c
theorem takes_p {x b : Pred} (hn : n ≠ 0) (hp : p.w = .p n x b) (h : Sole l p (fun w => ∃ a b, w = .p n a b)) (c : Core) :
    preg (c.takes l) n = merged (preg c n) x b :=
  foldl_sole (φ := fun c => preg c n) (g := fun a => merged a x b) h (fun _ => merged_merged ..)
    (fun c => by simp [preg, Core.take, hp, RegW.onPreds, hn]) (fun _ _ ho => preg_take_other ho) c
theorem takes_sc {x : Scales} (hp : p.w = .sc n x) (h : Sole l p (fun w => ∃ y, w = .sc n y)) (c : Core) :
    fget (c.takes l).ctx.scales 0 n = x :=
  foldl_sole (φ := fun c : Core => fget c.ctx.scales 0 n) (g := fun _ => x) h (fun _ => rfl)
    (fun c => by simp [Core.take, hp, RegW.onScales]) (fun _ _ ho => scale_take_other ho) c

/-! ## System registers -/

theorem fpctrl_take_other (h : ¬∃ y, p.w = .srw 0x11 y) (c : Core) : (c.take p).ctx.fpctrl = c.ctx.fpctrl := by
  show p.w.onCtrl _ = _
  revert h
  cases p.w with
  | srw r y => exact fun h => if_neg fun he => h ⟨y, by rw [he]⟩
  | _ => exact fun _ => rfl
theorem trappc_take_other (h : ¬∃ y, p.w = .srw 0x41 y) (c : Core) : (c.take p).trappc = c.trappc := by
  show p.w.onTrappc _ = _
  revert h
  cases p.w with
  | srw r y => exact fun h => if_neg fun he => h ⟨y, by rw [he]⟩
  | _ => exact fun _ => rfl
theorem tshape_take_other {k : Nat} (h : ¬∃ y, p.w = .srw (0x60 + n) y) (d : Die) :
    fget (d.take k p).tshape 0 n = fget d.tshape 0 n := by
  show fget (p.w.onTshape _ _) 0 n = _
  revert h
  cases p.w with
  | srw r y =>
    intro h
    refine fget_set_if _ _ _ fun hr he => h ⟨y, ?_⟩
    rw [he, show 0x60 + (r - 0x60) = r by omega]
  | _ => exact fun _ => rfl
theorem evcsel_take_other (h : ¬∃ y, p.w = .srw (0x80 + n) y) (he : ∀ op m, p.w ≠ .evctl op false m) (c : Core) :
    fget (c.take p).ctx.evcsel 0 n = fget c.ctx.evcsel 0 n := by
  show fget (p.w.onEvcsel _) 0 n = _
  revert h he
  cases p.w with
  | srw r y =>
    intro h _
    refine fget_set_if _ _ _ fun hr he => h ⟨y, ?_⟩
    rw [he, show 0x80 + (r - 0x80) = r by omega]
  | evctl op die m =>
    intro _ he
    cases die with
    | true => rfl
    | false => exact absurd rfl (he op m)
  | _ => exact fun _ _ => rfl
theorem evc_take_other (h : ¬∃ y, p.w = .srw (0x88 + n) y) (he : ∀ op m, p.w ≠ .evctl op false m) (c : Core) :
    fget (c.take p).ctx.evc 0 n = fget c.ctx.evc 0 n := by
  show fget (p.w.onEvc _) 0 n = _
  revert h he
  cases p.w with
  | srw r y =>
    intro h _
    refine fget_set_if _ _ _ fun hr he => h ⟨y, ?_⟩
    rw [he, show 0x88 + (r - 0x88) = r by omega]
  | evctl op die m =>
    intro _ he
    cases die with
    | true => rfl
    | false => exact absurd rfl (he op m)
  | _ => exact fun _ _ => rfl
theorem devsel_take_other {k : Nat} (h : ¬∃ y, p.w = .srw (0xA0 + n) y) (he : ∀ op m, p.w ≠ .evctl op true m) (d : Die) :
    fget (d.take k p).devsel 0 n = fget d.devsel 0 n := by
  show fget (p.w.onDevsel _) 0 n = _
  revert h he
  cases p.w with
  | srw r y =>
    intro h _
    refine fget_set_if _ _ _ fun hr he => h ⟨y, ?_⟩
    rw [he, show 0xA0 + (r - 0xA0) = r by omega]
  | evctl op die m =>
    intro _ he
    cases die with
    | false => rfl
    | true => exact absurd rfl (he op m)
  | _ => exact fun _ _ => rfl
theorem devc_take_other {k : Nat} (h : ¬∃ y, p.w = .srw (0xB0 + n) y) (he : ∀ op m, p.w ≠ .evctl op true m) (d : Die) :
    fget (d.take k p).devc 0 n = fget d.devc 0 n := by
  show fget (p.w.onDevc _) 0 n = _
  revert h he
  cases p.w with
  | srw r y =>
    intro h _
    refine fget_set_if _ _ _ fun hr he => h ⟨y, ?_⟩
    rw [he, show 0xB0 + (r - 0xB0) = r by omega]
  | evctl op die m =>
    intro _ he
    cases die with
    | false => rfl
    | true => exact absurd rfl (he op m)
  | _ => exact fun _ _ => rfl
end

section
variable {l : List Pend} {p : Pend} {k n r : Nat} {y : Word}

theorem takes_fpctrl (hp : p.w = .srw 0x11 y) (h : Sole l p (fun w => ∃ y, w = .srw 0x11 y)) (c : Core) :
    (c.takes l).ctx.fpctrl = y.toNat % 32 :=
  foldl_sole (φ := fun c : Core => c.ctx.fpctrl) (g := fun _ => y.toNat % 32) h (fun _ => rfl)
    (fun c => by rw [core_take_srw c hp]; rfl) (fun _ _ ho => fpctrl_take_other ho) c
theorem takes_trappc (hp : p.w = .srw 0x41 y) (h : Sole l p (fun w => ∃ y, w = .srw 0x41 y)) (c : Core) :
    (c.takes l).trappc = y.toNat % 2 ^ 16 :=
  foldl_sole (φ := fun c : Core => c.trappc) (g := fun _ => y.toNat % 2 ^ 16) h (fun _ => rfl)
    (fun c => by rw [core_take_srw c hp]; rfl) (fun _ _ ho => trappc_take_other ho) c
theorem takes_tshape (hn : n ≤ 0x13) (hk : isMx k = true) (hp : p.w = .srw (0x60 + n) y)
    (h : Sole l p (fun w => ∃ y, w = .srw (0x60 + n) y)) (d : Die) :
    fget (d.takes k l).tshape 0 n = y.toNat % 2 ^ 26 :=
  foldl_sole (φ := fun d : Die => fget d.tshape 0 n) (g := fun _ => y.toNat % 2 ^ 26) h (fun _ => rfl)
    (fun d => by
      rw [die_take_srw d hp]
      simp only [hk]
      rw [if_pos ⟨by omega, trivial⟩, Nat.add_sub_cancel_left, fget_fset_same])
    (fun _ _ ho => tshape_take_other ho) d
theorem takes_evcsel_srw (hn : n ≤ 7) (hp : p.w = .srw (0x80 + n) y) (h : Sole l p (fun w => ∃ y, w = .srw (0x80 + n) y))
    (he : ∀ q ∈ l, ∀ op m, q.w ≠ .evctl op false m) (c : Core) :
    fget (c.takes l).ctx.evcsel 0 n = coreSel y.toNat :=
  foldl_sole (φ := fun c : Core => fget c.ctx.evcsel 0 n) (g := fun _ => coreSel y.toNat) h (fun _ => rfl)
    (fun c => by
      rw [core_take_srw c hp]
      simp only
      rw [if_pos (by omega), Nat.add_sub_cancel_left, fget_fset_same])
    (fun q hq ho => evcsel_take_other ho (he q hq)) c
theorem takes_evc_srw (hn : n ≤ 7) (hp : p.w = .srw (0x88 + n) y) (h : Sole l p (fun w => ∃ y, w = .srw (0x88 + n) y))
    (he : ∀ q ∈ l, ∀ op m, q.w ≠ .evctl op false m) (c : Core) :
    fget (c.takes l).ctx.evc 0 n = y.toNat % 2 ^ 48 :=
  foldl_sole (φ := fun c : Core => fget c.ctx.evc 0 n) (g := fun _ => y.toNat % 2 ^ 48) h (fun _ => rfl)
    (fun c => by
      rw [core_take_srw c hp]
      simp only
      rw [if_pos (by omega), Nat.add_sub_cancel_left, fget_fset_same])
    (fun q hq ho => evc_take_other ho (he q hq)) c
theorem takes_devsel_srw (hn : n ≤ 15) (hp : p.w = .srw (0xA0 + n) y) (h : Sole l p (fun w => ∃ y, w = .srw (0xA0 + n) y))
    (he : ∀ q ∈ l, ∀ op m, q.w ≠ .evctl op true m) (d : Die) :
    fget (d.takes k l).devsel 0 n = dieSel y.toNat :=
  foldl_sole (φ := fun d : Die => fget d.devsel 0 n) (g := fun _ => dieSel y.toNat) h (fun _ => rfl)
    (fun d => by
      rw [die_take_srw d hp]
      simp only
      rw [if_pos (by omega), Nat.add_sub_cancel_left, fget_fset_same])
    (fun q hq ho => devsel_take_other ho (he q hq)) d
theorem takes_devc_srw (hn : n ≤ 15) (hp : p.w = .srw (0xB0 + n) y) (h : Sole l p (fun w => ∃ y, w = .srw (0xB0 + n) y))
    (he : ∀ q ∈ l, ∀ op m, q.w ≠ .evctl op true m) (d : Die) :
    fget (d.takes k l).devc 0 n = y.toNat % 2 ^ 48 :=
  foldl_sole (φ := fun d : Die => fget d.devc 0 n) (g := fun _ => y.toNat % 2 ^ 48) h (fun _ => rfl)
    (fun d => by
      rw [die_take_srw d hp]
      simp only
      rw [if_pos (by omega), Nat.add_sub_cancel_left, fget_fset_same])
    (fun q hq ho => devc_take_other ho (he q hq)) d

/-! ## EVCTL (R129) -/

theorem bitOf_testBit (i w : Nat) : bitOf i w = w.testBit i := by
  rw [Nat.testBit_eq_decide_div_mod_eq]
  rfl
theorem fget_evCore (op : EvOp) (mask j : Nat) {l : List Nat} (hl : l.Nodup) (c : CoreCtx) :
    fget (evCore op mask l c).evcsel 0 j =
        (if j ∈ l ∧ mask.testBit j then evSel op 6 7 (fget c.evcsel 0 j) else fget c.evcsel 0 j) ∧
      fget (evCore op mask l c).evc 0 j = if j ∈ l ∧ mask.testBit j then evCount op (fget c.evc 0 j) else fget c.evc 0 j := by
  induction l generalizing c with
  | nil => simp [evCore]
  | cons i r ih =>
    obtain ⟨hi, hr⟩ := List.nodup_cons.mp hl
    unfold evCore
    rw [bitOf_testBit]
    by_cases hj : j = i
    · subst hj
      split <;> rename_i hb <;> obtain ⟨hs, hc⟩ := ih hr _ <;> rw [hs, hc] <;> simp [hi, hb]
    · split <;> obtain ⟨hs, hc⟩ := ih hr _ <;> rw [hs, hc] <;> simp [hj, fget_fset_other]
theorem fget_evDie (op : EvOp) (mask j : Nat) {l : List Nat} (hl : l.Nodup) (d : Die) :
    fget (evDie op mask l d).devsel 0 j =
        (if j ∈ l ∧ mask.testBit j then evSel op 5 6 (fget d.devsel 0 j) else fget d.devsel 0 j) ∧
      fget (evDie op mask l d).devc 0 j = if j ∈ l ∧ mask.testBit j then evCount op (fget d.devc 0 j) else fget d.devc 0 j := by
  induction l generalizing d with
  | nil => simp [evDie]
  | cons i r ih =>
    obtain ⟨hi, hr⟩ := List.nodup_cons.mp hl
    unfold evDie
    rw [bitOf_testBit]
    by_cases hj : j = i
    · subst hj
      split <;> rename_i hb <;> obtain ⟨hs, hc⟩ := ih hr _ <;> rw [hs, hc] <;> simp [hi, hb]
    · split <;> obtain ⟨hs, hc⟩ := ih hr _ <;> rw [hs, hc] <;> simp [hj, fget_fset_other]
/-- Clearing a bit of a number. -/
def cleared (i v : Nat) : Nat := v - bit (bitOf i v) * 2 ^ i
theorem cleared_of_clear {i v : Nat} (h : v.testBit i = false) : cleared i v = v := by
  simp [cleared, bitOf_testBit, h, bit]
@[simp] theorem testBit_cleared (i v : Nat) : (cleared i v).testBit i = false := by
  cases h : v.testBit i with
  | false => rw [cleared_of_clear h, h]
  | true =>
    have hodd : v / 2 ^ i % 2 = 1 := by simpa [Nat.testBit_eq_decide_div_mod_eq] using h
    have hdiv : cleared i v / 2 ^ i = v / 2 ^ i - 1 := by
      rw [cleared, bitOf_testBit, h, bit, if_pos rfl, Nat.one_mul, ← Nat.sub_mul_div v (2 ^ i) 1, Nat.mul_one]
    rw [Nat.testBit_eq_decide_div_mod_eq, hdiv, decide_eq_false_iff_not]
    omega
/-- EVCTL done twice is EVCTL done once: the overflow bit stands just above the enable bit. -/
theorem evSel_evSel (op : EvOp) (en v : Nat) : evSel op en (en + 1) (evSel op en (en + 1) v) = evSel op en (en + 1) v := by
  have hor : ∀ a : Nat, (a ||| 2 ^ en) ||| 2 ^ en = a ||| 2 ^ en := fun a => by rw [Nat.or_assoc, Nat.or_self]
  have hclear : ∀ i, cleared i (cleared i v) = cleared i v := fun i => cleared_of_clear (testBit_cleared i v)
  cases op with
  | start => exact hor v
  | stop => exact hclear en
  | clear => exact hclear (en + 1)
  | restart =>
    have hovf : (cleared (en + 1) v ||| 2 ^ en).testBit (en + 1) = false := by
      rw [Nat.testBit_or, testBit_cleared, Nat.testBit_two_pow_of_ne (by omega)]
      rfl
    calc cleared (en + 1) (cleared (en + 1) v ||| 2 ^ en) ||| 2 ^ en
      _ = (cleared (en + 1) v ||| 2 ^ en) ||| 2 ^ en := by rw [cleared_of_clear hovf]
      _ = cleared (en + 1) v ||| 2 ^ en := hor _
theorem takes_evctl_core {op : EvOp} {mask : Nat} (hn : n < 8) (hp : p.w = .evctl op false mask)
    (h : Sole l p (fun w => ∃ a b, w = .evctl a false b))
    (hs : ∀ q ∈ l, ∀ v, q.w ≠ .srw (0x80 + n) v ∧ q.w ≠ .srw (0x88 + n) v) (c : Core) :
    fget (c.takes l).ctx.evcsel 0 n =
        (if mask.testBit n then evSel op 6 7 (fget c.ctx.evcsel 0 n) else fget c.ctx.evcsel 0 n) ∧
      fget (c.takes l).ctx.evc 0 n = (if mask.testBit n then evCount op (fget c.ctx.evc 0 n) else fget c.ctx.evc 0 n) := by
  have hev : ∀ q : Pend, (¬∃ a b, q.w = .evctl a false b) → ∀ a b, q.w ≠ .evctl a false b := fun q h a b hq => h ⟨a, b, hq⟩
  have hin : ∀ P : Prop, (n ∈ List.range 8 ∧ P) = P := fun P => by simp [hn]
  constructor
  · refine foldl_sole (f := Core.take) (φ := fun c : Core => fget c.ctx.evcsel 0 n)
      (g := fun v => if mask.testBit n then evSel op 6 7 v else v) h (fun v => ?_) (fun c => ?_)
      (fun q hq ho => evcsel_take_other (fun hx => (hs q hq _).1 hx.choose_spec) (hev q ho)) c
    · split
      · exact evSel_evSel op 6 v
      · rfl
    · have hf := (fget_evCore op mask n List.nodup_range c.ctx (l := List.range 8)).1
      simp only [hin] at hf
      rw [← hf, Core.take, hp]
      rfl
  · refine foldl_sole (f := Core.take) (φ := fun c : Core => fget c.ctx.evc 0 n)
      (g := fun v => if mask.testBit n then evCount op v else v) h (fun v => ?_) (fun c => ?_)
      (fun q hq ho => evc_take_other (fun hx => (hs q hq _).2 hx.choose_spec) (hev q ho)) c
    · split
      · cases op <;> rfl
      · rfl
    · have hf := (fget_evCore op mask n List.nodup_range c.ctx (l := List.range 8)).2
      simp only [hin] at hf
      rw [← hf, Core.take, hp]
      rfl
theorem takes_evctl_die {op : EvOp} {mask : Nat} (hn : n < 16) (hp : p.w = .evctl op true mask)
    (h : Sole l p (fun w => ∃ a b, w = .evctl a true b))
    (hs : ∀ q ∈ l, ∀ v, q.w ≠ .srw (0xA0 + n) v ∧ q.w ≠ .srw (0xB0 + n) v) (d : Die) :
    fget (d.takes k l).devsel 0 n =
        (if mask.testBit n then evSel op 5 6 (fget d.devsel 0 n) else fget d.devsel 0 n) ∧
      fget (d.takes k l).devc 0 n = (if mask.testBit n then evCount op (fget d.devc 0 n) else fget d.devc 0 n) := by
  have hev : ∀ q : Pend, (¬∃ a b, q.w = .evctl a true b) → ∀ a b, q.w ≠ .evctl a true b := fun q h a b hq => h ⟨a, b, hq⟩
  have hin : ∀ P : Prop, (n ∈ List.range 16 ∧ P) = P := fun P => by simp [hn]
  constructor
  · refine foldl_sole (f := Die.take k) (φ := fun d : Die => fget d.devsel 0 n)
      (g := fun v => if mask.testBit n then evSel op 5 6 v else v) h (fun v => ?_) (fun d => ?_)
      (fun q hq ho => devsel_take_other (fun hx => (hs q hq _).1 hx.choose_spec) (hev q ho)) d
    · split
      · exact evSel_evSel op 5 v
      · rfl
    · have hf := (fget_evDie op mask n List.nodup_range d (l := List.range 16)).1
      simp only [hin] at hf
      rw [← hf, Die.take, hp]
      rfl
  · refine foldl_sole (f := Die.take k) (φ := fun d : Die => fget d.devc 0 n)
      (g := fun v => if mask.testBit n then evCount op v else v) h (fun v => ?_) (fun d => ?_)
      (fun q hq ho => devc_take_other (fun hx => (hs q hq _).2 hx.choose_spec) (hev q ho)) d
    · split
      · cases op <;> rfl
      · rfl
    · have hf := (fget_evDie op mask n List.nodup_range d (l := List.range 16)).2
      simp only [hin] at hf
      rw [← hf, Die.take, hp]
      rfl
end

/-! ## IFENCE, the regions and the array lease -/

section
variable {l : List Pend} {p : Pend} {k : Nat}

/-- What IFENCE writes: the status and the state of both halves. -/
def Core.fences (c : Core) : IfStat × Bool × Nat × Nat := (c.ifstat, c.ctx.halfAct, c.ctx.halfA, c.ctx.halfB)
theorem fences_take_other (h : p.w ≠ .ifence) (c : Core) : (c.take p).fences = c.fences := by
  show (p.w.onIfstat _, _, p.w.onHalf _ _, p.w.onHalf _ _) = _
  revert h
  cases p.w with
  | ifence => exact fun h => absurd rfl h
  | _ => exact fun _ => rfl
/-- What IFENCE makes of the status and the halves (R231). -/
def fenced : IfStat × Bool × Nat × Nat → IfStat × Bool × Nat × Nat
  | (x, act, a, b) => ({ x with fenced := true }, act, if act = true ∧ a = 3 then 4 else a, if act = false ∧ b = 3 then 4 else b)
theorem fences_take_ifence (h : p.w = .ifence) (c : Core) : (c.take p).fences = fenced c.fences := by
  rw [← core_take_ifence c h, Core.fence]
  cases ha : c.ctx.halfAct <;> simp [Core.fences, fenced, ha]
theorem fenced_fenced (x : IfStat × Bool × Nat × Nat) : fenced (fenced x) = fenced x := by
  obtain ⟨x, act, a, b⟩ := x
  simp only [fenced, Prod.mk.injEq, true_and]
  constructor <;> split <;> simp_all
theorem takes_ifence (h : ∃ p ∈ l, p.w = .ifence) (c : Core) : (c.takes l).fences = fenced c.fences := by
  obtain ⟨p, hp, hw⟩ := h
  refine foldl_idem (f := Core.take) (φ := Core.fences) hp fenced_fenced (fences_take_ifence hw) (fun q _ c => ?_) c
  by_cases hq : q.w = .ifence
  · exact .inr (fences_take_ifence hq c)
  · exact .inl (fences_take_other hq c)
theorem takes_no_ifence (h : ∀ p ∈ l, p.w ≠ .ifence) (c : Core) : (c.takes l).fences = c.fences :=
  foldl_same (φ := Core.fences) (fun q hq => fences_take_other (h q hq)) c

/-- A write of the depth of the regions (R341). -/
def RegW.Region (r : RegW) : Prop := r = .crclose ∨ ∃ t, r = .cropen t
/-- What CROPEN and CRCLOSE read and write. -/
def Core.crState (c : Core) : Nat × FMap Nat × List (List LoopEntry) × List LoopEntry :=
  (c.ctx.crDepth, c.ctx.crvec, c.ctx.crLoops, c.ctx.loops)
theorem crState_take_other (h : ¬p.w.Region) (c : Core) : (c.take p).crState = c.crState := by
  show (p.w.onDepth _, p.w.onCrvec _, p.w.onCrLoops _, _) = _
  revert h
  cases p.w with
  | cropen t => exact fun h => absurd (.inr ⟨t, rfl⟩) h
  | crclose => exact fun h => absurd (.inl rfl) h
  | _ => exact fun _ => rfl
/-- One write of a list, once in it, writes a register. -/
def Once (l : List Pend) (p : Pend) (same : RegW → Prop) : Prop := ∃ a b, l = a ++ p :: b ∧ ∀ q ∈ a ++ b, ¬same q.w
theorem once_inRank {same : RegW → Prop} (h : Once l p same) : Once (inRank l) p same := by
  obtain ⟨a, b, rfl, hab⟩ := h
  obtain ⟨x, y, hxy⟩ := List.append_of_mem (mem_inRank.mpr (show p ∈ a ++ p :: b by simp))
  have hperm : (p :: (x ++ y)).Perm (p :: (a ++ b)) :=
    List.perm_middle.symm.trans ((hxy ▸ inRank_perm _).trans List.perm_middle)
  exact ⟨x, y, hxy, fun q hq => hab q (hperm.cons_inv.mem_iff.mp hq)⟩
theorem takes_once {same : RegW → Prop} {β : Type} {φ : Core → β} (h : Once l p same)
    (ho : ∀ q : Pend, ¬same q.w → ∀ c : Core, φ (c.take q) = φ c) (c : Core) :
    ∃ b : Core, φ b = φ c ∧ φ (c.takes l) = φ (b.take p) := by
  obtain ⟨x, y, rfl, hxy⟩ := h
  refine ⟨c.takes x, foldl_same (fun q hq => ho q (hxy q (by simp [hq]))) c, ?_⟩
  rw [Core.takes, List.foldl_append, List.foldl_cons]
  exact foldl_same (fun q hq => ho q (hxy q (by simp [hq]))) _
theorem takes_cropen {t : Nat} (hp : p.w = .cropen t) (h : Once l p RegW.Region) (c : Core) :
    (c.takes l).crState =
      (c.ctx.crDepth + 1, fset c.ctx.crvec 0 c.ctx.crDepth t, c.ctx.crLoops.take c.ctx.crDepth ++ [c.ctx.loops], c.ctx.loops) := by
  obtain ⟨b, hb, ht⟩ := takes_once h (fun _ => crState_take_other) c
  obtain ⟨hd, hv, hl, hs⟩ : b.ctx.crDepth = c.ctx.crDepth ∧ b.ctx.crvec = c.ctx.crvec ∧ b.ctx.crLoops = c.ctx.crLoops ∧
      b.ctx.loops = c.ctx.loops := by simpa [Core.crState] using hb
  rw [ht, Core.take, hp, ← hd, ← hv, ← hl, ← hs]
  rfl
theorem takes_crclose (hp : p.w = .crclose) (h : Once l p RegW.Region) (c : Core) :
    (c.takes l).crState = (c.ctx.crDepth - 1, c.ctx.crvec, c.ctx.crLoops, c.ctx.loops) := by
  obtain ⟨b, hb, ht⟩ := takes_once h (fun _ => crState_take_other) c
  obtain ⟨hd, hv, hl, hs⟩ : b.ctx.crDepth = c.ctx.crDepth ∧ b.ctx.crvec = c.ctx.crvec ∧ b.ctx.crLoops = c.ctx.crLoops ∧
      b.ctx.loops = c.ctx.loops := by simpa [Core.crState] using hb
  rw [ht, Core.take, hp, ← hd, ← hv, ← hl, ← hs]
  rfl
theorem takes_no_region (h : ∀ p ∈ l, ¬p.w.Region) (c : Core) : (c.takes l).crState = c.crState :=
  foldl_same (φ := Core.crState) (fun q hq => crState_take_other (h q hq)) c
theorem lease_take_other (h : ¬∃ b, p.w = .lease b) (d : Die) : (d.take k p).lease = d.lease := by
  show p.onLease k _ = _
  unfold Pend.onLease
  revert h
  cases p.w with
  | lease b => exact fun h => absurd ⟨b, rfl⟩ h
  | _ => exact fun _ => rfl
theorem takes_lease {take : Bool} (hp : p.w = .lease take) (h : Sole l p (fun w => ∃ b, w = .lease b)) (d : Die) :
    (d.takes k l).lease = if take then { holder := some k, grant := p.issue, count := 0 } else ArrayLease.free :=
  foldl_sole (φ := Die.lease) (g := fun _ => if take then { holder := some k, grant := p.issue, count := 0 } else ArrayLease.free)
    h (fun _ => rfl) (fun d => by rw [Die.take, Pend.onLease, hp]) (fun _ _ ho => lease_take_other ho) d

/-! ## Flags, under the enables as the SRWs of the cycle leave them (R160) -/

/-- A write raises flag `i`. -/
def Pend.flags (i : Nat) (p : Pend) : Bool := match p.w with | .flags f => f.testBit i | _ => false
theorem fpflags_take (h : ∀ r y, p.w ≠ .srw r y) (c : Core) (i : Nat) : (c.take p).ctx.fpflags.testBit i =
    (c.ctx.fpflags.testBit i || (c.ctx.fpctrl.testBit i && p.flags i)) := by
  show (p.w.onFlags _ _).testBit i = _
  unfold Pend.flags
  revert h
  cases p.w with
  | srw r y => exact fun h => absurd rfl (h r y)
  | flags f => exact fun _ => by rw [RegW.onFlags, Nat.testBit_or, Nat.testBit_and, Bool.and_comm]
  | _ => exact fun _ => by simp [RegW.onFlags]
theorem takes_flags (h : ∀ p ∈ l, ∀ r y, p.w ≠ .srw r y) (c : Core) (i : Nat) : (c.takes l).ctx.fpflags.testBit i =
    (c.ctx.fpflags.testBit i || (c.ctx.fpctrl.testBit i && l.any (Pend.flags i))) := by
  induction l generalizing c with
  | nil => simp [Core.takes]
  | cons p r ih =>
    have hp := h p (by simp)
    rw [Core.takes, List.foldl_cons, ← Core.takes, ih (fun q hq => h q (by simp [hq])), fpflags_take hp,
      fpctrl_take_other (fun hx => hp _ _ hx.choose_spec), List.any_cons, Bool.and_or_distrib_left, Bool.or_assoc]
theorem fpflags_take_other (h : ¬∃ y, p.w = .srw 0x10 y) (hf : ∀ f, p.w ≠ .flags f) (c : Core) :
    (c.take p).ctx.fpflags = c.ctx.fpflags := by
  show p.w.onFlags _ _ = _
  revert h hf
  cases p.w with
  | srw r y => exact fun h _ => if_neg fun he => h ⟨y, by rw [he]⟩
  | flags f => exact fun _ hf => absurd rfl (hf f)
  | _ => exact fun _ _ => rfl
/-- The SRWs of a list. -/
def srws (l : List Pend) : List Pend := l.filter (fun p => p.rank = 0)
theorem mem_srws {q : Pend} : q ∈ srws l ↔ q ∈ l ∧ ∃ r y, q.w = .srw r y := by
  unfold srws
  rw [List.mem_filter, decide_eq_true_eq]
  refine and_congr_right fun _ => ?_
  unfold Pend.rank
  cases q.w <;> simp
theorem takes_inRank_fpflags (l : List Pend) (c : Core) (i : Nat) : (c.takes (inRank l)).ctx.fpflags.testBit i =
    ((c.takes (srws (inRank l))).ctx.fpflags.testBit i ||
      ((c.takes (inRank l)).ctx.fpctrl.testBit i && l.any (Pend.flags i))) := by
  generalize hR : (inRank l).filter (fun p => p.rank ≠ 0) = R
  have hsplit : inRank l = srws (inRank l) ++ R := hR ▸ srw_first (sortBy_sorted _ _)
  have hnone : ∀ q ∈ R, ∀ r y, q.w ≠ .srw r y := fun q hq r y hw => by
    rw [← hR, List.mem_filter] at hq
    exact of_decide_eq_true hq.2 (by rw [Pend.rank, hw])
  have hsrws : (srws (inRank l)).any (Pend.flags i) = false := List.any_eq_false.mpr fun q hq => by
    obtain ⟨-, r, y, hw⟩ := mem_srws.mp hq
    simp [Pend.flags, hw]
  have hany : l.any (Pend.flags i) = R.any (Pend.flags i) := by
    rw [← (inRank_perm l).any_eq, hsplit, List.any_append, hsrws, Bool.false_or]
  have htakes : c.takes (inRank l) = (c.takes (srws (inRank l))).takes R := by
    rw [Core.takes, hsplit, List.foldl_append, ← hsplit]
    rfl
  have hctrl : ((c.takes (srws (inRank l))).takes R).ctx.fpctrl = (c.takes (srws (inRank l))).ctx.fpctrl :=
    foldl_same (φ := fun c : Core => c.ctx.fpctrl) (fun q hq => fpctrl_take_other fun hx => hnone q hq _ _ hx.choose_spec) _
  rw [hany, htakes, hctrl]
  exact takes_flags hnone _ i
theorem takes_fpflags_unset (h : ∀ q ∈ l, ∀ y, q.w ≠ .srw 0x10 y) (c : Core) :
    (c.takes (srws l)).ctx.fpflags = c.ctx.fpflags :=
  foldl_same (φ := fun c : Core => c.ctx.fpflags) (fun q hq => by
    obtain ⟨hl, r, y, hw⟩ := mem_srws.mp hq
    exact fpflags_take_other (fun hx => h q hl _ hx.choose_spec) (fun f hf => by rw [hw] at hf; cases hf)) c
theorem takes_fpflags_set {y : Word} (hp : p.w = .srw 0x10 y) (h : Sole l p (fun w => ∃ y, w = .srw 0x10 y)) (c : Core) :
    (c.takes (srws l)).ctx.fpflags = y.toNat % 32 := by
  have hsole : Sole (srws l) p (fun w => ∃ y, w = .srw 0x10 y) :=
    ⟨mem_srws.mpr ⟨h.1, _, _, hp⟩, fun q hq => h.2 q (mem_srws.mp hq).1⟩
  refine foldl_sole (f := Core.take) (φ := fun c : Core => c.ctx.fpflags) (g := fun _ => y.toNat % 32) hsole (fun _ => rfl)
    (fun c => by rw [core_take_srw c hp]; rfl) (fun q hq ho => ?_) c
  obtain ⟨-, r, z, hw⟩ := mem_srws.mp hq
  exact fpflags_take_other ho (fun f hf => by rw [hw] at hf; cases hf)
end

/-! ## O40 -/

/-- What stays of a core, whatever falls due. -/
theorem takes_frame (l : List Pend) (c : Core) :
    c.takes l = { c with
      trappc := (c.takes l).trappc, ifstat := (c.takes l).ifstat
      ctx := { c.ctx with
        sregs := (c.takes l).ctx.sregs, sup := (c.takes l).ctx.sup, vregs := (c.takes l).ctx.vregs
        preds := (c.takes l).ctx.preds, scales := (c.takes l).ctx.scales
        fpflags := (c.takes l).ctx.fpflags, fpctrl := (c.takes l).ctx.fpctrl
        evcsel := (c.takes l).ctx.evcsel, evc := (c.takes l).ctx.evc
        halfA := (c.takes l).ctx.halfA, halfB := (c.takes l).ctx.halfB
        crDepth := (c.takes l).ctx.crDepth, crvec := (c.takes l).ctx.crvec, crLoops := (c.takes l).ctx.crLoops } } := by
  induction l generalizing c with
  | nil => rfl
  | cons p r ih =>
    rw [Core.takes, List.foldl_cons, ← Core.takes, ih]
    rfl
theorem die_takes_frame (k : Nat) (l : List Pend) (d : Die) :
    d.takes k l = { d with tshape := (d.takes k l).tshape, devsel := (d.takes k l).devsel
                           devc := (d.takes k l).devc, lease := (d.takes k l).lease } := by
  induction l generalizing d with
  | nil => rfl
  | cons p r ih =>
    rw [Die.takes, List.foldl_cons, ← Die.takes, ih]
    rfl
section
variable (c : Core) (sup : Bool) (t : Nat)

theorem drained_ctx : (c.drained sup t).ctx = c.ctx := by cases sup <;> rfl
theorem drained_trappc : (c.drained sup t).trappc = c.trappc := by cases sup <;> rfl
theorem sreg_drained (b : Bool) (n : Nat) : sreg (c.drained sup t) b n = sreg c b n := by rw [sreg, drained_ctx]; rfl
theorem preg_drained (n : Nat) : preg (c.drained sup t) n = preg c n := by rw [preg, drained_ctx]; rfl
theorem drained_due : (if sup then (c.drained sup t).hpend else (c.drained sup t).pend) =
    (if sup then c.hpend else c.pend).filter (fun p => ¬p.due ≤ t) := by
  have hkept : (fun p : Pend => !p.dueBy t) = fun p => decide ¬p.due ≤ t := funext fun p => (decide_not ..).symm
  unfold Core.drained
  rw [hkept]
  cases sup <;> rfl
theorem drained_fences : (c.drained sup t).fences = c.fences := by cases sup <;> rfl
theorem drained_crState : (c.drained sup t).crState = c.crState := by cases sup <;> rfl
end

theorem fences_eq {c : Core} {x : IfStat × Bool × Nat × Nat} (h : c.fences = x) :
    c.ifstat = x.1 ∧ c.ctx.halfAct = x.2.1 ∧ c.ctx.halfA = x.2.2.1 ∧ c.ctx.halfB = x.2.2.2 := by
  subst h
  exact ⟨rfl, rfl, rfl, rfl⟩
theorem crState_eq {c : Core} {x : Nat × FMap Nat × List (List LoopEntry) × List LoopEntry} (h : c.crState = x) :
    c.ctx.crDepth = x.1 ∧ c.ctx.crvec = x.2.1 ∧ c.ctx.crLoops = x.2.2.1 ∧ c.ctx.loops = x.2.2.2 := by
  subst h
  exact ⟨rfl, rfl, rfl, rfl⟩
theorem evSel_eq (op : EvOp) (en v : Nat) : evSel op en (en + 1) v = match op with
    | .start => v ||| 2 ^ en
    | .stop => v - v / 2 ^ en % 2 * 2 ^ en
    | .clear => v - v / 2 ^ (en + 1) % 2 * 2 ^ (en + 1)
    | .restart => (v - v / 2 ^ (en + 1) % 2 * 2 ^ (en + 1)) ||| 2 ^ en := by
  have hbit : ∀ i, bit (bitOf i v) = v / 2 ^ i % 2 := fun i => by
    rcases Nat.mod_two_eq_zero_or_one (v / 2 ^ i) with h | h <;> simp [bit, bitOf, h]
  cases op <;> simp only [evSel, hbit]

/-- Settles O40, by the update that the due writes make of the core and of its die, field by field. -/
theorem dueWrites : Obligations.DueWrites := by
  unfold Obligations.DueWrites
  intro s k c clock all due sole once d flagged noEv region selector zeroes
  have hall : all = if s.w.inHandler k then c.hpend else c.pend := rfl
  have ht := exposed_took s.w k (s.w.inHandler k) (s.w.clockOf k)
  have hdue : (s.w.core k).dueOn (s.w.inHandler k) (s.w.clockOf k) = due := rfl
  have hexec : exec (.exposedWrite k) s = done s (only (s.w.exposed k (s.w.inHandler k) (s.w.clockOf k))) := rfl
  rw [hdue] at ht
  generalize s.w.exposed k (s.w.inHandler k) (s.w.clockOf k) = v at ht hexec
  obtain ⟨hcore, hdie, hcoreOther, hdieOther, hrest⟩ := ht
  rw [core_setCore_same] at hcore
  have hsole : ∀ {p same}, sole p same → Sole (inRank due) p same := fun h => sole_inRank h
  have honce : ∀ {p}, once p region → Once (inRank due) p RegW.Region := fun h => once_inRank h
  have hin : ∀ {P : Pend → Prop}, (∀ p ∈ due, P p) → ∀ p ∈ inRank due, P p := fun h p hp => h p (mem_inRank.mp hp)
  have hsel : ∀ op en v, evSel op en (en + 1) v = selector op en v := fun op en v =>
    (evSel_eq op en v).trans (by cases op <;> rfl)
  have hzero : ∀ op (b : Bool) v, (if b then evCount op v else v) = if b ∧ zeroes op then 0 else v := fun op b v => by
    cases op <;> simp [zeroes, evCount]
  refine ⟨{ s with w := v }, hexec, rfl, ?_⟩
  dsimp only
  rw [hcore, show v.die (k / 8) = d.takes k (inRank due) from hdie]
  generalize hsup : s.w.inHandler k = sup at *
  have hframe := takes_frame (inRank due) (c.drained sup clock)
  have hctx := drained_ctx c sup clock
  refine ⟨?_, fun j hj => (hcoreOther j hj).trans (core_setCore_other _ _ _ _ hj), ?_, ?_, ?_, ?_, ?_, ?_, ?_, ?_, rfl, rfl, ?_, ?_, ?_, ?_, ?_, ?_, ?_, ?_, ?_, ?_, ?_, ?_, ?_, ?_, ?_, ?_, ?_, ?_,
    ?_, ?_, ?_, ?_, ?_, ?_, ?_, ?_, ?_, ?_⟩
  · rw [hframe, hall]
    exact drained_due c sup clock
  · exact fun p n y hn hp h => takes_s hn hp (hsole h) _
  · exact fun p n y hn hp h => takes_sup hn hp (hsole h) _
  · intro p n x m hp h i
    rw [takes_v hp (hsole h), merged_getLsbD, hctx]
  · intro p n x m hn hp h i
    rw [takes_p hn hp (hsole h), merged_getLsbD, preg_drained]
  · exact fun p n x hp h => takes_sc hp (hsole h) _
  · intro n h
    rw [← sreg_drained c sup clock]
    exact foldl_same (φ := fun c => sreg c false n) (fun q hq => sreg_take_other fun ⟨y, hy⟩ => hin h q hq y hy) _
  · intro n h
    rw [← hctx]
    exact foldl_same (φ := fun c : Core => fget c.ctx.vregs 0 n)
      (fun q hq => vreg_take_other fun ⟨x, m, hy⟩ => hin h q hq x m hy) _
  · intro n h
    rw [← preg_drained c sup clock]
    exact foldl_same (φ := fun c => preg c n) (fun q hq => preg_take_other fun ⟨x, m, hy⟩ => hin h q hq x m hy) _
  · intro n h
    rw [← hctx]
    exact foldl_same (φ := fun c : Core => fget c.ctx.scales 0 n)
      (fun q hq => scale_take_other fun ⟨y, hy⟩ => hin h q hq y hy) _
  · intro n h
    rw [← sreg_drained c sup clock]
    exact foldl_same (φ := fun c => sreg c true n) (fun q hq => sup_take_other fun ⟨y, hy⟩ => hin h q hq y hy) _
  · intro i h
    have hno : ∀ q ∈ due, ∀ y, q.w ≠ .srw 0x10 y := fun q hq y hy => by
      have hq := List.any_eq_false.mp h q hq
      simp [hy] at hq
    rw [takes_inRank_fpflags, takes_fpflags_unset (hin hno), hctx]
    rfl
  · intro p r y hp h
    refine ⟨fun hr i => ?_, fun hr => ?_, fun hr => ?_, fun hr hr' hk hk' => ?_, fun hr hr' he => ?_, fun hr hr' he => ?_,
      fun hr hr' he => ?_, fun hr hr' he => ?_⟩
    · subst hr
      rw [takes_inRank_fpflags, takes_fpflags_set hp (hsole h)]
      rfl
    · subst hr
      exact takes_fpctrl hp (hsole h) _
    · subst hr
      exact takes_trappc hp (hsole h) _
    all_goals
      obtain ⟨n, rfl⟩ := Nat.exists_eq_add_of_le hr
      rw [Nat.add_sub_cancel_left]
    · exact takes_tshape (by omega) (by simp [isMx, hk, hk']) hp (hsole h) d
    · exact takes_evcsel_srw (by omega) hp (hsole h) (hin he) _
    · exact takes_evc_srw (by omega) hp (hsole h) (hin he) _
    · exact takes_devsel_srw (by omega) hp (hsole h) (hin he) d
    · exact takes_devc_srw (by omega) hp (hsole h) (hin he) d
  · intro r h
    have hno : ∀ q ∈ inRank due, ¬∃ y, q.w = .srw r y := fun q hq ⟨y, hy⟩ => hin h q hq y hy
    refine ⟨fun hr => ?_, fun hr => ?_, fun hr hr' => ?_, fun hr hr' he => ?_, fun hr hr' he => ?_,
      fun hr hr' he => ?_, fun hr hr' he => ?_⟩
    · subst hr
      rw [← hctx]
      exact foldl_same (φ := fun c : Core => c.ctx.fpctrl) (fun q hq => fpctrl_take_other (hno q hq)) _
    · subst hr
      rw [← drained_trappc c sup clock]
      exact foldl_same (φ := Core.trappc) (fun q hq => trappc_take_other (hno q hq)) _
    all_goals
      obtain ⟨n, rfl⟩ := Nat.exists_eq_add_of_le hr
      rw [Nat.add_sub_cancel_left]
    · exact foldl_same (φ := fun d : Die => fget d.tshape 0 n) (fun q hq => tshape_take_other (hno q hq)) d
    · rw [← hctx]
      exact foldl_same (φ := fun c : Core => fget c.ctx.evcsel 0 n) (fun q hq => evcsel_take_other (hno q hq) (hin he q hq)) _
    · rw [← hctx]
      exact foldl_same (φ := fun c : Core => fget c.ctx.evc 0 n) (fun q hq => evc_take_other (hno q hq) (hin he q hq)) _
    · exact foldl_same (φ := fun d : Die => fget d.devsel 0 n) (fun q hq => devsel_take_other (hno q hq) (hin he q hq)) d
    · exact foldl_same (φ := fun d : Die => fget d.devc 0 n) (fun q hq => devc_take_other (hno q hq) (hin he q hq)) d
  · intro p op mask hp h j hj hs
    obtain ⟨hsels, hcounts⟩ := takes_evctl_core hj hp (hsole h) (hin hs) (c.drained sup clock)
    rw [hsels, hcounts, hctx, hsel, hzero]
    exact ⟨rfl, rfl⟩
  · intro p op mask hp h j hj hs
    obtain ⟨hsels, hcounts⟩ := takes_evctl_die (k := k) hj hp (hsole h) (hin hs) d
    rw [hsels, hcounts, hsel, hzero]
    exact ⟨rfl, rfl⟩
  · rintro ⟨p, hp, hw⟩
    have h := takes_ifence ⟨p, mem_inRank.mpr hp, hw⟩ (c.drained sup clock)
    rw [drained_fences] at h
    obtain ⟨hstat, -, ha, hb⟩ := fences_eq h
    exact ⟨hstat, ha, hb⟩
  · intro h
    have h := takes_no_ifence (hin h) (c.drained sup clock)
    rw [drained_fences] at h
    obtain ⟨hstat, -, ha, hb⟩ := fences_eq h
    exact ⟨hstat, ha, hb⟩
  · intro p t hp h
    have h := takes_cropen hp (honce h) (c.drained sup clock)
    rw [hctx] at h
    obtain ⟨hdepth, hvec, hloops, -⟩ := crState_eq h
    exact ⟨hdepth, by rw [hvec, fget_fset_same], hloops⟩
  · intro p hp h
    have h := takes_crclose hp (honce h) (c.drained sup clock)
    rw [hctx] at h
    obtain ⟨hdepth, hvec, hloops, -⟩ := crState_eq h
    exact ⟨hdepth, hvec, hloops⟩
  · intro h
    have h := takes_no_region (hin h) (c.drained sup clock)
    rw [drained_crState] at h
    obtain ⟨hdepth, hvec, hloops, -⟩ := crState_eq h
    exact ⟨hdepth, hvec, hloops⟩
  · exact fun p take hp h => takes_lease hp (hsole h) d
  · exact fun h => foldl_same (φ := Die.lease) (fun q hq => lease_take_other fun ⟨b, hb⟩ => hin h q hq b hb) d
  · rw [hframe]; exact (congrArg CoreCtx.latches hctx :)
  · rw [hframe]; exact (congrArg CoreCtx.loops hctx :)
  · rw [hframe]; exact (congrArg CoreCtx.seq hctx :)
  · rw [hframe]; exact (congrArg CoreCtx.halted hctx :)
  · rw [hframe]; exact (congrArg CoreCtx.halfAct hctx :)
  · rw [hframe]; exact (congrArg CoreCtx.ucore hctx :)
  · rw [hframe]; exact (congrArg CoreCtx.ukind hctx :)
  · rw [hframe]
    cases sup <;> rfl
  · rw [hframe]
    cases sup <;> rfl
  · rw [die_takes_frame]
  · exact hdieOther
  · rw [hrest]; rfl
  · rw [hrest]; rfl
  · rw [hrest]; rfl
end Sys2Proof.Machine
end

/-! SUPPORT. Operands as read and recorded; it settles O5. -/
section
namespace Sys2Proof.Machine
open Sys2Proof

/-! ## Elements of a repeated literal (R138, R161) -/

theorem joinN_lt (k : Nat) (l : List Nat) : joinN k l < 2 ^ (k * l.length) := by
  induction l with
  | nil => simp [joinN]
  | cons e r ih =>
    have he : e % 2 ^ k < 2 ^ k := Nat.mod_lt _ (Nat.two_pow_pos k)
    calc e % 2 ^ k + 2 ^ k * joinN k r
      _ < 2 ^ k * (joinN k r + 1) := by rw [Nat.mul_add, Nat.mul_one, Nat.add_comm]; omega
      _ ≤ 2 ^ k * 2 ^ (k * r.length) := Nat.mul_le_mul_left _ ih
      _ = 2 ^ (k * (e :: r).length) := by rw [← Nat.pow_add, List.length_cons, Nat.mul_succ, Nat.add_comm]
theorem joinN_div (k i : Nat) (l : List Nat) : joinN k l / 2 ^ (k * i) = joinN k (l.drop i) := by
  induction i generalizing l with
  | zero => simp
  | succ i ih =>
    cases l with
    | nil => simp [joinN]
    | cons e r =>
      rw [Nat.mul_succ, Nat.add_comm, Nat.pow_add, ← Nat.div_div_eq_div_mul, joinN,
        Nat.add_mul_div_left _ _ (Nat.two_pow_pos k), Nat.div_eq_of_lt (Nat.mod_lt _ (Nat.two_pow_pos k)), Nat.zero_add, ih,
        List.drop_succ_cons]
/-- Element `i` of a number joined from elements. -/
theorem joinN_elem {k i : Nat} {l : List Nat} (h : i < l.length) : joinN k l / 2 ^ (k * i) % 2 ^ k = l[i] % 2 ^ k := by
  rw [joinN_div, List.drop_eq_getElem_cons h, joinN, Nat.add_mul_mod_self_left, Nat.mod_mod]
theorem toNat_ofNat_of_lt {k v : Nat} (h : v < 2 ^ k) : (BitVec.ofNat k v).toNat = v := by
  rw [BitVec.toNat_ofNat, Nat.mod_eq_of_lt h]
theorem lane_repeated {n i : Nat} (hn : 8 * n * (1024 / n) = 8192) (hi : i < 1024 / n) (v : Nat) :
    lane n i (repeated n v) = v % 2 ^ (8 * n) := by
  have hlt := joinN_lt (8 * n) (List.replicate (1024 / n) v)
  rw [List.length_replicate, hn] at hlt
  rw [lane, repeated, lineOf, toNat_ofNat_of_lt hlt, joinN_elem (by simpa using hi), List.getElem_replicate]

/-! ## Literals (R57, R64, R102) -/

theorem toInt_sext32 (n : Nat) : (sext32 n).toInt = signed 32 n := by
  rw [sext32, BitVec.toInt_signExtend_of_le (by decide)]
  simp only [BitVec.toInt, signed, BitVec.toNat_ofNat]
  split <;> split <;> omega
theorem signed_mod (n : Nat) : signed 32 (n % 2 ^ 32) = signed 32 n := by
  rw [signed, Nat.mod_mod]
  rfl

/-! ## Latches (R63, R134) -/

section
variable (w : World) (k n : Nat) (x : Line)

/-- What recording an operand leaves of its core. -/
theorem core_record : (w.record k { n := n, held := false } x).core w.cur.core =
    { w.cc with ctx := { w.cc.ctx with latches := fset w.cc.ctx.latches 0 (3 * w.cur.pos + k) x } } :=
  core_modCore_same w w.cur.core fun c =>
    { c with ctx := { c.ctx with latches := fset c.ctx.latches 0 (3 * w.cur.pos + k) x } }
end

/-- Settles O5, by the rules of the registers, of the literals and of the latches. -/
theorem operandReads : Obligations.OperandReads := by
  unfold Obligations.OperandReads
  refine ⟨fun s n k => ⟨rfl, rfl, fun hn hs => ?_, fun hn hs => ?_, fun hn => ?_, rfl, rfl, ?_, ?_⟩,
    fun w k n r x z => ⟨rfl, rfl, rfl, rfl, ?_, fun j hj => ?_, ?_, ?_, rfl, rfl, rfl, rfl, fun m hm i hi => ?_⟩⟩
  · simp [World.rdS, sreg, hn, hs]
    rfl
  · simp [World.rdS, sreg, hn, hs]
    rfl
  · simp [World.rdP, preg, hn]
    rfl
  · exact (toInt_sext32 _).trans (signed_mod _)
  · rw [World.srcZ, BitVec.toNat_ofNat, World.lit]
    exact Nat.mod_eq_of_lt ((Nat.mod_lt _ (by decide)).trans (by decide))
  · rw [core_record]
    exact fget_fset_same ..
  · rw [core_record]
    exact fget_fset_other _ _ _ _ _ hj
  · rw [core_record]
    rfl
  · rw [core_record]
    rfl
  · refine lane_repeated ?_ hi _
    rcases hm with rfl | rfl | rfl <;> rfl
end Sys2Proof.Machine
end

/-! SUPPORT. The steps that only take a trap; it settles O37. -/
section
namespace Sys2Proof.Machine
open Sys2Proof

theorem inTurn_perm (l : List EventTrap) : (inTurn l).Perm l :=
  (sortBy_perm ..).trans ((sortBy_perm ..).trans ((sortBy_perm ..).trans (sortBy_perm ..)))
/-- The event that is judged next is one of the gang's, and it is due. -/
theorem nextEvent_mem {g : Gang} {e : EventTrap} (h : g.nextEvent = some e) : e ∈ g.events ∧ e.due ≤ g.ttc := by
  have hmem := (inTurn_perm _).mem_iff.mp (List.mem_of_mem_head? h)
  simpa using List.mem_filter.mp hmem
theorem nextEvent_sole {g : Gang} {e : EventTrap} (h : g.events = [e]) (hdue : e.due ≤ g.ttc) : g.nextEvent = some e := by
  rw [Gang.nextEvent, h, List.filter_cons, if_pos (decide_eq_true hdue)]
  rfl
theorem gangOf_eq {w : World} {k gid : Nat} (h : (w.core k).gang = some gid) : w.gangOf k = gid := by
  rw [World.gangOf, h]
  rfl
theorem leaseTrapInfo_reason (l : ArrayLease) {r : Nat} (h : r < 8) (wait : Nat) : leaseTrapInfo l r wait % 8 = r := by
  unfold leaseTrapInfo
  generalize min wait 255 = a, (match l.holder with | some k => k % 8 | none => 7) = b, l.count % 128 = c
  omega

section
variable {s : State} {k gid info pc : Nat} {e : EventTrap}

theorem trapinst_takes (hg : (s.w.core k).gang = some gid) (hev : (s.w.gang gid).events = [e]) (hc : e.cause = 15)
    (hk : e.core = k) (hdue : e.due ≤ (s.w.gang gid).ttc) (hpc : e.pc = some pc) :
    trapinstAct k s = (s.w.modGang gid (fun x => { x with events := [] })).takeTrap k 15 e.info pc := by
  have hnext : (s.w.gangAt k).nextEvent = some e := by
    rw [World.gangAt, gangOf_eq hg]
    exact nextEvent_sole hev hdue
  have hdrop : s.w.modGang gid (fun g => { g with events := dropEvent e g.events }) =
      s.w.modGang gid (fun x => { x with events := [] }) := by
    have hd : dropEvent e (s.w.gang gid).events = [] := by
      rw [hev]
      exact if_pos rfl
    rw [World.modGang, World.modGang, hd]
  rw [trapinstAct, hnext, gangOf_eq hg]
  simp only [World.takeEvent, hdrop, hc, hk, hpc, beq_self_eq_true, Bool.and_self, if_true]
  rfl
theorem trapinst_idle (h : ¬∃ x ∈ (s.w.gangAt k).events, x.cause = 15 ∧ x.core = k ∧ x.due ≤ (s.w.gangAt k).ttc) :
    trapinstAct k s = s.w := by
  unfold trapinstAct
  split
  · rename_i e he
    obtain ⟨hmem, hdue⟩ := nextEvent_mem he
    refine if_neg fun hthis => h ⟨e, hmem, ?_⟩
    obtain ⟨hc, hk⟩ : e.cause = 15 ∧ e.core = k := by simpa using hthis
    exact ⟨hc, hk, hdue⟩
  · rfl
theorem misdirected_takes (hbad : ((s.w.core s.w.cur.core).seq s.w.cur.sup).bad = some (info, pc))
    (hready : s.ready s.w.cur.core s.w.cur.sup = true) : misdirectedAct s = s.w.takeTrap s.w.cur.core 1 info pc := by
  simp only [misdirectedAct, hbad, hready, if_true]
theorem leaseExpiry_takes (hg : (s.w.core k).gang = some gid) (hh : (s.w.die (k / 8)).lease.holder = some k)
    (ht : (s.w.die (k / 8)).lease.grant + 16384 ≤ (s.w.gang gid).ttc) (hrun : (s.w.gang gid).stat = .running) :
    leaseExpiryAct (k / 8) s = s.w.takeTrap k 12 (leaseTrapInfo (s.w.die (k / 8)).lease 2 0) (s.w.core k).ctx.seq.pc := by
  have hexp : s.w.leaseExpired k (s.w.gang gid).ttc =
      some ⟨12, leaseTrapInfo (s.w.die (k / 8)).lease 2 0, (s.w.core k).ctx.seq.pc⟩ := by
    refine if_pos ?_
    simp only [dieOf, hh, beq_self_eq_true, Bool.true_and]
    exact decide_eq_true ht
  simp only [leaseExpiryAct, hh, World.gangAt, gangOf_eq hg, hexp, hrun, beq_self_eq_true, if_true]
theorem leaseExpiry_idle (hh : (s.w.die (k / 8)).lease.holder = none) : leaseExpiryAct (k / 8) s = s.w := by
  rw [leaseExpiryAct, hh]
theorem scanLimit_takes (hrun : (s.w.gang gid).stat = .running) (ht : (s.w.gang gid).scanBase + 2 ^ 22 < (s.w.gang gid).ttc)
    (hm : (s.w.gang gid).members = [k]) (hready : s.ready k false = true) :
    scanLimitAct gid s = s.w.takeTrap k 1 (loopInfo (s.w.core k).ctx.seq.pc 5) (s.w.core k).ctx.seq.pc := by
  have hfind : (s.w.gang gid).members.find? (fun k => s.ready k false) = some k := by
    simp [hm, hready]
  simp only [scanLimitAct, hrun, hfind, decide_eq_true ht, beq_self_eq_true, Bool.and_self, if_true]
theorem scanLimit_idle (ht : (s.w.gang gid).ttc ≤ (s.w.gang gid).scanBase + 2 ^ 22) : scanLimitAct gid s = s.w := by
  simp only [scanLimitAct, decide_eq_false (not_lt.mpr ht), Bool.and_false, Bool.false_eq_true, if_false]
end

/-- Settles O37, by the case that each step tells apart. -/
theorem trapSteps : Obligations.TrapSteps := by
  unfold Obligations.TrapSteps
  intro s k gid info pc e g c lease here
  have hnext : ∀ w, done s (only w) = .next (s.withWorld w) := fun _ => rfl
  refine ⟨fun hg hev hc hk hdue hpc => ?_, fun hno => ?_, fun hbad hready => ?_, fun hg hh ht hrun => ?_, fun hh => ?_,
    fun hrun ht hm hready => ?_, fun ht => ?_⟩
  · exact (congrArg (fun w => done s (only w)) (trapinst_takes hg hev hc hk hdue hpc)).trans (hnext _)
  · exact congrArg (fun w => done s (only w)) (trapinst_idle hno)
  · exact (congrArg (fun w => done s (only w)) (misdirected_takes hbad hready)).trans (hnext _)
  · exact ⟨_, (congrArg (fun w => done s (only w)) (leaseExpiry_takes hg hh ht hrun)).trans (hnext _),
      leaseTrapInfo_reason _ (by decide) 0⟩
  · exact congrArg (fun w => done s (only w)) (leaseExpiry_idle hh)
  · exact (congrArg (fun w => done s (only w)) (scanLimit_takes hrun ht hm hready)).trans (hnext _)
  · exact congrArg (fun w => done s (only w)) (scanLimit_idle ht)
end Sys2Proof.Machine
end

/-! SUPPORT. The cycles in which a core issues no slot; it settles O39. -/
section
namespace Sys2Proof.Machine
open Sys2Proof

/-! ## Counting changes counts alone (R128, R130) -/

/-- From one world to the next only events of core `k` and of the dies are counted, and errors enter their rates. -/
structure World.CountsOn (k : Nat) (w v : World) : Prop where
  core : v.core k = { w.core k with evq := (v.core k).evq }
  other : ∀ j, j ≠ k → v.core j = w.core j
  gangs : v.gangs = w.gangs
  hub : v.hub = { w.hub with errs := v.hub.errs }
namespace World.CountsOn
variable {k : Nat} {u v w : World}

theorem refl (k : Nat) (w : World) : w.CountsOn k w := ⟨rfl, fun _ _ => rfl, rfl, rfl⟩
theorem trans (h : u.CountsOn k v) (h' : v.CountsOn k w) : u.CountsOn k w :=
  ⟨by rw [h'.core, h.core], fun j hj => (h'.other j hj).trans (h.other j hj), h'.gangs.trans h.gangs, by rw [h'.hub, h.hub]⟩
theorem count (h : w.CountsOn k v) (src n : Nat) : w.CountsOn k (v.count k src n) :=
  h.trans ⟨by rw [World.count, core_modCore_same]; rfl, fun _ hj => core_modCore_other _ _ _ _ hj, rfl, rfl⟩
theorem countDie (h : w.CountsOn k v) (d src ten n : Nat) : w.CountsOn k (v.countDie d src ten n) :=
  h.trans ⟨rfl, fun _ _ => rfl, rfl, rfl⟩
end World.CountsOn
theorem fixed_countsOn (w : World) (k n : Nat) : w.CountsOn k (w.fixed k n) := by
  unfold World.fixed
  split
  · exact .refl k w
  · exact ⟨rfl, fun _ _ => rfl, rfl, rfl⟩
theorem countSlots_countsOn {k : Nat} (l : List (Nat × Instr)) {w v : World} (h : w.CountsOn k v) :
    w.CountsOn k (countSlots v k l) := by
  induction l generalizing v with
  | nil => exact h
  | cons x r ih => exact ih (h.count _ 1)
theorem bundleCounted_countsOn (s : State) (p : Plan) : s.w.CountsOn p.core (s.bundleCounted p) :=
  countSlots_countsOn _ ((((((fixed_countsOn ..).count _ _).count _ _).count _ _).count _ _))

/-! ## A cycle without slots -/

/-- In a cycle of core `k` a weight has entered its window and a level of it stands at `q`; else there has been counting only. -/
structure World.Cycled (k : Nat) (sup : Bool) (dw : Nat) (q : Seq) (w v : World) : Prop where
  win : (v.core k).win = (dw :: (w.core k).win).take 7
  pend : (v.core k).pend = (w.core k).pend
  hseq : (v.core k).hseq = if sup then q else (w.core k).hseq
  ctx : (v.core k).ctx = if sup then (w.core k).ctx else { (w.core k).ctx with seq := q }
  other : ∀ j, j ≠ k → v.core j = w.core j
  gangs : v.gangs = w.gangs
  hub : v.hub = { w.hub with errs := v.hub.errs }

section
variable {k : Nat} {sup : Bool} {dw : Nat} {q : Seq} {u v w : World}

theorem World.Cycled.then (h : u.Cycled k sup dw q v) (h' : v.CountsOn k w) : u.Cycled k sup dw q w :=
  ⟨by rw [h'.core]; exact h.win, by rw [h'.core]; exact h.pend, by rw [h'.core]; exact h.hseq, by rw [h'.core]; exact h.ctx,
    fun j hj => (h'.other j hj).trans (h.other j hj), h'.gangs.trans h.gangs, by rw [h'.hub, h.hub]⟩
theorem cycled_setSeq (h : u.CountsOn k w) {f : Core → Core}
    (hf : f (w.core k) = { w.core k with win := (dw :: (w.core k).win).take 7, dws := (f (w.core k)).dws }) :
    u.Cycled k sup dw q ((w.modCore k f).setSeq k sup q) := by
  have hcore : ((w.modCore k f).setSeq k sup q).core k = (f (w.core k)).setSeq sup q := by
    rw [World.setSeq, core_modCore_same, core_modCore_same]
  refine ⟨?_, ?_, ?_, ?_, fun j hj => ?_, h.gangs, h.hub⟩
  · rw [hcore, hf, h.core]
    cases sup <;> rfl
  · rw [hcore, hf, h.core]
    cases sup <;> rfl
  · rw [hcore, hf, h.core]
    cases sup <;> rfl
  · rw [hcore, hf, h.core]
    cases sup <;> rfl
  · rw [World.setSeq, core_modCore_other _ _ _ _ hj, core_modCore_other _ _ _ _ hj]
    exact h.other j hj
end
theorem emptyBundle_cycled {s : State} (h : s.here.slots = []) :
    s.w.Cycled s.w.cur.core s.w.cur.sup s.here.hdr.dw
      (fallSeq s.mem s.me s.w.cur.core s.w.cur.sup s.w.cur.pc (s.w.cur.pc + Bundle.len s.here)) (emptyBundleAct s) := by
  have hslots : (s.herePlan.b.slots.any fun x => x.1 == 0) = false := by
    rw [show s.herePlan.b.slots = [] from h]
    rfl
  rw [emptyBundleAct, h, List.isEmpty_nil, if_pos rfl, issued_eq hslots]
  exact cycled_setSeq (bundleCounted_countsOn s s.herePlan) rfl

section
variable (s : State)

/-- Where a level stands after a cycle in which it does not issue (R59, R84). -/
def Seq.waited (q : Seq) : Seq :=
  if 0 < q.owedT then { q with owedT := q.owedT - 1 }
  else if 0 < q.owedJ then { q with owedJ := q.owedJ - 1 }
  else { q with beat := q.beat + 1 }
theorem bubble_halted (hsup : s.w.cur.sup = false) (hh : s.me.ctx.halted = true) :
    s.w.Cycled s.w.cur.core s.w.cur.sup 0 s.me.ctx.seq (s.w.bubble s.w.cur.core s.w.cur.sup) := by
  rw [hsup]
  have hw : s.w.bubble s.w.cur.core false = s.w.setCore s.w.cur.core { s.me with win := (0 :: s.me.win).take 7 } :=
    if_pos hh
  have hcore : (s.w.bubble s.w.cur.core false).core s.w.cur.core = { s.me with win := (0 :: s.me.win).take 7 } := by
    rw [hw, core_setCore_same]
  refine ⟨?_, ?_, ?_, ?_, fun j hj => ?_, ?_, ?_⟩
  · rw [hcore]; rfl
  · rw [hcore]; rfl
  · rw [hcore]; rfl
  · rw [hcore]; rfl
  · rw [hw, core_setCore_other _ _ _ _ hj]
  · rw [hw]; rfl
  · rw [hw]; rfl
theorem bubble_moving (h : s.w.cur.sup = true ∨ s.me.ctx.halted = false) :
    s.w.Cycled s.w.cur.core s.w.cur.sup 0 (s.me.seq s.w.cur.sup).waited (s.w.bubble s.w.cur.core s.w.cur.sup) := by
  have hmoves : ¬(!s.w.cur.sup && (s.w.core s.w.cur.core).ctx.halted) = true := fun hstays => by
    obtain ⟨hsup, hh⟩ := Bool.and_eq_true_iff.mp hstays
    rcases h with h | h
    · rw [h] at hsup
      exact Bool.false_ne_true hsup
    · exact Bool.false_ne_true (h.symm.trans hh)
  have hstands : ∀ q, s.w.Cycled s.w.cur.core s.w.cur.sup 0 q
      ((s.w.setCore s.w.cur.core { s.me with win := (0 :: s.me.win).take 7 }).setSeq s.w.cur.core s.w.cur.sup q) := fun q =>
    cycled_setSeq (f := fun c => { c with win := (0 :: c.win).take 7 }) (.refl _ _) rfl
  have hcounts : ∀ (v : World) src, v.CountsOn s.w.cur.core (v.count s.w.cur.core src 1) := fun v src => (World.CountsOn.refl _ v).count src 1
  unfold World.bubble Seq.waited
  rw [if_neg hmoves, show s.w.core s.w.cur.core = s.me from rfl]
  by_cases ht : 0 < (s.me.seq s.w.cur.sup).owedT
  · rw [if_pos ht, if_pos ht]
    exact ((hstands _).then (hcounts _ _)).then ((World.CountsOn.refl _ _).countDie ..)
  rw [if_neg ht, if_neg ht]
  by_cases hj : 0 < (s.me.seq s.w.cur.sup).owedJ
  · rw [if_pos hj, if_pos hj]
    exact ((hstands _).then (hcounts _ _)).then ((World.CountsOn.refl _ _).countDie ..)
  · rw [if_neg hj, if_neg hj]
    exact (hstands _).then (hcounts _ _)
theorem areaFall_takes (h : areaOf s.w.cur.nxt ≠ areaOf s.w.cur.pc ∨ 65536 ≤ s.w.cur.nxt) :
    exec .areaFallThrough s =
      .next (s.goesTo (fallSeq s.mem s.me s.w.cur.core s.w.cur.sup s.w.cur.pc s.w.cur.nxt)) := by
  have hact : areaFallAct s = s.fall s.w := if_pos (by simpa using h)
  exact (done_only_eq hact).trans (congrArg _ (withWorld_fall s s.w rfl))
end
theorem fallSeq_out {m : Mems} {c : Core} {k pc nxt : Nat} (h : 65536 ≤ nxt) : fallSeq m c k false pc nxt =
    { pc := 0, owedT := 0, owedJ := 2, beat := 0, last := pc, bad := some (0, pc) } := by
  rw [fallSeq, if_neg Bool.false_ne_true, if_pos h]
/-- Into another area a core falls as an indirect transfer goes (R67). -/
theorem fallSeq_area {m : Mems} {c : Core} {k pc nxt : Nat} (h : nxt < 65536) (ha : areaOf nxt ≠ areaOf pc) :
    fallSeq m c k false pc nxt = arrivalBy (badTarget c false nxt) m k false pc nxt 0 true := by
  rw [fallSeq, if_neg Bool.false_ne_true, if_neg (not_le.mpr h), if_pos (bne_iff_ne.mpr ha)]
  rfl

/-- Settles O39, by what a cycle without slots changes. -/
theorem cyclesWithoutSlots : Obligations.CyclesWithoutSlots := by
  unfold Obligations.CyclesWithoutSlots
  intro s k sup c pc b q windowed runs moving
  have hruns : ∀ {ins : Instr} {v : World} {dw q}, exec ins s = done s (only v) → s.w.Cycled k sup dw q v → runs ins dw q :=
    fun he h => by
      refine ⟨s.withWorld _, he, rfl, ⟨h.win, h.pend, fun hs => ?_, fun hs => ?_⟩, h.other, h.gangs, h.hub⟩
      · exact ⟨h.hseq.trans (if_pos hs), h.ctx.trans (if_pos hs)⟩
      · exact ⟨h.hseq.trans (if_neg (by simp [hs])), h.ctx.trans (if_neg (by simp [hs]))⟩
  have hwaits : moving → runs .zeroWeightCycle 0 q.waited := fun hm => hruns rfl (bubble_moving s hm)
  refine ⟨fun h => hruns rfl (emptyBundle_cycled h), fun hm ht => ?_, fun hm ht hj => ?_, fun hm ht hj => ?_, fun hm => ?_,
    fun hsup hn ha => ?_, fun hsup hn => ?_⟩
  · have hq : q.waited = { q with owedT := q.owedT - 1 } := if_pos ht
    exact hq ▸ hwaits hm
  · have hq : q.waited = { q with owedJ := q.owedJ - 1 } := by
      rw [Seq.waited, if_neg (by omega), if_pos hj]
    exact hq ▸ hwaits hm
  · have hq : q.waited = { q with beat := q.beat + 1 } := by
      rw [Seq.waited, if_neg (by omega), if_neg (by omega)]
    exact hq ▸ hwaits hm
  · obtain ⟨hsup, hh⟩ : sup = false ∧ c.ctx.halted = true := by simpa [moving] using hm
    have hq : q = c.ctx.seq := if_neg (by simp [hsup])
    exact hruns rfl (hq ▸ bubble_halted s hsup hh)
  · rw [areaFall_takes s (.inl ha), show s.w.cur.sup = false from hsup, fallSeq_area hn ha, show c = s.me from rfl]
    unfold arrivalBy
    cases badTarget s.me false s.w.cur.nxt <;> rfl
  · rw [areaFall_takes s (.inr hn), show s.w.cur.sup = false from hsup, fallSeq_out hn]
end Sys2Proof.Machine
end

/-! SUPPORT. What taking a trap does to the cores, the gang and its task; it settles O36. -/
section
namespace Sys2Proof.Machine
open Sys2Proof

/-! ## The cores over a restart gap (R78, R79) -/

/-- What a restart gap does to its members, one after another. -/
theorem gapFold_member {j : Nat} (l : List Nat) (w : World) :
    let v := l.foldl (fun a k => (a.countNow k 0x0B 1).modCore k (fun c => { c with win := [] })) w
    ((w.core j).win = [] ∨ j ∈ l → (v.core j).win = []) ∧ (j ∉ l → v.core j = w.core j) := by
  induction l generalizing w with
  | nil => exact ⟨fun h => h.resolve_right (by simp), fun _ => rfl⟩
  | cons k r ih =>
    obtain ⟨hin, hout⟩ := ih ((w.countNow k 0x0B 1).modCore k (fun c => { c with win := [] }))
    rcases eq_or_ne j k with rfl | hjk
    · refine ⟨fun _ => hin (.inl ?_), fun hj => absurd List.mem_cons_self hj⟩
      rw [core_modCore_same]
    · have hstep : ((w.countNow k 0x0B 1).modCore k (fun c => { c with win := [] })).core j = w.core j := by
        rw [core_modCore_other _ _ _ _ hjk, World.countNow, World.modCtx, core_modCore_other _ _ _ _ hjk]
      rw [hstep] at hin hout
      exact ⟨fun h => hin (h.imp_right fun hj => (List.mem_cons.mp hj).resolve_left hjk),
        fun hj => hout fun hr => hj (List.mem_cons_of_mem k hr)⟩
/-- Issue restarts from an empty energy window on every member (R79). -/
theorem restartGap_win {w : World} {gid j : Nat} (h : (w.core j).win = [] ∨ j ∈ (w.gang gid).members) :
    ((w.restartGap gid).core j).win = [] :=
  (gapFold_member (w.gang gid).members ((w.reclock gid).modGang gid (fun g => g.gap w.now))).1 h
theorem restartGap_core_other {w : World} {gid j : Nat} (h : j ∉ (w.gang gid).members) :
    (w.restartGap gid).core j = w.core j :=
  (gapFold_member (w.gang gid).members ((w.reclock gid).modGang gid (fun g => g.gap w.now))).2 h

/-! ## What a trap leaves behind before it is taken (R79, R300) -/

/-- The world in which a trap is taken: MLEASE of reasons 1 and 2 has freed the array lease, ENERGY is in the log. -/
def World.trapNoted (w : World) (core cause info : Nat) : World :=
  let wf := if cause == 12 && (info % 8 == 1 || info % 8 == 2) then
      w.modDie (dieOf core) (fun d => { d with lease := ArrayLease.free }) else w
  if cause == 18 then wf.logEvent 5 (dieOf core) (w.gang (w.gangOf core)).tenant (info % 2 ^ 64 + core * 2 ^ 64) else wf
/-- The cores, the gangs, the operations in flight and the tasks stand as they did. -/
structure TrapNoted (w v : World) : Prop where
  cores : v.cores = w.cores
  gangs : v.gangs = w.gangs
  flights : v.flights = w.flights
  now : v.now = w.now
  tasks : v.hub.tasks = w.hub.tasks
theorem TrapNoted.core {w v : World} (h : TrapNoted w v) (j : Nat) : v.core j = w.core j := by rw [World.core, h.cores]; rfl
theorem TrapNoted.gang {w v : World} (h : TrapNoted w v) (j : Nat) : v.gang j = w.gang j := by rw [World.gang, h.gangs]; rfl
theorem TrapNoted.logged {w v : World} (h : TrapNoted w v) (cls die ten data : Nat) : TrapNoted w (v.logEvent cls die ten data) := by
  rw [logEvent_frame]
  exact ⟨h.cores, h.gangs, h.flights, h.now, h.tasks⟩
theorem trapNoted_frame (w : World) (core cause info : Nat) : TrapNoted w (w.trapNoted core cause info) := by
  have hfreed : TrapNoted w (if cause == 12 && (info % 8 == 1 || info % 8 == 2) then
      w.modDie (dieOf core) (fun d => { d with lease := ArrayLease.free }) else w) := by
    split <;> exact ⟨rfl, rfl, rfl, rfl, rfl⟩
  unfold World.trapNoted
  dsimp only
  split
  · exact hfreed.logged ..
  · exact hfreed
theorem trapNoted_dies {w : World} {cause : Nat} (h : cause ≠ 12) (core info : Nat) : (w.trapNoted core cause info).dies = w.dies := by
  have hfreed : (if cause == 12 && (info % 8 == 1 || info % 8 == 2) then
      w.modDie (dieOf core) (fun d => { d with lease := ArrayLease.free }) else w) = w := if_neg (by simp [h])
  unfold World.trapNoted
  rw [hfreed]
  dsimp only
  split
  · exact logEvent_dies ..
  · rfl
theorem trapNoted_lease {w : World} {core info : Nat} (h : info % 8 = 1 ∨ info % 8 = 2) :
    ((w.trapNoted core 12 info).die (core / 8)).lease = ArrayLease.free := by
  have hfreed : w.trapNoted core 12 info = w.modDie (dieOf core) (fun d => { d with lease := ArrayLease.free }) :=
    if_pos (by simpa using h)
  rw [hfreed, dieOf, die_modDie_same]

/-! ## Taking it (R331 to R335) -/

section
variable {w : World} {k cause info pc : Nat}

theorem takeTrap_ended (h : (w.gang (w.gangOf k)).stat = .ended) : w.takeTrap k cause info pc = w := by
  simp only [World.takeTrap, h]
theorem takeTrap_inside {j : Nat} (h : (w.gang (w.gangOf k)).stat = .handler j) : w.takeTrap k cause info pc =
    ((w.trapNoted k cause info).count k 0x34 1).endTask (w.gangOf k) 2 cause info pc k := by
  simp only [World.takeTrap, h]
  rfl
theorem takeTrap_outside (h : (w.gang (w.gangOf k)).stat ≠ .ended) (hn : ¬∃ j, (w.gang (w.gangOf k)).stat = .handler j) :
    w.takeTrap k cause info pc =
      let v := (w.trapNoted k cause info).modCore k (fun c => c.enterHandler k cause info pc)
      if (w.gang (w.gangOf k)).live && !(w.gang (w.gangOf k)).hasHandler then
        v.endTask (w.gangOf k) 2 cause info pc k
      else (v.modGang (w.gangOf k) (fun g => { g with stat := .handler k, hcyc := 0, hevents := [] })).restartGap
        (w.gangOf k) := by
  unfold World.takeTrap
  dsimp only
  split
  · next hs => exact absurd hs h
  · next j hs => exact absurd ⟨j, hs⟩ hn
  · rfl
/-- The dies are those of before, or of the world in which the trap is taken. -/
theorem takeTrap_dies (h : (w.gang (w.gangOf k)).stat ≠ .ended) :
    (w.takeTrap k cause info pc).dies = (w.trapNoted k cause info).dies := by
  by_cases hin : ∃ j, (w.gang (w.gangOf k)).stat = .handler j
  · obtain ⟨j, hj⟩ := hin
    rw [takeTrap_inside hj]
    rfl
  · rw [takeTrap_outside h hin]
    dsimp only
    split
    · rfl
    · rw [restartGap_dies]
      rfl

/-- A task that ends on a trap: its gang has stopped, the trap is in its record, and of the cores the trapping one alone has changed. -/
structure TrapEnds (w : World) (k cause info pc : Nat) (v : World) : Prop where
  stat : (v.gang (w.gangOf k)).stat = .ended
  other : ∀ j, j ≠ k → v.core j = w.core j
  tasks : v.hub.tasks = w.hub.tasks.map (fun x => if isTaskOf (w.gang (w.gangOf k)) x then
    { x with stage := .ending, kind := 2, code := cause, info := info, ipc := pc, icore := k,
             ttcEnd := (w.gang (w.gangOf k)).ttc } else x)
theorem trapEnds_endTask (f : Core → Core) : TrapEnds w k cause info pc
    (((w.trapNoted k cause info).modCore k f).endTask (w.gangOf k) 2 cause info pc k) := by
  have hn := trapNoted_frame w k cause info
  refine ⟨endTask_stat .., fun j hj => ?_, ?_⟩
  · exact (core_modCore_other _ _ _ _ hj).trans (hn.core j)
  · rw [← hn.tasks, ← hn.gang]
    rfl
/-- Without a handler, or inside one, the task ends (R334). -/
theorem takeTrap_ends (h : ((w.gang (w.gangOf k)).stat ≠ .ended ∧ (w.gang (w.gangOf k)).live = true ∧
      (w.gang (w.gangOf k)).hasHandler = false) ∨ ∃ j, (w.gang (w.gangOf k)).stat = .handler j) :
    TrapEnds w k cause info pc (w.takeTrap k cause info pc) := by
  by_cases hin : ∃ j, (w.gang (w.gangOf k)).stat = .handler j
  · obtain ⟨j, hj⟩ := hin
    rw [takeTrap_inside hj]
    exact trapEnds_endTask _
  · obtain ⟨hs, hl, hh⟩ := h.resolve_right hin
    rw [takeTrap_outside hs hin]
    dsimp only
    rw [if_pos (by simp [hl, hh])]
    exact trapEnds_endTask _

/-- A trap that enters its handler: the core's level stands at the handler's start, and the gang has had a restart gap. -/
structure TrapEnters (w : World) (k cause info pc : Nat) (v : World) : Prop where
  gang : v.gang (w.gangOf k) = { w.gang (w.gangOf k) with
    stat := .handler k, hcyc := 0, hevents := [], khz := (v.gang (w.gangOf k)).khz, why := (v.gang (w.gangOf k)).why,
    stretch := (v.gang (w.gangOf k)).stretch,
    nextAt := max (w.gang (w.gangOf k)).nextAt w.now + 8 * (v.gang (w.gangOf k)).period }
  core : Gapped ((w.core k).enterHandler k cause info pc) (v.core k)
  other : ∀ j, j ≠ k → Gapped (w.core j) (v.core j)
  win : ∀ j, j = k ∨ j ∈ (w.gang (w.gangOf k)).members → (v.core j).win = []
  stands : ∀ j, j ≠ k → j ∉ (w.gang (w.gangOf k)).members → v.core j = w.core j
  flights : v.flights = w.flights
  tasks : v.hub.tasks = w.hub.tasks
/-- The trapping core is at its handler's start, and the gap of its gang is still to come. -/
def World.trapEntered (w : World) (k cause info pc : Nat) : World :=
  ((w.trapNoted k cause info).modCore k (fun c => c.enterHandler k cause info pc)).modGang (w.gangOf k)
    (fun g => { g with stat := .handler k, hcyc := 0, hevents := [] })
theorem trapEntered_gang : (w.trapEntered k cause info pc).gang (w.gangOf k) =
    { w.gang (w.gangOf k) with stat := .handler k, hcyc := 0, hevents := [] } := by
  rw [World.trapEntered, gang_modGang_same, modCore_gang, (trapNoted_frame w k cause info).gang]
theorem trapEntered_core : (w.trapEntered k cause info pc).core k = (w.core k).enterHandler k cause info pc := by
  rw [World.trapEntered, modGang_core, core_modCore_same, (trapNoted_frame w k cause info).core]
theorem trapEntered_core_other {j : Nat} (h : j ≠ k) : (w.trapEntered k cause info pc).core j = w.core j := by
  rw [World.trapEntered, modGang_core, core_modCore_other _ _ _ _ h, (trapNoted_frame w k cause info).core]
theorem takeTrap_handled (h : (w.gang (w.gangOf k)).stat ≠ .ended) (hh : (w.gang (w.gangOf k)).hasHandler = true)
    (hin : ¬∃ j, (w.gang (w.gangOf k)).stat = .handler j) : TrapEnters w k cause info pc (w.takeTrap k cause info pc) := by
  have htake : w.takeTrap k cause info pc = (w.trapEntered k cause info pc).restartGap (w.gangOf k) := by
    rw [takeTrap_outside h hin]
    exact if_neg (by simp [hh])
  have hn := trapNoted_frame w k cause info
  have hgang := trapEntered_gang (w := w) (k := k) (cause := cause) (info := info) (pc := pc)
  have hmem : ((w.trapEntered k cause info pc).gang (w.gangOf k)).members = (w.gang (w.gangOf k)).members := by rw [hgang]
  rw [htake]
  refine ⟨?_, ?_, fun j hj => ?_, fun j hj => restartGap_win ?_, fun j hj hout => ?_, ?_, ?_⟩
  · have hgap := restartGap_gang (w.trapEntered k cause info pc) (w.gangOf k)
    rw [hgang, show (w.trapEntered k cause info pc).now = w.now from hn.now] at hgap
    exact hgap
  · rw [← trapEntered_core]
    exact restartGap_core ..
  · rw [← trapEntered_core_other hj]
    exact restartGap_core ..
  · rw [hmem]
    refine hj.imp_left ?_
    rintro rfl
    rw [trapEntered_core]
    rfl
  · rw [restartGap_core_other (by rwa [hmem]), trapEntered_core_other hj]
  · exact (restartGap_flights ..).trans hn.flights
  · rw [restartGap_hub]
    exact hn.tasks
end
theorem causeEnds_iff (cause info : Nat) : causeEnds cause info = true ↔
    cause = 10 ∨ cause = 16 ∨ cause = 18 ∨ cause = 19 ∨ (cause = 1 ∧ info / 2 ^ 17 % 2 = 1 ∧ info / 2 ^ 18 % 8 = 5) := by
  simp [causeEnds, bitOf, field, or_assoc, and_assoc]
theorem causeIsEvent_iff (cause : Nat) : causeIsEvent cause = true ↔ cause ∈ [3, 13, 14, 16, 19] := by
  simp [causeIsEvent, or_assoc]

/-- Settles O36: a trap enters the handler, ends the task, or finds a gang that has ended. -/
theorem trapEntry : Obligations.TrapEntry := by
  intro s k cause info pc
  dsimp only
  refine ⟨fun hs hl hh hin => ?_, fun h => ?_, ?_, takeTrap_ended, fun hc d => ?_⟩
  · have ht := takeTrap_handled (cause := cause) (info := info) (pc := pc) hs hh hin
    generalize s.w.takeTrap k cause info pc = t at ht ⊢
    have hcore := ht.core.eq
    refine ⟨by rw [ht.gang], by rw [ht.gang], by rw [ht.gang], congrArg Gang.nextAt ht.gang, by rw [hcore]; rfl, by rw [hcore]; rfl,
      by rw [hcore]; rfl, by rw [hcore]; rfl, ?_, ?_, by rw [hcore]; rfl, by rw [hcore]; rfl, by rw [hcore]; rfl, ht.core.ctx,
      ht.win k (.inl rfl), fun j hj => ht.win j (.inr hj), fun j hj => ((ht.other j hj).frame).symm, ht.stands, ht.flights, ht.tasks⟩
    · rw [hcore, ← causeEnds_iff]
      rfl
    · rw [hcore, ← causeIsEvent_iff]
      rfl
  · have ht := takeTrap_ends (cause := cause) (info := info) (pc := pc) h
    exact ⟨ht.stat, ht.other, ht.tasks⟩
  · rintro hs rfl hr
    rw [World.die, takeTrap_dies hs]
    exact trapNoted_lease hr
  · by_cases hs : (s.w.gang (s.w.gangOf k)).stat = .ended
    · rw [takeTrap_ended hs]
    · rw [World.die, takeTrap_dies hs, trapNoted_dies hc]
      rfl
end Sys2Proof.Machine
end

/-! SUPPORT. The system registers and who may name them; it settles O34. -/
section
namespace Sys2Proof.Machine
open Sys2Proof

/-! ## The values of the registers (R121 to R124) -/

theorem sumBits_testBit (l : List Nat) (i : Nat) : (sumBits l).testBit i = true ↔ i ∈ l := by
  induction l with
  | nil => simp [sumBits]
  | cons j r ih =>
    show (2 ^ j ||| sumBits r).testBit i = true ↔ _
    rw [Nat.testBit_or, Nat.testBit_two_pow, Bool.or_eq_true, decide_eq_true_eq, ih, List.mem_cons, eq_comm (a := j)]
theorem sumBits_lt {l : List Nat} {n : Nat} (h : ∀ i ∈ l, i < n) : sumBits l < 2 ^ n := by
  induction l with
  | nil => exact Nat.two_pow_pos n
  | cons j r ih =>
    obtain ⟨hj, hr⟩ := List.forall_mem_cons.mp h
    exact Nat.or_lt_two_pow (Nat.pow_lt_pow_right (by decide) hj) (ih hr)
/-- Some bits below bit `n` with one more at it: each bit reads back, and what stands from `n` up. -/
theorem sumBits_above {l : List Nat} {n : Nat} (h : ∀ i ∈ l, i < n) (b : Nat) :
    (∀ i < n, (sumBits l + b * 2 ^ n).testBit i = true ↔ i ∈ l) ∧ (sumBits l + b * 2 ^ n) / 2 ^ n = b := by
  have hlt := sumBits_lt h
  refine ⟨fun i hi => ?_, ?_⟩
  · rw [Nat.add_comm, Nat.mul_comm, Nat.testBit_two_pow_mul_add _ hlt, if_pos hi, sumBits_testBit]
  · rw [Nat.add_mul_div_right _ _ (Nat.two_pow_pos n), Nat.div_eq_of_lt hlt, Nat.zero_add]
/-- `GRPSET` of at most four groups: each in its slot, and a bit for each slot in use (R124). -/
theorem grpSet_slots {l : List Nat} (hl : l.length ≤ 4) (h : ∀ x ∈ l, x < 256) : grpSet l =
    l.getD 0 0 + l.getD 1 0 * 2 ^ 8 + l.getD 2 0 * 2 ^ 16 + l.getD 3 0 * 2 ^ 24 + (2 ^ l.length - 1) * 2 ^ 32 := by
  have hjoin : joinN 8 l = l.getD 0 0 + l.getD 1 0 * 2 ^ 8 + l.getD 2 0 * 2 ^ 16 + l.getD 3 0 * 2 ^ 24 := by
    match l, hl, h with
    | [], _, _ => rfl
    | [a], _, h => simp_all [joinN]
    | [a, b], _, h => simp_all [joinN]; omega
    | [a, b, c], _, h => simp_all [joinN]; omega
    | [a, b, c, d], _, h => simp_all [joinN]; omega
  rw [grpSet, List.take_of_length_le hl, Nat.min_eq_left hl, hjoin, Nat.mul_comm (2 ^ 32)]
/-- The registers that stand in files: containment vectors, shapes, and the counters of the core and of its die. -/
theorem sysReg_file (w : World) (k : Nat) (sup : Bool) {r : Nat} (h : 0x51 ≤ r) : w.sysReg k sup r =
    if r ≤ 0x54 then fget (w.core k).ctx.crvec 0 (r - 0x51)
    else if r ≤ 0x73 then if isMx k then fget (w.die (dieOf k)).tshape 0 (r - 0x60) else 0
    else if r ≤ 0x87 then fget (w.core k).ctx.evcsel 0 (r - 0x80)
    else if r ≤ 0x8F then fget (w.core k).ctx.evc 0 (r - 0x88)
    else if r ≤ 0xAF then fget (w.die (dieOf k)).devsel 0 (r - 0xA0)
    else fget (w.die (dieOf k)).devc 0 (r - 0xB0) := by
  have hne (n : Nat) (hn : n < 0x51) : (r == n) = false := beq_false_of_ne (by omega)
  simp [World.sysReg, hne]
theorem classW8_eq (c : Nat) : classW8 c = if c = 0 then 36864 else if c = 1 then 27648 else if c = 2 then 18432 else 12288 := by
  simp only [classW8, beq_iff_eq]
/-- `ALLOWCLS`: the class of the image, that of the domain, and the ratio of their allowances in 4096ths, at most 1 (R80, R124). -/
theorem allowCls_eq (g : Gang) (sup : Bool) : let code := if sup then g.hcls else g.cls
    let ratio := classW8 g.domCls * 4096 / classW8 code
    allowCls g sup = code + g.domCls * 2 ^ 4 + (if 4096 ≤ ratio then 4096 else ratio) * 2 ^ 16 := by
  dsimp only
  rw [allowCls, Gang.clsAt, Nat.min_def, Nat.mul_comm 4096]
/-- `PDEGR`: the degraded courses, and above them half-rate issue (R124, R181). -/
theorem pdegr_bits (c : Core) (half : Bool) :
    let v := sumBits ((List.range 32).filter (fun x => (c.health x).degraded)) + bit half * 2 ^ 32
    (∀ x < 32, v.testBit x = true ↔ (c.health x).bricks ≠ []) ∧ v / 2 ^ 32 = bit half := by
  obtain ⟨hbit, hdiv⟩ := sumBits_above (l := (List.range 32).filter (fun x => (c.health x).degraded)) (n := 32)
    (fun i hi => List.mem_range.mp (List.mem_filter.mp hi).1) (bit half)
  refine ⟨fun x hx => (hbit x hx).trans ?_, hdiv⟩
  simp [hx, Course.degraded]

theorem isMx_iff (k : Nat) : isMx k = true ↔ k < 32 ∧ k % 8 < 4 := by simp [isMx]

section
variable {w : World} {k r : Nat} {sup : Bool}

theorem sysReg_crvec (h1 : 0x51 ≤ r) (h2 : r ≤ 0x54) : w.sysReg k sup r = fget (w.core k).ctx.crvec 0 (r - 0x51) := by
  rw [sysReg_file w k sup h1, if_pos h2]
/-- The shape registers are the MX dies' (R297). -/
theorem sysReg_tshape (h1 : 0x60 ≤ r) (h2 : r ≤ 0x73) :
    w.sysReg k sup r = if isMx k then fget (w.die (dieOf k)).tshape 0 (r - 0x60) else 0 := by
  rw [sysReg_file w k sup (by omega), if_neg (by omega), if_pos h2]
theorem sysReg_evcsel (h1 : 0x80 ≤ r) (h2 : r ≤ 0x87) : w.sysReg k sup r = fget (w.core k).ctx.evcsel 0 (r - 0x80) := by
  rw [sysReg_file w k sup (by omega), if_neg (by omega), if_neg (by omega), if_pos h2]
theorem sysReg_evc (h1 : 0x88 ≤ r) (h2 : r ≤ 0x8F) : w.sysReg k sup r = fget (w.core k).ctx.evc 0 (r - 0x88) := by
  rw [sysReg_file w k sup (by omega), if_neg (by omega), if_neg (by omega), if_neg (by omega), if_pos h2]
theorem sysReg_devsel (h1 : 0xA0 ≤ r) (h2 : r ≤ 0xAF) : w.sysReg k sup r = fget (w.die (dieOf k)).devsel 0 (r - 0xA0) := by
  rw [sysReg_file w k sup (by omega), if_neg (by omega), if_neg (by omega), if_neg (by omega), if_neg (by omega), if_pos h2]
theorem sysReg_devc (h : 0xB0 ≤ r) : w.sysReg k sup r = fget (w.die (dieOf k)).devc 0 (r - 0xB0) := by
  rw [sysReg_file w k sup (by omega), if_neg (by omega), if_neg (by omega), if_neg (by omega), if_neg (by omega), if_neg (by omega)]
theorem sysReg_grpset : w.sysReg k sup 3 = grpSet (w.core k).groups := rfl
theorem sysReg_allowcls : w.sysReg k sup 4 = allowCls (w.gangAt k) sup := rfl
end

/-! ## Who may name a register (R120) -/

theorem taskReads_iff (k : Nat) : taskReads k = true ↔ ¬(0x40 ≤ k ∧ k ≤ 0x44) ∧ ¬(0xA0 ≤ k ∧ k ≤ 0xAF) := by
  simp only [taskReads, Bool.and_eq_true, Bool.not_eq_true', Bool.and_eq_false_iff, decide_eq_false_iff_not, not_and_or]
theorem taskWrites_iff (k : Nat) : taskWrites k = true ↔ k ≠ 0x41 ∧ k < 0xA0 := by simp [taskWrites]
theorem foreignCounter_iff (w : World) (core k : Nat) : w.foreignCounter core k = true ↔ 0xB0 ≤ k ∧
    fget (w.die (core / 8)).devsel 0 (k - 0xB0) / 2 ^ 16 % 2 ^ 16 ≠ (w.gangAt core).tenant := by
  simp [World.foreignCounter, World.tenOf, dieOf, field]

section
variable {s : State} {d k : Nat} {b : Src}

theorem srr_reads (h : s.w.cur.sup = true ∨ (taskReads k = true ∧ s.w.foreignCounter s.w.cur.core k = false)) :
    exec (.srr d k) s =
      .next (s.due [(2, s.scalar d (BitVec.ofNat 64 (s.w.sysReg s.w.cur.core s.w.cur.sup k)))]) := by
  have hact : srrAct d k s = s.w.wrS 2 d (BitVec.ofNat 64 (s.w.sysReg s.w.cur.core s.w.cur.sup k)) := by
    have hread : ¬(!s.w.cur.sup && !taskReads k) = true := by rcases h with h | ⟨hr, -⟩ <;> simp [*]
    have hown : ¬(!s.w.cur.sup && s.w.foreignCounter s.w.cur.core k) = true := by rcases h with h | ⟨-, hf⟩ <;> simp [*]
    rw [srrAct, if_neg hread, if_neg hown]
  exact done_only_eq hact
theorem srr_foreign (ht : s.w.cur.sup = false) (hr : taskReads k = true) (hf : s.w.foreignCounter s.w.cur.core k = true) :
    exec (.srr d k) s = .next (s.due [(2, s.scalar d 0)]) := by
  have hact : srrAct d k s = s.w.wrS 2 d 0 := by
    rw [srrAct, if_neg (by simp [hr]), if_pos (by simp [ht, hf])]
  exact done_only_eq hact
theorem srr_priv (ht : s.w.cur.sup = false) (hr : taskReads k = false) :
    exec (.srr d k) s = .next (s.withWorld (s.w.trap 2 k)) :=
  done_only_eq (if_pos (by simp [ht, hr]))
theorem srw_writes (h : s.w.cur.sup = true ∨ taskWrites k = true) :
    exec (.srw k b) s = .next (s.due [(2, .srw k (s.w.src b))]) :=
  done_only_eq (if_neg (by rcases h with h | h <;> simp [h]))
theorem srw_priv (ht : s.w.cur.sup = false) (hw : taskWrites k = false) :
    exec (.srw k b) s = .next (s.withWorld (s.w.trap 2 (k + 2 ^ 12))) :=
  done_only_eq (if_pos (by simp [ht, hw]))
end

/-- Settles O34: who may name a register, and what each register reads. -/
theorem systemRegisters : Obligations.SystemRegisters := by
  intro s d k b
  dsimp only
  have hreads := taskReads_iff k
  have hwrites := taskWrites_iff k
  have hforeign := foreignCounter_iff s.w s.w.cur.core k
  refine ⟨fun h => srr_reads (h.imp_right ?_), fun ht hr hf => srr_foreign ht (hreads.mpr hr) (hforeign.mpr hf),
    fun ht hr => srr_priv ht (Bool.eq_false_iff.mpr (mt hreads.mp hr)), fun h => srw_writes (h.imp_right hwrites.mpr),
    fun ht hw => srw_priv ht (Bool.eq_false_iff.mpr (mt hwrites.mp (by omega))), by rintro rfl; rfl, by rintro rfl; rfl,
    by rintro rfl; rfl, ?grpset, ?allow, by rintro rfl; rfl, by rintro rfl; rfl, by rintro rfl; rfl, by rintro rfl; rfl,
    by rintro rfl; rfl, by rintro rfl; rfl, ?pdegr, by rintro rfl; rfl, by rintro rfl; rfl, by rintro rfl; rfl,
    fun h1 h2 => sysReg_crvec h1 h2, ?noShape, fun h1 h2 => sysReg_devsel h1 h2, fun h1 _ => sysReg_devc h1, by rintro rfl; rfl,
    by rintro rfl; rfl, by rintro rfl; rfl, by rintro rfl; rfl, by rintro rfl; rfl, ?shape, fun h1 h2 => sysReg_evcsel h1 h2,
    fun h1 h2 => sysReg_evc h1 h2⟩
  · exact fun ⟨hr, hf⟩ => ⟨hreads.mpr hr, Bool.eq_false_iff.mpr (mt hforeign.mp hf)⟩
  case grpset =>
    rintro rfl hl h
    exact sysReg_grpset.trans (grpSet_slots hl h)
  case allow =>
    rintro rfl
    rw [sysReg_allowcls, allowCls_eq, classW8_eq, classW8_eq]
  case pdegr =>
    rintro rfl
    exact pdegr_bits s.me (s.w.gangAt s.w.cur.core).half
  case noShape =>
    intro h1 h2 hmx
    rw [sysReg_tshape h1 h2, if_neg (mt (isMx_iff _).mp hmx)]
  case shape =>
    intro h1 h2 h3 h4
    rw [sysReg_tshape h1 h2, if_pos ((isMx_iff _).mpr ⟨h3, h4⟩)]
    rfl
end Sys2Proof.Machine
end

/-! SUPPORT. Class changes, regulators, trips, retreats and the configuration of clusters; it settles O49. -/
section
namespace Sys2Proof.Machine
open Sys2Proof

/-- No byte and no core changes. -/
def CoresKept (s u : State) : Prop := u.mem = s.mem ∧ ∀ j, u.w.core j = s.w.core j
theorem coresKept_of {s : State} {v : World} (h : v.cores = s.w.cores) : CoresKept s { s with w := v } :=
  ⟨rfl, fun j => by simp only [World.core, h]⟩

/-! ## Entries of the event log (R372) -/

/-- An entry stands in a log that it has been inserted in, perhaps under another number. -/
theorem mem_logInsert (e : LogEntry) (l : List LogEntry) : ∃ n, { e with seq := n } ∈ logInsert e l := by
  induction l generalizing e with
  | nil => exact ⟨e.seq, List.mem_cons_self⟩
  | cons x r ih =>
    unfold logInsert
    split
    · obtain ⟨n, hn⟩ := ih { e with seq := x.seq }
      exact ⟨n, List.mem_cons_of_mem _ hn⟩
    · exact ⟨e.seq, List.mem_cons_self⟩
theorem mem_logEvent (w : World) (cls die ten data : Nat) :
    ∃ n, { seq := n, cls := cls, die := die, ten := ten, wtc := w.wtc, data := data } ∈ (w.logEvent cls die ten data).hub.log := by
  obtain ⟨n, hn⟩ := mem_logInsert { seq := nextSeq w.hub.seq, cls := cls, die := die, ten := ten, wtc := w.wtc, data := data }
    (w.hub.log.filter (fun x => x.seq % 8192 != nextSeq w.hub.seq % 8192)).reverse
  refine ⟨n, ?_⟩
  unfold World.logEvent
  dsimp only
  rw [modHub_hub, foldl_out_frame mirrorEntry_frame, foldl_out_frame mirrorClear_frame]
  exact List.mem_reverse.mpr hn
theorem logEvent_reg (w : World) (cls die ten data n : Nat) : (w.logEvent cls die ten data).reg n = w.reg n := by
  rw [logEvent_frame]
  rfl
theorem logEvent_clCfg (w : World) (cls die ten data n : Nat) : (w.logEvent cls die ten data).clCfg n = w.clCfg n := by
  rw [logEvent_frame]
  rfl
theorem logEvent_uvUntil (w : World) (cls die ten data : Nat) : (w.logEvent cls die ten data).hub.uvUntil = w.hub.uvUntil := by
  rw [logEvent_frame]

/-! ## Class changes (R80, R348) -/

section
variable {g : Gang} {x : ClassChange} {l : List ClassChange} {now : Nat}

theorem classAhead_last (h : g.domNext = l ++ [x]) : g.classAhead = (x.cls, x.doms) := by
  rw [Gang.classAhead, h, List.getLast?_append]
  rfl
theorem takeClass_last (h : g.domNext = l ++ [x]) : g.takeClass = { g with domCls := x.cls, doms := x.doms, domNext := [] } := by
  rw [Gang.takeClass, classAhead_last h]
theorem late_iff : x.late now = true ↔ x.since + 10 ^ 12 ≤ now := decide_eq_true_iff
/-- The first change alone has waited for its millisecond: it takes effect and the others wait on. -/
theorem takeLate_first (h : g.domNext = x :: l) (hx : x.since + 10 ^ 12 ≤ now) (hl : ∀ y ∈ l, now < y.since + 10 ^ 12) :
    g.classLate now = true ∧ g.takeLate now = { g with domCls := x.cls, doms := x.doms, domNext := l } := by
  have hlate : x.late now = true := late_iff.mpr hx
  have hnot : ∀ y ∈ l, ¬y.late now = true := fun y hy => mt late_iff.mp (not_le.mpr (hl y hy))
  have hdue : g.domNext.filter (ClassChange.late now) = [x] := by
    rw [h, List.filter_cons, if_pos hlate, List.filter_eq_nil_iff.mpr hnot]
  have hwait : g.domNext.filter (fun y => !y.late now) = l := by
    rw [h, List.filter_cons, if_neg (by simp [hlate]), List.filter_eq_self]
    exact fun y hy => by simpa using hnot y hy
  refine ⟨by simp [Gang.classLate, h, hlate], ?_⟩
  rw [Gang.takeLate, hdue, hwait, takeClass_last (l := []) rfl]
theorem classLate_none (h : ∀ x ∈ g.domNext, now < x.since + 10 ^ 12) : g.classLate now = false :=
  List.any_eq_false.mpr fun x hx => mt late_iff.mp (not_le.mpr (h x hx))
end

section
variable {s : State} {gid : Nat} {x : ClassChange} {l : List ClassChange}

/-- A change of class takes effect on a gang, and nothing else changes. -/
theorem takes_done {ins : Instr} {f : Gang → Gang} {h : Gang} (hexec : exec ins s = .next { s with w := s.w.modGang gid f })
    (hf : f (s.w.gang gid) = h) : ∃ u : State, exec ins s = .next u ∧ CoresKept s u ∧ u.w.gang gid = h ∧
      ∀ j, j ≠ gid → u.w.gang j = s.w.gang j :=
  ⟨_, hexec, coresKept_of rfl, (gang_modGang_same ..).trans hf, fun _ hj => gang_modGang_other _ _ _ _ hj⟩
theorem classChangeTimeout_takes (h : (s.w.gang gid).domNext = x :: l) (hx : x.since + 10 ^ 12 ≤ s.w.now)
    (hl : ∀ y ∈ l, s.w.now < y.since + 10 ^ 12) : ∃ u : State, exec (.classChangeTimeout gid) s = .next u ∧ CoresKept s u ∧
      u.w.gang gid = { s.w.gang gid with domCls := x.cls, doms := x.doms, domNext := l } ∧
      ∀ j, j ≠ gid → u.w.gang j = s.w.gang j := by
  obtain ⟨hlate, htake⟩ := takeLate_first h hx hl
  exact takes_done (done_only_eq (if_pos hlate)) htake
theorem classChangeTimeout_early (h : ∀ x ∈ (s.w.gang gid).domNext, s.w.now < x.since + 10 ^ 12) :
    exec (.classChangeTimeout gid) s = .next s := by
  have hact : classTimeoutAct gid s = s.w := if_neg (by simp [classLate_none h])
  exact done_only_eq hact
end

/-! ## A change reaches a gang (R80; log 55) -/

section
variable (w : World) (gid : Nat)

theorem reachGang_frame : w.reachGang gid = { w with gangs := (w.reachGang gid).gangs } := by
  unfold World.reachGang
  dsimp only
  split <;> rfl
theorem reachAll_frame (l : List Nat) : reachAll w l = { w with gangs := (reachAll w l).gangs } := by
  induction l generalizing w with
  | nil => rfl
  | cons g r ih => rw [reachAll, ih, reachGang_frame]
theorem reachAll_clCfg (l : List Nat) (n : Nat) : (reachAll w l).clCfg n = w.clCfg n := by
  rw [reachAll_frame]
  rfl
/-- What is not ahead of the gang already is put behind the changes on their way. -/
theorem reachGang_gang : let c := (w.classFor (w.gang gid).members, (w.gang gid).members.map w.domOf)
    (w.reachGang gid).gang gid = { w.gang gid with
      domNext := if (w.gang gid).classAhead = c then (w.gang gid).domNext
        else (w.gang gid).domNext ++ [{ cls := c.1, doms := c.2, since := w.now }] } := by
  unfold World.reachGang
  dsimp only
  by_cases h : (w.gang gid).classAhead = (w.classFor (w.gang gid).members, (w.gang gid).members.map w.domOf)
  · rw [if_pos (beq_iff_eq.mpr h), if_pos h]
  · rw [if_neg (mt beq_iff_eq.mp h), if_neg h, gang_modGang_same]
end
theorem liveGangs_sole {w : World} {gid : Nat} {g : Gang} (h : w.gangs = [(gid, g)]) (hl : g.live = true) : w.liveGangs = [gid] := by
  simp [World.liveGangs, h, hl]

/-! ## Regulators (R349, R350, R352) -/

section
variable {r : Reg} {i : Nat}

theorem sample_above (h : r.ilim < i) : r.sample i = { r with imeas := i, step := min (r.step + 1) 12, low := 0 } := if_pos h
/-- The eighth low sample in a row lowers the step. -/
theorem sample_low (h : i ≤ r.ilim) (hl : 10 * i < 9 * r.ilim) : r.sample i =
    if r.low + 1 = 8 then { r with imeas := i, step := r.step - 1, low := 0 } else { r with imeas := i, low := r.low + 1 } := by
  rw [Reg.sample]
  dsimp only
  rw [if_neg (not_lt.mpr h), if_pos hl]
  simp only [beq_iff_eq]
theorem sample_between (h : i ≤ r.ilim) (hl : 9 * r.ilim ≤ 10 * i) : r.sample i = { r with imeas := i, low := 0 } :=
  (if_neg (not_lt.mpr h)).trans (if_neg (not_lt.mpr hl))
end
theorem reg_modReg_same (w : World) (n : Nat) (f : Reg → Reg) : (w.modReg n f).reg n = f (w.reg n) := fget_fput_same ..
theorem reg_modReg_other (w : World) {n j : Nat} (f : Reg → Reg) (h : j ≠ n) : (w.modReg n f).reg j = w.reg j := by
  simp only [World.reg, World.modReg, modHub_hub, fget_fput_other _ _ _ _ _ h]

section
variable {s : State} {n i : Nat}

theorem limiterSample_samples {x : Reg} (hn : n < 4) (hi : i < 2 ^ 10) (hx : (s.w.reg n).sample i = x) :
    ∃ u : State, exec (.limiterSample n i) s = .next u ∧ CoresKept s u ∧ u.w.reg n = x ∧ ∀ j, j ≠ n → u.w.reg j = s.w.reg j := by
  have hact : s.w.modReg (n % 4) (fun r => r.sample (i % 2 ^ 10)) = s.w.modReg n (fun r => r.sample i) := by
    rw [Nat.mod_eq_of_lt hn, Nat.mod_eq_of_lt hi]
  exact ⟨_, done_only_eq hact, coresKept_of rfl, (reg_modReg_same ..).trans hx, fun j hj => reg_modReg_other _ _ hj⟩
theorem phaseLoss_derates (hn : n < 4) : ∃ u : State, exec (.phaseLoss n) s = .next u ∧ CoresKept s u ∧
    u.w.hub.seq = (s.w.hub.seq + 1) % 2 ^ 32 ∧ u.w.reg n = { s.w.reg n with
      phok := (s.w.reg n).phok - 1, ilim := min (s.w.reg n).ilim (18 * ((s.w.reg n).phok - 1)), derated := true } := by
  refine ⟨_, rfl, coresKept_of (logEvent_cores ..), logEvent_seq .., ?_⟩
  show (phaseLossAct n s).reg n = _
  rw [phaseLossAct, Nat.mod_eq_of_lt hn, logEvent_reg, reg_modReg_same]
  rfl
end

/-! ## Thermal trips (R353) -/

section
variable {s : State} {die sensor : Nat}

theorem thermalTrip_begins (h : (s.w.die die).trip = false) : thermalAct die sensor s =
    (s.w.modDie die (fun d => { d with trip := true, tripSince := s.w.now })).logEvent 3 die 0 (sensor % 512 + 2 ^ 9) := if_neg (by simp [h])
theorem thermalTrip_goesOn (h : (s.w.die die).trip = true) :
    thermalAct die sensor s = s.w.modDie die (fun d => { d with trip := true, tripSince := s.w.now }) := if_pos h
theorem thermalAct_frame : (thermalAct die sensor s).cores = s.w.cores ∧
    (thermalAct die sensor s).die die = { s.w.die die with trip := true, tripSince := s.w.now } := by
  cases h : (s.w.die die).trip with
  | true =>
    rw [thermalTrip_goesOn h]
    exact ⟨rfl, die_modDie_same ..⟩
  | false =>
    rw [thermalTrip_begins h, World.die, logEvent_dies]
    exact ⟨logEvent_cores .., die_modDie_same ..⟩
theorem thermalTrip_trips : ∃ u : State, exec (.thermalTrip die sensor) s = .next u ∧ CoresKept s u ∧ (u.w.die die).trip = true ∧
    (u.w.die die).tripSince = s.w.now ∧
    ((s.w.die die).trip = false → u.w.hub.seq = (s.w.hub.seq + 1) % 2 ^ 32 ∧
      ∃ e ∈ u.w.hub.log, e.cls = 3 ∧ e.die = die ∧ e.wtc = s.w.wtc ∧ e.data = sensor % 512 + 512) ∧
    ((s.w.die die).trip = true → u.w.hub = s.w.hub) := by
  obtain ⟨hc, hd⟩ := thermalAct_frame (s := s) (die := die) (sensor := sensor)
  refine ⟨_, rfl, coresKept_of hc, congrArg Die.trip hd, congrArg Die.tripSince hd, fun h => ?_, fun h => ?_⟩
  · show (thermalAct die sensor s).hub.seq = _ ∧ ∃ e ∈ (thermalAct die sensor s).hub.log, _
    rw [thermalTrip_begins h]
    obtain ⟨n, hn⟩ := mem_logEvent (s.w.modDie die (fun d => { d with trip := true, tripSince := s.w.now })) 3 die 0 (sensor % 512 + 2 ^ 9)
    exact ⟨logEvent_seq .., _, hn, rfl, rfl, rfl, rfl⟩
  · show (thermalAct die sensor s).hub = s.w.hub
    rw [thermalTrip_goesOn h]
    rfl
theorem thermalTripEnd_ends (h : (s.w.die die).trip = true) (ht : (s.w.die die).tripSince + 10 ^ 12 ≤ s.w.now) :
    ∃ u : State, exec (.thermalTripEnd die sensor) s = .next u ∧ CoresKept s u ∧ (u.w.die die).trip = false ∧
      u.w.hub.seq = (s.w.hub.seq + 1) % 2 ^ 32 := by
  have hact : thermalEndAct die sensor s =
      (s.w.modDie die (fun d => { d with trip := false })).logEvent 3 die 0 (sensor % 512) := if_pos (by simpa [h] using ht)
  refine ⟨_, done_only_eq hact, coresKept_of (logEvent_cores ..), ?_, logEvent_seq ..⟩
  rw [World.die, logEvent_dies]
  exact congrArg Die.trip (die_modDie_same ..)
theorem thermalTripEnd_idle (h : (s.w.die die).trip = false) : exec (.thermalTripEnd die sensor) s = .next s := by
  have hact : thermalEndAct die sensor s = s.w := if_neg (by simp [h])
  exact done_only_eq hact
end

/-! ## The configuration of clusters (R348, R354) -/

theorem clCfg_setClCfg_same (w : World) (n : Nat) (d : ClCfg) : (w.setClCfg n d).clCfg n = d := fget_fput_same ..
theorem clCfg_setClCfg_other (w : World) {n m : Nat} (d : ClCfg) (h : m ≠ n) : (w.setClCfg n d).clCfg m = w.clCfg m :=
  fget_fput_other _ _ _ _ _ h
/-- A cluster's voltage one step higher, by a retreat. -/
def ClCfg.raised (z : ClCfg) : ClCfg := { z with vstep := min (z.vstep + 1) 255, retr := true }
theorem raiseSteps_frame (l : List Nat) (w : World) : raiseSteps w l = { w with
    hub := { w.hub with clcfg := (raiseSteps w l).hub.clcfg, nominal := (raiseSteps w l).hub.nominal } } := by
  induction l generalizing w with
  | nil => rfl
  | cons n r ih => rw [raiseSteps, ih]; rfl
theorem raiseSteps_other {l : List Nat} {n : Nat} (h : n ∉ l) (w : World) : (raiseSteps w l).clCfg n = w.clCfg n := by
  induction l generalizing w with
  | nil => rfl
  | cons m r ih =>
    rw [List.mem_cons, not_or] at h
    rw [raiseSteps, ih h.2, World.raiseStep, clCfg_setClCfg_other _ _ h.1]
theorem raiseSteps_clCfg {l : List Nat} (hl : l.Nodup) {n : Nat} (h : n ∈ l) (w : World) :
    (raiseSteps w l).clCfg n = (w.clCfg n).raised := by
  induction l generalizing w with
  | nil => cases h
  | cons m r ih =>
    obtain ⟨hm, hr⟩ := List.nodup_cons.mp hl
    rw [raiseSteps]
    rcases eq_or_ne n m with rfl | hne
    · rw [raiseSteps_other hm, World.raiseStep, clCfg_setClCfg_same]
      rfl
    · rw [ih hr ((List.mem_cons.mp h).resolve_left hne), World.raiseStep, clCfg_setClCfg_other _ _ hne]

section
variable {s : State} {n dom : Nat} {v : Word}

/-- The clusters of a domain. -/
def World.clustersOf (w : World) (dom : Nat) : List Nat := (List.range 32).filter (fun n => (w.clCfg n).dom == dom)
theorem mem_clustersOf {w : World} : n ∈ w.clustersOf dom ↔ n < 32 ∧ (w.clCfg n).dom = dom := by
  simp [World.clustersOf]
theorem clustersOf_nodup (w : World) (dom : Nat) : (w.clustersOf dom).Nodup := List.nodup_range.filter _
/-- What a retreat changes beside the log. -/
def World.retreated (w : World) (dom : Nat) : World := (raiseSteps w (w.clustersOf dom)).modHub (fun h =>
  { h with uvUntil := fput h.uvUntil dom (w.now + 100000000000000), errs := fput h.errs dom { (w.errRate dom) with hit := true } })
theorem retreatAct_retreats (h : s.w.overRetreat dom = true) (hn : n ∈ s.w.clustersOf dom) :
    ∃ data, retreatAct dom s = (s.w.retreated dom).logEvent 4 8 0 data := by
  obtain ⟨m, r, hcs⟩ := List.exists_cons_of_ne_nil (List.ne_nil_of_mem hn)
  refine ⟨dom % 8 + ((s.w.retreated dom).clCfg m).vstep * 2 ^ 3, ?_⟩
  rw [retreatAct, if_neg (by simp [h])]
  dsimp only
  rw [World.retreated, hcs, show (List.range 32).filter (fun n => (s.w.clCfg n).dom == dom) = m :: r from hcs]
theorem undervoltRetreat_retreats (hn : n < 32) (hd : (s.w.clCfg n).dom = dom) (h : s.w.overRetreat dom = true) :
    ∃ u : State, exec (.undervoltRetreat dom) s = .next u ∧ CoresKept s u ∧ u.w.clCfg n = (s.w.clCfg n).raised ∧
      fget u.w.hub.uvUntil 0 dom = s.w.now + 10 ^ 14 ∧ ∀ m, (s.w.clCfg m).dom ≠ dom → u.w.clCfg m = s.w.clCfg m := by
  have hmem := mem_clustersOf.mpr ⟨hn, hd⟩
  obtain ⟨data, hact⟩ := retreatAct_retreats h hmem
  have hcfg (m : Nat) : (s.w.retreated dom).clCfg m = (raiseSteps s.w (s.w.clustersOf dom)).clCfg m := rfl
  refine ⟨_, done_only_eq hact, coresKept_of ?_, ?_, ?_, fun m hm => ?_⟩
  · rw [logEvent_cores, World.retreated, modHub_cores, raiseSteps_frame]
  · rw [logEvent_clCfg, hcfg, raiseSteps_clCfg (clustersOf_nodup ..) hmem]
  · rw [logEvent_uvUntil]
    exact fget_fput_same ..
  · rw [logEvent_clCfg, hcfg, raiseSteps_other (mt mem_clustersOf.mp fun hin => hm hin.2)]
theorem undervoltRetreat_idle (h : s.w.overRetreat dom = false) : exec (.undervoltRetreat dom) s = .next s := by
  have hact : retreatAct dom s = s.w := if_pos (by simp [h])
  exact done_only_eq hact

/-- What a write that is not held off makes of a cluster's configuration: it only ever clears `RETR`. -/
def ClCfg.written (z : ClCfg) (v : Word) : ClCfg :=
  { reg := v.toNat % 4, dom := v.toNat / 4 % 8, vstep := v.toNat / 2 ^ 8 % 2 ^ 8, retr := z.retr && v.getLsbD 16 }
/-- Where its domain has changed, the change reaches the gangs (R348). -/
theorem clcfgAct_sets (hn : n < 32) (hm : v.toNat % 4 = (s.w.clCfg n).reg ∨ s.w.clusterUsed n = false)
    (hv : fget s.w.hub.uvUntil 0 (s.w.clCfg n).dom ≤ s.w.now ∨ (s.w.clCfg n).vstep ≤ v.toNat / 2 ^ 8 % 2 ^ 8) :
    clcfgAct n v s = reachAll (s.w.setClCfg n ((s.w.clCfg n).written v))
      (if v.toNat / 4 % 8 = (s.w.clCfg n).dom then [] else (s.w.setClCfg n ((s.w.clCfg n).written v)).liveGangs) := by
  have hfree : ¬(v.toNat % 4 != (s.w.clCfg n).reg && s.w.clusterUsed n) = true := by
    rcases hm with h | h <;> simp [h]
  have hheld : ¬(decide (s.w.now < fget s.w.hub.uvUntil 0 (s.w.clCfg n).dom) &&
      decide (field 15 8 v.toNat < (s.w.clCfg n).vstep)) = true := by
    rw [Bool.and_eq_true, decide_eq_true_eq, decide_eq_true_eq]
    exact fun ⟨h1, h2⟩ => hv.elim (not_le.mpr h1) (not_le.mpr h2)
  rw [clcfgAct, Nat.mod_eq_of_lt hn]
  dsimp only
  rw [if_neg hfree, if_neg hheld, bitOf_testBit]
  by_cases hd : v.toNat / 4 % 8 = (s.w.clCfg n).dom
  · rw [if_pos hd]
    exact if_pos (beq_iff_eq.mpr hd)
  · rw [if_neg hd]
    exact if_neg (mt beq_iff_eq.mp hd)
theorem clcfgWrite_sets (hn : n < 32) (hm : v.toNat % 4 = (s.w.clCfg n).reg ∨ s.w.clusterUsed n = false)
    (hv : fget s.w.hub.uvUntil 0 (s.w.clCfg n).dom ≤ s.w.now ∨ (s.w.clCfg n).vstep ≤ v.toNat / 2 ^ 8 % 2 ^ 8) :
    ∃ u : State, exec (.clcfgWrite n v) s = .next u ∧ CoresKept s u ∧ (∀ m, m ≠ n → u.w.clCfg m = s.w.clCfg m) ∧
      u.w.clCfg n = (s.w.clCfg n).written v := by
  refine ⟨_, done_only_eq (clcfgAct_sets hn hm hv), coresKept_of ?_, fun m hm => ?_, ?_⟩
  · rw [reachAll_frame]
    rfl
  · rw [reachAll_clCfg, clCfg_setClCfg_other _ _ hm]
  · rw [reachAll_clCfg, clCfg_setClCfg_same]
theorem clcfgWrite_refused (hn : n < 32) (hm : v.toNat % 4 ≠ (s.w.clCfg n).reg) (hu : s.w.clusterUsed n = true) :
    ∃ u : State, exec (.clcfgWrite n v) s = .next u ∧ CoresKept s u ∧ u.w.hub.seq = (s.w.hub.seq + 1) % 2 ^ 32 ∧
      ∀ m, u.w.clCfg m = s.w.clCfg m := by
  have hact : clcfgAct n v s = s.w.logEvent 9 8 0 n := by
    rw [clcfgAct, Nat.mod_eq_of_lt hn]
    exact if_pos (by simp [hm, hu])
  exact ⟨_, done_only_eq hact, coresKept_of (logEvent_cores ..), logEvent_seq .., fun m => logEvent_clCfg ..⟩
end

/-! ## Writes of the domains' classes (R80, R348) -/

/-- The classes of the domains are written, and no gang has heard of it yet. -/
def World.withClasses (w : World) (d : BitVec 16) : World := w.modHub (fun h => { h with domcls := d.toNat })
section
variable {s : State} {gid : Nat} (d : BitVec 16)

theorem domclsAct_eq : domclsAct d s = reachAll (s.w.withClasses d) (s.w.withClasses d).liveGangs := rfl
theorem domclsAct_frame : domclsAct d s = { s.w.withClasses d with gangs := (domclsAct d s).gangs } := by
  rw [domclsAct_eq]
  exact reachAll_frame ..
theorem domclsAct_classFor (l : List Nat) : (domclsAct d s).classFor l = (s.w.withClasses d).classFor l := by
  rw [domclsAct_frame]
  rfl
/-- The only gang hears of the change, unless it comes to its class and domains in any case. -/
theorem domclsAct_gang (hl : (s.w.gang gid).live = true) (hg : s.w.gangs = [(gid, s.w.gang gid)]) :
    let c := ((domclsAct d s).classFor (s.w.gang gid).members, (s.w.gang gid).members.map s.w.domOf)
    (domclsAct d s).gang gid = { s.w.gang gid with
      domNext := if (s.w.gang gid).classAhead = c then (s.w.gang gid).domNext
        else (s.w.gang gid).domNext ++ [{ cls := c.1, doms := c.2, since := s.w.now }] } := by
  have hlive : (s.w.withClasses d).liveGangs = [gid] := liveGangs_sole hg hl
  have hreach : (domclsAct d s).gang gid = ((s.w.withClasses d).reachGang gid).gang gid := by
    rw [domclsAct_eq, hlive]
    rfl
  simp only [domclsAct_classFor, hreach, reachGang_gang]
  rfl
end

/-- Settles O49: each clause is the rule of its action above. -/
theorem powerActions : Obligations.PowerActions := by
  intro s gid n i die sensor dom v d
  dsimp only
  refine ⟨fun l x h => takes_done rfl (takeClass_last h), fun x l => classChangeTimeout_takes, classChangeTimeout_early,
    fun hn hi h => limiterSample_samples hn hi (sample_above h), fun hn hi h hl hlow => limiterSample_samples hn hi ?_,
    fun hn hi h hl hlow => limiterSample_samples hn hi ?_, fun hn hi h hl => limiterSample_samples hn hi (sample_between h hl),
    phaseLoss_derates, thermalTrip_trips, thermalTripEnd_ends, thermalTripEnd_idle, undervoltRetreat_idle, ?_, clcfgWrite_sets,
    clcfgWrite_refused, ?_⟩
  · rw [sample_low h hl, if_neg (by omega)]
  · rw [sample_low h hl, if_pos (by omega)]
  · intro hn hd h
    obtain ⟨u, hexec, hsame, hz, huntil, hother⟩ := undervoltRetreat_retreats hn hd h
    exact ⟨u, hexec, hsame, by rw [hz]; rfl, by rw [hz]; rfl, by rw [hz]; exact hd, by rw [hz]; rfl, huntil, hother⟩
  · have hframe := domclsAct_frame (s := s) d
    refine ⟨_, rfl, coresKept_of (congrArg World.cores hframe :), (congrArg (fun w => w.hub.domcls) hframe :), fun hl hg => ?_⟩
    have hgang := domclsAct_gang d hl hg
    exact ⟨(congrArg Gang.domCls hgang :), (congrArg Gang.doms hgang :), (congrArg Gang.domNext hgang :)⟩
end Sys2Proof.Machine
end

/-! SUPPORT. What the sorting office shares: sets, all dies in turn, wheel slots, leases, tasks that stand at a stage. -/
section
namespace Sys2Proof.Machine
open Sys2Proof

/-! ## Sets of numbers -/

theorem mem_sadd {l : List Nat} {k x : Nat} : x ∈ sadd l k ↔ x ∈ l ∨ x = k := by
  induction l with
  | nil => simp [sadd]
  | cons e r ih =>
    rw [sadd]
    split
    · next h =>
      rw [beq_iff_eq.mp h, List.mem_cons]
      tauto
    · split
      · simp only [List.mem_cons]; tauto
      · rw [List.mem_cons, ih, List.mem_cons, or_assoc]
theorem mem_foldl_sadd {l m : List Nat} {x : Nat} : x ∈ l.foldl sadd m ↔ x ∈ m ∨ x ∈ l := by
  induction l generalizing m with
  | nil => simp
  | cons k r ih => rw [List.foldl_cons, ih, mem_sadd, List.mem_cons, or_assoc]
/-- A number enters a rising set at its place. -/
theorem sadd_rises {l : List Nat} (h : l.Pairwise (· < ·)) (k : Nat) : (sadd l k).Pairwise (· < ·) := by
  induction l with
  | nil => simp [sadd]
  | cons e r ih =>
    obtain ⟨he, hr⟩ := List.pairwise_cons.mp h
    rw [sadd]
    split
    · exact h
    · next hne =>
      split
      · next hlt => exact List.pairwise_cons.mpr ⟨List.forall_mem_cons.mpr ⟨hlt, fun x hx => lt_trans hlt (he x hx)⟩, h⟩
      · next hle =>
        refine List.pairwise_cons.mpr ⟨fun x hx => ?_, ih hr⟩
        rcases mem_sadd.mp hx with hx | rfl
        · exact he x hx
        · exact lt_of_le_of_ne (not_lt.mp hle) fun heq => hne (beq_iff_eq.mpr heq.symm)
theorem foldl_sadd_rises {l m : List Nat} (h : m.Pairwise (· < ·)) : (l.foldl sadd m).Pairwise (· < ·) := by
  induction l generalizing m with
  | nil => exact h
  | cons k r ih => exact ih (sadd_rises h k)
theorem diesOf_nodup (cores : List Nat) : (diesOf cores).Nodup := (foldl_sadd_rises List.Pairwise.nil).imp Nat.ne_of_lt

/-! ## Dies in turn -/

/-- Of some dies each changes once, the others not at all. -/
theorem dieAll_die {f : Nat → Die → Die} {l : List Nat} (hl : l.Nodup) (w : World) (d : Nat) :
    (dieAll f w l).die d = if d ∈ l then f d (w.die d) else w.die d := by
  induction l generalizing w with
  | nil => rfl
  | cons e r ih =>
    obtain ⟨he, hr⟩ := List.nodup_cons.mp hl
    rw [dieAll, ih hr]
    rcases eq_or_ne d e with rfl | hd
    · rw [if_neg he, if_pos List.mem_cons_self, die_modDie_same]
    · simp only [die_modDie_other _ _ _ _ hd, List.mem_cons, hd, false_or]
/-- A field that no change touches is the same at every die. -/
theorem dieAll_kept {α : Type} {p : Die → α} {f : Nat → Die → Die} (hf : ∀ d x, p (f d x) = p x) (l : List Nat) (w : World) (d : Nat) :
    p ((dieAll f w l).die d) = p (w.die d) := by
  induction l generalizing w with
  | nil => rfl
  | cons e r ih =>
    rw [dieAll, ih]
    rcases eq_or_ne d e with rfl | hd
    · rw [die_modDie_same, hf]
    · rw [die_modDie_other _ _ _ _ hd]
theorem learnAll_eq (lids : List Nat) (l : List Nat) (w : World) : learnAll lids w l = dieAll (fun _ x => x.learns lids) w l := by
  induction l generalizing w with
  | nil => rfl
  | cons d r ih => exact ih _

/-! ## Wheel slots (R236) -/

section
variable {m : FMap WSlot} {ten gid : Nat}

/-- A slot has an owner when it had one or is among those taken. -/
theorem takeSlots_own (l : List Nat) (n : Nat) : (fget (takeSlots ten gid m l) WSlot.unowned n).own =
    (decide (n ∈ l) || (fget m WSlot.unowned n).own) := by
  induction l generalizing m with
  | nil => simp [takeSlots]
  | cons k r ih =>
    rw [takeSlots, ih]
    rcases eq_or_ne n k with rfl | h
    · simp
    · simp [fget_fput_other _ _ _ _ _ h, h]
/-- Free slots that are taken are the only ones that are no longer free. -/
theorem freeSlots_taken {n : Nat} (h : n ≤ (freeSlots m).length) :
    (freeSlots (takeSlots ten gid m ((freeSlots m).take n))).length + n = (freeSlots m).length := by
  have hnodup : ((freeSlots m).take n ++ (freeSlots m).drop n).Nodup := by
    rw [List.take_append_drop]
    exact List.nodup_range.filter _
  have hleft : freeSlots (takeSlots ten gid m ((freeSlots m).take n)) = (freeSlots m).drop n := by
    have hfilter : freeSlots (takeSlots ten gid m ((freeSlots m).take n)) =
        (freeSlots m).filter (fun k => decide (k ∉ (freeSlots m).take n)) := by
      rw [freeSlots, freeSlots, List.filter_filter]
      refine List.filter_congr fun k _ => ?_
      rw [takeSlots_own, Bool.not_or, decide_not]
    rw [hfilter]
    calc (freeSlots m).filter (fun k => decide (k ∉ (freeSlots m).take n))
      _ = ((freeSlots m).take n ++ (freeSlots m).drop n).filter (fun k => decide (k ∉ (freeSlots m).take n)) := by
        rw [List.take_append_drop]
      _ = [] ++ (freeSlots m).drop n := by
        rw [List.filter_append, List.filter_eq_nil_iff.mpr fun k hk => by simpa using hk,
          List.filter_eq_self.mpr fun k hk => by simpa using fun ht => List.disjoint_of_nodup_append hnodup ht hk]
      _ = (freeSlots m).drop n := List.nil_append _
  rw [hleft, List.length_drop]
  omega
/-- Slots under a mark are a gang's, and what others own stays theirs. -/
theorem fget_reslot {old new n : Nat} (h : (fget m WSlot.unowned n).own = true) : fget (reslot old new m) WSlot.unowned n =
    if (fget m WSlot.unowned n).gang = old then { fget m WSlot.unowned n with gang := new } else fget m WSlot.unowned n := by
  induction m with
  | nil => cases h
  | cons e r ih =>
    rw [fget_cons] at h
    rw [reslot, List.map_cons, fget_cons, fget_cons]
    dsimp only
    split
    · next he =>
      rw [if_pos he] at h
      simp [h]
    · next he =>
      rw [if_neg he] at h
      exact ih h
end

/-! ## Tasks that stand at a stage -/

/-- After an instruction a task with the property `p` stands at stage `st` in the place of another. -/
def Stands (o : Host.Outcome State Fault Refusal) (t : Task) (st : Stage) (p : Task → State → Prop) : Prop :=
  ∃ (u : State) (y : Task), o = .next u ∧ y ∈ u.w.hub.tasks ∧ y.order = t.order ∧ y.stage = st ∧ p y u
/-- The launch of a task has failed, and no byte and no core has changed. -/
def Fails (o : Host.Outcome State Fault Refusal) (s : State) (t : Task) (code vcode : Nat) : Prop :=
  Stands o t .ending (fun y u => y.kind = 1 ∧ y.code = code ∧ y.vcode = vcode ∧ u.mem = s.mem ∧ ∀ j, u.w.core j = s.w.core j)
theorem mem_of_taskBy {w : World} {id : Nat} {t : Task} (h : w.taskBy id = some t) : t ∈ w.hub.tasks := List.mem_of_find?_eq_some h
theorem order_of_taskBy {w : World} {id : Nat} {t : Task} (h : w.taskBy id = some t) : t.order = id := by
  simpa using List.find?_some h

section
variable {s : State} {t : Task} {ins : Instr} {st : Stage}

theorem stands_setTask {w : World} {x : Task} {p : Task → State → Prop} (hexec : exec ins s = done s (only (w.setTask x)))
    (hmem : t ∈ w.hub.tasks) (ho : x.order = t.order) (hp : p x { s with w := w.setTask x }) : Stands (exec ins s) t x.stage p :=
  ⟨_, x, hexec.trans (done_only ..), mem_setTask hmem ho, ho, rfl, hp⟩
/-- A launch that fails after requests have been counted. -/
theorem fails_of {w : World} {code vcode info : Nat} (hw : Counted s.w w) (hmem : t ∈ s.w.hub.tasks)
    (hexec : exec ins s = done s (only (w.failLaunch t code vcode info))) : Fails (exec ins s) s t code vcode :=
  stands_setTask (x := { t with stage := .ending, kind := 1, code := code, vcode := vcode, info := info }) hexec (hw.hub ▸ hmem) rfl
    ⟨rfl, rfl, rfl, rfl, fun j => (congrArg (fget · Core.zero j) hw.cores :)⟩
end
theorem firstCode_zero {l : List Nat} (h : ∀ c ∈ l, c = 0) : firstCode l = 0 := by
  rw [firstCode, List.find?_eq_none.mpr fun c hc => by simp [h c hc]]
  rfl
end Sys2Proof.Machine
end

/-! SUPPORT. Admission and residency (R195, R198, R236, R263 to R265). -/
section
namespace Sys2Proof.Machine
open Sys2Proof

/-! ## Admission (R264) -/

section
variable {s : State} {t : Task} {id : Nat}

theorem admitAct_none (h : s.refreshed.nextRecord = none) : admitAct s = s.refreshed := by
  unfold admitAct
  generalize s.refreshed = r at h ⊢
  simp only [h]
theorem admitAct_some (h : s.refreshed.nextRecord = some t) :
    ∃ w : World, admitAct s = w.moveLast { t with stage := .admitted, predf := badKind t.predsSeen } := by
  unfold admitAct
  generalize s.refreshed = r at h ⊢
  simp only [h]
  exact ⟨_, rfl⟩
theorem admitTask_idle (h : s.refreshed.nextRecord = none) : exec .admitTask s = .next (s.withWorld s.refreshed) :=
  done_only_eq (admitAct_none h)
theorem badKind_iff (l : List (Nat × Nat)) : badKind l = true ↔ ∃ e ∈ l, e.2 ≠ 0 := by simp [badKind]
/-- The record that is admitted stands behind the others. -/
theorem admitTask_admits (h : s.refreshed.nextRecord = some t) : Stands (exec .admitTask s) t .admitted (fun y u =>
    y.lrec = t.lrec ∧ y.no = t.no ∧ y.ten = t.ten ∧ (y.predf = true ↔ ∃ e ∈ t.predsSeen, e.2 ≠ 0) ∧ u.mem = s.mem ∧
      u.w.hub.tasks.getLast? = some y) := by
  obtain ⟨w, hact⟩ := admitAct_some h
  refine ⟨_, { t with stage := .admitted, predf := badKind t.predsSeen }, done_only_eq hact, ?_, rfl, rfl, rfl, rfl, rfl, badKind_iff _,
    rfl, ?_⟩
  · exact List.mem_append_right _ (List.mem_singleton_self _)
  · exact List.getLast?_concat ..
theorem tended_tasks (w : World) : w.tended.hub.tasks = w.hub.tasks.map (fun x => if x.stage = .queued then
    { x with eligible := if w.ready? x then some (x.eligible.getD w.now) else none } else x) := by
  rw [tended_frame]
  simp only [World.markEligible, modHub_hub, beq_iff_eq]
/-- With no record to be taken, ageing marks those that are eligible. -/
theorem priorityAging_marks (hid : s.w.taskBy id = some t) (hnone : s.w.hub.tasks.filter untaken = []) :
    ∃ u : State, exec (.priorityAging id) s = .next u ∧ u.mem = s.mem ∧
      u.w.hub.tasks = s.w.hub.tasks.map (fun x => if x.stage = .queued then
        { x with eligible := if s.w.ready? x then some (x.eligible.getD s.w.now) else none } else x) := by
  have hact : s.refreshed = s.w.tended := by simp only [State.refreshed, hnone, takeAll]
  have hexec : exec (.priorityAging id) s = .next { s with w := s.w.tended } := by
    simp only [exec, execPriorityAging, hid, Option.isSome_some, if_true, hact, done_only]
  have htasks := tended_tasks s.w
  generalize s.w.tended = v at hexec htasks
  exact ⟨{ s with w := v }, hexec, rfl, htasks⟩
end

/-! ## What residency gives (R198, R236, R249, R250) -/

theorem holdBars_frame (t : Task) (l : List BarDecl) (w : World) :
    holdBars t w l = { w with hub := { w.hub with barriers := (holdBars t w l).hub.barriers } } := by
  induction l generalizing w with
  | nil => rfl
  | cons b r ih => rw [holdBars, ih]; rfl
theorem claimGroups_frame (t : Task) (l : List GroupDecl) (w : World) :
    claimGroups t w l = { w with hub := { w.hub with groups := (claimGroups t w l).hub.groups } } := by
  induction l generalizing w with
  | nil => rfl
  | cons g r ih => rw [claimGroups, ih]; rfl
/-- Runs keep all but their lease ids. -/
theorem numberRuns_runs (used : List Nat) (next : Nat) (l : List Rle) :
    (numberRuns used next l).map (fun e => { e with lid := 0 }) = l.map (fun e => { e with lid := 0 }) := by
  induction l generalizing used next with
  | nil => rfl
  | cons e r ih =>
    rw [numberRuns, List.map_cons, List.map_cons, ih]
/-- A home that learns some lease ids has them, and none of them is revoked. -/
theorem mem_learns {d : Die} {lids : List Nat} {l : Nat} (h : l ∈ lids) : l ∈ (d.learns lids).lids ∧ l ∉ (d.learns lids).revoked := by
  refine ⟨mem_foldl_sadd.mpr (.inr h), fun hr => ?_⟩
  simpa [h] using (List.mem_filter.mp hr).2

/-- Homes have learnt some lease ids, and the wheels of the dies give a task its slots. -/
def World.slotted (w : World) (t : Task) (lids : List Nat) : World :=
  dieAll (fun d x => x.withSlots t d) (learnAll lids w (List.range 9)) (List.range 8)
section
variable {w : World} {t : Task} {lids : List Nat} {l d : Nat}

theorem slotted_learns (h : l ∈ lids) (hd : d < 9) (w : World) (t : Task) :
    l ∈ ((w.slotted t lids).die d).lids ∧ l ∉ ((w.slotted t lids).die d).revoked := by
  have hlearn : (learnAll lids w (List.range 9)).die d = (w.die d).learns lids := by
    rw [learnAll_eq, dieAll_die List.nodup_range, if_pos (List.mem_range.mpr hd)]
  have hlids := dieAll_kept (p := Die.lids) (f := fun d x => x.withSlots t d) (fun _ _ => rfl) (List.range 8)
    (learnAll lids w (List.range 9)) d
  have hrevoked := dieAll_kept (p := Die.revoked) (f := fun d x => x.withSlots t d) (fun _ _ => rfl) (List.range 8)
    (learnAll lids w (List.range 9)) d
  rw [World.slotted, hlids, hrevoked, hlearn]
  exact mem_learns h
theorem slotted_wheels (lids : List Nat) (hd : d < 8) :
    ((w.slotted t lids).die d).wheelOut =
      takeSlots t.ten t.gid (w.die d).wheelOut ((freeSlots (w.die d).wheelOut).take (t.wsl d)) ∧
    ((w.slotted t lids).die d).wheelIn =
      takeSlots t.ten t.gid (w.die d).wheelIn ((freeSlots (w.die d).wheelIn).take (t.wsl d)) := by
  have hout := dieAll_kept (p := Die.wheelOut) (f := fun _ x => x.learns lids) (fun _ _ => rfl) (List.range 9) w d
  have hin := dieAll_kept (p := Die.wheelIn) (f := fun _ x => x.learns lids) (fun _ _ => rfl) (List.range 9) w d
  rw [World.slotted, dieAll_die List.nodup_range, if_pos (List.mem_range.mpr hd), Die.withSlots, learnAll_eq, hout, hin]
  exact ⟨rfl, rfl⟩
end

section
variable {w : World} {t : Task} {im : Image} {runs : List Rle}

/-- The runs of a launch with the lease ids that residency gives them. -/
def World.numbered (w : World) (runs : List Rle) : List Rle := numberRuns w.lidsUsed w.hub.nextLid runs
/-- The task as residency leaves it. -/
def World.leased (w : World) (t : Task) (im : Image) (runs : List Rle) : Task :=
  { t with stage := .resident, image := im, runs := w.numbered runs, lids := (w.numbered runs).map (fun e => e.lid) }
theorem mem_grant (h : t ∈ w.hub.tasks) : w.leased t im runs ∈ (w.grant t im runs).hub.tasks := by
  refine mem_setTask (t := t) ?_ rfl
  rw [claimGroups_frame, dieAll_frame, learnAll_eq, dieAll_frame, holdBars_frame]
  exact h
theorem grant_dies : (w.grant t im runs).dies = ((holdBars t w im.bars).slotted t (w.leased t im runs).lids).dies := by
  unfold World.grant World.slotted World.leased World.numbered
  dsimp only
  rw [modHub_dies, World.setTask, World.modTask, modHub_dies, claimGroups_frame]
theorem grant_die (d : Nat) : (w.grant t im runs).die d = ((holdBars t w im.bars).slotted t (w.leased t im runs).lids).die d := by
  rw [World.die, grant_dies]
  rfl
theorem holdBars_die (l : List BarDecl) (d : Nat) : (holdBars t w l).die d = w.die d := by
  rw [holdBars_frame]
  rfl
theorem grant_learns {l : Nat} (h : l ∈ (w.leased t im runs).lids) {d : Nat} (hd : d < 9) :
    l ∈ ((w.grant t im runs).die d).lids ∧ l ∉ ((w.grant t im runs).die d).revoked := by
  rw [grant_die]
  exact slotted_learns h hd _ _
/-- The wheels of every link have as many free slots less as the record names (R236). -/
theorem grant_opens (h : w.slotsFor t = true) {d : Nat} (hd : d < 8) :
    (freeSlots ((w.grant t im runs).die d).wheelOut).length + t.wsl d = (freeSlots (w.die d).wheelOut).length ∧
      (freeSlots ((w.grant t im runs).die d).wheelIn).length + t.wsl d = (freeSlots (w.die d).wheelIn).length := by
  have hroom := List.all_eq_true.mp h d (List.mem_range.mpr hd)
  rw [Bool.and_eq_true, decide_eq_true_eq, decide_eq_true_eq] at hroom
  obtain ⟨hout, hin⟩ := slotted_wheels (w := holdBars t w im.bars) (t := t) (w.leased t im runs).lids hd
  rw [grant_die, hout, hin, holdBars_die]
  exact ⟨freeSlots_taken hroom.1, freeSlots_taken hroom.2⟩
end
end Sys2Proof.Machine
end

/-! SUPPORT. Residency: what it leases, its failures, its waits (R195, R198, R236, R265, R276). -/
section
namespace Sys2Proof.Machine
open Sys2Proof

section
variable {s : State} {t : Task} {id : Nat} {ps : List Page} {runs : List Rle}

/-- The image of a launch is where its record says, as many bytes as it says (R263). -/
def State.imagePages (s : State) (t : Task) : Prep (List Page) :=
  s.prepRange t.ten 1 (t.lrec.toNat % 2 ^ 64) (t.lrec.toNat / 2 ^ 64 % 2 ^ 32)
theorem imagePages_eq (s : State) (t : Task) : s.prepRange t.ten 1 (t.bits 63 0) (t.bits 95 64) = s.imagePages t := by
  have hlo : t.bits 63 0 = t.lrec.toNat % 2 ^ 64 := by rw [Task.bits, field, pow_zero, Nat.div_one]
  rw [hlo]
  rfl
theorem residency_exec (h : s.w.taskBy id = some t) (hst : t.stage = .admitted) (hw : t.s2wait = none) :
    exec (.residency id) s = done s (only (residencyStep s t)) := by
  have hact : residencyAct id s = only (residencyStep s t) := by
    rw [residencyAct, atStage_eq h hst, hw]
    exact congrArg only (if_pos rfl)
  exact congrArg (done s) hact
/-- The world in which the image has been read. -/
def State.imageRead (s : State) (t : Task) (ps : List Page) : World := s.w.officeReqs t.ten (pageSpans ps)
/-- The barrier quota of the tenant leaves room for the launch's new barriers (R358). -/
def State.barQuota (s : State) (t : Task) (im : Image) : Prop :=
  s.w.barriersOf t.ten + s.w.newBars im ≤ s.w.tenRec t.ten / 2 ^ 9 % 2 ^ 13
/-- What residency comes to, by what the walk over the image's range has found. -/
structure Resides (s : State) (t : Task) (found : Prep (List Page)) (v : World) : Prop where
  fail : ∀ c info, found = .fail c info → v = s.w.failLaunch t c 0 (if c == 1 then info else 0)
  wait : ∀ ia va, found = .wait ia va → v = s.w.stage2Fault t ia va
  misfit : ∀ ps, found = .ok ps → imageFits t (Config.imageOf (s.pageBytes ps)) = false → v = (s.imageRead t ps).failLaunch t 14 0 0
  code : ∀ ps runs, found = .ok ps → let im := Config.imageOf (s.pageBytes ps)
    imageFits t im = true → s.prepAll t.ten (t.ranges im) = .ok runs → s.w.residencyCode t im runs ≠ 0 →
      ∃ info, v = (s.imageRead t ps).failLaunch t (s.w.residencyCode t im runs) 0 info
  grant : ∀ ps runs, found = .ok ps → let im := Config.imageOf (s.pageBytes ps)
    imageFits t im = true → s.prepAll t.ten (t.ranges im) = .ok runs → s.w.residencyCode t im runs = 0 →
      (s.barQuota t im ∧ s.w.slotsFor t = true → v = (s.imageRead t ps).grant t im runs) ∧
      (¬s.barQuota t im ∨ s.w.slotsFor t = false → v = s.w)
/-- The definition is opened as a function: opened at its arguments, the kernel would evaluate the walk. -/
theorem residencyStep_resides (s : State) (t : Task) : Resides s t (s.imagePages t) (residencyStep s t) := by
  suffices h : ∀ f, f = @residencyStep → Resides s t (s.imagePages t) (f s t) from h _ rfl
  intro f hf
  delta residencyStep at hf
  subst hf
  beta_reduce
  rw [imagePages_eq]
  generalize s.imagePages t = found
  refine ⟨?_, ?_, ?_, ?_, ?_⟩
  · rintro c info rfl
    rfl
  · rintro ia va rfl
    rfl
  · rintro ps rfl hf
    exact if_pos (by rw [hf]; rfl)
  · rintro ps runs rfl im hf hr hc
    dsimp only
    rw [if_neg (by rw [hf]; decide), hr]
    exact ⟨_, if_pos (bne_iff_ne.mpr hc)⟩
  · rintro ps runs rfl im hf hr hc
    dsimp only
    rw [if_neg (by rw [hf]; decide), hr]
    dsimp only
    rw [if_neg (by rw [hc]; decide)]
    refine ⟨fun ⟨hq, hs⟩ => if_neg ?_, fun hw => if_pos ?_⟩
    · rw [Bool.or_eq_true, decide_eq_true_eq, hs]
      exact fun hor => hor.elim (not_lt.mpr hq) (by decide)
    · rw [Bool.or_eq_true, decide_eq_true_eq]
      exact hw.imp not_le.mp fun hs => by rw [hs]; rfl

section
variable (htask : s.w.taskBy id = some t) (hst : t.stage = .admitted) (hwait : t.s2wait = none)
include htask hst hwait

theorem residency_fails {c info : Nat} (h : s.imagePages t = .fail c info) : Fails (exec (.residency id) s) s t c 0 :=
  fails_of (Counted.refl _) (mem_of_taskBy htask)
    ((residency_exec htask hst hwait).trans (congrArg (fun w => done s (only w)) ((residencyStep_resides s t).fail _ _ h)))
theorem residency_misfits (h : s.imagePages t = .ok ps) (hf : imageFits t (Config.imageOf (s.pageBytes ps)) = false) :
    Fails (exec (.residency id) s) s t 14 0 :=
  fails_of (officeReqs_counted ..) (mem_of_taskBy htask)
    ((residency_exec htask hst hwait).trans (congrArg (fun w => done s (only w)) ((residencyStep_resides s t).misfit _ h hf)))
/-- A stage-2 fault goes to the hypervisor, and the task waits (R195). -/
theorem residency_waits {ia va : Nat} (h : s.imagePages t = .wait ia va) : Stands (exec (.residency id) s) t .admitted (fun y u =>
    y.s2wait = some (ia, va) ∧ u.w.hub.faults = s.w.hub.faults ++ [(ia, va, t.order)]) :=
  ⟨_, { t with s2wait := some (ia, va) },
    (residency_exec htask hst hwait).trans (congrArg (fun w => done s (only w)) ((residencyStep_resides s t).wait _ _ h)),
    mem_setTask (mem_of_taskBy htask) rfl, rfl, hst, rfl, rfl⟩

section
variable (h : s.imagePages t = .ok ps) (hf : imageFits t (Config.imageOf (s.pageBytes ps)) = true)
  (hr : s.prepAll t.ten (t.ranges (Config.imageOf (s.pageBytes ps))) = .ok runs)
include h hf hr

theorem residency_code (hc : s.w.residencyCode t (Config.imageOf (s.pageBytes ps)) runs ≠ 0) :
    Fails (exec (.residency id) s) s t (s.w.residencyCode t (Config.imageOf (s.pageBytes ps)) runs) 0 := by
  obtain ⟨info, hstep⟩ := (residencyStep_resides s t).code _ _ h hf hr hc
  exact fails_of (officeReqs_counted ..) (mem_of_taskBy htask)
    ((residency_exec htask hst hwait).trans (congrArg (fun w => done s (only w)) hstep))
theorem residency_holds (hc : s.w.residencyCode t (Config.imageOf (s.pageBytes ps)) runs = 0)
    (hw : ¬s.barQuota t (Config.imageOf (s.pageBytes ps)) ∨ s.w.slotsFor t = false) : exec (.residency id) s = .next s :=
  (residency_exec htask hst hwait).trans (congrArg (fun w => done s (only w)) (((residencyStep_resides s t).grant _ _ h hf hr hc).2 hw))
theorem residency_grants (hc : s.w.residencyCode t (Config.imageOf (s.pageBytes ps)) runs = 0)
    (hq : s.barQuota t (Config.imageOf (s.pageBytes ps))) (hs : s.w.slotsFor t = true) :
    Stands (exec (.residency id) s) t .resident (fun y u =>
      y.image = Config.imageOf (s.pageBytes ps) ∧ y.gid = t.gid ∧ y.lids = y.runs.map (fun e => e.lid) ∧
      y.runs.map (fun e => { e with lid := 0 }) = runs.map (fun e => { e with lid := 0 }) ∧ u.mem = s.mem ∧
      (∀ d < 8, (freeSlots (u.w.die d).wheelOut).length + t.wsl d = (freeSlots (s.w.die d).wheelOut).length ∧
        (freeSlots (u.w.die d).wheelIn).length + t.wsl d = (freeSlots (s.w.die d).wheelIn).length) ∧
      ∀ l ∈ y.lids, ∀ d < 9, l ∈ (u.w.die d).lids ∧ l ∉ (u.w.die d).revoked) := by
  have hcount : Counted s.w (s.imageRead t ps) := officeReqs_counted ..
  have hout (d : Nat) : ((s.imageRead t ps).die d).wheelOut = (s.w.die d).wheelOut := by rw [hcount.counters]
  have hin (d : Nat) : ((s.imageRead t ps).die d).wheelIn = (s.w.die d).wheelIn := by rw [hcount.counters]
  have hslots : (s.imageRead t ps).slotsFor t = true := by
    rw [← hs]
    simp only [World.slotsFor, hout, hin]
  have hexec := (residency_exec htask hst hwait).trans
    (congrArg (fun w => done s (only w)) (((residencyStep_resides s t).grant _ _ h hf hr hc).1 ⟨hq, hs⟩))
  refine ⟨_, (s.imageRead t ps).leased t (Config.imageOf (s.pageBytes ps)) runs, hexec, mem_grant (hcount.hub ▸ mem_of_taskBy htask),
    rfl, rfl, rfl, rfl, rfl, numberRuns_runs .., rfl, fun d hd => ?_, fun l hl d hd => grant_learns hl hd⟩
  rw [← hout, ← hin]
  exact grant_opens hslots hd
end
end

/-! ## The hypervisor's answer (R195) -/

section
variable {x : Nat × Nat} (htask : s.w.taskBy id = some t) (hwait : t.s2wait = some x)
include htask hwait

/-- The tables are repaired: the task waits no more, and its faults are gone. -/
theorem hypervisorRetry_repairs : Stands (exec (.hypervisorRetry id) s) t t.stage (fun y u =>
    y.s2wait = none ∧ ∀ f ∈ u.w.hub.faults, f.2.2 ≠ id) := by
  have hact : retryWalkAct id s = (s.w.setTask { t with s2wait := none }).modHub (fun h =>
      { h with faults := h.faults.filter (fun f => f.2.2 != id) }) := by
    simp only [retryWalkAct, htask, hwait, Option.isSome_some, if_true]
  refine ⟨_, { t with s2wait := none }, done_only_eq hact, mem_setTask (mem_of_taskBy htask) rfl, rfl, rfl, rfl, fun f hf => ?_⟩
  simpa using (List.mem_filter.mp hf).2
theorem hypervisorDecline_fails : Fails (exec (.hypervisorDecline id) s) s t 2 0 := by
  have hact : declineAct id s = (s.w.failLaunch { t with s2wait := none } 2 0 0).modHub (fun h =>
      { h with faults := h.faults.filter (fun f => f.2.2 != id) }) := by
    simp only [declineAct, htask, hwait, Option.isSome_some, if_true]
  exact ⟨_, { t with s2wait := none, stage := .ending, kind := 1, code := 2, vcode := 0, info := 0 }, done_only_eq hact,
    mem_setTask (mem_of_taskBy htask) rfl, rfl, rfl, rfl, rfl, rfl, rfl, fun _ => rfl⟩
end
end
end Sys2Proof.Machine
end

/-! SUPPORT. Placement: cores, lease-table entries and wheel slots under the gang's number (R199, R236, R262, R266). -/
section
namespace Sys2Proof.Machine
open Sys2Proof

/-! ## Memory that is readied (R170, R228) -/

theorem byte_clear_other (m : Mems) {sp : Space} {a n x : Nat} (h : x < a ∨ a + n ≤ x) :
    (m.apply (.clear sp a n)).byte sp x = m.byte sp x := by
  simp only [Mems.apply, Mems.byte, cells_setCells_same, clearBytes]
  rcases h with h | h
  · rw [cellAt_append_left, cellAt_filter]
    · intro e he; simp [he, h]
    · intro e he
      have : a + n ≤ e.1 := by simpa using (List.mem_filter.mp he).2
      omega
  · rw [cellAt_append_right, cellAt_filter]
    · intro e he; simp [he, h]
    · intro e he
      have : e.1 < a := by simpa using (List.mem_filter.mp he).2
      omega
/-- Writes none of which reaches a byte leave it. -/
theorem applyAll_byte_kept {sp : Space} {x : Nat} {l : List MemW} (h : ∀ e ∈ l, ∀ m : Mems, (m.apply e).byte sp x = m.byte sp x)
    (m : Mems) : (m.applyAll l).byte sp x = m.byte sp x := by
  induction l generalizing m with
  | nil => rfl
  | cons e r ih => rw [applyAll_cons, ih fun y hy => h y (List.mem_cons_of_mem _ hy), h e List.mem_cons_self]
/-- A byte that one of some writes clears, and that none of them sets, is zero after them. -/
theorem applyAll_byte_cleared {sp : Space} {a n x : Nat} {l : List MemW} (hc : MemW.clear sp a n ∈ l) (hx : a ≤ x ∧ x < a + n)
    (h : ∀ e ∈ l, ∀ m : Mems, m.byte sp x = 0 → (m.apply e).byte sp x = 0) (m : Mems) : (m.applyAll l).byte sp x = 0 := by
  have keeps (l : List MemW) (h : ∀ e ∈ l, ∀ m : Mems, m.byte sp x = 0 → (m.apply e).byte sp x = 0) (m : Mems) (hm : m.byte sp x = 0) :
      (m.applyAll l).byte sp x = 0 := by
    induction l generalizing m with
    | nil => exact hm
    | cons e r ih => exact ih (fun y hy => h y (List.mem_cons_of_mem _ hy)) _ (h e List.mem_cons_self m hm)
  induction l generalizing m with
  | nil => cases hc
  | cons e r ih =>
    have hr : ∀ y ∈ r, ∀ m : Mems, m.byte sp x = 0 → (m.apply y).byte sp x = 0 := fun y hy => h y (List.mem_cons_of_mem _ hy)
    rcases List.mem_cons.mp hc with rfl | hc
    · exact keeps r hr _ (byte_cleared m sp hx)
    · exact ih hc hr _
/-- What readies some cores without a handler's words. -/
def readyCores (cores : List Nat) : List MemW := (cores.map (fun k => readyCore k [])).flatten
theorem mem_readyCores {cores : List Nat} {e : MemW} (h : e ∈ readyCores cores) : ∃ k,
    e = .clear .spd (spdAt k 0) (2 ^ 21) ∨ e = .clear .mortar (mortarAt k 0 0) (2 ^ 19) ∨ e = .bytes .hst (hstAt k 0) [] := by
  obtain ⟨l, hl, he⟩ := List.mem_flatten.mp h
  obtain ⟨k, -, rfl⟩ := List.mem_map.mp hl
  exact ⟨k, by simpa [readyCore, bytesOf] using he⟩
/-- The scratchpad of a core that is readied is zero (R170). -/
theorem readyCores_spd {cores : List Nat} {k : Nat} (hk : k ∈ cores) (m : Mems) {i : Nat} (hi : i < 2 ^ 21) :
    (m.applyAll (readyCores cores)).byte .spd (k * 2 ^ 21 + i) = 0 := by
  have hmem : MemW.clear .spd (k * 2 ^ 21) (2 ^ 21) ∈ readyCores cores :=
    List.mem_flatten.mpr ⟨_, List.mem_map.mpr ⟨k, hk, rfl⟩, by simp [readyCore, spdAt]⟩
  refine applyAll_byte_cleared hmem (by omega) (fun e he m hm => ?_) m
  obtain ⟨j, rfl | rfl | rfl⟩ := mem_readyCores he
  · by_cases hx : spdAt j 0 ≤ k * 2 ^ 21 + i ∧ k * 2 ^ 21 + i < spdAt j 0 + 2 ^ 21
    · exact byte_cleared m .spd hx
    · rw [byte_clear_other m (by omega), hm]
  · rwa [Mems.byte, apply_cells_other (by simp [MemW.space])]
  · rwa [Mems.byte, apply_cells_other (by simp [MemW.space])]
theorem readyCores_other {sp : Space} (h1 : sp ≠ .spd) (h2 : sp ≠ .mortar) (cores : List Nat) (m : Mems) (x : Nat) :
    (m.applyAll (readyCores cores)).byte sp x = m.byte sp x := by
  refine applyAll_byte_kept (fun e he m => ?_) m
  obtain ⟨j, rfl | rfl | rfl⟩ := mem_readyCores he
  · simp only [Mems.byte, apply_cells_other (sp := sp) (x := .clear .spd (spdAt j 0) (2 ^ 21)) h1.symm]
  · simp only [Mems.byte, apply_cells_other (sp := sp) (x := .clear .mortar (mortarAt j 0 0) (2 ^ 19)) h2.symm]
  · by_cases hsp : sp = .hst
    · subst hsp
      simp only [Mems.apply, Mems.byte, cells_setCells_same]
      exact cellAt_writeBytes_out (by simp only [List.length_nil]; omega)
    · simp only [Mems.byte, apply_cells_other (sp := sp) (x := .bytes .hst (hstAt j 0) []) (Ne.symm hsp)]

/-! ## Cores, groups and dies that are a gang's (R199, R236, R262, R266) -/

/-- Each member has a core. -/
theorem placeOn_length {t : Task} {free : Bool → Nat → Bool} {l : List MemImg} {taken cores : List Nat}
    (h : placeOn t free taken l = some cores) : cores.length = taken.length + l.length := by
  induction l generalizing taken with
  | nil =>
    rw [placeOn, Option.some.injEq] at h
    rw [← h]
    rfl
  | cons m r ih =>
    rw [placeOn] at h
    split at h
    · rw [ih h, List.length_append, List.length_singleton, List.length_cons]
      omega
    · cases h
section
variable {w0 : World} {gid vec : Nat} {more : List (Nat × Nat)} {hs : List Nat}

theorem placeCores_frame (l : List (Nat × MemImg)) (w : World) (j : Nat) : placeCores w0 gid more vec hs w l j =
    { w with cores := (placeCores w0 gid more vec hs w l j).cores, softErrs := (placeCores w0 gid more vec hs w l j).softErrs } := by
  induction l generalizing w j with
  | nil => rfl
  | cons x r ih => rw [placeCores, ih]; rfl
theorem placeCores_gang {l : List (Nat × MemImg)} {k : Nat} (w : World) (j : Nat)
    (h : k ∈ l.map (·.1) ∨ (w.core k).gang = some gid) : ((placeCores w0 gid more vec hs w l j).core k).gang = some gid := by
  induction l generalizing w j with
  | nil => exact h.resolve_left (by simp)
  | cons x r ih =>
    rw [placeCores]
    refine ih _ _ ?_
    rcases eq_or_ne k x.1 with rfl | hk
    · rw [core_modCore_same]
      exact .inr rfl
    · rw [core_modCore_other _ _ _ _ hk]
      exact h.imp_left fun hm => (List.mem_cons.mp hm).resolve_left hk
theorem holdGroups_frame (t : Task) (l : List GroupDecl) (w : World) :
    holdGroups t more w l = { w with hub := { w.hub with groups := (holdGroups t more w l).hub.groups } } := by
  induction l generalizing w with
  | nil => rfl
  | cons g r ih => rw [holdGroups, ih]; rfl
end

/-- The dies as placement leaves them before the arrays are cleared: the slots under the task's mark are the gang's, and the dies of its
cores hold its leases. -/
def World.handedDies (w : World) (t : Task) (gid : Nat) (cores : List Nat) : World :=
  dieAll (fun _ x => x.withRuns { t with gid := gid }) (dieAll (fun _ x => x.reslotted t.gid gid) w (List.range 8)) (diesOf cores)
/-- All that a gang is given at its placement. -/
def World.handed (w : World) (t : Task) (gid vec : Nat) (cores hs : List Nat) : World :=
  holdGroups { t with gid := gid } (contributions t.image cores)
    (dieAll (fun _ x => x.freshArray (some gid))
      (placeCores w gid (contributions t.image cores) vec hs (w.handedDies t gid cores) (cores.zip t.image.members) 0)
      (diesOf (cores.filter isMx))) t.image.groups

section
variable {w : World} {t : Task} {gid vec : Nat} {cores hs : List Nat}

theorem handedDies_frame : w.handedDies t gid cores = { w with dies := (w.handedDies t gid cores).dies } := by
  unfold World.handedDies
  rw [dieAll_frame, dieAll_frame]
theorem handed_tasks : (w.handed t gid vec cores hs).hub.tasks = w.hub.tasks := by
  unfold World.handed
  rw [holdGroups_frame, dieAll_frame, placeCores_frame, handedDies_frame]
theorem handed_gang (hlen : cores.length = t.image.members.length) {k : Nat} (hk : k ∈ cores) :
    ((w.handed t gid vec cores hs).core k).gang = some gid := by
  have hzip : (cores.zip t.image.members).map Prod.fst = cores := List.map_fst_zip hlen.le
  have hplaced := placeCores_gang (w0 := w) (gid := gid) (vec := vec) (more := contributions t.image cores) (hs := hs)
    (w.handedDies t gid cores) 0 (.inl (hzip.symm ▸ hk))
  unfold World.handed
  rw [holdGroups_frame, dieAll_frame]
  exact hplaced
/-- A field that a cleared array does not touch is as the dies had it before. -/
theorem handed_die {α : Type} {p : Die → α} (hp : ∀ d : Die, p (d.freshArray (some gid)) = p d) (d : Nat) :
    p ((w.handed t gid vec cores hs).die d) = p ((w.handedDies t gid cores).die d) := by
  have hfresh := dieAll_kept (p := p) (f := fun _ x => x.freshArray (some gid)) (fun _ => hp) (diesOf (cores.filter isMx))
    (placeCores w gid (contributions t.image cores) vec hs (w.handedDies t gid cores) (cores.zip t.image.members) 0) d
  unfold World.handed
  rw [holdGroups_frame]
  refine hfresh.trans ?_
  rw [placeCores_frame]
  rfl
theorem handed_rlt {d : Nat} (hd : d ∈ diesOf cores) :
    ((w.handed t gid vec cores hs).die d).rlt = (w.die d).rlt ++ t.runs.map (fun e => { e with gang := gid }) := by
  have hkept := dieAll_kept (p := Die.rlt) (f := fun _ x => x.reslotted t.gid gid) (fun _ _ => rfl) (List.range 8) w d
  rw [handed_die (p := Die.rlt) (fun _ => rfl), World.handedDies, dieAll_die (diesOf_nodup cores), if_pos hd, Die.withRuns, hkept]
theorem handed_wheels {d : Nat} (hd : d < 8) :
    ((w.handed t gid vec cores hs).die d).wheelOut = reslot t.gid gid (w.die d).wheelOut ∧
      ((w.handed t gid vec cores hs).die d).wheelIn = reslot t.gid gid (w.die d).wheelIn := by
  have hslot : (dieAll (fun _ x => x.reslotted t.gid gid) w (List.range 8)).die d = (w.die d).reslotted t.gid gid := by
    rw [dieAll_die List.nodup_range, if_pos (List.mem_range.mpr hd)]
  have hout := dieAll_kept (p := Die.wheelOut) (f := fun _ x => x.withRuns { t with gid := gid }) (fun _ _ => rfl) (diesOf cores)
    (dieAll (fun _ x => x.reslotted t.gid gid) w (List.range 8)) d
  have hin := dieAll_kept (p := Die.wheelIn) (f := fun _ x => x.withRuns { t with gid := gid }) (fun _ _ => rfl) (diesOf cores)
    (dieAll (fun _ x => x.reslotted t.gid gid) w (List.range 8)) d
  rw [handed_die (p := Die.wheelOut) (fun _ => rfl), handed_die (p := Die.wheelIn) (fun _ => rfl), World.handedDies, hout, hin, hslot]
  exact ⟨rfl, rfl⟩
end

/-! ## Placement (R266) -/

section
variable {s : State} {t : Task} {id gid : Nat} {cores : List Nat}

theorem placement_exec (htask : s.w.taskBy id = some t) (hst : t.stage = .resident) :
    exec (.placement id) s = done s (placementStep s t) :=
  congrArg (done s) (atStage_eq htask hst _)
/-- Without a handler image a task is given all that its gang needs. -/
theorem place_handed (hw : s.handlerWords t.ten = []) : ∃ vec hs, s.place t gid cores =
    { w := (s.w.handed t gid vec cores hs).setTask { t with gid := gid, stage := .placed, cores := cores }, out := readyCores cores } := by
  refine ⟨field 344 333 (s.w.tenRec t.ten), ((s.w.handlerFill t.ten false).verify 0 []).starts, ?_⟩
  have hnone : s.w.officeReqs t.ten [] = s.w := rfl
  unfold State.place World.handed World.handedDies readyCores
  dsimp only
  rw [hw, if_pos (by rw [List.isEmpty_nil, Bool.or_true]), if_pos List.isEmpty_nil, hnone]
/-- Where cores and groups are in order, the gang is placed when the lease tables have room and a number is free. -/
theorem placementStep_fits (hcores : s.w.placing t [] = some cores) (hcode : ∀ g ∈ t.image.groups, groupCode s.w t.ten g = 0)
    (hover : s.w.groupsOver t cores = false) : placementStep s t = if s.w.roomFor t (diesOf cores) then
    (s.w.freshGang.map fun gid => s.place t gid cores).getD (only s.w) else only s.w := by
  have hzero : firstCode (t.image.groups.map (groupCode s.w t.ten)) = 0 := firstCode_zero (by simpa using hcode)
  rw [placementStep, hcores]
  dsimp only
  rw [if_neg (by rw [hzero]; decide), if_neg (by rw [hover]; decide)]
  generalize s.w.freshGang = o
  cases o <;> rfl
section
variable (htask : s.w.taskBy id = some t) (hst : t.stage = .resident)
include htask hst

theorem placement_noCores (hnone : s.w.placing t [] = none) :
    exec (.placement id) s = done s (only (if neverPlaced t then s.w.failLaunch t 13 0 0 else s.w)) := by
  rw [placement_exec htask hst, placementStep, hnone]
theorem placement_fails (hnone : s.w.placing t [] = none) (hnever : neverPlaced t = true) :
    Fails (exec (.placement id) s) s t 13 0 :=
  fails_of (Counted.refl _) (mem_of_taskBy htask) ((placement_noCores htask hst hnone).trans (by rw [if_pos hnever]))
theorem placement_waits (hnone : s.w.placing t [] = none) (hnever : neverPlaced t = false) : exec (.placement id) s = .next s := by
  rw [placement_noCores htask hst hnone, if_neg (by rw [hnever]; decide)]
  rfl

section
variable (hcores : s.w.placing t [] = some cores) (hcode : ∀ g ∈ t.image.groups, groupCode s.w t.ten g = 0)
  (hover : s.w.groupsOver t cores = false)
include hcores hcode hover

theorem placement_holds (h : s.w.roomFor t (diesOf cores) = false ∨ s.w.freshGang = none) : exec (.placement id) s = .next s := by
  have hstep : placementStep s t = only s.w := by
    rw [placementStep_fits hcores hcode hover]
    rcases h with h | h
    · exact if_neg (by rw [h]; decide)
    · rw [h]
      exact ite_self _
  rw [placement_exec htask hst, hstep]
  rfl
theorem placement_places (hroom : s.w.roomFor t (diesOf cores) = true) (hgid : s.w.freshGang = some gid)
    (hw : s.handlerWords t.ten = []) : Stands (exec (.placement id) s) t .placed (fun y u => y.cores = cores ∧ y.gid = gid ∧
      (∀ k ∈ cores, (u.w.core k).gang = some gid ∧ ∀ i < 2 ^ 21, u.mem.byte .spd (k * 2 ^ 21 + i) = 0) ∧
      (∀ d ∈ diesOf cores, (u.w.die d).rlt = (s.w.die d).rlt ++ t.runs.map (fun e => { e with gang := gid })) ∧
      (∀ d < 8, (u.w.die d).wheelOut = reslot t.gid gid (s.w.die d).wheelOut ∧
        (u.w.die d).wheelIn = reslot t.gid gid (s.w.die d).wheelIn) ∧
      ∀ sp a, sp ≠ .spd → sp ≠ .mortar → u.mem.byte sp a = s.mem.byte sp a) := by
  obtain ⟨vec, hs, hplace⟩ := place_handed (gid := gid) (cores := cores) hw
  have hstep : placementStep s t = s.place t gid cores := by
    rw [placementStep_fits hcores hcode hover, if_pos hroom, hgid]
    rfl
  have hlen : cores.length = t.image.members.length := (placeOn_length hcores).trans (Nat.zero_add _)
  have hmem : t ∈ (s.w.handed t gid vec cores hs).hub.tasks := by
    rw [handed_tasks]
    exact mem_of_taskBy htask
  exact ⟨_, { t with gid := gid, stage := .placed, cores := cores }, (placement_exec htask hst).trans (congrArg (done s) (hstep.trans hplace)),
    mem_setTask hmem rfl, rfl, rfl, rfl, rfl, fun k hk => ⟨handed_gang hlen hk, fun i hi => readyCores_spd hk s.mem hi⟩,
    fun d hd => handed_rlt hd, fun d hd => handed_wheels hd, fun sp a h1 h2 => readyCores_other h1 h2 cores s.mem a⟩
end
end
end
end Sys2Proof.Machine
end

/-! SUPPORT. The launch fill and dispatch (R78, R101, R228, R267). -/
section
namespace Sys2Proof.Machine
open Sys2Proof

/-! ## The launch fill (R228, R233) -/

section
variable {s : State} {t : Task} {id k : Nat} {m : MemImg}

theorem launchFill_fails (htask : s.w.taskBy id = some t) (hst : t.stage = .placed) (hc : t.imageCode ≠ 0) :
    Fails (exec (.launchFill id) s) s t 12 t.imageCode := by
  have hact : fillAct id s = only (s.w.failLaunch t 12 t.imageCode 0) := by
    rw [fillAct, atStage_eq htask hst]
    exact if_pos (bne_iff_ne.mpr hc)
  exact fails_of (Counted.refl _) (mem_of_taskBy htask) (congrArg (done s) hact)
/-- The fill of one member without regions writes its words and marks where its bundles start. -/
theorem fillAct_words (htask : s.w.taskBy id = some t) (hst : t.stage = .placed) (hk : t.cores = [k]) (hm : t.image.members = [m])
    (hr : m.regions = []) (ho : t.image.overlays = []) (hc : t.imageCode = 0) : fillAct id s =
      { w := (s.w.modCore k (fun c => { c with startMap := (t.verdict k m).starts })).setTask { t with stage := .filled },
        out := [.bytes .isp (k * 2 ^ 18) (bytesOf m.words)] } := by
  have hat : ispAt k 0 = k * 2 ^ 18 := by rw [ispAt, Nat.zero_mod, Nat.mul_zero, Nat.add_zero]
  rw [fillAct, atStage_eq htask hst]
  dsimp only
  rw [if_neg (by rw [hc]; decide), hk, hm, ho]
  simp only [List.zip_cons_cons, List.zip_nil_left, List.map_cons, List.map_nil, List.append_nil, List.singleton_append,
    State.inOrder, State.andThen, State.fillMember, hr, List.flatten_nil, only_w, only_out, commit_w, hat]
theorem launchFill_fills (htask : s.w.taskBy id = some t) (hst : t.stage = .placed) (hk : t.cores = [k]) (hm : t.image.members = [m])
    (hr : m.regions = []) (ho : t.image.overlays = []) (hc : t.imageCode = 0) :
    Stands (exec (.launchFill id) s) t .filled (fun _ u =>
      (∀ i b, (bytesOf m.words)[i]? = some b → u.mem.byte .isp (k * 2 ^ 18 + i) = b) ∧
      SameBut s.mem u.mem [(.isp, k * 2 ^ 18, (bytesOf m.words).length)]) := by
  refine ⟨_, { t with stage := .filled }, congrArg (done s) (fillAct_words htask hst hk hm hr ho hc),
    mem_setTask (mem_of_taskBy htask) rfl, rfl, rfl, fun i b hb => ?_, ?_⟩
  · obtain ⟨hi, rfl⟩ := List.getElem?_eq_some_iff.mp hb
    simp only [commit_mem, applyAll_cons, applyAll_nil, Mems.apply, Mems.byte, cells_setCells_same]
    exact cellAt_writeBytes_in hi
  · rw [commit_mem, applyAll_cons, applyAll_nil]
    exact sameBut_written s.mem .isp _ _
end

/-! ## The registers at task start (R101) -/

theorem foldl_fset_other {l : List (Nat × Nat)} {n : Nat} (h : n ∉ l.map (·.1)) (m : FMap Word) :
    fget (l.foldl (fun m e => fset m 0 e.1 (BitVec.ofNat 64 e.2)) m) 0 n = fget m 0 n := by
  induction l generalizing m with
  | nil => rfl
  | cons e r ih =>
    rw [List.map_cons, List.mem_cons, not_or] at h
    rw [List.foldl_cons, ih h.2, fget_fset_other _ _ _ _ _ h.1]
theorem foldl_fset_mem {l : List (Nat × Nat)} (hl : (l.map (·.1)).Nodup) {e : Nat × Nat} (he : e ∈ l) (m : FMap Word) :
    fget (l.foldl (fun m e => fset m 0 e.1 (BitVec.ofNat 64 e.2)) m) 0 e.1 = BitVec.ofNat 64 e.2 := by
  induction l generalizing m with
  | nil => cases he
  | cons x r ih =>
    obtain ⟨hx, hr⟩ := List.nodup_cons.mp hl
    rw [List.foldl_cons]
    rcases List.mem_cons.mp he with rfl | he
    · rw [foldl_fset_other hx, fget_fset_same]
    · exact ih hr he _

section
variable (t : Task) (j : Nat)

/-- The registers that a member starts with: arguments, its number, the count. -/
def Task.startList : List (Nat × Nat) := (List.range 15).map (fun k => (k + 1, t.arg k)) ++ [(16, j), (17, t.nmem)]
theorem startRegs_eq : t.startRegs j = (t.startList j).foldl (fun m e => fset m 0 e.1 (BitVec.ofNat 64 e.2)) [] := rfl
theorem startList_keys : (t.startList j).map (·.1) = (List.range 17).map (· + 1) := rfl
theorem startRegs_listed {e : Nat × Nat} (he : e ∈ t.startList j) : fget (t.startRegs j) 0 e.1 = BitVec.ofNat 64 e.2 := by
  rw [startRegs_eq]
  refine foldl_fset_mem ?_ he []
  rw [startList_keys]
  decide
theorem startRegs_arg {i : Nat} (hi : i < 15) : fget (t.startRegs j) 0 (i + 1) = BitVec.ofNat 64 (t.arg i) :=
  startRegs_listed t j (e := (i + 1, t.arg i)) (List.mem_append_left _ (List.mem_map.mpr ⟨i, List.mem_range.mpr hi, rfl⟩))
theorem startRegs_member : fget (t.startRegs j) 0 16 = BitVec.ofNat 64 j :=
  startRegs_listed t j (e := (16, j)) (List.mem_append_right _ (by simp))
theorem startRegs_count : fget (t.startRegs j) 0 17 = BitVec.ofNat 64 t.nmem :=
  startRegs_listed t j (e := (17, t.nmem)) (List.mem_append_right _ (by simp))
theorem startRegs_rest {i : Nat} (hi : 17 < i) : fget (t.startRegs j) 0 i = 0 := by
  rw [startRegs_eq, foldl_fset_other, fget_nil]
  rw [startList_keys, List.mem_map]
  rintro ⟨x, hx, rfl⟩
  have := List.mem_range.mp hx
  omega
end

/-! ## Dispatch (R267) -/

/-- What a member has of its program's state at task start. -/
def Task.startCtx (t : Task) (j : Nat) : CoreCtx := { CoreCtx.zero with sregs := t.startRegs j }
theorem startCores_frame (t : Task) (l : List Nat) (w : World) (i : Nat) :
    startCores t w l i = { w with cores := (startCores t w l i).cores } := by
  induction l generalizing w i with
  | nil => rfl
  | cons k r ih => rw [startCores, ih]; rfl
theorem startCores_other {t : Task} {l : List Nat} {k : Nat} (h : k ∉ l) (w : World) (i : Nat) :
    (startCores t w l i).core k = w.core k := by
  induction l generalizing w i with
  | nil => rfl
  | cons x r ih =>
    rw [List.mem_cons, not_or] at h
    rw [startCores, ih h.2, core_modCore_other _ _ _ _ h.1]
theorem startCores_ctx {t : Task} {l : List Nat} (hl : l.Nodup) {j k : Nat} (h : l[j]? = some k) (w : World) (i : Nat) :
    ((startCores t w l i).core k).ctx = t.startCtx (i + j) := by
  induction l generalizing w i j with
  | nil => cases h
  | cons x r ih =>
    obtain ⟨hx, hr⟩ := List.nodup_cons.mp hl
    rw [startCores]
    cases j with
    | zero =>
      rw [List.getElem?_cons_zero, Option.some.injEq] at h
      subst h
      rw [startCores_other hx, core_modCore_same]
      rfl
    | succ j =>
      rw [List.getElem?_cons_succ] at h
      rw [ih hr h, Nat.add_right_comm, Nat.add_assoc]
/-- A task of the office is still there after half-rate issue has been chosen, degraded or not. -/
theorem mem_rehalf_degr {w : World} {t : Task} (h : t ∈ w.hub.tasks) (gid : Nat) :
    ∃ d, { t with degr := d } ∈ (w.rehalf gid).hub.tasks := by
  have hmem := List.mem_map_of_mem (f := fun x => if isTaskOf (w.gang gid) x &&
    (w.gang gid).members.any (fun k => (w.core k).halfRate) then { x with degr := true } else x) h
  split at hmem
  · exact ⟨true, hmem⟩
  · exact ⟨t.degr, hmem⟩

section
variable {w : World} {t : Task}

/-- The gang has its cores' registers and its task runs; half-rate issue and the restart gap are still to come. -/
def World.started (w : World) (t : Task) : World :=
  (startCores t (w.setGang t.gid (w.newGang t)) t.cores 0).setTask
    { t with stage := .run, ran := true, wstart := w.wtc, useStart := w.now, used := unitsOf t.cores }
theorem start_eq : w.start t = ((w.started t).rehalf t.gid).restartGap t.gid := rfl
theorem started_gang : (w.started t).gang t.gid = w.newGang t := by
  unfold World.started
  rw [startCores_frame]
  exact gang_setGang_same ..
theorem started_now : (w.started t).now = w.now := by
  unfold World.started
  rw [startCores_frame]
  rfl
theorem started_ctx (hn : t.cores.Nodup) {j k : Nat} (h : t.cores[j]? = some k) : ((w.started t).core k).ctx = t.startCtx j := by
  have hctx := startCores_ctx (t := t) hn h (w.setGang t.gid (w.newGang t)) 0
  rw [Nat.zero_add] at hctx
  exact hctx
theorem mem_started (h : t ∈ w.hub.tasks) :
    { t with stage := .run, ran := true, wstart := w.wtc, useStart := w.now, used := unitsOf t.cores } ∈ (w.started t).hub.tasks := by
  refine mem_setTask (t := t) ?_ rfl
  rw [startCores_frame]
  exact h
/-- The gang starts after a restart gap, at the clock that it then has. -/
theorem start_gang : (w.start t).gang t.gid = { w.newGang t with
    half := ((w.start t).gang t.gid).half, khz := ((w.start t).gang t.gid).khz, why := ((w.start t).gang t.gid).why,
    stretch := ((w.start t).gang t.gid).stretch, nextAt := w.now + 8 * ((w.start t).gang t.gid).period } := by
  have hgap := restartGap_gang ((w.started t).rehalf t.gid) t.gid
  have hnow : ((w.started t).rehalf t.gid).now = w.now := started_now
  rw [hnow, rehalf_gang, started_gang, ← start_eq] at hgap
  generalize (w.start t).gang t.gid = g at hgap ⊢
  generalize (((w.started t).rehalf t.gid).gang t.gid).half = h at hgap
  have hmax : max (w.newGang t).nextAt w.now = w.now := max_self w.now
  dsimp only at hgap
  rw [hmax] at hgap
  have hh : g.half = h := congrArg Gang.half hgap
  rwa [← hh] at hgap
theorem start_ctx (hn : t.cores.Nodup) {j k : Nat} (h : t.cores[j]? = some k) : let c := ((w.start t).core k).ctx
    c = { t.startCtx j with evc := c.evc, evcsel := c.evcsel } := by
  have hgap := (restartGap_core ((w.started t).rehalf t.gid) t.gid k).ctx
  rwa [rehalf_core, started_ctx hn h, ← start_eq] at hgap
theorem mem_start (h : t ∈ w.hub.tasks) : ∃ d, { t with
    stage := .run, ran := true, wstart := w.wtc, useStart := w.now, used := unitsOf t.cores, degr := d } ∈ (w.start t).hub.tasks := by
  rw [start_eq, restartGap_hub]
  exact mem_rehalf_degr (mem_started h) t.gid
end

section
variable {s : State} {t : Task} {id : Nat}

theorem dispatch_starts (htask : s.w.taskBy id = some t) (hst : t.stage = .filled) (hn : t.cores.Nodup) :
    Stands (exec (.dispatch id) s) t .run (fun y u => u.mem = s.mem ∧ y.wstart = s.w.wtc ∧
      (u.w.gang t.gid).live = true ∧ (u.w.gang t.gid).ttc = 0 ∧ (u.w.gang t.gid).stat = .running ∧
      (u.w.gang t.gid).members = t.cores ∧ (u.w.gang t.gid).tenant = t.ten ∧ (u.w.gang t.gid).task = t.no ∧
      (u.w.gang t.gid).nextAt = s.w.now + 8 * (u.w.gang t.gid).period ∧
      ∀ j k, t.cores[j]? = some k → (∀ i < 15, sreg (u.w.core k) false (i + 1) = BitVec.ofNat 64 (t.arg i)) ∧
        sreg (u.w.core k) false 16 = BitVec.ofNat 64 j ∧ sreg (u.w.core k) false 17 = BitVec.ofNat 64 t.nmem ∧
        (∀ i, 17 < i → sreg (u.w.core k) false i = 0) ∧ (u.w.core k).ctx.seq.pc = 0 ∧ (u.w.core k).ctx.fpctrl = 31) := by
  have hexec : exec (.dispatch id) s = .next { s with w := s.w.start t } := congrArg (done s) (atStage_eq htask hst _)
  obtain ⟨d, hmem⟩ := mem_start (mem_of_taskBy htask)
  have hgang := start_gang (w := s.w) (t := t)
  have hctx (j k : Nat) (h : t.cores[j]? = some k) := start_ctx (w := s.w) hn h
  generalize s.w.start t = v at hexec hmem hgang hctx
  refine ⟨_, _, hexec, hmem, rfl, rfl, rfl, rfl, by rw [hgang]; rfl, by rw [hgang]; rfl, by rw [hgang]; rfl, by rw [hgang]; rfl,
    by rw [hgang]; rfl, by rw [hgang]; rfl, congrArg Gang.nextAt hgang, fun j k h => ?_⟩
  have hsreg (i : Nat) (hi : 0 < i) : sreg (v.core k) false i = fget (t.startRegs j) 0 i := by
    rw [sreg, if_neg (by simpa using hi.ne'), if_neg Bool.false_ne_true, hctx j k h]
    rfl
  refine ⟨fun i hi => ?_, ?_, ?_, fun i hi => ?_, ?_, ?_⟩
  · exact (hsreg _ (Nat.succ_pos i)).trans (startRegs_arg t j hi)
  · exact (hsreg 16 (by decide)).trans (startRegs_member t j)
  · exact (hsreg 17 (by decide)).trans (startRegs_count t j)
  · exact (hsreg i (by omega)).trans (startRegs_rest t j hi)
  · rw [hctx j k h]
    rfl
  · rw [hctx j k h]
    rfl
end
end Sys2Proof.Machine
end

/-! SUPPORT. The sorting office's rules together settle O46. -/
section
namespace Sys2Proof.Machine
open Sys2Proof

/-- Settles O46: each clause is the rule of its instruction above. -/
theorem sortingOffice : Obligations.SortingOffice := by
  unfold Obligations.SortingOffice
  intro s t id gid ps runs cores r next stands fails is im lo len resident leased quota open_ fits ready moved
  refine ⟨admitTask_idle, admitTask_admits, priorityAging_marks, ?_, ?_, ?_, ?_, ?_, ?_, fun x => hypervisorRetry_repairs,
    fun x => hypervisorDecline_fails, ?_, ?_, ?_, ?_, ?_, ?_, ?_⟩
  · rintro ⟨⟨⟨htask, hst⟩, hwait⟩, hp, hf, hr⟩ hc hq hs
    exact residency_grants htask hst hwait hp hf hr hc hq hs
  · rintro ⟨⟨htask, hst⟩, hwait⟩ hp hf
    exact residency_misfits htask hst hwait hp hf
  · rintro ⟨⟨⟨htask, hst⟩, hwait⟩, hp, hf, hr⟩ hc
    exact residency_code htask hst hwait hp hf hr hc
  · rintro ⟨⟨⟨htask, hst⟩, hwait⟩, hp, hf, hr⟩ hc hw
    exact residency_holds htask hst hwait hp hf hr hc hw
  · rintro c info ⟨⟨htask, hst⟩, hwait⟩ hp
    exact residency_fails htask hst hwait hp
  · rintro ia va ⟨⟨htask, hst⟩, hwait⟩ hp
    exact residency_waits htask hst hwait hp
  · rintro ⟨⟨⟨htask, hst⟩, hcores, hcode, hover⟩, hroom, hgid⟩ hw
    obtain ⟨u, y, hexec, hmem, horder, hstage, hy, hg, hgang, hrlt, hwheels, hmemory⟩ :=
      placement_places htask hst hcores hcode hover hroom hgid hw
    refine ⟨u, y, hexec, hmem, horder, hstage, hy, hg, hgang, hrlt, fun d hd => ?_, hmemory⟩
    obtain ⟨hout, hin⟩ := hwheels d hd
    rw [hout, hin]
    exact ⟨fun n hn => fget_reslot hn, fun n hn => fget_reslot hn⟩
  · rintro ⟨⟨htask, hst⟩, hcores, hcode, hover⟩ h
    exact placement_holds htask hst hcores hcode hover h
  · rintro ⟨htask, hst⟩ hnone hnever
    exact placement_fails htask hst hnone hnever
  · rintro ⟨htask, hst⟩ hnone hnever
    exact placement_waits htask hst hnone hnever
  · rintro k m ⟨htask, hst⟩ hk hm hr ho hc
    exact launchFill_fills htask hst hk hm hr ho hc
  · rintro ⟨htask, hst⟩ hc
    exact launchFill_fails htask hst hc
  · rintro ⟨htask, hst⟩ hn
    exact dispatch_starts htask hst hn
end Sys2Proof.Machine
end

/-! SUPPORT. The transfers, PWIN, HALT, TRAP and BRSWAP (R84 to R89, R95, R98, R232, R337) settle O1, O2 and O4. -/
section
namespace Sys2Proof.Machine
open Sys2Proof

/-! ## Where a slot's transfer leads (R67, R84, R86, R88) -/

section
variable (s : State)

/-- Where a direct branch that is taken leads. -/
def State.branchSeq (off : Int) : Seq :=
  arrival s.mem s.me s.w.cur.core s.w.cur.sup s.w.cur.pc (s.target off) 1 false
/-- Where an indirect transfer by scalar `n` leads. -/
def State.indirectSeq (n : Nat) : Seq :=
  arrival s.mem s.me s.w.cur.core s.w.cur.sup s.w.cur.pc ((s.w.rdS n).toNat % 65536) 1 true
/-- Where a slot leads that goes on to the bundle after. -/
def State.onSeq : Seq := fallSeq s.mem s.me s.w.cur.core s.w.cur.sup s.w.cur.pc s.w.cur.nxt

theorem withWorld_branch_taken (w : World) (hw : w.cur = s.w.cur) (off : Int) :
    s.withWorld (s.branch w true off) = (s.withWorld w).goesTo (s.branchSeq off) := by
  rw [State.branch, if_pos rfl, State.jump, ← hw, withWorld_setSeq, hw]
  rfl
theorem withWorld_branch_falls (w : World) (hw : w.cur = s.w.cur) (off : Int) :
    s.withWorld (s.branch w false off) = (s.withWorld w).goesTo s.onSeq :=
  withWorld_fall s w hw
theorem withWorld_indirect (w : World) (hw : w.cur = s.w.cur) (n : Nat) :
    s.withWorld (s.indirect w n) = (s.withWorld w).goesTo (s.indirectSeq n) := by
  rw [State.indirect, State.jump, ← hw, withWorld_setSeq, hw]
  rfl
/-- The return address falls due a cycle later (R89). -/
theorem withWorld_link : s.withWorld s.w.link = s.due [(1, s.scalar 63 (BitVec.ofNat 64 s.w.cur.nxt))] := rfl
end

/-! ## The forms -/

section
variable (s : State) (off : Int) {c : BCond} {m : BTest} {a p : Nat}

theorem exec_br : exec (.br off) s = .next (s.goesTo (s.branchSeq off)) :=
  congrArg Host.Outcome.next (withWorld_branch_taken s s.w rfl off)
theorem exec_bc_taken (h : bcondHolds c (s.w.rdS a).toInt = true) :
    exec (.bc c a off) s = .next (s.goesTo (s.branchSeq off)) :=
  (done_only_eq (by rw [h])).trans (congrArg _ (withWorld_branch_taken s s.w rfl off))
theorem exec_bc_falls (h : bcondHolds c (s.w.rdS a).toInt = false) :
    exec (.bc c a off) s = .next (s.goesTo s.onSeq) :=
  (done_only_eq (by rw [h])).trans (congrArg _ (withWorld_branch_falls s s.w rfl off))
theorem exec_bp_taken (h : btestHolds m (s.w.rdP p) = true) :
    exec (.bp m p off) s = .next (s.goesTo (s.branchSeq off)) :=
  (done_only_eq (by rw [h])).trans (congrArg _ (withWorld_branch_taken s s.w rfl off))
theorem exec_bp_falls (h : btestHolds m (s.w.rdP p) = false) :
    exec (.bp m p off) s = .next (s.goesTo s.onSeq) :=
  (done_only_eq (by rw [h])).trans (congrArg _ (withWorld_branch_falls s s.w rfl off))
theorem exec_call : exec (.call off) s =
    .next ((s.due [(1, s.scalar 63 (BitVec.ofNat 64 s.w.cur.nxt))]).goesTo (s.branchSeq off)) :=
  congrArg Host.Outcome.next (withWorld_branch_taken s s.w.link rfl off)
theorem exec_bri : exec (.bri a) s = .next (s.goesTo (s.indirectSeq a)) :=
  congrArg Host.Outcome.next (withWorld_indirect s s.w rfl a)
theorem exec_ret : exec .ret s = .next (s.goesTo (s.indirectSeq 63)) :=
  congrArg Host.Outcome.next (withWorld_indirect s s.w rfl 63)
theorem exec_calli : exec (.calli a) s =
    .next ((s.due [(1, s.scalar 63 (BitVec.ofNat 64 s.w.cur.nxt))]).goesTo (s.indirectSeq a)) :=
  congrArg Host.Outcome.next (withWorld_indirect s s.w.link rfl a)
end

/-! ## The tests of R87 -/

/-- What a condition of BC says of the signed value of its scalar. -/
def BCondSays (x : Int) : BCond → Prop
  | .eq => x = 0
  | .ne => x ≠ 0
  | .lt => x < 0
  | .ge => 0 ≤ x
  | .gt => 0 < x
  | .le => x ≤ 0
theorem bcondHolds_iff (c : BCond) (x : Int) : bcondHolds c x = true ↔ BCondSays x c := by
  cases c <;> simp [bcondHolds, BCondSays]

theorem eq_zero_iff_getLsbD {n : Nat} (p : BitVec n) : p = 0 ↔ ∀ i < n, p.getLsbD i = false :=
  ⟨fun h i _ => by simp [h], fun h => BitVec.eq_of_getLsbD_eq fun i hi => by simpa using h i hi⟩
theorem eq_allOnes_iff_getLsbD {n : Nat} (p : BitVec n) : p = BitVec.allOnes n ↔ ∀ i < n, p.getLsbD i = true :=
  ⟨fun h i hi => by rw [h, BitVec.getLsbD_allOnes, decide_eq_true hi],
    fun h => BitVec.eq_of_getLsbD_eq fun i hi => by rw [h i hi, BitVec.getLsbD_allOnes, decide_eq_true hi]⟩
/-- What a test of BP says of all 1024 bits of its predicate. -/
def BTestSays (p : Pred) : BTest → Prop
  | .any => ∃ i < 1024, p.getLsbD i = true
  | .all => ∀ i < 1024, p.getLsbD i = true
  | .none => ∀ i < 1024, p.getLsbD i = false
  | .nall => ∃ i < 1024, p.getLsbD i = false
theorem btestHolds_iff (m : BTest) (p : Pred) : btestHolds m p = true ↔ BTestSays p m := by
  have hzero := eq_zero_iff_getLsbD p
  have hones := eq_allOnes_iff_getLsbD p
  cases m with
  | any => simpa [btestHolds, BTestSays] using not_congr hzero
  | all => simpa [btestHolds, BTestSays] using hones
  | none => simpa [btestHolds, BTestSays] using hzero
  | nall => simpa [btestHolds, BTestSays] using not_congr hones

/-- `p0` passes the test of all and fails that of none (R87, R136). -/
theorem btestHolds_all_p0 (w : World) : btestHolds .all (w.rdP 0) = true := beq_self_eq_true _
theorem btestHolds_none_p0 (w : World) : btestHolds .none (w.rdP 0) = false := by
  refine Bool.eq_false_iff.mpr fun h => ?_
  have hbit : (w.rdP 0).getLsbD 0 = false := (btestHolds_iff .none _).mp h 0 (by decide)
  rw [rdP_zero, BitVec.getLsbD_allOnes] at hbit
  exact absurd hbit (by decide)

/-- The codes of the conditions, in order. -/
theorem bCondOf_eq_getElem? (i : Nat) : bCondOf i = [BCond.eq, .ne, .lt, .ge, .gt, .le][i]? := by
  match i with
  | 0 | 1 | 2 | 3 | 4 | 5 => rfl
  | _ + 6 => rfl
/-- The codes of the tests, in order. -/
theorem bTestOf_of_getElem? {i : Nat} {m : BTest} (h : [BTest.any, .all, .none, .nall][i]? = some m) : bTestOf i = m := by
  match i with
  | 0 | 1 | 2 | 3 => exact Option.some.inj h
  | _ + 4 => cases h
theorem decodeC_bc {w : CWord} {c : BCond} (ho : w.op = 2) (hc : bCondOf (w.lo / 2 ^ 17 % 8) = some c) :
    decodeC w = .ok (.bc c (w.lo / 2 ^ 20 % 64) (signed 17 w.lo)) := by
  obtain ⟨op, lo⟩ := w
  subst ho
  exact judgeWith_reads hc passed_nil rfl
theorem decodeC_bp {w : CWord} (ho : w.op = 3) (hz : w.lo / 2 ^ 17 % 8 = 0) :
    decodeC w = .ok (.bp (bTestOf (w.lo / 2 ^ 20 % 4)) (w.lo / 2 ^ 22 % 16) (signed 17 w.lo)) := by
  obtain ⟨op, lo⟩ := w
  subst ho
  have hz : field 19 17 lo = 0 := hz
  exact judge_reads (by simp [hz]) rfl

/-- Settles O1: each form by its rule, the conditions and the tests by what they say of their operand. -/
theorem directBranches : Obligations.DirectBranches := by
  unfold Obligations.DirectBranches
  intro s off c a m p t taken on x holds tests
  have htaken : s.branchSeq off = taken := arrivalBy_badDirect ..
  have hholds : bcondHolds c x = true ↔ holds := by
    refine (bcondHolds_iff c x).trans (iff_of_eq ?_)
    cases c <;> rfl
  have htests : btestHolds m (s.w.rdP p) = true ↔ tests := by
    refine (btestHolds_iff m _).trans (iff_of_eq ?_)
    cases m <;> rfl
  rw [← htaken]
  refine ⟨exec_br s off, fun h => exec_bc_taken s off (hholds.mpr h), fun h => exec_bc_falls s off ?_,
    fun h => exec_bp_taken s off (htests.mpr h), fun h => exec_bp_falls s off ?_, exec_bp_taken s off (btestHolds_all_p0 _),
    exec_bp_falls s off (btestHolds_none_p0 _), exec_call s off, fun w i cnd ho hi hc => decodeC_bc ho ?_, fun w i md ho hz hi hm => ?_⟩
  · exact Bool.eq_false_iff.mpr (mt hholds.mp h)
  · exact Bool.eq_false_iff.mpr (mt htests.mp h)
  · rw [hi, bCondOf_eq_getElem?, hc]
  · rw [decodeC_bp ho hz, hi, bTestOf_of_getElem? hm]

/-! ## Indirect transfers -/

theorem exec_misdirectedTransfer {s : State} {info pc : Nat} (hb : (s.me.seq s.w.cur.sup).bad = some (info, pc))
    (hr : s.ready s.w.cur.core s.w.cur.sup = true) :
    exec .misdirectedTransfer s = .next (s.withWorld (s.w.takeTrap s.w.cur.core 1 info pc)) := by
  have hb : ((s.w.core s.w.cur.core).seq s.w.cur.sup).bad = some (info, pc) := hb
  have hact : misdirectedAct s = s.w.takeTrap s.w.cur.core 1 info pc := by
    simp only [misdirectedAct, hb, hr, if_true]
  exact done_only_eq hact

/-- Settles O2: the forms share their transfer, and its check is that of R67. -/
theorem indirectTransfers : Obligations.IndirectTransfers := by
  unfold Obligations.IndirectTransfers
  intro s a info pc dest
  have hdest : ∀ n, s.indirectSeq n = dest ((s.w.rdS n).toNat % 65536) := fun n => by
    change arrivalBy (badTarget s.me s.w.cur.sup ((s.w.rdS n).toNat % 65536)) .. = _
    dsimp only [dest, arrivalBy]
    cases badTarget s.me s.w.cur.sup ((s.w.rdS n).toNat % 65536) <;> rfl
  rw [← hdest, ← hdest]
  exact ⟨exec_bri s, exec_ret s, exec_calli s, exec_misdirectedTransfer⟩

/-! ## PWIN, HALT, TRAP and BRSWAP -/

section
variable (s : State) {a m k : Nat}

/-- All bits of each window predicate are the bit that the value names for it (R95). -/
theorem exec_pwin : exec (.pwin a m) s = .next ((s.due ((List.range 8).map (fun i =>
    (1, RegW.p (8 + i) (fullP (((s.w.rdS a).toNat ||| m).testBit i)) allP)))).goesTo s.onSeq) := by
  have hact : exec (.pwin a m) s = .next (s.withWorld (s.fall (s.w.setWindow 8
    ((List.range 8).map (fun i => fullP (bitOf i ((s.w.rdS a).toNat ||| m))))))) := rfl
  rw [hact, withWorld_fall _ _ (setWindow_cur ..), withWorld_setWindow s 8 (by simp), windowWrites_map]
  simp only [bitOf_testBit]
  rfl
theorem exec_halt_task (h : s.w.cur.sup = false) :
    exec .halt s = .next (s.withMe { s.me with ctx := { s.me.ctx with halted := true, loops := [] } }) :=
  done_only_eq (if_neg (by simp [h]))
theorem exec_halt_handler (h : s.w.cur.sup = true) : exec .halt s = .next (s.withWorld
    (s.w.endTask (s.w.gangOf s.w.cur.core) 2 s.me.cause s.me.trapinfo s.me.trappc s.w.cur.core)) :=
  done_only_eq (if_pos h)
/-- The event that TRAP leaves with its gang: it is due a cycle later, and its return point is the bundle after (R337). -/
def State.trapEvent (k : Nat) : EventTrap :=
  { due := s.w.cur.issue + 1, core := s.w.cur.core, issue := s.w.cur.issue, pos := 0, cause := 15, info := k, pc := some s.w.cur.nxt }
theorem exec_trap : exec (.trap k) s = .next ((s.withWorld (s.w.modGang (s.w.gangOf s.w.cur.core)
    (fun g => { g with events := g.events ++ [s.trapEvent k] }))).goesTo s.onSeq) :=
  congrArg Host.Outcome.next (withWorld_fall s _ rfl)

/-- The state of the idle half (R232) and its area (R48). -/
def CoreCtx.idleHalf (c : CoreCtx) : Nat := if !c.halfAct then c.halfB else c.halfA
def CoreCtx.idleArea (c : CoreCtx) : Nat := if !c.halfAct then 2 else 1
/-- The idle half is entered, and the half that was active is ARMED. -/
def CoreCtx.swapHalves (c : CoreCtx) : CoreCtx :=
  { c with halfAct := !c.halfAct, halfA := if !c.halfAct then 4 else 1, halfB := if !c.halfAct then 1 else 4 }
theorem idleHalf_eq (c : CoreCtx) : c.idleHalf = if c.halfAct then c.halfA else c.halfB := by
  cases h : c.halfAct <;> simp [CoreCtx.idleHalf, h]
theorem idleArea_eq (c : CoreCtx) : c.idleArea = if c.halfAct then 1 else 2 := by
  cases h : c.halfAct <;> simp [CoreCtx.idleArea, h]
theorem swapHalves_eq (c : CoreCtx) : c.swapHalves =
    if c.halfAct then { c with halfAct := false, halfA := 1, halfB := 4 } else { c with halfAct := true, halfA := 4, halfB := 1 } := by
  cases h : c.halfAct <;> simp [CoreCtx.swapHalves, h]
/-- The half that has been entered is open. -/
theorem areaOpen_swapHalves (c : Core) {t : Nat} (h : areaOf t = c.ctx.idleArea) :
    areaOpen { c with ctx := c.ctx.swapHalves } t = true := by
  cases hact : c.ctx.halfAct <;> simp [areaOpen, h, CoreCtx.idleArea, CoreCtx.swapHalves, hact]

theorem exec_brswap_traps (h : s.me.ctx.idleHalf ≠ 4) :
    exec (.brswap a) s = .next (s.withWorld (s.w.trap 1 ((s.w.rdS a).toNat % 65536 + 2 ^ 16))) :=
  done_only_eq (if_pos (Bool.or_eq_true_iff.mpr (.inl (bne_iff_ne.mpr h))))
/-- Into an ARMED half, at a bundle's start (R232). -/
theorem exec_brswap_swaps {t : Nat} (ht : (s.w.rdS a).toNat % 65536 = t) (h : s.me.ctx.idleHalf = 4)
    (ha : areaOf t = s.me.ctx.idleArea) (hstart : t ∈ s.me.startMap) (hsup : s.w.cur.sup = false) :
    exec (.brswap a) s = .next ((s.withMe { s.me with ctx := s.me.ctx.swapHalves }).goesTo
      { pc := t, owedT := 4, owedJ := max (headerAt s.mem s.w.cur.core s.w.cur.sup t).jb 2, beat := 0,
        last := s.w.cur.pc, bad := none }) := by
  subst ht
  have harmed : ¬(s.me.ctx.idleHalf != 4 || areaOf ((s.w.rdS a).toNat % 65536) != s.me.ctx.idleArea) = true := by simp [h, ha]
  have hmarked : ¬(!s.me.startMap.contains ((s.w.rdS a).toNat % 65536)) = true := by simpa using hstart
  have hgood : badTarget { s.me with ctx := s.me.ctx.swapHalves } s.w.cur.sup ((s.w.rdS a).toNat % 65536) = none := by
    simp [badTarget, hsup, areaOpen_swapHalves s.me ha, hstart]
  have hact : brswapAct a s = ((s.withMe { s.me with ctx := s.me.ctx.swapHalves }).goesTo (arrival s.mem
      (s.withMe { s.me with ctx := s.me.ctx.swapHalves }).me s.w.cur.core s.w.cur.sup s.w.cur.pc
      ((s.w.rdS a).toNat % 65536) 4 true)).w := (if_neg harmed).trans (if_neg hmarked)
  refine (done_only_eq hact).trans ?_
  rw [me_withMe, arrival, if_pos rfl, hgood]
  rfl
end

/-- Settles O4, form by form. -/
theorem windowHaltTrapSwap : Obligations.WindowHaltTrapSwap := by
  unfold Obligations.WindowHaltTrapSwap
  intro s a m k on v t ev g swapped there
  rw [← idleHalf_eq, ← idleArea_eq]
  refine ⟨exec_pwin s, exec_halt_task s, exec_halt_handler s, exec_trap s, fun h ha hstart hsup => ?_, exec_brswap_traps s⟩
  rw [exec_brswap_swaps s rfl h ha hstart hsup, swapHalves_eq]

end Sys2Proof.Machine
end

/-! SUPPORT. The collective waits (R94, R253, R254, R259, R261, R278, R284, R342) settle O30. -/
section
namespace Sys2Proof.Machine
open Sys2Proof

/-- No member of the gang has halted. -/
theorem someHalted_eq_false {w : World} :
    w.someHalted = false ↔ ∀ j ∈ (w.gangAt w.cur.core).members, (w.core j).ctx.halted = false := by
  simp [World.someHalted]

section
variable (s : State)

/-- The member's wait stands in the hold that follows the cycle, and nothing else has changed (R253, R254). -/
def State.waiting (x : Wait) : State :=
  s.withWorld (s.w.setGang (s.w.gangOf s.w.cur.core) ((s.w.gangAt s.w.cur.core).wait s.w.cur.core s.w.now x))

variable {s} {a : Nat} {b : Src}

theorem collective_of_whole (h : s.w.someHalted = false) (x : Wait) : s.withWorld (s.w.collective x) = s.waiting x := by
  rw [World.collective, h, if_neg Bool.false_ne_true]
  rfl

theorem exec_barwt (h : s.w.someHalted = false) : exec (.barwt a b) s =
    .next (s.waiting (.bar ((s.w.src b).toNat % 2 ^ 12) ((s.w.rdS a).toNat % 2 ^ 16))) :=
  congrArg Host.Outcome.next (collective_of_whole h _)
theorem exec_twait (h : s.w.someHalted = false) :
    exec (.twait b) s = .next (s.waiting (.task ((s.w.src b).toNat % 2 ^ 32))) :=
  congrArg Host.Outcome.next (collective_of_whole h _)
theorem exec_scangap (h : s.w.someHalted = false) : exec .scangap s = .next (s.waiting .scan) :=
  congrArg Host.Outcome.next (collective_of_whole h _)
theorem exec_sigwt {x : Acc} (h : s.w.someHalted = false)
    (hx : s.w.access ((s.w.rdS a).toNat / 8 * 8) 8 0 false = .ok x) :
    exec (.sigwt a b) s = .next (s.waiting (.sig x.pa x.home (s.w.srcZ b).toNat)) := by
  have hact : sigwtAct a b s = s.w.collective (.sig x.pa x.home (s.w.srcZ b).toNat) := by
    simp only [sigwtAct, h, aligned, hx, Bool.false_eq_true, if_false]
  exact (done_only_eq hact).trans (congrArg _ (collective_of_whole h _))
/-- FENCE.POD waits once what it covers has a posted time that has come (R284). -/
theorem exec_fence_pod (h : s.w.someHalted = false) (hp : (s.w.promise .pod).1 ≤ s.w.cur.issue) :
    exec (.fence .pod) s = .next (s.waiting (.pod s.w.cur.issue)) := by
  have hact : fenceAct .pod s = s.w.collective (.pod s.w.cur.issue) := by
    simp [fenceAct, h, Nat.not_lt.mpr hp]
  exact (done_only_eq hact).trans (congrArg _ (collective_of_whole h _))

theorem exec_twait_traps (h : s.w.someHalted = true) :
    exec (.twait b) s = .next (s.withWorld (s.w.trap 1 (loopInfo s.w.cur.pc 4))) :=
  done_only_eq (if_pos h)
theorem exec_sigwt_traps (h : s.w.someHalted = true) :
    exec (.sigwt a b) s = .next (s.withWorld (s.w.trap 1 (loopInfo s.w.cur.pc 4))) :=
  done_only_eq (if_pos h)
end

/-- Settles O30: each form puts its own wait into the hold, where no member has halted. -/
theorem collectiveWaits : Obligations.CollectiveWaits := by
  unfold Obligations.CollectiveWaits
  intro s a b x k g whole waiting
  have hwhole : s.w.someHalted = false ↔ whole := someHalted_eq_false
  have hwaiting : ∀ y, s.waiting y = waiting y := fun y => by
    dsimp only [State.waiting, Gang.wait, waiting, g, k]
    cases (s.w.gangAt s.w.cur.core).stat <;> rfl
  have htraps : ¬whole → s.w.someHalted = true := fun h => Bool.not_eq_false _ ▸ mt hwhole.mp h
  simp only [← hwaiting]
  exact ⟨fun h => exec_barwt (hwhole.mpr h), fun h => exec_twait (hwhole.mpr h), fun h => exec_sigwt (hwhole.mpr h),
    fun h => exec_scangap (hwhole.mpr h), fun h => exec_fence_pod (hwhole.mpr h),
    fun h => ⟨exec_twait_traps (htraps h), exec_sigwt_traps (htraps h)⟩⟩

end Sys2Proof.Machine
end

/-! SUPPORT. Counts of bits and address forms (R97, R111, R112) settle O9. -/
section
namespace Sys2Proof

/-! ## Rejection (R66) -/

theorem failing_of_not_passed {cs : List (Nat × Bool)} {code : Nat} (hc : ∀ c ∈ cs, c.1 = code) (h : ¬Passed cs) :
    failing cs = code := by
  induction cs with
  | nil => exact absurd passed_nil h
  | cons c r ih =>
    obtain ⟨n, ok⟩ := c
    have hn : n = code := hc (n, ok) (by simp)
    have hr : ∀ c ∈ r, c.1 = code := fun c hc' => hc c (by simp [hc'])
    subst hn
    by_cases hp : Passed r
    · have hok : ok = false := by simpa [hp] using h
      simp [failing, hok, failing_of_passed hp]
    · have hfail : failing r = n := ih hr hp
      cases ok <;> simp [failing, hfail]
/-- A word whose failed checks share one code is rejected with it. -/
theorem judge_rejects {i : Instr} {cs : List (Nat × Bool)} {code : Nat} (hc : ∀ c ∈ cs, c.1 = code) (h0 : code ≠ 0)
    (h : ¬Passed cs) : judge i cs = .bad code := by
  unfold judge
  rw [failing_of_not_passed hc h]
  cases code with
  | zero => exact absurd rfl h0
  | succ n => rfl
theorem judge_ite {i j : Instr} {cs : List (Nat × Bool)} {code : Nat} {p : Prop} [Decidable p] (hc : ∀ c ∈ cs, c.1 = code)
    (h0 : code ≠ 0) (hp : Passed cs ↔ p) (hj : p → i = j) : judge i cs = if p then .ok j else .bad code := by
  split
  · exact judge_reads (hp.mpr ‹p›) (hj ‹p›)
  · exact judge_rejects hc h0 (mt hp.mp ‹¬p›)

theorem srcOf_eq (ls r : Nat) : srcOf ls r = if ls = 0 then .reg r else .lit (ls - 1) := by
  simp [srcOf]
theorem replaced_snd (ls r : Nat) : (replaced ls r).2 = true ↔ ls = 0 ∨ r = 0 := by simp [replaced]

/-! ## The count and address words (R97, R111, R112) -/

section
variable {e : AWord}

theorem decodeA_counts {i : Nat} {f : Nat → Nat → Instr}
    (hf : [Instr.clz, .ctz, .popc][i]? = some f) (ho : e.op = 0x14 + i) (hl : e.ls = 0) (hb : e.sb = 0) :
    decodeA e = if e.m6 = 0 then .ok (f e.sd e.sa) else .bad 2 := by
  obtain ⟨op, sd, sa, sb, ls, m6⟩ := e
  subst ho hl hb
  match i with
  | 0 | 1 | 2 =>
    cases hf
    exact judge_ite (by simp [zero, ck]) (by decide) (by simp) fun _ => rfl
  | _ + 3 => cases hf
theorem decodeA_lea (ho : e.op = 0x17) (hb : e.ls = 0 ∨ e.sb = 0) (hm : e.m6 < 64) :
    decodeA e = if e.m6 < 16 then .ok (.lea e.sd e.sa (srcOf e.ls e.sb) e.m6) else .bad 2 := by
  obtain ⟨op, sd, sa, sb, ls, m6⟩ := e
  subst ho
  refine judge_ite (by simp [zero, replaced, ck]) (by decide) ?_ fun h => ?_
  · have hfield : field 5 4 m6 = 0 ↔ m6 < 16 := by simp only [field]; dsimp only at hm; omega
    simp [replaced_snd, hb, hfield]
  · rw [field_low h]
theorem decodeA_lidx (ho : e.op = 0x18) (hb : e.ls = 0 ∨ e.sb = 0) (hm : e.m6 < 64) :
    decodeA e = if e.m6 < 6 then .ok (.lidx e.sd e.sa (srcOf e.ls e.sb) e.m6) else .bad 2 := by
  obtain ⟨op, sd, sa, sb, ls, m6⟩ := e
  subst ho
  refine judge_ite (by simp [zero, replaced, ck]) (by decide) ?_ fun h => ?_
  · have hfields : field 5 3 m6 = 0 ∧ field 2 0 m6 < 6 ↔ m6 < 6 := by simp only [field]; dsimp only at hm; omega
    simpa [replaced_snd, hb] using hfields
  · rw [field_low (by omega)]
end

end Sys2Proof
namespace Sys2Proof.Machine
open Sys2Proof

/-! ## Counting bits (R111) -/

theorem lt_two_pow_bitLen (n : Nat) : n < 2 ^ bitLen n := by
  by_cases h : n = 0
  · simp [bitLen, h]
  · simpa [bitLen, h] using Nat.lt_log2_self
theorem bitLen_le {n k : Nat} (h : n < 2 ^ k) : bitLen n ≤ k := by
  by_cases hn : n = 0
  · simp [bitLen, hn]
  · simpa [bitLen, hn] using (Nat.log2_lt hn).mpr h
theorem testBit_bitLen {n : Nat} (h : n ≠ 0) : n.testBit (bitLen n - 1) = true := by
  simp [bitLen, h, Nat.testBit_log2]
theorem clzNat_le (k n : Nat) : clzNat k n ≤ k := Nat.sub_le _ _
/-- The bits counted by the leading zeros are zero. -/
theorem lt_of_clzNat {k n : Nat} (h : n < 2 ^ k) : n < 2 ^ (k - clzNat k n) := by
  rw [clzNat, Nat.mod_eq_of_lt h, Nat.sub_sub_self (bitLen_le h)]
  exact lt_two_pow_bitLen n
/-- The bit below them is one. -/
theorem testBit_of_clzNat {k n : Nat} (h : n < 2 ^ k) (hk : clzNat k n < k) : n.testBit (k - 1 - clzNat k n) = true := by
  have hle := bitLen_le h
  rw [clzNat, Nat.mod_eq_of_lt h] at hk ⊢
  have hn : n ≠ 0 := by
    rintro rfl
    exact absurd hk (by simp [bitLen])
  have hpos : k - 1 - (k - bitLen n) = bitLen n - 1 := by omega
  rw [hpos]
  exact testBit_bitLen hn
theorem ctzNat_le (k n : Nat) : ctzNat k n ≤ k := by
  induction k generalizing n with
  | zero => exact Nat.le_refl 0
  | succ k ih =>
    have hrest := ih (n / 2)
    unfold ctzNat
    split <;> omega
/-- The bits counted by the trailing zeros are zero. -/
theorem testBit_below_ctzNat {k n i : Nat} (h : i < ctzNat k n) : n.testBit i = false := by
  induction k generalizing n i with
  | zero => exact absurd h (Nat.not_lt_zero i)
  | succ k ih =>
    rw [ctzNat] at h
    by_cases hodd : (n % 2 == 1) = true
    · rw [if_pos hodd] at h
      exact absurd h (Nat.not_lt_zero i)
    · rw [if_neg hodd] at h
      cases i with
      | zero => simpa [Nat.testBit_zero] using hodd
      | succ i => exact (Nat.testBit_succ n i).trans (ih (by omega))
/-- The bit above them is one. -/
theorem testBit_of_ctzNat {k n : Nat} (h : ctzNat k n < k) : n.testBit (ctzNat k n) = true := by
  induction k generalizing n with
  | zero => exact absurd h (Nat.not_lt_zero _)
  | succ k ih =>
    rw [ctzNat] at h ⊢
    by_cases hodd : (n % 2 == 1) = true
    · rw [if_pos hodd, Nat.testBit_zero, decide_eq_true (beq_iff_eq.mp hodd)]
    · rw [if_neg hodd] at h ⊢
      rw [Nat.add_comm, Nat.testBit_succ]
      exact ih (by omega)
theorem popNat_eq (k n : Nat) : popNat k n = ((List.range k).filter n.testBit).length := by
  induction k generalizing n with
  | zero => rfl
  | succ k ih =>
    have hshift : ((List.range k).filter (n.testBit ∘ Nat.succ)) = (List.range k).filter (n / 2).testBit :=
      List.filter_congr fun i _ => Nat.testBit_succ n i
    rw [popNat, ih, List.range_succ_eq_map, List.filter_cons, List.filter_map, hshift, Nat.testBit_zero]
    rcases Nat.mod_two_eq_zero_or_one n with h | h <;> simp [h, Nat.add_comm]

/-! ## The forms -/

section
variable (s : State) {d a sh depth : Nat} {b : Src}

theorem exec_clz : exec (.clz d a) s = .next (s.due [(1, s.scalar d (BitVec.ofNat 64 (clzNat 64 (s.w.rdS a).toNat)))]) := rfl
theorem exec_ctz : exec (.ctz d a) s = .next (s.due [(1, s.scalar d (BitVec.ofNat 64 (ctzNat 64 (s.w.rdS a).toNat)))]) := rfl
theorem exec_popc : exec (.popc d a) s = .next (s.due [(1, s.scalar d (BitVec.ofNat 64 (popNat 64 (s.w.rdS a).toNat)))]) := rfl
theorem exec_lea : exec (.lea d a b sh) s = .next (s.due [(1, s.scalar d (s.w.rdS a + s.w.src b <<< sh))]) := rfl
theorem exec_lidx : exec (.lidx d a b depth) s =
    .next (s.due [(1, s.scalar d (s.w.rdS a + BitVec.ofNat 64 (s.w.loopIdx depth) * s.w.src b))]) := rfl
end
theorem add_shiftLeft_eq_ofNat (x y : Word) (sh : Nat) : x + y <<< sh = BitVec.ofNat 64 (x.toNat + y.toNat * 2 ^ sh) :=
  BitVec.eq_of_toNat_eq (by simp [Nat.shiftLeft_eq])
theorem add_mul_eq_ofNat (x y : Word) (n : Nat) : x + BitVec.ofNat 64 n * y = BitVec.ofNat 64 (x.toNat + n * y.toNat) :=
  BitVec.eq_of_toNat_eq (by simp)

/-- Settles O9: the counts by their bits, the sums modulo 2^64, the words by their checks. -/
theorem countsAndAddresses : Obligations.CountsAndAddresses := by
  unfold Obligations.CountsAndAddresses
  intro s d a sh depth b e second x y gives trip counts
  have hx : x.toNat < 2 ^ 64 := x.isLt
  have htrip : s.w.loopIdx depth = trip := by
    change ((s.me.ctx.loops[depth]?).map LoopEntry.idx).getD 0 = trip
    dsimp only [trip]
    cases s.me.ctx.loops[depth]? <;> rfl
  refine ⟨⟨_, exec_clz s, clzNat_le _ _, lt_of_clzNat hx, testBit_of_clzNat hx⟩,
    ⟨_, exec_ctz s, ctzNat_le _ _, fun i => testBit_below_ctzNat, testBit_of_ctzNat⟩, ?_, ?_, ?_,
    fun i f => decodeA_counts, fun ho hb hm => ?_, fun ho hb hm => ?_⟩
  · rw [exec_popc, popNat_eq]
    rfl
  · rw [exec_lea, add_shiftLeft_eq_ofNat]
  · rw [exec_lidx, add_mul_eq_ofNat, htrip]
  · rw [decodeA_lea ho hb hm, srcOf_eq]
  · rw [decodeA_lidx ho hb hm, srcOf_eq]

end Sys2Proof.Machine
end

/-! SUPPORT. The two-operand integer forms, comparison and selection (R102, R103, R105 to R107) settle O6. -/
section
namespace Sys2Proof

/-! ## Rejection where the code of a field names nothing (R66) -/

theorem judgeWith_ite {α : Type} {o : Option α} {code : Nat} {k k' : α → Instr} {cs : List (Nat × Bool)} {p : Prop} [Decidable p]
    (hc : ∀ c ∈ cs, c.1 = code) (h0 : code ≠ 0) (hp : Passed cs ↔ p) (hk : ∀ v, p → k v = k' v) :
    judgeWith o code k cs = o.elim (.bad code) fun v => if p then .ok (k' v) else .bad code := by
  cases o with
  | none => exact congrArg Verdict.bad (failing_of_not_passed (by simpa using hc) (by simp))
  | some v => exact judge_ite hc h0 hp (hk v)
/-- A word with two sources and nothing in `m6`. -/
theorem judge_two_sources {ls r m6 : Nat} (i : Instr) (hb : ls = 0 ∨ r = 0) :
    judge i [replaced ls r, zero m6] = if m6 = 0 then .ok i else .bad 2 :=
  judge_ite (by simp [zero, replaced, ck]) (by decide) (by simp [replaced_snd, hb]) fun _ => rfl

/-! ## The words (R105 to R107) -/

section
variable {e : AWord}

theorem decodeA_integer {f : Nat → Nat → Src → Instr}
    (hf : [Instr.add, .sub, .and, .or, .xor, .andn, .shl, .shr, .sar, .rol, .min, .max, .minn, .maxn][e.op]? = some f)
    (hb : e.ls = 0 ∨ e.sb = 0) : decodeA e = if e.m6 = 0 then .ok (f e.sd e.sa (srcOf e.ls e.sb)) else .bad 2 := by
  obtain ⟨op, sd, sa, sb, ls, m6⟩ := e
  match op with
  | 0 | 1 | 2 | 3 | 4 | 5 | 6 | 7 | 8 | 9 | 10 | 11 | 12 | 13 =>
    cases hf
    exact judge_two_sources _ hb
  | _ + 14 => cases hf
theorem decodeA_sel (ho : e.op = 0x0F) (hb : e.ls = 0 ∨ e.sb = 0) : decodeA e = .ok (.sel e.sd e.sa (srcOf e.ls e.sb) e.m6) := by
  obtain ⟨op, sd, sa, sb, ls, m6⟩ := e
  subst ho
  exact judge_reads (by simp [replaced_snd, hb]) rfl
/-- The codes of the conditions, in order. -/
theorem sCondOf_eq_getElem? (i : Nat) : sCondOf i = [SCond.eq, .ne, .lt, .ge, .ltn, .gen][i]? := by
  match i with
  | 0 | 1 | 2 | 3 | 4 | 5 => rfl
  | _ + 6 => rfl
theorem decodeA_scmp (ho : e.op = 0x0E) (hb : e.ls = 0 ∨ e.sb = 0) (hm : e.m6 < 64) :
    decodeA e = (sCondOf e.m6).elim (.bad 2) fun c => .ok (.scmp c e.sd e.sa (srcOf e.ls e.sb)) := by
  obtain ⟨op, sd, sa, sb, ls, m6⟩ := e
  subst ho
  have hfield : field 5 3 m6 = 0 ↔ m6 < 8 := by simp only [field]; dsimp only at hm; omega
  refine (judgeWith_ite (p := m6 < 8) (by simp [zero, replaced, ck]) (by decide) (by simp [replaced_snd, hb, hfield])
    fun _ _ => rfl).trans ?_
  by_cases h : m6 < 8
  · simp only [h, if_true, field_low (hi := 2) h]
  · have hnone : sCondOf m6 = none := by
      rw [sCondOf_eq_getElem?, List.getElem?_eq_none (by simp; omega)]
    simp only [h, if_false, hnone, Option.elim_none]
    cases sCondOf (field 2 0 m6) <;> rfl
end

end Sys2Proof
namespace Sys2Proof.Machine
open Sys2Proof

/-! ## The forms (R102, R103, R105 to R107) -/

section
variable (s : State) {d a : Nat} {b : Src}

theorem exec_add : exec (.add d a b) s = .next (s.due [(1, s.scalar d (s.w.rdS a + s.w.src b))]) := rfl
theorem exec_sub : exec (.sub d a b) s = .next (s.due [(1, s.scalar d (s.w.rdS a - s.w.src b))]) := rfl
theorem exec_and : exec (.and d a b) s = .next (s.due [(1, s.scalar d (s.w.rdS a &&& s.w.src b))]) := rfl
theorem exec_or : exec (.or d a b) s = .next (s.due [(1, s.scalar d (s.w.rdS a ||| s.w.src b))]) := rfl
theorem exec_xor : exec (.xor d a b) s = .next (s.due [(1, s.scalar d (s.w.rdS a ^^^ s.w.src b))]) := rfl
theorem exec_andn : exec (.andn d a b) s = .next (s.due [(1, s.scalar d (s.w.rdS a &&& ~~~s.w.src b))]) := rfl
theorem exec_shl : exec (.shl d a b) s = .next (s.due [(1, s.scalar d (s.w.rdS a <<< ((s.w.src b).toNat % 64)))]) := rfl
theorem exec_shr : exec (.shr d a b) s = .next (s.due [(1, s.scalar d (s.w.rdS a >>> ((s.w.src b).toNat % 64)))]) := rfl
theorem exec_sar : exec (.sar d a b) s = .next (s.due [(1, s.scalar d ((s.w.rdS a).sshiftRight ((s.w.src b).toNat % 64)))]) := rfl
theorem exec_rol : exec (.rol d a b) s = .next (s.due [(1, s.scalar d ((s.w.rdS a).rotateLeft ((s.w.src b).toNat % 64)))]) := rfl
theorem exec_min : exec (.min d a b) s = .next (s.due [(1, s.scalar d (minS (s.w.rdS a) (s.w.src b)))]) := rfl
theorem exec_max : exec (.max d a b) s = .next (s.due [(1, s.scalar d (maxS (s.w.rdS a) (s.w.src b)))]) := rfl
theorem exec_minn : exec (.minn d a b) s = .next (s.due [(1, s.scalar d (minU (s.w.rdS a) (s.w.src b)))]) := rfl
theorem exec_maxn : exec (.maxn d a b) s = .next (s.due [(1, s.scalar d (maxU (s.w.rdS a) (s.w.src b)))]) := rfl
theorem exec_scmp (c : SCond) :
    exec (.scmp c d a b) s = .next (s.due [(1, s.scalar d (if scondHolds c (s.w.rdS a) (s.w.src b) then 1 else 0))]) := rfl
theorem exec_sel (c : Nat) :
    exec (.sel d a b c) s = .next (s.due [(1, s.scalar d (if s.w.rdS c != 0 then s.w.rdS a else s.w.src b))]) := rfl
end

/-! ## The values (R105) -/

section
variable (x y : Word)

theorem add_eq_ofInt : x + y = BitVec.ofInt 64 (x.toInt + y.toInt) := by
  simp only [BitVec.ofInt_add, BitVec.ofInt_toInt]
theorem sub_eq_ofInt : x - y = BitVec.ofInt 64 (x.toInt - y.toInt) := by
  simp only [Int.sub_eq_add_neg, BitVec.ofInt_add, BitVec.ofInt_neg, BitVec.ofInt_toInt, BitVec.sub_eq_add_neg]
theorem getLsbD_and_not (i : Nat) : (x &&& ~~~y).getLsbD i = (x.getLsbD i && !y.getLsbD i) := by
  by_cases hi : i < 64
  · simp [hi]
  · simp [BitVec.getLsbD_of_ge x i (not_lt.mp hi)]
theorem shiftLeft_eq_ofNat (k : Nat) : x <<< k = BitVec.ofNat 64 (x.toNat * 2 ^ k) :=
  BitVec.eq_of_toNat_eq (by rw [BitVec.toNat_shiftLeft, BitVec.toNat_ofNat, Nat.shiftLeft_eq])
theorem ushiftRight_eq_ofNat (k : Nat) : x >>> k = BitVec.ofNat 64 (x.toNat / 2 ^ k) := by
  rw [← Nat.shiftRight_eq_div_pow, ← BitVec.toNat_ushiftRight, BitVec.ofNat_toNat, BitVec.setWidth_eq]
theorem sshiftRight_eq_ofInt (k : Nat) : x.sshiftRight k = BitVec.ofInt 64 (x.toInt / 2 ^ k) := by
  rw [← BitVec.ofInt_toInt (x := x.sshiftRight k), BitVec.toInt_sshiftRight, Int.shiftRight_eq_div_pow]
  norm_cast
/-- The bits that leave above come back below: the two parts of a rotation share no bit. -/
theorem rotateLeft_eq_ofNat {k : Nat} (hk : k < 64) :
    x.rotateLeft k = BitVec.ofNat 64 (x.toNat * 2 ^ k + x.toNat / 2 ^ (64 - k)) := by
  have hlow : x.toNat / 2 ^ (64 - k) < 2 ^ k := by
    rw [Nat.div_lt_iff_lt_mul (Nat.two_pow_pos _), ← Nat.pow_add, Nat.add_sub_cancel' hk.le]
    exact x.isLt
  have hparts : x.toNat * 2 ^ k + x.toNat / 2 ^ (64 - k) = x.toNat * 2 ^ k ||| x.toNat / 2 ^ (64 - k) := by
    rw [← Nat.shiftLeft_eq, Nat.shiftLeft_add_eq_or_of_lt hlow]
  rw [BitVec.rotateLeft_def, Nat.mod_eq_of_lt hk, hparts, BitVec.ofNat_or, ← shiftLeft_eq_ofNat, ← ushiftRight_eq_ofNat]
theorem minS_eq_ofInt : minS x y = BitVec.ofInt 64 (min x.toInt y.toInt) := by
  simp only [minS, BitVec.slt_iff_toInt_lt]
  split
  · rw [min_eq_left (le_of_lt ‹_›), BitVec.ofInt_toInt]
  · rw [min_eq_right (not_lt.mp ‹_›), BitVec.ofInt_toInt]
theorem maxS_eq_ofInt : maxS x y = BitVec.ofInt 64 (max x.toInt y.toInt) := by
  simp only [maxS, BitVec.slt_iff_toInt_lt]
  split
  · rw [max_eq_right (le_of_lt ‹_›), BitVec.ofInt_toInt]
  · rw [max_eq_left (not_lt.mp ‹_›), BitVec.ofInt_toInt]
theorem minU_eq_ofNat : minU x y = BitVec.ofNat 64 (min x.toNat y.toNat) := by
  simp only [minU, BitVec.ult_iff_toNat_lt]
  split
  · rw [min_eq_left (le_of_lt ‹_›), BitVec.ofNat_toNat, BitVec.setWidth_eq]
  · rw [min_eq_right (not_lt.mp ‹_›), BitVec.ofNat_toNat, BitVec.setWidth_eq]
theorem maxU_eq_ofNat : maxU x y = BitVec.ofNat 64 (max x.toNat y.toNat) := by
  simp only [maxU, BitVec.ult_iff_toNat_lt]
  split
  · rw [max_eq_right (le_of_lt ‹_›), BitVec.ofNat_toNat, BitVec.setWidth_eq]
  · rw [max_eq_left (not_lt.mp ‹_›), BitVec.ofNat_toNat, BitVec.setWidth_eq]
end

/-! ## Comparison (R106) -/

/-- What a condition of SCMP says of its two sources. -/
def SCondSays (x y : Word) : SCond → Prop
  | .eq => x.toNat = y.toNat
  | .ne => x.toNat ≠ y.toNat
  | .lt => x.toInt < y.toInt
  | .ge => y.toInt ≤ x.toInt
  | .ltn => x.toNat < y.toNat
  | .gen => y.toNat ≤ x.toNat
theorem scondHolds_iff (c : SCond) (x y : Word) : scondHolds c x y = true ↔ SCondSays x y c := by
  cases c with
  | eq => simp [scondHolds, SCondSays, BitVec.toNat_inj]
  | ne => simp [scondHolds, SCondSays, BitVec.toNat_inj]
  | lt => exact BitVec.slt_iff_toInt_lt
  | ge => simp [scondHolds, SCondSays, BitVec.slt_eq_decide]
  | ltn => exact BitVec.ult_iff_toNat_lt
  | gen => simp [scondHolds, SCondSays, BitVec.ult_eq_decide]

/-- Settles O6: each form by the value it computes, the words by their checks. -/
theorem integerArithmetic : Obligations.IntegerArithmetic := by
  unfold Obligations.IntegerArithmetic
  intro s d a c b cond second x y k gives forms holds
  have hk : k < 64 := Nat.mod_lt _ (by decide)
  have hcond : scondHolds cond x y = true ↔ holds := (scondHolds_iff cond x y).trans (by cases cond <;> exact Iff.rfl)
  refine ⟨?_, ?_, ⟨_, exec_and s, fun i => BitVec.getLsbD_and⟩, ⟨_, exec_or s, fun i => BitVec.getLsbD_or⟩,
    ⟨_, exec_xor s, fun i => BitVec.getLsbD_xor⟩, ⟨_, exec_andn s, getLsbD_and_not x y⟩, ?_, ?_, ?_, ?_, ?_, ?_, ?_, ?_,
    fun w f hf hb => ?_, fun h => ?_, fun h => ?_, fun h => ?_, fun h => ?_, ?_, fun w ho hb => ?_, fun w ho hb hm => ?_⟩
  · rw [exec_add, add_eq_ofInt]
  · rw [exec_sub, sub_eq_ofInt]
  · rw [exec_shl, shiftLeft_eq_ofNat]
  · rw [exec_shr, ushiftRight_eq_ofNat]
  · rw [exec_sar, sshiftRight_eq_ofInt]
  · rw [exec_rol, rotateLeft_eq_ofNat _ hk]
  · rw [exec_min, minS_eq_ofInt]
  · rw [exec_max, maxS_eq_ofInt]
  · rw [exec_minn, minU_eq_ofNat]
  · rw [exec_maxn, maxU_eq_ofNat]
  · rw [decodeA_integer hf hb, srcOf_eq]
  · rw [exec_scmp, if_pos (hcond.mpr h)]
  · rw [exec_scmp, if_neg (mt hcond.mp h)]
  · rw [exec_sel, if_pos (bne_iff_ne.mpr h)]
  · rw [exec_sel, h]
    rfl
  · rw [exec_sel, rdS_zero]
    rfl
  · rw [decodeA_sel ho hb, srcOf_eq]
  · rw [decodeA_scmp ho hb hm, sCondOf_eq_getElem?, srcOf_eq]
    cases [SCond.eq, .ne, .lt, .ge, .ltn, .gen][w.m6]? <;> rfl

end Sys2Proof.Machine
end

/-! SUPPORT. Constants, extensions and bit fields (R108 to R110) settle O8. -/
section
namespace Sys2Proof

/-! ## The words (R108 to R110) -/

section
variable {e : AWord}

theorem decodeA_movl (ho : e.op = 0x10) (hb : e.ls = 0 ∨ e.sb = 0) (hm : e.m6 < 64) :
    decodeA e = ([MovMode.lo, .lz, .hi, .hk][e.m6]?).elim (.bad 2) fun m =>
      if e.sa = 0 ∨ e.m6 = 3 then .ok (.movl m e.sd e.sa (srcOf e.ls e.sb)) else .bad 2 := by
  obtain ⟨op, sd, sa, sb, ls, m6⟩ := e
  subst ho
  match m6 with
  | 0 | 1 | 2 | 3 =>
    exact judge_ite (by simp [zero, replaced, ck]) (by decide) (by simp [replaced_snd, hb, field]) fun _ => by simp [field, movOf]
  | n + 4 =>
    have hfield : field 5 2 (n + 4) ≠ 0 := by simp only [field]; dsimp only at hm; omega
    exact judge_rejects (by simp [zero, replaced, ck]) (by decide) (by simp [hfield])
/-- The codes of the widths, in order. -/
theorem extOf_eq_getElem? (i : Nat) : extOf i = [ExtW.w8, .w16, .w32][i]? := by
  match i with
  | 0 | 1 | 2 => rfl
  | _ + 3 => rfl
theorem decodeA_ext (ho : e.op = 0x11) (hl : e.ls = 0) (hb : e.sb = 0) (hm : e.m6 < 64) :
    decodeA e = (extOf (e.m6 % 4)).elim (.bad 2) fun w =>
      if e.m6 < 8 then .ok (.ext w (4 ≤ e.m6) e.sd e.sa) else .bad 2 := by
  obtain ⟨op, sd, sa, sb, ls, m6⟩ := e
  subst ho hl hb
  have hfield : field 5 3 m6 = 0 ↔ m6 < 8 := by simp only [field]; dsimp only at hm; omega
  have hlow : field 1 0 m6 = m6 % 4 := by simp [field]
  have hbit (h : m6 < 8) : bitOf 2 m6 = decide (4 ≤ m6) := by
    rw [bitOf, Bool.eq_iff_iff, beq_iff_eq, decide_eq_true_iff]
    omega
  rw [← hlow]
  exact judgeWith_ite (by simp [zero, ck]) (by decide) (by simp [hfield]) fun w h => by rw [hbit h]
theorem decodeA_bfx (ho : e.op = 0x12) (hb : e.ls = 0 ∨ e.sb = 0) (hm : e.m6 < 64) :
    decodeA e = if e.m6 < 2 then .ok (.bfx (e.m6 = 1) e.sd e.sa (srcOf e.ls e.sb)) else .bad 2 := by
  obtain ⟨op, sd, sa, sb, ls, m6⟩ := e
  subst ho
  have hfield : field 5 1 m6 = 0 ↔ m6 < 2 := by simp only [field]; dsimp only at hm; omega
  refine judge_ite (by simp [zero, replaced, ck]) (by decide) (by simp [replaced_snd, hb, hfield]) fun h => ?_
  have hbit : bitOf 0 m6 = decide (m6 = 1) := by
    rw [bitOf, pow_zero, Nat.div_one, Nat.mod_eq_of_lt h]
    rfl
  rw [hbit]
theorem decodeA_bfi (ho : e.op = 0x13) (hb : e.ls = 0 ∨ e.sb = 0) :
    decodeA e = if e.m6 = 0 then .ok (.bfi e.sd e.sa (srcOf e.ls e.sb)) else .bad 2 := by
  obtain ⟨op, sd, sa, sb, ls, m6⟩ := e
  subst ho
  exact judge_two_sources _ hb
end

end Sys2Proof
namespace Sys2Proof.Machine
open Sys2Proof

/-! ## The forms -/

section
variable (s : State) {d a : Nat} {b : Src}

theorem exec_movl (m : MovMode) :
    exec (.movl m d a b) s = .next (s.due [(1, s.scalar d (movVal m (s.w.rdS a) (s.w.src b)))]) := rfl
theorem exec_ext (w : ExtW) (sx : Bool) :
    exec (.ext w sx d a) s = .next (s.due [(1, s.scalar d (extVal (extBits w) sx (s.w.rdS a)))]) := rfl
theorem exec_bfx (sx : Bool) :
    exec (.bfx sx d a b) s = .next (s.due [(1, s.scalar d (bfxVal sx (s.w.rdS a) (s.w.src b)))]) := rfl
theorem exec_bfi :
    exec (.bfi d a b) s = .next (s.due [(1, s.scalar d (bfiVal (s.w.rdS d) (s.w.rdS a) (s.w.src b)))]) := rfl
end

/-! ## Extension and constants (R64, R108, R109) -/

theorem signed_eq_toInt (k n : Nat) : signed k n = (BitVec.ofNat k n).toInt := by
  rw [signed, BitVec.toInt, BitVec.toNat_ofNat]
  cases k with
  | zero => simp [Nat.mod_one]
  | succ k =>
    rw [Nat.add_sub_cancel, Nat.pow_succ]
    push_cast
    split <;> split <;> omega
section
variable (x v : Word) (k : Nat)

theorem extVal_signed : extVal k true x = BitVec.ofInt 64 (signed k x.toNat) := by
  rw [signed_eq_toInt, BitVec.ofNat_toNat]
  rfl
theorem extVal_unsigned : extVal k false x = BitVec.ofNat 64 (x.toNat % 2 ^ k) := by
  rw [← BitVec.toNat_setWidth, BitVec.ofNat_toNat]
  rfl
theorem movVal_hi : movVal .hi x v = BitVec.ofNat 64 (v.toNat % 2 ^ 32 * 2 ^ 32) := by
  refine (shiftLeft_eq_ofNat v 32).trans (BitVec.eq_of_toNat_eq ?_)
  rw [BitVec.toNat_ofNat, BitVec.toNat_ofNat]
  omega
theorem movVal_hk : movVal .hk x v = BitVec.ofNat 64 (v.toNat % 2 ^ 32 * 2 ^ 32 + x.toNat % 2 ^ 32) := by
  rw [BitVec.ofNat_add, ← movVal_hi x v, ← extVal_unsigned]
  rfl
end

/-! ## Bit fields (R110) -/

theorem bitOf_top {k f : Nat} (hk : 0 < k) (hf : f < 2 ^ k) : bitOf (k - 1) f = true ↔ ¬f < 2 ^ (k - 1) := by
  have hpow : 2 ^ (k - 1) * 2 = 2 ^ k := Nat.two_pow_pred_mul_two hk
  by_cases h : f < 2 ^ (k - 1)
  · simp [bitOf, Nat.div_eq_of_lt h, h]
  · have hone : f / 2 ^ (k - 1) = 1 := Nat.div_eq_of_lt_le (by omega) (by omega)
    simp [bitOf, hone, h]
section
variable (base x b : Word)

theorem bfxVal_unsigned : bfxVal false x b = BitVec.ofNat 64 (x.toNat / 2 ^ bfPos b % 2 ^ bfLen b) := rfl
theorem bfxVal_signed (h : 0 < bfLen b) : bfxVal true x b = BitVec.ofInt 64 (signed (bfLen b) (x.toNat / 2 ^ bfPos b)) := by
  have htop := bitOf_top h (Nat.mod_lt (x.toNat / 2 ^ bfPos b) (Nat.two_pow_pos (bfLen b)))
  simp only [bfxVal, signed, h, decide_true, Bool.true_and, htop, ite_not]
  split
  · exact (BitVec.ofInt_natCast 64 _).symm
  · rfl
theorem bfxVal_empty (h : bfLen b = 0) : bfxVal true x b = 0 := by
  simp [bfxVal, h, Nat.mod_one]
/-- The bits of the field come from the source's low bits, the others stay. -/
theorem getLsbD_bfiVal {i : Nat} (hi : i < 64) : (bfiVal base x b).getLsbD i =
    if bfPos b ≤ i ∧ i < bfPos b + bfLen b then x.getLsbD (i - bfPos b) else base.getLsbD i := by
  have hmask (j : Nat) (hj : j < 64) : (BitVec.ofNat 64 (2 ^ bfLen b - 1)).getLsbD j = decide (j < bfLen b) := by
    rw [BitVec.getLsbD_ofNat, Nat.testBit_two_pow_sub_one, decide_eq_true hj, Bool.true_and]
  simp only [bfiVal, BitVec.getLsbD_or, BitVec.getLsbD_and, BitVec.getLsbD_not, BitVec.getLsbD_shiftLeft, hi,
    hmask (i - bfPos b) (by omega), decide_true, Bool.true_and]
  by_cases hp : bfPos b ≤ i
  · have hin : i - bfPos b < bfLen b ↔ i < bfPos b + bfLen b := by omega
    by_cases hl : i < bfPos b + bfLen b
    · simp [hp, hl, hin, not_lt.mpr hp]
    · simp [hl, hin]
  · simp [hp, not_le.mp hp]
end

/-- Settles O8: each form by the value it computes, the words by their checks. -/
theorem constantsAndFields : Obligations.ConstantsAndFields := by
  unfold Obligations.ConstantsAndFields
  intro s d a b w e second x y gives k pos len
  have hk : extBits w = k := by cases w <;> rfl
  refine ⟨congrArg gives (extVal_signed y 32), congrArg gives (extVal_unsigned y 32), ?_, ?_, ?_, ?_, ?_, fun h => ?_, fun h => ?_,
    ⟨_, exec_bfi s, fun i => getLsbD_bfiVal (s.w.rdS d) x y⟩, fun ho hb hm => ?_, fun ho hl hb hm => ?_, fun ho hb hm => ?_,
    fun ho hb => ?_⟩
  · rw [exec_movl, movVal_hi]
  · rw [exec_movl, movVal_hk]
  · rw [exec_ext, extVal_signed, hk]
  · rw [exec_ext, extVal_unsigned, hk]
  · rw [exec_bfx, bfxVal_unsigned]
    rfl
  · rw [exec_bfx, bfxVal_signed _ _ h]
    rfl
  · rw [exec_bfx, bfxVal_empty _ _ h]
  · rw [decodeA_movl ho hb hm, srcOf_eq]
    cases [MovMode.lo, .lz, .hi, .hk][e.m6]? <;> rfl
  · rw [decodeA_ext ho hl hb hm, extOf_eq_getElem?]
    cases [ExtW.w8, .w16, .w32][e.m6 % 4]? <;> rfl
  · rw [decodeA_bfx ho hb hm, srcOf_eq]
  · rw [decodeA_bfi ho hb, srcOf_eq]

end Sys2Proof.Machine
end

/-! SUPPORT. Products, quotients and remainders (R114, R115) settle O10. -/
section
namespace Sys2Proof

/-! ## The words (R114, R115) -/

theorem decodeA_mul_div {e : AWord} {i : Nat} {f : Nat → Nat → Src → Instr}
    (hf : [Instr.mul, .mulh, .mulhn, .madd, .div, .divn, .rem, .remn][i]? = some f) (ho : e.op = 0x20 + i)
    (hb : e.ls = 0 ∨ e.sb = 0) : decodeA e = if e.m6 = 0 then .ok (f e.sd e.sa (srcOf e.ls e.sb)) else .bad 2 := by
  obtain ⟨op, sd, sa, sb, ls, m6⟩ := e
  subst ho
  match i with
  | 0 | 1 | 2 | 3 | 4 | 5 | 6 | 7 =>
    cases hf
    exact judge_two_sources _ hb
  | _ + 8 => cases hf

end Sys2Proof
namespace Sys2Proof.Machine
open Sys2Proof

/-! ## The forms -/

section
variable (s : State) {d a : Nat} {b : Src}

theorem exec_mul : exec (.mul d a b) s = .next (s.due [(3, s.scalar d (s.w.rdS a * s.w.src b))]) := rfl
theorem exec_mulh : exec (.mulh d a b) s =
    .next (s.due [(3, s.scalar d (BitVec.ofInt 64 (((s.w.rdS a).toInt * (s.w.src b).toInt).fdiv (2 ^ 64))))]) := rfl
theorem exec_mulhn : exec (.mulhn d a b) s =
    .next (s.due [(3, s.scalar d (BitVec.ofNat 64 ((s.w.rdS a).toNat * (s.w.src b).toNat / 2 ^ 64)))]) := rfl
theorem exec_madd : exec (.madd d a b) s = .next (s.due [(3, s.scalar d (s.w.rdS d + s.w.rdS a * s.w.src b))]) := rfl
theorem exec_div : exec (.div d a b) s = .next (s.due [(16, s.scalar d (divS (s.w.rdS a) (s.w.src b)))]) := rfl
theorem exec_divn : exec (.divn d a b) s = .next (s.due [(16, s.scalar d (divU (s.w.rdS a) (s.w.src b)))]) := rfl
theorem exec_rem : exec (.rem d a b) s = .next (s.due [(16, s.scalar d (remS (s.w.rdS a) (s.w.src b)))]) := rfl
theorem exec_remn : exec (.remn d a b) s = .next (s.due [(16, s.scalar d (remU (s.w.rdS a) (s.w.src b)))]) := rfl
end

/-! ## The values -/

theorem mul_eq_ofInt (x y : Word) : x * y = BitVec.ofInt 64 (x.toInt * y.toInt) := by
  simp only [BitVec.ofInt_mul, BitVec.ofInt_toInt]
theorem add_mul_eq_ofInt (z x y : Word) : z + x * y = BitVec.ofInt 64 (z.toInt + x.toInt * y.toInt) := by
  simp only [BitVec.ofInt_add, BitVec.ofInt_mul, BitVec.ofInt_toInt]

/-! ### A zero divisor (R115) -/

section
variable (x : Word)

theorem divS_zero : divS x 0 = -1 := (if_pos rfl).trans BitVec.neg_one_eq_allOnes.symm
theorem divU_zero : divU x 0 = -1 := (if_pos rfl).trans BitVec.neg_one_eq_allOnes.symm
theorem remS_zero : remS x 0 = x := if_pos rfl
theorem remU_zero : remU x 0 = x := if_pos rfl
end

/-! ### Any other divisor (R114) -/

section
variable (x : Word) {y : Word} (h : y ≠ 0)
include h

theorem divS_of_ne : divS x y = BitVec.ofInt 64 (x.toInt.tdiv y.toInt) := if_neg (mt beq_iff_eq.mp h)
theorem divU_of_ne : divU x y = BitVec.ofNat 64 (x.toNat / y.toNat) := if_neg (mt beq_iff_eq.mp h)
theorem remS_of_ne : remS x y = BitVec.ofInt 64 (x.toInt - y.toInt * x.toInt.tdiv y.toInt) := by
  rw [← Int.tmod_def]
  exact if_neg (mt beq_iff_eq.mp h)
theorem remU_of_ne : remU x y = BitVec.ofNat 64 (x.toNat % y.toNat) := if_neg (mt beq_iff_eq.mp h)
end

/-! ### The one overflow (R115) -/

section
variable {x y : Word}

theorem ne_zero_of_toInt_eq_neg_one (hy : y.toInt = -1) : y ≠ 0 := by
  rintro rfl
  exact absurd hy (by decide)
theorem divS_overflow (hx : x.toInt = -(2 ^ 63)) (hy : y.toInt = -1) : divS x y = BitVec.ofInt 64 (-(2 ^ 63)) := by
  rw [divS_of_ne x (ne_zero_of_toInt_eq_neg_one hy), hx, hy]
  decide
theorem remS_overflow (hx : x.toInt = -(2 ^ 63)) (hy : y.toInt = -1) : remS x y = 0 := by
  rw [remS_of_ne x (ne_zero_of_toInt_eq_neg_one hy), hx, hy]
  decide
end

/-- Settles O10: the products by their values, the quotients and remainders by the case of the divisor, the words by their
checks. -/
theorem multiplyAndDivide : Obligations.MultiplyAndDivide := by
  unfold Obligations.MultiplyAndDivide
  intro s d a b second x y gives forms
  refine ⟨?_, ?_, exec_mulhn s, ?_, fun h => ?_, fun h => ?_, fun hx hy => ?_, fun w i f hf ho hb => ?_⟩
  · rw [exec_mul, mul_eq_ofInt]
  · rw [exec_mulh, Int.fdiv_eq_ediv_of_nonneg _ (by positivity)]
  · rw [exec_madd, add_mul_eq_ofInt]
  · rw [exec_div, exec_divn, exec_rem, exec_remn, show s.w.src b = 0 from h, divS_zero, divU_zero, remS_zero, remU_zero]
    exact ⟨rfl, rfl, rfl, rfl⟩
  · rw [exec_div, exec_divn, exec_rem, exec_remn, divS_of_ne _ h, divU_of_ne _ h, remS_of_ne _ h, remU_of_ne _ h]
    exact ⟨rfl, rfl, rfl, rfl⟩
  · rw [exec_div, exec_rem, divS_overflow hx hy, remS_overflow hx hy]
    exact ⟨rfl, rfl⟩
  · rw [decodeA_mul_div hf ho hb, srcOf_eq]

end Sys2Proof.Machine
end

/-! SUPPORT. SMIX and the scalar float forms (R113, R116 to R118, R160) settle O11. -/
section
namespace Sys2Proof.Machine
open Sys2Proof

/-! ## SMIX (R113) -/

theorem exec_smix (s : State) {d a : Nat} {b : Src} :
    exec (.smix d a b) s = .next (s.due [(2, s.scalar d (smix (s.w.rdS a) (s.w.src b)))]) := rfl
theorem toNat_xor_shifted (x : Word) (k : Nat) : (x ^^^ x >>> k).toNat = Nat.xor x.toNat (x.toNat / 2 ^ k) := by
  rw [BitVec.toNat_xor, BitVec.toNat_ushiftRight, Nat.shiftRight_eq_div_pow]
  rfl
/-- The mixing function in numbers: `m1` after its first product, `m2` after its second. -/
theorem smix_eq_ofNat {a b : Word} {m1 m2 : Nat}
    (h1 : m1 = Nat.xor a.toNat ((b.toNat * 2 ^ 23 + b.toNat / 2 ^ 41) % 2 ^ 64) * 0xC3A59E416B27D58D % 2 ^ 64)
    (h2 : m2 = Nat.xor m1 (m1 / 2 ^ 29) * 0x8F3D2C61E74BA915 % 2 ^ 64) :
    smix a b = BitVec.ofNat 64 (Nat.xor m2 (m2 / 2 ^ 32)) := by
  have hx : ((a ^^^ b.rotateLeft 23) * 0xC3A59E416B27D58D#64).toNat = m1 := by
    rw [h1, BitVec.toNat_mul, BitVec.toNat_xor, rotateLeft_eq_ofNat b (by decide : 23 < 64), BitVec.toNat_ofNat]
    rfl
  generalize hX : (a ^^^ b.rotateLeft 23) * 0xC3A59E416B27D58D#64 = X at hx
  have hy : ((X ^^^ X >>> 29) * 0x8F3D2C61E74BA915#64).toNat = m2 := by
    rw [h2, BitVec.toNat_mul, toNat_xor_shifted, hx]
    rfl
  rw [← hy, ← toNat_xor_shifted, BitVec.ofNat_toNat, BitVec.setWidth_eq, smix, hX]

/-! ## The float forms (R116 to R118, R160) -/

theorem sfWrite_due (s : State) (d : Nat) (r : Nat × Nat) :
    sfWrite d r s = .next (s.due [(4, s.scalar d (BitVec.ofNat 64 r.1)), (4, .flags r.2)]) :=
  congrArg Host.Outcome.next (due_due s [(4, s.scalar d (BitVec.ofNat 64 r.1))] [(4, .flags r.2)])

/-- Settles O11: SMIX step by step, each float form as the writer of its result and its flags. -/
theorem mixAndScalarFloat : Obligations.MixAndScalarFloat := by
  unfold Obligations.MixAndScalarFloat
  intro s f rm d a b c cv k x y z gives u r23 m1 m2
  refine ⟨?_, sfWrite_due s d ((sfSpec f).add rm x y), sfWrite_due s d ((sfSpec f).mul rm x y),
    sfWrite_due s d ((sfSpec f).fma rm x y z), sfWrite_due s d (boolFlags ((sfSpec f).cmp c x y)),
    sfWrite_due s d (sfConvert cv rm (s.w.rdS a))⟩
  rw [exec_smix, smix_eq_ofNat (m1 := m1) (m2 := m2) rfl rfl]

end Sys2Proof.Machine
end

/-! SUPPORT. The operand queues (R128, R237 to R242) settle O28. -/
section
namespace Sys2Proof.Machine
open Sys2Proof

/-! ## Postmarks (R238) -/

section
variable (m : Nat)

theorem pmCore_eq : pmCore m = m % 128 := by simp [pmCore, field]
theorem pmGroup_eq : field 7 0 m = m % 256 := by simp [field]
theorem pmClean_iff : pmClean m = true ↔ m / 128 % 2 = 0 ∧ m / 2 ^ 11 % 32 = 0 := by simp [pmClean, field]
end

/-! ## The checks of a send (R240, R242) -/

theorem failing_ge {c : Nat} {cs : List (Nat × Bool)} (h : ∀ x ∈ cs, c ≤ x.1) : failing cs = 0 ∨ c ≤ failing cs := by
  induction cs with
  | nil => exact .inl rfl
  | cons x r ih =>
    obtain ⟨hx, hr⟩ := List.forall_mem_cons.mp h
    obtain ⟨n, ok⟩ := x
    rw [failing]
    split
    · exact ih hr
    · right
      split
      · exact hx
      · next hne => exact le_min hx ((ih hr).resolve_left (by simpa using hne))
/-- Of checks in the order of their codes the first that fails gives its code. -/
theorem failing_cons {c : Nat} {ok : Bool} {cs : List (Nat × Bool)} (h : ∀ x ∈ cs, c ≤ x.1) :
    failing (ck c ok :: cs) = if ok = true then failing cs else c := by
  rw [ck, failing]
  rcases failing_ge h with h0 | hc
  · simp [h0]
  · simp [hc]
theorem failing_sendChecks (g : Gang) (pm : Nat) : failing (sendChecks g pm) =
    if pmCore pm ∈ g.members then if pmClean pm = true then 0 else 3 else 1 := by
  rw [sendChecks, failing_cons (by simp [ck]), failing_cons (by simp), failing]
  simp

section
variable {g : Gang} {pm : Nat}

theorem sendChecks_pass (hc : pmClean pm = true) (hm : pmCore pm ∈ g.members) : failing (sendChecks g pm) = 0 := by
  rw [failing_sendChecks, if_pos hm, if_pos hc]
theorem sendChecks_stranger (hm : pmCore pm ∉ g.members) : failing (sendChecks g pm) = 1 := by
  rw [failing_sendChecks, if_neg hm]
theorem sendChecks_reserved (hm : pmCore pm ∈ g.members) (hc : ¬pmClean pm = true) : failing (sendChecks g pm) = 3 := by
  rw [failing_sendChecks, if_pos hm, if_neg hc]
end

/-- The checks of MCAST: the group's cores among the members, the group held, the reserved bits. -/
def mcastChecks (g : Gang) (x : Group) (pm : Nat) : List (Nat × Bool) :=
  [ck 1 (x.cores.all (fun k => g.members.contains k)), ck 2 (!x.holders.isEmpty), ck 3 (field 15 11 pm == 0)]
theorem failing_mcastChecks (g : Gang) (x : Group) (pm : Nat) : failing (mcastChecks g x pm) =
    if ∀ k ∈ x.cores, k ∈ g.members then if x.holders ≠ [] then if pm / 2 ^ 11 % 32 = 0 then 0 else 3 else 2 else 1 := by
  have hbits : field 15 11 pm = pm / 2 ^ 11 % 32 := rfl
  rw [mcastChecks, failing_cons (by simp [ck]), failing_cons (by simp [ck]), failing_cons (by simp), failing, hbits]
  simp

section
variable {g : Gang} {x : Group} {pm : Nat}

theorem mcastChecks_pass (h0 : pm / 2 ^ 11 % 32 = 0) (hh : x.holders ≠ []) (hm : ∀ k ∈ x.cores, k ∈ g.members) :
    failing (mcastChecks g x pm) = 0 := by
  rw [failing_mcastChecks, if_pos hm, if_pos hh, if_pos h0]
theorem mcastChecks_stranger (hm : ∃ k ∈ x.cores, k ∉ g.members) : failing (mcastChecks g x pm) = 1 := by
  rw [failing_mcastChecks, if_neg (by simpa using hm)]
theorem mcastChecks_unfilled (hm : ∀ k ∈ x.cores, k ∈ g.members) (hh : x.holders = []) : failing (mcastChecks g x pm) = 2 := by
  rw [failing_mcastChecks, if_pos hm, if_neg (not_not.mpr hh)]
theorem mcastChecks_reserved (hm : ∀ k ∈ x.cores, k ∈ g.members) (hh : x.holders ≠ []) (h0 : pm / 2 ^ 11 % 32 ≠ 0) :
    failing (mcastChecks g x pm) = 3 := by
  rw [failing_mcastChecks, if_pos hm, if_pos hh, if_neg h0]
end

/-! ## Full queues and busy lanes (R240) -/

/-- The cores of a group rise. -/
theorem cores_rise (x : Group) : x.cores.Pairwise (· < ·) := by
  have hfold : x.cores = (x.mem.map (·.1)).foldl sadd [] := (List.foldl_map ..).symm
  rw [hfold]
  exact foldl_sadd_rises List.Pairwise.nil

section
variable {w : World} {q : Nat} {ts : List Nat} {k : Nat}

theorem fullQueue_none (h : ∀ k ∈ ts, w.reserved k q < 16) : w.fullQueue q ts = none := by
  simpa [World.fullQueue] using h
theorem fullQueue_single_none (h : w.reserved k q < 16) : w.fullQueue q [k] = none :=
  fullQueue_none fun j hj => by rwa [List.mem_singleton.mp hj]
theorem fullQueue_single (h : 16 ≤ w.reserved k q) : w.fullQueue q [k] = some k := List.find?_cons_of_pos (by simpa using h)
theorem fullQueue_lowest (hts : ts.Pairwise (· < ·)) (hk : k ∈ ts) (hfull : 16 ≤ w.reserved k q)
    (hroom : ∀ j ∈ ts, j < k → w.reserved j q < 16) : w.fullQueue q ts = some k := by
  induction ts with
  | nil => cases hk
  | cons x r ih =>
    obtain ⟨hx, hr⟩ := List.pairwise_cons.mp hts
    rcases List.mem_cons.mp hk with rfl | hkr
    · exact List.find?_cons_of_pos (by simpa using hfull)
    · have hroomx : w.reserved x q < 16 := hroom x List.mem_cons_self (hx k hkr)
      rw [World.fullQueue, List.find?_cons_of_neg (by simpa using hroomx)]
      exact ih hr hkr fun j hj => hroom j (List.mem_cons_of_mem x hj)
end

section
variable {c : Core} {ln t : Nat}

theorem laneBusy_none (h : ∀ u, fget c.lanes none ln = some u → t ≤ u ∨ u + 4 ≤ t) : c.laneBusy ln t = none := by
  rw [Core.laneBusy]
  cases hu : fget c.lanes none ln with
  | none => rfl
  | some u =>
    have hfree := h u hu
    exact if_neg (by simp; omega)
theorem laneBusy_some {u : Nat} (h : fget c.lanes none ln = some u) (h1 : u < t) (h2 : t < u + 4) :
    c.laneBusy ln t = some (t - u) := by
  rw [Core.laneBusy, h]
  exact if_pos (by simp [h1, h2])
end

/-! ## What a send does (R128, R237, R240) -/

/-- The vector send that a lane has last taken. -/
def Core.takesLane (c : Core) (lane : Option Nat) (t : Nat) : Core :=
  match lane with
  | some l => { c with lanes := fput c.lanes l (some t) }
  | none => c
/-- The sender counts an entry for each of `n` targets and its lane is taken. -/
def Core.sent (c : Core) (lane : Option Nat) (n t : Nat) : Core := (c.count 0x2C n).takesLane lane t
theorem sent_registers (c : Core) (lane : Option Nat) (n t : Nat) : SameRegisters c (c.sent lane n t) := by
  cases lane <;> exact ⟨rfl, rfl, rfl, rfl, rfl, rfl, rfl, rfl, rfl, rfl⟩
theorem sent_evq (c : Core) (lane : Option Nat) (n t : Nat) : fget (c.sent lane n t).evq 0 0x2C = fget c.evq 0 0x2C + n := by
  rw [← count_evq]
  cases lane <;> rfl
theorem sameRegisters_refl (c : Core) : SameRegisters c c := ⟨rfl, rfl, rfl, rfl, rfl, rfl, rfl, rfl, rfl, rfl⟩
/-- A core that is rewritten with its registers kept leaves all registers as they are. -/
theorem quiet_withMe {s : State} {c : Core} (h : SameRegisters s.me c) : Quiet s (s.withMe c) := by
  refine ⟨fun j => ?_, rfl, rfl, rfl, rfl, rfl⟩
  rcases eq_or_ne j s.w.cur.core with rfl | hj
  · rwa [show (s.withMe c).w.core s.w.cur.core = c from me_withMe s c]
  · rw [show (s.withMe c).w.core j = s.w.core j from fget_fput_other _ _ _ _ _ hj]
    exact sameRegisters_refl _

/-- The lane that a send of the last three cycles holds, and how long ago that was. -/
def State.laneHeld (s : State) (lane : Option Nat) : Option (Nat × Nat) :=
  lane.bind (fun l => (s.me.laneBusy l s.w.cur.issue).map (fun d => (l, d)))
theorem laneHeld_none {s : State} {ln : Nat}
    (h : ∀ u, fget s.me.lanes none ln = some u → s.w.cur.issue ≤ u ∨ u + 4 ≤ s.w.cur.issue) : s.laneHeld (some ln) = none := by
  rw [State.laneHeld, Option.bind_some, laneBusy_none h, Option.map_none]
theorem laneHeld_some {s : State} {ln u : Nat} (h : fget s.me.lanes none ln = some u) (h1 : u < s.w.cur.issue)
    (h2 : s.w.cur.issue < u + 4) : s.laneHeld (some ln) = some (ln, s.w.cur.issue - u) := by
  rw [State.laneHeld, Option.bind_some, laneBusy_some h h1 h2, Option.map_some]
/-- Cycles from the issue of a send until its entry is posted at every target. -/
def sendLat (core : Nat) (ts : List Nat) : Nat := if ts.all (fun k => k / 8 == core / 8) then 16 else 80

section
variable {s : State} {cs : List (Nat × Bool)} {ts : List Nat} {pm : Nat} {lane : Option Nat} {data : List Byte}

/-- A failed check traps ILLEGAL with its reason. -/
theorem sendAct_illegal {r : Nat} (hc : failing cs = r) (hr : r ≠ 0) : done s (only (sendAct cs ts pm lane data s)) =
    .next (s.withWorld (s.w.trap 1 (2 ^ 33 + r * 2 ^ 34))) := by
  subst hc
  refine done_only_eq ?_
  unfold sendAct
  split
  · next h => exact absurd h hr
  · rfl
/-- A full queue traps QUEUE. -/
theorem sendAct_full {x : Nat} (hc : failing cs = 0) (hq : s.w.fullQueue (pmQue pm) ts = some x) :
    done s (only (sendAct cs ts pm lane data s)) =
      .next (s.withWorld (s.w.trap 11 (x + pmQue pm * 2 ^ 8 + 16 * 2 ^ 16))) :=
  done_only_eq (by simp only [sendAct, hc, hq])
/-- So does a lane that is held. -/
theorem sendAct_busy {ln d : Nat} (hc : failing cs = 0) (hq : s.w.fullQueue (pmQue pm) ts = none)
    (hl : s.laneHeld lane = some (ln, d)) : done s (only (sendAct cs ts pm lane data s)) =
      .next (s.withWorld (s.w.trap 11 (2 ^ 30 + ln * 2 ^ 28 + d * 2 ^ 24))) := by
  have hlane : lane.bind (fun l => (s.w.cc.laneBusy l s.w.cur.issue).map (fun d => (l, d))) = some (ln, d) := hl
  exact done_only_eq (by simp only [sendAct, hc, hq, hlane])
/-- Any other send is counted, takes its lane and goes in flight. -/
theorem sendAct_sent (hc : failing cs = 0) (hq : s.w.fullQueue (pmQue pm) ts = none) (hl : s.laneHeld lane = none) :
    sendAct cs ts pm lane data s = (s.withMe (s.me.sent lane ts.length s.w.cur.issue)).w.fly s.w.cur.issue
      (s.w.cur.issue + sendLat s.w.cur.core ts) (s.w.cur.issue + sendLat s.w.cur.core ts) (.send ts (pmQue pm) (pmSeq pm)) [] data := by
  have hcore : ((s.w.count s.w.cur.core 0x2C ts.length).onCur (fun c => c.takesLane lane s.w.cur.issue)) =
      (s.withMe (s.me.sent lane ts.length s.w.cur.issue)).w := by
    simp only [World.count, World.onCur, World.modCore, World.setCore, World.core, fget_fput_same, fput_fput]
    rfl
  have hlane : lane.bind (fun l => (s.w.cc.laneBusy l s.w.cur.issue).map (fun d => (l, d))) = none := hl
  simp only [sendAct, hc, hq, hlane, ← hcore]
  cases lane <;> rfl
theorem sendAct_flies (hc : failing cs = 0) (hq : s.w.fullQueue (pmQue pm) ts = none) (hl : s.laneHeld lane = none) :
    Flies (done s (only (sendAct cs ts pm lane data s))) s s.w.cur.issue
      (s.w.cur.issue + sendLat s.w.cur.core ts) (s.w.cur.issue + sendLat s.w.cur.core ts) (.send ts (pmQue pm) (pmSeq pm)) [] data := by
  have hquiet := quiet_withMe (sent_registers s.me lane ts.length s.w.cur.issue)
  have hgang : (s.withMe (s.me.sent lane ts.length s.w.cur.issue)).w.gangOf s.w.cur.core = s.w.gangOf s.w.cur.core := by
    have hgang : (s.me.sent lane ts.length s.w.cur.issue).gang = s.me.gang := by cases lane <;> rfl
    exact congrArg (·.getD 4096) ((congrArg Core.gang (me_withMe s _)).trans hgang)
  rw [sendAct_sent hc hq hl]
  exact ⟨_, _, rfl, rfl, rfl, hquiet, rfl, rfl, hgang, rfl, rfl, rfl, rfl, rfl, rfl, rfl, rfl, rfl, rfl, rfl, rfl, rfl⟩
theorem sendAct_evq (hc : failing cs = 0) (hq : s.w.fullQueue (pmQue pm) ts = none) (hl : s.laneHeld lane = none) :
    fget (s.withWorld (sendAct cs ts pm lane data s)).me.evq 0 0x2C = fget s.me.evq 0 0x2C + ts.length := by
  rw [sendAct_sent hc hq hl, ← sent_evq s.me lane ts.length s.w.cur.issue]
  exact congrArg (fun c => fget (Core.evq c) 0 0x2C) (me_withMe s _)
end

/-! ## What a receive does (R238, R241, R242) -/

/-- The head of a queue of the issuing core has left it. -/
def State.receives (s : State) (q : Nat) : State := s.withMe (s.me.pop q 1)
theorem pop_registers (c : Core) (q n : Nat) : SameRegisters c (c.pop q n) := ⟨rfl, rfl, rfl, rfl, rfl, rfl, rfl, rfl, rfl, rfl⟩
theorem queue_pop_same (c : Core) (q n : Nat) : (c.pop q n).queue q = (c.queue q).drop n := fget_fset_same ..
theorem queue_pop_other {q j : Nat} (h : j ≠ q) (c : Core) (n : Nat) : (c.pop q n).queue j = c.queue j := fget_fset_other _ _ _ _ _ h
theorem receives_quiet (s : State) (q : Nat) : Quiet s (s.receives q) := quiet_withMe (pop_registers ..)
theorem receives_queue {s : State} {q : Nat} {e : QEntry} {rest : List QEntry} (h : s.me.queue q = e :: rest) :
    (s.receives q).me.queue q = rest ∧ ∀ j, j ≠ q → (s.receives q).me.queue j = s.me.queue j := by
  rw [State.receives, me_withMe, queue_pop_same, h]
  exact ⟨rfl, fun j hj => queue_pop_other hj ..⟩

section
variable {s : State} {p : Src} {pm : Nat} {f : World → Line → World} (hpm : (s.w.srcZ p).toNat = pm)
include hpm

theorem recvAct_illegal (hc : ¬pmClean pm = true) : recvAct p f s = s.w.trap 1 (2 ^ 33 + 3 * 2 ^ 34) := by
  subst hpm
  exact if_pos (by simpa using hc)
theorem recvAct_empty (hc : pmClean pm = true) (hq : s.me.queue (pmQue pm) = []) :
    recvAct p f s = s.w.trap 4 (pmCore pm + pmQue pm * 2 ^ 8 + pmSeq pm * 2 ^ 16 + 2 ^ 32) := by
  subst hpm
  have hhead : (s.w.cc.queue (pmQue (s.w.srcZ p).toNat)).head? = none := congrArg List.head? hq
  simp only [recvAct, hc, hhead]
  rfl
variable {e : QEntry} {rest : List QEntry} (hc : pmClean pm = true) (hq : s.me.queue (pmQue pm) = e :: rest)
include hc hq

theorem recvAct_head : recvAct p f s = if e.sender = pmCore pm ∧ e.seq = pmSeq pm then f (s.receives (pmQue pm)).w e.data
    else s.w.trap 4 (pmCore pm + pmQue pm * 2 ^ 8 + pmSeq pm * 2 ^ 16 + (e.sender * 2 ^ 33 + e.seq * 2 ^ 40)) := by
  subst hpm
  have hhead : (s.w.cc.queue (pmQue (s.w.srcZ p).toNat)).head? = some e := congrArg List.head? hq
  simp only [recvAct, hc, hhead, matches_, Bool.and_eq_true, beq_iff_eq]
  rfl
end

/-! ## The forms -/

section
variable (s : State) {ln v a t : Nat} {p : Src}

theorem exec_send : exec (.send ln v p) s = done s (only (sendAct (sendChecks (s.w.gangAt s.w.cur.core) (s.w.srcZ p).toNat)
    [pmCore (s.w.srcZ p).toNat] (s.w.srcZ p).toNat (some ln) (leBytes 1024 (s.w.rdV v).toNat) s)) := rfl
theorem exec_sends : exec (.sends a p) s = done s (only (sendAct (sendChecks (s.w.gangAt s.w.cur.core) (s.w.srcZ p).toNat)
    [pmCore (s.w.srcZ p).toNat] (s.w.srcZ p).toNat none (leBytes 1024 (s.w.rdS a).toNat) s)) := rfl
theorem exec_mcast : exec (.mcast ln v p) s = done s (only (sendAct
    (mcastChecks (s.w.gangAt s.w.cur.core) (s.w.group (field 7 0 (s.w.srcZ p).toNat)) (s.w.srcZ p).toNat)
    (s.w.group (field 7 0 (s.w.srcZ p).toNat)).cores (s.w.srcZ p).toNat (some ln) (leBytes 1024 (s.w.rdV v).toNat) s)) := rfl
theorem exec_recv : exec (.recv v p) s = .next (s.withWorld (recvAct p (fun w x => w.wrV 3 v x allV) s)) := rfl
theorem exec_recvs : exec (.recvs t p) s = .next (s.withWorld (recvAct p (fun w x => w.wrS 3 t (x.setWidth 64)) s)) := rfl
/-- Both receives do as the shared action does, where it pops nothing. -/
theorem exec_recv_turnedAway {w : World} (h : ∀ f, recvAct p f s = w) :
    exec (.recv v p) s = .next (s.withWorld w) ∧ exec (.recvs t p) s = .next (s.withWorld w) := by
  rw [exec_recv, exec_recvs, h, h]
  exact ⟨rfl, rfl⟩
/-- Both deliver the data that is popped. -/
theorem exec_recv_popped {q : Nat} {x : Line} (h : ∀ f, recvAct p f s = f (s.receives q).w x) :
    exec (.recv v p) s = .next ((s.receives q).due [(3, .v v x allV)]) ∧
      exec (.recvs t p) s = .next ((s.receives q).due [(3, s.scalar t (BitVec.ofNat 64 x.toNat))]) := by
  rw [exec_recv, exec_recvs, h, h, BitVec.ofNat_toNat]
  exact ⟨rfl, rfl⟩
end

/-- The bytes of a number, each by its weight. -/
theorem leBytes_eq_map (n x : Nat) : leBytes n x = (List.range n).map (fun i => BitVec.ofNat 8 (x / 256 ^ i)) := by
  refine List.ext_getElem (by simp) fun i h _ => ?_
  rw [leBytes_getElem, List.getElem_map, List.getElem_range, pow_mul]
  rfl

/-- Settles O28: each clause is the case of the send or of the receive that its hypotheses name. -/
theorem operandQueues : Obligations.OperandQueues := by
  unfold Obligations.OperandQueues
  intro s ln v a t p q rest core g pm who que seq clean lat bytes laneFree grp traps full busy illegal wrong popped
  have hwho : pmCore pm = who := pmCore_eq pm
  have hgrp : s.w.group (field 7 0 pm) = grp := congrArg s.w.group (pmGroup_eq pm)
  have hclean : (pmClean pm = true) = clean := propext (pmClean_iff pm)
  have hbytes : leBytes 1024 = bytes := funext (leBytes_eq_map 1024)
  clear_value who grp clean bytes
  subst hwho hgrp hclean hbytes
  rw [exec_send, exec_sends, exec_mcast]
  refine ⟨fun hc hm hr hl => sendAct_flies (sendChecks_pass hc hm) (fullQueue_single_none hr) (laneHeld_none hl),
    fun hc hm hr => sendAct_flies (sendChecks_pass hc hm) (fullQueue_single_none hr) rfl,
    fun h0 hh hk hl => ?_, ⟨_, rfl, fun h0 hh hk hl => ?_⟩, fun hc hm hr => ?_, fun k h0 hh hm hk hr hl => ?_,
    fun last hu h1 h2 => ⟨fun hc hm hr => ?_, fun h0 hh hk => ?_⟩, fun hm => ?_, fun hm hc => ?_, fun hm => ?_, fun hm hh => ?_,
    fun hm hh h0 => ?_, fun hc => ?_, fun hc hq hs hn => ?_, fun hc hq hn => ?_, fun hc hq => ?_⟩
  · exact sendAct_flies (mcastChecks_pass h0 hh fun k h => (hk k h).1) (fullQueue_none fun k h => (hk k h).2) (laneHeld_none hl)
  · exact sendAct_evq (mcastChecks_pass h0 hh fun k h => (hk k h).1) (fullQueue_none fun k h => (hk k h).2) (laneHeld_none hl)
  · exact ⟨sendAct_full (sendChecks_pass hc hm) (fullQueue_single hr), sendAct_full (sendChecks_pass hc hm) (fullQueue_single hr)⟩
  · exact sendAct_full (mcastChecks_pass h0 hh hm) (fullQueue_lowest (cores_rise _) hk hr hl)
  · exact sendAct_busy (sendChecks_pass hc hm) (fullQueue_single_none hr) (laneHeld_some hu h1 h2)
  · exact sendAct_busy (mcastChecks_pass h0 hh fun k h => (hk k h).1) (fullQueue_none fun k h => (hk k h).2)
      (laneHeld_some hu h1 h2)
  · exact ⟨sendAct_illegal (sendChecks_stranger hm) (by decide), sendAct_illegal (sendChecks_stranger hm) (by decide)⟩
  · exact ⟨sendAct_illegal (sendChecks_reserved hm hc) (by decide), sendAct_illegal (sendChecks_reserved hm hc) (by decide)⟩
  · exact sendAct_illegal (mcastChecks_stranger hm) (by decide)
  · exact sendAct_illegal (mcastChecks_unfilled hm hh) (by decide)
  · exact sendAct_illegal (mcastChecks_reserved hm hh h0) (by decide)
  · exact exec_recv_turnedAway s fun f => recvAct_illegal rfl hc
  · exact ⟨s.receives que, receives_queue hq, rfl, receives_quiet s que,
      exec_recv_popped s fun f => (recvAct_head rfl hc hq).trans (if_pos ⟨hs, hn⟩)⟩
  · exact exec_recv_turnedAway s fun f => (recvAct_head rfl hc hq).trans (if_neg (not_and_or.mpr hn))
  · exact exec_recv_turnedAway s fun f => recvAct_empty rfl hc hq

end Sys2Proof.Machine
end

/-! SUPPORT. Time, SCLD, the fences, containment regions and event control (R127, R129, R168, R231, R284, R341) settle O35. -/
section
namespace Sys2Proof.Machine
open Sys2Proof

/-! ## The number that some bytes hold (R36, R64) -/

theorem leNat_lt (l : List Byte) : leNat l < 2 ^ (8 * l.length) := by
  induction l with
  | nil => simp [leNat]
  | cons b r ih =>
    have hb : b.toNat < 256 := b.isLt
    rw [leNat, List.length_cons, Nat.mul_add, pow_add]
    omega
theorem leNat_byte (l : List Byte) (i : Nat) (hi : i < l.length) : leNat l / 2 ^ (8 * i) % 256 = l[i].toNat := by
  induction l generalizing i with
  | nil => cases hi
  | cons b r ih =>
    have hb : b.toNat < 256 := b.isLt
    rw [leNat]
    cases i with
    | zero => simp; omega
    | succ i =>
      have hpow : 2 ^ (8 * (i + 1)) = 256 * 2 ^ (8 * i) := by rw [Nat.mul_add, pow_add]; ring
      have hrest : (b.toNat + 256 * leNat r) / 256 = leNat r := by omega
      rw [hpow, ← Nat.div_div_eq_div_mul, hrest, List.getElem_cons_succ, ih]
/-- What a memory reads as a number is that number. -/
theorem isNumber_num (m : Mems) (sp : Space) (a n : Nat) : IsNumber m sp a n (m.num sp a n) := by
  have hlt := leNat_lt (m.bytes sp a n)
  rw [bytes_length] at hlt
  refine ⟨hlt, fun i hi => ?_⟩
  rw [Mems.num, leNat_byte _ i (by rwa [bytes_length]), bytes_getElem]

/-! ## Reading a scratchpad without errors (R172, R178) -/

section
variable {w : World} {k : Nat}

/-- No soft error is known, and a core has no poisoned row and no brick that failed. -/
structure Sound (w : World) (k : Nat) : Prop where
  softErrs : w.softErrs = []
  poison : (w.core k).poison = []
  courses : (w.core k).courses = []
theorem Sound.counted (h : Sound w k) (j src n : Nat) : Sound (w.count j src n) k := by
  obtain ⟨he, hp, hc⟩ := h
  have hcore : ((w.count j src n).core k).poison = (w.core k).poison ∧ ((w.count j src n).core k).courses = (w.core k).courses := by
    rcases eq_or_ne k j with rfl | hj
    · rw [World.count, core_modCore_same]
      exact ⟨rfl, rfl⟩
    · rw [World.count, core_modCore_other _ _ _ _ hj]
      exact ⟨rfl, rfl⟩
  exact ⟨he, hcore.1.trans hp, hcore.2.trans hc⟩
theorem Sound.lookWords (h : Sound w k) (row : Nat) (ws : List Nat) : w.lookWords k row ws = { w := w, bad := false } := by
  obtain ⟨he, hp, hc⟩ := h
  have hhealth (j : Nat) : (w.core k).health j = Course.healthy := by rw [Core.health, hc, fget_nil]
  have herrs : pickWords ws (w.errsAt (.row k row)) = [] := by rw [World.errsAt, he]; rfl
  have hfailed : (w.core k).rowFailed row = false := by rw [Core.rowFailed, hhealth]; rfl
  have hlost : (w.core k).rowLost row = false := by rw [Core.rowLost, hfailed, Bool.and_false]
  have hfixed : (w.corrected k 0).worn k row 0 = w := rfl
  simp [World.lookWords, hp, herrs, hfailed, hlost, hasDouble, hfixed]
theorem Sound.lookRows (h : Sound w k) (row n : Nat) : w.lookRows k row n = { w := w, bad := false } := by
  induction n generalizing row with
  | zero => rfl
  | succ n ih => simp only [World.lookRows, World.lookRow, h.lookWords, ih]; rfl
theorem Sound.look (h : Sound w k) (la n : Nat) : w.look k la n = { w := w, bad := false } := by
  rw [World.look]
  split
  · exact h.lookWords ..
  · exact h.lookRows ..
end

/-- A load that no checker stops and that meets no error is counted and hands over what the bytes hold. -/
theorem loadAct_sound {s : State} {la n : Nat} (h : Sound s.w s.w.cur.core) (hearly : s.w.early (la / 256) (rowsOf n) = none)
    (f : World → Nat → World) :
    s.loadAct la n f = only (f (s.w.count s.w.cur.core 0x20 1) (s.spd s.w.cur.core la n)) := by
  have hlook : s.w.counted.look s.w.cur.core la n = { w := s.w.counted, bad := false } := (h.counted ..).look ..
  simp only [State.loadAct, hearly, hlook]
  rfl

/-! ## The forms -/

section
variable (s : State) {d n a : Nat} {b : Src}

theorem exec_rdtt : exec (.rdtt d) s = .next (s.due [(1, s.scalar d (BitVec.ofNat 64 (s.w.gangAt s.w.cur.core).ttc))]) := rfl
theorem exec_rdwt : exec (.rdwt d) s = .next (s.due [(1, s.scalar d (BitVec.ofNat 64 (s.w.now / 1000000 + s.w.wtcRef)))]) := by
  have hwtc : BitVec.ofNat 64 s.w.wtc = BitVec.ofNat 64 (s.w.now / 1000000 + s.w.wtcRef) :=
    BitVec.eq_of_toNat_eq (by simp [World.wtc])
  rw [← hwtc]
  rfl
/-- The address of SCLD (R168): the sum in 21 bits, aligned down. -/
theorem scld_address (x y : Word) : aligned ((x + y).toNat % 2 ^ 21) 16 = ((x.toNat + y.toNat) % 2 ^ 21) / 16 * 16 := by
  rw [BitVec.toNat_add, Nat.mod_mod_of_dvd _ (by decide), aligned]
theorem exec_scld {la : Nat} (hla : aligned ((s.w.rdS a + s.w.src b).toNat % 2 ^ 21) 16 = la) (h : Sound s.w s.w.cur.core)
    (hearly : s.w.early (la / 256) 1 = none) : exec (.scld n a b) s =
      .next ((s.withWorld (s.w.count s.w.cur.core 0x20 1)).due [(4, .sc n (BitVec.ofNat 128 (s.spd s.w.cur.core la 16)))]) := by
  subst hla
  exact congrArg (done s) (loadAct_sound h hearly _)
end

/-! ## Fences (R231, R284, R285) -/

section
variable {s : State} {sc : Scope}

theorem exec_fence_holds (hsc : sc ≠ .pod) (h : (s.w.promise sc).1 ≤ s.w.cur.issue) : exec (.fence sc) s = .next s := by
  have hact : fenceAct sc s = s.w := by simp [fenceAct, hsc, Nat.not_lt.mpr h]
  exact done_only_eq hact
theorem exec_fence_traps (hsc : sc ≠ .pod) (h : s.w.cur.issue < (s.w.promise sc).1) : exec (.fence sc) s = .next (s.withWorld
    (s.w.trap 8 (fenceInfo (s.w.promise sc).1 s.w.cur.issue (scopeReach sc) (s.w.promise sc).2 false))) :=
  done_only_eq (by simp [fenceAct, hsc, h])
theorem exec_ifence_holds (h : s.me.ifstat.busy = false) : exec .ifence s = .next (s.due [(1, .ifence)]) :=
  done_only_eq (if_neg (Bool.not_eq_true _ ▸ h))
theorem exec_ifence_traps (h : s.me.ifstat.busy = true) : exec .ifence s = .next (s.withWorld
    (s.w.trap 8 (min (s.w.fillPosted s.w.cur.core - s.w.cur.issue) 0xFFFFFFFF + 2 ^ 32 + 3 * 2 ^ 37))) :=
  done_only_eq (if_pos h)
end

/-! ## Containment regions and event control (R129, R339, R341) -/

theorem isRegionForm_iff {o : Option Instr} : isRegionForm o = true ↔ o = some .crclose ∨ ∃ x, o = some (.cropen x) := by
  constructor
  · intro h
    unfold isRegionForm at h
    split at h
    · exact .inr ⟨_, rfl⟩
    · exact .inl rfl
    · cases h
  · rintro (rfl | ⟨x, rfl⟩) <;> rfl
theorem regionTogether_iff {s : State} : s.regionTogether = true ↔ ∀ k ∈ (s.w.gangAt s.w.cur.core).members, k ≠ s.w.cur.core →
    s.issuing k 15 = some .crclose ∨ ∃ x, s.issuing k 15 = some (.cropen x) := by
  simp only [State.regionTogether, List.all_eq_true, Bool.or_eq_true, beq_iff_eq, isRegionForm_iff, or_iff_not_imp_left, Ne]

section
variable {s : State} {b : Src} {op : EvOp} {die : Bool}

/-- Where the gang keeps together, the second check decides. -/
theorem failing_region {code : Nat} {p : Prop} [Decidable p] (h : s.regionTogether = true) (hc : 1 ≤ code) :
    failing [ck 1 s.regionTogether, ck code (decide p)] = if p then 0 else code := by
  rw [failing_cons (by simpa [ck] using hc), failing_cons (by simp), if_pos h, failing]
  simp
theorem exec_cropen_opens (h : s.regionTogether = true) (hd : s.me.ctx.crDepth < 4) :
    exec (.cropen b) s = .next (s.due [(1, .cropen ((s.w.src b).toNat % 2 ^ 16))]) := by
  have hchecks : failing [ck 1 s.regionTogether, ck 2 (s.w.cc.ctx.crDepth < 4)] = 0 :=
    (failing_region h (by decide)).trans (if_pos hd)
  refine done_only_eq ?_
  simp only [cropenAct, hchecks]
  rfl
theorem exec_cropen_full (h : s.regionTogether = true) (hd : 4 ≤ s.me.ctx.crDepth) :
    exec (.cropen b) s = .next (s.withWorld (s.w.trap 1 (2 ^ 41 + 2 * 2 ^ 42))) := by
  have hchecks : failing [ck 1 s.regionTogether, ck 2 (s.w.cc.ctx.crDepth < 4)] = 2 :=
    (failing_region h (by decide)).trans (if_neg (not_lt.mpr hd))
  refine done_only_eq ?_
  simp only [cropenAct, hchecks]
  rfl
theorem exec_crclose_closes (h : s.regionTogether = true) (hd : 0 < s.me.ctx.crDepth) :
    exec .crclose s = .next (s.due [(1, .crclose)]) := by
  have hchecks : failing [ck 1 s.regionTogether, ck 3 (0 < s.w.cc.ctx.crDepth)] = 0 :=
    (failing_region h (by decide)).trans (if_pos hd)
  refine done_only_eq ?_
  simp only [crcloseAct, hchecks]
  rfl
theorem exec_crclose_empty (h : s.regionTogether = true) (hd : s.me.ctx.crDepth = 0) :
    exec .crclose s = .next (s.withWorld (s.w.trap 1 (2 ^ 41 + 3 * 2 ^ 42))) := by
  have hchecks : failing [ck 1 s.regionTogether, ck 3 (0 < s.w.cc.ctx.crDepth)] = 3 :=
    (failing_region h (by decide)).trans (if_neg (Nat.not_lt.mpr hd.le))
  refine done_only_eq ?_
  simp only [crcloseAct, hchecks]
  rfl
theorem exec_evctl (h : die = false ∨ s.w.cur.sup = true) :
    exec (.evctl op die b) s = .next (s.due [(1, .evctl op die ((s.w.src b).toNat % 2 ^ 16))]) :=
  done_only_eq (if_neg (by rcases h with h | h <;> simp [h]))
theorem exec_evctl_traps (hd : die = true) (hs : s.w.cur.sup = false) :
    exec (.evctl op die b) s = .next (s.withWorld (s.w.trap 2 (2 ^ 12 + 2 ^ 13))) :=
  done_only_eq (if_pos (by simp [hd, hs]))
end

/-- Settles O35, form by form. -/
theorem timeFencesEvents : Obligations.TimeFencesEvents := by
  unfold Obligations.TimeFencesEvents
  intro s d n a b sc op die i at_ others
  have hothers : s.regionTogether = true ↔ others := regionTogether_iff
  refine ⟨exec_rdtt s, exec_rdwt s, fun he hp hc hearly => ⟨_, ?_, exec_scld s (scld_address ..) ⟨he, hp, hc⟩ hearly⟩,
    exec_fence_holds, fun hsc h => ⟨_, exec_fence_traps hsc h⟩, exec_ifence_holds, fun h => ⟨_, exec_ifence_traps h, by omega⟩,
    fun h => exec_cropen_opens (hothers.mpr h), fun h => exec_crclose_closes (hothers.mpr h), fun h => exec_cropen_full (hothers.mpr h),
    fun h => exec_crclose_empty (hothers.mpr h), exec_evctl, exec_evctl_traps⟩
  have hat : spdAt s.w.cur.core at_ = s.w.cur.core * 2 ^ 21 + at_ := by
    have hlt : at_ < 2 ^ 21 := by omega
    rw [spdAt, Nat.mod_eq_of_lt hlt]
  exact hat ▸ isNumber_num ..

end Sys2Proof.Machine
end

/-! SUPPORT. The elements of a vector value, and what a vector form writes of a list of them (R63, R131, R136, R137, R160). -/
section
namespace Sys2Proof.Machine
open Sys2Proof

/-! ## Lists by their index -/

section
variable {α β γ : Type} (N k : Nat)

theorem eq_map_range {l : List α} {f : Nat → α} (hl : l.length = N) (h : ∀ i (hi : i < l.length), l[i] = f i) :
    l = (List.range N).map f :=
  List.ext_getElem (by simpa using hl) fun i hi _ => by simpa using h i hi
theorem map_range_congr {f g : Nat → α} (h : ∀ i < N, f i = g i) : (List.range N).map f = (List.range N).map g :=
  List.map_congr_left fun i hi => h i (List.mem_range.mp hi)
theorem zipWith_map_map (op : α → β → γ) (f : Nat → α) (g : Nat → β) (l : List Nat) :
    List.zipWith op (l.map f) (l.map g) = l.map (fun i => op (f i) (g i)) := by
  rw [List.zipWith_map, List.zipWith_self]
theorem take_map_range {m : Nat} (h : m ≤ N) (f : Nat → α) : ((List.range N).map f).take m = (List.range m).map f := by
  rw [← List.map_take, List.take_range, Nat.min_eq_left h]
theorem drop_map_range (f : Nat → α) : ((List.range N).map f).drop k = (List.range (N - k)).map (fun i => f (k + i)) :=
  eq_map_range _ (by simp) fun i hi => by simp
theorem append_map_range (f g : Nat → α) : (List.range N).map f ++ (List.range k).map g =
    (List.range (N + k)).map (fun i => if i < N then f i else g (i - N)) :=
  eq_map_range _ (by simp) fun i hi => by
    by_cases h : i < N <;> simp [List.getElem_append, h]
end

/-! ## Elements (R63, R131) -/

section
variable {n i k : Nat}

theorem lane_lt (n i : Nat) (x : Line) : lane n i x < 2 ^ (8 * n) := Nat.mod_lt _ (Nat.two_pow_pos _)
/-- The bits of element `i` are within the value. -/
theorem lane_bits_le (hi : i < 1024 / n) : 8 * n * i + 8 * n ≤ 8192 := by
  have hle : (i + 1) * n ≤ 1024 := (Nat.mul_le_mul_right n hi).trans (Nat.div_mul_le_self 1024 n)
  calc 8 * n * i + 8 * n
    _ = 8 * ((i + 1) * n) := by ring
    _ ≤ 8192 := by omega
theorem lane_ofNat (hi : i < 1024 / n) (v : Nat) : lane n i (BitVec.ofNat 8192 v) = v / 2 ^ (8 * n * i) % 2 ^ (8 * n) := by
  have hle := lane_bits_le hi
  refine Nat.eq_of_testBit_eq fun j => ?_
  simp only [lane, BitVec.toNat_ofNat, Nat.testBit_mod_two_pow, Nat.testBit_div_two_pow]
  by_cases hj : j < 8 * n
  · have hlt : j + 8 * n * i < 8192 := by omega
    simp [hj, hlt]
  · simp [hj]
theorem elemsN_eq (w N x : Nat) : elemsN w N x = (List.range N).map (fun i => x / 2 ^ (8 * w * i) % 2 ^ (8 * w)) := by
  induction N generalizing x with
  | zero => rfl
  | succ N ih =>
    have hshift (i : Nat) : x / 2 ^ (8 * w * (i + 1)) = x / 2 ^ (8 * w) / 2 ^ (8 * w * i) := by
      rw [Nat.div_div_eq_div_mul, ← Nat.pow_add, Nat.mul_succ, Nat.add_comm]
    simp only [elemsN, ih, List.range_succ_eq_map, List.map_cons, List.map_map, Function.comp_def, Nat.succ_eq_add_one, hshift,
      Nat.mul_zero, Nat.pow_zero, Nat.div_one]
theorem elems_eq (n : Nat) (x : Line) : elems n x = (List.range (1024 / n)).map (fun i => lane n i x) := elemsN_eq ..
theorem at0_elems (hi : i < 1024 / n) (x : Line) : at0 (elems n x) i = lane n i x := by
  simp [at0, elems_eq, hi]
theorem lane_lineOf (hi : i < 1024 / n) (f : Nat → Nat) :
    lane n i (lineOf n ((List.range (1024 / n)).map f)) = f i % 2 ^ (8 * n) := by
  rw [lineOf, lane_ofNat hi, joinN_elem (by simpa using hi)]
  simp

/-! ## Enables and predicates (R63, R136, R137) -/

theorem predBits_eq (w N : Nat) (p : Pred) : predBits w N p = (List.range N).map (fun i => p.getLsbD (i * w)) := by
  suffices h : ∀ x, predBits.elemsN' w N x = (List.range N).map (fun i => x.testBit (i * w)) from h p.toNat
  induction N with
  | zero => exact fun _ => rfl
  | succ N ih =>
    intro x
    have hshift (i : Nat) : x.testBit ((i + 1) * w) = (x / 2 ^ w).testBit (i * w) := by
      rw [Nat.testBit_div_two_pow, Nat.succ_mul, Nat.add_comm]
    simp only [predBits.elemsN', ih, List.range_succ_eq_map, List.map_cons, List.map_map, Function.comp_def,
      Nat.succ_eq_add_one, hshift, Nat.zero_mul, Nat.testBit_zero]
    rfl
theorem en_eq (s : State) (g : PredG) (n : Nat) : s.w.en g n = (List.range (1024 / n)).map (s.enabled g n) := by
  unfold World.en State.enabled
  cases g.pr == 0 with
  | true => simp [List.map_const']
  | false => simp [predBits_eq, Function.comp_def]
theorem lane_laneMask (hi : i < 1024 / n) (e : Nat → Bool) :
    lane n i (laneMask n ((List.range (1024 / n)).map e)) = if e i then 2 ^ (8 * n) - 1 else 0 := by
  have hlt : 2 ^ (8 * n) - 1 < 2 ^ (8 * n) := Nat.sub_lt (Nat.two_pow_pos _) Nat.one_pos
  rw [laneMask, List.map_map, lane_lineOf hi]
  dsimp only [Function.comp]
  split <;> simp [Nat.mod_eq_of_lt hlt]
/-- All bits of an element of a predicate are the element's. -/
theorem getLsbD_predOfBits (hn : 0 < n) (hk : k < 1024) (hi : k / n < 1024 / n) (b : Nat → Bool) :
    (predOfBits n ((List.range (1024 / n)).map b)).getLsbD k = b (k / n) := by
  have hbit (x : Nat) : x.testBit k = (x / 2 ^ (n * (k / n)) % 2 ^ n).testBit (k % n) := by
    rw [Nat.testBit_mod_two_pow, Nat.testBit_div_two_pow, Nat.mod_add_div]
    simp [Nat.mod_lt _ hn]
  rw [predOfBits, BitVec.getLsbD_ofNat, hbit, joinN_elem (by simpa using hi)]
  cases h : b (k / n) <;> simp [h, hk, Nat.mod_lt _ hn, Nat.testBit_two_pow_sub_one]
end

/-! ## What is written (R12, R64, R160) -/

section
variable {s : State} {w : World} {lat d n : Nat} {g : PredG}

theorem orEnabled_map (e : Nat → Bool) (f : Nat → Nat) (l : List Nat) :
    orEnabled (l.map e) (l.map f) = (l.filter e).foldl (fun fl i => fl ||| f i) 0 := by
  suffices h : ∀ a, a ||| orEnabled (l.map e) (l.map f) = (l.filter e).foldl (fun fl i => fl ||| f i) a by
    simpa using h 0
  induction l with
  | nil => exact fun a => Nat.or_zero a
  | cons i l ih =>
    intro a
    cases he : e i with
    | true => simpa [orEnabled, he, Nat.or_assoc] using ih (a ||| f i)
    | false => simpa [orEnabled, he] using ih a
theorem wrV_due (x m : Line) : done s (only (w.wrV lat d x m)) = .next ((s.withWorld w).due [(lat, .v d x m)]) := rfl
theorem wrP_due (x m : Pred) : done s (only (w.wrP lat d x m)) = .next ((s.withWorld w).due [(lat, .p d x m)]) := rfl
theorem wrV_flags_due (x m : Line) (f : Nat) : done s (only ((w.wrV lat d x m).orFlags lat f)) =
    .next ((s.withWorld w).due [(lat, .v d x m), (lat, .flags f)]) :=
  congrArg Host.Outcome.next (due_due (s.withWorld w) [(lat, .v d x m)] [(lat, .flags f)])
theorem wrLanes_due (l : List Nat) (en : List Bool) : done s (only (w.wrLanes lat d n l en)) =
    .next ((s.withWorld w).due [(lat, .v d (lineOf n l) (laneMask n en))]) := rfl
theorem wrFloat_due (l : List (Nat × Nat)) (en : List Bool) : done s (only (w.wrFloat lat d n l en)) =
    .next ((s.withWorld w).due [(lat, .v d (lineOf n (l.map (·.1))) (laneMask n en)), (lat, .flags (orEnabled en (l.map (·.2))))]) :=
  wrV_flags_due ..
/-- A list of elements, written where enabled. -/
theorem writesLanes_wrLanes {l : List Nat} {f val : Nat → Nat} (hl : l = (List.range (1024 / n)).map f)
    (h : ∀ i < 1024 / n, f i % 2 ^ (8 * n) = val i) :
    WritesLanes (done s (only (w.wrLanes lat d n l (s.w.en g n)))) s (s.withWorld w) lat d n g val := by
  subst hl
  refine ⟨_, _, wrLanes_due .., fun i hi => ⟨?_, ?_⟩⟩
  · rw [lane_lineOf hi, h i hi]
  · rw [en_eq, lane_laneMask hi]
/-- A list of results and their flags, written where enabled. -/
theorem writesFloats_wrFloat {l : List (Nat × Nat)} {val : Nat → Nat × Nat} (hl : l = (List.range (1024 / n)).map val) :
    WritesFloats (done s (only (w.wrFloat lat d n l (s.w.en g n)))) s (s.withWorld w) lat d n g val := by
  have hflags : orEnabled (s.w.en g n) (l.map (·.2)) = s.flagsOf g n val := by
    rw [hl, en_eq, List.map_map, orEnabled_map]
    rfl
  refine ⟨_, _, (wrFloat_due ..).trans (by rw [hflags]), fun i hi => ⟨?_, ?_⟩⟩
  · rw [hl, List.map_map, lane_lineOf hi]
    rfl
  · rw [en_eq, lane_laneMask hi]
end

end Sys2Proof.Machine
end

/-! SUPPORT. Sums, products, absolute values, minima, maxima, shifts, bitwise forms and counts of elements (R138, R139) settle O20 and O21. -/
section
namespace Sys2Proof.Machine
open Sys2Proof

/-! ## Integer elements (R138, R158) -/

section
variable (sgn sat : Bool) (n i : Nat) (x : Line) (v : Int)

theorem elemOf_eq_inBytes : elemOf n v = inBytes n v := by
  rw [elemOf, inBytes, Nat.cast_pow]
  rfl
theorem inBytes_lt : inBytes n v < 2 ^ (8 * n) := by
  have hpos : (0 : Int) < 2 ^ (8 * n) := Int.pow_pos (by decide)
  have hlt := Int.emod_lt_of_pos v hpos
  have hnonneg := Int.emod_nonneg v hpos.ne'
  zify
  rw [inBytes, Int.toNat_of_nonneg hnonneg]
  exact hlt
theorem inBytes_mod : inBytes n v % 2 ^ (8 * n) = inBytes n v := Nat.mod_eq_of_lt (inBytes_lt n v)
theorem narrow_eq_inBytes : narrow sat sgn n v = inBytes n (if sat then clamped sgn n v else v) := elemOf_eq_inBytes ..
theorem elemVal_lane : elemVal sgn n (lane n i x) = laneVal sgn n i x := by
  rw [elemVal, Nat.mod_eq_of_lt (lane_lt n i x)]
  rfl
theorem inBytes_natCast {m : Nat} (h : m < 2 ^ (8 * n)) : inBytes n (m : Int) = m := by
  have hmod : (m : Int) % 2 ^ (8 * n) = m := Int.emod_eq_of_lt (by omega) (by exact_mod_cast h)
  rw [inBytes, hmod, Int.toNat_natCast]
/-- The low bits of an element's value are the element. -/
theorem inBytes_elemVal {m : Nat} (h : m < 2 ^ (8 * n)) : inBytes n (elemVal sgn n m) = m := by
  have hreduced : inBytes n (elemVal sgn n m) = inBytes n (m : Int) := by
    rw [elemVal, signed, Nat.mod_eq_of_lt h]
    unfold inBytes
    split
    · split
      · rfl
      · rw [Int.sub_emod_right]
    · rfl
  rw [hreduced, inBytes_natCast n h]
theorem inBytes_laneVal : inBytes n (laneVal sgn n i x) = lane n i x := by
  rw [← elemVal_lane, inBytes_elemVal sgn n (lane_lt n i x)]
theorem fdiv_two_pow (k : Nat) : v.fdiv (2 ^ k : Nat) = v / 2 ^ k := by
  rw [Int.fdiv_eq_ediv_of_nonneg _ (Int.natCast_nonneg _), Nat.cast_pow]
  rfl
end

/-! ## The forms of one and of two operands -/

section
variable {s : State} {f : IFmt} {lat d : Nat} {a : VReg} {b : VSrc} {g : PredG} {val : Nat → Nat}

theorem writesLanes_i1 {op : Nat → Nat} (h : ∀ i < 1024 / f.bytes, op (lane f.bytes i (s.w.vop 0 a)) % 2 ^ (8 * f.bytes) = val i) :
    WritesLanes (i1 f lat d a g op s) s (s.withWorld (s.w.rec1 a)) lat d f.bytes g val :=
  writesLanes_wrLanes (by rw [elems_eq, List.map_map]; rfl) h
theorem writesLanes_i2 {op : Nat → Nat → Nat} (h : ∀ i < 1024 / f.bytes,
      op (lane f.bytes i (s.w.vop 0 a)) (lane f.bytes i (s.w.vsrc f.bytes b)) % 2 ^ (8 * f.bytes) = val i) :
    WritesLanes (i2 f lat d a b g op s) s (s.withWorld (s.w.rec2 a b)) lat d f.bytes g val :=
  writesLanes_wrLanes (by rw [elems_eq, elems_eq, zipWith_map_map]) h
end

section
variable (f : IFmt) (sat : Bool) (i : Nat) (x y : Line) (v : Int)

theorem iVal_lane : iVal f (lane f.bytes i x) = laneVal (iSigned f) f.bytes i x := elemVal_lane ..
theorem iNarrow_mod : iNarrow f sat v % 2 ^ (8 * f.bytes) =
    inBytes f.bytes (if sat then clamped (iSigned f) f.bytes v else v) := by
  rw [iNarrow, narrow_eq_inBytes, inBytes_mod]
/-- The smaller, or the greater, of two elements is one of them. -/
theorem choice_mod {c : Prop} [Decidable c] {m : Int} (hx : c → m = laneVal (iSigned f) f.bytes i y)
    (hy : ¬c → m = laneVal (iSigned f) f.bytes i x) :
    (if c then lane f.bytes i y else lane f.bytes i x) % 2 ^ (8 * f.bytes) = inBytes f.bytes m := by
  split
  · rw [hx ‹_›, inBytes_laneVal, Nat.mod_eq_of_lt (lane_lt ..)]
  · rw [hy ‹_›, inBytes_laneVal, Nat.mod_eq_of_lt (lane_lt ..)]
end

/-- Settles O20, form by form, by the value of one element. -/
theorem vectorIntegerArithmetic : Obligations.VectorIntegerArithmetic := by
  unfold Obligations.VectorIntegerArithmetic
  intro s f sat d a b g n x y fit one two
  have hx (i : Nat) : iVal f (lane n i (s.w.vop 0 a)) = x i := iVal_lane ..
  have hy (i : Nat) : iVal f (lane n i (s.w.vsrc n b)) = y i := iVal_lane ..
  refine ⟨writesLanes_i2 fun i _ => ?_, writesLanes_i2 fun i _ => ?_, writesLanes_i2 fun i _ => ?_, writesLanes_i2 fun i _ => ?_,
    writesLanes_i1 fun i _ => ?_, writesLanes_i2 fun i _ => ?_, writesLanes_i2 fun i _ => ?_⟩
  · rw [iNarrow_mod, hx, hy]
  · rw [iNarrow_mod, hx, hy]
  · rw [iNarrow_mod, hx, hy]
  · rw [hx, hy, fdiv_two_pow, elemOf_eq_inBytes, inBytes_mod]
  · have habs : ((x i).natAbs : Int) = if x i < 0 then -x i else x i := by split <;> omega
    rw [iNarrow_mod, hx, habs]
  · rw [hx, hy]
    exact choice_mod f i _ _ (fun h => min_eq_right h.le) (fun h => min_eq_left (not_lt.mp h))
  · rw [hx, hy]
    exact choice_mod f i _ _ (fun h => max_eq_right h.le) (fun h => max_eq_left (not_lt.mp h))

/-! ## Bits of an element (R139) -/

theorem bitLen_eq_size (x : Nat) : bitLen x = Nat.size x :=
  le_antisymm (bitLen_le (Nat.lt_size_self x)) (Nat.size_le.mpr (lt_two_pow_bitLen x))
theorem lt_two_pow_of_le {x k : Nat} (h : x ≤ k) : x < 2 ^ k := h.trans_lt Nat.lt_two_pow_self
theorem popNat_le (k x : Nat) : popNat k x ≤ k := by
  rw [popNat_eq]
  exact (List.length_filter_le ..).trans_eq List.length_range

/-- Settles O21, form by form: each result but the left shift's is within the element's bits. -/
theorem vectorShiftsAndLogic : Obligations.VectorShiftsAndLogic := by
  unfold Obligations.VectorShiftsAndLogic
  intro s f d a b g n x y k one two
  have hx (i : Nat) : x i < 2 ^ (8 * n) := lane_lt ..
  have hy (i : Nat) : y i < 2 ^ (8 * n) := lane_lt ..
  refine ⟨writesLanes_i2 fun i _ => rfl, writesLanes_i2 fun i _ => ?_, writesLanes_i2 fun i _ => ?_, writesLanes_i2 fun i _ => ?_,
    writesLanes_i2 fun i _ => ?_, writesLanes_i2 fun i _ => ?_, writesLanes_i2 fun i _ => ?_, writesLanes_i1 fun i _ => ?_,
    writesLanes_i1 fun i _ => ?_⟩
  · exact Nat.mod_eq_of_lt ((Nat.div_le_self ..).trans_lt (hx i))
  · rw [fdiv_two_pow, elemOf_eq_inBytes, inBytes_mod]
    rfl
  · exact Nat.mod_eq_of_lt (Nat.and_lt_two_pow _ (hy i))
  · exact Nat.mod_eq_of_lt (Nat.or_lt_two_pow (hx i) (hy i))
  · exact Nat.mod_eq_of_lt (Nat.xor_lt_two_pow (hx i) (hy i))
  · exact Nat.mod_eq_of_lt (Nat.and_lt_two_pow _ (Nat.lt_of_le_of_lt (Nat.sub_le ..) (Nat.sub_lt (Nat.two_pow_pos _) Nat.one_pos)))
  · rw [Nat.mod_eq_of_lt (lt_two_pow_of_le (clzNat_le ..)), clzNat, Nat.mod_eq_of_lt (hx i), bitLen_eq_size]
  · rw [Nat.mod_eq_of_lt (lt_two_pow_of_le (popNat_le ..)), popNat_eq]

end Sys2Proof.Machine
end

/-! SUPPORT. Dot products, comparisons, selections, saturations, ramps, mixing and broadcasts (R140 to R145) settle O22. -/
section
namespace Sys2Proof.Machine
open Sys2Proof

/-! ## Lists of elements -/

section
variable (sgn : Bool) (step : Nat) (a b c : Nat → Nat) (h : Nat → Bool)

/-- The product of two bytes (R140). -/
def byteProd (j : Nat) : Int := elemVal sgn 1 (a j) * elemVal sgn 1 (b j)
/-- Four products of bytes and an accumulator (R140). -/
def dotSum (i : Nat) : Int := byteProd sgn a b (4 * i) + byteProd sgn a b (4 * i + 1) + byteProd sgn a b (4 * i + 2) +
  byteProd sgn a b (4 * i + 3) + elemVal sgn 4 (c i)
theorem dot4_eq (m : Nat) : dot4 sgn ((List.range (4 * m)).map a) ((List.range (4 * m)).map b) ((List.range m).map c) =
    (List.range m).map (fun i => elemOf 4 (dotSum sgn a b c i)) := by
  induction m generalizing a b c with
  | zero => rfl
  | succ m ih =>
    have hlist (x : Nat → Nat) : (List.range (4 * (m + 1))).map x =
        x 0 :: x 1 :: x 2 :: x 3 :: (List.range (4 * m)).map (fun i => x (i + 4)) := by
      simp [Nat.mul_succ, List.range_succ_eq_map]
    rw [hlist, hlist, List.range_succ_eq_map, List.map_cons, List.map_cons, List.map_map, List.map_map, dot4]
    exact congrArg (_ :: ·) (ih (fun i => a (i + 4)) (fun i => b (i + 4)) (c ∘ Nat.succ))
theorem select_eq (l : List Nat) : select (l.map h) (l.map a) (l.map b) = l.map (fun i => if h i then a i else b i) := by
  induction l with
  | nil => rfl
  | cons i l ih => exact congrArg (_ :: ·) ih
theorem ramp_eq (m : Nat) : ramp step 0 ((List.range m).map a) = (List.range m).map (fun i => a i + i * step) := by
  suffices h : ∀ k, ramp step k ((List.range' k m).map a) = (List.range' k m).map (fun i => a i + i * step) by
    simpa only [List.range_eq_range'] using h 0
  induction m with
  | zero => exact fun _ => rfl
  | succ m ih => exact fun k => congrArg (_ :: ·) (ih (k + 1))
end

/-! ## What the forms write -/

section
variable (f : IFmt) (cond : VCond) (x y : Int)

theorem vcondHolds_eq : vcondHolds cond x y = match cond with
    | .eq => decide (x = y) | .ne => decide (x ≠ y) | .lt => decide (x < y) | .le => decide (x ≤ y) := by
  cases cond with
  | eq => exact Bool.beq_eq_decide_eq ..
  | ne => exact (congrArg not (Bool.beq_eq_decide_eq ..)).trans (decide_not ..).symm
  | lt => rfl
  | le => rfl
theorem iFmt_bytes_dvd : 0 < f.bytes ∧ f.bytes ∣ 1024 := by cases f <;> decide
end
section
variable {s : State} {n : Nat} {g : PredG}

/-- A list of truths of elements, as the bits of a predicate and its enables. -/
theorem predLanes_predOfBits (hn : 0 < n ∧ n ∣ 1024) (val : Nat → Bool) :
    PredLanes (predOfBits n ((List.range (1024 / n)).map val)) (predOfBits n (s.w.en g n)) s g n val := by
  obtain ⟨hpos, hdvd⟩ := hn
  intro k hk
  have hi : k / n < 1024 / n := Nat.div_lt_div_of_lt_of_dvd hdvd hk
  rw [en_eq]
  exact ⟨getLsbD_predOfBits hpos hk hi _, getLsbD_predOfBits hpos hk hi _⟩

variable {f : IFmt} {d p step : Nat} {a c : VReg} {b : VSrc} {sb : Src} (sgn acc : Bool) (cond : VCond)

theorem writesLanes_vdot4 : WritesLanes (exec (.vdot4 sgn acc d a b c g) s) s
    (s.withWorld (if acc then s.w.rec3 a b c else s.w.rec2 a b)) 4 d 4 g (fun i => inBytes 4
      (dotSum sgn (fun i => lane 1 i (s.w.vop 0 a)) (fun i => lane 1 i (s.w.vsrc 1 b))
        (fun i => if acc then lane 4 i (s.w.vop 2 c) else 0) i)) := by
  refine writesLanes_wrLanes ?_ fun i _ => (congrArg (· % 2 ^ (8 * 4)) (elemOf_eq_inBytes ..)).trans (inBytes_mod ..)
  have hacc : (if acc then elems 4 (s.w.vop 2 c) else List.replicate 256 0) =
      (List.range 256).map (fun i => if acc then lane 4 i (s.w.vop 2 c) else 0) := by
    cases acc with
    | true => exact elems_eq 4 _
    | false => simp [List.map_const']
  rw [hacc, elems_eq, elems_eq]
  exact dot4_eq sgn _ _ _ 256
theorem exec_vcmp : exec (.vcmp f cond p a b g) s = .next ((s.withWorld (s.w.rec2 a b)).due [(2, .p p
    (predOfBits f.bytes ((List.range (1024 / f.bytes)).map fun i => vcondHolds cond (laneVal (iSigned f) f.bytes i (s.w.vop 0 a))
      (laneVal (iSigned f) f.bytes i (s.w.vsrc f.bytes b)))) (predOfBits f.bytes (s.w.en g f.bytes)))]) := by
  simp only [← iVal_lane]
  rw [← zipWith_map_map (fun x y => vcondHolds cond (iVal f x) (iVal f y)), ← elems_eq, ← elems_eq]
  rfl
theorem writesLanes_vsel : WritesLanes (exec (.vsel f d a b p g) s) s (s.withWorld (s.w.rec2 a b)) 2 d f.bytes g (fun i =>
    if (s.w.rdP p).getLsbD (i * f.bytes) then lane f.bytes i (s.w.vop 0 a) else lane f.bytes i (s.w.vsrc f.bytes b)) := by
  refine writesLanes_wrLanes (by rw [predBits_eq, elems_eq, elems_eq, select_eq]) fun i _ => Nat.mod_eq_of_lt ?_
  split <;> exact lane_lt ..
theorem writesLanes_vidx : WritesLanes (exec (.vidx f step d b g) s) s (s.withWorld (s.w.recordB b (s.w.vsrc f.bytes b))) 2 d
    f.bytes g (fun i => (lane f.bytes i (s.w.vsrc f.bytes b) + i * step) % 2 ^ (8 * f.bytes)) :=
  writesLanes_wrLanes (by rw [elems_eq, ramp_eq]) fun _ _ => rfl
theorem writesLanes_vbcs : WritesLanes (exec (.vbcs f d sb g) s) s s 2 d f.bytes g
    (fun _ => (s.w.src sb).toNat % 2 ^ (8 * f.bytes)) :=
  writesLanes_wrLanes (f := fun _ => (s.w.src sb).toNat) (by simp [List.map_const']) fun _ _ => rfl
theorem writesLanes_vsmix : WritesLanes (exec (.vsmix sgn d a b g) s) s (s.withWorld (s.w.rec2 a b)) 3 d 8 g (fun i =>
    (smix (BitVec.ofNat 64 (lane 8 i (s.w.vop 0 a))) (BitVec.ofNat 64 (lane 8 i (s.w.vsrc 4 b)))).toNat) :=
  writesLanes_wrLanes (by rw [elems_eq, elems_eq, zipWith_map_map]) fun _ _ => Nat.mod_eq_of_lt (BitVec.isLt _)
end

/-- Settles O22, form by form, by the value of one element. -/
theorem vectorIntegerOthers : Obligations.VectorIntegerOthers := by
  unfold Obligations.VectorIntegerOthers
  intro s f sgn acc d p k step a c b sb g cond n x y one two prod holds sv
  have hprod (j : Nat) : byteProd sgn (fun i => lane 1 i (s.w.vop 0 a)) (fun i => lane 1 i (s.w.vsrc 1 b)) j = prod j := by
    rw [byteProd, elemVal_lane, elemVal_lane]
  have hacc (i : Nat) : elemVal sgn 4 (if acc then lane 4 i (s.w.vop 2 c) else 0) =
      if acc then laneVal sgn 4 i (s.w.vop 2 c) else 0 := by
    cases acc with
    | true => exact elemVal_lane ..
    | false => cases sgn <;> rfl
  have hholds : (fun i => vcondHolds cond (x i) (y i)) = holds := funext fun _ => vcondHolds_eq ..
  refine ⟨?_, ⟨_, _, predLanes_predOfBits (iFmt_bytes_dvd f) holds, ?_⟩, writesLanes_vsel, fun _ _ => writesLanes_i1 fun i _ => ?_,
    writesLanes_vidx, writesLanes_vbcs, writesLanes_vsmix sgn⟩
  · have hdot := writesLanes_vdot4 (s := s) (d := d) (a := a) (b := b) (c := c) (g := g) sgn acc
    simp only [dotSum, hprod, hacc] at hdot
    rwa [apply_ite s.withWorld] at hdot
  · exact hholds ▸ exec_vcmp cond
  · rw [vsatVal, elemVal_lane, elemOf_eq_inBytes, inBytes_mod]

end Sys2Proof.Machine
end

/-! SUPPORT. Conversions between widths, by the part that is read or written (R143, R166), settle O19. -/
section
namespace Sys2Proof.Machine
open Sys2Proof

/-! ## The part of a conversion (R143) -/

/-- The source element that destination element `i` takes: a widening reads the part, a narrowing writes it (R143). -/
def partElem (part ns nd i : Nat) : Option Nat :=
  if ns ≤ nd then some (part * (1024 / nd) + i)
  else if part * (1024 / ns) ≤ i ∧ i < (part + 1) * (1024 / ns) then some (i - part * (1024 / ns)) else none
/-- The widths of elements that are converted. -/
def IsWidth (n : Nat) : Prop := n = 1 ∨ n = 2 ∨ n = 4

theorem between_replicates {α : Type} {start m N : Nat} (h : start + m ≤ N) (x : Nat → α) :
    List.replicate start none ++ ((List.range m).map x).map some ++ List.replicate (N - (start + m)) none =
      (List.range N).map (fun i => if start ≤ i ∧ i < start + m then some (x (i - start)) else none) := by
  refine eq_map_range _ (by simp; omega) fun i hi => ?_
  simp only [List.getElem_append, List.length_append, List.length_replicate, List.length_map, List.length_range]
  rcases Nat.lt_or_ge i start with hi1 | hi1
  · simp [hi1, Nat.lt_add_right m hi1, Nat.not_le.mpr hi1]
  · rcases Nat.lt_or_ge i (start + m) with hi2 | hi2
    · simp [hi1, hi2, Nat.not_lt.mpr hi1]
    · simp [Nat.not_lt.mpr hi2]
section
variable {m n part : Nat} (hm : IsWidth m) (hn : IsWidth n) (hle : m ≤ n)
include hm hn hle

theorem lanes_of_widths : n / m * (1024 / n) = 1024 / m := by
  rcases hm with rfl | rfl | rfl <;> rcases hn with rfl | rfl | rfl <;> simp at hle ⊢
/-- A part, counted in the fewer elements, is within the more. -/
theorem part_fits (h : part < parts m n) : part * (1024 / n) + 1024 / n ≤ 1024 / m := by
  have hpos : 0 < m := by rcases hm with rfl | rfl | rfl <;> decide
  have hparts : parts m n = n / m := max_eq_right ((Nat.div_le_of_le_mul (by simpa using hle)).trans (Nat.div_pos hle hpos))
  rw [hparts] at h
  calc part * (1024 / n) + 1024 / n
    _ = (part + 1) * (1024 / n) := (Nat.succ_mul ..).symm
    _ ≤ n / m * (1024 / n) := Nat.mul_le_mul_right _ h
    _ = 1024 / m := lanes_of_widths hm hn hle
end
section
variable {ns nd part : Nat} (hs : IsWidth ns) (hd : IsWidth nd) (h : part < parts ns nd)
include hs hd h

theorem cvtPick_eq (x : Nat → Nat) : cvtPick ns nd part ((List.range (1024 / ns)).map x) =
    (List.range (1024 / nd)).map (fun i => (partElem part ns nd i).map x) := by
  rcases Nat.lt_or_ge nd ns with hw | hw
  · have hle := part_fits hd hs hw.le (h.trans_eq (Nat.max_comm ..))
    simp only [cvtPick, partElem, Nat.not_le.mpr hw, if_false, Nat.succ_mul, between_replicates hle]
    refine map_range_congr _ fun i _ => ?_
    split <;> rfl
  · have hle := part_fits hs hd hw h
    simp only [cvtPick, partElem, hw, if_true]
    rw [drop_map_range, take_map_range _ (by omega), List.map_map]
    rfl
end
theorem cvtEn_map (o : Nat → Option Nat) (e : Nat → Bool) (l : List Nat) :
    cvtEn (l.map o) (l.map e) = l.map (fun i => (o i).isSome && e i) := by
  induction l with
  | nil => rfl
  | cons i l ih => exact congrArg (_ :: ·) ih
/-- Flags that are zero count the same whether or not they are enabled. -/
theorem flags_congr {e e' : Nat → Bool} {f f' : Nat → Nat} (h : ∀ i, (if e i then f i else 0) = if e' i then f' i else 0)
    (l : List Nat) : (l.filter e).foldl (fun fl i => fl ||| f i) 0 = (l.filter e').foldl (fun fl i => fl ||| f' i) 0 := by
  rw [← orEnabled_map, ← orEnabled_map]
  induction l with
  | nil => rfl
  | cons i l ih => simp only [List.map_cons, orEnabled, h, ih]

/-! ## What is written -/

/-- The result and the mask of a conversion: an element that the part names is written where it is enabled, with `val` of its source
wherever the rule states that value (R143). -/
def WritesPart (s : State) (g : PredG) (part ns nd : Nat) (stated : Nat → Prop) (val : Nat → Nat) (u m : Line) : Prop :=
  ∀ i < 1024 / nd, lane nd i m = (if (partElem part ns nd i).isSome && s.enabled g nd i then 2 ^ (8 * nd) - 1 else 0) ∧
    ∀ j, partElem part ns nd i = some j → stated j → lane nd i u = val j % 2 ^ (8 * nd)

/-- What destination element `i` takes of a list of converted elements: nothing outside the part. -/
def partVal {α : Type} (part ns nd : Nat) (z : α) (r : Nat → α) (i : Nat) : α := ((partElem part ns nd i).map r).getD z

section
variable {s : State} {g : PredG} {part ns nd : Nat} {stated : Nat → Prop} {val : Nat → Nat}

theorem writesPart_partVal {α : Type} (z : α) (r : Nat → α) (q : α → Nat) (h : ∀ j, stated j → q (r j) = val j) :
    WritesPart s g part ns nd stated val (lineOf nd ((List.range (1024 / nd)).map fun i => q (partVal part ns nd z r i)))
      (laneMask nd ((List.range (1024 / nd)).map fun i => (partElem part ns nd i).isSome && s.enabled g nd i)) := by
  refine fun i hi => ⟨lane_laneMask hi _, fun j hj hstated => ?_⟩
  rw [lane_lineOf hi, partVal, hj, ← h j hstated]
  rfl

variable {f si : IFmt} {dst : CvtDst} {src : CvtSrc} {rm : RMode} {sat : Bool} {d : Nat} {a : VReg}

/-- VFCVT, with the flags of the elements that it converts and that are enabled (R166). -/
theorem exec_vfcvt (hs : IsWidth src.bytes) (hd : IsWidth dst.bytes) (h : part < parts src.bytes dst.bytes) {r : Nat → Nat × Nat}
    (hr : r = fun j => cvtTo dst rm sat (cvtSrcVal src (lane src.bytes j (s.w.vop 0 a)))) {en : List Bool}
    (hen : en = (List.range (1024 / dst.bytes)).map fun i => (partElem part src.bytes dst.bytes i).isSome && s.enabled g dst.bytes i)
    {flags : Nat} (hflags : orEnabled en ((List.range (1024 / dst.bytes)).map
      fun i => (partVal part src.bytes dst.bytes (0, 0) r i).2) = flags) :
    exec (.vfcvt dst src rm sat part d a g) s = .next ((s.withWorld (s.w.rec1 a)).due
      [(3, .v d (lineOf dst.bytes ((List.range (1024 / dst.bytes)).map fun i => (partVal part src.bytes dst.bytes (0, 0) r i).1))
        (laneMask dst.bytes en)), (3, .flags flags)]) := by
  have hps : cvtPick src.bytes dst.bytes part (elems src.bytes (s.w.vop 0 a)) = (List.range (1024 / dst.bytes)).map
      fun i => (partElem part src.bytes dst.bytes i).map fun j => lane src.bytes j (s.w.vop 0 a) := by
    rw [elems_eq, cvtPick_eq hs hd h]
  subst hr hen hflags
  refine (wrFloat_due ..).trans ?_
  rw [hps, en_eq, cvtEn_map]
  simp only [List.map_map, Function.comp_def, Option.map_map, Option.isSome_map]
  rfl
theorem exec_vcvt (hs : IsWidth si.bytes) (hd : IsWidth f.bytes) (h : part < parts si.bytes f.bytes) :
    exec (.vcvt f si sat part d a g) s = .next ((s.withWorld (s.w.rec1 a)).due
      [(3, .v d (lineOf f.bytes ((List.range (1024 / f.bytes)).map
          fun i => partVal part si.bytes f.bytes 0 (fun j => cvtElem f si sat (lane si.bytes j (s.w.vop 0 a))) i))
        (laneMask f.bytes ((List.range (1024 / f.bytes)).map
          fun i => (partElem part si.bytes f.bytes i).isSome && s.enabled g f.bytes i)))]) := by
  refine (wrLanes_due ..).trans ?_
  rw [elems_eq, cvtPick_eq hs hd h, en_eq, cvtEn_map]
  simp only [List.map_map, Function.comp_def, Option.map_map, Option.isSome_map]
  rfl
end
theorem cvtDst_isWidth (f : CvtDst) : IsWidth f.bytes := by cases f <;> simp [IsWidth, CvtDst.bytes]
theorem cvtSrc_isWidth (f : CvtSrc) : IsWidth f.bytes := by cases f <;> simp [IsWidth, CvtSrc.bytes]
theorem iFmt_isWidth (f : IFmt) : IsWidth f.bytes := by cases f <;> simp [IsWidth, IFmt.bytes]
/-- An element converted: clamped with `.sat` where it is not widened (R143). -/
theorem cvtElem_lane (f si : IFmt) (sat : Bool) (j : Nat) (x : Line) : cvtElem f si sat (lane si.bytes j x) =
    inBytes f.bytes (if sat ∧ f.bytes ≤ si.bytes then clamped (iSigned f) f.bytes (laneVal (iSigned si) si.bytes j x)
      else laneVal (iSigned si) si.bytes j x) := by
  rw [cvtElem, iNarrow, narrow_eq_inBytes, iVal_lane]
  simp only [Bool.and_eq_true, decide_eq_true_eq]

/-- Settles O19: what the part names is converted; the other elements are not written and have no flags. -/
theorem vectorConversions : Obligations.VectorConversions := by
  unfold Obligations.VectorConversions
  intro s dst src rm sat fi si part d a g one pick writes r v
  refine ⟨fun h => ⟨_, _, writesPart_partVal (0, 0) r Prod.fst fun _ _ => rfl, ?_⟩,
    fun h => ⟨_, _, writesPart_partVal 0 _ id fun j _ => cvtElem_lane fi si sat j _, exec_vcvt (iFmt_isWidth si) (iFmt_isWidth fi) h⟩⟩
  have hflags : ∀ i, (if (partElem part src.bytes dst.bytes i).isSome && s.enabled g dst.bytes i then
      (partVal part src.bytes dst.bytes (0, 0) r i).2 else 0) = if s.enabled g dst.bytes i then
        (match pick src.bytes dst.bytes i with | some j => (r j).2 | none => 0) else 0 := by
    intro i
    change (if (pick src.bytes dst.bytes i).isSome && s.enabled g dst.bytes i then (((pick src.bytes dst.bytes i).map r).getD (0, 0)).2
      else 0) = _
    cases pick src.bytes dst.bytes i <;> simp
  exact exec_vfcvt (cvtSrc_isWidth src) (cvtDst_isWidth dst) h rfl rfl ((orEnabled_map ..).trans (flags_congr hflags _))

end Sys2Proof.Machine
end

/-! SUPPORT. Permutes by index, rotation, pattern and window (R147, R148) settle O23. -/
section
namespace Sys2Proof.Machine
open Sys2Proof

/-! ## Lists of elements in another order -/

section
variable (N : Nat) (x y : Nat → Nat)

theorem permAll_eq (n : Nat) (a : List Nat) : permAll n a 0 ((List.range N).map y) =
    (List.range N).map (fun i => at0 a (if n == 1 then i / 256 * 256 + y i else y i % (1024 / n))) := by
  suffices h : ∀ k, permAll n a k ((List.range' k N).map y) =
      (List.range' k N).map (fun i => at0 a (if n == 1 then i / 256 * 256 + y i else y i % (1024 / n))) by
    simpa only [List.range_eq_range'] using h 0
  induction N with
  | zero => exact fun _ => rfl
  | succ N ih => exact fun k => congrArg (_ :: ·) (ih (k + 1))
/-- A rotation toward element 0, by any count (R147). -/
theorem rotate_eq (hN : 0 < N) (k : Nat) : ((List.range N).map x).drop (k % N) ++ ((List.range N).map x).take (k % N) =
    (List.range N).map (fun i => x ((i + k) % N)) := by
  have hk : k % N < N := Nat.mod_lt _ hN
  rw [drop_map_range, take_map_range _ hk.le, append_map_range, Nat.sub_add_cancel hk.le]
  refine map_range_congr _ fun i hi => ?_
  rw [← Nat.add_mod_mod]
  generalize k % N = r at hk
  split
  · have hlt : i + r < N := by omega
    rw [Nat.mod_eq_of_lt hlt, Nat.add_comm]
  · have hle : N ≤ i + r := by omega
    have hlt : i + r - N < N := by omega
    have hsub : i - (N - r) = i + r - N := by omega
    rw [Nat.mod_eq_sub_mod hle, Nat.mod_eq_of_lt hlt, hsub]
theorem reverse_eq : ((List.range N).map x).reverse = (List.range N).map (fun i => x (N - 1 - i)) :=
  eq_map_range _ (by simp) fun i hi => by simp
theorem interleave_eq : interleave ((List.range N).map x) ((List.range N).map y) =
    (List.range (2 * N)).map (fun i => if i % 2 = 0 then x (i / 2) else y (i / 2)) := by
  induction N generalizing x y with
  | zero => rfl
  | succ N ih =>
    have hrange : List.range (2 * (N + 1)) = 0 :: 1 :: (List.range (2 * N)).map (· + 2) := by
      simp [Nat.mul_succ, List.range_succ_eq_map]
    simp only [hrange, List.range_succ_eq_map, List.map_cons, List.map_map, interleave, ih]
    refine congrArg (_ :: _ :: ·) (map_range_congr _ fun i _ => ?_)
    simp
theorem everySecond_eq (odd : Bool) : everySecond odd ((List.range (2 * N)).map x) =
    (List.range N).map (fun i => x (2 * i + if odd then 1 else 0)) := by
  induction N generalizing x with
  | zero => rfl
  | succ N ih =>
    have hrange : List.range (2 * (N + 1)) = 0 :: 1 :: (List.range (2 * N)).map (· + 2) := by
      simp [Nat.mul_succ, List.range_succ_eq_map]
    have hhead : (if odd then x 1 else x 0) = x (2 * 0 + if odd then 1 else 0) := by cases odd <;> rfl
    rw [hrange, List.range_succ_eq_map, List.map_cons, List.map_cons, List.map_cons, List.map_map, everySecond, ih, hhead, List.map_map]
    refine congrArg (_ :: ·) (map_range_congr _ fun i _ => congrArg x ?_)
    dsimp only [Nat.succ_eq_add_one]
    omega
end

/-! ## Windows (R148) -/

/-- A byte of the window: of the first value up to its end, then of the second. -/
theorem lane_window {j : Nat} (hj : j < 1024) (a b : Line) (o : Nat) :
    lane 1 j (window a b o) = if o + j < 1024 then lane 1 (o + j) a else lane 1 (o + j - 1024) b := by
  have hbit (t : Nat) : (a.toNat + 2 ^ 8192 * b.toNat).testBit t = if t < 8192 then a.toNat.testBit t else b.toNat.testBit (t - 8192) := by
    rw [Nat.add_comm, Nat.testBit_two_pow_mul_add _ a.isLt]
  rw [window, lane_ofNat hj, Nat.div_div_eq_div_mul, ← Nat.pow_add]
  refine Nat.eq_of_testBit_eq fun t => ?_
  have hlane (i : Nat) (x : Line) : (lane 1 i x).testBit t = (decide (t < 8) && x.toNat.testBit (t + 8 * i)) := by
    rw [lane, Nat.testBit_mod_two_pow, Nat.testBit_div_two_pow]
  rw [apply_ite (Nat.testBit · t), hlane, hlane, Nat.testBit_mod_two_pow, Nat.testBit_div_two_pow, hbit]
  by_cases ht : t < 8
  · have hsplit : t + (8 * o + 8 * 1 * j) < 8192 ↔ o + j < 1024 := by omega
    have hlow : t + (8 * o + 8 * 1 * j) = t + 8 * (o + j) := by omega
    have hhigh (h : ¬o + j < 1024) : t + (8 * o + 8 * 1 * j) - 8192 = t + 8 * (o + j - 1024) := by omega
    simp only [hsplit, ht, decide_true, Bool.true_and]
    split
    · rw [hlow]
    · rw [hhigh ‹_›]
  · simp [ht]

/-! ## The forms -/

theorem pBytes_cases (f : PFmt) : pBytes f = 1 ∨ pBytes f = 2 ∨ pBytes f = 4 := by cases f <;> simp [pBytes]
theorem pLanes_even (f : PFmt) : 1024 / pBytes f = 2 * (1024 / pBytes f / 2) := by
  rcases pBytes_cases f with h | h | h <;> rw [h]
theorem pLanes_pos (f : PFmt) : 0 < 1024 / pBytes f := by
  rcases pBytes_cases f with h | h | h <;> rw [h] <;> decide

section
variable {s : State} {f : PFmt} {d : Nat} {a : VReg} {b : VSrc} {sb : Src} {g : PredG}

theorem writesLanes_vperm : WritesLanes (exec (.vperm f d a b g) s) s (s.withWorld (s.w.rec2 a b)) 4 d (pBytes f) g (fun i =>
    if pBytes f = 1 then lane (pBytes f) (i / 256 * 256 + lane (pBytes f) i (s.w.vsrc (pBytes f) b)) (s.w.vop 0 a)
    else lane (pBytes f) (lane (pBytes f) i (s.w.vsrc (pBytes f) b) % (1024 / pBytes f)) (s.w.vop 0 a)) := by
  refine writesLanes_wrLanes ((congrArg (permAll _ _ 0) (elems_eq ..)).trans (permAll_eq ..)) fun i hi => ?_
  have hlt : lane (pBytes f) i (s.w.vsrc (pBytes f) b) < 2 ^ (8 * pBytes f) := lane_lt ..
  simp only [beq_iff_eq]
  rcases eq_or_ne (pBytes f) 1 with h1 | h1
  · rw [if_pos h1, if_pos h1]
    rw [h1] at hi hlt ⊢
    rw [at0_elems (by omega), Nat.mod_eq_of_lt (lane_lt ..)]
  · rw [if_neg h1, if_neg h1, at0_elems (Nat.mod_lt _ (pLanes_pos f)), Nat.mod_eq_of_lt (lane_lt ..)]
theorem writesLanes_vrot : WritesLanes (exec (.vrot f d a sb g) s) s (s.withWorld (s.w.rec1 a)) 3 d (pBytes f) g
    (fun i => lane (pBytes f) ((i + (s.w.src sb).toNat) % (1024 / pBytes f)) (s.w.vop 0 a)) := by
  refine writesLanes_wrLanes ?_ fun i _ => Nat.mod_eq_of_lt (lane_lt ..)
  rw [elems_eq]
  exact rotate_eq _ _ (pLanes_pos f) _
/-- A pattern of two operands: what it makes of their elements (R147). -/
theorem writesLanes_vshuf {p : Shuf} {val : Nat → Nat} (hp : p ≠ .rev) (hval : ∀ i, val i < 2 ^ (8 * pBytes f))
    (h : shufVal p (1024 / pBytes f) ((List.range (1024 / pBytes f)).map fun i => lane (pBytes f) i (s.w.vop 0 a))
      ((List.range (1024 / pBytes f)).map fun i => lane (pBytes f) i (s.w.vsrc (pBytes f) b)) = (List.range (1024 / pBytes f)).map val) :
    WritesLanes (exec (.vshuf f p d a b g) s) s (s.withWorld (s.w.rec2 a b)) 3 d (pBytes f) g val := by
  have hw : (if p == .rev then s.w.rec1 a else s.w.rec2 a b) = s.w.rec2 a b := if_neg (by simpa using hp)
  rw [← hw]
  refine writesLanes_wrLanes ?_ fun i _ => Nat.mod_eq_of_lt (hval i)
  rw [elems_eq, elems_eq]
  exact h
theorem writesLanes_vshuf_rev : WritesLanes (exec (.vshuf f .rev d a b g) s) s (s.withWorld (s.w.rec1 a)) 3 d (pBytes f) g
    (fun i => lane (pBytes f) (1024 / pBytes f - 1 - i) (s.w.vop 0 a)) := by
  refine writesLanes_wrLanes ?_ fun i _ => Nat.mod_eq_of_lt (lane_lt ..)
  rw [elems_eq]
  exact reverse_eq _ _
end

section
variable {N : Nat} (hN : N = 2 * (N / 2)) (x y : Nat → Nat)
include hN

theorem shufVal_ziplo : shufVal .ziplo N ((List.range N).map x) ((List.range N).map y) =
    (List.range N).map (fun i => if i % 2 = 0 then x (i / 2) else y (i / 2)) := by
  rw [shufVal, take_map_range _ (Nat.div_le_self ..), take_map_range _ (Nat.div_le_self ..), interleave_eq, ← hN]
theorem shufVal_ziphi : shufVal .ziphi N ((List.range N).map x) ((List.range N).map y) =
    (List.range N).map (fun i => if i % 2 = 0 then x (N / 2 + i / 2) else y (N / 2 + i / 2)) := by
  have hrest : N - N / 2 = N / 2 := by omega
  rw [shufVal, drop_map_range, drop_map_range, hrest, interleave_eq, ← hN]
theorem everySecond_pair (odd : Bool) : everySecond odd ((List.range N).map x) ++ everySecond odd ((List.range N).map y) =
    (List.range N).map (fun i => if i < N / 2 then x (2 * i + if odd then 1 else 0)
      else y (2 * (i - N / 2) + if odd then 1 else 0)) := by
  have hhalf (z : Nat → Nat) := everySecond_eq (N / 2) z odd
  rw [← hN] at hhalf
  rw [hhalf, hhalf, append_map_range, ← Nat.two_mul, ← hN]
end

/-- Settles O23: each list of elements by its index, the windows byte by byte. -/
theorem permutes : Obligations.Permutes := by
  unfold Obligations.Permutes
  intro s f d k c a b sb g n N x y one two byte windowAt
  have hx (i : Nat) : x i < 2 ^ (8 * n) := lane_lt ..
  have hy (i : Nat) : y i < 2 ^ (8 * n) := lane_lt ..
  have hN : N = 2 * (N / 2) := pLanes_even f
  have hwindow (o : Nat) (i : Instr) (h : exec i s =
      done s (only ((s.w.rec2 a b).wrV 3 d (window (s.w.vop 0 a) (s.w.vsrc n b) o) (laneMask n (s.w.en g n))))) : windowAt o i := by
    refine ⟨_, _, h.trans (wrV_due ..), fun j hj => lane_window hj .., fun i hi => ?_⟩
    rw [en_eq, lane_laneMask hi]
  refine ⟨writesLanes_vperm, writesLanes_vrot, writesLanes_vshuf nofun (fun i => ?_) (shufVal_ziplo hN ..),
    writesLanes_vshuf nofun (fun i => ?_) (shufVal_ziphi hN ..), writesLanes_vshuf nofun (fun i => ?_) (everySecond_pair hN _ _ false),
    writesLanes_vshuf nofun (fun i => ?_) (everySecond_pair hN _ _ true), writesLanes_vshuf_rev, hwindow _ _ rfl, fun _ => hwindow _ _ rfl⟩
  all_goals
    split
    · exact hx _
    · exact hy _

end Sys2Proof.Machine
end

/-! SUPPORT. Reductions and prefixes of elements (R149) settle O24. -/
section
namespace Sys2Proof.Machine
open Sys2Proof

/-! ## What has been gathered (R149) -/

/-- Whether VSCAN counts element `j` in what it gives for element `i`, exclusive or inclusive. -/
def inPrefix (ex : Bool) (i j : Nat) : Bool := if ex then decide (j < i) else decide (j ≤ i)
/-- What the elements `x i` of a list of indices, in turn, add to what has been gathered. -/
def gatherOf (f : PFmt) (op : RedOp) (x : Nat → Nat) (g : Gather) (l : List Nat) : Gather := l.foldl (fun t i => t.add f op (x i)) g

section
variable (f : PFmt) (op : RedOp) (rm : RMode) (sat ex : Bool) (x : Nat → Nat) (e : Nat → Bool)

theorem inPrefix_of_lt {i j : Nat} (h : j < i) : inPrefix ex i j = true := by cases ex <;> simp [inPrefix, h, h.le]
theorem inPrefix_of_gt {i j : Nat} (h : i < j) : inPrefix ex i j = false := by cases ex <;> simp [inPrefix, h, h.le]
theorem inPrefix_self (i : Nat) : inPrefix ex i i = !ex := by cases ex <;> simp [inPrefix]
theorem gatherAll_eq (g : Gather) (l : List Nat) : gatherAll f op g (l.map x) (l.map e) = gatherOf f op x g (l.filter e) := by
  induction l generalizing g with
  | nil => rfl
  | cons i l ih =>
    rw [List.map_cons, List.map_cons, gatherAll, ih]
    cases he : e i <;> simp [he, gatherOf]
theorem prefixes_eq (N : Nat) : prefixes f op ex rm sat Gather.empty ((List.range N).map x) ((List.range N).map e) =
    (List.range N).map (fun i => (gatherOf f op x Gather.empty (((List.range N).filter e).filter (inPrefix ex i))).result f op rm sat) := by
  suffices h : ∀ g k, prefixes f op ex rm sat g ((List.range' k N).map x) ((List.range' k N).map e) =
      (List.range' k N).map (fun i => (gatherOf f op x g (((List.range' k N).filter e).filter (inPrefix ex i))).result f op rm sat) by
    simpa only [List.range_eq_range'] using h Gather.empty 0
  induction N with
  | zero => exact fun _ _ => rfl
  | succ N ih =>
    intro g k
    have hgt {j : Nat} (hj : j ∈ List.range' (k + 1) N) : k < j := (List.mem_range'_1.mp hj).1
    have hnone : ((List.range' (k + 1) N).filter e).filter (inPrefix ex k) = [] :=
      List.filter_eq_nil_iff.mpr fun j hj => by simp [inPrefix_of_gt ex (hgt (List.mem_filter.mp hj).1)]
    rw [List.range'_succ, List.map_cons, List.map_cons, prefixes, ih, List.map_cons]
    congr 1
    · cases he : e k with
      | true => cases ex <;> simp [he, hnone, inPrefix_self, gatherOf]
      | false => simp [he, hnone, gatherOf]
    · refine List.map_congr_left fun i hi => ?_
      cases he : e k with
      | true => simp [he, inPrefix_of_lt ex (hgt hi), gatherOf]
      | false => simp [he]
end

/-! ## Integers -/

/-- The lesser or the greater of two values, as the operation chooses. -/
def betterOf (op : RedOp) (u v : Int) : Int := match op with
  | .max => max u v
  | _ => min u v

section
variable (sgn : Bool) (n : Nat) (op : RedOp) (x : Nat → Nat)

/-- What the integers of a list of indices add to what has been gathered. -/
def sumOf (g : Gather) (l : List Nat) : Gather := l.foldl (fun t i => t.addInt sgn n op (x i)) g
theorem sumOf_n (g : Gather) (l : List Nat) : (sumOf sgn n op x g l).n = g.n + l.length := by
  induction l generalizing g with
  | nil => rfl
  | cons i l ih => exact (ih _).trans (by simp only [Gather.addInt, List.length_cons]; omega)
theorem sumOf_sum (g : Gather) (l : List Nat) : (sumOf sgn n op x g l).sum = g.sum + (l.map fun i => elemVal sgn n (x i)).sum := by
  induction l generalizing g with
  | nil => exact (Int.add_zero _).symm
  | cons i l ih => exact (ih _).trans (by simp [Gather.addInt, Int.add_assoc])
theorem addInt_best (g : Gather) (hg : g.n ≠ 0) (y : Nat) :
    elemVal sgn n (g.addInt sgn n op y).best = betterOf op (elemVal sgn n g.best) (elemVal sgn n y) := by
  have hn : (g.n == 0) = false := by simpa using hg
  cases op <;> simp only [Gather.addInt, betterOf, hn, Bool.false_or, decide_eq_true_eq] <;> split <;> omega
theorem addInt_best_eq (g : Gather) (y : Nat) : (g.addInt sgn n op y).best = y ∨ (g.addInt sgn n op y).best = g.best :=
  ite_eq_or_eq ..
theorem sumOf_best (g : Gather) (hg : g.n ≠ 0) (l : List Nat) : elemVal sgn n (sumOf sgn n op x g l).best =
    l.foldl (fun m i => betterOf op m (elemVal sgn n (x i))) (elemVal sgn n g.best) := by
  induction l generalizing g with
  | nil => rfl
  | cons i l ih =>
    rw [List.foldl_cons, ← addInt_best sgn n op g hg]
    exact ih _ (Nat.succ_ne_zero _)
theorem sumOf_best_lt (hx : ∀ i, x i < 2 ^ (8 * n)) (g : Gather) (hg : g.best < 2 ^ (8 * n)) (l : List Nat) :
    (sumOf sgn n op x g l).best < 2 ^ (8 * n) := by
  induction l generalizing g with
  | nil => exact hg
  | cons i l ih =>
    refine ih _ ?_
    rcases addInt_best_eq sgn n op g (x i) with h | h
    · exact h ▸ hx i
    · exact h ▸ hg
/-- The best of the elements: from a bound that no element beats, all of them in turn. -/
theorem sumOf_empty_best (hx : ∀ i, x i < 2 ^ (8 * n)) {bound : Int} (hb : ∀ i, betterOf op bound (elemVal sgn n (x i)) = elemVal sgn n (x i))
    (l : List Nat) : (if (sumOf sgn n op x Gather.empty l).n == 0 then elemOf n bound else (sumOf sgn n op x Gather.empty l).best) =
      inBytes n (l.foldl (fun m i => betterOf op m (elemVal sgn n (x i))) bound) := by
  cases l with
  | nil => exact elemOf_eq_inBytes ..
  | cons i l =>
    have hn : ((sumOf sgn n op x Gather.empty (i :: l)).n == 0) = false := by simp [sumOf_n]
    have hbest : elemVal sgn n (sumOf sgn n op x Gather.empty (i :: l)).best =
        l.foldl (fun m i => betterOf op m (elemVal sgn n (x i))) (elemVal sgn n (x i)) :=
      sumOf_best sgn n op x (Gather.empty.addInt sgn n op (x i)) (Nat.succ_ne_zero 0) l
    rw [List.foldl_cons, hb, ← hbest, inBytes_elemVal _ _ (sumOf_best_lt sgn n op x hx _ (Nat.two_pow_pos _) _), hn]
    rfl
end

/-! ## The range of a format -/

/-- The least value of an element. -/
def leastElem (sgn : Bool) (n : Nat) : Int := if sgn then -(2 ^ (8 * n - 1)) else 0
/-- The greatest value of an element. -/
def greatestElem (sgn : Bool) (n : Nat) : Int := if sgn then 2 ^ (8 * n - 1) - 1 else 2 ^ (8 * n) - 1

section
variable (sgn sat : Bool) {n : Nat} (hn : 0 < n)

include hn in
theorem elemVal_range {m : Nat} (h : m < 2 ^ (8 * n)) : leastElem sgn n ≤ elemVal sgn n m ∧ elemVal sgn n m ≤ greatestElem sgn n := by
  have hhalf : 2 ^ (8 * n) = 2 * 2 ^ (8 * n - 1) := by rw [← Nat.pow_succ', Nat.succ_eq_add_one, Nat.sub_add_cancel (by omega)]
  have hhalfInt : (2 ^ (8 * n) : Int) = 2 * 2 ^ (8 * n - 1) := by exact_mod_cast hhalf
  have hcast : ((2 ^ (8 * n - 1) : Nat) : Int) = 2 ^ (8 * n - 1) := by norm_cast
  rw [leastElem, greatestElem, elemVal, signed, Nat.mod_eq_of_lt h, hhalfInt]
  rw [hhalf] at h
  cases sgn with
  | true =>
    simp only [if_true]
    split <;> omega
  | false =>
    simp only [Bool.false_eq_true, if_false]
    omega
variable (x : Nat → Nat) (l : List Nat)

theorem intResult_sum : (sumOf sgn n .sum x Gather.empty l).intResult sgn n .sum sat = (inBytes n
    (if sat then clamped sgn n (l.map fun i => elemVal sgn n (x i)).sum else (l.map fun i => elemVal sgn n (x i)).sum), 0) := by
  have hsum : (sumOf sgn n .sum x Gather.empty l).sum = (l.map fun i => elemVal sgn n (x i)).sum :=
    (sumOf_sum ..).trans (Int.zero_add _)
  rw [Gather.intResult, narrow_eq_inBytes, hsum]
variable (hx : ∀ i, x i < 2 ^ (8 * n))
include hn hx

theorem intResult_min : (sumOf sgn n .min x Gather.empty l).intResult sgn n .min sat =
    (inBytes n (l.foldl (fun m i => min m (elemVal sgn n (x i))) (greatestElem sgn n)), 0) :=
  congrArg (·, 0) (sumOf_empty_best sgn n .min x hx (fun i => min_eq_right (elemVal_range sgn hn (hx i)).2) l)
theorem intResult_max : (sumOf sgn n .max x Gather.empty l).intResult sgn n .max sat =
    (inBytes n (l.foldl (fun m i => max m (elemVal sgn n (x i))) (leastElem sgn n)), 0) :=
  congrArg (·, 0) (sumOf_empty_best sgn n .max x hx (fun i => max_eq_right (elemVal_range sgn hn (hx i)).1) l)
end

/-! ## The forms -/

section
variable {s : State} {f : PFmt} {op : RedOp} {rm : RMode} {sat ex : Bool} {d : Nat} {a : VReg} {g : PredG}

theorem gatherOf_int (hf : f.isFloat = false) (x : Nat → Nat) (t : Gather) (l : List Nat) :
    gatherOf f op x t l = sumOf (pSigned f) (pBytes f) op x t l := by
  simp [gatherOf, sumOf, Gather.add, hf]
/-- VRED: the result of the enabled elements in element 0, the rest of the register zero. -/
theorem exec_vred {r : Nat × Nat} (hr : (gatherOf f op (fun i => lane (pBytes f) i (s.w.vop 0 a)) Gather.empty
      ((List.range (1024 / pBytes f)).filter (s.enabled g (pBytes f)))).result f op rm sat = r) :
    exec (.vred f op rm sat d a g) s = .next ((s.withWorld (s.w.rec1 a)).due
      [(6, .v d (BitVec.ofNat 8192 (r.1 % 2 ^ (8 * pBytes f))) (BitVec.allOnes 8192)), (6, .flags r.2)]) := by
  have hgather : gatherAll f op Gather.empty (elems (pBytes f) (s.w.vop 0 a)) (s.w.en g (pBytes f)) = gatherOf f op
      (fun i => lane (pBytes f) i (s.w.vop 0 a)) Gather.empty ((List.range (1024 / pBytes f)).filter (s.enabled g (pBytes f))) := by
    rw [elems_eq, en_eq, gatherAll_eq]
  subst hr
  rw [← hgather]
  exact wrV_flags_due ..
theorem writesFloats_vscan : WritesFloats (exec (.vscan f op ex rm sat d a g) s) s (s.withWorld (s.w.rec1 a)) 8 d (pBytes f) g (fun i =>
    (gatherOf f op (fun i => lane (pBytes f) i (s.w.vop 0 a)) Gather.empty
      (((List.range (1024 / pBytes f)).filter (s.enabled g (pBytes f))).filter (inPrefix ex i))).result f op rm sat) := by
  have hlist := prefixes_eq f op rm sat ex (fun i => lane (pBytes f) i (s.w.vop 0 a)) (s.enabled g (pBytes f)) (1024 / pBytes f)
  rw [← elems_eq, ← en_eq] at hlist
  exact writesFloats_wrFloat hlist
end

/-- Settles O24: what is gathered of integers is their sum, their least or their greatest. -/
theorem reductions : Obligations.Reductions := by
  unfold Obligations.Reductions
  intro s f op rm sat ex d a g n N one es v low high total gathered
  have hn : 0 < n := by rcases pBytes_cases f with h | h | h <;> simp [n, h]
  have hint (hf : f.isFloat = false) (l : List Nat) : (gathered l).result f op rm sat = (total l, 0) := by
    have hresult : (gathered l).result f op rm sat = (sumOf (pSigned f) n op (fun i => lane n i (s.w.vop 0 a)) Gather.empty l).intResult
        (pSigned f) n op sat := by
      rw [Gather.result, hf, ← gatherOf_int hf]
      rfl
    have hv : (fun i => elemVal (pSigned f) n (lane n i (s.w.vop 0 a))) = v := funext fun i => elemVal_lane ..
    have hfold (q : Int → Int → Int) (m : Int) : l.foldl (fun m i => q m (elemVal (pSigned f) n (lane n i (s.w.vop 0 a)))) m =
        l.foldl (fun m i => q m (v i)) m := by simp only [← hv]
    rw [hresult]
    cases op with
    | sum => rw [intResult_sum, hv]
    | min => rw [intResult_min _ _ hn _ _ fun i => lane_lt .., hfold]; rfl
    | max => rw [intResult_max _ _ hn _ _ fun i => lane_lt .., hfold]; rfl
  have hlt (l : List Nat) : total l % 2 ^ (8 * n) = total l := by cases op <;> exact inBytes_mod ..
  have heither (l : List Nat) : (gathered l).result f op rm sat = if f.isFloat then (gathered l).result f op rm sat else (total l, 0) := by
    split
    · rfl
    · exact hint (Bool.eq_false_of_not_eq_true ‹_›) l
  refine ⟨fun hf => (exec_vred (hint hf es)).trans (by rw [hlt]), fun _ => exec_vred rfl, ?_⟩
  have hscan := writesFloats_vscan (s := s) (f := f) (op := op) (rm := rm) (sat := sat) (ex := ex) (d := d) (a := a) (g := g)
  exact (funext fun i => heither (es.filter (inPrefix ex i))) ▸ hscan

end Sys2Proof.Machine
end

/-! SUPPORT. Packs, unpacks, single elements and predicates (R150 to R152) settle O25. -/
section
namespace Sys2Proof.Machine
open Sys2Proof

/-! ## Packs and unpacks (R150) -/

section
variable {s : State} {f : PFmt} {rm : RMode} {sat hi : Bool} {d : Nat} {a : VReg} {b : VSrc} {g : PredG}

theorem writesFloats_vpack (hn : 1 < pBytes f) : WritesFloats (exec (.vpack f rm sat d a b g) s) s (s.withWorld (s.w.rec2 a b)) 3 d
    (pBytes f / 2) g (fun i => packOne f rm sat (if i < 1024 / pBytes f then lane (pBytes f) i (s.w.vop 0 a)
      else lane (pBytes f) (i - 1024 / pBytes f) (s.w.vsrc (pBytes f) b))) := by
  have hlanes : 1024 / pBytes f + 1024 / pBytes f = 1024 / (pBytes f / 2) := by
    rcases pBytes_cases f with h | h | h
    · exact absurd h hn.ne'
    · rw [h]
    · rw [h]
  refine writesFloats_wrFloat ?_
  rw [elems_eq, elems_eq, append_map_range, hlanes, List.map_map]
  rfl
theorem writesFloats_vunpk : WritesFloats (exec (.vunpk f hi d a g) s) s (s.withWorld (s.w.rec1 a)) 3 d
    (2 * pBytes f) g (fun i => unpackOne f (lane (pBytes f) (if hi then 1024 / pBytes f / 2 + i else i) (s.w.vop 0 a))) := by
  have hlanes : 1024 / pBytes f / 2 = 1024 / (2 * pBytes f) := by rw [Nat.div_div_eq_div_mul, Nat.mul_comm]
  have heven := pLanes_even f
  refine writesFloats_wrFloat ?_
  rw [elems_eq, drop_map_range, take_map_range _ (by split <;> unfold lanesOf <;> omega), List.map_map, lanesOf, hlanes]
  refine map_range_congr _ fun i _ => ?_
  cases hi <;> simp
end
section
variable {f : PFmt} (rm : RMode) (sat : Bool) {x : Nat} (hx : x < 2 ^ (8 * pBytes f))
include hx

theorem elemVal_format : elemVal (pSigned f) (pBytes f) x = if pSigned f then signed (8 * pBytes f) x else (x : Int) := by
  rw [elemVal, Nat.mod_eq_of_lt hx]
theorem packOne_eq {v : Int} (hv : v = if pSigned f then signed (8 * pBytes f) x else (x : Int)) : packOne f rm sat x =
    if f.isFloat then specBf16.convert rm sat (specF32.decode x)
    else (inBytes (pBytes f / 2) (if sat then clamped (pSigned f) (pBytes f / 2) v else v), 0) := by
  rw [packOne, narrow_eq_inBytes, elemVal_format hx, hv]
theorem unpackOne_eq {v : Int} (hv : v = if pSigned f then signed (8 * pBytes f) x else (x : Int)) : unpackOne f x =
    if f.isFloat then specF32.convert .rne false (specBf16.decode x) else (inBytes (2 * pBytes f) v, 0) := by
  rw [unpackOne, elemOf_eq_inBytes, elemVal_format hx, hv]
end

/-! ## Single elements (R151) -/

section
variable {s : State} {f : PFmt} {d sa : Nat} {a : VReg} {sb : Src}

theorem rec1_cur (w : World) (a : VReg) : (w.rec1 a).cur = w.cur := by
  unfold World.rec1 World.record
  split <;> rfl
/-- An element, extended, in a scalar of the slot's level. -/
theorem exec_vext : exec (.vext f d a sb) s = .next ((s.withWorld (s.w.rec1 a)).due [(3, s.scalar d (BitVec.ofInt 64
    (elemVal (pSigned f) (pBytes f) (lane (pBytes f) ((s.w.src sb).toNat % (1024 / pBytes f)) (s.w.vop 0 a)))))]) := by
  have hscalar (v : Word) : (s.withWorld (s.w.rec1 a)).scalar d v = s.scalar d v := by
    rw [State.scalar, State.scalar, State.withWorld, rec1_cur]
  rw [← hscalar, ← at0_elems (Nat.mod_lt _ (pLanes_pos f))]
  rfl
theorem exec_vins : exec (.vins f d sa sb) s = .next (s.due [(3, .v d
    (BitVec.ofNat 8192 ((s.w.rdS sa).toNat % 2 ^ (8 * pBytes f) * 2 ^ (8 * pBytes f * ((s.w.src sb).toNat % (1024 / pBytes f)))))
    (BitVec.ofNat 8192 ((2 ^ (8 * pBytes f) - 1) % 2 ^ (8 * pBytes f) * 2 ^ (8 * pBytes f * ((s.w.src sb).toNat % (1024 / pBytes f))))))]) :=
  rfl
end
/-- A value with one element: that one, and no other. -/
theorem lane_single {n i k v : Nat} (hi : i < 1024 / n) (hv : v < 2 ^ (8 * n)) :
    lane n i (BitVec.ofNat 8192 (v * 2 ^ (8 * n * k))) = if i = k then v else 0 := by
  rw [lane_ofNat hi]
  rcases Nat.lt_trichotomy i k with h | rfl | h
  · obtain ⟨m, rfl⟩ := Nat.exists_eq_add_of_lt h
    have habove : v * 2 ^ (8 * n * (i + m + 1)) = 2 ^ (8 * n * i) * (2 ^ (8 * n) * (v * 2 ^ (8 * n * m))) := by ring
    rw [if_neg h.ne, habove, Nat.mul_div_cancel_left _ (Nat.two_pow_pos _), Nat.mul_mod_right]
  · rw [if_pos rfl, Nat.mul_div_cancel _ (Nat.two_pow_pos _), Nat.mod_eq_of_lt hv]
  · have hbelow : v * 2 ^ (8 * n * k) < 2 ^ (8 * n * i) :=
      calc v * 2 ^ (8 * n * k)
        _ < 2 ^ (8 * n) * 2 ^ (8 * n * k) := Nat.mul_lt_mul_of_pos_right hv (Nat.two_pow_pos _)
        _ = 2 ^ (8 * n * (k + 1)) := by ring
        _ ≤ 2 ^ (8 * n * i) := Nat.pow_le_pow_right Nat.two_pos (Nat.mul_le_mul_left _ h)
    rw [if_neg h.ne', Nat.div_eq_of_lt hbelow, Nat.zero_mod]

/-! ## Predicates (R152) -/

section
variable {s : State} {d p q : Nat} {a : VReg}

theorem exec_pand : exec (.pand d p q) s = .next (s.due [(1, .p d (s.w.rdP p &&& s.w.rdP q) (BitVec.allOnes 1024))]) := rfl
theorem exec_por : exec (.por d p q) s = .next (s.due [(1, .p d (s.w.rdP p ||| s.w.rdP q) (BitVec.allOnes 1024))]) := rfl
theorem exec_pxor : exec (.pxor d p q) s = .next (s.due [(1, .p d (s.w.rdP p ^^^ s.w.rdP q) (BitVec.allOnes 1024))]) := rfl
theorem exec_pnot : exec (.pnot d p) s = .next (s.due [(1, .p d (~~~s.w.rdP p) (BitVec.allOnes 1024))]) := rfl
theorem exec_pmov_fromBytes : exec (.pmov false d a) s = .next ((s.withWorld (s.w.rec1 a)).due
    [(2, .p d (predOfBits 1 ((List.range 1024).map fun i => bitOf 7 (lane 1 i (s.w.vop 0 a)))) (BitVec.allOnes 1024))]) := by
  have helems : (elems 1 (s.w.vop 0 a)).map (bitOf 7) = (List.range 1024).map fun i => bitOf 7 (lane 1 i (s.w.vop 0 a)) := by
    rw [elems_eq, List.map_map]
    rfl
  rw [← helems]
  rfl
theorem exec_pmov_toBytes : exec (.pmov true d a) s = .next (s.due
    [(2, .v d (laneMask 1 ((List.range 1024).map fun i => (s.w.rdP a.n).getLsbD (i * 1))) (BitVec.allOnes 8192))]) := by
  rw [← predBits_eq]
  rfl
end
theorem bitOf_seven {x : Nat} (h : x < 2 ^ 8) : bitOf 7 x = decide (128 ≤ x) := by
  have hdiv : x / 2 ^ 7 % 2 = 1 ↔ 128 ≤ x := by omega
  rw [bitOf, Bool.beq_eq_decide_eq, decide_eq_decide]
  exact hdiv

/-- Settles O25, form by form. -/
theorem packsElementsPredicates : Obligations.PacksElementsPredicates := by
  unfold Obligations.PacksElementsPredicates
  intro s f rm sat hi d p q sa a b sb g n N x xy one two idx num onesP
  have hx (i : Nat) : x i < 2 ^ (8 * n) := lane_lt ..
  have hxy (i : Nat) : xy i < 2 ^ (8 * n) := by
    dsimp only [xy]
    split
    · exact hx i
    · exact lane_lt ..
  have hones : 2 ^ (8 * n) - 1 < 2 ^ (8 * n) := Nat.sub_lt (Nat.two_pow_pos _) Nat.one_pos
  refine ⟨fun h => ?_, fun _ => ?_, exec_vext.trans ?_, ⟨_, _, exec_vins, fun i hi => ⟨?_, fun hidx => ?_⟩⟩,
    ⟨_, exec_pand, fun i _ => BitVec.getLsbD_and⟩,
    ⟨_, exec_por, fun i _ => BitVec.getLsbD_or⟩, ⟨_, exec_pxor, fun i _ => BitVec.getLsbD_xor⟩, ⟨_, exec_pnot, fun i hi => ?_⟩,
    ⟨_, exec_pmov_fromBytes, fun i hi => ?_⟩, ⟨_, exec_pmov_toBytes, fun i hi => ?_⟩⟩
  · exact (funext fun i => packOne_eq rm sat (hxy i) rfl) ▸ writesFloats_vpack h
  · exact (funext fun i => unpackOne_eq (hx _) rfl) ▸ writesFloats_vunpk
  · rw [elemVal_format (hx idx)]
  · rw [lane_single hi (Nat.mod_lt _ (Nat.two_pow_pos _)), Nat.mod_eq_of_lt hones]
  · rw [lane_single hi (Nat.mod_lt _ (Nat.two_pow_pos _)), if_pos hidx]
  · rw [BitVec.getLsbD_not]
    simp [hi]
  · refine (getLsbD_predOfBits Nat.one_pos hi (by simpa using hi) _).trans ?_
    rw [Nat.div_one, bitOf_seven (lane_lt ..)]
  · rw [lane_laneMask hi, Nat.mul_one]
    rfl

end Sys2Proof.Machine
end

/-! SUPPORT. Vector float forms, element by element (R160 to R165, R169), settle O17 and O18. -/
section
namespace Sys2Proof.Machine
open Sys2Proof

/-! ## Lists of results -/

section
variable (op : Nat → Nat → Nat → Nat × Nat) (x y z : Nat → Nat)

theorem zip3_map (l : List Nat) : zip3 op (l.map x) (l.map y) (l.map z) = l.map (fun i => op (x i) (y i) (z i)) := by
  induction l with
  | nil => rfl
  | cons i l ih => exact congrArg (_ :: ·) ih
theorem scaleAll_eq (f : FSpec) (rm : RMode) (inv : Bool) (k : Nat → Nat) (N : Nat) :
    scaleAll f rm inv k 0 ((List.range N).map x) = (List.range N).map (fun i => f.scale rm inv (k i) (x i)) := by
  suffices h : ∀ start, scaleAll f rm inv k start ((List.range' start N).map x) =
      (List.range' start N).map (fun i => f.scale rm inv (k i) (x i)) by
    simpa only [List.range_eq_range'] using h 0
  induction N with
  | zero => exact fun _ => rfl
  | succ N ih => exact fun start => congrArg (_ :: ·) (ih (start + 1))
end

/-! ## Formats (R153) -/

section
variable (f : SfFmt)

theorem sfBytes_dvd : 0 < sfBytes f ∧ sfBytes f ∣ 1024 := by cases f <;> decide
theorem sfSpec_bits : (sfSpec f).bits = 8 * sfBytes f := by cases f <;> rfl
theorem sfSpec_signBit : (sfSpec f).signBit = 2 ^ (8 * sfBytes f - 1) := by cases f <;> rfl
/-- Negating an element changes its sign bit alone (R163). -/
theorem flip_lane (i : Nat) (x : Line) :
    (sfSpec f).flip (lane (sfBytes f) i x) = Nat.xor (lane (sfBytes f) i x) (2 ^ (8 * sfBytes f - 1)) := by
  rw [FSpec.flip, sfSpec_bits, sfSpec_signBit, Nat.mod_eq_of_lt (lane_lt ..)]
  rfl
end

/-! ## The forms of one, two and three operands (R160, R161) -/

section
variable {s : State} {f : SfFmt} {rm : RMode} {lat d : Nat} {a c : VReg} {b : VSrc} {g : PredG} {val : Nat → Nat × Nat}

theorem writesFloats_f1 {op : Nat → Nat × Nat} (h : ∀ i, op (lane (sfBytes f) i (s.w.vop 0 a)) = val i) :
    WritesFloats (f1 f lat d a g op s) s (s.withWorld (s.w.rec1 a)) lat d (sfBytes f) g val :=
  writesFloats_wrFloat (by rw [elems_eq, List.map_map]; exact map_range_congr _ fun i _ => h i)
theorem writesFloats_f2 {op : Nat → Nat → Nat × Nat}
    (h : ∀ i, op (lane (sfBytes f) i (s.w.vop 0 a)) (lane (sfBytes f) i (s.w.vsrc (sfBytes f) b)) = val i) :
    WritesFloats (f2 f lat d a b g op s) s (s.withWorld (s.w.rec2 a b)) lat d (sfBytes f) g val :=
  writesFloats_wrFloat (by rw [elems_eq, elems_eq, zipWith_map_map]; exact map_range_congr _ fun i _ => h i)
theorem writesFloats_f3 {op : Nat → Nat → Nat → Nat × Nat} (h : ∀ i, op (lane (sfBytes f) i (s.w.vop 0 a))
      (lane (sfBytes f) i (s.w.vsrc (sfBytes f) b)) (lane (sfBytes f) i (s.w.vop 2 c)) = val i) :
    WritesFloats (f3 f lat d a b c g op s) s (s.withWorld (s.w.rec3 a b c)) lat d (sfBytes f) g val :=
  writesFloats_wrFloat (by rw [elems_eq, elems_eq, elems_eq, zip3_map]; exact map_range_congr _ fun i _ => h i)

variable {p : Nat} {sb : Src} {inv bc : Bool} (cond : FCond)

theorem writesFloats_vfscl : WritesFloats (exec (.vfscl f rm bc inv d a sb g) s) s (s.withWorld (s.w.rec1 a)) 3 d (sfBytes f) g
    (fun i => (sfSpec f).scale rm inv (s.w.scaleByte bc sb i) (lane (sfBytes f) i (s.w.vop 0 a))) :=
  writesFloats_wrFloat (by rw [elems_eq, scaleAll_eq])
/-- VFCMP: the truths of the elements as bits of a predicate, with the flags of those that are enabled (R164). -/
theorem exec_vfcmp {r : Nat → Bool × Nat} (hr : r = fun i => (sfSpec f).cmp cond (lane (sfBytes f) i (s.w.vop 0 a))
      (lane (sfBytes f) i (s.w.vsrc (sfBytes f) b))) :
    exec (.vfcmp f cond p a b g) s = .next ((s.withWorld (s.w.rec2 a b)).due
      [(4, .p p (predOfBits (sfBytes f) ((List.range (1024 / sfBytes f)).map fun i => (r i).1))
        (predOfBits (sfBytes f) (s.w.en g (sfBytes f)))), (4, .flags (s.flagsOf g (sfBytes f) fun i => (0, (r i).2)))]) := by
  have hlist : List.zipWith ((sfSpec f).cmp cond) (elems (sfBytes f) (s.w.vop 0 a)) (elems (sfBytes f) (s.w.vsrc (sfBytes f) b)) =
      (List.range (1024 / sfBytes f)).map r := by
    rw [elems_eq, elems_eq, zipWith_map_map, hr]
  have hflags : orEnabled (s.w.en g (sfBytes f)) (((List.range (1024 / sfBytes f)).map r).map (·.2)) =
      s.flagsOf g (sfBytes f) (fun i => (0, (r i).2)) := by
    rw [en_eq, List.map_map, orEnabled_map]
    rfl
  have hbits : ((List.range (1024 / sfBytes f)).map r).map (·.1) = (List.range (1024 / sfBytes f)).map (fun i => (r i).1) :=
    List.map_map
  rw [← hflags, ← hbits, ← hlist]
  exact congrArg Host.Outcome.next (due_due (s.withWorld (s.w.rec2 a b)) [(4, .p p _ _)] [(4, .flags _)])
end

/-- Settles O17: each form is that of its elements, a negated operand by its sign bit. -/
theorem vectorFloatArithmetic : Obligations.VectorFloatArithmetic := by
  unfold Obligations.VectorFloatArithmetic
  intro s f rm d a c b g n x y z neg two three
  have hneg (i : Nat) (u : Line) : (sfSpec f).flip (lane n i u) = neg (lane n i u) := flip_lane f i u
  exact ⟨writesFloats_f2 fun _ => rfl, writesFloats_f2 fun i => congrArg ((sfSpec f).add rm (x i)) (hneg i _),
    writesFloats_f2 fun _ => rfl, writesFloats_f3 fun _ => rfl,
    writesFloats_f3 fun i => congrArg ((sfSpec f).fma rm (x i) (y i)) (hneg i _),
    writesFloats_f3 fun i => congrArg ((sfSpec f).fma rm · (y i) (z i)) (hneg i _),
    writesFloats_f2 fun _ => rfl, writesFloats_f2 fun _ => rfl⟩

/-- Settles O18: each form is that of its elements; VFCMP's truths are the bits of a predicate. -/
theorem vectorFloatOthers : Obligations.VectorFloatOthers := by
  unfold Obligations.VectorFloatOthers
  intro s f rm d p a b sb g c bc inv n x y one two
  refine ⟨writesFloats_f1 fun i => ?_, writesFloats_f1 fun i => congrArg (·, 0) (flip_lane f i _), writesFloats_f1 fun _ => rfl,
    writesFloats_f1 fun _ => rfl, writesFloats_f1 fun _ => rfl, ?_, _, _, predLanes_predOfBits (sfBytes_dvd f) _, exec_vfcmp c rfl⟩
  · rw [sfSpec_signBit]
  · cases sb <;> exact writesFloats_vfscl

end Sys2Proof.Machine
end

/-! SUPPORT. A real magnitude rounded to a whole number of units (R159). -/
section
namespace Sys2Proof.Machine
open Sys2Proof

/-! ## Thresholds -/

/-- A magnitude `a` rounded to a multiple of `step` is above `t`, a multiple itself, which a tie leaves where it is not `odd`. -/
def Above (rm : RMode) (neg : Bool) (t step a : ℝ) (odd : Prop) : Prop :=
  if rm = .rne then t + step / 2 < a ∨ (a = t + step / 2 ∧ odd)
  else if cutsOff rm neg = true then t + step ≤ a else t < a

section
variable {rm : RMode} {neg : Bool} {t step a : ℝ} {odd : Prop}

/-- By the three kinds of mode. -/
theorem above_iff : Above rm neg t step a odd ↔ (rm = .rne ∧ (t + step / 2 < a ∨ (a = t + step / 2 ∧ odd))) ∨
    (rm ≠ .rne ∧ cutsOff rm neg = true ∧ t + step ≤ a) ∨ (rm ≠ .rne ∧ ¬cutsOff rm neg = true ∧ t < a) := by
  unfold Above
  by_cases hrm : rm = .rne
  · simp [hrm]
  · by_cases hcut : cutsOff rm neg = true <;> simp [hrm, hcut]
/-- What stays below a limit, of which a tie one step under it is odd. -/
theorem not_above_iff {limit : ℝ} : ¬Above rm neg (limit - step) step a True ↔ (rm = .rne ∧ a < limit - step / 2) ∨
    (rm ≠ .rne ∧ cutsOff rm neg = true ∧ a < limit) ∨ (rm ≠ .rne ∧ ¬cutsOff rm neg = true ∧ a ≤ limit - step) := by
  have hhalf : limit - step + step / 2 = limit - step / 2 := by ring
  have htie : limit - step / 2 < a ∨ a = limit - step / 2 ↔ limit - step / 2 ≤ a := by rw [le_iff_lt_or_eq, eq_comm (a := a)]
  unfold Above
  rw [hhalf, sub_add_cancel, and_true, htie]
  by_cases hrm : rm = .rne
  · simp [hrm, lt_sub_iff_add_lt]
  · by_cases hcut : cutsOff rm neg = true <;> simp [hrm, hcut]
theorem Above.of_le (hstep : 0 < step) (h : t + step ≤ a) : Above rm neg t step a odd := by
  unfold Above
  split
  · exact .inl (by linarith)
  · split <;> linarith
theorem not_above_of_le (hstep : 0 < step) (h : a ≤ t) : ¬Above rm neg t step a odd := by
  unfold Above
  split
  · rintro (h' | ⟨h', -⟩) <;> linarith
  · split <;> linarith
theorem above_scale {k : ℝ} (hk : 0 < k) : Above rm neg (t * k) (step * k) (a * k) odd ↔ Above rm neg t step a odd := by
  have hhalf : t * k + step * k / 2 = (t + step / 2) * k := by ring
  have hone : t * k + step * k = (t + step) * k := by ring
  unfold Above
  rw [hhalf, hone, mul_lt_mul_iff_left₀ hk, mul_lt_mul_iff_left₀ hk, mul_le_mul_iff_left₀ hk, mul_left_inj' hk.ne']
end

/-! ## Whole numbers of units -/

open Classical in
/-- A magnitude of `u` units rounded to a whole number of them. -/
noncomputable def roundUnits (rm : RMode) (neg : Bool) (u : ℝ) : ℕ :=
  if Above rm neg ⌊u⌋₊ 1 u (⌊u⌋₊ % 2 = 1) then ⌊u⌋₊ + 1 else ⌊u⌋₊

section
variable {rm : RMode} {neg : Bool} {u u' : ℝ}

theorem roundUnits_eq_floor_or (u : ℝ) : roundUnits rm neg u = ⌊u⌋₊ ∨ roundUnits rm neg u = ⌊u⌋₊ + 1 := by
  unfold roundUnits
  split
  · exact .inr rfl
  · exact .inl rfl
theorem lt_roundUnits_iff (hu : 0 ≤ u) (t : ℕ) : t < roundUnits rm neg u ↔ Above rm neg t 1 u (t % 2 = 1) := by
  have hle := Nat.floor_le hu
  have hlt := Nat.lt_floor_add_one u
  have hor := roundUnits_eq_floor_or (rm := rm) (neg := neg) u
  rcases Nat.lt_trichotomy t ⌊u⌋₊ with h | h | h
  · have hcast : (t : ℝ) + 1 ≤ ⌊u⌋₊ := by exact_mod_cast h
    exact iff_of_true (by omega) (.of_le one_pos (by linarith))
  · subst h
    unfold roundUnits
    split
    · exact iff_of_true (Nat.lt_succ_self _) ‹_›
    · exact iff_of_false (Nat.lt_irrefl _) ‹_›
  · have hcast : (⌊u⌋₊ : ℝ) + 1 ≤ t := by exact_mod_cast h
    exact iff_of_false (by omega) (not_above_of_le one_pos (by linarith))
theorem roundUnits_le {c : ℕ} (hu : 0 ≤ u) (h : u ≤ c) : roundUnits rm neg u ≤ c :=
  not_lt.mp fun hlt => not_above_of_le one_pos h ((lt_roundUnits_iff hu c).mp hlt)
/-- A whole number of units stays. -/
@[simp] theorem roundUnits_natCast (c : ℕ) : roundUnits rm neg (c : ℝ) = c := by
  rw [roundUnits, Nat.floor_natCast, if_neg (not_above_of_le one_pos le_rfl)]
/-- Only a whole number of units is left as it is. -/
theorem roundUnits_eq_self_iff : (roundUnits rm neg u : ℝ) = u ↔ (⌊u⌋₊ : ℝ) = u := by
  constructor <;> intro h
  · rw [← h, Nat.floor_natCast]
  · rw [← h, roundUnits_natCast]
/-- Magnitudes between the same two halves of units round to the same number: no threshold is between them. -/
theorem roundUnits_congr {j : ℕ} (h : (j : ℝ) / 2 < u ∧ u < (j + 1) / 2) (h' : (j : ℝ) / 2 < u' ∧ u' < (j + 1) / 2) :
    roundUnits rm neg u = roundUnits rm neg u' := by
  have hj : (0 : ℝ) ≤ j / 2 := by positivity
  have hside (k : ℕ) : ((k : ℝ) / 2 < u ↔ (k : ℝ) / 2 < u') ∧ ((k : ℝ) / 2 ≤ u ↔ (k : ℝ) / 2 ≤ u') ∧ u ≠ k / 2 ∧ u' ≠ k / 2 := by
    rcases Nat.lt_or_ge j k with hk | hk
    · have hcast : (j : ℝ) + 1 ≤ k := by exact_mod_cast hk
      exact ⟨iff_of_false (by linarith) (by linarith), iff_of_false (by linarith) (by linarith), by linarith, by linarith⟩
    · have hcast : (k : ℝ) ≤ j := by exact_mod_cast hk
      exact ⟨iff_of_true (by linarith) (by linarith), iff_of_true (by linarith) (by linarith), by linarith, by linarith⟩
  refine eq_of_forall_lt_iff fun t => ?_
  rw [lt_roundUnits_iff (by linarith), lt_roundUnits_iff (by linarith)]
  have hhalf : (t : ℝ) + 1 / 2 = (2 * t + 1 : ℕ) / 2 := by push_cast; ring
  have hnext : (t : ℝ) + 1 = (2 * t + 2 : ℕ) / 2 := by push_cast; ring
  have hsame : (t : ℝ) = (2 * t : ℕ) / 2 := by push_cast; ring
  obtain ⟨hlt, -, hne, hne'⟩ := hside (2 * t + 1)
  unfold Above
  rw [hhalf, hnext, hlt, (hside (2 * t + 2)).2.1]
  simp only [hne, hne', false_and]
  rw [hsame, (hside (2 * t)).1]
theorem natCast_ne_of_between {j : ℕ} (h : (j : ℝ) / 2 < u ∧ u < (j + 1) / 2) (n : ℕ) : (n : ℝ) ≠ u := by
  rintro rfl
  obtain ⟨h1, h2⟩ := h
  have h1' : j < 2 * n := by exact_mod_cast (by linarith : (j : ℝ) < 2 * n)
  have h2' : 2 * n < j + 1 := by exact_mod_cast (by linarith : (2 * n : ℝ) < j + 1)
  omega

/-! ## The nearest, and the nearest toward zero and away from it -/

theorem roundUnits_of_cutsOff (hrm : rm ≠ .rne) (hcut : cutsOff rm neg = true) : roundUnits rm neg u = ⌊u⌋₊ := by
  have hlt := Nat.lt_floor_add_one u
  exact if_neg (by rw [Above, if_neg hrm, if_pos hcut]; linarith)
theorem roundUnits_of_not_cutsOff (hu : 0 ≤ u) (hrm : rm ≠ .rne) (hcut : ¬cutsOff rm neg = true) : roundUnits rm neg u = ⌈u⌉₊ := by
  refine eq_of_forall_lt_iff fun t => ?_
  rw [lt_roundUnits_iff hu, Above, if_neg hrm, if_neg hcut, Nat.lt_ceil]

variable {w : ℝ} (hu : 0 ≤ u) (hw : w ≤ ⌊u⌋₊ ∨ ⌊u⌋₊ + 1 ≤ w)
include hu hw

theorem roundUnits_nearest : |roundUnits .rne neg u - u| ≤ |w - u| ∧
    (|roundUnits .rne neg u - u| = |w - u| → w ≠ roundUnits .rne neg u → roundUnits .rne neg u % 2 = 0) := by
  have hle := Nat.floor_le hu
  have hlt := Nat.lt_floor_add_one u
  have hleft (h : w ≤ ⌊u⌋₊) : |w - u| = u - w := by rw [abs_of_nonpos (by linarith), neg_sub]
  have hright (h : ⌊u⌋₊ + 1 ≤ w) : |w - u| = w - u := abs_of_nonneg (by linarith)
  have hself : |(⌊u⌋₊ : ℝ) - u| = u - ⌊u⌋₊ := by rw [abs_of_nonpos (by linarith), neg_sub]
  have hnext : |(⌊u⌋₊ : ℝ) + 1 - u| = ⌊u⌋₊ + 1 - u := abs_of_nonneg (by linarith)
  unfold roundUnits Above
  rw [if_pos rfl]
  split
  · rename_i habove
    have hhalf : ⌊u⌋₊ + 1 / 2 ≤ u := habove.elim le_of_lt fun h => h.1.ge
    push_cast
    rw [hnext]
    rcases hw with h | h
    · rw [hleft h]
      refine ⟨by linarith, fun heq _ => ?_⟩
      have hodd := (habove.resolve_left (by linarith)).2
      omega
    · rw [hright h]
      exact ⟨by linarith, fun heq hne => absurd (by linarith) hne⟩
  · rename_i habove
    obtain ⟨hhalf, heven⟩ := not_or.mp habove
    rw [hself]
    rcases hw with h | h
    · rw [hleft h]
      exact ⟨by linarith, fun heq hne => absurd (by linarith) hne⟩
    · rw [hright h]
      exact ⟨by linarith, fun heq _ => Nat.mod_two_ne_one.mp fun hodd => heven ⟨by linarith, hodd⟩⟩
theorem roundUnits_toward (hrm : rm ≠ .rne) (hcut : cutsOff rm neg = true) :
    roundUnits rm neg u ≤ u ∧ (w ≤ u → w ≤ roundUnits rm neg u) := by
  have hlt := Nat.lt_floor_add_one u
  rw [roundUnits_of_cutsOff hrm hcut]
  exact ⟨Nat.floor_le hu, fun hwu => hw.resolve_right (by linarith)⟩
theorem roundUnits_away (hrm : rm ≠ .rne) (hcut : ¬cutsOff rm neg = true) :
    u ≤ roundUnits rm neg u ∧ (u ≤ w → roundUnits rm neg u ≤ w) := by
  rw [roundUnits_of_not_cutsOff hu hrm hcut]
  refine ⟨Nat.le_ceil u, fun hwu => ?_⟩
  rcases hw with h | h
  · have hwhole : (⌊u⌋₊ : ℝ) = u := le_antisymm (Nat.floor_le hu) (hwu.trans h)
    rw [← hwhole, Nat.ceil_natCast, hwhole]
    exact hwu
  · exact le_trans (by exact_mod_cast Nat.ceil_le_floor_add_one u) h
omit hw in
/-- The nearest is at most half a unit away, and is even where it is. -/
theorem roundUnits_half : |roundUnits .rne neg u - u| ≤ 1 / 2 ∧
    (|roundUnits .rne neg u - u| = 1 / 2 → roundUnits .rne neg u % 2 = 0) := by
  have hle := Nat.floor_le hu
  have hlt := Nat.lt_floor_add_one u
  obtain ⟨hlow, hlow'⟩ := roundUnits_nearest (neg := neg) (w := ⌊u⌋₊) hu (.inl le_rfl)
  obtain ⟨hhigh, hhigh'⟩ := roundUnits_nearest (neg := neg) (w := ⌊u⌋₊ + 1) hu (.inr le_rfl)
  have hself : |(⌊u⌋₊ : ℝ) - u| = u - ⌊u⌋₊ := by rw [abs_of_nonpos (by linarith), neg_sub]
  have hnext : |(⌊u⌋₊ : ℝ) + 1 - u| = ⌊u⌋₊ + 1 - u := abs_of_nonneg (by linarith)
  rw [hself] at hlow hlow'
  rw [hnext] at hhigh hhigh'
  refine ⟨by linarith, fun h => ?_⟩
  rcases roundUnits_eq_floor_or (rm := .rne) (neg := neg) u with heq | heq
  · refine hhigh' ?_ ?_
    · rw [heq, hself] at h ⊢
      linarith
    · rw [heq]
      exact (lt_add_one _).ne'
  · refine hlow' ?_ ?_
    · rw [heq, Nat.cast_add_one, hnext] at h ⊢
      linarith
    · rw [heq, Nat.cast_add_one]
      exact (lt_add_one _).ne
end

/-! ## The model's rounding at a power of two -/

section
variable {rm : RMode} {neg : Bool}

theorem roundsUp_iff {n r s : ℕ} (hr : r < 2 ^ (s + 1)) :
    roundsUp rm neg n r (2 ^ s) = true ↔ Above rm neg n 1 (n + r / 2 ^ (s + 1)) (n % 2 = 1) := by
  have hpow : (0 : ℝ) < 2 ^ (s + 1) := by positivity
  have hlt : (r : ℝ) / 2 ^ (s + 1) < 1 := (div_lt_one hpow).mpr (by exact_mod_cast hr)
  have hhalf : (1 : ℝ) / 2 = (2 ^ s : ℕ) / 2 ^ (s + 1) := by rw [pow_succ]; push_cast; field_simp
  have hzero : (0 : ℝ) < r / 2 ^ (s + 1) ↔ r ≠ 0 := by rw [div_pos_iff_of_pos_right hpow, Nat.cast_pos, Nat.pos_iff_ne_zero]
  have hcut : ¬(n : ℝ) + 1 ≤ n + r / 2 ^ (s + 1) := by linarith
  unfold Above
  cases rm with
  | rne =>
    rw [if_pos rfl, hhalf, add_lt_add_iff_left, div_lt_div_iff_of_pos_right hpow, Nat.cast_lt, add_right_inj, div_left_inj' hpow.ne',
      Nat.cast_inj]
    simp [roundsUp]
  | rtz => simpa [roundsUp, cutsOff] using hlt
  | rup => cases neg <;> simp [roundsUp, cutsOff, hzero, hlt]
  | rdn => cases neg <;> simp [roundsUp, cutsOff, hzero, hlt]
/-- The model's rounding at a power of two is that of the exact number of units. -/
theorem roundAt_eq (m : ℕ) (e q : ℤ) : roundAt rm neg m e q =
    (roundUnits rm neg (m * 2 ^ (e - q)), decide ((roundUnits rm neg (m * 2 ^ (e - q)) : ℝ) ≠ m * 2 ^ (e - q))) := by
  unfold roundAt
  split
  · obtain ⟨k, hk⟩ := Int.eq_ofNat_of_zero_le (Int.sub_nonneg.mpr ‹q ≤ e›)
    have hnat : (m : ℝ) * 2 ^ (e - q) = (m * 2 ^ k : ℕ) := by rw [hk]; push_cast; rfl
    rw [hnat, roundUnits_natCast, hk]
    simp
  · obtain ⟨s, hs⟩ := Int.eq_succ_of_zero_lt (show 0 < q - e by omega)
    have hdiv : (m : ℝ) * 2 ^ (e - q) = (m : ℝ) / (2 ^ (s + 1) : ℕ) := by
      rw [← neg_sub, hs, zpow_neg, div_eq_mul_inv]
      norm_cast
    have hfloor : ⌊(m : ℝ) / (2 ^ (s + 1) : ℕ)⌋₊ = m / 2 ^ (s + 1) := Nat.floor_div_eq_div ..
    have hsplit : (m : ℝ) / (2 ^ (s + 1) : ℕ) = (m / 2 ^ (s + 1) : ℕ) + (m % 2 ^ (s + 1) : ℕ) / 2 ^ (s + 1) := by
      have hmod : (m : ℝ) = 2 ^ (s + 1) * (m / 2 ^ (s + 1) : ℕ) + (m % 2 ^ (s + 1) : ℕ) := by exact_mod_cast (Nat.div_add_mod ..).symm
      rw [Nat.cast_pow, Nat.cast_ofNat, div_eq_iff (by positivity), add_mul, div_mul_cancel₀ _ (by positivity), mul_comm]
      exact hmod
    have hup := roundsUp_iff (rm := rm) (neg := neg) (n := m / 2 ^ (s + 1)) (Nat.mod_lt m (Nat.two_pow_pos (s + 1)))
    rw [← hsplit] at hup
    have hround : roundUnits rm neg ((m : ℝ) / (2 ^ (s + 1) : ℕ)) =
        if roundsUp rm neg (m / 2 ^ (s + 1)) (m % 2 ^ (s + 1)) (2 ^ s) = true then m / 2 ^ (s + 1) + 1 else m / 2 ^ (s + 1) := by
      simp only [roundUnits, hfloor, ← hup]
    have hexact : (roundUnits rm neg ((m : ℝ) / (2 ^ (s + 1) : ℕ)) : ℝ) ≠ (m : ℝ) / (2 ^ (s + 1) : ℕ) ↔ m % 2 ^ (s + 1) ≠ 0 := by
      rw [Ne, roundUnits_eq_self_iff, hfloor, hsplit, left_eq_add, div_eq_zero_iff, Nat.cast_eq_zero]
      simp
    rw [hdiv, show (q - e).toNat = s + 1 by omega]
    exact Prod.ext hround.symm (Bool.eq_iff_iff.mpr (bne_iff_ne.trans (hexact.symm.trans decide_eq_true_iff.symm)))
end

end Sys2Proof.Machine
end

/-! SUPPORT. The encodings of a float format: their fields, their values and their order (R153, R154). -/
section
namespace Sys2Proof.Machine
open Sys2Proof

/-! ## Exact values -/

/-- The value (-1)^neg * m * 2^e of a finite float. -/
noncomputable def exactVal (neg : Bool) (m : ℕ) (e : ℤ) : ℝ := sInt neg m * 2 ^ e
/-- The factor of a sign. -/
def signOf (neg : Bool) : ℝ := if neg then -1 else 1

section
variable {neg k : Bool} {m : ℕ} {e : ℤ}

theorem exactVal_eq : exactVal neg m e = signOf neg * (m * 2 ^ e) := by
  cases neg <;> simp [exactVal, sInt, signOf]
@[simp] theorem abs_signOf : |signOf neg| = 1 := by cases neg <;> simp [signOf]
theorem signOf_bne : signOf (neg != k) = signOf neg * signOf k := by cases neg <;> cases k <;> simp [signOf]
@[simp] theorem abs_exactVal : |exactVal neg m e| = m * 2 ^ e := by
  rw [exactVal_eq, abs_mul, abs_signOf, one_mul, abs_of_nonneg (by positivity)]
theorem exactVal_eq_zero : exactVal neg m e = 0 ↔ m = 0 := by
  rw [← abs_eq_zero, abs_exactVal, mul_eq_zero, Nat.cast_eq_zero]
  exact or_iff_left (by positivity)
theorem exactVal_neg_iff (hm : m ≠ 0) : exactVal neg m e < 0 ↔ neg = true := by
  have hpos : (0 : ℝ) < m * 2 ^ e := by positivity
  rw [exactVal_eq]
  cases neg
  · simpa [signOf] using hpos.le
  · simpa [signOf] using hpos
/-- A number that is not zero, by its sign and its magnitude. -/
theorem signOf_mul_abs (v : ℝ) : signOf (decide (v < 0)) * |v| = v := by
  by_cases h : v < 0
  · simp [signOf, h, abs_of_neg h]
  · simp [signOf, h, abs_of_nonneg (not_lt.mp h)]
end

/-! ## Formats and the fields of an encoding -/

/-- What the formats of R153 have in common. -/
structure FSpec.Ok (f : FSpec) : Prop where
  fb : 1 ≤ f.fb
  eb : 2 ≤ f.eb
  e4 : f.e4 = true → f = specE4m3

/-- The significand of an encoding, as a whole number of units. -/
def FSpec.units (f : FSpec) (x : ℕ) : ℕ := if f.expo x = 0 then f.frac x else f.frac x + 2 ^ f.fb
/-- How far the exponent of its unit is above the least. -/
def FSpec.octave (f : FSpec) (x : ℕ) : ℕ := f.expo x - 1

namespace FSpec
variable {f : FSpec} {x : ℕ}

theorem minus_eq (f : FSpec) (x : ℕ) : f.minus x = (x / f.signBit % 2 == 1) := by
  rw [minus, signBit, Nat.testBit_eq_decide_div_mod_eq]
  exact (Bool.beq_eq_decide_eq ..).symm
theorem frac_lt (f : FSpec) (x : ℕ) : f.frac x < 2 ^ f.fb := Nat.mod_lt _ (Nat.two_pow_pos _)
theorem units_lt (f : FSpec) (x : ℕ) : f.units x < 2 ^ (f.fb + 1) := by
  have := f.frac_lt x
  rw [pow_succ, units]
  split <;> omega
theorem rat_eq (f : FSpec) (x : ℕ) : (f.rat x : ℝ) = exactVal (f.minus x) (f.units x) (f.low + f.octave x) := by
  rw [exactVal_eq, rat, units, octave, low, signOf]
  rcases Nat.eq_zero_or_pos (f.expo x) with h | h
  · simp [h, apply_ite (Rat.cast (K := ℝ))]
  · have hexp : (1 - f.bias - f.fb + (f.expo x - 1 : ℕ) : ℤ) = f.expo x - f.bias - f.fb := by omega
    rw [hexp, if_neg h.ne', if_neg h.ne']
    push_cast [apply_ite (Rat.cast (K := ℝ))]
    ring
/-- An encoding's value by its fields. -/
theorem decode_eq (f : FSpec) (x : ℕ) : f.decode x =
    if f.e4 then if f.expo x = 15 ∧ f.frac x = 7 then .nan false else .fin (f.minus x) (f.units x) (f.low + f.octave x)
    else if f.expo x = 2 ^ f.eb - 1 then if f.frac x = 0 then .inf (f.minus x) else .nan (f.frac x < 2 ^ (f.fb - 1))
    else .fin (f.minus x) (f.units x) (f.low + f.octave x) := by
  have hvalue : (if f.expo x == 0 then FVal.fin (f.minus x) (f.frac x) (1 - (f.bias : Int) - f.fb)
      else .fin (f.minus x) (f.frac x + 2 ^ f.fb) ((f.expo x : Int) - f.bias - f.fb)) =
        .fin (f.minus x) (f.units x) (f.low + f.octave x) := by
    rw [units, octave, low]
    rcases Nat.eq_zero_or_pos (f.expo x) with h | h
    · simp [h]
    · have hexp : (1 - f.bias - f.fb + (f.expo x - 1 : ℕ) : ℤ) = f.expo x - f.bias - f.fb := by omega
      rw [hexp, if_neg h.ne', if_neg (by simpa using h.ne')]
  rw [← hvalue, minus_eq, decode]
  simp only [Bool.and_eq_true, beq_iff_eq]
  rfl
theorem finite_iff (hf : f.Ok) : f.finite x = true ↔ x < 2 ^ (1 + f.eb + f.fb) ∧
    if f.e4 then ¬(f.expo x = 15 ∧ f.frac x = 7) else f.expo x ≠ 2 ^ f.eb - 1 := by
  rw [finite, Bool.and_eq_true, decide_eq_true_eq]
  refine and_congr_right fun _ => ?_
  cases h4 : f.e4
  · simp
  · obtain rfl := hf.e4 h4
    simp only [specE4m3, if_true, Bool.not_eq_true', Bool.and_eq_false_iff, beq_eq_false_iff_ne, not_and_or]
    rfl
theorem decode_finite (hf : f.Ok) (hx : f.finite x = true) : f.decode x = .fin (f.minus x) (f.units x) (f.low + f.octave x) := by
  obtain ⟨-, hfields⟩ := (finite_iff hf).mp hx
  rw [decode_eq]
  split at hfields
  · rw [if_pos ‹_›, if_neg hfields]
  · rw [if_neg ‹_›, if_neg hfields]

/-! ## Encodings by their magnitude -/

section
variable {neg : Bool} {mag : ℕ} (h : mag < 2 ^ (f.eb + f.fb))
include h

theorem minus_signed : f.minus (f.signed neg mag) = neg := by
  rw [minus_eq, signed, signBit, Nat.add_comm, Nat.add_mul_div_right _ _ (Nat.two_pow_pos _), Nat.div_eq_of_lt h]
  cases neg <;> rfl
theorem expo_signed : f.expo (f.signed neg mag) = mag / 2 ^ f.fb := by
  have hdiv : mag / 2 ^ f.fb < 2 ^ f.eb := Nat.div_lt_of_lt_mul (by rwa [← pow_add, Nat.add_comm])
  rw [expo, signed, signBit, pow_add, ← Nat.mul_assoc, Nat.add_comm, Nat.add_mul_div_right _ _ (Nat.two_pow_pos _),
    Nat.add_mul_mod_self_right, Nat.mod_eq_of_lt hdiv]
omit h in
theorem frac_signed : f.frac (f.signed neg mag) = mag % 2 ^ f.fb := by
  rw [frac, signed, signBit, pow_add, ← Nat.mul_assoc, Nat.add_comm, Nat.add_mul_mod_self_right]
omit h in
theorem maxFin_lt (hf : f.Ok) : f.maxFin < 2 ^ (f.eb + f.fb) := by
  have hb : 0 < 2 ^ f.fb := Nat.two_pow_pos _
  have he : 2 ^ 2 ≤ 2 ^ f.eb := Nat.pow_le_pow_right (by decide) hf.eb
  cases h4 : f.e4
  · rw [maxFin, h4, if_neg Bool.false_ne_true, pow_add]
    calc (2 ^ f.eb - 2) * 2 ^ f.fb + (2 ^ f.fb - 1)
      _ < (2 ^ f.eb - 2 + 1) * 2 ^ f.fb := by rw [Nat.succ_mul]; omega
      _ ≤ 2 ^ f.eb * 2 ^ f.fb := Nat.mul_le_mul_right _ (by omega)
  · obtain rfl := hf.e4 h4
    decide
theorem finite_signed (hf : f.Ok) (hmag : mag ≤ f.maxFin) : f.finite (f.signed neg mag) = true := by
  have hlt : f.signed neg mag < 2 ^ (1 + f.eb + f.fb) := by
    rw [Nat.add_assoc, pow_add 2 1, signed, signBit]
    cases neg <;> simp [bit] <;> omega
  refine (finite_iff hf).mpr ⟨hlt, ?_⟩
  rw [expo_signed h, frac_signed]
  cases h4 : f.e4
  · have hb : 0 < 2 ^ f.fb := Nat.two_pow_pos _
    have he : 2 ^ 2 ≤ 2 ^ f.eb := Nat.pow_le_pow_right (by decide) hf.eb
    rw [maxFin, h4, if_neg Bool.false_ne_true] at hmag
    rw [if_neg Bool.false_ne_true]
    refine (Nat.div_lt_of_lt_mul ?_).ne
    calc mag
      _ < (2 ^ f.eb - 2 + 1) * 2 ^ f.fb := by rw [Nat.succ_mul]; omega
      _ = 2 ^ f.fb * (2 ^ f.eb - 1) := by rw [Nat.mul_comm]; congr 1; omega
  · obtain rfl := hf.e4 h4
    have hmax : mag ≤ 0x7E := hmag
    change ¬(mag / 2 ^ 3 = 15 ∧ mag % 2 ^ 3 = 7)
    omega
end

/-! ## Magnitudes by their octave and their whole number of units -/

/-- The magnitude of `n` units in an octave: a full count of units is the first of the next octave. -/
def magOf (f : FSpec) (k n : ℕ) : ℕ := k * 2 ^ f.fb + n
/-- A whole number of units that stands in an octave; only the lowest has those below the first normal one. -/
def Placed (f : FSpec) (k n : ℕ) : Prop := n ≤ 2 ^ (f.fb + 1) ∧ (n < 2 ^ f.fb → k = 0)

section
variable {neg : Bool} {k n : ℕ}

theorem rat_magOf (hp : f.Placed k n) (h : f.magOf k n < 2 ^ (f.eb + f.fb)) :
    (f.rat (f.signed neg (f.magOf k n)) : ℝ) = exactVal neg n (f.low + k) := by
  have hb : 0 < 2 ^ f.fb := Nat.two_pow_pos _
  obtain ⟨hle, hlow⟩ := hp
  rw [rat_eq, minus_signed h, units, octave, expo_signed h, frac_signed, magOf]
  rcases Nat.lt_or_ge n (2 ^ f.fb) with hn | hn
  · obtain rfl := hlow hn
    simp [Nat.div_eq_of_lt hn, Nat.mod_eq_of_lt hn]
  rcases hle.lt_or_eq with hlt | rfl
  · obtain ⟨r, rfl⟩ := Nat.exists_eq_add_of_le hn
    have hr : r < 2 ^ f.fb := by rw [pow_succ] at hlt; omega
    have hsum : k * 2 ^ f.fb + (2 ^ f.fb + r) = r + (k + 1) * 2 ^ f.fb := by ring
    rw [hsum, Nat.add_mul_div_right _ _ hb, Nat.add_mul_mod_self_right, Nat.div_eq_of_lt hr, Nat.mod_eq_of_lt hr]
    simp [Nat.add_comm]
  · have hsum : k * 2 ^ f.fb + 2 ^ (f.fb + 1) = (k + 2) * 2 ^ f.fb := by ring
    rw [hsum, Nat.mul_div_cancel _ hb, Nat.mul_mod_left]
    have hexp : (f.low + (k + 2 - 1 : ℕ) : ℤ) = f.low + k + 1 := by push_cast; omega
    rw [if_neg (by omega), hexp, exactVal_eq, exactVal_eq, zpow_add_one₀ two_ne_zero]
    push_cast
    ring
/-- Magnitudes are in the order of their values. -/
theorem magOf_lt_iff {k' n' : ℕ} (hp : f.Placed k n) (hp' : f.Placed k' n') (hn' : n' < 2 ^ (f.fb + 1)) :
    f.magOf k' n' < f.magOf k n ↔ n' * 2 ^ k' < n * 2 ^ k := by
  obtain ⟨hle, hlow⟩ := hp
  obtain ⟨-, hlow'⟩ := hp'
  rw [pow_succ] at hle hn'
  unfold magOf
  rcases Nat.lt_trichotomy k k' with h | rfl | h
  · have hb' : 2 ^ f.fb ≤ n' := not_lt.mp fun h' => by have := hlow' h'; omega
    obtain ⟨j, rfl⟩ := Nat.exists_eq_add_of_lt h
    refine iff_of_false ?_ ?_
    · have hoct : (k + j + 1) * 2 ^ f.fb = k * 2 ^ f.fb + j * 2 ^ f.fb + 2 ^ f.fb := by ring
      omega
    · have hpow : n' * 2 ^ (k + j + 1) = n' * 2 * 2 ^ k * 2 ^ j := by ring
      have hone : n' * 2 * 2 ^ k * 1 ≤ n' * 2 * 2 ^ k * 2 ^ j := Nat.mul_le_mul_left _ Nat.one_le_two_pow
      have hle' : n * 2 ^ k ≤ n' * 2 * 2 ^ k := Nat.mul_le_mul_right _ (by omega)
      omega
  · rw [Nat.add_lt_add_iff_left]
    exact (Nat.mul_lt_mul_right (Nat.two_pow_pos _)).symm
  · have hb : 2 ^ f.fb ≤ n := not_lt.mp fun h' => by have := hlow h'; omega
    obtain ⟨j, rfl⟩ := Nat.exists_eq_add_of_lt h
    refine iff_of_true ?_ ?_
    · have hoct : (k' + j + 1) * 2 ^ f.fb = k' * 2 ^ f.fb + j * 2 ^ f.fb + 2 ^ f.fb := by ring
      omega
    · have hpow : n * 2 ^ (k' + j + 1) = n * 2 * 2 ^ k' * 2 ^ j := by ring
      have hone : n * 2 * 2 ^ k' * 1 ≤ n * 2 * 2 ^ k' * 2 ^ j := Nat.mul_le_mul_left _ Nat.one_le_two_pow
      have hlt : n' * 2 ^ k' < n * 2 * 2 ^ k' := Nat.mul_lt_mul_of_pos_right (by omega) (Nat.two_pow_pos _)
      omega
/-- An encoding is even where its units are. -/
theorem signed_magOf_mod_two (hf : f.Ok) : f.signed neg (f.magOf k n) % 2 = n % 2 := by
  obtain ⟨j, hj⟩ := Nat.exists_eq_add_of_le' hf.fb
  have heven : f.signed neg (f.magOf k n) = n + 2 * (bit neg * 2 ^ (f.eb + j) + k * 2 ^ j) := by
    rw [signed, signBit, magOf, hj]
    ring
  rw [heven, Nat.add_mul_mod_self_left]
end

/-! ## The greatest finite value -/

/-- The octave and the units of the greatest finite value. -/
def topOctave (f : FSpec) : ℕ := 2 ^ f.eb - if f.e4 then 2 else 3
def topUnits (f : FSpec) : ℕ := 2 ^ (f.fb + 1) - if f.e4 then 2 else 1

section
variable (hf : f.Ok)
include hf

theorem maxFin_eq : f.maxFin = f.magOf f.topOctave f.topUnits := by
  have hb : 0 < 2 ^ f.fb := Nat.two_pow_pos _
  obtain ⟨r, hr⟩ := Nat.exists_eq_add_of_le (Nat.pow_le_pow_right (n := 2) (by decide) hf.eb)
  cases h4 : f.e4
  · have htop : 2 ^ f.eb - 3 = r + 1 := by omega
    have hpred : 2 ^ f.eb - 2 = r + 2 := by omega
    rw [maxFin, magOf, topOctave, topUnits, h4, if_neg Bool.false_ne_true, if_neg Bool.false_ne_true, if_neg Bool.false_ne_true,
      htop, hpred, pow_succ, Nat.succ_mul, Nat.succ_mul]
    omega
  · obtain rfl := hf.e4 h4
    rfl
theorem topUnits_bounds : 2 ^ f.fb ≤ f.topUnits ∧ f.topUnits < 2 ^ (f.fb + 1) := by
  have hb : 2 ^ 1 ≤ 2 ^ f.fb := Nat.pow_le_pow_right (by decide) hf.fb
  rw [topUnits, pow_succ]
  split <;> omega
theorem topStep_eq : (f.topStep : ℝ) = 2 ^ (f.low + f.topOctave) := by
  have he : 2 ^ 2 ≤ 2 ^ f.eb := Nat.pow_le_pow_right (by decide) hf.eb
  have hexp : f.topExpo - f.fb = f.low + f.topOctave := by
    have hcast : ((2 ^ f.eb : ℕ) : ℤ) = 2 ^ f.eb := by push_cast; rfl
    rw [topExpo, low, topOctave, ← hcast]
    split <;> omega
  rw [topStep, hexp]
  push_cast
  rfl
theorem topValue_eq : (f.topValue : ℝ) = f.topUnits * f.topStep := by
  have hb : 2 ^ 1 ≤ 2 ^ f.fb := Nat.pow_le_pow_right (by decide) hf.fb
  rw [topValue, topUnits, Nat.cast_sub (by rw [pow_succ]; split <;> omega)]
  push_cast [apply_ite (Rat.cast (K := ℝ)), apply_ite (Nat.cast (R := ℝ))]
  rfl
end

/-! ## Between two encodings -/

/-- No finite value is strictly between two adjacent whole numbers of units of an octave. -/
theorem units_gap (y : ℕ) {k c : ℕ} (hc : c < 2 ^ f.fb → k = 0) :
    (f.units y : ℝ) * 2 ^ ((f.octave y : ℤ) - k) ≤ c ∨ c + 1 ≤ (f.units y : ℝ) * 2 ^ ((f.octave y : ℤ) - k) := by
  rcases Nat.lt_or_ge (f.octave y) k with h | h
  · obtain ⟨j, rfl⟩ := Nat.exists_eq_add_of_lt h
    have hb : 2 ^ f.fb ≤ c := not_lt.mp fun h' => by have := hc h'; omega
    have hexp : (f.octave y : ℤ) - (f.octave y + j + 1 : ℕ) = -(j + 1 : ℕ) := by push_cast; ring
    have hunits : f.units y ≤ c * 2 ^ (j + 1) :=
      calc f.units y
        _ ≤ 2 ^ f.fb * 2 ^ 1 := by rw [← pow_add]; exact (f.units_lt y).le
        _ ≤ c * 2 ^ (j + 1) := Nat.mul_le_mul hb (Nat.pow_le_pow_right (by decide) (by omega))
    left
    rw [hexp, zpow_neg, zpow_natCast, mul_inv_le_iff₀ (by positivity)]
    exact_mod_cast hunits
  · obtain ⟨j, hj⟩ := Nat.exists_eq_add_of_le h
    have hexp : (f.octave y : ℤ) - k = (j : ℕ) := by omega
    rw [hexp, zpow_natCast]
    norm_cast
    omega
end FSpec

end Sys2Proof.Machine
end

/-! SUPPORT. One rounding of a real number to a float format (R153, R159, R160). -/
section
namespace Sys2Proof.Machine
open Sys2Proof

namespace FSpec

/-! ## The octave of a magnitude -/

/-- The octave of a magnitude in a format. -/
noncomputable def octaveOf (f : FSpec) (a : ℝ) : ℕ := (Int.log 2 a - f.fb - f.low).toNat
/-- A magnitude as a number of the units of its octave. -/
noncomputable def inUnits (f : FSpec) (a : ℝ) : ℝ := a / 2 ^ (f.low + f.octaveOf a)

section
variable {f : FSpec} {a : ℝ} (ha : 0 < a)
include ha

theorem log_bounds : (2 : ℝ) ^ Int.log 2 a ≤ a ∧ a < 2 ^ (Int.log 2 a + 1) :=
  ⟨by exact_mod_cast Int.zpow_log_le_self (b := 2) one_lt_two ha,
    by exact_mod_cast Int.lt_zpow_succ_log_self (b := 2) one_lt_two a⟩
omit ha in
theorem inUnits_mul (a : ℝ) : f.inUnits a * 2 ^ f.octaveOf a * 2 ^ f.low = a := by
  rw [inUnits, zpow_add₀ two_ne_zero, zpow_natCast]
  field_simp
theorem inUnits_pos : 0 < f.inUnits a := by unfold inUnits; positivity
theorem inUnits_lt : f.inUnits a < 2 ^ (f.fb + 1) := by
  rw [inUnits, div_lt_iff₀ (by positivity), ← zpow_natCast, ← zpow_add₀ two_ne_zero]
  refine (log_bounds ha).2.trans_le (zpow_le_zpow_right₀ one_le_two ?_)
  rw [octaveOf]
  push_cast
  omega
theorem le_inUnits (h : f.octaveOf a ≠ 0) : 2 ^ f.fb ≤ f.inUnits a := by
  rw [inUnits, le_div_iff₀ (by positivity), ← zpow_natCast, ← zpow_add₀ two_ne_zero]
  refine (zpow_le_zpow_right₀ one_le_two ?_).trans (log_bounds ha).1
  rw [octaveOf] at h ⊢
  omega
theorem floor_placed (h : ⌊f.inUnits a⌋₊ < 2 ^ f.fb) : f.octaveOf a = 0 := by
  by_contra hk
  exact absurd (Nat.le_floor (by exact_mod_cast le_inUnits ha hk)) (Nat.not_le.mpr h)
theorem placed_roundUnits (rm : RMode) (neg : Bool) : f.Placed (f.octaveOf a) (roundUnits rm neg (f.inUnits a)) := by
  refine ⟨roundUnits_le (inUnits_pos ha).le (by exact_mod_cast (inUnits_lt ha).le), fun h => floor_placed ha ?_⟩
  rcases roundUnits_eq_floor_or (rm := rm) (neg := neg) (f.inUnits a) with h' | h' <;> omega
end

/-! ## Overflow and underflow -/

/-- Rounded with an unbounded exponent, a magnitude is above the greatest finite value (R159). -/
def Beyond (f : FSpec) (rm : RMode) (neg : Bool) (a : ℝ) : Prop := Above rm neg f.topValue f.topStep a (f.e4 = false)
/-- Rounded with an unbounded exponent, a magnitude is below the least normal value (R159). -/
def Tiny (f : FSpec) (rm : RMode) (neg : Bool) (a : ℝ) : Prop :=
  ¬Above rm neg ((2 : ℝ) ^ (1 - f.bias : ℤ) - 2 ^ (-(f.bias : ℤ) - f.fb)) (2 ^ (-(f.bias : ℤ) - f.fb)) a True

section
variable {f : FSpec} {a : ℝ} {rm : RMode} {neg : Bool} (hf : f.Ok) (ha : 0 < a)
include hf ha

omit ha in
/-- The threshold of an overflow, in units of the lowest octave. -/
theorem beyond_iff : f.Beyond rm neg a ↔ Above rm neg (f.topUnits * 2 ^ f.topOctave) (2 ^ f.topOctave)
    (f.inUnits a * 2 ^ f.octaveOf a) (f.topUnits % 2 = 1) := by
  have hodd : f.topUnits % 2 = 1 ↔ f.e4 = false := by
    have hpos : 0 < 2 ^ f.fb := Nat.two_pow_pos _
    rw [topUnits, pow_succ]
    cases f.e4
    · rw [if_neg Bool.false_ne_true]
      exact iff_of_true (by omega) rfl
    · rw [if_pos rfl]
      exact iff_of_false (by omega) (by decide)
  have hstep : (f.topStep : ℝ) = 2 ^ f.topOctave * 2 ^ f.low := by
    rw [topStep_eq hf, zpow_add₀ two_ne_zero, zpow_natCast, mul_comm]
  have hvalue : (f.topValue : ℝ) = f.topUnits * 2 ^ f.topOctave * 2 ^ f.low := by rw [topValue_eq hf, hstep, mul_assoc]
  rw [Beyond, ← above_scale (a := f.inUnits a * 2 ^ f.octaveOf a) (k := 2 ^ f.low) (by positivity), inUnits_mul, hodd, hvalue, hstep]
/-- What is rounded is above the greatest finite magnitude where the format's threshold says so: by the octave, and within the
last one by the units. -/
theorem maxFin_lt_iff : f.maxFin < f.magOf (f.octaveOf a) (roundUnits rm neg (f.inUnits a)) ↔ f.Beyond rm neg a := by
  obtain ⟨hge, hlt⟩ := topUnits_bounds hf
  have hu := inUnits_lt (f := f) ha
  have hplaced := placed_roundUnits (f := f) ha rm neg
  have hpos : (0 : ℝ) < 2 ^ f.topOctave := by positivity
  rw [beyond_iff hf, maxFin_eq hf, magOf_lt_iff hplaced ⟨hlt.le, fun h => absurd h (by omega)⟩ hlt]
  rcases Nat.lt_trichotomy (f.octaveOf a) f.topOctave with h | h | h
  · have hle : 2 ^ (f.fb + 1) * 2 ^ f.octaveOf a ≤ f.topUnits * 2 ^ f.topOctave :=
      calc 2 ^ (f.fb + 1) * 2 ^ f.octaveOf a
        _ = 2 ^ f.fb * 2 ^ (f.octaveOf a + 1) := by ring
        _ ≤ f.topUnits * 2 ^ f.topOctave := Nat.mul_le_mul hge (Nat.pow_le_pow_right (by decide) h)
    have hleReal : (2 : ℝ) ^ (f.fb + 1) * 2 ^ f.octaveOf a ≤ f.topUnits * 2 ^ f.topOctave := by exact_mod_cast hle
    exact iff_of_false (Nat.not_lt.mpr ((Nat.mul_le_mul_right _ hplaced.1).trans hle))
      (not_above_of_le hpos ((mul_le_mul_of_nonneg_right hu.le (by positivity)).trans hleReal))
  · have hunit := above_scale (rm := rm) (neg := neg) (t := f.topUnits) (step := 1) (a := f.inUnits a) (odd := f.topUnits % 2 = 1) hpos
    rw [one_mul] at hunit
    rw [h, hunit, Nat.mul_lt_mul_right (Nat.two_pow_pos _), lt_roundUnits_iff (inUnits_pos ha).le]
  · have hle : (f.topUnits + 1) * 2 ^ f.topOctave ≤ 2 ^ f.fb * 2 ^ f.octaveOf a :=
      calc (f.topUnits + 1) * 2 ^ f.topOctave
        _ ≤ 2 ^ (f.fb + 1) * 2 ^ f.topOctave := Nat.mul_le_mul_right _ hlt
        _ = 2 ^ f.fb * 2 ^ (f.topOctave + 1) := by ring
        _ ≤ 2 ^ f.fb * 2 ^ f.octaveOf a := Nat.mul_le_mul_left _ (Nat.pow_le_pow_right (by decide) h)
    have hleReal : ((f.topUnits : ℝ) + 1) * 2 ^ f.topOctave ≤ 2 ^ f.fb * 2 ^ f.octaveOf a := by exact_mod_cast hle
    have hn : 2 ^ f.fb ≤ roundUnits rm neg (f.inUnits a) := not_lt.mp fun h' => absurd (hplaced.2 h') (by omega)
    refine iff_of_true (lt_of_lt_of_le ?_ (hle.trans (Nat.mul_le_mul_right _ hn))) (.of_le hpos ?_)
    · exact Nat.mul_lt_mul_of_pos_right (Nat.lt_succ_self _) (Nat.two_pow_pos _)
    · have hu' := mul_le_mul_of_nonneg_right (le_inUnits (f := f) ha (by omega)) (by positivity : (0 : ℝ) ≤ 2 ^ f.octaveOf a)
      linarith

omit hf
/-- Underflow as the model decides it, by the octave of what is rounded with an unbounded exponent. -/
noncomputable def tinyReal (f : FSpec) (rm : RMode) (neg : Bool) (a : ℝ) : Bool :=
  decide ((if roundUnits rm neg (a / 2 ^ (Int.log 2 a - f.fb)) = 2 ^ (f.fb + 1) then Int.log 2 a + 1 else Int.log 2 a) <
    1 - (f.bias : ℤ))
theorem tinyReal_iff : f.tinyReal rm neg a = true ↔ f.Tiny rm neg a := by
  obtain ⟨hge, hlt⟩ := log_bounds ha
  have hstep : (0 : ℝ) < 2 ^ (-(f.bias : ℤ) - f.fb) := by positivity
  rw [tinyReal, decide_eq_true_eq, Tiny]
  rcases lt_trichotomy (Int.log 2 a) (-f.bias) with h | h | h
  · refine iff_of_true (by split <;> omega) (not_above_of_le hstep ?_)
    have hleast : (2 : ℝ) ^ (1 - f.bias : ℤ) = 2 ^ (-(f.bias : ℤ)) * 2 := by rw [← zpow_add_one₀ two_ne_zero]; congr 1; ring
    have hle : a ≤ (2 : ℝ) ^ (-(f.bias : ℤ)) := hlt.le.trans (zpow_le_zpow_right₀ one_le_two (by omega))
    have hsmall : (2 : ℝ) ^ (-(f.bias : ℤ) - f.fb) ≤ 2 ^ (-(f.bias : ℤ)) := zpow_le_zpow_right₀ one_le_two (by omega)
    linarith
  · have hunits : (0 : ℝ) ≤ a / 2 ^ (-(f.bias : ℤ) - f.fb) := by positivity
    have hle : roundUnits rm neg (a / 2 ^ (-(f.bias : ℤ) - f.fb)) ≤ 2 ^ (f.fb + 1) := by
      refine roundUnits_le hunits ?_
      push_cast
      rw [div_le_iff₀ hstep, ← zpow_natCast, ← zpow_add₀ two_ne_zero]
      exact hlt.le.trans (zpow_le_zpow_right₀ one_le_two (by push_cast; omega))
    have hodd : (2 ^ (f.fb + 1) - 1) % 2 = 1 := by
      have := Nat.two_pow_pos f.fb
      rw [pow_succ]
      omega
    have hfull : ((2 ^ (f.fb + 1) - 1 : ℕ) : ℝ) * 2 ^ (-(f.bias : ℤ) - f.fb) =
        (2 : ℝ) ^ (1 - f.bias : ℤ) - 2 ^ (-(f.bias : ℤ) - f.fb) := by
      rw [Nat.cast_sub Nat.one_le_two_pow, sub_mul, Nat.cast_one, one_mul, Nat.cast_pow, Nat.cast_ofNat, ← zpow_natCast,
        ← zpow_add₀ two_ne_zero]
      congr 2
      push_cast
      ring
    have hnext : roundUnits rm neg (a / 2 ^ (-(f.bias : ℤ) - f.fb)) = 2 ^ (f.fb + 1) ↔
        2 ^ (f.fb + 1) - 1 < roundUnits rm neg (a / 2 ^ (-(f.bias : ℤ) - f.fb)) := by omega
    rw [lt_roundUnits_iff hunits, ← above_scale hstep, hfull, one_mul, div_mul_cancel₀ _ hstep.ne'] at hnext
    simp only [hodd] at hnext
    rw [h, ← not_congr hnext]
    split
    · exact iff_of_false (by omega) (not_not.mpr ‹_›)
    · exact iff_of_true (by omega) ‹_›
  · refine iff_of_false (by split <;> omega) (not_not.mpr (.of_le hstep ?_))
    rw [sub_add_cancel]
    exact (zpow_le_zpow_right₀ one_le_two (by omega)).trans hge
end

/-! ## Rounding -/

/-- The encoding of what has been rounded to `n` units of octave `k`, and its flags (R159). -/
def pack (f : FSpec) (rm : RMode) (neg : Bool) (k n : ℕ) (tiny inexact : Bool) : ℕ × ℕ :=
  if f.maxFin < f.magOf k n then (if cutsOff rm neg then f.signed neg f.maxFin else f.inf neg, roundFlags true tiny true)
  else (f.signed neg (f.magOf k n), roundFlags false tiny inexact)
/-- A magnitude that is not zero, rounded once to a format under a sign. -/
noncomputable def roundReal (f : FSpec) (rm : RMode) (neg : Bool) (a : ℝ) : ℕ × ℕ :=
  f.pack rm neg (f.octaveOf a) (roundUnits rm neg (f.inUnits a)) (f.tinyReal rm neg a)
    (decide ((roundUnits rm neg (f.inUnits a) : ℝ) ≠ f.inUnits a))
/-- The finite encoding that a mode names: the nearest, the even one of a tie; the nearest toward zero; or the nearest away from it. -/
def IsNearest (f : FSpec) (rm : RMode) (v : ℝ) (x : ℕ) : Prop :=
  (rm = .rne → ∀ y, f.finite y = true → |(f.rat x : ℝ) - v| ≤ |(f.rat y : ℝ) - v| ∧
    (|(f.rat x : ℝ) - v| = |(f.rat y : ℝ) - v| → f.rat y ≠ f.rat x → x % 2 = 0)) ∧
  (rm ≠ .rne → cutsOff rm (decide (v < 0)) = true →
    |(f.rat x : ℝ)| ≤ |v| ∧ ∀ y, f.finite y = true → |(f.rat y : ℝ)| ≤ |v| → |(f.rat y : ℝ)| ≤ |(f.rat x : ℝ)|) ∧
  (rm ≠ .rne → ¬cutsOff rm (decide (v < 0)) = true →
    |v| ≤ |(f.rat x : ℝ)| ∧ ∀ y, f.finite y = true → |v| ≤ |(f.rat y : ℝ)| → |(f.rat x : ℝ)| ≤ |(f.rat y : ℝ)|)
end FSpec

theorem testBit_roundFlags (ovf tiny inexact : Bool) (i : ℕ) : (roundFlags ovf tiny inexact).testBit i =
    ((decide (i = 2) && ovf) || (decide (i = 3) && (tiny && inexact)) || (decide (i = 4) && (ovf || inexact))) := by
  have hof : flagOF = 2 ^ 2 := rfl
  have huf : flagUF = 2 ^ 3 := rfl
  have hnx : flagNX = 2 ^ 4 := rfl
  have hite (b : Bool) (x : ℕ) : (if b = true then x else 0).testBit i = (b && x.testBit i) := by cases b <;> simp
  simp only [roundFlags, Nat.testBit_or, hite, hof, huf, hnx, Nat.testBit_two_pow, eq_comm (b := i)]
  cases ovf <;> cases tiny <;> cases inexact <;> simp [Bool.or_right_comm]

/-! ## The encodings beyond the greatest finite value -/

section
variable {f : FSpec} (hf : f.Ok) (neg : Bool)
include hf

theorem finite_maxFin : f.finite (f.signed neg f.maxFin) = true := FSpec.finite_signed (FSpec.maxFin_lt hf) hf le_rfl
theorem minus_maxFin : f.minus (f.signed neg f.maxFin) = neg := FSpec.minus_signed (FSpec.maxFin_lt hf)
theorem rat_maxFin : (f.rat (f.signed neg f.maxFin) : ℝ) = if neg then -f.topValue else f.topValue := by
  obtain ⟨hge, hlt⟩ := FSpec.topUnits_bounds hf
  have hmax := FSpec.maxFin_lt hf
  rw [FSpec.maxFin_eq hf] at hmax ⊢
  rw [FSpec.rat_magOf ⟨hlt.le, fun h => absurd h (by omega)⟩ hmax, exactVal_eq, ← FSpec.topStep_eq hf, ← FSpec.topValue_eq hf]
  cases neg <;> simp [signOf]
omit hf in
theorem inf_eq (f : FSpec) (neg : Bool) (h4 : f.e4 = false) : f.inf neg = f.signed neg ((2 ^ f.eb - 1) * 2 ^ f.fb) := by
  simp [FSpec.inf, FSpec.signed, h4]
omit hf in
theorem minus_inf (f : FSpec) (neg : Bool) (h4 : f.e4 = false) : f.minus (f.inf neg) = neg := by
  rw [inf_eq f neg h4]
  refine FSpec.minus_signed ?_
  rw [pow_add]
  exact Nat.mul_lt_mul_of_pos_right (Nat.sub_lt (Nat.two_pow_pos _) Nat.one_pos) (Nat.two_pow_pos _)
end

/-! ## What `Rounded` says, clause by clause -/

section
variable {f : FSpec} {rm : RMode} {v : ℝ} {zneg : Bool} {r : ℕ × ℕ} (hf : f.Ok) (hv : v ≠ 0)
include hf hv

/-- `Rounded` of a number that is not zero, from the decisions on overflow, underflow and exactness. -/
theorem rounded_of {ovf tiny inexact : Bool} (hflags : r.2 = roundFlags ovf tiny inexact)
    (hovf : ovf = true ↔ f.Beyond rm (decide (v < 0)) |v|) (htiny : tiny = true ↔ f.Tiny rm (decide (v < 0)) |v|)
    (hexcl : ovf = true → tiny = false)
    (hover : ovf = true → r.1 = if cutsOff rm (decide (v < 0)) then f.signed (decide (v < 0)) f.maxFin else f.inf (decide (v < 0)))
    (hwithin : ovf = false → (inexact = true ↔ (f.rat r.1 : ℝ) ≠ v) ∧ f.finite r.1 = true ∧ f.minus r.1 = decide (v < 0) ∧
      f.IsNearest rm v r.1) :
    Rounded f rm v zneg r := by
  unfold Rounded
  intro sign cut beyond least step tinyP x
  have hcut : cut ↔ cutsOff rm (decide (v < 0)) = true := by
    constructor
    · rintro ⟨neg, hneg, h⟩
      rwa [show neg = decide (v < 0) by rw [Bool.eq_iff_iff, hneg, decide_eq_true_iff]] at h
    · exact fun h => ⟨_, decide_eq_true_iff, h⟩
  have hbeyond : beyond ↔ ovf = true := by
    rw [hovf, FSpec.Beyond, above_iff, ← hcut]
  have htinyP : tinyP ↔ tiny = true := by
    rw [htiny, FSpec.Tiny, not_above_iff, ← hcut]
  refine ⟨fun h => absurd h hv, fun _ => ?_⟩
  simp only [hbeyond, hcut, htinyP, hflags, testBit_roundFlags]
  cases ovf with
  | true =>
    have hout := hover rfl
    have hno : tiny = false := hexcl rfl
    refine ⟨by simp +contextual [hno, or_imp], by simp, by simp, by simp [hno], fun _ hc => ?_, fun _ hc => ?_, fun _ hc => ?_,
      by simp⟩
    · rw [hout, if_neg hc]
      cases h4 : f.e4
      · rw [minus_inf f _ h4, if_neg Bool.false_ne_true, inf_eq f _ h4, FSpec.signed, FSpec.signBit, Nat.add_comm]
        congr 1
        cases decide (v < 0) <;> simp [bit, sign]
      · rw [FSpec.inf, h4, if_pos rfl, if_pos rfl]
    · have henc := hout.trans (if_pos hc)
      have hminus : f.minus r.1 = decide (v < 0) := henc ▸ minus_maxFin hf _
      refine ⟨henc ▸ finite_maxFin hf _, ?_⟩
      rw [hminus]
      exact (congrArg (fun e => (f.rat e : ℝ)) henc).trans (rat_maxFin hf _)
    · rw [hout]
      split
      · rw [minus_maxFin hf, decide_eq_true_iff]
      · rw [minus_inf f _ (hc.resolve_right ‹_›), decide_eq_true_iff]
  | false =>
    obtain ⟨hinexact, hfin, hsign, hnear, htoward, haway⟩ := hwithin rfl
    have hsign' : f.minus r.1 = true ↔ v < 0 := by rw [hsign, decide_eq_true_iff]
    refine ⟨fun i => ?_, by simp, by simp [hinexact, x], by simp [hinexact, x], by simp, by simp, by simp,
      fun _ => ⟨hfin, hsign', hnear, htoward, haway⟩⟩
    simp only [Bool.and_false, Bool.false_or, Bool.or_eq_true, Bool.and_eq_true, decide_eq_true_eq]
    rintro (h | h)
    · exact .inr (.inl h.1)
    · exact .inr (.inr h.1)
end

/-! ## A real number, rounded -/

section
variable {f : FSpec} {k c : ℕ} (hc : c < 2 ^ f.fb → k = 0)
include hc

/-- A finite value's magnitude, in units of an octave, leaves a gap between two adjacent whole numbers. -/
theorem abs_rat_gap (y : ℕ) : ∃ w : ℝ, |(f.rat y : ℝ)| = w * 2 ^ (f.low + k) ∧ 0 ≤ w ∧ (w ≤ c ∨ c + 1 ≤ w) := by
  refine ⟨_, ?_, ?_, FSpec.units_gap y hc⟩
  · rw [FSpec.rat_eq, abs_exactVal, mul_assoc, ← zpow_add₀ two_ne_zero]
    congr 2
    ring
  · positivity
theorem rat_gap (y : ℕ) (neg : Bool) : ∃ w : ℝ, (f.rat y : ℝ) = signOf neg * (w * 2 ^ (f.low + k)) ∧ (w ≤ c ∨ c + 1 ≤ w) := by
  obtain ⟨w, habs, hw, hgap⟩ := abs_rat_gap hc y
  have hc0 : (0 : ℝ) ≤ c := Nat.cast_nonneg c
  have hunit : (0 : ℝ) < 2 ^ (f.low + k : ℤ) := by positivity
  rcases (abs_eq (by positivity)).mp habs with h | h <;> cases neg
  · exact ⟨w, by simpa [signOf] using h, hgap⟩
  · exact ⟨-w, by simpa [signOf] using h, .inl (by linarith)⟩
  · exact ⟨-w, by simpa [signOf] using h, .inl (by linarith)⟩
  · exact ⟨w, by simpa [signOf] using h, hgap⟩
end

theorem least_le_topValue {f : FSpec} (hf : f.Ok) : (2 : ℝ) ^ (1 - f.bias : ℤ) ≤ f.topValue := by
  have hleast : (2 : ℝ) ^ (1 - f.bias : ℤ) = 2 ^ f.fb * 2 ^ f.low := by
    rw [← zpow_natCast, ← zpow_add₀ two_ne_zero, FSpec.low]
    congr 1
    ring
  have hunits : (2 : ℝ) ^ f.fb ≤ f.topUnits := by exact_mod_cast (FSpec.topUnits_bounds hf).1
  rw [hleast, FSpec.topValue_eq hf, FSpec.topStep_eq hf]
  exact mul_le_mul hunits (zpow_le_zpow_right₀ one_le_two (by omega)) (by positivity) (by positivity)
/-- What is beyond the greatest finite value is not tiny. -/
theorem FSpec.Beyond.not_tiny {f : FSpec} (hf : f.Ok) {rm : RMode} {neg : Bool} {a : ℝ} (h : f.Beyond rm neg a) : ¬f.Tiny rm neg a := by
  have hstep : (0 : ℝ) < f.topStep := by rw [FSpec.topStep_eq hf]; positivity
  have hlt : (f.topValue : ℝ) < a := not_le.mp fun hle => not_above_of_le hstep hle h
  refine not_not.mpr (.of_le (by positivity) ?_)
  rw [sub_add_cancel]
  exact (least_le_topValue hf).trans hlt.le
theorem roundReal_beyond {f : FSpec} (hf : f.Ok) {rm : RMode} {neg : Bool} {a : ℝ} (ha : 0 < a) (h : f.Beyond rm neg a) :
    f.roundReal rm neg a = (if cutsOff rm neg then f.signed neg f.maxFin else f.inf neg, roundFlags true false true) := by
  have hnot : f.tinyReal rm neg a = false := Bool.eq_false_iff.mpr fun h' => h.not_tiny hf ((FSpec.tinyReal_iff ha).mp h')
  rw [FSpec.roundReal, FSpec.pack, if_pos ((FSpec.maxFin_lt_iff hf ha).mpr h), hnot]
theorem abs_signed_sub (neg : Bool) {a b unit : ℝ} (hunit : 0 < unit) :
    |signOf neg * (a * unit) - signOf neg * (b * unit)| = |a - b| * unit := by
  rw [← mul_sub, ← sub_mul, abs_mul, abs_mul, abs_signOf, one_mul, abs_of_pos hunit]

section
variable {f : FSpec} {rm : RMode} {v : ℝ} {zneg : Bool} (hf : f.Ok) (hv : v ≠ 0)
include hf hv

/-- Beyond the greatest finite value: the infinity or the greatest finite value of the sign, with the flags of an overflow. -/
theorem rounded_beyond (h : f.Beyond rm (decide (v < 0)) |v|) :
    Rounded f rm v zneg (if cutsOff rm (decide (v < 0)) then f.signed (decide (v < 0)) f.maxFin else f.inf (decide (v < 0)),
      roundFlags true false true) :=
  rounded_of (tiny := false) (inexact := true) hf hv rfl (iff_of_true rfl h)
    (iff_of_false Bool.false_ne_true (h.not_tiny hf)) (fun _ => rfl) (fun _ => rfl) (by simp)
/-- Within: the whole number of units that the mode gives. -/
theorem rounded_within (h : ¬f.Beyond rm (decide (v < 0)) |v|) :
    Rounded f rm v zneg (f.signed (decide (v < 0)) (f.magOf (f.octaveOf |v|) (roundUnits rm (decide (v < 0)) (f.inUnits |v|))),
      roundFlags false (f.tinyReal rm (decide (v < 0)) |v|)
        (decide ((roundUnits rm (decide (v < 0)) (f.inUnits |v|) : ℝ) ≠ f.inUnits |v|))) := by
  have ha : 0 < |v| := abs_pos.mpr hv
  have hplaced := FSpec.placed_roundUnits (f := f) ha rm (decide (v < 0))
  have hu := (FSpec.inUnits_pos (f := f) ha).le
  have hunit : (0 : ℝ) < 2 ^ (f.low + f.octaveOf |v| : ℤ) := by positivity
  have habsv : |v| = f.inUnits |v| * 2 ^ (f.low + f.octaveOf |v| : ℤ) := by rw [FSpec.inUnits, div_mul_cancel₀ _ hunit.ne']
  have hv' : v = signOf (decide (v < 0)) * (f.inUnits |v| * 2 ^ (f.low + f.octaveOf |v| : ℤ)) := by rw [← habsv, signOf_mul_abs]
  have hmag := not_lt.mp ((not_congr (FSpec.maxFin_lt_iff (rm := rm) (neg := decide (v < 0)) hf ha)).mpr h)
  have hlt := hmag.trans_lt (FSpec.maxFin_lt hf)
  have hrat := (FSpec.rat_magOf (neg := decide (v < 0)) hplaced hlt).trans exactVal_eq
  have hdist {x w : ℝ} (hx : x = signOf (decide (v < 0)) * (w * 2 ^ (f.low + f.octaveOf |v| : ℤ))) :
      |x - v| = |w - f.inUnits (|v|)| * 2 ^ (f.low + f.octaveOf |v| : ℤ) := by
    rw [hx, ← abs_signed_sub (decide (v < 0)) hunit, ← hv']
  have habs : |(f.rat (f.signed (decide (v < 0)) (f.magOf (f.octaveOf |v|) (roundUnits rm (decide (v < 0)) (f.inUnits |v|)))) : ℝ)| =
      roundUnits rm (decide (v < 0)) (f.inUnits |v|) * 2 ^ (f.low + f.octaveOf |v| : ℤ) := by
    rw [hrat, abs_mul, abs_signOf, one_mul, abs_of_nonneg (by positivity)]
  refine rounded_of (ovf := false) hf hv rfl (iff_of_false Bool.false_ne_true h) (FSpec.tinyReal_iff ha) (by simp) (by simp) fun _ =>
    ⟨?_, FSpec.finite_signed hlt hf hmag, FSpec.minus_signed hlt, ?_, fun hrm hcut => ?_, fun hrm hcut => ?_⟩
  · rw [decide_eq_true_iff, ← sub_ne_zero (b := v), ← abs_ne_zero, hdist hrat, mul_ne_zero_iff_right hunit.ne', abs_ne_zero,
      sub_ne_zero]
  · rintro rfl y -
    obtain ⟨w, hw, hgap⟩ := rat_gap (FSpec.floor_placed ha) y (decide (v < 0))
    obtain ⟨hle, htie⟩ := roundUnits_nearest (neg := decide (v < 0)) hu hgap
    rw [hdist hrat, hdist hw, mul_le_mul_iff_left₀ hunit, mul_left_inj' hunit.ne', FSpec.signed_magOf_mod_two hf]
    refine ⟨hle, fun heq hne => htie heq ?_⟩
    rintro rfl
    exact hne (by exact_mod_cast hw.trans hrat.symm)
  · rw [habs]
    refine ⟨?_, fun y _ hy => ?_⟩
    · rw [← le_div_iff₀ hunit]
      exact (roundUnits_toward (w := 0) hu (.inl (Nat.cast_nonneg _)) hrm hcut).1
    · obtain ⟨w, hw, -, hgap⟩ := abs_rat_gap (FSpec.floor_placed ha) y
      rw [hw, ← le_div_iff₀ hunit] at hy
      rw [hw, mul_le_mul_iff_left₀ hunit]
      exact (roundUnits_toward hu hgap hrm hcut).2 hy
  · rw [habs]
    refine ⟨?_, fun y _ hy => ?_⟩
    · rw [← div_le_iff₀ hunit]
      exact (roundUnits_away (w := 0) hu (.inl (Nat.cast_nonneg _)) hrm hcut).1
    · obtain ⟨w, hw, -, hgap⟩ := abs_rat_gap (FSpec.floor_placed ha) y
      rw [hw, ← div_le_iff₀ hunit] at hy
      rw [hw, mul_le_mul_iff_left₀ hunit]
      exact (roundUnits_away hu hgap hrm hcut).2 hy
/-- A real number that is not zero, rounded once. -/
theorem rounded_roundReal : Rounded f rm v zneg (f.roundReal rm (decide (v < 0)) |v|) := by
  have ha : 0 < |v| := abs_pos.mpr hv
  by_cases h : f.Beyond rm (decide (v < 0)) |v|
  · rw [roundReal_beyond hf ha h]
    exact rounded_beyond hf hv h
  · rw [FSpec.roundReal, FSpec.pack, if_neg ((not_congr (FSpec.maxFin_lt_iff hf ha)).mpr h)]
    exact rounded_within hf hv h
end

end Sys2Proof.Machine
end

/-! SUPPORT. The model's rounding is the one rounding of the exact value, which some bits and a sticky one determine (R159, R165). -/
section
namespace Sys2Proof.Machine
open Sys2Proof

/-! ## Binary logarithms -/

theorem log_eq_of_bounds {a : ℝ} {t : ℤ} (hge : (2 : ℝ) ^ t ≤ a) (hlt : a < 2 ^ (t + 1)) : Int.log 2 a = t := by
  have ha : 0 < a := lt_of_lt_of_le (by positivity) hge
  refine le_antisymm (Int.lt_add_one_iff.mp ((Int.lt_zpow_iff_log_lt one_lt_two ha).mp (by exact_mod_cast hlt)))
    ((Int.zpow_le_iff_le_log one_lt_two ha).mp (by exact_mod_cast hge))
theorem two_pow_le_of_bitLen {m : ℕ} (hm : m ≠ 0) : 2 ^ (bitLen m - 1) ≤ m ∧ 1 ≤ bitLen m := by
  have hlen : bitLen m = Nat.log2 m + 1 := by simp [bitLen, hm]
  rw [hlen]
  exact ⟨Nat.log2_self_le hm, Nat.le_add_left ..⟩
/-- Any magnitude that some bits begin has their octave. -/
theorem log_eq_bitLen {m : ℕ} (hm : m ≠ 0) {e : ℤ} {a : ℝ} (hge : m * 2 ^ e ≤ a) (hlt : a < (m + 1) * 2 ^ e) :
    Int.log 2 a = (bitLen m : ℤ) - 1 + e := by
  obtain ⟨hle, hpos⟩ := two_pow_le_of_bitLen hm
  have hlow : (2 : ℝ) ^ (bitLen m - 1) ≤ m := by exact_mod_cast hle
  have hhigh : (m + 1 : ℝ) ≤ 2 ^ bitLen m := by exact_mod_cast lt_two_pow_bitLen m
  have hcast : ((bitLen m - 1 : ℕ) : ℤ) = bitLen m - 1 := by omega
  refine log_eq_of_bounds ?_ ?_
  · rw [zpow_add₀ two_ne_zero, ← hcast, zpow_natCast]
    exact (mul_le_mul_of_nonneg_right hlow (by positivity)).trans hge
  · rw [add_right_comm, sub_add_cancel, zpow_add₀ two_ne_zero, zpow_natCast]
    exact hlt.trans_le (mul_le_mul_of_nonneg_right hhigh (by positivity))

/-! ## The model's rounding -/

section
variable {f : FSpec} {rm : RMode} {neg : Bool} {m : ℕ} {e : ℤ}

/-- Rounded units and the exponent of one, after a carry into the next octave. -/
def FSpec.carried (f : FSpec) (k n : ℕ) : ℕ × ℤ := if n = 2 ^ (f.fb + 1) then (2 ^ f.fb, f.low + k + 1) else (n, f.low + k)
theorem carried_magOf {k n : ℕ} (hp : f.Placed k n) : ((f.carried k n).1 < 2 ^ f.fb → (f.carried k n).1 = f.magOf k n) ∧
    (¬(f.carried k n).1 < 2 ^ f.fb →
      ((f.carried k n).2 + f.fb + f.bias).toNat * 2 ^ f.fb + ((f.carried k n).1 - 2 ^ f.fb) = f.magOf k n) := by
  obtain ⟨-, hlow⟩ := hp
  have hnat (j : ℕ) : (f.low + j + f.fb + f.bias).toNat = j + 1 := by
    rw [FSpec.low]
    omega
  unfold FSpec.carried FSpec.magOf
  split
  · refine ⟨fun h => absurd h (Nat.lt_irrefl _), fun _ => ?_⟩
    have hnext := hnat (k + 1)
    rw [Nat.cast_add_one, ← add_assoc] at hnext
    subst n
    rw [hnext]
    ring_nf
    simp
  · refine ⟨fun h => ?_, fun h => ?_⟩
    · rw [hlow h, Nat.zero_mul, Nat.zero_add]
    · rw [hnat, Nat.succ_mul]
      omega
/-- What the model rounds is what the exact value is rounded to. -/
theorem roundNZ_eq (hf : f.Ok) (hm : m ≠ 0) : f.roundNZ rm neg m e false = f.roundReal rm neg (m * 2 ^ e) := by
  have ha : (0 : ℝ) < m * 2 ^ e := by positivity
  have hlog : Int.log 2 ((m : ℝ) * 2 ^ e) = (bitLen m : ℤ) - 1 + e := log_eq_bitLen hm le_rfl (by
    rw [mul_lt_mul_iff_left₀ (by positivity)]
    exact lt_add_one _)
  have hscale (q : ℤ) : (m : ℝ) * 2 ^ (e - q) = m * 2 ^ e / 2 ^ q := by rw [zpow_sub₀ two_ne_zero, mul_div_assoc]
  have hquantum : max (Int.log 2 ((m : ℝ) * 2 ^ e) - f.fb) (1 - f.bias - f.fb) = f.low + f.octaveOf (m * 2 ^ e) := by
    rw [FSpec.octaveOf, FSpec.low]
    omega
  have hplaced := FSpec.placed_roundUnits (f := f) ha rm neg
  unfold FSpec.roundReal FSpec.roundNZ
  have hcarried (n : ℕ) : (if n = 2 ^ (f.fb + 1) then (2 ^ f.fb, f.low + f.octaveOf (m * 2 ^ e) + 1)
      else (n, f.low + f.octaveOf (m * 2 ^ e))) = f.carried (f.octaveOf (m * 2 ^ e)) n := rfl
  obtain ⟨hsmall, hlarge⟩ := carried_magOf hplaced
  have hmax : 2 ^ f.fb ≤ f.maxFin := by
    rw [FSpec.maxFin_eq hf]
    exact (FSpec.topUnits_bounds hf).1.trans (Nat.le_add_left ..)
  have htiny : decide ((if roundUnits rm neg (m * 2 ^ e / 2 ^ (Int.log 2 ((m : ℝ) * 2 ^ e) - f.fb)) = 2 ^ (f.fb + 1)
      then Int.log 2 ((m : ℝ) * 2 ^ e) + 1 else Int.log 2 ((m : ℝ) * 2 ^ e)) < 1 - (f.bias : ℤ)) = f.tinyReal rm neg (m * 2 ^ e) := rfl
  have hunits : (m : ℝ) * 2 ^ e / 2 ^ (f.low + f.octaveOf (m * 2 ^ e) : ℤ) = f.inUnits (m * 2 ^ e) := rfl
  simp only [roundAt_eq, hquantum, hscale, ← hlog, beq_iff_eq, hcarried, htiny, hunits]
  unfold FSpec.pack
  split
  · rw [← hsmall ‹_›, if_neg (by omega)]
  · rw [hlarge ‹_›]
    split
    · cases rm <;> cases neg <;> rfl
    · rfl
end

/-! ## What determines a rounding -/

/-- Between two adjacent multiples of a unit, a magnitude is between two adjacent halves of any greater one. -/
theorem between_halves (m : ℕ) {e q : ℤ} (hq : e < q) : ∃ j : ℕ, ∀ a : ℝ, m * 2 ^ e < a → a < (m + 1) * 2 ^ e →
    (j : ℝ) / 2 < a / 2 ^ q ∧ a / 2 ^ q < (j + 1) / 2 := by
  obtain ⟨s, hs⟩ := Int.eq_succ_of_zero_lt (show 0 < q - e by omega)
  have hunit : (2 : ℝ) ^ q = 2 * 2 ^ s * 2 ^ e := by
    rw [show q = s + 1 + e by omega, zpow_add₀ two_ne_zero, zpow_add_one₀ two_ne_zero, zpow_natCast]
    ring
  have hpos : (0 : ℝ) < 2 ^ e := by positivity
  have hdiv : ((m / 2 ^ s : ℕ) : ℝ) * 2 ^ s ≤ m := by exact_mod_cast Nat.div_mul_le_self m (2 ^ s)
  have hnext : (m + 1 : ℝ) ≤ ((m / 2 ^ s : ℕ) + 1) * 2 ^ s := by
    exact_mod_cast Nat.lt_iff_add_one_le.mp (Nat.lt_mul_of_div_lt (Nat.lt_succ_self (m / 2 ^ s)) (Nat.two_pow_pos s))
  refine ⟨m / 2 ^ s, fun a hlow hhigh => ?_⟩
  rw [hunit, lt_div_iff₀ (by positivity), div_lt_iff₀ (by positivity)]
  constructor
  · calc ((m / 2 ^ s : ℕ) : ℝ) / 2 * (2 * 2 ^ s * 2 ^ e)
      _ = (m / 2 ^ s : ℕ) * 2 ^ s * 2 ^ e := by ring
      _ ≤ m * 2 ^ e := mul_le_mul_of_nonneg_right hdiv hpos.le
      _ < a := hlow
  · calc a
      _ < (m + 1) * 2 ^ e := hhigh
      _ ≤ ((m / 2 ^ s : ℕ) + 1) * 2 ^ s * 2 ^ e := mul_le_mul_of_nonneg_right hnext hpos.le
      _ = ((m / 2 ^ s : ℕ) + 1) / 2 * (2 * 2 ^ s * 2 ^ e) := by ring

/-- A sticky bit after some bits stands for what lies between them and the next. -/
theorem sticky_between (m : ℕ) (e : ℤ) :
    m * 2 ^ e < ((2 * m + 1 : ℕ) : ℝ) * 2 ^ (e - 1) ∧ ((2 * m + 1 : ℕ) : ℝ) * 2 ^ (e - 1) < (m + 1) * 2 ^ e := by
  have hpos : (0 : ℝ) < 2 ^ e := by positivity
  have hmid : ((2 * m + 1 : ℕ) : ℝ) * 2 ^ (e - 1) = (m + 1 / 2) * 2 ^ e := by
    rw [zpow_sub_one₀ two_ne_zero]
    push_cast
    ring
  rw [hmid]
  exact ⟨mul_lt_mul_of_pos_right (by linarith) hpos, mul_lt_mul_of_pos_right (by linarith) hpos⟩

section
variable {f : FSpec} {rm : RMode} {neg : Bool} {a b : ℝ}

/-- The bits down to one below the last that a format keeps determine the result, where what follows is not zero. -/
theorem roundReal_congr {m : ℕ} {e : ℤ} (hm : 2 ^ (f.fb + 1) ≤ m) (hlow : m * 2 ^ e < a) (hhigh : a < (m + 1) * 2 ^ e)
    (hlow' : m * 2 ^ e < b) (hhigh' : b < (m + 1) * 2 ^ e) :
    f.roundReal rm neg a = f.roundReal rm neg b ∧ (roundUnits rm neg (f.inUnits a) : ℝ) ≠ f.inUnits a := by
  have hm0 : m ≠ 0 := (lt_of_lt_of_le (Nat.two_pow_pos _) hm).ne'
  have hlog : Int.log 2 a = (bitLen m : ℤ) - 1 + e := log_eq_bitLen hm0 hlow.le hhigh
  have hlog' : Int.log 2 b = (bitLen m : ℤ) - 1 + e := log_eq_bitLen hm0 hlow'.le hhigh'
  have hlen : f.fb + 1 < bitLen m := (Nat.pow_lt_pow_iff_right one_lt_two).mp (hm.trans_lt (lt_two_pow_bitLen m))
  have hoct : f.octaveOf b = f.octaveOf a := by rw [FSpec.octaveOf, FSpec.octaveOf, hlog, hlog']
  have hunit : e < f.low + f.octaveOf a := by
    rw [FSpec.octaveOf, hlog]
    omega
  obtain ⟨j, hj⟩ := between_halves m hunit
  obtain ⟨i, hi⟩ := between_halves m (e := e) (q := Int.log 2 a - f.fb) (by omega)
  have hround : roundUnits rm neg (f.inUnits a) = roundUnits rm neg (f.inUnits b) := by
    rw [FSpec.inUnits, FSpec.inUnits, hoct]
    exact roundUnits_congr (hj a hlow hhigh) (hj b hlow' hhigh')
  have hne : (roundUnits rm neg (f.inUnits a) : ℝ) ≠ f.inUnits a := natCast_ne_of_between (hj a hlow hhigh) _
  have hne' : (roundUnits rm neg (f.inUnits b) : ℝ) ≠ f.inUnits b := by
    rw [FSpec.inUnits, hoct]
    exact natCast_ne_of_between (hj b hlow' hhigh') _
  have htiny : f.tinyReal rm neg a = f.tinyReal rm neg b := by
    rw [FSpec.tinyReal, FSpec.tinyReal, hlog', ← hlog, roundUnits_congr (hi a hlow hhigh) (hi b hlow' hhigh')]
  refine ⟨?_, hne⟩
  rw [FSpec.roundReal, FSpec.roundReal, hoct, htiny, hround, decide_eq_true hne', decide_eq_true (hround ▸ hne)]
/-- All magnitudes below half the least one round alike. -/
theorem roundReal_congr_small (ha : 0 < a) (ha' : a < 2 ^ (f.low - 1)) (hb : 0 < b) (hb' : b < 2 ^ (f.low - 1)) :
    f.roundReal rm neg a = f.roundReal rm neg b := by
  have hhalf : (2 : ℝ) ^ (f.low - 1) = (0 + 1) / 2 * 2 ^ f.low := by
    rw [zpow_sub_one₀ two_ne_zero]
    ring
  have hlog {c : ℝ} (hc : 0 < c) (h : c < 2 ^ (f.low - 1)) : Int.log 2 c < f.low - 1 :=
    (Int.lt_zpow_iff_log_lt one_lt_two hc).mp (by exact_mod_cast h)
  have hoct {c : ℝ} (hc : 0 < c) (h : c < 2 ^ (f.low - 1)) : f.octaveOf c = 0 := by
    have := hlog hc h
    rw [FSpec.octaveOf]
    omega
  have hunits {c : ℝ} (hc : 0 < c) (h : c < 2 ^ (f.low - 1)) : ((0 : ℕ) : ℝ) / 2 < f.inUnits c ∧ f.inUnits c < ((0 : ℕ) + 1) / 2 := by
    rw [FSpec.inUnits, hoct hc h, Nat.cast_zero, zero_div, Nat.cast_zero, add_zero, div_lt_iff₀ (by positivity), ← hhalf]
    exact ⟨by positivity, h⟩
  have htiny {c : ℝ} (hc : 0 < c) (h : c < 2 ^ (f.low - 1)) : f.tinyReal rm neg c = true := by
    have := hlog hc h
    rw [FSpec.tinyReal, decide_eq_true_iff]
    unfold FSpec.low at this
    split <;> omega
  have hround := roundUnits_congr (rm := rm) (neg := neg) (hunits ha ha') (hunits hb hb')
  rw [FSpec.roundReal, FSpec.roundReal, hoct ha ha', hoct hb hb', htiny ha ha', htiny hb hb', hround,
    decide_eq_true (natCast_ne_of_between (hunits hb hb') _), decide_eq_true (natCast_ne_of_between (hunits ha ha') _)]
/-- All magnitudes from the step after the greatest finite value up round alike. -/
theorem roundReal_congr_big (hf : f.Ok) (ha : f.topValue + f.topStep ≤ a) (hb : f.topValue + f.topStep ≤ b) :
    f.roundReal rm neg a = f.roundReal rm neg b := by
  have hstep : (0 : ℝ) < f.topStep := by rw [FSpec.topStep_eq hf]; positivity
  have hvalue : (0 : ℝ) ≤ f.topValue := by rw [FSpec.topValue_eq hf]; positivity
  rw [roundReal_beyond hf (by linarith) (.of_le hstep ha), roundReal_beyond hf (by linarith) (.of_le hstep hb)]
theorem testBit_roundReal (h : (roundUnits rm neg (f.inUnits a) : ℝ) ≠ f.inUnits a) : (f.roundReal rm neg a).2.testBit 4 = true := by
  rw [FSpec.roundReal, decide_eq_true h, FSpec.pack]
  split <;> simp [testBit_roundFlags]
end

/-! ## What the model rounds is rounded -/

section
variable {f : FSpec} {rm : RMode} {neg zneg : Bool} {m : ℕ} {e : ℤ} (hf : f.Ok)
include hf

theorem rounded_round (hz : m = 0 → neg = zneg) : Rounded f rm (exactVal neg m e) zneg (f.round rm neg m e false) := by
  by_cases hm : m = 0
  · rw [FSpec.round, hm, hz hm]
    refine ⟨fun _ => ?_, fun h => absurd (exactVal_eq_zero.mpr rfl) h⟩
    cases zneg <;> simp [FSpec.signed, FSpec.signBit, bit]
  · have hv : exactVal neg m e ≠ 0 := mt exactVal_eq_zero.mp hm
    have hneg : decide (exactVal neg m e < 0) = neg := by rw [Bool.eq_iff_iff, decide_eq_true_iff, exactVal_neg_iff hm]
    have hrounded := rounded_roundReal (rm := rm) (zneg := zneg) hf hv
    rw [FSpec.round, if_neg (by simpa using hm), roundNZ_eq hf hm]
    rwa [hneg, abs_exactVal] at hrounded
/-- A magnitude of which some bits are computed, and whether more follow. -/
theorem rounded_roundSticky {w : ℝ} {exact : Bool} (hm : 2 ^ (f.fb + 1) ≤ m) (hle : m ≤ w) (hlt : w < m + 1)
    (hexact : exact = true ↔ (m : ℝ) = w) : Rounded f rm (signOf neg * (w * 2 ^ e)) zneg (f.roundSticky rm neg m e exact) := by
  have hm0 : m ≠ 0 := (lt_of_lt_of_le (Nat.two_pow_pos _) hm).ne'
  cases exact with
  | true =>
    rw [← hexact.mp rfl, ← exactVal_eq]
    exact rounded_round hf fun h => absurd h hm0
  | false =>
    have hwpos : 0 < w := lt_of_lt_of_le (by positivity) hle
    have hpos : (0 : ℝ) < 2 ^ e := by positivity
    have hv : signOf neg * (w * 2 ^ e) ≠ 0 := by
      rw [← abs_ne_zero, abs_mul, abs_signOf, one_mul, abs_ne_zero]
      positivity
    have habs : |signOf neg * (w * 2 ^ e)| = w * 2 ^ e := by rw [abs_mul, abs_signOf, one_mul, abs_of_pos (by positivity)]
    have hneg : decide (signOf neg * (w * 2 ^ e) < 0) = neg := by
      have hw : 0 < w * 2 ^ e := by positivity
      cases neg <;> simp [signOf, hw, hw.le]
    obtain ⟨hlow, hhigh⟩ := sticky_between m e
    have hrounded := rounded_roundReal (rm := rm) (zneg := zneg) hf hv
    rw [hneg, habs] at hrounded
    have hne : (m : ℝ) ≠ w := fun h => absurd (hexact.mpr h) Bool.false_ne_true
    have hsame := (roundReal_congr (rm := rm) (neg := neg) (b := ((2 * m + 1 : ℕ) : ℝ) * 2 ^ (e - 1)) hm
      (mul_lt_mul_of_pos_right (lt_of_le_of_ne hle hne) hpos) (mul_lt_mul_of_pos_right hlt hpos)
      hlow hhigh).1
    rw [hsame, ← roundNZ_eq hf (Nat.succ_ne_zero _)] at hrounded
    rw [FSpec.roundSticky, if_neg Bool.false_ne_true, FSpec.round, if_neg (by simp)]
    exact hrounded
end

end Sys2Proof.Machine
end

/-! SUPPORT. Sums, products, fused forms, scalings and conversions of finite values, rounded once (R157 to R160, R162, R166, R169). -/
section
namespace Sys2Proof.Machine
open Sys2Proof

/-! ## Sums and products of exact values -/

section
variable (rm : RMode) (n n' : Bool) (m m' : ℕ) (e e' : ℤ)

theorem exactVal_mul : exactVal n m e * exactVal n' m' e' = exactVal (n != n') (m * m') (e + e') := by
  rw [exactVal_eq, exactVal_eq, exactVal_eq, signOf_bne, zpow_add₀ two_ne_zero]
  push_cast
  ring
theorem exactVal_shift (k : ℤ) : exactVal n m e * 2 ^ k = exactVal n m (e + k) := by
  rw [exactVal, exactVal, zpow_add₀ two_ne_zero, mul_assoc]
omit n m e in
theorem sInt_natAbs (i : ℤ) : sInt (decide (i < 0)) i.natAbs = i := by
  simp only [sInt, decide_eq_true_eq]
  split <;> omega
theorem exactVal_natAbs (i : ℤ) : exactVal (decide (i < 0)) i.natAbs e = i * 2 ^ e := by rw [exactVal, sInt_natAbs]
/-- An exact value in a smaller unit. -/
theorem exactVal_unit {q : ℤ} (h : q ≤ e) : exactVal n m e = (sInt n m * 2 ^ (e - q).toNat : ℤ) * 2 ^ q := by
  obtain ⟨k, rfl⟩ := Int.le.dest h
  have hnat : (q + k - q).toNat = k := by omega
  rw [exactVal, hnat, add_comm, zpow_add₀ two_ne_zero, zpow_natCast]
  push_cast
  ring
/-- The sum of two exact values, whose sign where it is zero is that of R159. -/
theorem addFin_exact : exactVal (addFin rm n m e n' m' e').1 (addFin rm n m e n' m' e').2.1 (addFin rm n m e n' m' e').2.2 =
      exactVal n m e + exactVal n' m' e' ∧
    ((addFin rm n m e n' m' e').2.1 = 0 → (addFin rm n m e n' m' e').1 = if n = n' then n else rm == .rdn) := by
  have hsum : exactVal n m e + exactVal n' m' e' =
      (sInt n m * 2 ^ (e - min e e').toNat + sInt n' m' * 2 ^ (e' - min e e').toNat : ℤ) * 2 ^ min e e' := by
    rw [exactVal_unit n m e (min_le_left e e'), exactVal_unit n' m' e' (min_le_right e e'), ← add_mul]
    push_cast
    rfl
  rw [hsum]
  unfold addFin
  dsimp only
  generalize (e - min e e').toNat = j
  generalize (e' - min e e').toNat = j'
  split
  · rename_i h
    have hzero := beq_iff_eq.mp h
    refine ⟨by rw [hzero]; simp [exactVal, sInt], fun _ => ?_⟩
    by_cases hn : n = n'
    · subst hn
      have hboth : m * 2 ^ j + m' * 2 ^ j' = 0 := by
        cases n <;> simp only [sInt, if_true, Bool.false_eq_true, if_false] at hzero <;> zify <;> linarith
      have hm : m = 0 := by simpa using (Nat.add_eq_zero_iff.mp hboth).1
      have hm' : m' = 0 := by simpa using (Nat.add_eq_zero_iff.mp hboth).2
      simp [hm, hm']
    · simp [hn]
  · rename_i h
    exact ⟨exactVal_natAbs _ _, fun h' => absurd (by simpa using h') h⟩
end

/-! ## The operations on finite values -/

section
variable {f : FSpec} {rm : RMode} (hf : f.Ok)
include hf

theorem rounded_addV {n n' : Bool} {m m' : ℕ} {e e' : ℤ} : Rounded f rm (exactVal n m e + exactVal n' m' e')
    (if n = n' then n else rm == .rdn) (f.addV rm (.fin n m e) (.fin n' m' e')) := by
  obtain ⟨hsum, hsign⟩ := addFin_exact rm n n' m m' e e'
  rw [← hsum]
  exact rounded_round hf hsign

variable {x y z : ℕ} (hx : f.finite x = true)
include hx

theorem rounded_scale {k : ℕ} (hk : k < 255) (inv : Bool) : Rounded f rm (f.rat x * 2 ^ (if inv then 127 - (k : ℤ) else (k : ℤ) - 127))
    (f.minus x) (f.scale rm inv k x) := by
  have hscale : (k == 255) = false := by simpa using hk.ne
  rw [FSpec.scale, hscale, if_neg Bool.false_ne_true, FSpec.decode_finite hf hx, FSpec.rat_eq, exactVal_shift]
  exact rounded_round hf fun _ => rfl
theorem rounded_convert {h : FSpec} (hh : h.Ok) : Rounded h rm (f.rat x) (f.minus x) (h.convert rm false (f.decode x)) := by
  rw [FSpec.decode_finite hf hx, FSpec.rat_eq]
  exact rounded_round hh fun _ => rfl
omit hx in
theorem rounded_convert_intVal (i : ℤ) : Rounded f rm i false (f.convert rm false (intVal i)) := by
  have hzero : i.natAbs = 0 → decide (i < 0) = false := fun h => by
    rw [Int.natAbs_eq_zero.mp h]
    rfl
  rw [← mul_one (i : ℝ), ← zpow_zero 2, ← exactVal_natAbs]
  exact rounded_round hf hzero

variable (hy : f.finite y = true)
include hy

theorem rounded_add : Rounded f rm (f.rat x + f.rat y) (if f.minus x = f.minus y then f.minus x else rm == .rdn) (f.add rm x y) := by
  rw [FSpec.add, FSpec.decode_finite hf hx, FSpec.decode_finite hf hy, FSpec.rat_eq, FSpec.rat_eq]
  exact rounded_addV hf
theorem rounded_mul : Rounded f rm (f.rat x * f.rat y) (f.minus x != f.minus y) (f.mul rm x y) := by
  rw [FSpec.mul, FSpec.decode_finite hf hx, FSpec.decode_finite hf hy, FSpec.rat_eq, FSpec.rat_eq, exactVal_mul]
  exact rounded_round hf fun _ => rfl
theorem rounded_fma (hz : f.finite z = true) : Rounded f rm (f.rat x * f.rat y + f.rat z)
    (if (f.minus x != f.minus y) = f.minus z then (f.minus x != f.minus y) else rm == .rdn) (f.fma rm x y z) := by
  rw [FSpec.fma, FSpec.decode_finite hf hx, FSpec.decode_finite hf hy, FSpec.decode_finite hf hz, FSpec.rat_eq, FSpec.rat_eq,
    FSpec.rat_eq, exactVal_mul]
  exact rounded_addV hf
end

end Sys2Proof.Machine
end

/-! SUPPORT. Reciprocals, reciprocal roots and powers of two, rounded once (R165). -/
section
namespace Sys2Proof.Machine
open Sys2Proof

/-! ## The integer square root -/

theorem isqrtFrom_bounds (n k r : ℕ) (hle : r * r ≤ n) (hlt : n < (r + 2 ^ k) * (r + 2 ^ k)) :
    isqrtFrom n k r * isqrtFrom n k r ≤ n ∧ n < (isqrtFrom n k r + 1) * (isqrtFrom n k r + 1) := by
  induction k generalizing r with
  | zero => exact ⟨hle, hlt⟩
  | succ k ih =>
    rw [isqrtFrom]
    split
    · refine ih _ ‹_› ?_
      rwa [Nat.add_assoc, ← Nat.two_mul, ← pow_succ']
    · exact ih _ hle (not_le.mp ‹_›)
theorem isqrt_eq_sqrt (n : ℕ) : isqrt n = Nat.sqrt n := by
  have hlt : n < 2 ^ (bitLen n / 2 + 1) * 2 ^ (bitLen n / 2 + 1) := by
    rw [← pow_add]
    exact (lt_two_pow_bitLen n).trans_le (Nat.pow_le_pow_right (by decide) (by omega))
  obtain ⟨h1, h2⟩ := isqrtFrom_bounds n (bitLen n / 2 + 1) 0 (Nat.zero_le _) (by rwa [Nat.zero_add])
  exact Nat.eq_sqrt.mpr ⟨h1, h2⟩

/-! ## Reciprocals -/

theorem exactVal_inv (n : Bool) (m : ℕ) (e : ℤ) : (exactVal n m e)⁻¹ = signOf n * ((m : ℝ)⁻¹ * 2 ^ (-e)) := by
  rw [exactVal_eq, mul_inv, mul_inv, zpow_neg]
  cases n <;> simp [signOf]
/-- A number with some of its bits before the point. -/
theorem mul_zpow_shift (a : ℝ) (k : ℕ) (e : ℤ) : a * 2 ^ e = a * 2 ^ k * 2 ^ (-(k : ℤ) + e) := by
  rw [zpow_add₀ two_ne_zero, zpow_neg, zpow_natCast]
  field_simp

section
variable {f : FSpec} {rm : RMode} {x : ℕ} {zneg : Bool} (hf : f.Ok) (hfb : f.fb ≤ 62) (hx : f.finite x = true)
include hf hfb hx

theorem rounded_rcp (h : f.rat x ≠ 0) : Rounded f rm (f.rat x : ℝ)⁻¹ zneg (f.rcp rm x) := by
  have hm : f.units x ≠ 0 := fun h' => h (by exact_mod_cast (FSpec.rat_eq f x).trans (exactVal_eq_zero.mpr h'))
  rw [FSpec.rcp, FSpec.decode_finite hf hx, FSpec.rat_eq]
  generalize f.units x = m at *
  dsimp only
  rw [if_neg (by simpa using hm)]
  have hmpos : (0 : ℝ) < m := by positivity
  rw [exactVal_inv, mul_zpow_shift _ (bitLen m + 64), inv_mul_eq_div, ← sub_eq_add_neg]
  have hfloor : (2 ^ (bitLen m + 64) / m : ℕ) = ⌊(2 : ℝ) ^ (bitLen m + 64) / m⌋₊ := by
    rw [← Nat.floor_div_eq_div (K := ℝ)]
    push_cast
    rfl
  refine rounded_roundSticky hf ?_ ?_ ?_ ?_
  · have hlen := (lt_two_pow_bitLen m).le
    refine (Nat.le_div_iff_mul_le (Nat.pos_of_ne_zero hm)).mpr ?_
    calc 2 ^ (f.fb + 1) * m
      _ ≤ 2 ^ 64 * 2 ^ bitLen m := Nat.mul_le_mul (Nat.pow_le_pow_right (by decide) (by omega)) hlen
      _ = 2 ^ (bitLen m + 64) := by rw [← pow_add, Nat.add_comm]
  · rw [hfloor]
    exact Nat.floor_le (by positivity)
  · rw [hfloor]
    exact Nat.lt_floor_add_one _
  · rw [beq_iff_eq, ← Nat.dvd_iff_mod_eq_zero, ← Nat.cast_ofNat (R := ℝ), ← Nat.cast_pow]
    exact ⟨fun hd => Nat.cast_div hd hmpos.ne', fun hq => Dvd.intro_left _ (by exact_mod_cast (eq_div_iff hmpos.ne').mp hq)⟩
omit hf hfb hx in
/-- The bits of a reciprocal root that are computed. -/
theorem sqrt_div_bounds {m N : ℕ} (hm : m ≠ 0) : (Nat.sqrt (N ^ 2 / m) : ℝ) ≤ N / Real.sqrt m ∧
    N / Real.sqrt m < Nat.sqrt (N ^ 2 / m) + 1 ∧
    (Nat.sqrt (N ^ 2 / m) * Nat.sqrt (N ^ 2 / m) * m = N ^ 2 ↔ (Nat.sqrt (N ^ 2 / m) : ℝ) = N / Real.sqrt m) := by
  have hmpos : (0 : ℝ) < m := by positivity
  have hroot : 0 < Real.sqrt m := Real.sqrt_pos.mpr hmpos
  have hsq : (N / Real.sqrt m) ^ 2 * m = N ^ 2 := by
    rw [div_pow, Real.sq_sqrt hmpos.le, div_mul_cancel₀ _ hmpos.ne']
  have hpos : 0 ≤ N / Real.sqrt m := by positivity
  generalize N / Real.sqrt m = w at *
  have hle : Nat.sqrt (N ^ 2 / m) * Nat.sqrt (N ^ 2 / m) * m ≤ N ^ 2 :=
    (Nat.mul_le_mul_right _ (Nat.sqrt_le _)).trans (Nat.div_mul_le_self ..)
  have hlt : N ^ 2 < (Nat.sqrt (N ^ 2 / m) + 1) * (Nat.sqrt (N ^ 2 / m) + 1) * m :=
    Nat.lt_mul_of_div_lt (Nat.lt_succ_sqrt _) (Nat.pos_of_ne_zero hm)
  generalize Nat.sqrt (N ^ 2 / m) = r at *
  have hleReal : (r : ℝ) ^ 2 * m ≤ w ^ 2 * m := by rw [hsq, sq]; exact_mod_cast hle
  have hltReal : w ^ 2 * m < (r + 1 : ℝ) ^ 2 * m := by rw [hsq, sq ((r : ℝ) + 1)]; exact_mod_cast hlt
  refine ⟨?_, ?_, ?_⟩
  · exact (sq_le_sq₀ (by positivity) hpos).mp (le_of_mul_le_mul_right hleReal hmpos)
  · exact (sq_lt_sq₀ hpos (by positivity)).mp (lt_of_mul_lt_mul_right hltReal hmpos.le)
  · rw [← sq_eq_sq₀ (Nat.cast_nonneg r) hpos, ← mul_left_inj' hmpos.ne', hsq, sq (r : ℝ)]
    norm_cast
omit hx in
/-- The model's reciprocal root of a value whose exponent is even. -/
theorem rounded_root {m : ℕ} (hm : m ≠ 0) (e : ℤ) : Rounded f rm (Real.sqrt (m * 2 ^ (2 * e)))⁻¹ zneg
    (f.roundSticky rm false (isqrt (2 ^ (2 * (bitLen m + 64)) / m)) (-((bitLen m + 64 : ℕ) : ℤ) - e)
      (isqrt (2 ^ (2 * (bitLen m + 64)) / m) * isqrt (2 ^ (2 * (bitLen m + 64)) / m) * m == 2 ^ (2 * (bitLen m + 64)))) := by
  have hroot : (Real.sqrt (m * 2 ^ (2 * e)))⁻¹ =
      signOf false * (2 ^ (bitLen m + 64) / Real.sqrt m * 2 ^ (-((bitLen m + 64 : ℕ) : ℤ) - e)) := by
    rw [sub_eq_add_neg, ← inv_mul_eq_div, ← mul_zpow_shift, Real.sqrt_mul (Nat.cast_nonneg m), mul_comm 2 e, zpow_mul,
      zpow_ofNat, Real.sqrt_sq (by positivity), mul_inv, ← zpow_neg]
    simp [signOf]
  obtain ⟨hle, hlt, hexact⟩ := sqrt_div_bounds (N := 2 ^ (bitLen m + 64)) hm
  have hsq : 2 ^ (2 * (bitLen m + 64)) = (2 ^ (bitLen m + 64)) ^ 2 := by rw [← pow_mul, Nat.mul_comm]
  rw [hroot, isqrt_eq_sqrt, hsq]
  push_cast at hle hlt hexact
  refine rounded_roundSticky hf ?_ hle hlt (beq_iff_eq.trans hexact)
  have hlen := (lt_two_pow_bitLen m).le
  rw [Nat.le_sqrt', Nat.le_div_iff_mul_le (Nat.pos_of_ne_zero hm), ← pow_mul, ← pow_mul]
  calc 2 ^ ((f.fb + 1) * 2) * m
    _ ≤ 2 ^ ((f.fb + 1) * 2) * 2 ^ bitLen m := Nat.mul_le_mul_left _ hlen
    _ ≤ 2 ^ ((bitLen m + 64) * 2) := by rw [← pow_add]; exact Nat.pow_le_pow_right (by decide) (by omega)
theorem rounded_rsq (h : 0 < f.rat x) : Rounded f rm (Real.sqrt (f.rat x))⁻¹ zneg (f.rsq rm x) := by
  have hpos : 0 < exactVal (f.minus x) (f.units x) (f.low + f.octave x) := by
    rw [← FSpec.rat_eq]
    exact_mod_cast h
  have hm : f.units x ≠ 0 := fun h' => hpos.ne' (exactVal_eq_zero.mpr h')
  have hneg : f.minus x = false := Bool.eq_false_iff.mpr fun h' => lt_asymm hpos ((exactVal_neg_iff hm).mpr h')
  rw [FSpec.rsq, FSpec.decode_finite hf hx, FSpec.rat_eq, hneg, exactVal_eq, signOf, if_neg Bool.false_ne_true, one_mul]
  generalize f.units x = m at *
  generalize f.low + f.octave x = e at *
  dsimp only
  rw [if_neg (by simpa using hm), if_neg Bool.false_ne_true]
  split
  · rename_i heven
    have he : e = 2 * (e / 2) := by have := beq_iff_eq.mp heven; omega
    rw [show (m : ℝ) * 2 ^ e = m * 2 ^ (2 * (e / 2)) by rw [← he]]
    exact rounded_root hf hfb hm _
  · rename_i hodd
    have he : e = 1 + 2 * ((e - 1) / 2) := by have := mt beq_iff_eq.mpr hodd; omega
    rw [show (m : ℝ) * 2 ^ e = (2 * m : ℕ) * 2 ^ (2 * ((e - 1) / 2)) by
      conv_lhs => rw [he, zpow_add₀ two_ne_zero]
      push_cast
      ring]
    exact rounded_root hf hfb (Nat.mul_ne_zero two_ne_zero hm) _
end

end Sys2Proof.Machine
end

/-! SUPPORT. Powers of two, exact for whole exponents (R165). -/
section
namespace Sys2Proof.Machine
open Sys2Proof

/-! ## Whole numbers among exact values -/

section
variable (n : Bool) (m k : ℕ)

theorem exactVal_natCast : exactVal n m k = (sInt n (m * 2 ^ k) : ℤ) := by
  rw [exactVal, zpow_natCast]
  cases n <;> simp [sInt]
theorem exactVal_mul_neg : exactVal n (m * 2 ^ k) (-k : ℤ) = (sInt n m : ℤ) := by
  rw [exactVal, zpow_neg, zpow_natCast]
  cases n <;> simp [sInt]
variable {n m k}

theorem eq_mul_of_exactVal {i : ℤ} (h : exactVal n m (-k : ℤ) = i) : m = i.natAbs * 2 ^ k := by
  have habs : (m : ℝ) * 2 ^ (-k : ℤ) = |(i : ℝ)| := by rw [← h, abs_exactVal]
  rw [zpow_neg, zpow_natCast, ← div_eq_mul_inv, div_eq_iff (by positivity), ← Int.cast_abs, Int.abs_eq_natAbs,
    Int.cast_natCast] at habs
  exact_mod_cast habs
end

/-! ## Exponents that are cut off -/

/-- The exponent that the model cuts off far beyond every format (R165). -/
def cutExp (i : ℤ) : ℤ := max (min i 100000) (-100000)
/-- A format with fewer bits than the reciprocals compute, whose results at the exponents that are cut off are all an overflow or all
below half the least magnitude. -/
def FSpec.InRange (f : FSpec) : Prop := f.fb ≤ 62 ∧ -100000 < f.low - 1 ∧ f.fb + 1 + f.low + f.topOctave ≤ 100000

section
variable {f : FSpec} {rm : RMode} (hf : f.Ok) (hr : f.InRange)
include hf hr

theorem top_le_two_zpow {i : ℤ} (h : 100000 ≤ i) : (f.topValue : ℝ) + f.topStep ≤ 2 ^ i := by
  obtain ⟨-, -, htop⟩ := hr
  have hunits : (f.topUnits : ℝ) + 1 ≤ 2 ^ (f.fb + 1) := by exact_mod_cast (FSpec.topUnits_bounds hf).2
  calc (f.topValue : ℝ) + f.topStep
    _ = (f.topUnits + 1) * 2 ^ (f.low + f.topOctave) := by rw [FSpec.topValue_eq hf, FSpec.topStep_eq hf, add_one_mul]
    _ ≤ 2 ^ (f.fb + 1) * 2 ^ (f.low + f.topOctave) := mul_le_mul_of_nonneg_right hunits (by positivity)
    _ = 2 ^ ((f.fb + 1 : ℕ) + (f.low + f.topOctave)) := by rw [← zpow_natCast, ← zpow_add₀ two_ne_zero]
    _ ≤ 2 ^ i := zpow_le_zpow_right₀ one_le_two (by push_cast; omega)
theorem roundReal_cutExp (neg : Bool) (i : ℤ) : f.roundReal rm neg (2 ^ i) = f.roundReal rm neg (2 ^ cutExp i) := by
  have hlow : -100000 < f.low - 1 := hr.2.1
  unfold cutExp
  rcases lt_or_ge i (-100000) with h | h
  · have hcut : max (min i 100000) (-100000) = -100000 := by omega
    rw [hcut]
    exact roundReal_congr_small (by positivity) (zpow_lt_zpow_right₀ one_lt_two (by omega)) (by positivity)
      (zpow_lt_zpow_right₀ one_lt_two (by omega))
  rcases le_or_gt i 100000 with h' | h'
  · have hcut : max (min i 100000) (-100000) = i := by omega
    rw [hcut]
  · have hcut : max (min i 100000) (-100000) = 100000 := by omega
    rw [hcut]
    exact roundReal_congr_big hf (top_le_two_zpow hf hr h'.le) (top_le_two_zpow hf hr le_rfl)
theorem rounded_two_zpow (i : ℤ) : Rounded f rm ((2 : ℝ) ^ i) false (f.round rm false 1 (cutExp i) false) := by
  have hpos : (0 : ℝ) < 2 ^ i := by positivity
  have hrounded := rounded_roundReal (rm := rm) (zneg := false) hf hpos.ne'
  rw [decide_eq_false (not_lt.mpr hpos.le), abs_of_pos hpos, roundReal_cutExp hf hr] at hrounded
  rw [FSpec.round, if_neg (by decide), roundNZ_eq hf one_ne_zero, Nat.cast_one, one_mul]
  exact hrounded

/-! ## The powers -/

omit hf hr in
/-- A whole exponent as the model computes it, cut off. -/
theorem cutExp_scaled (n : Bool) {m k : ℕ} (hm : m ≠ 0) :
    cutExp (sInt n (m * 2 ^ (min (k : ℤ) 64).toNat)) = cutExp (sInt n (m * 2 ^ k)) := by
  rcases Nat.le_total k 64 with h | h
  · rw [show (min (k : ℤ) 64).toNat = k by omega]
  · have hpow : 2 ^ 64 ≤ 2 ^ k := Nat.pow_le_pow_right (by decide) h
    have hle : m * 2 ^ 64 ≤ m * 2 ^ k := Nat.mul_le_mul_left m hpow
    rw [show (min (k : ℤ) 64).toNat = 64 by omega]
    generalize m * 2 ^ k = c at *
    cases n <;> simp only [sInt, cutExp, if_true, Bool.false_eq_true, if_false] <;> omega

variable {x : ℕ} (hx : f.finite x = true)
include hx

theorem rounded_exp2 {i : ℤ} (h : f.rat x = i) : Rounded f rm ((2 : ℝ) ^ i) false (f.exp2 rm x) := by
  have hvalue : exactVal (f.minus x) (f.units x) (f.low + f.octave x) = i := by rw [← FSpec.rat_eq, h, Rat.cast_intCast]
  rw [FSpec.exp2, FSpec.decode_finite hf hx]
  generalize f.units x = m at *
  generalize f.minus x = n at *
  generalize f.low + f.octave x = e at *
  dsimp only
  split
  · rename_i hm
    have hi : i = 0 := by
      rw [beq_iff_eq.mp hm, exactVal_eq_zero.mpr rfl] at hvalue
      exact_mod_cast hvalue.symm
    rw [hi]
    exact rounded_two_zpow hf hr 0
  rename_i hm
  rcases le_or_gt 0 e with he | he
  · obtain ⟨k, rfl⟩ := Int.eq_ofNat_of_zero_le he
    have hi : i = sInt n (m * 2 ^ k) := by exact_mod_cast hvalue.symm.trans (exactVal_natCast n m k)
    have hcond : (decide (0 ≤ (k : ℤ)) || m % 2 ^ (-(k : ℤ)).toNat == 0) = true := by simp
    have hrounded := rounded_two_zpow (rm := rm) hf hr i
    rw [if_pos hcond, if_pos he]
    rw [hi, ← cutExp_scaled n (by simpa using hm), ← hi] at hrounded
    exact hrounded
  · obtain ⟨k, rfl⟩ : ∃ k : ℕ, e = -k := ⟨(-e).toNat, by omega⟩
    have hmul := eq_mul_of_exactVal hvalue
    have hk : (- -(k : ℤ)).toNat = k := by omega
    rw [hmul] at hvalue ⊢
    have hi : sInt n i.natAbs = i := by exact_mod_cast (exactVal_mul_neg n i.natAbs k).symm.trans hvalue
    rw [hk, Nat.mul_mod_left, Nat.mul_div_cancel _ (Nat.two_pow_pos _), if_neg (not_le.mpr he), hi, if_pos (by simp)]
    exact rounded_two_zpow hf hr i

/-! ## Fractions (DEDUCED, log 7) -/

omit hf hr hx in
theorem le_exp2Step (v top r j : ℕ) (h : 2 ^ expPrec ≤ r) : 2 ^ expPrec ≤ exp2Frac.exp2Step v top r j := by
  induction j generalizing r with
  | zero => exact h
  | succ j ih =>
    refine ih _ ?_
    rw [isqrt_eq_sqrt, Nat.le_sqrt]
    refine Nat.mul_le_mul_right _ ?_
    split <;> omega
omit hf hr hx in
theorem le_exp2Frac (v k : ℕ) : 2 ^ expPrec ≤ exp2Frac v k := by
  cases k with
  | zero => exact le_rfl
  | succ k => exact le_exp2Step _ _ _ _ le_rfl
omit hr hx in
/-- A magnitude of which more bits follow than a format keeps is inexact. -/
theorem roundSticky_inexact {neg : Bool} {m : ℕ} {e : ℤ} (hm : 2 ^ (f.fb + 1) ≤ m) :
    (f.roundSticky rm neg m e false).2.testBit 4 = true := by
  obtain ⟨hlow, hhigh⟩ := sticky_between m e
  rw [FSpec.roundSticky, if_neg Bool.false_ne_true, FSpec.round, if_neg (by simp), roundNZ_eq hf (Nat.succ_ne_zero _)]
  exact testBit_roundReal (roundReal_congr (rm := rm) (neg := neg) hm hlow hhigh hlow hhigh).2
theorem exp2_inexact (h : ∀ j : ℤ, f.rat x ≠ j) : (f.exp2 rm x).2.testBit 4 = true := by
  have hvalue (j : ℤ) : exactVal (f.minus x) (f.units x) (f.low + f.octave x) ≠ j := by
    rw [← FSpec.rat_eq]
    exact_mod_cast h j
  have hprec : 2 ^ (f.fb + 1) ≤ 2 ^ expPrec := Nat.pow_le_pow_right (by decide) (by have := hr.1; unfold expPrec; omega)
  rw [FSpec.exp2, FSpec.decode_finite hf hx]
  generalize f.units x = m at *
  generalize f.minus x = n at *
  generalize f.low + f.octave x = e at *
  dsimp only
  split
  · rename_i hm
    exact absurd (by rw [beq_iff_eq.mp hm, exactVal_eq_zero.mpr rfl, Int.cast_zero]) (hvalue 0)
  split
  · rename_i hwhole
    rw [Bool.or_eq_true, decide_eq_true_iff, beq_iff_eq] at hwhole
    rcases le_or_gt 0 e with he | he
    · obtain ⟨k, rfl⟩ := Int.eq_ofNat_of_zero_le he
      exact absurd (exactVal_natCast n m k) (hvalue _)
    · obtain ⟨k, rfl⟩ : ∃ k : ℕ, e = -k := ⟨(-e).toNat, by omega⟩
      have hk : (- -(k : ℤ)).toNat = k := by omega
      have hmod := hwhole.resolve_left (not_le.mpr he)
      rw [hk] at hmod
      rw [← Nat.div_mul_cancel (Nat.dvd_of_mod_eq_zero hmod)] at hvalue
      exact absurd (exactVal_mul_neg n _ k) (hvalue _)
  · exact roundSticky_inexact hf (hprec.trans (le_exp2Frac _ _))
end

end Sys2Proof.Machine
end

/-! SUPPORT. Sums of many values and conversions to an integer, each rounded once (R117, R149, R158, R166). -/
section
namespace Sys2Proof.Machine
open Sys2Proof

/-! ## Sums of many (R149) -/

/-- What has been gathered for a sum is a list of finite values. -/
structure Gather.SumsTo (f : FSpec) (g : Gather) (l : List ℕ) : Prop where
  n : g.n = l.length
  nan : g.nan = false
  pinf : g.pinf = false
  ninf : g.ninf = false
  sum : (g.sum : ℝ) * 2 ^ f.low = ((l.map f.rat).sum : ℚ)
  allPz : g.allPz = l.all fun e => f.rat e == 0 && f.minus e == false
  allNz : g.allNz = l.all fun e => f.rat e == 0 && f.minus e == true

theorem isPosZero_fin (n : Bool) (m : ℕ) (e : ℤ) : (FVal.fin n m e).isPosZero = (m == 0 && n == false) := by
  cases n <;> cases m <;> rfl
theorem isNegZero_fin (n : Bool) (m : ℕ) (e : ℤ) : (FVal.fin n m e).isNegZero = (m == 0 && n == true) := by
  cases n <;> cases m <;> rfl

section
variable {f : FSpec} {g : Gather} {l : List ℕ} (hf : f.Ok)
include hf

omit hf in
theorem rat_eq_zero_iff (x : ℕ) : f.rat x = 0 ↔ f.units x = 0 := by
  rw [← exactVal_eq_zero (neg := f.minus x) (e := f.low + f.octave x), ← FSpec.rat_eq]
  norm_cast
theorem sumsTo_addFloat (h : g.SumsTo f l) {x : ℕ} (hx : f.finite x = true) : (g.addFloat f .sum x).SumsTo f (l ++ [x]) := by
  have hdec := FSpec.decode_finite hf hx
  have hzero (neg : Bool) : (f.rat x == 0 && f.minus x == neg) = (f.units x == 0 && f.minus x == neg) := by
    rw [Bool.eq_iff_iff]
    simp [rat_eq_zero_iff]
  obtain ⟨hn, hnan, hpinf, hninf, hsum, hpz, hnz⟩ := h
  refine ⟨?_, ?_, ?_, ?_, ?_, ?_, ?_⟩
  · simp [Gather.addFloat, hn]
  · simp [Gather.addFloat, hnan, hdec, FVal.isNan]
  · simp [Gather.addFloat, hpinf, hdec]
  · simp [Gather.addFloat, hninf, hdec]
  · have hval := exactVal_unit (f.minus x) (f.units x) (f.low + f.octave x) (q := f.low) (by omega)
    simp only [Gather.addFloat, hdec, List.map_append, List.sum_append, List.map_cons, List.map_nil, List.sum_singleton]
    push_cast
    rw [add_mul, hsum, FSpec.rat_eq, hval]
    push_cast
    rfl
  · simp only [Gather.addFloat, hdec, isPosZero_fin, List.all_append, hpz, List.all_cons, List.all_nil, Bool.and_true, hzero]
  · simp only [Gather.addFloat, hdec, isNegZero_fin, List.all_append, hnz, List.all_cons, List.all_nil, Bool.and_true, hzero]
omit hf in
theorem sumsTo_empty : Gather.empty.SumsTo f [] := ⟨rfl, rfl, rfl, rfl, by simp [Gather.empty], rfl, rfl⟩
theorem sumsTo_foldl {r : List ℕ} (h : g.SumsTo f l) (hr : ∀ x ∈ r, f.finite x = true) :
    (r.foldl (fun u e => u.addFloat f .sum e) g).SumsTo f (l ++ r) := by
  induction r generalizing g l with
  | nil => simpa using h
  | cons x r ih =>
    have hnext := ih (sumsTo_addFloat hf h (hr x List.mem_cons_self)) fun e he => hr e (List.mem_cons_of_mem _ he)
    rwa [List.append_assoc] at hnext
/-- The sum of a list of finite values, rounded once; a zero is positive where every term is, negative where every term is or where the
mode rounds down. -/
theorem rounded_floatResult {rm : RMode} (h : g.SumsTo f l) (hl : l ≠ []) : Rounded f rm ((l.map f.rat).sum : ℚ)
    (!(l.all fun e => f.rat e == 0 && f.minus e == false) && ((l.all fun e => f.rat e == 0 && f.minus e == true) || rm == .rdn))
    (g.floatResult f .sum rm false) := by
  obtain ⟨hn, hnan, hpinf, hninf, hsum, hpz, hnz⟩ := h
  have hn0 : (g.n == 0) = false := by simpa [hn] using hl
  rw [← hsum, ← hpz, ← hnz, Gather.floatResult, hnan, hpinf, hninf, hn0]
  simp only [Bool.false_eq_true, if_false, Bool.and_false]
  by_cases hzero : g.sum = 0
  · have hround := rounded_round (rm := rm) (neg := !g.allPz && (g.allNz || rm == .rdn)) (m := 0) (e := 0) hf fun _ => rfl
    rw [exactVal_eq_zero.mpr rfl] at hround
    simp only [hzero, Int.cast_zero, zero_mul]
    exact hround
  · have hround := rounded_round (rm := rm) (neg := decide (g.sum < 0)) (zneg := !g.allPz && (g.allNz || rm == .rdn))
      (m := g.sum.natAbs) (e := f.low) hf fun h => absurd (Int.natAbs_eq_zero.mp h) hzero
    rw [exactVal_natAbs, FSpec.round, if_neg (by simpa using hzero)] at hround
    rw [if_neg (by simpa using hzero)]
    exact hround
end

/-! ## Conversion to an integer (R158, R166) -/

/-- A number of units, cut off and rounded up, under a sign: the integers about a value. -/
theorem sInt_floor {u : ℝ} (hu : 0 ≤ u) (neg : Bool) :
    sInt neg ⌊u⌋₊ = if neg then ⌈signOf neg * u⌉ else ⌊signOf neg * u⌋ := by
  cases neg
  · simp [sInt, signOf, Int.natCast_floor_eq_floor hu]
  · simp [sInt, signOf, Int.natCast_floor_eq_floor hu, Int.ceil_neg]
theorem sInt_ceil {u : ℝ} (hu : 0 ≤ u) (neg : Bool) :
    sInt neg ⌈u⌉₊ = if neg then ⌊signOf neg * u⌋ else ⌈signOf neg * u⌉ := by
  cases neg
  · simp [sInt, signOf, Int.natCast_ceil_eq_ceil hu]
  · simp [sInt, signOf, Int.natCast_ceil_eq_ceil hu, Int.floor_neg]

/-- The integer to which a mode rounds a value (R158). -/
def IsWhole (rm : RMode) (n : ℤ) (v : ℚ) : Prop :=
  (rm = .rne → |(n : ℚ) - v| ≤ 1 / 2 ∧ (|(n : ℚ) - v| = 1 / 2 → n % 2 = 0)) ∧ (rm = .rup → n = ⌈v⌉) ∧ (rm = .rdn → n = ⌊v⌋) ∧
    (rm = .rtz → n = if v < 0 then ⌈v⌉ else ⌊v⌋)
theorem sInt_sub_abs {u : ℝ} (neg : Bool) (k : ℕ) : |(sInt neg k : ℝ) - signOf neg * u| = |(k : ℝ) - u| := by
  cases neg
  · simp [sInt, signOf]
  · rw [← abs_neg]
    simp [sInt, signOf]
    ring_nf
theorem isWhole_roundUnits (rm : RMode) {u : ℝ} (hu : 0 ≤ u) (neg : Bool) {v : ℚ} (hv : (v : ℝ) = signOf neg * u) :
    IsWhole rm (sInt neg (roundUnits rm neg u)) v := by
  have hfloor := sInt_floor hu neg
  have hceil := sInt_ceil hu neg
  rw [← hv, Rat.floor_cast, Rat.ceil_cast] at hfloor hceil
  refine ⟨?_, ?_, ?_, ?_⟩
  · rintro rfl
    obtain ⟨hle, heven⟩ := roundUnits_half (neg := neg) hu
    have hdist : ((|(sInt neg (roundUnits .rne neg u) : ℚ) - v| : ℚ) : ℝ) = |(roundUnits .rne neg u : ℝ) - u| := by
      rw [Rat.cast_abs, Rat.cast_sub, Rat.cast_intCast, hv, sInt_sub_abs]
    rw [← hdist] at hle heven
    have hcast : ((1 / 2 : ℚ) : ℝ) = 1 / 2 := by norm_num
    refine ⟨Rat.cast_le.mp (hle.trans_eq hcast.symm), fun h => ?_⟩
    have hmod := heven (by rw [h, hcast])
    unfold sInt
    split <;> omega
  · rintro rfl
    cases neg
    · rw [roundUnits_of_not_cutsOff hu (by decide) (by decide), hceil]
      rfl
    · rw [roundUnits_of_cutsOff (by decide) (by decide), hfloor]
      rfl
  · rintro rfl
    cases neg
    · rw [roundUnits_of_cutsOff (by decide) (by decide), hfloor]
      rfl
    · rw [roundUnits_of_not_cutsOff hu (by decide) (by decide), hceil]
      rfl
  · rintro rfl
    rw [roundUnits_of_cutsOff (by decide) rfl, hfloor]
    cases neg
    · have hnonneg : ¬v < 0 := not_lt.mpr (by simp [signOf] at hv; exact_mod_cast hv ▸ hu)
      rw [if_neg Bool.false_ne_true, if_neg hnonneg]
    · rcases hu.eq_or_lt with rfl | hpos
      · obtain rfl : v = 0 := by simpa using hv
        simp
      · have hneg : v < 0 := by
          simp only [signOf, if_true, neg_one_mul] at hv
          exact_mod_cast hv.trans_lt (neg_neg_iff_pos.mpr hpos)
        rw [if_pos rfl, if_pos hneg]

section
variable {f : FSpec} {rm : RMode} {x : ℕ} (hf : f.Ok) (hx : f.finite x = true)
include hf hx

theorem toInt_finite (lo hi : ℤ) : ∃ n : ℤ, IsWhole rm n (f.rat x) ∧ (n < lo → toInt rm lo hi (f.decode x) = (lo, 1)) ∧
    (lo ≤ n → hi < n → toInt rm lo hi (f.decode x) = (hi, 1)) ∧
    (lo ≤ n → n ≤ hi → (f.rat x = n → toInt rm lo hi (f.decode x) = (n, 0)) ∧
      (f.rat x ≠ n → toInt rm lo hi (f.decode x) = (n, 16))) := by
  have hvalue := (FSpec.rat_eq f x).trans exactVal_eq
  rw [FSpec.decode_finite hf hx]
  generalize f.low + f.octave x = e at *
  generalize f.units x = m at *
  generalize f.minus x = neg at *
  have hu : (0 : ℝ) ≤ m * 2 ^ e := by positivity
  refine ⟨_, isWhole_roundUnits rm hu neg hvalue, ?_⟩
  have hexact : f.rat x = (sInt neg (roundUnits rm neg (m * 2 ^ e)) : ℤ) ↔ (roundUnits rm neg (m * 2 ^ e) : ℝ) = m * 2 ^ e := by
    rw [← Rat.cast_inj (α := ℝ), hvalue, Rat.cast_intCast, eq_comm, ← sub_eq_zero, ← abs_eq_zero, sInt_sub_abs, abs_eq_zero,
      sub_eq_zero]
  simp only [toInt, roundAt_eq, sub_zero]
  generalize sInt neg (roundUnits rm neg (m * 2 ^ e)) = n at *
  refine ⟨fun h => ?_, fun h h' => ?_, fun h h' => ⟨fun h'' => ?_, fun h'' => ?_⟩⟩
  · rw [if_pos h]
    rfl
  · rw [if_neg (not_lt.mpr h), if_pos h']
    rfl
  · rw [if_neg (not_lt.mpr h), if_neg (not_lt.mpr h'), if_neg (by simpa using hexact.mp h'')]
  · rw [if_neg (not_lt.mpr h), if_neg (not_lt.mpr h'), if_pos (by simpa using mt hexact.mpr h'')]
    rfl
end

end Sys2Proof.Machine
end

/-! SUPPORT. The rows of special operands (R153 to R155, R157, R160, R162, R165), and O7. -/
section
namespace Sys2Proof.Machine
open Sys2Proof

/-! ## What an encoding is -/

namespace FSpec

/-- A NaN, a signalling one, an infinity and a zero, by the fields of an encoding (R153, R154). -/
def IsNan (f : FSpec) (x : ℕ) : Prop := f.expo x = 2 ^ f.eb - 1 ∧ f.frac x ≠ 0
def IsSig (f : FSpec) (x : ℕ) : Prop := f.IsNan x ∧ f.frac x < 2 ^ (f.fb - 1)
def IsInf (f : FSpec) (x : ℕ) : Prop := f.expo x = 2 ^ f.eb - 1 ∧ f.frac x = 0
def IsZero (f : FSpec) (x : ℕ) : Prop := f.expo x = 0 ∧ f.frac x = 0
/-- Neither a NaN nor a zero. -/
def IsFull (f : FSpec) (x : ℕ) : Prop := f.IsInf x ∨ (f.finite x = true ∧ ¬f.IsZero x)
/-- An infinity times a zero. -/
def ZeroTimesInf (f : FSpec) (x y : ℕ) : Prop := (f.IsInf x ∧ f.IsZero y) ∨ (f.IsZero x ∧ f.IsInf y)

section
variable {f : FSpec} {x y z : ℕ} {rm : RMode} (hf : f.Ok) (h4 : f.e4 = false)

include h4 in
theorem decode_nan (h : f.IsNan x) : f.decode x = .nan (f.frac x < 2 ^ (f.fb - 1)) := by
  rw [decode_eq, h4, if_neg Bool.false_ne_true, if_pos h.1, if_neg h.2]
include h4 in
theorem decode_inf (h : f.IsInf x) : f.decode x = .inf (f.minus x) := by
  rw [decode_eq, h4, if_neg Bool.false_ne_true, if_pos h.1, if_pos h.2]
include h4 in
theorem decode_number (h : f.expo x ≠ 2 ^ f.eb - 1) : f.decode x = .fin (f.minus x) (f.units x) (f.low + f.octave x) := by
  rw [decode_eq, h4, if_neg Bool.false_ne_true, if_neg h]
theorem isZero_iff (x : ℕ) : f.IsZero x ↔ f.units x = 0 := by
  have hb : 0 < 2 ^ f.fb := Nat.two_pow_pos _
  rw [IsZero, units]
  split <;> omega
include hf in
theorem IsZero.expo_ne (h : f.IsZero x) : f.expo x ≠ 2 ^ f.eb - 1 := by
  have he : 2 ^ 2 ≤ 2 ^ f.eb := Nat.pow_le_pow_right (by decide) hf.eb
  have := h.1
  omega
include hf h4 in
theorem decode_zero (h : f.IsZero x) : f.decode x = .fin (f.minus x) 0 (f.low + f.octave x) := by
  rw [decode_number h4 (h.expo_ne hf), (isZero_iff x).mp h]
include h4 in
/-- A NaN, an infinity or a number. -/
theorem decode_cases (x : ℕ) : (f.IsNan x ∧ f.decode x = .nan (f.frac x < 2 ^ (f.fb - 1))) ∨
    (f.IsInf x ∧ f.decode x = .inf (f.minus x)) ∨
    ((¬f.IsNan x ∧ ¬f.IsInf x) ∧ f.decode x = .fin (f.minus x) (f.units x) (f.low + f.octave x)) := by
  by_cases he : f.expo x = 2 ^ f.eb - 1
  · by_cases hfr : f.frac x = 0
    · exact .inr (.inl ⟨⟨he, hfr⟩, decode_inf h4 ⟨he, hfr⟩⟩)
    · exact .inl ⟨⟨he, hfr⟩, decode_nan h4 ⟨he, hfr⟩⟩
  · exact .inr (.inr ⟨⟨fun h => he h.1, fun h => he h.1⟩, decode_number h4 he⟩)
include h4 in
theorem isNan_iff (x : ℕ) : (f.decode x).isNan = true ↔ f.IsNan x := by
  rcases decode_cases h4 x with ⟨h, hd⟩ | ⟨h, hd⟩ | ⟨h, hd⟩ <;> rw [hd]
  · exact iff_of_true rfl h
  · exact iff_of_false Bool.false_ne_true fun h' => h'.2 h.2
  · exact iff_of_false Bool.false_ne_true h.1
include h4 in
theorem isSig_iff (x : ℕ) : (f.decode x).isSig = true ↔ f.IsSig x := by
  rcases decode_cases h4 x with ⟨h, hd⟩ | ⟨h, hd⟩ | ⟨h, hd⟩ <;> rw [hd]
  · exact decide_eq_true_iff.trans (and_iff_right h).symm
  · exact iff_of_false Bool.false_ne_true fun h' => h'.1.2 h.2
  · exact iff_of_false Bool.false_ne_true fun h' => h.1 h'.1

include h4 in
theorem isInf_of_decode {n : Bool} (h : f.decode x = .inf n) : f.IsInf x := by
  rcases decode_cases h4 x with ⟨-, hd⟩ | ⟨hx, -⟩ | ⟨-, hd⟩
  · exact absurd (hd.symm.trans h) (by simp)
  · exact hx
  · exact absurd (hd.symm.trans h) (by simp)
include h4 in
theorem isZero_of_decode {n : Bool} {e : ℤ} (h : f.decode x = .fin n 0 e) : f.IsZero x := by
  rcases decode_cases h4 x with ⟨-, hd⟩ | ⟨-, hd⟩ | ⟨-, hd⟩
  · exact absurd (hd.symm.trans h) (by simp)
  · exact absurd (hd.symm.trans h) (by simp)
  · obtain ⟨-, hu, -⟩ := FVal.fin.inj (hd.symm.trans h)
    exact (isZero_iff x).mpr hu

/-! ## NaN operands (R154, R162) -/

/-- A product with a NaN is a NaN. -/
theorem mulV_nan {a b : FVal} (h : a.isNan = true ∨ b.isNan = true) : ∃ s, mulV a b = some (.nan s) := by
  cases a with
  | nan s => exact ⟨s, rfl⟩
  | inf n => cases b <;> simp [FVal.isNan, mulV] at h ⊢
  | fin n m e => cases b <;> simp [FVal.isNan, mulV] at h ⊢
/-- The one product without a value is an infinity times a zero. -/
theorem mulV_eq_none {a b : FVal} (h : mulV a b = none) :
    (∃ n k e, a = .inf n ∧ b = .fin k 0 e) ∨ ∃ n k e, a = .fin k 0 e ∧ b = .inf n := by
  cases a with
  | nan s => simp [mulV] at h
  | inf n =>
    cases b with
    | fin k m e =>
      obtain rfl : m = 0 := by simpa [mulV] using h
      exact .inl ⟨n, k, e, rfl, rfl⟩
    | nan s => simp [mulV] at h
    | inf k => simp [mulV] at h
  | fin k m e =>
    cases b with
    | inf n =>
      obtain rfl : m = 0 := by simpa [mulV] using h
      exact .inr ⟨n, k, e, rfl, rfl⟩
    | nan s => simp [mulV] at h
    | fin k' m' e' => simp [mulV] at h

section
include h4

theorem zeroTimesInf_of_mulV (h : mulV (f.decode x) (f.decode y) = none) : f.ZeroTimesInf x y := by
  rcases mulV_eq_none h with ⟨n, k, e, hx, hy⟩ | ⟨n, k, e, hx, hy⟩
  · exact .inl ⟨isInf_of_decode h4 hx, isZero_of_decode h4 hy⟩
  · exact .inr ⟨isZero_of_decode h4 hx, isInf_of_decode h4 hy⟩
theorem add_sig (h : f.IsSig x ∨ f.IsSig y) : f.add rm x y = (f.nan, 1) := by
  rw [add, if_pos (by rwa [Bool.or_eq_true, isSig_iff h4, isSig_iff h4])]
  rfl
theorem mul_sig (h : f.IsSig x ∨ f.IsSig y) : f.mul rm x y = (f.nan, 1) := by
  rw [mul, if_pos (by rwa [Bool.or_eq_true, isSig_iff h4, isSig_iff h4])]
  rfl
theorem fma_sig (h : f.IsSig x ∨ f.IsSig y ∨ f.IsSig z) : f.fma rm x y z = (f.nan, 1) := by
  rw [fma, if_pos (by rwa [Bool.or_eq_true, Bool.or_eq_true, isSig_iff h4, isSig_iff h4, isSig_iff h4, or_assoc])]
  rfl
theorem isSig_eq_false (h : ¬f.IsSig x) : (f.decode x).isSig = false := Bool.eq_false_iff.mpr (mt (isSig_iff h4 x).mp h)

variable (hx : ¬f.IsSig x) (hy : ¬f.IsSig y)
include hx hy

theorem add_quiet (h : f.IsNan x ∨ f.IsNan y) : f.add rm x y = (f.nan, 0) := by
  rw [add, isSig_eq_false h4 hx, isSig_eq_false h4 hy, if_neg (by decide), if_pos (by rwa [Bool.or_eq_true, isNan_iff h4, isNan_iff h4])]
theorem mul_quiet (h : f.IsNan x ∨ f.IsNan y) : f.mul rm x y = (f.nan, 0) := by
  obtain ⟨s, hs⟩ := mulV_nan (a := f.decode x) (b := f.decode y) (by rwa [isNan_iff h4, isNan_iff h4])
  rw [mul, isSig_eq_false h4 hx, isSig_eq_false h4 hy, if_neg (by decide), hs]
theorem mul_of_none (h : mulV (f.decode x) (f.decode y) = none) : f.mul rm x y = (f.nan, 1) := by
  rw [mul, isSig_eq_false h4 hx, isSig_eq_false h4 hy, if_neg (by decide), h]
  rfl
theorem mul_of_inf {n : Bool} (h : mulV (f.decode x) (f.decode y) = some (.inf n)) : f.mul rm x y = (f.inf n, 0) := by
  rw [mul, isSig_eq_false h4 hx, isSig_eq_false h4 hy, if_neg (by decide), h]

variable (hz : ¬f.IsSig z)
include hz

theorem fma_of_none (h : mulV (f.decode x) (f.decode y) = none) : f.fma rm x y z = (f.nan, 1) := by
  rw [fma, isSig_eq_false h4 hx, isSig_eq_false h4 hy, isSig_eq_false h4 hz, if_neg (by decide), h]
  rfl
theorem fma_of_some {p : FVal} (h : mulV (f.decode x) (f.decode y) = some p) : f.fma rm x y z =
    if p.isNan || (f.decode z).isNan then (f.nan, 0) else f.addV rm p (f.decode z) := by
  rw [fma, isSig_eq_false h4 hx, isSig_eq_false h4 hy, isSig_eq_false h4 hz, if_neg (by decide), h]
/-- Without an infinity times a zero, a quiet NaN gives a NaN and no flag. -/
theorem fma_quiet (hzi : ¬f.ZeroTimesInf x y) (h : f.IsNan x ∨ f.IsNan y ∨ f.IsNan z) : f.fma rm x y z = (f.nan, 0) := by
  by_cases hxy : f.IsNan x ∨ f.IsNan y
  · obtain ⟨s, hs⟩ := mulV_nan (a := f.decode x) (b := f.decode y) (by rwa [isNan_iff h4, isNan_iff h4])
    rw [fma_of_some h4 hx hy hz hs]
    rfl
  · have hnan : (f.decode z).isNan = true := (isNan_iff h4 z).mpr (by tauto)
    cases hp : mulV (f.decode x) (f.decode y) with
    | some p => rw [fma_of_some h4 hx hy hz hp, hnan, Bool.or_true, if_pos rfl]
    | none => exact absurd (zeroTimesInf_of_mulV h4 hp) hzi
end

/-! ## Infinities and zeros (R155, R162) -/

theorem IsInf.not_sig (h : f.IsInf x) : ¬f.IsSig x := fun h' => h'.1.2 h.2
theorem not_sig_of_number (h : f.expo x ≠ 2 ^ f.eb - 1) : ¬f.IsSig x := fun h' => h h'.1.1

section
include h4

theorem expo_of_finite (hx : f.finite x = true) : f.expo x ≠ 2 ^ f.eb - 1 := by
  simp only [finite, h4, Bool.false_eq_true, if_false, Bool.and_eq_true, bne_iff_ne] at hx
  exact hx.2
theorem IsFull.not_sig (h : f.IsFull x) : ¬f.IsSig x := by
  rcases h with h | ⟨h, -⟩
  · exact h.not_sig
  · exact not_sig_of_number (expo_of_finite h4 h)
/-- An infinity times a value that is neither a NaN nor a zero. -/
theorem mulV_full (hx : f.IsFull x) (hy : f.IsFull y) (h : f.IsInf x ∨ f.IsInf y) :
    mulV (f.decode x) (f.decode y) = some (.inf (f.minus x != f.minus y)) := by
  have hnumber {u : ℕ} (hu : f.finite u = true ∧ ¬f.IsZero u) : f.decode u = .fin (f.minus u) (f.units u) (f.low + f.octave u) ∧
      (f.units u == 0) = false :=
    ⟨decode_number h4 (expo_of_finite h4 hu.1), by simpa using mt (isZero_iff u).mpr hu.2⟩
  rcases hx with hx | hx
  · rw [decode_inf h4 hx]
    rcases hy with hy | hy
    · rw [decode_inf h4 hy]
      rfl
    · obtain ⟨hd, hu⟩ := hnumber hy
      rw [hd, mulV, hu]
      rfl
  · have hy' : f.IsInf y := h.resolve_left fun h' => expo_of_finite h4 hx.1 h'.1
    obtain ⟨hd, hu⟩ := hnumber hx
    rw [hd, decode_inf h4 hy', mulV, hu]
    simp [bne_comm]
include hf in
theorem mulV_zeroTimesInf (h : f.ZeroTimesInf x y) : mulV (f.decode x) (f.decode y) = none ∧ ¬f.IsSig x ∧ ¬f.IsSig y := by
  rcases h with ⟨hx, hy⟩ | ⟨hx, hy⟩
  · rw [decode_inf h4 hx, decode_zero hf h4 hy]
    exact ⟨rfl, hx.not_sig, not_sig_of_number (hy.expo_ne hf)⟩
  · rw [decode_inf h4 hy, decode_zero hf h4 hx]
    exact ⟨rfl, not_sig_of_number (hx.expo_ne hf), hy.not_sig⟩
theorem add_inf_inf (hx : f.IsInf x) (hy : f.IsInf y) :
    f.add rm x y = if f.minus x = f.minus y then (f.inf (f.minus x), 0) else (f.nan, 1) := by
  rw [add, decode_inf h4 hx, decode_inf h4 hy]
  simp [FVal.isSig, FVal.isNan, addV, flagNV]
theorem add_inf_finite (hx : f.IsInf x) (hy : f.finite y = true) :
    f.add rm x y = (f.inf (f.minus x), 0) ∧ f.add rm y x = (f.inf (f.minus x), 0) := by
  rw [add, add, decode_inf h4 hx, decode_number h4 (expo_of_finite h4 hy)]
  exact ⟨rfl, rfl⟩
/-- A sum of a product that is an infinity. -/
theorem fma_inf {n : Bool} (hx : ¬f.IsSig x) (hy : ¬f.IsSig y) (h : mulV (f.decode x) (f.decode y) = some (.inf n)) :
    (f.finite z = true → f.fma rm x y z = (f.inf n, 0)) ∧
    (f.IsInf z → f.fma rm x y z = if n = f.minus z then (f.inf n, 0) else (f.nan, 1)) := by
  refine ⟨fun hz => ?_, fun hz => ?_⟩
  · rw [fma_of_some h4 hx hy (not_sig_of_number (expo_of_finite h4 hz)) h, decode_number h4 (expo_of_finite h4 hz)]
    rfl
  · rw [fma_of_some h4 hx hy hz.not_sig h, decode_inf h4 hz]
    simp [FVal.isNan, addV, flagNV]
theorem fma_finite_inf (hx : f.finite x = true) (hy : f.finite y = true) (hz : f.IsInf z) :
    f.fma rm x y z = (f.inf (f.minus z), 0) := by
  have hx' := expo_of_finite h4 hx
  have hy' := expo_of_finite h4 hy
  rw [fma, decode_number h4 hx', decode_number h4 hy', decode_inf h4 hz]
  rfl

/-! ## Reciprocals, roots and powers (R165) -/

theorem unary_nan (h : f.IsNan x) : f.rcp rm x = (f.nan, if f.frac x < 2 ^ (f.fb - 1) then 1 else 0) ∧ f.rsq rm x = f.rcp rm x ∧
    f.exp2 rm x = f.rcp rm x := by
  rw [rcp, rsq, exp2, decode_nan h4 h]
  refine ⟨?_, rfl, rfl⟩
  simp [nvIf, flagNV]
include hf in
theorem unary_zero (h : f.IsZero x) : f.rcp rm x = (f.inf (f.minus x), 2) ∧ f.rsq rm x = (f.inf (f.minus x), 2) := by
  rw [rcp, rsq, decode_zero hf h4 h]
  exact ⟨rfl, rfl⟩
theorem unary_inf (h : f.IsInf x) : f.rcp rm x = (f.signed (f.minus x) 0, 0) ∧
    f.rsq rm x = (if f.minus x then (f.nan, 1) else (0, 0)) ∧ f.exp2 rm x = (if f.minus x then 0 else f.inf false, 0) := by
  rw [rcp, rsq, exp2, decode_inf h4 h]
  refine ⟨rfl, rfl, ?_⟩
  cases f.minus x <;> rfl
omit h4 in
include hf in
theorem rsq_negative (hx : f.finite x = true) (h : f.rat x < 0) : f.rsq rm x = (f.nan, 1) := by
  have hneg : exactVal (f.minus x) (f.units x) (f.low + f.octave x) < 0 := by
    rw [← rat_eq]
    exact_mod_cast h
  have hm : f.units x ≠ 0 := fun h' => hneg.ne (exactVal_eq_zero.mpr h')
  rw [rsq, decode_finite hf hx, (exactVal_neg_iff hm).mp hneg]
  dsimp only
  rw [if_neg (by simpa using hm), if_pos rfl]
  rfl
end
end
end FSpec

/-! ## The formats (R153) -/

section
variable (t : SfFmt)

theorem sfSpec_ok : (sfSpec t).Ok := by
  cases t <;> exact ⟨by decide, by decide, fun h => absurd h Bool.false_ne_true⟩
theorem sfSpec_e4 : (sfSpec t).e4 = false := by cases t <;> rfl
theorem sfSpec_inRange : (sfSpec t).InRange := by cases t <;> exact ⟨by decide, by decide, by decide⟩
omit t in
theorem nan_sfSpec : (sfSpec .f32).nan = 0x7FC00000 ∧ (sfSpec .bf16).nan = 0x7FC0 ∧ (sfSpec .f16).nan = 0x7E00 := by decide
theorem pSpec_ok (p : PFmt) : (pSpec p).Ok := by
  cases p <;> exact ⟨by decide, by decide, fun h => absurd h Bool.false_ne_true⟩
/-- The formats of R153, in full. -/
theorem formats_ok {g : FSpec}
    (h : g ∈ [(⟨8, 23, 127, false⟩ : FSpec), ⟨8, 7, 127, false⟩, ⟨5, 10, 15, false⟩, ⟨4, 3, 7, true⟩, ⟨5, 2, 15, false⟩]) : g.Ok := by
  simp only [List.mem_cons, List.not_mem_nil, or_false] at h
  rcases h with rfl | rfl | rfl | rfl | rfl
  · exact sfSpec_ok .f32
  · exact sfSpec_ok .bf16
  · exact sfSpec_ok .f16
  · exact ⟨by decide, by decide, fun _ => rfl⟩
  · exact ⟨by decide, by decide, fun h => absurd h Bool.false_ne_true⟩
theorem inf_sfSpec (neg : Bool) : (sfSpec t).inf neg = (2 ^ (sfSpec t).eb - 1) * 2 ^ (sfSpec t).fb +
    if neg then 2 ^ ((sfSpec t).eb + (sfSpec t).fb) else 0 := by
  rw [inf_eq _ _ (sfSpec_e4 t), FSpec.signed, FSpec.signBit, Nat.add_comm]
  cases neg <;> simp [bit]
end
/-- The sum of a list of finite values, as it is gathered (R149). -/
theorem rounded_gathered {p : PFmt} (hp : p.isFloat = true) {l : List ℕ} (hl : l ≠ []) (hfin : ∀ e ∈ l, (pSpec p).finite e = true)
    (rm : RMode) : Rounded (pSpec p) rm ((l.map (pSpec p).rat).sum : ℚ)
      (!(l.all fun e => (pSpec p).rat e == 0 && (pSpec p).minus e == false) &&
        ((l.all fun e => (pSpec p).rat e == 0 && (pSpec p).minus e == true) || rm == .rdn))
      ((l.foldl (fun u e => u.add p .sum e) Gather.empty).result p .sum rm false) := by
  have hadd : (fun (u : Gather) e => u.add p .sum e) = fun u e => u.addFloat (pSpec p) .sum e := by
    funext u e
    rw [Gather.add, if_pos hp]
  rw [Gather.result, if_pos hp, hadd]
  exact rounded_floatResult (pSpec_ok p) (sumsTo_foldl (pSpec_ok p) sumsTo_empty hfin) hl

/-- Settles O7: the operations on finite values as one rounding, the rows of special operands by the kind of each. -/
theorem floatRounding : Obligations.FloatRounding := by
  unfold Obligations.FloatRounding
  intro t g h p rm x y z k i lo hi l f formats fin special nan sig inf zero full quietNaN infinity both xy sf total zeros i2
  have hf : f.Ok := sfSpec_ok t
  have h4 : f.e4 = false := sfSpec_e4 t
  have hr : f.InRange := sfSpec_inRange t
  have hnan : f.nan = quietNaN := by
    obtain ⟨h32, hb16, h16⟩ := nan_sfSpec
    cases t
    exacts [h32, hb16, h16]
  have hinf (neg : Bool) : f.inf neg = infinity neg := inf_sfSpec t neg
  refine ⟨?_, rfl, rfl, rfl, fun hx hy => ⟨rounded_add hf hx hy, rounded_mul hf hx hy⟩, fun hx hy hz => rounded_fma hf hx hy hz,
    rounded_rcp hf hr.1, rounded_rsq hf hr.1, fun hx h => rounded_exp2 hf hr hx h, exp2_inexact hf hr,
    fun hx hk => ⟨rounded_scale hf hx hk false, rounded_scale hf hx hk true⟩,
    fun hg hh hx => rounded_convert (formats_ok hg) hx (formats_ok hh), fun hh => rounded_convert_intVal (formats_ok hh) i,
    fun hp hl hfin => rounded_gathered hp hl hfin rm, fun hx => ?_, ?_⟩
  · cases t <;> decide
  · obtain ⟨n, ⟨hrne, hrup, hrdn, hrtz⟩, hlow, hhigh, hmid⟩ := toInt_finite (rm := rm) hf hx lo hi
    exact ⟨n, hrne, hrup, hrdn, hrtz, hlow, hhigh, hmid⟩
  simp only [← hnan, ← hinf]
  refine ⟨fun h => ?_, fun h => ?_, fun h => ⟨FSpec.add_sig h4 h, FSpec.mul_sig h4 h⟩, FSpec.fma_sig h4, fun h => ?_,
    fun hx hy h => ⟨FSpec.add_quiet h4 hx hy h, FSpec.mul_quiet h4 hx hy h⟩, FSpec.fma_quiet h4, FSpec.add_inf_inf h4,
    FSpec.add_inf_finite h4, fun hx hy h => ?_, FSpec.fma_finite_inf h4, FSpec.unary_nan h4, FSpec.unary_zero hf h4, fun h => ?_,
    FSpec.rsq_negative hf, fun _ => rfl⟩
  · simp only [i2, FSpec.decode_nan h4 h]
    rfl
  · simp only [i2, FSpec.decode_inf h4 h]
    rfl
  · obtain ⟨hnone, hx, hy⟩ := FSpec.mulV_zeroTimesInf hf h4 h
    exact ⟨FSpec.mul_of_none h4 hx hy hnone, fun hz => FSpec.fma_of_none h4 hx hy hz hnone⟩
  · have hprod := FSpec.mulV_full h4 hx hy h
    have hx' := FSpec.IsFull.not_sig h4 hx
    have hy' := FSpec.IsFull.not_sig h4 hy
    exact ⟨FSpec.mul_of_inf h4 hx' hy' hprod, FSpec.fma_inf h4 hx' hy' hprod⟩
  · obtain ⟨hrcp, hrsq, hexp2⟩ := FSpec.unary_inf (rm := rm) h4 h
    refine ⟨hrcp.trans ?_, hrsq, hexp2⟩
    cases f.minus x <;> simp [FSpec.signed, FSpec.signBit, bit]

end Sys2Proof.Machine
end

/-! SUPPORT. Every state within a step is reached by committed actions, or by a power-on reset: settles O58. -/
section
namespace Sys2Proof.Machine
open Sys2Proof

/-! ## Actions and instructions -/

theorem State.Canonical.commit {s : State} (h : s.Canonical) (a : Act) : (s.commit a).Canonical := commit_wf h a
theorem State.Canonical.withW {s : State} (h : s.Canonical) (w : World) : (s.withW w).Canonical := h
/-- An instruction answers a committed action; a power-on reset alone makes the memories anew (R377). -/
theorem exec_commits (i : Instr) (s : State) : (∃ a, exec i s = done s a) ∨ exec i s = execPowerOnReset s := by
  cases i with
  | pmov p2v => cases p2v <;> exact .inl ⟨_, rfl⟩
  | powerOnReset => exact .inr rfl
  | _ => exact .inl ⟨_, rfl⟩
theorem runInstr_canonical (i : Instr) {s : State} (h : s.Canonical) : (runInstr i s).Canonical := by
  rcases exec_commits i s with ⟨a, ha⟩ | hr
  · rw [runInstr_of_exec (ha.trans (done_next s a))]
    exact h.commit a
  · rw [runInstr_of_exec hr]
    exact reset_wf

/-! ## The issue of a cycle (R60 to R62)

What runs the slots is any meaning that keeps the canonical form; all else of a cycle replaces the world or commits an action. -/

section
variable {run : Run} (hrun : ∀ i {s : State}, s.Canonical → (run i s).Canonical)

theorem rebuildMembers_canonical (s : State) (sup : Bool) (t : Nat) (ks : List Nat) :
    ∀ {a : State}, a.Canonical → (rebuildMembers s sup t a ks).1.Canonical := by
  induction ks with
  | nil => exact id
  | cons k r ih => exact fun h => ih h
theorem captureAll_canonical (base : Nat) (ps : List Plan) : ∀ {s : State}, s.Canonical → (captureAll s base ps).Canonical := by
  induction ps with
  | nil => exact id
  | cons p r ih =>
    intro s h
    unfold captureAll
    split <;> exact ih h
theorem issueAll_canonical (ps : List Plan) : ∀ {s : State}, s.Canonical → (issueAll s ps).Canonical := by
  induction ps with
  | nil => exact id
  | cons p r ih => exact fun h => ih h
theorem stopCycle_canonical (cores : List Nat) (a : World) {s : State} (h : s.Canonical) (x : Trial) :
    (stopCycle cores a s x).Canonical := by
  cases x <;> exact h

include hrun
theorem runSlots_canonical (p : Plan) (xs : List (Nat × Instr)) : ∀ {s : State}, s.Canonical → (runSlots run p s xs).Canonical := by
  induction xs with
  | nil => exact id
  | cons x r ih => exact fun h => ih (hrun x.2 h)
theorem runAll_canonical (sel : Nat × Instr → Bool) (ps : List Plan) :
    ∀ {s : State}, s.Canonical → (runAll run sel s ps).Canonical := by
  induction ps with
  | nil => exact id
  | cons p r ih => exact fun h => ih (runSlots_canonical hrun p _ h)
/-- Slots, engine slots, stores, the issue and the transfers: each keeps it. -/
theorem perform_canonical (ps : List Plan) {s : State} (h : s.Canonical) : (perform run s ps).Canonical := by
  have slots := runAll_canonical hrun (fun x => x.1 != 0 && x.1 != 14 && !isStore x.2) ps h
  have engines := runAll_canonical hrun (fun x => x.1 == 14) ps slots
  have stores := runAll_canonical hrun (fun x => isStore x.2) ps engines
  exact runAll_canonical hrun (fun x => x.1 == 0) ps (issueAll_canonical ps stores)

/-! ## Cycles -/

theorem issueCycle_canonical (gid t : Nat) {s0 s : State} (h0 : s0.Canonical) (h : s.Canonical) :
    (issueCycle run gid t s0 s).Canonical := by
  unfold issueCycle
  extract_lets g ms rb plans _ s1 s2 s3 _ _
  have hs1 : s1.Canonical := by
    have := rebuildMembers_canonical s false t ms h
    unfold s1
    split <;> exact this
  have hs3 : s3.Canonical := (perform_canonical hrun plans (captureAll_canonical g.scanBase plans hs1)).commit _
  split
  · exact hs3
  · exact stopCycle_canonical ms _ h0 _
theorem runningCycle_canonical (gid : Nat) {s : State} (h : s.Canonical) : (runningCycle run gid s).Canonical := by
  unfold runningCycle
  extract_lets _ t s1 s2
  have h1 : s1.Canonical := h.commit _
  have h2 : s2.Canonical := h1.commit _
  split
  · refine State.Canonical.withW ?_ _
    split <;> [exact h1; exact h2]
  · split <;> [exact h1; exact issueCycle_canonical hrun gid t h1 h2]
theorem handlerCycle_canonical (gid core : Nat) {s : State} (hs : s.Canonical) : (handlerCycle run gid core s).Canonical := by
  unfold handlerCycle
  extract_lets h s1 wait rb ends
  have h1 : s1.Canonical := hs.commit _
  have hrb : rb.1.Canonical := rebuildMembers_canonical s1 true h [core] h1
  have hends {a : State} (ha : a.Canonical) : (wait (ends a)).Canonical := ((ha.withW _).commit _).withW _
  split
  · exact h1.withW _
  · split
    · split
      · refine hends ?_
        split <;> [exact hrb; exact hrb.withW _]
      · exact hends (perform_canonical hrun _ (hrb.withW _))
    · exact stopCycle_canonical _ _ h1 _
theorem gangCycle_canonical (gid : Nat) {s : State} (h : s.Canonical) : (gangCycle run gid s).Canonical := by
  unfold gangCycle
  extract_lets w s1
  split
  · exact runningCycle_canonical hrun gid h
  · exact handlerCycle_canonical hrun gid _ h
  · exact h

/-! ## Turns (log 1) -/

theorem takeTurn_canonical (t : Turn) {s : State} (h : s.Canonical) : (takeTurn run t s).Canonical := by
  cases t with
  | ev i =>
    rw [takeTurn]
    split <;> [exact hrun i h; exact h]
  | cycle g =>
    rw [takeTurn]
    split <;> [exact gangCycle_canonical hrun g h; exact h]
  | pass fs => exact h
theorem turn_canonical {s : State} (h : s.Canonical) : (turn run s).Canonical := by
  unfold turn
  split <;> exact takeTurn_canonical hrun _ h

end
/-- Settles O58: a step is a turn, and every instruction's meaning keeps the canonical form. -/
theorem stepKeepsCanonical : Obligations.StepKeepsCanonical := by
  intro s t h hstep
  rw [step_goesOn, Host.Outcome.next.injEq] at hstep
  exact hstep ▸ turn_canonical runInstr_canonical h

end Sys2Proof.Machine
end

/-! SUPPORT. Scratchpad loads: their addresses, what they have due, and what reading a row leaves (R172 to R185); settles O12. -/
section
namespace Sys2Proof.Machine
open Sys2Proof

/-! ## Addresses (R170, R182) -/

section
variable (s : State) (e : Ea) (u : Nat)

/-- The 64-bit sum of an address keeps the 21 bits that the scratchpad has. -/
theorem la_eq_spdAddr : s.w.la e u = s.spdAddr e u := by
  have hmod (x : Int) : (x % (2 ^ 64 : Int)).toNat % 2 ^ 21 = (x % (2 ^ 21 : Int)).toNat := by omega
  simp only [World.la, World.ea, aligned, State.spdAddr, hmod]
theorem spdAddr_lt : s.spdAddr e u < 2 ^ 21 := by
  have hsum (x : Int) : (x % (2 ^ 21 : Int)).toNat < 2 ^ 21 := by omega
  exact lt_of_le_of_lt (Nat.div_mul_le_self _ _) (hsum _)
theorem spdAt_spdAddr (k : Nat) : spdAt k (s.spdAddr e u) = k * 2 ^ 21 + s.spdAddr e u := by
  rw [spdAt, Nat.mod_eq_of_lt (spdAddr_lt s e u)]
end

/-! ## A read leaves the slot that issues (R172, R178) -/

/-- What corrections leave: the slot that issues and the errors that are known; they change counts and rates. -/
structure Mended (w v : World) : Prop where
  cur : v.cur = w.cur
  softErrs : v.softErrs = w.softErrs
namespace Mended
theorem refl (w : World) : Mended w w := ⟨rfl, rfl⟩
theorem after {u v w : World} (k : Mended v w) (h : Mended u v) : Mended u w := ⟨k.cur.trans h.cur, k.softErrs.trans h.softErrs⟩
theorem foldl {α : Type} {f : World → α → World} (hf : ∀ w x, Mended w (f w x)) (l : List α) (w : World) : Mended w (l.foldl f w) := by
  induction l generalizing w with
  | nil => exact refl w
  | cons x r ih => exact (ih _).after (hf w x)
end Mended

section
variable (w : World) (k row : Nat)

theorem fixed_mended (n : Nat) : Mended w (w.fixed k n) := by
  unfold World.fixed
  split <;> exact ⟨rfl, rfl⟩
theorem corrected_mended (n : Nat) : Mended w (w.corrected k n) := by
  unfold World.corrected
  split
  · exact .refl w
  · exact (fixed_mended ..).after ⟨rfl, rfl⟩
theorem worn_mended (n : Nat) : Mended w (w.worn k row n) := by
  unfold World.worn
  split <;> exact ⟨rfl, rfl⟩
theorem mendRest_mended (ws : List Nat) : Mended w (w.mendRest k row ws) :=
  (corrected_mended ..).after (.foldl (fun _ _ => worn_mended ..) _ _)
theorem lookWords_cur (ws : List Nat) : (w.lookWords k row ws).w.cur = w.cur := by
  unfold World.lookWords
  dsimp only
  split
  · rfl
  split
  · rfl
  split
  · split
    · rfl
    · exact (mendRest_mended ..).cur
  split
  · split
    · rfl
    · exact ((mendRest_mended ..).after ((worn_mended ..).after (corrected_mended ..))).cur
  · exact ((worn_mended ..).after (corrected_mended ..)).cur
theorem lookRows_cur (n : Nat) : (w.lookRows k row n).w.cur = w.cur := by
  induction n generalizing w row with
  | zero => rfl
  | succ n ih => exact (ih _ _).trans (lookWords_cur ..)
theorem look_cur (la n : Nat) : (w.look k la n).w.cur = w.cur := by
  unfold World.look
  split
  · exact lookWords_cur ..
  · exact lookRows_cur ..
end

/-! ## Loads (R182 to R185, R223) -/

/-- What the cycle of a load of `n` bytes sees, counted. -/
def State.seen (s : State) (e : Ea) (n : Nat) : Look :=
  (s.w.count s.w.cur.core 0x20 1).look s.w.cur.core (s.spdAddr e n) n
/-- The three outcomes of a load of `n` bytes: a result that its value `v` determines, an error consumed, or EARLY. -/
def State.Loads (s : State) (e : Ea) (i : Instr) (n : Nat) (result : Nat → List (Nat × RegW) → Prop) : Prop :=
  (s.w.early (s.spdAddr e n / 256) (rowsOf n) = none → (s.seen e n).bad = false →
    ∃ v l, IsNumber s.mem .spd (s.w.cur.core * 2 ^ 21 + s.spdAddr e n) n v ∧ result v l ∧
      exec i s = .next ((s.withWorld (s.seen e n).w).due l)) ∧
  (s.w.early (s.spdAddr e n / 256) (rowsOf n) = none → (s.seen e n).bad = true →
    exec i s = .next (s.withWorld (s.consumed (s.seen e n).w 1 (s.spdAddr e n)))) ∧
  (∀ info, s.w.early (s.spdAddr e n / 256) (rowsOf n) = some info → exec i s = .next (s.withWorld (s.w.trap 9 info)))

section
variable {s : State} {e : Ea} {n t : Nat}

theorem loads_of_loadAct {i : Instr} {f : World → Nat → World} {result : Nat → List (Nat × RegW) → Prop}
    (hexec : exec i s = done s (s.loadAct (s.w.la e n) n f))
    (hf : ∀ w v, w.cur = s.w.cur → v < 2 ^ (8 * n) → ∃ l, result v l ∧ s.withWorld (f w v) = (s.withWorld w).due l) :
    s.Loads e i n result := by
  rw [la_eq_spdAddr] at hexec
  refine ⟨fun hearly hbad => ?_, fun hearly hbad => ?_, fun info hearly => ?_⟩
  · have hcur : (s.seen e n).w.cur = s.w.cur := look_cur ..
    have hnum := isNumber_num s.mem .spd (spdAt s.w.cur.core (s.spdAddr e n)) n
    obtain ⟨l, hl, hdue⟩ := hf _ _ hcur hnum.1
    have hact : s.loadAct (s.spdAddr e n) n f = only (f (s.seen e n).w (s.spd s.w.cur.core (s.spdAddr e n) n)) := by
      rw [State.loadAct, hearly]
      exact if_neg (by rw [World.counted, ← State.seen, hbad]; exact Bool.false_ne_true)
    exact ⟨_, l, spdAt_spdAddr s e n s.w.cur.core ▸ hnum, hl, by rw [hexec, hact, ← hdue]; rfl⟩
  · have hact : s.loadAct (s.spdAddr e n) n f = only (s.consumed (s.seen e n).w 1 (s.spdAddr e n)) := by
      rw [State.loadAct, hearly]
      exact if_pos hbad
    rw [hexec, hact]
    rfl
  · rw [hexec, State.loadAct, hearly]
    rfl

/-- A posted scalar is due at the level of the slot. -/
theorem wrS_due {w : World} (hw : w.cur = s.w.cur) (lat : Nat) (v : Word) :
    s.withWorld (w.wrS lat t v) = (s.withWorld w).due [(lat, s.scalar t v)] := by
  rw [State.scalar, ← hw]
  rfl
theorem loads_lds {z : MSize} (sx : Bool) (hz : z ≠ .b16) : s.Loads e (.lds z sx t e) z.bytes (fun v l =>
    l = [(4, s.scalar t (if sx then BitVec.ofInt 64 (signed (8 * z.bytes) v) else BitVec.ofNat 64 v))]) := by
  refine loads_of_loadAct rfl fun w v hw hv => ⟨_, rfl, ?_⟩
  have hloaded : w.loaded 4 z sx t v =
      w.wrS 4 t (if sx then BitVec.ofInt 64 (signed (8 * z.bytes) v) else BitVec.ofNat 64 v) := by
    rw [World.loaded, Nat.mod_eq_of_lt hv]
    · rfl
    · exact fun h => hz h
  rw [hloaded, wrS_due hw]
theorem loads_lds_pair (sx : Bool) : s.Loads e (.lds .b16 sx t e) 16 (fun v l =>
    l = [(4, s.scalar t (BitVec.ofNat 64 (v % 2 ^ 64))), (4, s.scalar (t + 1) (BitVec.ofNat 64 (v / 2 ^ 64)))]) := by
  refine loads_of_loadAct rfl fun w v hw _ => ⟨_, rfl, ?_⟩
  have hlow : BitVec.ofNat 64 (v % 2 ^ 64) = BitVec.ofNat 64 v := BitVec.eq_of_toNat_eq (by simp)
  have hpair := due_due (s.withWorld w) [(4, s.scalar t (BitVec.ofNat 64 v))] [(4, s.scalar (t + 1) (BitVec.ofNat 64 (v / 2 ^ 64)))]
  rw [hlow, ← List.singleton_append, ← hpair, ← wrS_due hw]
  exact wrS_due (s := s) (w := w.wrS 4 t (BitVec.ofNat 64 v)) hw 4 _
theorem loads_ldv : s.Loads e (.ldv t e) 1024 (fun v l => l = [(5, .v t (BitVec.ofNat 8192 v) (BitVec.allOnes 8192))]) :=
  loads_of_loadAct rfl fun _ _ _ _ => ⟨_, rfl, rfl⟩
theorem row_bits : 8 * 256 = 2048 := rfl
theorem lane_rowAt {j k v : Nat} (hv : v < 2 ^ 2048) (hj : j < 4) : lane 256 j (rowAt k v) = if j = k then v else 0 := by
  rw [rowAt, Nat.mod_eq_of_lt hv]
  exact lane_single hj (row_bits ▸ hv)
theorem loads_ldr {k : Nat} : s.Loads e (.ldr k t e) 256 (fun v l => ∃ x m : Line, l = [(5, .v t x m)] ∧
    ∀ j < 4, lane 256 j x = (if j = k then v else 0) ∧ lane 256 j m = if j = k then 2 ^ 2048 - 1 else 0) := by
  have hones : 2 ^ 2048 - 1 < 2 ^ 2048 := Nat.sub_one_lt (pow_ne_zero _ two_ne_zero)
  refine loads_of_loadAct rfl fun w v _ hv => ⟨_, ⟨rowAt k v, _, rfl, fun j hj => ⟨lane_rowAt ?_ hj, lane_rowAt hones hj⟩⟩, rfl⟩
  rwa [row_bits] at hv
theorem loads_ldb {z : MSize} : s.Loads e (.ldb z t e) z.bytes (fun v l => ∃ x : Line, l = [(5, .v t x (BitVec.allOnes 8192))] ∧
    ∀ j < 1024 / z.bytes, lane z.bytes j x = v) := by
  have hbytes : 8 * z.bytes * (1024 / z.bytes) = 8192 := by cases z <;> rfl
  exact loads_of_loadAct rfl fun w v hw hv =>
    ⟨_, ⟨repeated z.bytes v, rfl, fun j hj => (lane_repeated hbytes hj v).trans (Nat.mod_eq_of_lt hv)⟩, rfl⟩
end

/-! ## What reading some words of a row leaves (R172, R173, R178, R180, R181) -/

section
variable {w : World} {k row : Nat} {ws : List Nat}

/-- A course that has lost no two bricks has no lost row. -/
theorem rowLost_false {c : Core} (h : (c.health (row / 256)).bricks.length < 2) : c.rowLost row = false := by
  simp only [Core.rowLost, rowCourse, Course.lost, Nat.not_le.mpr h, decide_false, Bool.false_and]
theorem rowLost_of_rowFailed {c : Core} (h : c.rowFailed row = false) : c.rowLost row = false := by
  rw [Core.rowLost, h, Bool.and_false]
theorem lookWords_poisoned (h : row ∈ (w.core k).poison) : w.lookWords k row ws = { w := w.poisonRow k row, bad := true } := by
  simp [World.lookWords, h]
/-- A row that its cycle serves by reconstruction is not read itself. -/
theorem lookWords_rebuilt (hp : row ∉ (w.core k).poison) (hl : (w.core k).rowLost row = false) (hr : row ∈ (w.core k).rebuilds) :
    w.lookWords k row ws = { w := w, bad := false } := by
  simp [World.lookWords, hp, hl, hr]

section
variable (hp : row ∉ (w.core k).poison) (hr : row ∉ (w.core k).rebuilds)
include hp hr

theorem lookWords_failed (hl : (w.core k).rowLost row = false) (hf : (w.core k).rowFailed row = true)
    (hrest : w.faultyRest k row = false) :
    w.lookWords k row ws = { w := (w.rebuilt k).mendRest k row ws, bad := false } := by
  simp [World.lookWords, hp, hl, hr, hf, hrest]
theorem lookWords_single (hf : (w.core k).rowFailed row = false)
    (hd : hasDouble (pickWords ws (w.errsAt (.row k row))) = false) : w.lookWords k row ws =
      { w := (w.corrected k (pickWords ws (w.errsAt (.row k row))).length).worn k row (pickWords ws (w.errsAt (.row k row))).length,
        bad := false } := by
  simp [World.lookWords, hp, rowLost_of_rowFailed hf, hr, hf, hd]
/-- A double error of a fresh line of a healthy course is put right by reconstruction, with every other error of its row. -/
theorem lookWords_double (hf : (w.core k).rowFailed row = false) (hd : hasDouble (pickWords ws (w.errsAt (.row k row))) = true)
    (hb : ((w.core k).health (row / 256)).bricks = []) (hs : row / 4 ∉ (w.core k).stale) (hrest : w.faultyRest k row = false) :
    w.lookWords k row ws = { w := (((w.clearErrs (.row k row)).corrected k (w.errsAt (.row k row)).length).worn k row
      (w.errsAt (.row k row)).length).mendRest k row (wordSpan 0 256), bad := false } := by
  simp [World.lookWords, hp, rowLost_of_rowFailed hf, hr, hf, hd, rowCourse, rowLine, Course.degraded, hb, hs, hrest]
theorem lookWords_stale (hf : (w.core k).rowFailed row = false) (hd : hasDouble (pickWords ws (w.errsAt (.row k row))) = true)
    (hs : row / 4 ∈ (w.core k).stale) : w.lookWords k row ws = { w := w.poisonRow k row, bad := true } := by
  simp [World.lookWords, hp, rowLost_of_rowFailed hf, hr, hf, hd, rowLine, hs]
end

/-! What corrections change: the counts of the core, of its die and of the error rates, and no error. -/

theorem fixed_core (n j : Nat) : (w.fixed k n).core j = w.core j := (fixed_aside ..).core j
theorem worn_core (n j : Nat) : (w.worn k row n).core j = w.core j := by
  unfold World.worn
  split <;> rfl
@[simp] theorem corrected_zero : w.corrected k 0 = w := rfl
@[simp] theorem worn_zero : w.worn k row 0 = w := rfl
theorem corrected_core {n : Nat} (hn : n ≠ 0) : (w.corrected k n).core k = (w.core k).count 0x22 n := by
  have hn : (n == 0) = false := by simpa using hn
  rw [World.corrected, hn, if_neg Bool.false_ne_true, fixed_core, World.count, core_modCore_same]
theorem errsAt_clean (h : w.softErrs = []) (t : ErrSite) : w.errsAt t = [] := by rw [World.errsAt, h]; rfl
/-- Where no error is, a reconstruction corrects none. -/
theorem mendRest_clean (h : w.softErrs = []) : w.mendRest k row ws = w := by
  simp [World.mendRest, World.restErrs, errsAt_clean h, pickWords, singles]
theorem clearErrs_ne (t : ErrSite) : ∀ e ∈ (w.clearErrs t).softErrs, e.1 ≠ t := by
  intro e he
  simpa using (List.mem_filter.mp he).2
theorem errsAt_all {t : ErrSite} (h : ∀ e ∈ w.softErrs, e.1 = t) : w.errsAt t = w.softErrs.map (·.2) := by
  rw [World.errsAt, ← List.filterMap_eq_map]
  exact List.filterMap_congr fun e he => if_pos (h e he)
theorem poisonRow_poison : row ∈ ((w.poisonRow k row).core k).poison := by
  rw [World.poisonRow, core_modCore_same]
  exact mem_sadd.2 (.inr rfl)
end

/-! ## The loads together -/

/-- Settles O12: each form by its result, each read of a row by the state that it finds. -/
theorem scratchpadLoads : Obligations.ScratchpadLoads := by
  refine ⟨fun s z sx t k e => ⟨loads_lds sx, loads_lds_pair sx, loads_ldv, fun _ => loads_ldr, loads_ldb⟩, fun w k row lo n => ?_⟩
  have hclean : w.softErrs = [] → w.mendRest k row (wordSpan lo n) = w := mendRest_clean
  refine ⟨fun he hp hc => Sound.lookWords ⟨he, hp, hc⟩ .., lookWords_poisoned, fun hp hr hb => lookWords_rebuilt hp (rowLost_false hb) hr,
    fun hp hr hf hb hrest => lookWords_failed hp hr (rowLost_false hb) hf hrest, hclean, fun hp hr hf hd hne => ?_,
    fun hp hr hf hd hb hs hrest => ?_, fun hp hr hf hd hs => ?_⟩
  · rw [World.lookRow, lookWords_single hp hr hf hd]
    exact ⟨rfl, (worn_core ..).trans (corrected_core (mt List.length_eq_zero_iff.mp hne))⟩
  · rw [World.lookRow, lookWords_double hp hr hf hd hb hs hrest]
    have herrs (n : Nat) := ((worn_mended _ k row n).after (corrected_mended (w.clearErrs (.row k row)) k n)).softErrs
    refine ⟨rfl, fun e he => clearErrs_ne _ e (herrs _ ▸ (mendRest_mended ..).softErrs ▸ he), fun hall => ?_⟩
    have hlen : (w.errsAt (.row k row)).length = w.softErrs.length := by rw [errsAt_all hall, List.length_map]
    have hnone : (w.clearErrs (.row k row)).softErrs = [] := List.filter_eq_nil_iff.2 fun e he => by simpa using hall e he
    have hsome : w.softErrs.length ≠ 0 := by
      intro h0
      rw [errsAt_clean (List.length_eq_zero_iff.1 h0)] at hd
      cases hd
    rw [mendRest_clean ((herrs _).trans hnone), worn_core, hlen, corrected_core hsome]
    rfl
  · rw [World.lookRow, lookWords_stale hp hr hf hd hs]
    exact ⟨rfl, poisonRow_poison⟩
end Sys2Proof.Machine
end

/-! SUPPORT. Writes to the scratchpad and to its parity: their bytes, and what they leave of the world (R172, R176, R179). -/
section
namespace Sys2Proof.Machine
open Sys2Proof

/-! ## Writes to a memory -/

theorem byte_written (m : Mems) (sp : Space) (a i : Nat) (bs : List Byte) (h : i < bs.length) :
    (m.apply (.bytes sp a bs)).byte sp (a + i) = bs[i] := by
  simp only [Mems.apply, Mems.byte, cells_setCells_same]
  exact cellAt_writeBytes_in h
theorem byte_written_other {sp sp' : Space} (h : sp' ≠ sp) (m : Mems) (a x : Nat) (bs : List Byte) :
    (m.apply (.bytes sp' a bs)).byte sp x = m.byte sp x := by
  simp only [Mems.byte, apply_cells_other (x := .bytes sp' a bs) h]
theorem IsNumber.congr {m m' : Mems} {sp : Space} {a n v : Nat} (h : IsNumber m sp a n v)
    (hb : ∀ x, m'.byte sp x = m.byte sp x) : IsNumber m' sp a n v :=
  ⟨h.1, fun i hi => (h.2 i hi).trans (by rw [hb])⟩
theorem SameBut.append {m m' m'' : Mems} {r r' : List (Space × Nat × Nat)} (h : SameBut m m' r) (h' : SameBut m' m'' r') :
    SameBut m m'' (r ++ r') := fun sp b hb =>
  (h' sp b fun e he => hb e (List.mem_append_right _ he)).trans (h sp b fun e he => hb e (List.mem_append_left _ he))
/-- Ranges may be given wider. -/
theorem SameBut.mono {m m' : Mems} {r r' : List (Space × Nat × Nat)} (h : SameBut m m' r)
    (hr : ∀ e ∈ r, ∃ e' ∈ r', e'.1 = e.1 ∧ e'.2.1 ≤ e.2.1 ∧ e.2.1 + e.2.2 ≤ e'.2.1 + e'.2.2) : SameBut m m' r' := by
  refine fun sp b hb => h sp b fun e he hin => ?_
  obtain ⟨e', he', h1, h2, h3⟩ := hr e he
  exact hb e' he' ⟨h1.trans hin.1, by omega, by omega⟩

/-! ## Parity (R176) -/

theorem xorBytes_eq_zipWith {a b : List Byte} (h : a.length = b.length) : xorBytes a b = List.zipWith (· ^^^ ·) a b := by
  induction a generalizing b with
  | nil => obtain rfl : b = [] := List.length_eq_zero_iff.1 h.symm; rfl
  | cons x xs ih =>
    obtain ⟨y, ys, rfl⟩ := List.exists_cons_of_length_eq_add_one h.symm
    exact congrArg _ (ih (by simpa using h))
section
variable {bs : List Byte} (h : bs.length = 1024)
include h

theorem parity_eq : parity bs = List.zipWith (· ^^^ ·) (List.zipWith (· ^^^ ·) (bs.take 256) ((bs.drop 256).take 256))
    (List.zipWith (· ^^^ ·) ((bs.drop 512).take 256) ((bs.drop 768).take 256)) := by
  rw [parity, xorBytes_eq_zipWith (a := bs.take 256) (by simp [h]), xorBytes_eq_zipWith (a := (bs.drop 512).take 256) (by simp [h]),
    xorBytes_eq_zipWith (by simp [h])]
theorem parity_length : (parity bs).length = 256 := by simp [parity_eq h, h]
/-- A byte of a line's parity row is the exclusive-or of the four rows' bytes. -/
theorem parity_getElem (i : Nat) (hi : i < 256) : (parity bs)[i]'(by rw [parity_length h]; exact hi) =
    bs[i] ^^^ bs[256 + i] ^^^ bs[512 + i] ^^^ bs[768 + i] := by
  rw [List.getElem_of_eq (parity_eq h), List.getElem_zipWith, List.getElem_zipWith, List.getElem_zipWith]
  simp only [List.getElem_take, List.getElem_drop, BitVec.xor_assoc]
end

/-! ## What is written (R170, R176, R179) -/

/-- The bytes of a parity row that a covered write changes: each by the exclusive-or of the old byte and the new. -/
def mortarAfter (m : Mems) (k la : Nat) (bs : List Byte) : List Byte :=
  xorBytes (m.bytes .mortar (mortarOf k la) bs.length) (xorBytes (m.bytes .spd (spdAt k la) bs.length) bs)
/-- The writes of a covered write of at most a row: its bytes, and the parity row's. -/
def coveredWrites (m : Mems) (k la : Nat) (bs : List Byte) : List MemW :=
  [.bytes .spd (spdAt k la) bs, .bytes .mortar (mortarOf k la) (mortarAfter m k la bs)]
/-- The writes of a whole line: its bytes and their parity. -/
def lineWrites (k line : Nat) (bs : List Byte) : List MemW :=
  [.bytes .spd (spdAt k (line * 1024)) bs, .bytes .mortar (mortarOf k (line * 1024)) (parity bs)]

section
variable (m : Mems) (k la line : Nat) {bs : List Byte}

theorem mortarAfter_eq : mortarAfter m k la bs = List.zipWith (· ^^^ ·) (m.bytes .mortar (mortarOf k la) bs.length)
    (List.zipWith (· ^^^ ·) (m.bytes .spd (spdAt k la) bs.length) bs) := by
  rw [mortarAfter, xorBytes_eq_zipWith, xorBytes_eq_zipWith] <;> simp [xorBytes_eq_zipWith, bytes_length]
theorem mortarAfter_length : (mortarAfter m k la bs).length = bs.length := by simp [mortarAfter_eq, bytes_length]
theorem mortarAfter_getElem (j : Nat) (hj : j < bs.length) : (mortarAfter m k la bs)[j]'(by rwa [mortarAfter_length]) =
    m.byte .mortar (mortarOf k la + j) ^^^ m.byte .spd (spdAt k la + j) ^^^ bs[j] := by
  simp only [mortarAfter_eq, List.getElem_zipWith, bytes_getElem, BitVec.xor_assoc]
theorem coveredWrites_spd (x : Nat) :
    (m.applyAll (coveredWrites m k la bs)).byte .spd x = (m.apply (.bytes .spd (spdAt k la) bs)).byte .spd x :=
  byte_written_other (sp := .spd) (sp' := .mortar) (by decide) ..
theorem coveredWrites_mortar (j : Nat) (hj : j < bs.length) : (m.applyAll (coveredWrites m k la bs)).byte .mortar (mortarOf k la + j) =
    m.byte .mortar (mortarOf k la + j) ^^^ m.byte .spd (spdAt k la + j) ^^^
      (m.applyAll (coveredWrites m k la bs)).byte .spd (spdAt k la + j) := by
  rw [coveredWrites_spd, byte_written _ _ _ _ _ hj]
  exact (byte_written _ .mortar _ j (mortarAfter m k la bs) (by rwa [mortarAfter_length])).trans (mortarAfter_getElem m k la j hj)
theorem coveredWrites_sameBut : SameBut m (m.applyAll (coveredWrites m k la bs))
    [(.spd, spdAt k la, bs.length), (.mortar, mortarOf k la, bs.length)] := by
  have h := (sameBut_written m .spd (spdAt k la) bs).append (sameBut_written _ .mortar (mortarOf k la) (mortarAfter m k la bs))
  rwa [mortarAfter_length] at h

theorem lineWrites_spd (x : Nat) :
    (m.applyAll (lineWrites k line bs)).byte .spd x = (m.apply (.bytes .spd (spdAt k (line * 1024)) bs)).byte .spd x :=
  byte_written_other (sp := .spd) (sp' := .mortar) (by decide) ..
section
variable (h : bs.length = 1024)
include h
theorem lineWrites_sameBut : SameBut m (m.applyAll (lineWrites k line bs))
    [(.spd, spdAt k (line * 1024), 1024), (.mortar, mortarOf k (line * 1024), 256)] := by
  have hboth := (sameBut_written m .spd (spdAt k (line * 1024)) bs).append (sameBut_written _ .mortar (mortarOf k (line * 1024)) (parity bs))
  rw [h, parity_length h] at hboth
  exact hboth
/-- A parity row written as that of a line whose bytes stand at an address. -/
theorem parity_written (m' : Mems) (a x : Nat) (hb : ∀ i (hi : i < bs.length), bs[i] = m.byte .spd (a + i)) (i : Nat) (hi : i < 256) :
    (m'.apply (.bytes .mortar x (parity bs))).byte .mortar (x + i) = m.byte .spd (a + i) ^^^ m.byte .spd (a + 256 + i) ^^^
      m.byte .spd (a + 512 + i) ^^^ m.byte .spd (a + 768 + i) := by
  rw [byte_written _ _ _ _ _ (by rw [parity_length h]; exact hi), parity_getElem h i hi]
  simp only [hb, Nat.add_assoc]
theorem lineWrites_mortar (i : Nat) (hi : i < 256) : let u := m.applyAll (lineWrites k line bs)
    u.byte .mortar (mortarOf k (line * 1024) + i) = u.byte .spd (spdAt k (line * 1024) + i) ^^^
      u.byte .spd (spdAt k (line * 1024) + 256 + i) ^^^ u.byte .spd (spdAt k (line * 1024) + 512 + i) ^^^
      u.byte .spd (spdAt k (line * 1024) + 768 + i) := by
  refine parity_written _ h _ _ _ (fun j hj => ?_) i hi
  rw [lineWrites_spd, byte_written _ _ _ _ _ hj]
end
end

/-! ## What a write leaves of the world (R172, R178) -/

/-- What the service of a scratchpad may change of its core: the counts of the cycle, poison, stale lines, marks and seals. -/
def Core.shelfOnly (c d : Core) : Prop :=
  { d with evq := c.evq, poison := c.poison, staleQ := c.staleQ, stale := c.stale, marks := c.marks, seals := c.seals } = c
/-- One core's scratchpad has been served: every other core is as it was, and no gang, nothing in flight and nothing of the slot changes. -/
structure Served (k : Nat) (w v : World) : Prop where
  others : ∀ j, j ≠ k → v.core j = w.core j
  core : (w.core k).shelfOnly (v.core k)
  gangs : v.gangs = w.gangs
  flights : v.flights = w.flights
  cur : v.cur = w.cur
  now : v.now = w.now
  abort : v.abort = w.abort
namespace Core.shelfOnly
section
variable {b c d : Core}
theorem refl (c : Core) : c.shelfOnly c := rfl
theorem trans (h : b.shelfOnly c) (k : c.shelfOnly d) : b.shelfOnly d := by
  unfold Core.shelfOnly at *
  rw [← h, ← k]
variable (h : c.shelfOnly d)
include h
theorem eq : { d with evq := c.evq, poison := c.poison, staleQ := c.staleQ, stale := c.stale, marks := c.marks, seals := c.seals } = c := h
theorem ctx : d.ctx = c.ctx := (congrArg Core.ctx h.eq :)
theorem courses : d.courses = c.courses := (congrArg Core.courses h.eq :)
theorem amos : d.amos = c.amos := (congrArg Core.amos h.eq :)
theorem sweep : d.sweep = c.sweep := (congrArg Core.sweep h.eq :)
theorem registers : SameRegisters c d := by
  have hfields := h.eq
  rw [Core.mk.injEq] at hfields
  simp_all [SameRegisters]
end
end Core.shelfOnly
namespace Served
theorem refl (k : Nat) (w : World) : Served k w w := ⟨fun _ _ => rfl, .refl _, rfl, rfl, rfl, rfl, rfl⟩
theorem after {k : Nat} {u v w : World} (g : Served k v w) (h : Served k u v) : Served k u w :=
  ⟨fun j hj => (g.others j hj).trans (h.others j hj), h.core.trans g.core, g.gangs.trans h.gangs, g.flights.trans h.flights,
    g.cur.trans h.cur, g.now.trans h.now, g.abort.trans h.abort⟩
theorem foldl {α : Type} {k : Nat} {f : World → α → World} (hf : ∀ w x, Served k w (f w x)) (l : List α) (w : World) :
    Served k w (l.foldl f w) := by
  induction l generalizing w with
  | nil => exact refl k w
  | cons x r ih => exact (ih _).after (hf w x)
/-- Nothing of any core changes. -/
theorem of_cores {k : Nat} {w v : World} (hc : v.cores = w.cores) (hg : v.gangs = w.gangs) (hf : v.flights = w.flights)
    (hcur : v.cur = w.cur) (hn : v.now = w.now) (ha : v.abort = w.abort) : Served k w v := by
  have hcore (j : Nat) : v.core j = w.core j := by rw [World.core, hc]; rfl
  exact ⟨fun j _ => hcore j, by rw [hcore]; exact .refl _, hg, hf, hcur, hn, ha⟩
end Served
theorem modCore_served {w : World} {k : Nat} {f : Core → Core} (hf : (w.core k).shelfOnly (f (w.core k))) : Served k w (w.modCore k f) :=
  ⟨fun _ hj => core_modCore_other _ _ _ _ hj, by rwa [core_modCore_same], rfl, rfl, rfl, rfl, rfl⟩

section
variable (w : World) (k row : Nat) (ws : List Nat)

theorem count_served (src n : Nat) : Served k w (w.count k src n) := modCore_served rfl
theorem countDie_served (d src ten n : Nat) : Served k w (w.countDie d src ten n) := .of_cores rfl rfl rfl rfl rfl rfl
theorem clearErrs_served (t : ErrSite) : Served k w (w.clearErrs t) := .of_cores rfl rfl rfl rfl rfl rfl
theorem fixed_served (n : Nat) : Served k w (w.fixed k n) := by
  unfold World.fixed
  split <;> exact .of_cores rfl rfl rfl rfl rfl rfl
theorem corrected_served (n : Nat) : Served k w (w.corrected k n) := by
  unfold World.corrected
  split
  · exact .refl k w
  · exact (fixed_served ..).after (count_served ..)
theorem worn_served (n : Nat) : Served k w (w.worn k row n) := by
  unfold World.worn
  split <;> exact .of_cores rfl rfl rfl rfl rfl rfl
theorem mendRest_served : Served k w (w.mendRest k row ws) := (corrected_served ..).after (.foldl (fun _ _ => worn_served ..) _ _)
theorem poisonRow_served : Served k w (w.poisonRow k row) := modCore_served rfl
theorem lookWords_served : Served k w (w.lookWords k row ws).w := by
  unfold World.lookWords
  dsimp only
  split
  · exact poisonRow_served ..
  split
  · exact .refl k w
  split
  · split
    · exact poisonRow_served ..
    · exact (mendRest_served ..).after ((countDie_served ..).after (count_served ..))
  split
  · split
    · exact poisonRow_served ..
    · exact (mendRest_served ..).after ((worn_served ..).after ((corrected_served ..).after (clearErrs_served ..)))
  · exact (worn_served ..).after (corrected_served ..)
theorem quietRead_served : Served k w (w.quietRead k row ws) := by
  unfold World.quietRead
  dsimp only
  split
  · exact (corrected_served ..).after (worn_served ..)
  · exact lookWords_served ..
theorem writeMends_served (lo n : Nat) (covered : Bool) : Served k w (w.writeMends k row lo n covered) := by
  have hown : Served k w (if covered || n < 4 then w.quietRead k row (wordSpan lo n) else w) := by
    split
    · exact quietRead_served ..
    · exact .refl k w
  unfold World.writeMends
  split
  · exact mendRest_served ..
  · dsimp only
    split
    · exact (corrected_served ..).after hown
    · exact hown
theorem wroteRow_served (lo n : Nat) : Served k w (w.wroteRow k row lo n) := by
  have hfilter (p : ErrSite × Bool × Nat → Bool) : Served k w { w with softErrs := w.softErrs.filter p } := .of_cores rfl rfl rfl rfl rfl rfl
  unfold World.wroteRow
  dsimp only
  split
  · exact (modCore_served (by exact rfl)).after (hfilter _)
  · exact hfilter _
theorem wroteMortar_served (line lo n : Nat) (whole : Bool) : Served k w (w.wroteMortar k line lo n whole) :=
  .of_cores rfl rfl rfl rfl rfl rfl
end

theorem mark_shelfOnly (c : Core) (line : Nat) : c.shelfOnly (c.mark line) := by
  unfold Core.mark
  split <;> rfl
theorem freshen_shelfOnly (c : Core) (line : Nat) : c.shelfOnly (c.freshen line) := rfl
theorem makeStale_shelfOnly (c : Core) (line ttc hcyc : Nat) : c.shelfOnly (c.makeStale line ttc hcyc) := rfl

end Sys2Proof.Machine
end

/-! SUPPORT. Scratchpad stores (R176, R179, R182) settle O13. -/
section
namespace Sys2Proof.Machine
open Sys2Proof

/-! ## A core without a failed brick (R180) -/

section
variable {c : Core} (hc : c.courses = [])
include hc
theorem health_whole (course : Nat) : c.health course = Course.healthy := by rw [Core.health, hc, fget_nil]
theorem rowFailed_whole (row : Nat) : c.rowFailed row = false := by rw [Core.rowFailed, health_whole hc]; rfl
theorem rowLost_whole (row : Nat) : c.rowLost row = false := rowLost_of_rowFailed (rowFailed_whole hc row)
theorem keepLost_whole (k line : Nat) (m : Mems) {bs : List Byte} (h : bs.length = 1024) : keepLost c k line m bs = bs := by
  have hsplit (a : Nat) : (bs.drop a).take 256 ++ bs.drop (a + 256) = bs.drop a := by
    rw [← List.drop_drop, List.take_append_drop]
  have hlast : bs.drop 1024 = [] := List.drop_eq_nil_of_le h.le
  have hrows : keepLost c k line m bs = bs.take 256 ++ ((bs.drop 256).take 256 ++ ((bs.drop 512).take 256 ++
      ((bs.drop 768).take 256 ++ bs.drop 1024))) := by
    simp [keepLost, rowLost_whole hc, List.range_succ, hlast]
  rw [hrows, hsplit 768, hsplit 512, hsplit 256, List.take_append_drop]
end

/-! ## Writes of at most a row (R176, R179) -/

theorem clearErrs_hub (w : World) (t : ErrSite) : (w.clearErrs t).hub = w.hub := rfl
theorem clearErrs_core (w : World) (t : ErrSite) (k : Nat) : (w.clearErrs t).core k = w.core k := rfl

theorem wroteRow_hub (w : World) (row lo n : Nat) : (w.wroteRow k row lo n).hub = w.hub := by
  unfold World.wroteRow
  dsimp only
  split <;> rfl
theorem wroteRow_stale (w : World) (k row lo n j : Nat) : ((w.wroteRow k row lo n).core j).stale = (w.core j).stale := by
  unfold World.wroteRow
  dsimp only
  split
  · rcases eq_or_ne j k with rfl | hj
    · rw [core_modCore_same]
      rfl
    · rw [core_modCore_other _ _ _ _ hj]
      rfl
  · rfl
/-- What the write of one row leaves, the writes of several leave. -/
theorem foldl_wroteRow_eq {α : Type} (f : World → α) {k : Nat} {row : Nat → Nat} (hf : ∀ w b, f (w.wroteRow k (row b) 0 256) = f w)
    (l : List Nat) (w : World) : f (l.foldl (fun w b => w.wroteRow k (row b) 0 256) w) = f w := by
  induction l generalizing w with
  | nil => rfl
  | cons b r ih => exact (ih _).trans (hf w b)
/-- The world after a write of some bytes of a row, before its line becomes stale or its parity is written. -/
def World.rowWritten (w : World) (k la n : Nat) (covered : Bool) : World :=
  ((w.writeMends k (la / 256) (la % 256) n covered).modCore k (fun c => c.mark (rowLine (la / 256)))).wroteRow k (la / 256) (la % 256) n
theorem rowWritten_served (w : World) (k la n : Nat) (covered : Bool) : Served k w (w.rowWritten k la n covered) :=
  (wroteRow_served ..).after ((modCore_served (mark_shelfOnly ..)).after (writeMends_served ..))

section
variable {s : State} {k : Nat} (la : Nat) (bs : List Byte) (n : Nat)

section
variable (hc : (s.w.core k).courses = [])
include hc
/-- A covered write: its bytes and their parity. -/
theorem storeRowN_covered : s.storeRowN k la bs false n =
    { w := (s.w.rowWritten k la bs.length true).wroteMortar k (rowLine (la / 256)) (la % 256) bs.length false,
      out := coveredWrites s.mem k la bs } := by
  simp [State.storeRowN, rowLost_whole hc, rowFailed_whole hc, health_whole hc, Course.healthy, Course.lost, coveredWrites, mortarAfter,
    World.rowWritten]
/-- A bulk write: its bytes alone; its line is stale from the end of the cycle. -/
theorem storeRowN_bulk : s.storeRowN k la bs true n =
    { w := (((s.w.rowWritten k la bs.length false).modCore k (fun c => c.makeStale (rowLine (la / 256)) (s.w.gangAt k).ttc
        (s.w.gangAt k).hcyc)).count k 0x24 n).countDie (dieOf k) 0x05 ((s.w.rowWritten k la bs.length false).tenOf k) n,
      out := [.bytes .spd (spdAt k la) bs] } := by
  simp [State.storeRowN, rowLost_whole hc, health_whole hc, Course.healthy, Course.degraded, World.rowWritten]
theorem storeRowN_served (bulk : Bool) : Served k s.w (s.storeRowN k la bs bulk n).w := by
  cases bulk with
  | false =>
    rw [storeRowN_covered la bs n hc]
    exact (wroteMortar_served ..).after (rowWritten_served ..)
  | true =>
    rw [storeRowN_bulk la bs n hc]
    exact (countDie_served ..).after ((count_served ..).after ((modCore_served (makeStale_shelfOnly ..)).after (rowWritten_served ..)))
theorem storeRowN_bulk_staleQ : la / 1024 ∈ ((s.storeRowN k la bs true n).w.core k).staleQ := by
  rw [storeRowN_bulk la bs n hc, World.countDie, modDie_core, World.count, core_modCore_same, core_modCore_same, rowLine, Nat.div_div_eq_div_mul]
  exact mem_sadd.2 (.inr rfl)
end

/-! Where no error is known, a write puts nothing right and the hub has nothing to count. -/

theorem Sound.quietRead {w : World} (h : Sound w k) (row : Nat) (ws : List Nat) : w.quietRead k row ws = w := by
  rw [World.quietRead, h.lookWords]
  rfl
theorem Sound.writeMends {w : World} (h : Sound w k) (row lo m : Nat) (covered : Bool) : w.writeMends k row lo m covered = w := by
  have hm : singles (inWords lo m (w.errsAt (.mortar k (rowLine row)))) = [] := by rw [errsAt_clean h.softErrs]; rfl
  simp [World.writeMends, h.quietRead, rowFailed_whole h.courses, hm]
theorem Sound.rowWritten_hub {w : World} (h : Sound w k) (m : Nat) (covered : Bool) : (w.rowWritten k la m covered).hub = w.hub := by
  rw [World.rowWritten, h.writeMends, wroteRow_hub]
  rfl
theorem storeRowN_hub (h : Sound s.w k) (bulk : Bool) : (s.storeRowN k la bs bulk n).w.hub = s.w.hub := by
  cases bulk with
  | false =>
    rw [storeRowN_covered la bs n h.courses]
    exact h.rowWritten_hub ..
  | true =>
    rw [storeRowN_bulk la bs n h.courses]
    exact h.rowWritten_hub ..
end

/-! ## Writes of a whole line (R179) -/

section
variable {s : State} {k : Nat} (line : Nat) {bs : List Byte} (hc : (s.w.core k).courses = []) (h : bs.length = 1024)
include hc h
theorem storeLine_whole : s.storeLine k (line * 1024) bs =
    { w := (((List.range 4).foldl (fun w b => w.wroteRow k (line * 4 + b) 0 256)
        (s.w.modCore k (fun c => (c.mark line).freshen line)))).clearErrs (.mortar k line),
      out := lineWrites k line bs } := by
  have hall : (List.range 4).filter (fun b => !(s.w.core k).rowLost (line * 4 + b)) = List.range 4 := by
    simp [rowLost_whole hc]
  have hline : line * 1024 / 1024 = line := Nat.mul_div_cancel _ (by decide)
  simp only [State.storeLine, hline, hall, keepLost_whole hc _ _ _ h, health_whole hc]
  rfl
theorem storeLine_served : Served k s.w (s.storeLine k (line * 1024) bs).w := by
  rw [storeLine_whole line hc h]
  exact (clearErrs_served ..).after ((Served.foldl (fun _ _ => wroteRow_served ..) _ _).after
    (modCore_served ((mark_shelfOnly ..).trans (freshen_shelfOnly ..))))
theorem storeLine_hub : (s.storeLine k (line * 1024) bs).w.hub = s.w.hub := by
  rw [storeLine_whole line hc h, clearErrs_hub, foldl_wroteRow_eq World.hub (fun _ _ => wroteRow_hub ..), modCore_hub]
theorem storeLine_fresh : line ∉ ((s.storeLine k (line * 1024) bs).w.core k).stale := by
  have hstale : ((s.storeLine k (line * 1024) bs).w.core k).stale = (((s.w.core k).mark line).freshen line).stale := by
    rw [storeLine_whole line hc h, clearErrs_core, foldl_wroteRow_eq (fun w => (w.core k).stale) (fun _ _ => wroteRow_stale ..),
      core_modCore_same]
  rw [hstale]
  simp [Core.freshen, sdel]
end

/-! ## The stores of a slot -/

theorem quiet_of_served {s : State} {k : Nat} {w : World} {m : Mems} (h : Served k s.w w) (hub : w.hub = s.w.hub) :
    Quiet s { w := w, mem := m } := by
  refine ⟨fun j => ?_, h.gangs, hub, h.cur, h.now, h.abort⟩
  rcases eq_or_ne j k with rfl | hj
  · exact h.core.registers
  · rw [h.others j hj]
    exact sameRegisters_refl _
theorem Sound.lookWrite {w : World} {k : Nat} (h : Sound w k) (la n : Nat) : w.lookWrite k la n = { w := w, bad := false } := by
  have hrow : w.lookRow k (la / 256) 0 256 = { w := w, bad := false } := h.lookWords ..
  simp [World.lookWrite, hrow]
theorem line_bits : 8 * 1024 = 8192 := rfl
theorem spdAddr_line (s : State) (e : Ea) : s.spdAddr e 1024 / 1024 * 1024 = s.spdAddr e 1024 := by
  rw [State.spdAddr, Nat.mul_div_cancel _ (by decide)]
/-- A parity row's byte for an address of the scratchpad. -/
theorem mortarOf_spdAddr (s : State) (e : Ea) (u k : Nat) : mortarOf k (s.spdAddr e u) =
    k * 2 ^ 19 + s.spdAddr e u / 65536 * 2 ^ 14 + s.spdAddr e u / 1024 % 64 * 2 ^ 8 + s.spdAddr e u % 256 := by
  have h := spdAddr_lt s e u
  rw [mortarOf, mortarAt, Nat.mod_eq_of_lt (show s.spdAddr e u / 65536 < 32 by omega)]

/-- Two 8-byte numbers after one another are one of 16 bytes. -/
theorem leBytes_pair (x y : Word) : leBytes 8 x.toNat ++ leBytes 8 y.toNat = leBytes 16 (x.toNat + y.toNat * 2 ^ 64) := by
  have hx : x.toNat < 2 ^ 64 := x.isLt
  refine List.ext_getElem (by simp) fun i h1 h2 => ?_
  have hi : i < 16 := by simpa using h2
  rw [leBytes_getElem]
  rcases Nat.lt_or_ge i 8 with hlow | hhigh
  · rw [List.getElem_append_left (by simpa using hlow), leBytes_getElem]
    refine BitVec.eq_of_toNat_eq ?_
    have hpow : 2 ^ 64 = 2 ^ (8 * i) * (256 * 2 ^ (56 - 8 * i)) := by
      rw [show (256 : Nat) = 2 ^ 8 from rfl, ← pow_add, ← pow_add]; congr 1; omega
    rw [hpow, show x.toNat + y.toNat * (2 ^ (8 * i) * (256 * 2 ^ (56 - 8 * i))) =
      x.toNat + 2 ^ (8 * i) * (256 * (y.toNat * 2 ^ (56 - 8 * i))) by ring, Nat.add_mul_div_left _ _ (Nat.two_pow_pos _)]
    simp
  · obtain ⟨j, rfl⟩ := Nat.exists_eq_add_of_le hhigh
    rw [List.getElem_append_right (by simp), leBytes_getElem]
    have hpow : 2 ^ (8 * (8 + j)) = 2 ^ 64 * 2 ^ (8 * j) := by rw [← pow_add]; congr 1; omega
    rw [hpow, ← Nat.div_div_eq_div_mul, Nat.add_mul_div_right _ _ (Nat.two_pow_pos _), Nat.div_eq_of_lt hx, Nat.zero_add]
    simp
theorem stored_eq (s : State) (z : MSize) (t : Nat) : s.w.stored z t = leBytes z.bytes
    (if z.bytes = 16 then (s.w.rdS t).toNat + (s.w.rdS (t + 1)).toNat * 2 ^ 64 else (s.w.rdS t).toNat) := by
  cases z with
  | b16 => exact leBytes_pair _ _
  | b1 | b2 | b4 | b8 => rfl

/-- What a store of the low `n` bytes of `v` at an address within a row does: its bytes and, where it is covered, its parity. -/
def State.StoresRow (s : State) (e : Ea) (i : Instr) (n v : Nat) (covered : Bool) : Prop :=
  let core := s.w.cur.core
  let bank (a : Nat) : Nat := core * 2 ^ 19 + a / 65536 * 2 ^ 14 + a / 1024 % 64 * 2 ^ 8 + a % 256
  let a := s.spdAddr e n
  ∃ q, exec i s = .next q ∧ Quiet s q ∧ IsNumber q.mem .spd (core * 2 ^ 21 + a) n (v % 2 ^ (8 * n)) ∧
    SameBut s.mem q.mem ((.spd, core * 2 ^ 21 + a, n) :: if covered then [(.mortar, bank a, n)] else []) ∧
    (covered = true → ∀ j < n, q.mem.byte .mortar (bank a + j) =
      s.mem.byte .mortar (bank a + j) ^^^ s.mem.byte .spd (core * 2 ^ 21 + a + j) ^^^ q.mem.byte .spd (core * 2 ^ 21 + a + j)) ∧
    (covered = false → a / 1024 ∈ q.me.staleQ)

section
variable {s : State} {e : Ea} (h : Sound s.w s.w.cur.core)
include h

theorem storeAct_sound (la : Nat) (bs : List Byte) (kind : WKind) :
    s.storeAct s.w la bs kind = State.store (s.withWorld s.w.counted) s.w.cur.core la bs kind := by
  have hlook : s.w.counted.lookWrite s.w.cur.core la bs.length = { w := s.w.counted, bad := false } := (h.counted ..).lookWrite ..
  simp only [State.storeAct, hlook]
  rfl
theorem counted_sound : Sound (s.withWorld s.w.counted).w s.w.cur.core := h.counted ..
theorem storesRow_of_storeAct {i : Instr} {n v : Nat} (bulk : Bool)
    (hexec : exec i s = done s (s.storeAct s.w (s.w.la e n) (leBytes n v) (if bulk then .bulk else .covered))) :
    s.StoresRow e i n v (!bulk) := by
  have hsound := counted_sound h
  have hstep : exec i s = .next ((s.withWorld s.w.counted).commit
      (State.storeRowN (s.withWorld s.w.counted) s.w.cur.core (s.spdAddr e n) (leBytes n v) bulk 1)) := by
    rw [hexec, la_eq_spdAddr, storeAct_sound h]
    cases bulk <;> rfl
  have hserved := (storeRowN_served (s := s.withWorld s.w.counted) (s.spdAddr e n) (leBytes n v) 1 hsound.courses bulk).after
    (count_served s.w s.w.cur.core 0x20 1)
  have hquiet := quiet_of_served (m := s.mem.applyAll (State.storeRowN (s.withWorld s.w.counted) s.w.cur.core (s.spdAddr e n)
    (leBytes n v) bulk 1).out) hserved (storeRowN_hub _ _ _ hsound bulk)
  have hnum := isNumber_written s.mem .spd (spdAt s.w.cur.core (s.spdAddr e n)) n v
  simp only [State.StoresRow, ← spdAt_spdAddr, ← mortarOf_spdAddr]
  refine ⟨_, hstep, hquiet, ?_⟩
  cases bulk with
  | false =>
    have hmem : ((s.withWorld s.w.counted).commit (State.storeRowN (s.withWorld s.w.counted) s.w.cur.core (s.spdAddr e n)
        (leBytes n v) false 1)).mem = s.mem.applyAll (coveredWrites s.mem s.w.cur.core (s.spdAddr e n) (leBytes n v)) := by
      rw [storeRowN_covered _ _ _ hsound.courses]
      rfl
    have hbut := coveredWrites_sameBut s.mem s.w.cur.core (s.spdAddr e n) (bs := leBytes n v)
    have hparity := coveredWrites_mortar s.mem s.w.cur.core (s.spdAddr e n) (bs := leBytes n v)
    rw [leBytes_length] at hbut hparity
    rw [hmem]
    exact ⟨hnum.congr fun x => coveredWrites_spd .., hbut, fun _ => hparity, fun hbulk => nomatch hbulk⟩
  | true =>
    have hmem : ((s.withWorld s.w.counted).commit (State.storeRowN (s.withWorld s.w.counted) s.w.cur.core (s.spdAddr e n)
        (leBytes n v) true 1)).mem = s.mem.apply (.bytes .spd (spdAt s.w.cur.core (s.spdAddr e n)) (leBytes n v)) := by
      rw [storeRowN_bulk _ _ _ hsound.courses]
      rfl
    have hbut := sameBut_written s.mem .spd (spdAt s.w.cur.core (s.spdAddr e n)) (leBytes n v)
    rw [leBytes_length] at hbut
    have hstale := storeRowN_bulk_staleQ (s := s.withWorld s.w.counted) (s.spdAddr e n) (leBytes n v) 1 hsound.courses
    rw [hmem]
    refine ⟨hnum, hbut, fun hcov => (nomatch hcov), fun _ => ?_⟩
    rw [State.me, commit_w, hserved.cur]
    exact hstale

theorem storesRow_sts (z : MSize) (bulk : Bool) (t : Nat) : s.StoresRow e (.sts z bulk t e) z.bytes
    (if z.bytes = 16 then (s.w.rdS t).toNat + (s.w.rdS (t + 1)).toNat * 2 ^ 64 else (s.w.rdS t).toNat) (!bulk) :=
  storesRow_of_storeAct h bulk (by rw [← stored_eq]; rfl)
theorem storesRow_str (k t : Nat) (bulk : Bool) :
    s.StoresRow e (.str k bulk t e) 256 ((s.w.rdV t).toNat / 2 ^ (2048 * k)) (!bulk) := storesRow_of_storeAct h bulk rfl
/-- STV writes its line and the line's parity anew, and the line is fresh. -/
theorem exec_stv (t : Nat) : ∃ w, exec (.stv t e) s =
      .next { w := w, mem := s.mem.applyAll (lineWrites s.w.cur.core (s.spdAddr e 1024 / 1024) (leBytes 1024 (s.w.rdV t).toNat)) } ∧
    Served s.w.cur.core s.w w ∧ w.hub = s.w.hub ∧ s.spdAddr e 1024 / 1024 ∉ (w.core s.w.cur.core).stale := by
  have hsound := counted_sound h
  have hstep : exec (.stv t e) s = .next ((s.withWorld s.w.counted).commit (State.storeLine (s.withWorld s.w.counted) s.w.cur.core
      (s.spdAddr e 1024 / 1024 * 1024) (leBytes 1024 (s.w.rdV t).toNat))) := by
    have hact : exec (.stv t e) s = done s (s.storeAct s.w (s.w.la e 1024) (leBytes 1024 (s.w.rdV t).toNat) .self) := rfl
    rw [hact, la_eq_spdAddr, storeAct_sound h, spdAddr_line]
    rfl
  have hlen := leBytes_length 1024 (s.w.rdV t).toNat
  refine ⟨_, hstep.trans ?_, (storeLine_served (s := s.withWorld s.w.counted) _ hsound.courses hlen).after (count_served ..),
    storeLine_hub (s := s.withWorld s.w.counted) _ hsound.courses hlen, storeLine_fresh _ hsound.courses hlen⟩
  rw [storeLine_whole (s := s.withWorld s.w.counted) _ hsound.courses hlen]
  rfl
end

/-- Settles O13: STS and STR write within a row, STV a line. -/
theorem scratchpadStores : Obligations.ScratchpadStores := by
  intro s z t k e
  have hsound : s.w.softErrs = [] ∧ s.me.poison = [] ∧ s.me.courses = [] → Sound s.w s.w.cur.core := fun ⟨he, hp, hc⟩ => ⟨he, hp, hc⟩
  refine ⟨fun hc => ⟨storesRow_sts (hsound hc) z false t, storesRow_sts (hsound hc) z true t⟩,
    fun hc => ⟨storesRow_str (hsound hc) k t false, storesRow_str (hsound hc) k t true⟩, fun hc => ?_⟩
  obtain ⟨w, hexec, hserved, hhub, hfresh⟩ := exec_stv (e := e) (hsound hc) t
  have hlen := leBytes_length 1024 (s.w.rdV t).toNat
  have hnum := isNumber_written s.mem .spd (spdAt s.w.cur.core (s.spdAddr e 1024)) 1024 (s.w.rdV t).toNat
  have hbut := lineWrites_sameBut s.mem s.w.cur.core (s.spdAddr e 1024 / 1024) hlen
  have hparity := lineWrites_mortar s.mem s.w.cur.core (s.spdAddr e 1024 / 1024) hlen
  have hspd := lineWrites_spd s.mem s.w.cur.core (s.spdAddr e 1024 / 1024) (bs := leBytes 1024 (s.w.rdV t).toNat)
  rw [line_bits, BitVec.toNat_mod_cancel] at hnum
  simp only [spdAddr_line, spdAt_spdAddr, mortarOf_spdAddr] at hnum hbut hparity hspd
  refine ⟨_, hexec, quiet_of_served hserved hhub, hnum.congr hspd, hbut, ?_, hparity⟩
  rw [State.me, hserved.cur]
  exact hfresh

end Sys2Proof.Machine
end

/-! SUPPORT. AMO, PSEAL and PSTAT (R186 to R189) settle O14. -/
section
namespace Sys2Proof.Machine
open Sys2Proof

/-! ## AMO (R186, R187) -/

theorem isNumber_spd (s : State) (e : Ea) (n k : Nat) :
    IsNumber s.mem .spd (k * 2 ^ 21 + s.spdAddr e n) n (s.spd k (s.spdAddr e n) n) := by
  rw [← spdAt_spdAddr]
  exact isNumber_num ..

section
variable {s : State} {e : Ea} {op : AmoOp} {t n : Nat} {new flags : Nat → Nat} {back : Nat → Word}

/-- AMO at its issue, in terms of what its operation makes of an old value. -/
theorem exec_amo (hn : amoBytes op = n)
    (hnew : ∀ old, old < 2 ^ (8 * n) → amoNew op old (s.w.rdS t) (s.w.rdS (t + 1)) = (new old, flags old))
    (hback : ∀ old, amoOld op old = back old) (h : Sound s.w s.w.cur.core)
    (hearly : s.w.early (s.spdAddr e n / 256) 1 = none) :
    let counted := s.withWorld (s.w.count s.w.cur.core 0x20 1)
    ∃ old, IsNumber s.mem .spd (s.w.cur.core * 2 ^ 21 + s.spdAddr e n) n old ∧
      exec (.amo op t e) s = .next (State.due (counted.withMe { counted.me with amos := counted.me.amos ++
        [{ issue := s.w.cur.issue, course := s.spdAddr e n / 65536, addr := s.spdAddr e n, n := n, value := new old, void := false,
           sup := s.w.cur.sup, prior := false }] }) [(6, s.scalar t (back old)), (6, .flags (flags old))]) := by
  subst hn
  intro counted
  have hrows : rowsOf (amoBytes op) = 1 := by cases op <;> rfl
  have hnum := isNumber_spd s e (amoBytes op) s.w.cur.core
  refine ⟨_, hnum, ?_⟩
  have hact : exec (.amo op t e) s = done s (amoAct op t e s) := rfl
  rw [hact, amoAct]
  dsimp only
  rw [la_eq_spdAddr, loadAct_sound h (hrows ▸ hearly), hnew _ hnum.1, hback, ← List.singleton_append (l := [(6, _)]), ← due_due]
  rfl
end

section
variable (v x : Word) {old : Nat}

theorem ofNat_toNat_lt (h : old < 2 ^ 64) : (BitVec.ofNat 64 old).toNat = old := by
  rw [BitVec.toNat_ofNat, Nat.mod_eq_of_lt h]
theorem mod_word : v.toNat % 2 ^ 64 = v.toNat := Nat.mod_eq_of_lt v.isLt
/-- A choice between two words, by a test of their numbers. -/
theorem toNat_choice {c : Bool} {p : Prop} [Decidable p] (hp : c = true ↔ p) (a b : Word) :
    (if c then a else b).toNat = if p then a.toNat else b.toNat := by
  by_cases h : p
  · rw [if_pos h, if_pos (hp.2 h)]
  · rw [if_neg h, if_neg (mt hp.1 h)]
theorem slt_iff_signed (a b : Word) : a.slt b = true ↔ signed 64 a.toNat < signed 64 b.toNat := by
  rw [signed_eq_toInt, signed_eq_toInt, BitVec.ofNat_toNat, BitVec.ofNat_toNat, BitVec.setWidth_eq, BitVec.setWidth_eq]
  exact BitVec.slt_iff_toInt_lt
theorem amoNew_addI64 (h : old < 2 ^ 64) : amoNew .addI64 old v x = ((old + v.toNat % 2 ^ 64) % 2 ^ 64, 0) := by
  rw [mod_word]
  exact congrArg (·, 0) (by rw [BitVec.toNat_add, ofNat_toNat_lt h])
theorem amoNew_andI64 (h : old < 2 ^ 64) : amoNew .andI64 old v x = (Nat.land old (v.toNat % 2 ^ 64), 0) := by
  rw [mod_word]
  exact congrArg (·, 0) (by rw [BitVec.toNat_and, ofNat_toNat_lt h]; rfl)
theorem amoNew_orI64 (h : old < 2 ^ 64) : amoNew .orI64 old v x = (Nat.lor old (v.toNat % 2 ^ 64), 0) := by
  rw [mod_word]
  exact congrArg (·, 0) (by rw [BitVec.toNat_or, ofNat_toNat_lt h]; rfl)
theorem amoNew_xorI64 (h : old < 2 ^ 64) : amoNew .xorI64 old v x = (Nat.xor old (v.toNat % 2 ^ 64), 0) := by
  rw [mod_word]
  exact congrArg (·, 0) (by rw [BitVec.toNat_xor, ofNat_toNat_lt h]; rfl)
theorem amoNew_minI64 (h : old < 2 ^ 64) : amoNew .minI64 old v x =
    (if signed 64 (v.toNat % 2 ^ 64) < signed 64 old then v.toNat % 2 ^ 64 else old, 0) := by
  rw [mod_word]
  have hc := slt_iff_signed v (BitVec.ofNat 64 old)
  rw [ofNat_toNat_lt h] at hc
  exact congrArg (·, 0) ((toNat_choice hc _ _).trans (by rw [ofNat_toNat_lt h]))
theorem amoNew_maxI64 (h : old < 2 ^ 64) : amoNew .maxI64 old v x =
    (if signed 64 old < signed 64 (v.toNat % 2 ^ 64) then v.toNat % 2 ^ 64 else old, 0) := by
  rw [mod_word]
  have hc := slt_iff_signed (BitVec.ofNat 64 old) v
  rw [ofNat_toNat_lt h] at hc
  exact congrArg (·, 0) ((toNat_choice hc _ _).trans (by rw [ofNat_toNat_lt h]))
theorem amoNew_minN64 (h : old < 2 ^ 64) : amoNew .minN64 old v x = (Min.min old (v.toNat % 2 ^ 64), 0) := by
  rw [mod_word]
  have hc : v.ult (BitVec.ofNat 64 old) = true ↔ v.toNat < old := by rw [BitVec.ult, decide_eq_true_iff, ofNat_toNat_lt h]
  refine congrArg (·, 0) ((toNat_choice hc _ _).trans ?_)
  rw [ofNat_toNat_lt h]
  split <;> omega
theorem amoNew_maxN64 (h : old < 2 ^ 64) : amoNew .maxN64 old v x = (Max.max old (v.toNat % 2 ^ 64), 0) := by
  rw [mod_word]
  have hc : (BitVec.ofNat 64 old).ult v = true ↔ old < v.toNat := by rw [BitVec.ult, decide_eq_true_iff, ofNat_toNat_lt h]
  refine congrArg (·, 0) ((toNat_choice hc _ _).trans ?_)
  rw [ofNat_toNat_lt h]
  split <;> omega
theorem amoNew_casI64 (h : old < 2 ^ 64) : amoNew .casI64 old v x =
    (if old = v.toNat % 2 ^ 64 then x.toNat % 2 ^ 64 else old, 0) := by
  rw [mod_word, mod_word]
  have hc : (BitVec.ofNat 64 old == v) = true ↔ old = v.toNat := by
    rw [beq_iff_eq, ← BitVec.toNat_inj, ofNat_toNat_lt h]
  exact congrArg (·, 0) ((toNat_choice hc _ _).trans (by rw [ofNat_toNat_lt h]))
theorem amoNew_casI32 : amoNew .casI32 old v x = (if old = v.toNat % 2 ^ 32 then x.toNat % 2 ^ 32 else old, 0) := by
  refine congrArg (·, 0) ?_
  by_cases hc : old = v.toNat % 2 ^ 32
  · rw [if_pos hc]
    exact if_pos (beq_iff_eq.2 hc)
  · rw [if_neg hc]
    exact if_neg (mt beq_iff_eq.1 hc)
end

/-! ## PSEAL (R188) -/

section
variable {s : State} {e : Ea} {t : Nat}

theorem exec_pseal_none (h : s.w.rdS t = 0) : exec (.pseal t e) s = .next s :=
  done_only_eq (by simp [psealAct, h])
theorem exec_pseal_starts (h : s.w.rdS t ≠ 0) : exec (.pseal t e) s = .next (s.withMe { s.me with seals := s.me.seals ++
    [{ issue := s.w.cur.issue, course := s.spdAddr e 1024 / 65536, line := s.spdAddr e 1024 / 1024 % 64,
       n := Min.min (s.w.rdS t).toNat 64, dirty := [], sup := s.w.cur.sup, prior := false }] }) := by
  have hpos : (s.w.rdS t).toNat ≠ 0 := fun h0 => h (BitVec.eq_of_toNat_eq h0)
  have hn : (Min.min (s.w.rdS t).toNat 64 == 0) = false := by rw [beq_eq_false_iff_ne]; omega
  have hact : psealAct t e s = s.w.onCur (fun c => { c with seals := c.seals ++
      [{ issue := s.w.cur.issue, course := s.w.la e 1024 / 65536, line := s.w.la e 1024 / 1024 % 64,
         n := Min.min (s.w.rdS t).toNat 64, dirty := [], sup := s.w.cur.sup, prior := false }] }) := if_neg (by rw [hn]; exact Bool.false_ne_true)
  rw [la_eq_spdAddr] at hact
  exact done_only_eq hact
end

/-! ## The cycles of a seal (R173, R178, R188) -/

/-- The mortar row of a line. -/
theorem mortarOf_line (k l : Nat) : mortarOf k (l * 1024) = k * 2 ^ 19 + l / 64 % 32 * 2 ^ 14 + l % 64 * 2 ^ 8 := by
  have h1 : l * 1024 / 65536 = l / 64 := by omega
  have h2 : l * 1024 / 1024 = l := by omega
  have h3 : l * 1024 % 256 = 0 := by omega
  rw [mortarOf, mortarAt, h1, h2, h3, Nat.add_zero]

section
variable (w : World) (k : Nat)

/-- A read that consumes nothing poisons nothing. -/
theorem quietRead_poison (row : Nat) (ws : List Nat) : ((w.quietRead k row ws).core k).poison = (w.core k).poison := by
  have hcorrected (v : World) (n : Nat) : ((v.corrected k n).core k).poison = (v.core k).poison := by
    rcases eq_or_ne n 0 with rfl | hn
    · rfl
    · rw [corrected_core hn]
      rfl
  have hmend (v : World) (ws : List Nat) : ((v.mendRest k row ws).core k).poison = (v.core k).poison := by
    have hfold (f : Nat → Nat) (l : List Nat) (v : World) : (l.foldl (fun a r => a.worn k r (f r)) v).core k = v.core k := by
      induction l generalizing v with
      | nil => rfl
      | cons r l ih => exact (ih _).trans (worn_core ..)
    rw [World.mendRest, hcorrected, hfold]
  unfold World.quietRead
  dsimp only
  split
  · rw [hcorrected, worn_core]
  · next hbad =>
    revert hbad
    unfold World.lookWords
    dsimp only
    split
    · exact fun h => absurd rfl h
    split
    · exact fun _ => rfl
    split
    · split
      · exact fun h => absurd rfl h
      · intro _
        rw [hmend, World.rebuilt, World.countDie, modDie_core, World.count, core_modCore_same]
        rfl
    split
    · split
      · exact fun h => absurd rfl h
      · intro _
        rw [hmend, worn_core, hcorrected]
        rfl
    · intro _
      rw [worn_core, hcorrected]
theorem sealReads_served (line : Nat) : Served k w (w.sealReads k line) := .foldl (fun _ _ => quietRead_served ..) _ _
theorem sealReads_poison (line : Nat) : ((w.sealReads k line).core k).poison = (w.core k).poison := by
  unfold World.sealReads
  generalize List.range 4 = l
  induction l generalizing w with
  | nil => rfl
  | cons b r ih => exact (ih _).trans (quietRead_poison ..)
theorem sealAccess_served (t : Nat) (p : SealOp) : Served k w (w.sealAccess k t p) := by
  unfold World.sealAccess
  split
  · exact .refl k w
  · dsimp only
    split
    · exact (sealReads_served ..).after (count_served ..)
    · exact count_served ..
theorem sealAccess_poison (t : Nat) (p : SealOp) : ((w.sealAccess k t p).core k).poison = (w.core k).poison := by
  have hcount : ((w.count k 0x20 1).core k).poison = (w.core k).poison := by rw [World.count, core_modCore_same]; rfl
  unfold World.sealAccess
  split
  · rfl
  · dsimp only
    split
    · exact (sealReads_poison ..).trans hcount
    · exact hcount
end

/-- The health of a core that has been served is as it was. -/
theorem Served.health {k : Nat} {w v : World} (h : Served k w v) (course : Nat) : (v.core k).health course = (w.core k).health course := by
  have hc := h.core.eq
  rw [Core.mk.injEq] at hc
  simp_all [Core.health]

section
variable (k line : Nat) (s : State)

/-- A line whose course has no failed brick gets its parity. -/
theorem sealLine_sound (h : ((s.w.core k).health (line / 64)).bricks = []) : State.sealLine k line s =
    s.inOrder [State.reseal k line, fun t => only ((t.w.count k 0x26 1).countDie (dieOf k) 0x06 (t.w.tenOf k) 1)] :=
  if_neg (by simp [Course.degraded, h])
theorem sealLine_degraded (h : ((s.w.core k).health (line / 64)).bricks ≠ []) : State.sealLine k line s = only s.w :=
  if_pos (by simpa [Course.degraded] using h)
theorem sealLine_served : Served k s.w (State.sealLine k line s).w := by
  unfold State.sealLine
  split
  · exact .refl k _
  · exact (countDie_served ..).after ((count_served ..).after (clearErrs_served ..))
theorem sealLine_poison : ((State.sealLine k line s).w.core k).poison = (s.w.core k).poison := by
  unfold State.sealLine
  split
  · rfl
  · show ((((s.w.clearErrs (.mortar k line)).count k 0x26 1).countDie (dieOf k) 0x06 _ 1).core k).poison = _
    rw [World.countDie, modDie_core, World.count, core_modCore_same]
    rfl
theorem sealLine_mem (h : ((s.w.core k).health (line / 64)).bricks = []) : (s.commit (State.sealLine k line s)).mem =
    s.mem.apply (.bytes .mortar (mortarOf k (line * 1024)) (parity (s.mem.bytes .spd (spdAt k (line * 1024)) 1024))) := by
  rw [sealLine_sound k line s h, commit_inOrder_pair]
  rfl
end

/-- A line's parity row, once the parity of the line's bytes is written to it. -/
theorem mortar_resealed (m : Mems) (k l : Nat) :
    let row := k * 2 ^ 21 + l * 1024 % 2 ^ 21
    let mortarRow := k * 2 ^ 19 + l / 64 % 32 * 2 ^ 14 + l % 64 * 2 ^ 8
    let m' := m.apply (.bytes .mortar (mortarOf k (l * 1024)) (parity (m.bytes .spd (spdAt k (l * 1024)) 1024)))
    (∀ i < 256, m'.byte .mortar (mortarRow + i) = m.byte .spd (row + i) ^^^ m.byte .spd (row + 256 + i) ^^^
      m.byte .spd (row + 512 + i) ^^^ m.byte .spd (row + 768 + i)) ∧
    SameBut m m' [(.mortar, mortarRow, 256)] := by
  have hlen : (m.bytes .spd (spdAt k (l * 1024)) 1024).length = 1024 := bytes_length ..
  intro row mortarRow m'
  have hrow : mortarRow = mortarOf k (l * 1024) := (mortarOf_line k l).symm
  rw [hrow]
  have hbut := sameBut_written m .mortar (mortarOf k (l * 1024)) (parity (m.bytes .spd (spdAt k (l * 1024)) 1024))
  rw [parity_length hlen] at hbut
  exact ⟨parity_written m hlen m row (mortarOf k (l * 1024)) (fun i hi => bytes_getElem ..), hbut⟩

section
variable {k at_ : Nat} {p : SealOp} {s : State} (h : (s.w.core k).seals = [p])
include h

/-- A level's one seal in a cycle without a write. -/
theorem sealCycle_read (hw : p.writesAt at_ = none) : State.sealCycle k p.sup at_ s = only (s.w.sealAccess k at_ p) := by
  simp [State.sealCycle, h, hw, State.inOrder, State.andThen, only]
/-- A level's one seal in the cycle of a write: its access, and then the line. -/
theorem sealCycle_write {l : Nat} (hw : p.writesAt at_ = some l) : State.sealCycle k p.sup at_ s =
    s.inOrder [fun u => only (u.w.sealAccess k at_ p), State.sealLine k l] := by
  simp [State.sealCycle, h, hw]
end

/-- The line a seal writes belongs to its course. -/
theorem writesAt_course {p : SealOp} {t l : Nat} (h : p.writesAt t = some l) : l / 64 = p.course := by
  unfold SealOp.writesAt at h
  split at h
  · obtain rfl := Option.some.inj h
    omega
  · cases h
theorem writesAt_line {p : SealOp} {j : Nat} (h : j < p.n) :
    p.writesAt (p.issue + 3 + 2 * j) = some (p.course * 64 + (p.line + j) % 64) := by
  have hj : (p.issue + 3 + 2 * j - p.issue - 3) = 2 * j := by omega
  simp [SealOp.writesAt, hj, h]

/-- The lines that stay stale when some are freshened. -/
theorem mem_freshenAll_stale (c : Core) (ls : List Nat) (l : Nat) : l ∈ (c.freshenAll ls).stale ↔ l ∈ c.stale ∧ l ∉ ls := by
  induction ls generalizing c with
  | nil => simp [Core.freshenAll]
  | cons x r ih => simp [Core.freshenAll, ih, Core.freshen, sdel, and_assoc]

/-- Whether a seal of a level has reached its posted time. -/
def SealOp.over (sup : Bool) (t : Nat) (x : SealOp) : Bool := x.sup == sup && x.posted ≤ t

section
variable {k at_ : Nat} {p : SealOp} {s : State} (h : (s.w.core k).seals = [p])
include h

/-- The write of a seal's line in a course without a failed brick. -/
theorem sealCycle_sound {j : Nat} (hj : j < p.n) (hat : at_ = p.issue + 3 + 2 * j) (hb : ((s.w.core k).health p.course).bricks = []) :
    let l := p.course * 64 + (p.line + j) % 64
    (s.does (State.sealCycle k p.sup at_)).mem =
      s.mem.apply (.bytes .mortar (mortarOf k (l * 1024)) (parity (s.mem.bytes .spd (spdAt k (l * 1024)) 1024))) := by
  intro l
  have hw : p.writesAt at_ = some l := hat ▸ writesAt_line hj
  have hcourse : l / 64 = p.course := writesAt_course hw
  rw [State.does, sealCycle_write h hw, commit_inOrder_pair, commit_only]
  have hsound : (((s.w.sealAccess k at_ p).core k).health (l / 64)).bricks = [] := by
    rw [(sealAccess_served s.w k at_ p).health, hcourse, hb]
  exact sealLine_mem k l { s with w := s.w.sealAccess k at_ p } hsound
/-- A degraded course's seal writes nothing. -/
theorem sealCycle_degraded (hb : ((s.w.core k).health p.course).bricks ≠ []) : (s.does (State.sealCycle k p.sup at_)).mem = s.mem := by
  rw [State.does]
  cases hw : p.writesAt at_ with
  | none => rw [sealCycle_read h hw, commit_only]
  | some l =>
    rw [sealCycle_write h hw, commit_inOrder_pair, commit_only, sealLine_degraded, commit_only]
    rw [(sealAccess_served s.w k at_ p).health, writesAt_course hw]
    exact hb
/-- What a seal's cycle leaves of its core. -/
theorem sealCycle_core : let q := s.does (State.sealCycle k p.sup at_)
    (q.w.core k).ctx = (s.w.core k).ctx ∧ (q.w.core k).poison = (s.w.core k).poison := by
  have hserved := sealAccess_served s.w k at_ p
  have hpoison := sealAccess_poison s.w k at_ p
  intro q
  cases hw : p.writesAt at_ with
  | none =>
    have hq : q.w = s.w.sealAccess k at_ p := congrArg Act.w (sealCycle_read h hw)
    rw [hq]
    exact ⟨hserved.core.ctx, hpoison⟩
  | some l =>
    let u : State := { s with w := s.w.sealAccess k at_ p }
    have hq : q = u.commit (State.sealLine k l u) := by
      have hpair := commit_inOrder_pair s (fun u => only (u.w.sealAccess k at_ p)) (State.sealLine k l)
      rwa [← sealCycle_write h hw, commit_only] at hpair
    rw [hq]
    exact ⟨((sealLine_served k l u).after hserved).core.ctx, (sealLine_poison k l u).trans hpoison⟩

omit h in
theorem over_iff (t : Nat) : p.over p.sup t = true ↔ p.issue + 4 + 2 * p.n ≤ t := by
  rw [SealOp.over, beq_self_eq_true, Bool.true_and, decide_eq_true_eq, SealOp.posted]
/-- A seal at its posted time: of the stale lines those stay that it did not freshen. -/
theorem endSeals_due (hat : p.issue + 4 + 2 * p.n ≤ at_) :
    let d := (s.w.core k).endSeals p.sup at_
    d.seals = [] ∧ d.poison = (s.w.core k).poison ∧
    ∀ l, l ∈ d.stale ↔ l ∈ (s.w.core k).stale ∧ ¬(l ∉ p.dirty ∧ ∃ j < p.n, l = p.course * 64 + (p.line + j) % 64) := by
  have hover : p.over p.sup at_ = true := (over_iff at_).2 hat
  have hdone : sealsDone (s.w.core k) ((s.w.core k).seals.filter (SealOp.over p.sup at_)) = (s.w.core k).sealed p := by
    rw [h, List.filter_cons_of_pos hover]
    rfl
  have hframe := freshenAll_frame (s.w.core k) (((List.range p.n).map (fun j => p.course * 64 + (p.line + j) % 64)).filter
    (fun l => !p.dirty.contains l))
  have hseals : ((s.w.core k).sealed p).seals = [p] := (congrArg Core.seals hframe).trans h
  refine ⟨?_, (congrArg Core.poison hdone).trans (congrArg Core.poison hframe :), fun l => ?_⟩
  · show (sealsDone (s.w.core k) ((s.w.core k).seals.filter (SealOp.over p.sup at_))).seals.filter (fun x => !x.over p.sup at_) = []
    rw [hdone, hseals, List.filter_cons_of_neg (by simp [hover]), List.filter_nil]
  · show l ∈ (sealsDone (s.w.core k) ((s.w.core k).seals.filter (SealOp.over p.sup at_))).stale ↔ _
    rw [hdone, Core.sealed, mem_freshenAll_stale]
    refine and_congr_right' (not_congr ?_)
    simp only [List.mem_filter, List.mem_map, List.mem_range, Bool.not_eq_true', List.contains_eq_mem, decide_eq_false_iff_not]
    exact ⟨fun ⟨⟨j, hj, hl⟩, hd⟩ => ⟨hd, j, hj, hl.symm⟩, fun ⟨hd, j, hj, hl⟩ => ⟨⟨j, hj, hl.symm⟩, hd⟩⟩
theorem endSeals_early (hat : at_ < p.issue + 4 + 2 * p.n) : (s.w.core k).endSeals p.sup at_ = s.w.core k := by
  have hover : p.over p.sup at_ = false := Bool.eq_false_iff.2 fun ho => absurd ((over_iff at_).1 ho) (by omega)
  have hnone : (s.w.core k).seals.filter (SealOp.over p.sup at_) = [] := by
    rw [h, List.filter_cons_of_neg (by simp [hover]), List.filter_nil]
  have hkept : (s.w.core k).seals.filter (fun x => !x.over p.sup at_) = (s.w.core k).seals := by
    rw [h, List.filter_cons_of_pos (by simp [hover]), List.filter_nil]
  show (let d := sealsDone (s.w.core k) ((s.w.core k).seals.filter (SealOp.over p.sup at_))
    { d with seals := d.seals.filter (fun x => !x.over p.sup at_) }) = _
  rw [hnone]
  show { s.w.core k with seals := (s.w.core k).seals.filter (fun x => !x.over p.sup at_) } = _
  rw [hkept]
end

/-! ## PSTAT (R189) -/

theorem mem_linesIn {course i : Nat} {l : List Nat} (hi : i < 64) : i ∈ linesIn course l ↔ course * 64 + i ∈ l := by
  simp only [linesIn, List.mem_map, List.mem_filter, beq_iff_eq]
  refine ⟨?_, fun h => ⟨_, ⟨h, by omega⟩, by omega⟩⟩
  rintro ⟨x, ⟨hx, rfl⟩, rfl⟩
  rwa [show x / 64 * 64 + x % 64 = x by omega]
theorem mem_linesIn_lt {course i : Nat} {l : List Nat} (h : i ∈ linesIn course l) : i < 64 := by
  obtain ⟨x, -, rfl⟩ := List.mem_map.1 h
  omega
theorem mem_poisonLines {c : Core} {course i : Nat} (hi : i < 64) :
    i ∈ c.poisonLines course ↔ ∃ row ∈ c.poison, row / 4 = course * 64 + i := by
  have hfold (l : List Nat) (m : List Nat) : l.foldl (fun l r => sadd l (rowLine r)) m = (l.map rowLine).foldl sadd m := by
    rw [List.foldl_map]
  rw [Core.poisonLines, mem_linesIn hi, hfold, mem_foldl_sadd]
  simp [rowLine]
theorem poisonLines_nodup (c : Core) (course : Nat) : (c.poisonLines course).Nodup := by
  have hfold : c.poison.foldl (fun l r => sadd l (rowLine r)) [] = (c.poison.map rowLine).foldl sadd [] := by rw [List.foldl_map]
  have hnodup : ((c.poison.map rowLine).foldl sadd []).Nodup := (foldl_sadd_rises List.Pairwise.nil).imp Nat.ne_of_lt
  rw [Core.poisonLines, linesIn, hfold]
  refine (hnodup.filter _).map_on fun x hx y hy hxy => ?_
  have hx' := beq_iff_eq.1 (List.mem_filter.1 hx).2
  have hy' := beq_iff_eq.1 (List.mem_filter.1 hy).2
  omega
/-- A course's poisoned lines, counted. -/
theorem poisonLines_count (c : Core) (course : Nat) :
    CountOf (fun l => l < 64 ∧ ∃ row ∈ c.poison, row / 4 = course * 64 + l) (c.poisonLines course).length :=
  ⟨_, poisonLines_nodup c course, fun _ => ⟨fun h => ⟨mem_linesIn_lt h, (mem_poisonLines (mem_linesIn_lt h)).1 h⟩,
    fun h => (mem_poisonLines h.1).2 h.2⟩, rfl⟩
theorem exec_pstat (kind : PstatKind) (t : Nat) (e : Ea) (s : State) : exec (.pstat kind t e) s =
    .next (s.due [(2, s.scalar t (BitVec.ofNat 64 (s.me.pstat kind (s.spdAddr e 65536 / 65536))))]) := by
  rw [← la_eq_spdAddr]
  rfl
/-- A word made of a number below its width's limit, or any bit of it. -/
theorem getLsbD_sumBits (l : List Nat) {i : Nat} (hi : i < 64) : (BitVec.ofNat 64 (sumBits l)).getLsbD i = true ↔ i ∈ l := by
  rw [BitVec.getLsbD_ofNat, Bool.and_eq_true, decide_eq_true_eq, sumBits_testBit]
  exact and_iff_right hi
theorem pstat_health (c : Core) (course : Nat) : c.pstat .health course = let h := c.health course
    (if h.bricks = [] then 0 else 1) + 2 * h.bricks.getD 0 0 + 8 * (c.stale.filter (fun l => l / 64 == course)).length +
      2 ^ 10 * (c.poisonLines course).length + 2 ^ 17 * (if h.failing then 1 else 0) +
      2 ^ 18 * (if 2 ≤ h.bricks.length then 1 else 0) + 2 ^ 19 * h.bricks.getD 1 0 + 2 ^ 21 * sumBits h.bricks := by
  have hdegraded (h : Course) : bit h.degraded = if h.bricks = [] then 0 else 1 := by
    rcases h with ⟨_ | ⟨_, _⟩, _⟩ <;> rfl
  have hlost (h : Course) : bit h.lost = if 2 ≤ h.bricks.length then 1 else 0 := by simp [bit, Course.lost]
  dsimp only [Core.pstat]
  rw [hdegraded, hlost, linesIn, List.length_map]
  rfl

/-- Settles O14: AMO by the value of each operation, PSEAL by its one seal's cycles, PSTAT by its bits. -/
theorem atomicSealStatus : Obligations.AtomicSealStatus := by
  unfold Obligations.AtomicSealStatus
  intro s op t e kind k at_ p core n a v x sv new flags back counted line lines
  refine ⟨fun he hp hc hearly => ?_, exec_pseal_none, exec_pseal_starts, fun h => ?_, _, exec_pstat kind t e s, ?_, ?_, ?_⟩
  · have hs : Sound s.w s.w.cur.core := ⟨he, hp, hc⟩
    cases op with
    | addI64 => exact exec_amo rfl (fun _ h => amoNew_addI64 _ _ h) (fun _ => rfl) hs hearly
    | addI32 => exact exec_amo rfl (fun _ _ => rfl) (fun _ => rfl) hs hearly
    | andI64 => exact exec_amo rfl (fun _ h => amoNew_andI64 _ _ h) (fun _ => rfl) hs hearly
    | orI64 => exact exec_amo rfl (fun _ h => amoNew_orI64 _ _ h) (fun _ => rfl) hs hearly
    | xorI64 => exact exec_amo rfl (fun _ h => amoNew_xorI64 _ _ h) (fun _ => rfl) hs hearly
    | minI64 => exact exec_amo rfl (fun _ h => amoNew_minI64 _ _ h) (fun _ => rfl) hs hearly
    | maxI64 => exact exec_amo rfl (fun _ h => amoNew_maxI64 _ _ h) (fun _ => rfl) hs hearly
    | minN64 => exact exec_amo rfl (fun _ h => amoNew_minN64 _ _ h) (fun _ => rfl) hs hearly
    | maxN64 => exact exec_amo rfl (fun _ h => amoNew_maxN64 _ _ h) (fun _ => rfl) hs hearly
    | swapI64 => exact exec_amo rfl (fun _ _ => rfl) (fun _ => rfl) hs hearly
    | swapI32 => exact exec_amo rfl (fun _ _ => rfl) (fun _ => rfl) hs hearly
    | casI64 => exact exec_amo rfl (fun _ h => amoNew_casI64 _ _ h) (fun _ => rfl) hs hearly
    | casI32 => exact exec_amo rfl (fun _ _ => amoNew_casI32 ..) (fun _ => rfl) hs hearly
    | faddF32 => exact exec_amo rfl (fun _ _ => rfl) (fun _ => rfl) hs hearly
    | faddBf16 => exact exec_amo rfl (fun _ _ => rfl) (fun _ => rfl) hs hearly
  · refine ⟨fun j hj hat hb => ?_, sealCycle_degraded h, (sealCycle_core h).1, (sealCycle_core h).2, endSeals_due h, endSeals_early h⟩
    rw [sealCycle_sound h hj hat hb]
    exact mortar_resealed ..
  · rintro rfl i hi
    exact (getLsbD_sumBits _ hi).trans (mem_linesIn hi)
  · rintro rfl i hi
    exact (getLsbD_sumBits _ hi).trans (mem_poisonLines hi)
  · rintro rfl
    exact ⟨_, _, poisonLines_count .., fun i => sumBits_testBit .., congrArg (BitVec.ofNat 64) (pstat_health ..)⟩

end Sys2Proof.Machine
end

/-! SUPPORT. Atomics' writes, and the mortar sweep (R128, R177, R186): for O44. -/
section
namespace Sys2Proof.Machine
open Sys2Proof

theorem commit_inOrder_single (s : State) (f : State → Act) : s.commit (s.inOrder [f]) = s.commit (f s) := by
  simp only [State.inOrder, State.andThen, State.commit, only_w, only_out, List.append_nil]

/-! ## The write of an atomic (R186) -/

/-- The parity of some bytes within a row stands within the row's. -/
theorem mortarOf_within {a n : Nat} (h : a / 256 = (a + n - 1) / 256) (k : Nat) :
    let m := k * 2 ^ 19 + a / 65536 % 32 * 2 ^ 14 + a / 1024 % 64 * 2 ^ 8
    m ≤ mortarOf k a ∧ mortarOf k a + n ≤ m + 256 := by
  intro m
  have hm : mortarOf k a = m + a % 256 := rfl
  omega
theorem exec_amoCoveredWrite {s : State} {k : Nat} {a : AmoW} (h : (s.w.core k).amos = [a]) (hv : a.void = false)
    (hsup : a.sup = s.w.inHandler k) (ht : a.issue + 2 ≤ s.w.clockOf k) : exec (.amoCoveredWrite k) s = done s (State.amoWrite k a s) := by
  have hdue : amosDue (s.w.core k) (s.w.inHandler k) (s.w.clockOf k) = [a] := by simp [amosDue, h, hv, hsup, ht]
  have hexec : exec (.amoCoveredWrite k) s = done s (s.amoWrites k (s.w.inHandler k) (s.w.clockOf k)) := rfl
  rw [hexec, State.amoWrites, hdue]
  exact congrArg Host.Outcome.next (commit_inOrder_single s (State.amoWrite k a))
/-- An atomic's write: its bytes and their parity, and the atomic is over. -/
theorem amoWrite_does {s : State} {k : Nat} {a : AmoW} (h : (s.w.core k).amos = [a]) (hc : (s.w.core k).courses = []) :
    let t := s.commit (State.amoWrite k a s)
    t.mem = s.mem.applyAll (coveredWrites s.mem k a.addr (leBytes a.n a.value)) ∧ (∀ j, j ≠ k → t.w.core j = s.w.core j) ∧
      (t.w.core k).ctx = (s.w.core k).ctx ∧ (t.w.core k).amos = [{ a with void := true }] := by
  let u : State := { s with w := s.w.modCore k (fun c =>
    { c with amos := c.amos.map (fun x => if x = a then { x with void := true } else x) }) }
  have hu : u.w.core k = { s.w.core k with amos := [{ a with void := true }] } := by
    rw [core_modCore_same, h]
    simp
  have hcu : (u.w.core k).courses = [] := by rw [hu, hc]
  have hserved := storeRowN_served a.addr (leBytes a.n a.value) 1 hcu false
  intro t
  refine ⟨?_, fun j hj => (hserved.others j hj).trans (core_modCore_other _ _ _ _ hj), ?_, ?_⟩
  · show s.mem.applyAll (u.storeRowN k a.addr (leBytes a.n a.value) false 1).out = _
    rw [storeRowN_covered _ _ _ hcu]
  · exact hserved.core.ctx.trans (congrArg Core.ctx hu :)
  · exact hserved.core.amos.trans (congrArg Core.amos hu :)

/-! ## What a read of a row leaves of its core (R128, R172, R178) -/

/-- A read changes of its core the poison and counts errors put right: event 0x22, and 0x21 for a row rebuilt. -/
structure Core.ReadOnly (c d : Core) : Prop where
  eq : { d with evq := c.evq, poison := c.poison } = c
  evq : ∀ e ∈ d.evq, (∃ e' ∈ c.evq, e'.1 = e.1) ∨ e.1 = 0x21 ∨ e.1 = 0x22
namespace Core.ReadOnly
theorem refl (c : Core) : c.ReadOnly c := ⟨rfl, fun e he => .inl ⟨e, he, rfl⟩⟩
theorem after {b c d : Core} (h : c.ReadOnly d) (g : b.ReadOnly c) : b.ReadOnly d := by
  refine ⟨by rw [← g.eq, ← h.eq], fun e he => ?_⟩
  rcases h.evq e he with ⟨e', he', hkey⟩ | hnew
  · exact hkey ▸ g.evq e' he'
  · exact .inr hnew
theorem of_eq {c d : Core} (h : d = c) : c.ReadOnly d := h ▸ refl c
end Core.ReadOnly
theorem mem_fput {α : Type} {m : FMap α} {k : Nat} {v : α} {e : Nat × α} (h : e ∈ fput m k v) : e = (k, v) ∨ e ∈ m := by
  have hins (m : FMap α) (h : e ∈ fins m k v) : e = (k, v) ∨ e ∈ m := by
    induction m with
    | nil => exact .inl (List.mem_singleton.1 h)
    | cons x r ih =>
      rw [fins] at h
      split at h
      · exact List.mem_cons.1 h
      · rcases List.mem_cons.1 h with rfl | hr
        · exact .inr List.mem_cons_self
        · exact (ih hr).imp id (List.mem_cons_of_mem _)
  exact (hins _ h).imp id (fun hd => List.mem_of_mem_filter hd)
theorem count_readOnly (c : Core) {src : Nat} (n : Nat) (h : src = 0x21 ∨ src = 0x22) : c.ReadOnly (c.count src n) := by
  refine ⟨rfl, fun e he => ?_⟩
  rcases mem_fput he with rfl | hold
  · exact .inr h
  · exact .inl ⟨e, hold, rfl⟩

section
variable (w : World) (k row : Nat) (ws : List Nat)

theorem corrected_readOnly (n : Nat) : (w.core k).ReadOnly ((w.corrected k n).core k) := by
  rcases eq_or_ne n 0 with rfl | hn
  · exact .refl _
  · rw [corrected_core hn]
    exact count_readOnly _ _ (.inr rfl)
theorem mendRest_readOnly : (w.core k).ReadOnly ((w.mendRest k row ws).core k) := by
  have hfold (f : Nat → Nat) (l : List Nat) (v : World) : (l.foldl (fun a r => a.worn k r (f r)) v).core k = v.core k := by
    induction l generalizing v with
    | nil => rfl
    | cons r l ih => exact (ih _).trans (worn_core ..)
  have h := corrected_readOnly ((otherRows row).foldl (fun a r => a.worn k r (singles (pickWords ws (w.errsAt (.row k r)))).length) w) k
    (w.restErrs k row ws)
  rwa [hfold] at h
theorem poisonRow_readOnly : (w.core k).ReadOnly ((w.poisonRow k row).core k) := by
  rw [World.poisonRow, core_modCore_same]
  exact ⟨rfl, fun e he => .inl ⟨e, he, rfl⟩⟩
theorem rebuilt_readOnly : (w.core k).ReadOnly ((w.rebuilt k).core k) := by
  rw [World.rebuilt, World.countDie, modDie_core, World.count, core_modCore_same]
  exact count_readOnly _ _ (.inl rfl)
theorem lookWords_readOnly : (w.core k).ReadOnly ((w.lookWords k row ws).w.core k) := by
  unfold World.lookWords
  dsimp only
  split
  · exact poisonRow_readOnly ..
  split
  · exact .refl _
  split
  · split
    · exact poisonRow_readOnly ..
    · exact (mendRest_readOnly ..).after (rebuilt_readOnly ..)
  split
  · split
    · exact poisonRow_readOnly ..
    · exact (mendRest_readOnly ..).after ((Core.ReadOnly.of_eq (worn_core ..)).after ((corrected_readOnly ..).after (.of_eq (clearErrs_core ..))))
  · exact (Core.ReadOnly.of_eq (worn_core ..)).after (corrected_readOnly ..)
theorem quietRead_readOnly : (w.core k).ReadOnly ((w.quietRead k row ws).core k) := by
  unfold World.quietRead
  dsimp only
  split
  · exact (corrected_readOnly ..).after (.of_eq (worn_core ..))
  · exact lookWords_readOnly ..
theorem sealReads_readOnly (line : Nat) : (w.core k).ReadOnly ((w.sealReads k line).core k) := by
  unfold World.sealReads
  generalize List.range 4 = l
  induction l generalizing w with
  | nil => exact .refl _
  | cons b r ih => exact (ih _).after (quietRead_readOnly ..)
end

/-! ## A cycle's counts (R128) -/

section
variable {j : Nat}

/-- A source's counter that runs, and its overflow aside. -/
def CoreCtx.counting (c : CoreCtx) (src j : Nat) : Prop := fget c.evcsel 0 j % 64 = src ∧ bitOf 6 (fget c.evcsel 0 j) = true

theorem bump_counter_same {c : CoreCtx} {src : Nat} (h : c.counting src j) (h0 : src ≠ 0) (n : Nat) :
    fget (c.bump src n j).evc 0 j = (fget c.evc 0 j + n) % 2 ^ 48 ∧ fget (c.bump src n j).evcsel 0 j % 64 = src := by
  have hsel : (field 5 0 (fget c.evcsel 0 j) == src && bitOf 6 (fget c.evcsel 0 j) && src != 0) = true := by
    simp [field, h.1, h.2, h0]
  unfold CoreCtx.bump
  dsimp only
  rw [if_pos hsel]
  split
  · refine ⟨fget_fput_same .., ?_⟩
    rw [fget_fput_same]
    have hor : (fget c.evcsel 0 j ||| 2 ^ 7) % 2 ^ 6 = fget c.evcsel 0 j % 2 ^ 6 := by
      rw [Nat.or_mod_two_pow, show (2 ^ 7 % 2 ^ 6 : Nat) = 0 from rfl, Nat.or_zero]
    exact hor.trans h.1
  · exact ⟨fget_fput_same .., h.1⟩
theorem bump_at_other {c : CoreCtx} {i : Nat} (h : j ≠ i) (src n : Nat) :
    fget (c.bump src n i).evc 0 j = fget c.evc 0 j ∧ fget (c.bump src n i).evcsel 0 j = fget c.evcsel 0 j := by
  unfold CoreCtx.bump
  dsimp only
  split
  · split
    · exact ⟨fget_fput_other _ _ _ _ _ h, fget_fput_other _ _ _ _ _ h⟩
    · exact ⟨fget_fput_other _ _ _ _ _ h, rfl⟩
  · exact ⟨rfl, rfl⟩
theorem bumpAll_at_other {l : List Nat} (h : j ∉ l) (c : CoreCtx) (src n : Nat) :
    fget (bumpAll c src n l).evc 0 j = fget c.evc 0 j ∧ fget (bumpAll c src n l).evcsel 0 j = fget c.evcsel 0 j := by
  induction l generalizing c with
  | nil => exact ⟨rfl, rfl⟩
  | cons i r ih =>
    obtain ⟨hi, hr⟩ := List.ne_and_not_mem_of_not_mem_cons h
    obtain ⟨h1, h2⟩ := bump_at_other hi src n (c := c)
    obtain ⟨k1, k2⟩ := ih hr (c.bump src n i)
    exact ⟨k1.trans h1, k2.trans h2⟩
theorem bumpAll_counter_same {c : CoreCtx} {src : Nat} {l : List Nat} (hl : l.Nodup) (hj : j ∈ l) (h : c.counting src j) (h0 : src ≠ 0)
    (n : Nat) : fget (bumpAll c src n l).evc 0 j = (fget c.evc 0 j + n) % 2 ^ 48 ∧ fget (bumpAll c src n l).evcsel 0 j % 64 = src := by
  induction l generalizing c with
  | nil => cases hj
  | cons i r ih =>
    obtain ⟨hi, hr⟩ := List.nodup_cons.1 hl
    rcases eq_or_ne j i with rfl | hne
    · obtain ⟨h1, h2⟩ := bumpAll_at_other hi (c.bump src n j) src n
      obtain ⟨k1, k2⟩ := bump_counter_same h h0 n
      exact ⟨h1.trans k1, (congrArg (· % 64) h2).trans k2⟩
    · obtain ⟨h1, h2⟩ := bump_at_other hne src n (c := c)
      have := ih hr ((List.mem_cons.1 hj).resolve_left hne) (c := c.bump src n i) ⟨by rw [h2]; exact h.1, by rw [h2]; exact h.2⟩
      rwa [h1] at this
/-- A cycle without an event of a counter's source leaves the counter. -/
theorem flushAll_counter_other {src : Nat} {l : FMap Nat} (hl : ∀ e ∈ l, e.1 ≠ src) {c : CoreCtx} (h : fget c.evcsel 0 j % 64 = src) :
    fget (flushAll c l).evc 0 j = fget c.evc 0 j := by
  induction l generalizing c with
  | nil => rfl
  | cons e r ih =>
    obtain ⟨he, hr⟩ := List.forall_mem_cons.1 hl
    obtain ⟨h1, h2⟩ := bumpAll_counter_other e.2 (List.range 8) c (j := j) (h.trans_ne he.symm)
    exact (ih hr (by rw [h2]; exact h)).trans h1
/-- A source counted once in a cycle, among others, counts once. -/
theorem flushAll_counted {src : Nat} {l : FMap Nat} (hl : ∀ e ∈ l, e.1 ≠ src) (h0 : src ≠ 0) (hj : j < 8) {c : CoreCtx} (h : c.counting src j)
    (n : Nat) : fget (flushAll c (fins l src n)).evc 0 j = (fget c.evc 0 j + n) % 2 ^ 48 := by
  have hbump (l : FMap Nat) (hl : ∀ e ∈ l, e.1 ≠ src) (c : CoreCtx) (h : c.counting src j) :
      fget (flushAll c ((src, n) :: l)).evc 0 j = (fget c.evc 0 j + n) % 2 ^ 48 := by
    obtain ⟨h1, h2⟩ := bumpAll_counter_same List.nodup_range (List.mem_range.2 hj) h h0 n
    exact (flushAll_counter_other hl h2).trans h1
  induction l generalizing c with
  | nil => exact hbump [] hl c h
  | cons e r ih =>
    obtain ⟨he, hr⟩ := List.forall_mem_cons.1 hl
    rw [fins]
    split
    · exact hbump (e :: r) hl c h
    · obtain ⟨h1, h2⟩ := bumpAll_counter_other e.2 (List.range 8) c (j := j) (h.1.trans_ne he.symm)
      have := ih hr (c := bumpAll c e.1 e.2 (List.range 8)) ⟨by rw [h2]; exact h.1, by rw [h2]; exact h.2⟩
      rwa [h1] at this
end

/-! ## The mortar sweep (R177) -/

section
variable {s : State} {k course line : Nat} (hc : (s.w.core k).courses = []) (hcourse : course < 32)

section
include hc hcourse
/-- A sweep may act in a healthy core's course that no access has touched. -/
theorem sweepAct_free (htouched : course ∉ (s.w.core k).touched) :
    (((s.w.core k).health (course % 32)).degraded || (s.w.coreRuns k && (s.w.core k).touched.contains (course % 32))) = false := by
  rw [health_whole hc, Nat.mod_eq_of_lt hcourse]
  simp [Course.degraded, Course.healthy, htouched]
theorem exec_sweep_first (hstale : line ∈ (s.w.core k).stale) (hline : line / 64 = course)
    (honly : ∀ l ∈ (s.w.core k).stale, l / 64 = course → l = line) (htouched : course ∉ (s.w.core k).touched)
    (hsweep : ∀ e ∈ (s.w.core k).sweep, e.1 ≠ course) :
    exec (.mortarSweep k course) s = .next (s.withWorld (s.w.modCore k (fun c => { c with sweep := fput c.sweep course (2 * line) }))) := by
  have hfree := sweepAct_free hc hcourse htouched
  have hmod : course % 32 = course := Nat.mod_eq_of_lt hcourse
  have hnone : (s.w.core k).sweep.find? (fun e => e.1 == course) = none := List.find?_eq_none.2 fun e he => by simpa using hsweep e he
  have hsome : (s.w.core k).stale.find? (fun l => l / 64 == course) = some line := by
    cases hf : (s.w.core k).stale.find? (fun l => l / 64 == course) with
    | none => exact absurd (List.find?_eq_none.1 hf line hstale) (by simp [hline])
    | some l => rw [honly l (List.mem_of_find?_eq_some hf) (by simpa using List.find?_some hf)]
  rw [hmod] at hfree
  have hact : sweepAct k course s = only (s.w.modCore k (fun c => { c with sweep := fput c.sweep course (2 * line) })) := by
    simp only [sweepAct, hmod, hfree, hnone, hsome]
    rfl
  exact congrArg (done s) hact
/-- The core after a sweep has resealed its line, from what its reads left. -/
def Core.swept (c : Core) (course line : Nat) : Core :=
  let d := { c.freshen line with sweep := fdel c.sweep course }.count 0x25 1
  { d with ctx := flushAll d.ctx d.evq, evq := [] }
theorem sweepAct_second (htouched : course ∉ (s.w.core k).touched) (hsweep : (s.w.core k).sweep = [(course, 2 * line + 1)]) :
    sweepAct k course s = s.inOrder [State.resealRead k line, fun t => only ((((t.w.modCore k (fun c =>
      { (c.freshen line) with sweep := fdel c.sweep course })).count k 0x25 1).countDie (dieOf k) 0x06 (t.w.tenOf k) 1).counts k)] := by
  have hfree := sweepAct_free hc hcourse htouched
  have hmod : course % 32 = course := Nat.mod_eq_of_lt hcourse
  have hsome : (s.w.core k).sweep.find? (fun e => e.1 == course) = some (course, 2 * line + 1) := by simp [hsweep]
  have hodd : ((2 * line + 1) % 2 == 1) = true := by simp [Nat.add_mod]
  have hhalf : (2 * line + 1) / 2 = line := by omega
  rw [hmod] at hfree
  simp only [sweepAct, hmod, hfree, hsome, hodd, hhalf]
  rfl
omit hc hcourse in
theorem resealRead_core (j : Nat) : (State.resealRead k line s).w.core j = (s.w.sealReads k line).core j := clearErrs_core ..
omit hc hcourse in
theorem resealRead_out : (State.resealRead k line s).out =
    [.bytes .mortar (mortarOf k (line * 1024)) (parity (s.mem.bytes .spd (spdAt k (line * 1024)) 1024))] := by
  rw [State.resealRead, State.reseal]
/-- A sweep's second cycle: its line gets its parity, and its core has swept. -/
theorem exec_sweep_second (htouched : course ∉ (s.w.core k).touched) (hsweep : (s.w.core k).sweep = [(course, 2 * line + 1)]) :
    ∃ t, exec (.mortarSweep k course) s = .next t ∧
      t.mem = s.mem.apply (.bytes .mortar (mortarOf k (line * 1024)) (parity (s.mem.bytes .spd (spdAt k (line * 1024)) 1024))) ∧
      (∀ j, j ≠ k → t.w.core j = s.w.core j) ∧ t.w.core k = ((s.w.sealReads k line).core k).swept course line := by
  have hread := resealRead_core (s := s) (k := k) (line := line)
  have hout := resealRead_out (s := s) (k := k) (line := line)
  have hexec : exec (.mortarSweep k course) s = done s (sweepAct k course s) := rfl
  rw [hexec, sweepAct_second hc hcourse htouched hsweep, done, commit_inOrder_pair, commit_only]
  refine ⟨_, rfl, congrArg s.mem.applyAll hout, fun j hj => ?_, ?_⟩
  · rw [World.counts, core_modCore_other _ _ _ _ hj, World.countDie, modDie_core, World.count, core_modCore_other _ _ _ _ hj,
      core_modCore_other _ _ _ _ hj, commit_w, hread]
    exact (sealReads_served s.w k line).others j hj
  · rw [World.counts, core_modCore_same, World.countDie, modDie_core, World.count, core_modCore_same, core_modCore_same, commit_w, hread]
    rfl
end
theorem exec_sweep_none (hstale : ∀ l ∈ (s.w.core k).stale, l / 64 ≠ course % 32) (hsweep : ∀ e ∈ (s.w.core k).sweep, e.1 ≠ course % 32) :
    exec (.mortarSweep k course) s = .next s := by
  have hnone : (s.w.core k).sweep.find? (fun e => e.1 == course % 32) = none := List.find?_eq_none.2 fun e he => by simpa using hsweep e he
  have hnoline : (s.w.core k).stale.find? (fun l => l / 64 == course % 32) = none :=
    List.find?_eq_none.2 fun l hl => by simpa using hstale l hl
  have hact : sweepAct k course s = only s.w := by
    simp only [sweepAct, hnone, hnoline, ite_self]
  exact congrArg (done s) hact
theorem exec_sweep_touched (htouched : course % 32 ∈ (s.w.core k).touched) (hruns : s.w.coreRuns k = true) :
    exec (.mortarSweep k course) s = .next s := by
  have hact : sweepAct k course s = only s.w := if_pos (by simp [htouched, hruns])
  exact congrArg (done s) hact
end

/-- A core after a sweep, from before the sweep's reads. -/
theorem swept_of_readOnly {c d : Core} {course line : Nat} (h : c.ReadOnly d) :
    (d.swept course line).ctx = { c.ctx with evc := (d.swept course line).ctx.evc, evcsel := (d.swept course line).ctx.evcsel } ∧
    (c.evq = [] → ∀ j < 8, fget c.ctx.evcsel 0 j = 2 ^ 6 + 0x25 → fget (d.swept course line).ctx.evc 0 j = (fget c.ctx.evc 0 j + 1) % 2 ^ 48) ∧
    (d.swept course line).sweep = fdel c.sweep course ∧ ∀ l, l ∈ (d.swept course line).stale ↔ l ∈ c.stale ∧ l ≠ line := by
  have hctx : d.ctx = c.ctx := (congrArg Core.ctx h.eq :)
  have hstale : d.stale = c.stale := (congrArg Core.stale h.eq :)
  have hsweep : d.sweep = c.sweep := (congrArg Core.sweep h.eq :)
  have hswept : (d.swept course line).ctx = flushAll c.ctx (fput d.evq 0x25 (fget d.evq 0 0x25 + 1)) := by rw [← hctx]; rfl
  refine ⟨?_, fun hq j hj hsel => ?_, congrArg (fdel · course) hsweep, fun l => ?_⟩
  · rw [hswept]
    exact (flushAll_frame ..).symm
  · have hkeys : ∀ e ∈ d.evq, e.1 ≠ 0x25 := fun e he => by
      rcases h.evq e he with ⟨e', he', -⟩ | hnew | hnew
      · rw [hq] at he'
        cases he'
      all_goals rw [hnew]; decide
    have hfdel : fdel d.evq 0x25 = d.evq := List.filter_eq_self.2 fun e he => by simpa using hkeys e he
    have hzero : fget d.evq 0 0x25 = 0 := by rw [← hfdel, fget_fdel_same]
    rw [hswept, hzero, fput, hfdel]
    exact flushAll_counted hkeys (by decide) hj ⟨by rw [hsel]; rfl, by rw [hsel]; rfl⟩ _
  · show l ∈ sdel d.stale line ↔ _
    rw [hstale]
    simp [sdel]

/-! ## The commits of a core's own scratchpad, in bytes -/

section
variable {s : State} {k : Nat}

/-- The write of a core's one atomic that is due: its number, and the parity of its row. -/
theorem amoCoveredWrite_written {a : AmoW} (h : (s.w.core k).amos = [a]) (hv : a.void = false) (hsup : a.sup = s.w.inHandler k)
    (ht : a.issue + 2 ≤ s.w.clockOf k) (hc : (s.w.core k).courses = []) (hrow : a.addr / 256 = (a.addr + a.n - 1) / 256) :
    ∃ t : State, exec (.amoCoveredWrite k) s = .next t ∧
      IsNumber t.mem .spd (k * 2 ^ 21 + a.addr % 2 ^ 21) a.n (a.value % 2 ^ (8 * a.n)) ∧
      SameBut s.mem t.mem [(.spd, k * 2 ^ 21 + a.addr % 2 ^ 21, a.n),
        (.mortar, k * 2 ^ 19 + a.addr / 65536 % 32 * 2 ^ 14 + a.addr / 1024 % 64 * 2 ^ 8, 256)] ∧
      (∀ j, j ≠ k → t.w.core j = s.w.core j) ∧ (t.w.core k).ctx = (s.w.core k).ctx ∧ (t.w.core k).amos = [{ a with void := true }] := by
  obtain ⟨hmem, hothers, hctx, hamos⟩ := amoWrite_does (s := s) h hc
  have hbut := coveredWrites_sameBut s.mem k a.addr (bs := leBytes a.n a.value)
  obtain ⟨hlow, hhigh⟩ := mortarOf_within hrow k
  rw [leBytes_length, ← hmem] at hbut
  refine ⟨_, exec_amoCoveredWrite h hv hsup ht, ?_, hbut.mono ?_, hothers, hctx, hamos⟩
  · rw [hmem]
    exact (isNumber_written ..).congr fun x => coveredWrites_spd ..
  · simp only [List.forall_mem_cons, List.not_mem_nil, false_implies, implies_true, and_true]
    exact ⟨⟨_, List.mem_cons_self, rfl, le_refl _, le_refl _⟩, _, List.mem_cons_of_mem _ List.mem_cons_self, rfl, hlow, hhigh⟩
/-- The second cycle of a sweep: the line's parity row, the event counted at once, and the line fresh. -/
theorem mortarSweep_resealed {course line : Nat} (h32 : course < 32) (hc : (s.w.core k).courses = []) (ht : course ∉ (s.w.core k).touched)
    (hs : (s.w.core k).sweep = [(course, 2 * line + 1)]) :
    let c := s.w.core k
    let row := k * 2 ^ 21 + line * 1024 % 2 ^ 21
    let mortarRow := k * 2 ^ 19 + line / 64 % 32 * 2 ^ 14 + line % 64 * 2 ^ 8
    ∃ t : State, exec (.mortarSweep k course) s = .next t ∧
      (t.w.core k).ctx = { c.ctx with evc := (t.w.core k).ctx.evc, evcsel := (t.w.core k).ctx.evcsel } ∧
      (∀ j, j ≠ k → t.w.core j = s.w.core j) ∧
      (c.evq = [] → ∀ j < 8, fget c.ctx.evcsel 0 j = 2 ^ 6 + 0x25 → fget (t.w.core k).ctx.evc 0 j = (fget c.ctx.evc 0 j + 1) % 2 ^ 48) ∧
      (∀ i < 256, t.mem.byte .mortar (mortarRow + i) = s.mem.byte .spd (row + i) ^^^ s.mem.byte .spd (row + 256 + i) ^^^
        s.mem.byte .spd (row + 512 + i) ^^^ s.mem.byte .spd (row + 768 + i)) ∧
      SameBut s.mem t.mem [(.mortar, mortarRow, 256)] ∧ line ∉ (t.w.core k).stale ∧ (t.w.core k).sweep = [] ∧
      ∀ l, l ≠ line → (l ∈ (t.w.core k).stale ↔ l ∈ c.stale) := by
  intro c row mortarRow
  obtain ⟨t, hexec, hmem, hothers, hcore⟩ := exec_sweep_second hc h32 ht hs
  obtain ⟨hctx, hcount, hsweep, hstale⟩ := swept_of_readOnly (course := course) (line := line) (sealReads_readOnly s.w k line)
  obtain ⟨hparity, hbut⟩ := mortar_resealed s.mem k line
  rw [← hcore] at hctx hcount hsweep hstale
  rw [← hmem] at hparity hbut
  have hempty : fdel (s.w.core k).sweep course = [] := by simp [hs, fdel]
  exact ⟨t, hexec, hctx, hothers, hcount, hparity, hbut, fun hl => ((hstale line).1 hl).2 rfl, hsweep.trans hempty,
    fun l hl => (hstale l).trans (and_iff_left hl)⟩
end

end Sys2Proof.Machine
end

/-! SUPPORT. What each tile command, MCFG and a fill leave at their posted times (R229, R230, R296, R298, R306 to R311); O44. -/
section
namespace Sys2Proof.Machine
open Sys2Proof

/-! ## Tiles as maps (R296) -/

/-- A place of a map after entries that agree on it: the entries' value where one names it. -/
theorem putAll_at {d k v : Nat} {l : List (Nat × Nat)} (h : ∀ e ∈ l, e.1 = k → e.2 = v) (m : FMap Nat) :
    fget (putAll d m l) d k = if k ∈ l.map (·.1) then v else fget m d k := by
  induction l generalizing m with
  | nil => rfl
  | cons e r ih =>
    obtain ⟨he, hr⟩ := List.forall_mem_cons.1 h
    rw [putAll, ih hr]
    rcases eq_or_ne k e.1 with rfl | hk
    · simp [he rfl]
    · rw [fget_fset_other _ _ _ _ _ hk]
      exact if_congr (by rw [List.map_cons, List.mem_cons, or_iff_right hk]) rfl rfl

section
variable (t : Tile) (shape j : Nat) (bs : List Byte) {r c : Nat} (hc : c < 1024)
include hc

/-- A row that a line is laid in. -/
theorem loadLine_row (hcols : shCols shape ≤ 1024) :
    (t.loadLine shape false j bs).at (fmtZero (shFmt shape)) r c =
      if r = j ∧ c < shCols shape then elemAt (fmtBytes (shFmt shape)) bs c else t.at (fmtZero (shFmt shape)) r c := by
  refine (putAll_at (v := elemAt (fmtBytes (shFmt shape)) bs c) (fun e he hk => ?_) _).trans (if_congr ?_ rfl rfl)
  · obtain ⟨i, hi, rfl⟩ := List.mem_map.1 he
    have hi := List.mem_range.1 hi
    obtain rfl : i = c := by dsimp only at hk; omega
    rfl
  · simp only [List.map_map, List.mem_map, List.mem_range, Function.comp]
    exact ⟨fun ⟨i, hi, hk⟩ => by omega, fun ⟨hr, hcol⟩ => ⟨c, hcol, by rw [hr]⟩⟩
/-- A column that a line is laid in. -/
theorem loadLine_column (hj : j < 1024) :
    (t.loadLine shape true j bs).at (fmtZero (shFmt shape)) r c =
      if c = j ∧ r < shRows shape then elemAt (fmtBytes (shFmt shape)) bs r else t.at (fmtZero (shFmt shape)) r c := by
  refine (putAll_at (v := elemAt (fmtBytes (shFmt shape)) bs r) (fun e he hk => ?_) _).trans (if_congr ?_ rfl rfl)
  · obtain ⟨i, hi, rfl⟩ := List.mem_map.1 he
    obtain rfl : i = r := by dsimp only at hk; omega
    rfl
  · simp only [List.map_map, List.mem_map, List.mem_range, Function.comp]
    exact ⟨fun ⟨i, hi, hk⟩ => by omega, fun ⟨hc, hrow⟩ => ⟨r, hrow, by rw [hc]⟩⟩
end
theorem setValid_valid (t : Tile) (j r : Nat) (v : Bool) : (t.setValid j v).valid r = if r = j then v else t.valid r := by
  rcases eq_or_ne r j with rfl | hr
  · cases v <;> simp [Tile.valid, Tile.setValid, sdel, mem_sadd]
  · cases v <;> simp [Tile.valid, Tile.setValid, sdel, mem_sadd, hr]

section
variable (shape first n : Nat) (m : Bool) (line : Nat → List Byte)

/-- The validity that a TLOAD gives the row of line `j`. -/
def lineValid (j : Nat) : Bool := if m then bitOf 0 ((line n).getD j 0).toNat else true

theorem loadLines_scale (tr : Bool) (l : List Nat) (t : Tile) : (loadLines shape m tr first n line t l).scale = t.scale := by
  induction l generalizing t with
  | nil => rfl
  | cons j r ih =>
    rw [loadLines, ih]
    cases tr <;> rfl
theorem loadLines_rows (hcols : shCols shape ≤ 1024) (l : List Nat) (t : Tile) {r c : Nat} (hc : c < 1024) :
    (loadLines shape m false first n line t l).at (fmtZero (shFmt shape)) r c =
      if first ≤ r ∧ r - first ∈ l ∧ c < shCols shape then elemAt (fmtBytes (shFmt shape)) (line (r - first)) c
      else t.at (fmtZero (shFmt shape)) r c := by
  induction l generalizing t with
  | nil => simp [loadLines]
  | cons j l ih =>
    have hset (t : Tile) (v : Bool) : (t.setValid (first + j) v).at (fmtZero (shFmt shape)) r c = t.at (fmtZero (shFmt shape)) r c := rfl
    rw [loadLines, ih]
    rw [if_neg Bool.false_ne_true, hset, loadLine_row _ _ _ _ hc hcols]
    by_cases hj : r = first + j
    · subst hj
      by_cases hcol : c < shCols shape <;> simp [hcol]
    · have hne : first ≤ r → r - first ≠ j := by omega
      by_cases hr : first ≤ r
      · simp [hj, hr, hne hr]
      · simp [hj, hr]
theorem loadLines_valid (l : List Nat) (t : Tile) (r : Nat) :
    (loadLines shape m false first n line t l).valid r =
      if first ≤ r ∧ r - first ∈ l then lineValid n m line (r - first) else t.valid r := by
  induction l generalizing t with
  | nil => simp [loadLines]
  | cons j l ih =>
    have hload (t : Tile) (bs : List Byte) : (t.loadLine shape false (first + j) bs).valid r = t.valid r := rfl
    rw [loadLines, ih]
    rw [if_neg Bool.false_ne_true, setValid_valid, hload]
    by_cases hj : r = first + j
    · subst hj
      simp [lineValid]
    · have hne : first ≤ r → r - first ≠ j := by omega
      by_cases hr : first ≤ r
      · simp [hj, hr, hne hr]
      · simp [hj, hr]
theorem loadLines_invalid (l : List Nat) (t : Tile) : (loadLines shape m true first n line t l).invalid = t.invalid := by
  induction l generalizing t with
  | nil => rfl
  | cons j r ih =>
    rw [loadLines, ih]
    rfl
theorem loadLines_columns {l : List Nat} (hl : ∀ j ∈ l, first + j < 1024) (t : Tile) {r c : Nat} (hc : c < 1024) :
    (loadLines shape m true first n line t l).at (fmtZero (shFmt shape)) r c =
      if first ≤ c ∧ c - first ∈ l ∧ r < shRows shape then elemAt (fmtBytes (shFmt shape)) (line (c - first)) r
      else t.at (fmtZero (shFmt shape)) r c := by
  induction l generalizing t with
  | nil => simp [loadLines]
  | cons j l ih =>
    obtain ⟨hj1024, hrest⟩ := List.forall_mem_cons.1 hl
    rw [loadLines, ih hrest]
    rw [if_pos rfl, loadLine_column _ _ _ _ hc hj1024]
    by_cases hj : c = first + j
    · subst hj
      by_cases hrow : r < shRows shape <;> simp [hrow]
    · have hne : first ≤ c → c - first ≠ j := by omega
      by_cases hr : first ≤ c
      · simp [hj, hr, hne hr]
      · simp [hj, hr]
end
theorem scaled_sp (t : Tile) (g n : Nat) (line : Nat → List Byte) {r j : Nat} (hj : j < 1024) :
    (t.scaled g n line).sp r j = if g ≤ r ∧ r < g + n then ((line (r - g)).getD j 0).toNat else t.sp r j := by
  refine (putAll_at (v := ((line (r - g)).getD j 0).toNat) (fun e he hk => ?_) _).trans (if_congr ?_ rfl rfl)
  · obtain ⟨es, hes, he⟩ := List.mem_flatten.1 he
    obtain ⟨a, -, rfl⟩ := List.mem_map.1 hes
    obtain ⟨i, hi, rfl⟩ := List.mem_map.1 he
    have hi := List.mem_range.1 hi
    dsimp only at hk
    obtain ⟨rfl, rfl⟩ : i = j ∧ r = g + a := by omega
    rw [Nat.add_sub_cancel_left]
  · simp only [List.mem_map, List.mem_flatten, List.mem_range]
    refine ⟨?_, fun h => ?_⟩
    · rintro ⟨e, ⟨es, ⟨a, ha, rfl⟩, he⟩, hk⟩
      obtain ⟨i, hi, rfl⟩ := List.mem_map.1 he
      have hi := List.mem_range.1 hi
      dsimp only at hk
      omega
    · exact ⟨_, ⟨_, ⟨r - g, by omega, rfl⟩, List.mem_map.2 ⟨j, List.mem_range.2 hj, rfl⟩⟩, by rw [Nat.add_sub_cancel' h.1]⟩

/-! ## A command without lines at its posted time (R12, R298) -/

/-- The operations whose one item is their result at the posted time: a fill, and every array command but a tile store. -/
def FOp.single : FOp → Bool
  | .ifill .. | .tload .. | .tscl .. | .tzero .. | .mma .. | .tcvt .. | .mcfg .. => true
  | _ => false

section
variable {s : State} {f : Flight}

section
variable (h : f.op.single = true)
include h
theorem lineList_single : f.lineList = [] := by
  unfold Flight.lineList
  split
  case h_4 => rfl
  all_goals simp_all [FOp.single]
theorem itemCount_single : f.itemCount = 1 := by
  unfold Flight.itemCount
  split
  case h_4 => rw [lineList_single h]; rfl
  all_goals simp_all [FOp.single]
theorem preRead_single (m : Mems) (i : Nat) : f.preRead m i = f := by
  unfold Flight.preRead
  split
  · simp_all [FOp.single]
  · rfl
theorem isEng_single : isEng f.op = false := by
  unfold isEng
  split
  · simp_all [FOp.single]
  · rfl
theorem present_single (hh : f.held = false) (hm : isFill f.op = true → f.missing = []) : f.present 0 = true := by
  unfold Flight.present
  split <;> simp_all [FOp.single, isFill]
/-- The commit of a command's one item: the command leaves, and its result is what it does. -/
theorem postedCommit_single (hf : s.w.flights = [f]) (hh : f.held = false) (hl : f.lines = []) (hp : f.posted ≤ s.w.clock f.gang f.sup)
    (hm : isFill f.op = true → f.missing = []) :
    s.commit (postedCommitAct f.id 0 s) = (s.withW (s.w.dropFlight f.id)).commit (State.commitResult f f.posted (s.withW (s.w.dropFlight f.id))) := by
  have hopen : f.open_ = [0] := by simp [Flight.open_, itemCount_single h, hl]
  have hdone : ({ f with lines := sadd f.lines 0 } : Flight).open_ = [] := by
    have hcount : ({ f with lines := sadd f.lines 0 } : Flight).itemCount = 1 := itemCount_single (f := { f with lines := sadd f.lines 0 }) h
    show (List.range ({ f with lines := sadd f.lines 0 } : Flight).itemCount).filter (fun i => !(sadd f.lines 0).contains i) = []
    rw [hcount, hl]
    rfl
  have hdue : f.dueOf 0 = f.posted := by simp [Flight.dueOf, lineList_single h]
  have hflight : s.w.flight? f.id = some f := by simp [World.flight?, hf]
  have hline (u : State) : State.commitLine f 0 f.posted u = only u.w := by simp [State.commitLine, lineList_single h]
  have hact : postedCommitAct f.id 0 s = State.inOrder (s.withW (s.w.dropFlight f.id)) [State.commitResult f f.posted, State.commitLine f 0 f.posted] := by
    simp [postedCommitAct, hflight, hopen, hdue, hp, present_single h hh hm, State.commitItem, preRead_single h, hdone, isEng_single h]
    rfl
  rw [hact]
  have := commit_inOrder_pair (s.withW (s.w.dropFlight f.id)) (State.commitResult f f.posted) (State.commitLine f 0 f.posted)
  rw [hline, commit_only] at this
  exact this
end

/-- A command of one core that may commit, alone in flight. -/
structure Ready (s : State) (f : Flight) : Prop where
  flights : s.w.flights = [f]
  held : f.held = false
  badParts : f.badParts = []
  lines : f.lines = []
  posted : f.posted ≤ s.w.clock f.gang f.sup

/-- The world that the result of a command comes to: the command has left. -/
def World.left (w : World) (f : Flight) : World := w.dropFlight f.id
namespace Ready
variable (r : Ready s f)
include r

theorem left_flights : (s.w.left f).flights = [] := by simp [World.left, World.dropFlight, r.flights]
theorem commit (h : f.op.single = true) (hm : isFill f.op = true → f.missing = []) {p : FOp → Bool} (hp : p f.op = true) :
    done s (commitIf p f.id s) = .next ((s.withW (s.w.left f)).commit (State.commitResult f f.posted (s.withW (s.w.left f)))) := by
  have hflight : s.w.flight? f.id = some f := by simp [World.flight?, r.flights]
  have hact : commitIf p f.id s = postedCommitAct f.id 0 s := by simp [commitIf, hflight, hp]
  rw [hact]
  exact congrArg Host.Outcome.next (postedCommit_single h r.flights r.held r.lines r.posted hm)
/-- The result of an array command whose one item commits. -/
theorem array (h : f.op.single = true) (hfill : isFill f.op = false) {p : FOp → Bool} (hp : p f.op = true) :
    done s (commitIf p f.id s) = .next { w := (s.w.left f).arrayResult f, mem := s.mem } := by
  have hresult (u : State) : State.commitResult f f.posted u = only (u.w.arrayResult f) := by
    unfold State.commitResult
    split <;> simp_all [FOp.single, isFill, r.badParts]
  rw [r.commit h (fun hf => absurd hf (by simp [hfill])) hp, hresult]
  rfl
end Ready
end

/-! ## A tile is set (R296, R298, R304) -/

theorem setTile_same (d : Die) (tile : Nat) (u : Tile) : (d.setTile tile u).tile tile = u := fget_fset_same ..
theorem setTile_other (d : Die) {tile j : Nat} (u : Tile) (h : j ≠ tile) : (d.setTile tile u).tile j = d.tile j :=
  fget_fset_other _ _ _ _ _ h

/-- A core's command has set a tile of the core's die, and left the core so. -/
structure TileSet (w v : World) (k tile : Nat) (u : Tile) (e : Core) : Prop where
  flights : v.flights = w.flights
  others : ∀ j, j ≠ k → v.core j = w.core j
  core : v.core k = e
  die : v.die (k / 8) = (w.die (k / 8)).setTile tile u

/-- A core with a command's flags among its own. -/
def Core.flagged (c : Core) (flags : Nat) : Core := { c with ctx := { c.ctx with fpflags := c.ctx.fpflags ||| (flags &&& c.ctx.fpctrl) } }

/-- The commands whose result is one tile. -/
def FOp.tiled : FOp → Bool
  | .tload .. | .tscl .. | .tzero .. | .mma .. | .tcvt .. => true
  | _ => false
theorem tiled_iff (o : FOp) : o.tiled = true ↔ o.single = true ∧ isFill o = false ∧ (arrayOp o && !isMcfg o) = true := by
  cases o <;> simp [FOp.tiled, FOp.single, isFill, arrayOp, isMcfg]

section
variable (w : World) (k tile : Nat) (u : Die → Tile)

theorem tileSet_modDie : TileSet w (w.modDie (k / 8) (fun d => d.setTile tile (u d))) k tile (u (w.die (k / 8))) (w.core k) :=
  ⟨rfl, fun _ _ => rfl, rfl, die_modDie_same ..⟩
theorem tileSet_flagged (flags : Nat) (t : ErrSite) :
    TileSet w (((w.clearErrs t).modDie (k / 8) (fun d => d.setTile tile (u d))).putFlags k flags) k tile (u (w.die (k / 8)))
      ((w.core k).flagged flags) :=
  ⟨rfl, fun j hj => core_modCore_other _ _ _ _ hj, core_modCore_same .., by
    show ((w.clearErrs t).modDie (k / 8) (fun d => d.setTile tile (u d))).die (k / 8) = _
    rw [die_modDie_same]
    rfl⟩
end

/-! The tile that each command sets, and the flags it leaves. -/

section
variable {w : World} {f : Flight} {tile : Nat}
theorem tileSet_tload {m tr q : Bool} {first n line : Nat} (hop : f.op = .tload m tr q tile first n line) :
    TileSet w (w.arrayResult f) f.core tile (((w.die (f.core / 8)).tile tile).loaded ((w.die (f.core / 8)).shape tile) m tr first n (f.lineOf q))
      (w.core f.core) := by
  rw [World.arrayResult, hop]
  exact tileSet_modDie w f.core tile fun d => (d.tile tile).loaded (d.shape tile) m tr first n (f.lineOf q)
theorem tileSet_tscl {first n line : Nat} (hop : f.op = .tscl tile first n line) :
    TileSet w (w.arrayResult f) f.core tile (((w.die (f.core / 8)).tile tile).scaled first n (f.lineOf false)) (w.core f.core) := by
  rw [World.arrayResult, hop]
  exact tileSet_modDie w f.core tile fun d => (d.tile tile).scaled first n (f.lineOf false)
theorem tileSet_tzero (hop : f.op = .tzero tile) : TileSet w (w.arrayResult f) f.core tile .cleared (w.core f.core) := by
  rw [World.arrayResult, hop]
  obtain ⟨hf, ho, hc, hd⟩ := tileSet_modDie (w.clearErrs (.tile (f.core / 8) tile)) f.core tile fun _ => .cleared
  exact ⟨hf, ho, hc, hd⟩
theorem tileSet_mma {out : FMap Nat} (hop : f.op = .mma tile out) :
    TileSet w (w.arrayResult f) f.core tile { (w.die (f.core / 8)).tile tile with elems := out } ((w.core f.core).flagged f.flags) := by
  rw [World.arrayResult, hop]
  exact tileSet_flagged w f.core tile (fun d => { d.tile tile with elems := out }) f.flags _
theorem tileSet_tcvt {out : FMap Nat} (hop : f.op = .tcvt tile out) :
    TileSet w (w.arrayResult f) f.core tile { elems := out, invalid := [], scale := [] } ((w.core f.core).flagged f.flags) := by
  rw [World.arrayResult, hop]
  exact tileSet_flagged w f.core tile (fun _ => { elems := out, invalid := [], scale := [] }) f.flags _
end

section
variable {s : State} {f : Flight} (r : Ready s f)
include r
/-- A command that sets a tile, at its posted time. -/
theorem Ready.setsTile (h : f.op.tiled = true) {tile : Nat}
    {u : Tile} {e : Core} (ht : TileSet (s.w.left f) ((s.w.left f).arrayResult f) f.core tile u e) {P : Tile → Core → Prop} (hP : P u e) :
    ∃ t : State, exec (.arrayCommit f.id) s = .next t ∧ t.mem = s.mem ∧ t.w.flights = [] ∧ (∀ j, j ≠ f.core → t.w.core j = s.w.core j) ∧
      (∀ j, j ≠ tile → (t.w.die (f.core / 8)).tile j = (s.w.die (f.core / 8)).tile j) ∧
      (t.w.die (f.core / 8)).shapes = (s.w.die (f.core / 8)).shapes ∧ P ((t.w.die (f.core / 8)).tile tile) (t.w.core f.core) := by
  obtain ⟨hsingle, hfill, hp⟩ := (tiled_iff _).1 h
  refine ⟨_, r.array hsingle hfill hp, rfl, ht.flights.trans r.left_flights, ht.others, fun j hj => ?_, ?_, ?_⟩
  · rw [ht.die]
    exact setTile_other _ _ hj
  · rw [ht.die]
    rfl
  · rw [ht.die, setTile_same, ht.core]
    exact hP
end

/-! ## A fill completes (R229, R230) -/

/-- A fill's words are in its half, and its core reports. -/
theorem exec_ifillComplete {s : State} {f : Flight} (r : Ready s f) {half : Bool} {n : Nat} (hop : f.op = .ifill half n) (hm : f.missing = []) :
    ∃ (t : State) (v : Verified), exec (.ifillComplete f.id) s = .next t ∧ t.w.flights = [] ∧
      t.mem = s.mem.apply (.bytes .isp (ispAt f.core (halfBase half)) (f.fillBytes n)) ∧ (∀ j, j ≠ f.core → t.w.core j = s.w.core j) ∧
      t.w.core f.core = (s.w.core f.core).filled half (crc32c (f.fillBytes n)) v := by
  have hexec : exec (.ifillComplete f.id) s = done s (commitIf isFill f.id s) := rfl
  have hresult (u : State) : State.commitResult f f.posted u = u.fillResult f half n := by rw [State.commitResult, hop]
  rw [hexec, r.commit (by rw [hop]; rfl) (fun _ => hm) (by rw [hop]; rfl), hresult]
  exact ⟨_, _, rfl, r.left_flights, rfl, fun j hj => core_modCore_other _ _ _ _ hj, core_modCore_same ..⟩

/-- A fill's bytes in its half, and the report in `IFSTAT` and in the half's state. -/
theorem ifillComplete_reports {s : State} {f : Flight} (r : Ready s f) {half : Bool} {n : Nat} (hop : f.op = .ifill half n)
    (hm : f.missing = []) :
    let k := f.core
    let c := s.w.core k
    ∃ (t : State) (code : Nat), exec (.ifillComplete f.id) s = .next t ∧ (∀ j, j ≠ k → t.w.core j = s.w.core j) ∧ t.w.flights = [] ∧
      (∀ i b, (f.fillBytes n)[i]? = some b → t.mem.byte .isp (ispAt k (if half then 34816 else 4096) + i) = b) ∧
      SameBut s.mem t.mem [(.isp, ispAt k (if half then 34816 else 4096), 4 * n)] ∧
      (t.w.core k).ifstat.busy = false ∧ ((t.w.core k).ifstat.valid = true ↔ code = 0) ∧ (t.w.core k).ifstat.code = code ∧
      (if half then (t.w.core k).ctx.halfB else (t.w.core k).ctx.halfA) = (if code = 0 then 3 else 5) ∧
      (t.w.core k).ctx.sregs = c.ctx.sregs ∧ (t.w.core k).ctx.vregs = c.ctx.vregs := by
  intro k c
  obtain ⟨t, v, hexec, hflights, hmem, hothers, hcore⟩ := exec_ifillComplete r hop hm
  have hlen : (f.fillBytes n).length ≤ 4 * n := List.length_take_le ..
  have hbut := sameBut_written s.mem .isp (ispAt f.core (halfBase half)) (f.fillBytes n)
  refine ⟨t, v.code, hexec, hothers, hflights, fun i b hb => ?_, ?_, ?_, ?_, ?_, ?_, ?_, ?_⟩
  · obtain ⟨hi, rfl⟩ := List.getElem?_eq_some_iff.1 hb
    rw [hmem]
    exact byte_written _ _ _ _ _ hi
  · rw [hmem]
    exact hbut.mono (by simpa [halfBase, k] using hlen)
  all_goals rw [hcore]
  · rfl
  · exact beq_iff_eq
  · rfl
  · cases half <;> simp [Core.filled]
  · cases half <;> rfl
  · cases half <;> rfl

/-! ## MCFG (R298) -/

theorem foldl_clearErrs_dies (k : Nat) (l : List Nat) (w : World) :
    let v := l.foldl (fun a c => a.clearErrs (.tile k c)) w
    v.flights = w.flights ∧ (∀ j, v.core j = w.core j) ∧ ∀ j, v.die j = w.die j := by
  induction l generalizing w with
  | nil => exact ⟨rfl, fun _ => rfl, fun _ => rfl⟩
  | cons c l ih =>
    obtain ⟨hf, hc, hd⟩ := ih (w.clearErrs (.tile k c))
    exact ⟨hf, hc, hd⟩
theorem arrayResult_mcfg {w : World} {f : Flight} {shapes : FMap Nat} (hop : f.op = .mcfg shapes) : w.arrayResult f =
    ((List.range 20).foldl (fun a c => a.clearErrs (.tile (f.core / 8) c)) w).modDie (f.core / 8)
      (fun d => { d with shapes := shapes, tiles := [], mcfgAt := none }) := by
  simp only [World.arrayResult, hop, dieOf]
/-- MCFG installs its shapes and clears every tile. -/
theorem exec_mcfgCommit {s : State} {f : Flight} (r : Ready s f) {shapes : FMap Nat} (hop : f.op = .mcfg shapes) :
    ∃ t : State, exec (.mcfgCommit f.id) s = .next t ∧ t.mem = s.mem ∧ t.w.flights = [] ∧
      t.w.die (f.core / 8) = { s.w.die (f.core / 8) with shapes := shapes, tiles := [], mcfgAt := none } ∧ ∀ j, t.w.core j = s.w.core j := by
  have hexec : exec (.mcfgCommit f.id) s = done s (commitIf isMcfg f.id s) := rfl
  have hdone := r.array (by rw [hop]; rfl) (by rw [hop]; rfl) (p := isMcfg) (by rw [hop]; rfl)
  obtain ⟨hf, hc, hd⟩ := foldl_clearErrs_dies (f.core / 8) (List.range 20) (s.w.left f)
  rw [arrayResult_mcfg hop] at hdone
  generalize (List.range 20).foldl (fun a c => a.clearErrs (.tile (f.core / 8) c)) (s.w.left f) = v at hdone hf hc hd
  refine ⟨_, hexec.trans hdone, rfl, hf.trans r.left_flights, ?_, hc⟩
  rw [die_modDie_same, hd]
  rfl

/-! ## A line of a TSTORE (R307) -/

/-- The line that item `i` of a TSTORE delivers, and the count of it. -/
theorem storedLine_does {s : State} {k line : Nat} {bs : List Byte} (hc : (s.w.core k).courses = []) (h : bs.length = 1024) :
    let t := s.commit (s.inOrder [State.deliverLine k line bs, State.countLine k false])
    t.mem = s.mem.applyAll (lineWrites k line bs) ∧ (∀ j, j ≠ k → t.w.core j = s.w.core j) ∧ (t.w.core k).ctx = (s.w.core k).ctx := by
  let u : State := { s with w := s.w.accessed k (line * 4) .line }
  have hu : (u.w.core k).ctx = (s.w.core k).ctx ∧ (u.w.core k).courses = (s.w.core k).courses := by
    rw [show u.w.core k = _ from core_modCore_same ..]
    exact ⟨rfl, rfl⟩
  have hcu : (u.w.core k).courses = [] := hu.2.trans hc
  have hserved := (count_served (u.storeLine k (line * 1024) bs).w k 0x23 1).after (storeLine_served line hcu h)
  rw [commit_inOrder_pair]
  refine ⟨?_, fun j hj => (hserved.others j hj).trans (core_modCore_other _ _ _ _ hj), hserved.core.ctx.trans hu.1⟩
  show s.mem.applyAll (u.storeLine k (line * 1024) bs).out = _
  rw [storeLine_whole line hcu h]

/-- An item of a TSTORE that is due: the line it delivers, from a world whose flights alone have changed. -/
theorem postedCommit_tstore {s : State} {f : Flight} {line n i : Nat} (hf : s.w.flights = [f]) (hh : f.held = false) (hi : i ∉ f.lines)
    (hdue : f.issue + 32 + i ≤ s.w.clock f.gang f.sup) (hop : f.op = .tstore line) (hlen : f.src.length = 1024 * n) (hn : i < n) :
    ∃ w : World, (∀ j, w.core j = s.w.core j) ∧ exec (.postedCommit f.id i) s = .next ((s.withW w).commit ((s.withW w).inOrder
      [State.deliverLine f.core ((line + i) % 2048) ((f.src.drop (1024 * i)).take 1024), State.countLine f.core false])) := by
  have hlines : f.lineList = (List.range n).map (fun i => (line + i) % 2048) := by simp [Flight.lineList, hop, hlen]
  have hopen : f.open_.contains i = true := by
    simp [Flight.open_, Flight.itemCount, hop, hlines, hi]
    omega
  have hdueOf : f.dueOf i = f.issue + 32 + i := by
    have hne : f.lineList.isEmpty = false := by simp [hlines]; omega
    simp [Flight.dueOf, hne, Flight.firstCommit, hop]
  have hpresent : f.present i = true := by simp [Flight.present, hh, hop]
  have hflight : s.w.flight? f.id = some f := by simp [World.flight?, hf]
  have hpre : f.preRead s.mem i = f := by simp [Flight.preRead, hop]
  have hresult (u : State) : State.commitResult f (f.dueOf i) u = only u.w := by simp [State.commitResult, hop]
  have hline (u : State) : State.commitLine f i (f.dueOf i) u = u.inOrder
      [State.deliverLine f.core ((line + i) % 2048) ((f.src.drop (1024 * i)).take 1024), State.countLine f.core false] := by
    simp [State.commitLine, hlines, hop, hn]
  have hact : postedCommitAct f.id i s = s.commitItem f i := by
    simp only [postedCommitAct, hflight, hopen, hdueOf, hdue, hpresent, decide_true, Bool.and_self, if_true]
  let g : Flight := { f with lines := sadd f.lines i }
  let w := if g.open_.isEmpty && !isEng f.op then s.w.dropFlight f.id else s.w.setFlight g
  have hcore (j : Nat) : w.core j = s.w.core j := by
    dsimp only [w]
    split <;> rfl
  have hitem : s.commitItem f i = (s.withW w).inOrder ((if i == 0 then [State.commitResult f (f.dueOf i)] else []) ++
      [State.commitLine f i (f.dueOf i)]) := by
    rw [State.commitItem, hpre]
    rfl
  have hcommit : s.commit (s.commitItem f i) = (s.withW w).commit (State.commitLine f i (f.dueOf i) (s.withW w)) := by
    rw [hitem]
    split
    · have hpair := commit_inOrder_pair (s.withW w) (State.commitResult f (f.dueOf i)) (State.commitLine f i (f.dueOf i))
      rwa [hresult, commit_only] at hpair
    · exact commit_inOrder_single (s.withW w) (State.commitLine f i (f.dueOf i))
  have hexec : exec (.postedCommit f.id i) s = done s (postedCommitAct f.id i s) := rfl
  refine ⟨w, hcore, ?_⟩
  rw [hexec, hact, done, hcommit, hline]

/-- The bytes of a TSTORE's line, and its parity. -/
theorem tstoreLine_stored {s : State} {f : Flight} {line n i : Nat} (hf : s.w.flights = [f]) (hh : f.held = false) (hi : i ∉ f.lines)
    (hdue : f.issue + 32 + i ≤ s.w.clock f.gang f.sup) (hop : f.op = .tstore line) (hlen : f.src.length = 1024 * n) (hn : i < n)
    (hc : (s.w.core f.core).courses = []) :
    let k := f.core
    let l := (line + i) % 2048
    ∃ t : State, exec (.postedCommit f.id i) s = .next t ∧ (∀ j, j ≠ k → t.w.core j = s.w.core j) ∧
      (t.w.core k).ctx = (s.w.core k).ctx ∧
      SameBut s.mem t.mem [(.spd, k * 2 ^ 21 + l * 1024, 1024), (.mortar, k * 2 ^ 19 + l / 64 * 2 ^ 14 + l % 64 * 2 ^ 8, 256)] ∧
      ∀ b < 1024, f.src[1024 * i + b]? = some (t.mem.byte .spd (k * 2 ^ 21 + l * 1024 + b)) := by
  intro k l
  obtain ⟨w, hw, hexec⟩ := postedCommit_tstore hf hh hi hdue hop hlen hn
  have hbytes : ((f.src.drop (1024 * i)).take 1024).length = 1024 := by simp [hlen]; omega
  obtain ⟨hmem, hothers, hctx⟩ := storedLine_does (s := s.withW w) (line := l) ((congrArg Core.courses (hw _)).trans hc) hbytes
  have hbut := lineWrites_sameBut s.mem k l hbytes
  have hspd : spdAt k (l * 1024) = k * 2 ^ 21 + l * 1024 := by rw [spdAt]; omega
  have hmortar : l / 64 % 32 = l / 64 := by omega
  rw [hspd, mortarOf_line, hmortar] at hbut
  refine ⟨_, hexec, fun j hj => (hothers j hj).trans (hw j), hctx.trans (congrArg Core.ctx (hw _)), ?_, fun b hb => ?_⟩
  · rw [hmem]
    exact hbut
  · rw [hmem, ← hspd, lineWrites_spd, byte_written _ _ _ _ _ (by rw [hbytes]; exact hb), List.getElem_take, List.getElem_drop]
    exact List.getElem?_eq_getElem ..

/-! ## Fields of a shape (R296) -/

theorem shRows_eq (x : Nat) : shRows x = x % 2 ^ 11 := by simp [shRows, field]
theorem shCols_eq (x : Nat) : shCols x = x / 2 ^ 11 % 2 ^ 11 := rfl
theorem fmtBytes_eq (x : Nat) : fmtBytes (shFmt x) = if x / 2 ^ 22 % 16 = 4 then 2 else if x / 2 ^ 22 % 16 = 5 then 4 else 1 := by
  simp only [fmtBytes, beq_iff_eq]
  rfl
theorem fmtZero_eq (x : Nat) : fmtZero (shFmt x) = if x / 2 ^ 22 % 16 = 1 then 0x77 else 0 := by
  simp only [fmtZero, beq_iff_eq]
  rfl
theorem lineValid_eq (n : Nat) (m : Bool) (line : Nat → List Byte) (j : Nat) :
    lineValid n m line j = if m then decide (((line n).getD j 0).toNat % 2 = 1) else true := by
  cases m <;> simp [lineValid, bitOf, Bool.beq_eq_decide_eq]

/-- Settles O44: the writes of the scratchpad by atomic, sweep and tile store, and what each tile command and a fill leave. -/
theorem scratchAndArrayCommits : Obligations.ScratchAndArrayCommits := by
  unfold Obligations.ScratchAndArrayCommits
  intro s f k course line tile n a half shapes m tr q first i out c d others mine spd mortarRow x shape rows cols fmt width z bytes
    element arrays flagged stored
  have harrays {u : Tile} {e : Core} {P : Tile → Core → Prop} (h : mine) (hp : f.op.tiled = true)
      (ht : TileSet (s.w.left f) ((s.w.left f).arrayResult f) f.core tile u e) (hP : P u e) : arrays P := by
    obtain ⟨hf, rfl, hh, hb, hl, hdue⟩ := h
    exact Ready.setsTile ⟨hf, hh, hb, hl, hdue⟩ hp ht hP
  clear_value arrays
  have hready (h : mine) : k = f.core ∧ Ready s f := by
    obtain ⟨hf, hk, hh, hb, hl, hp⟩ := h
    exact ⟨hk.symm, hf, hh, hb, hl, hp⟩
  have hzero : fmtZero (shFmt shape) = z := fmtZero_eq shape
  have hwidth : fmtBytes (shFmt shape) = width := fmtBytes_eq shape
  have hrange {p r : Nat} : (p ≤ r ∧ r - p ∈ List.range n) ↔ p ≤ r ∧ r < p + n := by
    rw [List.mem_range]
    omega
  have hrangeAnd (p r : Nat) (z : Prop) : (p ≤ r ∧ r - p ∈ List.range n ∧ z) ↔ p ≤ r ∧ r < p + n ∧ z := by
    rw [← and_assoc, hrange, and_assoc]
  refine ⟨fun ha hv hsup ht hc hrow _ => amoCoveredWrite_written ha hv hsup ht hc hrow,
    fun h32 hstale hline honly hc ht hs => exec_sweep_first hc h32 hstale hline honly ht hs,
    fun h32 _ hc ht hs => mortarSweep_resealed h32 hc ht hs, exec_sweep_none, exec_sweep_touched, fun hm hop hmiss => ?_, fun hm hop hcols => ?_, fun hm hop hn => ?_,
    fun hm hop hq => ?_, fun hm hop => ?_, fun hm hop => ?_, fun hf hk hh hi hdue hc hop hlen hn => ?_, fun hm hop => ?_, fun hm hop => ?_⟩
  · obtain ⟨rfl, r⟩ := hready hm
    exact ifillComplete_reports r hop hmiss
  · obtain ⟨rfl, -⟩ := hready hm
    refine harrays hm (by rw [hop]; rfl) (tileSet_tload hop) ?_
    refine ⟨rfl, loadLines_scale .., fun r j hj => ?_, fun r => ?_⟩
    · have hat := loadLines_rows shape first n m (f.lineOf q) hcols (List.range n) x (r := r) hj
      rw [hzero, hwidth] at hat
      exact hat.trans (if_congr (hrangeAnd ..) rfl rfl)
    · exact (loadLines_valid shape first n m (f.lineOf q) (List.range n) x r).trans (if_congr hrange (lineValid_eq ..) rfl)
  · obtain ⟨rfl, -⟩ := hready hm
    refine harrays hm (by rw [hop]; rfl) (tileSet_tload hop) ?_
    refine ⟨rfl, loadLines_scale .., loadLines_invalid .., fun r j hj => ?_⟩
    have hat := loadLines_columns shape first n m (f.lineOf q) (l := List.range n) (fun j hj => by have := List.mem_range.1 hj; omega)
      x (r := r) hj
    rw [hzero, hwidth, shRows_eq] at hat
    exact hat.trans (if_congr (hrangeAnd ..) rfl rfl)
  · obtain ⟨rfl, -⟩ := hready hm
    subst hq
    refine harrays hm (by rw [hop]; rfl) (tileSet_tscl hop) ?_
    exact ⟨rfl, rfl, rfl, fun g j hj => scaled_sp _ _ _ _ hj⟩
  · obtain ⟨rfl, -⟩ := hready hm
    refine harrays hm (by rw [hop]; rfl) (tileSet_mma hop) ?_
    exact ⟨rfl, rfl⟩
  · obtain ⟨rfl, -⟩ := hready hm
    refine harrays hm (by rw [hop]; rfl) (tileSet_tcvt hop) ?_
    exact ⟨rfl, rfl⟩
  · obtain rfl := hk
    exact tstoreLine_stored hf hh hi hdue hop hlen hn hc
  · obtain ⟨rfl, r⟩ := hready hm
    obtain ⟨t, hexec, hmem, hflights, hothers, htiles, -, htile, hcore⟩ := r.setsTile (by rw [hop]; rfl) (tileSet_tzero hop)
      (P := fun u e => u = .cleared ∧ e = s.w.core f.core) ⟨rfl, rfl⟩
    refine ⟨t, hexec, hmem, hflights, htile, htiles, fun j => ?_⟩
    rcases eq_or_ne j f.core with rfl | hj
    · exact hcore
    · exact hothers j hj
  · obtain ⟨rfl, r⟩ := hready hm
    obtain ⟨t, hexec, hmem, hflights, hdie, hcores⟩ := exec_mcfgCommit r hop
    refine ⟨t, hexec, hmem, hflights, ?_, ?_, fun j => ?_, hcores⟩ <;> rw [hdie]
    exact fget_nil ..

end Sys2Proof.Machine
end

/-! SUPPORT. Writes of the management processor, its mailbox requests and its system registers (R119, R171, R197, R255, R315, R352,
R358 to R360, R365, R369, R374) settle O53. -/
section
namespace Sys2Proof.Machine
open Sys2Proof

/-! ## What a request leaves -/

section
variable {s : State} {i : Instr} {v : World} {p : State → Prop}

/-- A request that writes no memory. -/
theorem becomes (h : exec i s = done s (only v)) (hp : p { s with w := v }) : ∃ u : State, exec i s = .next u ∧ u.mem = s.mem ∧ p u :=
  ⟨_, h, rfl, hp⟩
/-- A request that is answered, and before has changed no core and answered nothing. -/
theorem answered {a : Answer} (h : exec i s = done s (only (v.answer a))) (ho : v.hub.out = s.w.hub.out) (hc : v.cores = s.w.cores)
    (hp : p { s with w := v.answer a }) : ∃ u : State, exec i s = .next u ∧ u.mem = s.mem ∧
      u.w.hub.out = s.w.hub.out ++ [a] ∧ (∀ j, u.w.core j = s.w.core j) ∧ p u :=
  ⟨_, h, rfl, congrArg (· ++ [a]) ho, fun j => congrArg (fget · Core.zero j) hc, hp⟩
end
theorem mailbox_open {w : World} (h : w.hub.mailOpen = true) (f : World → World) : w.mailbox 0 f = f w := by simp [World.mailbox, h]
theorem mailbox_refused {w : World} {from_ : Nat} (h : from_ ≠ 0 ∨ ¬w.hub.mailOpen = true) (f : World → World) :
    w.mailbox from_ f = w.answer .error := by
  have hshut : (w.hub.mailOpen && from_ == 0) = false := by
    rcases h with h | h <;> simp [h]
  rw [World.mailbox, hshut]
  rfl
theorem bitOf_toNat {n : Nat} (e : BitVec n) : bitOf 0 e.toNat = e.getLsbD 0 := by
  rw [bitOf, BitVec.getLsbD, Nat.testBit_zero, Nat.pow_zero, Nat.div_one]
  rfl

/-! ## Bytes that move to new places (R171) -/

theorem moved_moved (unit d n : Nat) : moved unit d (moved unit d n) = n := by rw [moved, moved, Nat.xor_assoc, Nat.xor_self, Nat.xor_zero]
theorem moved_lt {b d n t : Nat} (hn : n < 2 ^ (5 + b)) (hd : d < 32) (ht : t = 2 ^ (5 + b)) : moved (2 ^ b) d n < t := by
  have hdu : d * 2 ^ b < 2 ^ (5 + b) := by
    rw [pow_add]
    exact Nat.mul_lt_mul_of_pos_right hd (Nat.two_pow_pos b)
  exact ht ▸ Nat.xor_lt_two_pow hn hdu
theorem cellAt_of_mem {lo : Nat} {l : List Host.Cell} (h : canonFrom lo l = true) {e : Host.Cell} (he : e ∈ l) : cellAt l e.1 = e.2 := by
  induction l generalizing lo with
  | nil => cases he
  | cons c r ih =>
    simp only [canonFrom, Bool.and_eq_true, decide_eq_true_eq] at h
    rcases List.mem_cons.1 he with rfl | hr
    · simp [cellAt]
    · have hne : c.1 ≠ e.1 := by have := canonFrom_le h.2 e hr; omega
      rw [cellAt, if_neg (by simpa using hne)]
      exact ih h.2 hr
/-- Single bytes written at places of their own: what stands where they agree. -/
theorem byte_placed {sp : Space} {f : Nat → Nat} {l : List Host.Cell} {x : Nat} {v : Byte} (h : ∀ e ∈ l, f e.1 = x → e.2 = v) (m : Mems) :
    (m.applyAll (l.map (fun e => .bytes sp (f e.1) [e.2]))).byte sp x = if x ∈ l.map (fun e => f e.1) then v else m.byte sp x := by
  induction l generalizing m with
  | nil => rfl
  | cons e r ih =>
    obtain ⟨he, hr⟩ := List.forall_mem_cons.1 h
    rw [List.map_cons, applyAll_cons, ih hr]
    rcases eq_or_ne (f e.1) x with rfl | hx
    · rw [byte_single_same, he rfl]
      simp
    · rw [byte_single_other _ _ _ hx.symm]
      exact if_congr (by rw [List.map_cons, List.mem_cons, or_iff_right hx.symm]) rfl rfl

section
variable {sp : Space} {base size unit d : Nat}

theorem mem_movedCells {l : List Host.Cell} {e : MemW} (h : e ∈ movedCells sp base size unit d l) :
    e = .clear sp base size ∨ ∃ i b, i < size ∧ e = .bytes sp (base + moved unit d i) [b] := by
  rcases List.mem_cons.1 h with rfl | h
  · exact .inl rfl
  · obtain ⟨c, hc, rfl⟩ := List.mem_map.1 h
    have hin := (List.mem_filter.1 hc).2
    simp only [Bool.and_eq_true, decide_eq_true_eq] at hin
    exact .inr ⟨c.1 - base, c.2, by omega, rfl⟩
theorem movedCells_space {l : List Host.Cell} {e : MemW} (h : e ∈ movedCells sp base size unit d l) : e.space = sp := by
  rcases mem_movedCells h with rfl | ⟨i, b, -, rfl⟩ <;> rfl
/-- Each byte of a canonical memory stands at its new place. -/
theorem byte_movedCells {m : Mems} (hm : Memory.wf m = true) (hsize : ∀ i < size, moved unit d i < size) (m' : Mems) {i : Nat} (hi : i < size) :
    (m'.applyAll (movedCells sp base size unit d (m.cells sp))).byte sp (base + moved unit d i) = m.byte sp (base + i) := by
  have hcanon : canonFrom 0 (m.cells sp) = true := wf_cells hm sp
  have hvalue : ∀ e ∈ slice (m.cells sp) base size, base + moved unit d (e.1 - base) = base + moved unit d i → e.2 = m.byte sp (base + i) := by
    intro e he hx
    obtain ⟨hmem, hin⟩ := List.mem_filter.1 he
    simp only [Bool.and_eq_true, decide_eq_true_eq] at hin
    have hi' : e.1 - base = i := by
      rw [← moved_moved unit d (e.1 - base), Nat.add_left_cancel hx, moved_moved]
    have haddr : base + i = e.1 := by omega
    rw [haddr]
    exact (cellAt_of_mem hcanon hmem).symm
  rw [movedCells, applyAll_cons, byte_placed (f := fun a => base + moved unit d (a - base)) hvalue]
  split
  · rfl
  · next habsent =>
    rw [byte_cleared _ _ ⟨Nat.le_add_right _ _, Nat.add_lt_add_left (hsize i hi) base⟩]
    refine (cellAt_absent fun e he ha => habsent ?_).symm
    refine List.mem_map.2 ⟨e, List.mem_filter.2 ⟨he, by simp [ha, hi]⟩, ?_⟩
    rw [ha, Nat.add_sub_cancel_left]
theorem movedCells_outside (hsize : ∀ i < size, moved unit d i < size) {l : List Host.Cell} {x : Nat} (hx : x < base ∨ base + size ≤ x) (m : Mems) :
    (m.applyAll (movedCells sp base size unit d l)).byte sp x = m.byte sp x := by
  refine applyAll_byte_kept (fun e he m => ?_) m
  rcases mem_movedCells he with rfl | ⟨i, b, hi, rfl⟩
  · exact byte_clear_other m hx
  · have hlt := hsize i hi
    have hne : x ≠ base + moved unit d i := by omega
    exact byte_single_other _ _ _ hne
theorem movedCells_other {sp' : Space} (h : sp ≠ sp') {l : List Host.Cell} (x : Nat) (m : Mems) :
    (m.applyAll (movedCells sp base size unit d l)).byte sp' x = m.byte sp' x := by
  rw [Mems.byte, applyAll_cells_other fun e he => by rw [movedCells_space he]; exact h]
  rfl
theorem movedCells_sameBut (hsize : ∀ i < size, moved unit d i < size) (l : List Host.Cell) (m : Mems) :
    SameBut m (m.applyAll (movedCells sp base size unit d l)) [(sp, base, size)] := by
  intro sp' x h
  have hout : ¬(sp = sp' ∧ base ≤ x ∧ x < base + size) := h _ List.mem_cons_self
  by_cases hs : sp = sp'
  · subst hs
    have hx : ¬(base ≤ x ∧ x < base + size) := fun hin => hout ⟨rfl, hin⟩
    exact movedCells_outside hsize (by omega) m
  · exact movedCells_other hs x m
end

/-- Some lines or rows in their new places. -/
theorem mem_moved_set {unit d n : Nat} {l : List Nat} : moved unit d n ∈ (l.map (moved unit d)).foldl sadd [] ↔ n ∈ l := by
  rw [mem_foldl_sadd, or_iff_right List.not_mem_nil, List.mem_map]
  refine ⟨?_, fun h => ⟨n, h, rfl⟩⟩
  rintro ⟨x, hx, h⟩
  rwa [← moved_moved unit d n, ← h, moved_moved]

/-! ## The course map (R171) -/

section
variable {s : State} {k v : Nat}

theorem courseMap_free (h : (s.w.core k).gang = none) :
    courseMapAct k v s = only (s.w.modCore k (fun c => { c with xm := v % 32 })) := if_pos (by rw [h]; rfl)
theorem rehalfCore_core (w : World) (k j : Nat) : (rehalfCore w k).core j = w.core j := by
  unfold rehalfCore
  split <;> rfl
/-- A core of a gang takes a course map: its scratchpad's bytes, its stale lines and its poisoned rows stand at their new places. -/
theorem courseMap_gang (h : (s.w.core k).gang ≠ none) :
    let d := (s.w.core k).xm ^^^ (v % 32)
    (s.commit (courseMapAct k v s)).mem = (s.mem.applyAll (movedCells .spd (k * 2 ^ 21) (2 ^ 21) (2 ^ 16) d (s.mem.cells .spd))).applyAll
      (movedCells .mortar (k * 2 ^ 19) (2 ^ 19) (2 ^ 14) d (s.mem.cells .mortar)) ∧
    (s.commit (courseMapAct k v s)).w.core k = (s.w.core k).remapped d ∧
    ∀ j, j ≠ k → (s.commit (courseMapAct k v s)).w.core j = s.w.core j := by
  intro d
  have hsome : (s.w.core k).gang.isNone = false := by
    cases hg : (s.w.core k).gang with
    | none => exact absurd hg h
    | some g => rfl
  have hspd : spdAt k 0 = k * 2 ^ 21 := by simp [spdAt]
  have hmortar : mortarAt k 0 0 = k * 2 ^ 19 := by simp [mortarAt]
  have hact : courseMapAct k v s =
      { w := rehalfCore ({ s.w with softErrs := s.w.softErrs.map (movedErr k d) }.modCore k (fun c => c.remapped d)) k,
        out := movedCells .spd (k * 2 ^ 21) (2 ^ 21) (2 ^ 16) d s.mem.spd ++ movedCells .mortar (k * 2 ^ 19) (2 ^ 19) (2 ^ 14) d s.mem.mortar } := by
    rw [← hspd, ← hmortar]
    exact if_neg (by rw [hsome]; exact Bool.false_ne_true)
  rw [hact]
  refine ⟨applyAll_append .., ?_, fun j hj => ?_⟩
  · rw [commit_w, rehalfCore_core, core_modCore_same]
    rfl
  · rw [commit_w, rehalfCore_core, core_modCore_other _ _ _ _ hj]
    rfl
end

/-- What a core of a gang becomes by a course map, in bytes, lines and rows. -/
theorem exec_courseMap_gang {s : State} {k : Nat} {e : BitVec 128} (hg : (s.w.core k).gang ≠ none) (hxm : (s.w.core k).xm < 32)
    (hs : s.Canonical) :
    let d := (s.w.core k).xm ^^^ (e.toNat % 32)
    ∃ u : State, exec (.registerWrite (.courseMap k) e) s = .next u ∧ (u.w.core k).xm = e.toNat % 32 ∧
      (∀ i < 2 ^ 21, u.mem.byte .spd (k * 2 ^ 21 + moved (2 ^ 16) d i) = s.mem.byte .spd (k * 2 ^ 21 + i)) ∧
      (∀ i < 2 ^ 19, u.mem.byte .mortar (k * 2 ^ 19 + moved (2 ^ 14) d i) = s.mem.byte .mortar (k * 2 ^ 19 + i)) ∧
      SameBut s.mem u.mem [(.spd, k * 2 ^ 21, 2 ^ 21), (.mortar, k * 2 ^ 19, 2 ^ 19)] ∧
      (∀ l, moved (2 ^ 6) d l ∈ (u.w.core k).stale ↔ l ∈ (s.w.core k).stale) ∧
      (∀ r, moved (2 ^ 8) d r ∈ (u.w.core k).poison ↔ r ∈ (s.w.core k).poison) ∧ ∀ j, j ≠ k → u.w.core j = s.w.core j := by
  intro d
  obtain ⟨hmem, hcore, hothers⟩ := courseMap_gang (v := e.toNat) hg
  have hd : d < 32 := Nat.xor_lt_two_pow (n := 5) hxm (Nat.mod_lt _ (by decide))
  have hspd : ∀ i < 2 ^ 21, moved (2 ^ 16) d i < 2 ^ 21 := fun i hi => moved_lt (b := 16) hi hd rfl
  have hmortar : ∀ i < 2 ^ 19, moved (2 ^ 14) d i < 2 ^ 19 := fun i hi => moved_lt (b := 14) hi hd rfl
  have hxor : (s.w.core k).xm ^^^ d = e.toNat % 32 := by rw [← Nat.xor_assoc, Nat.xor_self, Nat.zero_xor]
  refine ⟨_, rfl, ?_, fun i hi => ?_, fun i hi => ?_, ?_, fun l => ?_, fun r => ?_, hothers⟩
  · exact (congrArg Core.xm hcore).trans hxor
  · refine (congrArg (fun m => Mems.byte m .spd _) hmem).trans ?_
    rw [movedCells_other (by decide)]
    exact byte_movedCells hs hspd s.mem hi
  · refine (congrArg (fun m => Mems.byte m .mortar _) hmem).trans ?_
    exact byte_movedCells hs hmortar _ hi
  · have hbut := (movedCells_sameBut (sp := .spd) (base := k * 2 ^ 21) hspd (s.mem.cells .spd) s.mem).append
      (movedCells_sameBut (sp := .mortar) (base := k * 2 ^ 19) hmortar (s.mem.cells .mortar) _)
    rwa [← hmem] at hbut
  · exact (iff_of_eq (congrArg (moved (2 ^ 6) d l ∈ ·) (congrArg Core.stale hcore))).trans mem_moved_set
  · exact (iff_of_eq (congrArg (moved (2 ^ 8) d r ∈ ·) (congrArg Core.poison hcore))).trans mem_moved_set

/-! ## System registers and the window's other registers (R119, R121, R315, R352, R365, R369) -/

theorem slotKey_eq (ccw : Bool) (n : Nat) : slotKey ccw n = (if ccw then 1024 else 0) + n % 1024 := by cases ccw <;> simp [slotKey, bit]
theorem slotKey_direction (ccw : Bool) (n : Nat) : (slotKey ccw n / 1024 == 1) = ccw := by
  cases ccw <;> simp [slotKey, bit]
theorem slot_setSlot_same (w : World) (k : Nat) (x : Slot) : (w.setSlot k x).slot k = x := fget_fset_same ..
/-- A slot that is full or that an accepted board needs stays as it is. -/
theorem slot_held (w : World) (ccw : Bool) (n : Nat) : let x := w.slot ((if ccw then 1024 else 0) + n % 1024)
    ((w.slot (slotKey ccw n)).full || w.slotNeeded (slotKey ccw n)) = true ↔ x.full = true ∨ (x.own = true ∧ w.spare ccw x.ten = false) := by
  rw [← slotKey_eq]
  simp [World.slotNeeded, slotKey_direction]
theorem port_setPort_same (w : World) (n : Nat) (x : Port) : (w.setPort n x).port n = x := fget_fput_same ..
theorem limit_takes {r : Reg} {v : Nat} (h : v ≤ r.ilim ∨ r.phok = 36) : (r.limit v).ilim = v := by
  unfold Reg.limit
  split
  · rfl
  · next hv => rw [if_pos (beq_iff_eq.2 (h.resolve_left hv))]
theorem limit_refuses {r : Reg} {v : Nat} (h : r.ilim < v) (hp : r.phok ≠ 36) : r.limit v = r := by
  rw [Reg.limit, if_neg (by omega), if_neg (by simpa using hp)]
/-- The fields of a route's image. -/
theorem route_image (r : Route) : r.image % 2 = (if r.valid then 1 else 0) ∧ r.image / 2 % 2 ^ 16 = r.ports % 2 ^ 16 ∧
    r.image / 2 ^ 17 % 2 ^ 10 = r.peer % 2 ^ 10 ∧ r.image / 2 ^ 32 % 2 ^ 16 = r.ten % 2 ^ 16 ∧
    r.image / 2 ^ 48 % 2 ^ 64 = r.key % 2 ^ 64 ∧ r.image / 2 ^ 112 = r.ref % 2 ^ 16 := by
  have hbit : bit r.valid = if r.valid then 1 else 0 := rfl
  have hlt := bit_lt r.valid
  rw [← hbit, Route.image]
  omega
theorem key_image (e : KeyEntry) : e.image / 2 ^ 96 = e.miss % 2 ^ 32 ∧ e.image / 2 ^ 32 % 2 ^ 64 = e.key % 2 ^ 64 ∧
    e.image % 2 = (if e.valid then 1 else 0) := by
  have hbit : bit e.valid = if e.valid then 1 else 0 := rfl
  have hlt := bit_lt e.valid
  rw [← hbit, KeyEntry.image]
  omega

section
variable {s : State} {k : Nat} {e : BitVec 128}

/-- A register that any level writes is written by management as by any level. -/
theorem exec_sysWrite {reg : Nat} (h30 : reg ≠ 0x30) (h40 : reg ≠ 0x40) :
    exec (.registerWrite (.sys k reg) e) s = done s (only (s.w.putSys k reg e.toNat)) := by
  have hact : s.putMgmt k reg e.toNat = only (s.w.putSys k reg e.toNat) := by simp [State.putMgmt, h30, h40]
  exact congrArg (done s) hact
theorem putSys_evc {w : World} {n v : Nat} (h : n < 8) :
    w.putSys k (0x88 + n) v = w.modCtx k (fun c => { c with evc := fset c.evc 0 n (v % 2 ^ 48) }) := by
  have h1 : ¬(0x60 ≤ 0x88 + n ∧ 0x88 + n ≤ 0x73) := by omega
  have h2 : ¬(0x80 ≤ 0x88 + n ∧ 0x88 + n ≤ 0x87) := by omega
  have h3 : 0x88 ≤ 0x88 + n ∧ 0x88 + n ≤ 0x8F := by omega
  have h4 : 0x88 + n ≠ 0x10 ∧ 0x88 + n ≠ 0x11 ∧ 0x88 + n ≠ 0x41 := by omega
  simp only [World.putSys, beq_iff_eq, Bool.and_eq_true, decide_eq_true_eq, if_neg h4.1, if_neg h4.2.1, if_neg h4.2.2, if_neg h1,
    if_neg h2, if_pos h3, Nat.add_sub_cancel_left]
theorem putSys_tshape {w : World} {n v : Nat} (h : n < 20) (hm : isMx k = true) :
    w.putSys k (0x60 + n) v = w.modDie (k / 8) (fun d => { d with tshape := fset d.tshape 0 n (v % 2 ^ 26) }) := by
  have h1 : 0x60 ≤ 0x60 + n ∧ 0x60 + n ≤ 0x73 := by omega
  have h2 : 0x60 + n ≠ 0x10 ∧ 0x60 + n ≠ 0x11 ∧ 0x60 + n ≠ 0x41 := by omega
  simp only [World.putSys, beq_iff_eq, Bool.and_eq_true, decide_eq_true_eq, if_neg h2.1, if_neg h2.2.1, if_neg h2.2.2, if_pos h1, if_pos hm,
    Nat.add_sub_cancel_left, dieOf]
end

/-! The window's other registers, by their bounds. -/

section
variable {s : State} {n port v : Nat}
theorem hubRegister_routeRead (hn : n < 32) :
    hubRegister (.routeRead n) v s = s.w.answer (.data true (leBytes 16 (s.w.route n).image)) := by
  simp only [hubRegister, Nat.mod_eq_of_lt hn]
theorem hubRegister_keyRead (hp : port < 16) (hn : n < 4096) : hubRegister (.keyRead port n) v s =
    s.w.answer (.data true (leBytes 16 (fget (s.w.port port).keys KeyEntry.blank n).image)) := by
  simp only [hubRegister, Nat.mod_eq_of_lt hp, Nat.mod_eq_of_lt hn]
theorem hubRegister_ilim (hn : n < 4) (hv : v < 2 ^ 10) : hubRegister (.ilim n) v s = s.w.modReg n (fun x => x.limit v) := by
  simp only [hubRegister, Nat.mod_eq_of_lt hn, Nat.mod_eq_of_lt hv]
theorem hubRegister_route (hn : n < 32) : hubRegister (.route n) v s =
    s.w.modHub (fun h => { h with routes := fput h.routes n ((s.w.route n).written v) }) := by
  simp only [hubRegister, Nat.mod_eq_of_lt hn]
theorem hubRegister_portWheel (hp : port < 16) (hn : n < 64) (b : Bool) : hubRegister (.portWheel port n b) v s =
    s.w.setPort port (if b then { s.w.port port with wheelOut := fput (s.w.port port).wheelOut n (wslotOf v) }
      else { s.w.port port with wheelIn := fput (s.w.port port).wheelIn n (wslotOf v) }) := by
  simp only [hubRegister, Nat.mod_eq_of_lt hp, Nat.mod_eq_of_lt hn]
theorem keyAct_written (hm : s.w.hub.mailOpen = true) (hp : port < 16) (hn : n < 4096) : keyAct 0 port n v s =
    s.w.setPort port { s.w.port port with keys := fput (s.w.port port).keys n ((fget (s.w.port port).keys KeyEntry.blank n).written v) } := by
  rw [keyAct, mailbox_open hm]
  simp only [Nat.mod_eq_of_lt hp, Nat.mod_eq_of_lt hn]
end

/-! ## Tenant records, interleave sets, deques and slots (R197, R255, R315, R358) -/

/-- A field that a mask holds whole. -/
theorem field_masked {m a b : Nat} (h : m / 2 ^ a % 2 ^ b = 2 ^ b - 1) (x : Nat) : (x &&& m) / 2 ^ a % 2 ^ b = x / 2 ^ a % 2 ^ b := by
  rw [Nat.and_div_two_pow, Nat.and_mod_two_pow, h, Nat.and_two_pow_sub_one_eq_mod, Nat.mod_mod]
/-- A record as written. -/
theorem record_written (r : BitVec 384) : (r &&& BitVec.ofNat 384 recordMask).toNat = r.toNat &&& recordMask := by
  have hmask : (BitVec.ofNat 384 recordMask).toNat = recordMask := by decide +kernel
  rw [BitVec.toNat_and, hmask]
section
variable {s : State} {ten : Nat} {r : BitVec 384}
theorem hasOpen_iff {w : World} : w.hasOpen ten = true ↔ ¬∀ y ∈ w.hub.tasks, y.ten = ten → y.stage = .closed := by
  simp [World.hasOpen]
theorem tenantAct_written (hm : s.w.hub.mailOpen = true) (h0 : ten ≠ 0) (h : ten ≤ 65535)
    (hi : ∀ y ∈ s.w.hub.tasks, y.ten = ten → y.stage = .closed) : tenantAct 0 ten r s =
      (s.w.modHub (fun h => { h with tenants := fput h.tenants ten (r &&& BitVec.ofNat 384 recordMask) })).answer (.status 0) := by
  have hopen : s.w.hasOpen ten = false := Bool.eq_false_iff.2 fun ho => hasOpen_iff.1 ho hi
  have htest : (ten == 0 || decide (65535 < ten) || s.w.hasOpen ten) = false := by simp [h0, h, hopen]
  rw [tenantAct, mailbox_open hm, if_neg (by rw [htest]; exact Bool.false_ne_true)]
theorem tenantAct_refused (hm : s.w.hub.mailOpen = true) (h : ten = 0 ∨ ¬∀ y ∈ s.w.hub.tasks, y.ten = ten → y.stage = .closed) :
    tenantAct 0 ten r s = s.w.answer .error := by
  have htest : (ten == 0 || decide (65535 < ten) || s.w.hasOpen ten) = true := by
    rcases h with h | h
    · simp [h]
    · rw [hasOpen_iff.2 h, Bool.or_true]
  rw [tenantAct, mailbox_open hm, if_pos htest]
/-- A record after its write, by its fields. -/
theorem tenRec_written (w : World) (h : (w.hub.tenants = fput s.w.hub.tenants ten (r &&& BitVec.ofNat 384 recordMask))) :
    (w.tenRec ten).testBit 0 = r.getLsbD 0 ∧ w.tenRec ten / 2 ^ 64 % 2 ^ 128 = r.toNat / 2 ^ 64 % 2 ^ 128 ∧
      w.tenRec ten / 2 % 2 ^ 29 = r.toNat / 2 % 2 ^ 29 ∧ ∀ t, t ≠ ten → w.tenRec t = s.w.tenRec t := by
  have hrec : w.tenRec ten = r.toNat &&& recordMask := by rw [World.tenRec, h, fget_fput_same, record_written]
  have hbit : recordMask.testBit 0 = true := by decide +kernel
  rw [hrec]
  refine ⟨?_, field_masked (by decide +kernel) _, field_masked (a := 1) (by decide +kernel) _, fun t ht => ?_⟩
  · rw [Nat.testBit_and, hbit, Bool.and_true]
    rfl
  · rw [World.tenRec, h, fget_fput_other _ _ _ _ _ ht]
    rfl
end

section
variable {s : State} {ten id cap : Nat} (hm : s.w.hub.mailOpen = true)
include hm
theorem allotAct_allotted (hid : id < 1024) (h0 : 0 < cap) (hcap : cap ≤ 4096) (hfree : (s.w.deque id).ten = none)
    (htotal : s.w.dequeTotal + cap ≤ 2 ^ 20) : allotAct 0 ten id cap s =
      (s.w.modHub (fun h => { h with deques := fput h.deques id { ten := some ten, cap := cap, items := [], owner := none } })).answer (.status 0) := by
  have h1 : ¬1023 < id := by omega
  have h2 : ¬(cap == 0) = true := by simpa using h0.ne'
  have h3 : ¬(decide (4096 < cap) || (s.w.deque id).ten.isSome || decide (1048576 < s.w.dequeTotal + cap)) = true := by
    have htotal : s.w.dequeTotal + cap ≤ 1048576 := htotal
    simp [hfree, hcap, htotal]
  rw [allotAct, mailbox_open hm]
  dsimp only
  rw [if_neg h1, if_neg h2, if_neg h3]
theorem allotAct_refused (h : 4096 < cap ∨ 1024 ≤ id) : allotAct 0 ten id cap s = s.w.answer .error := by
  rw [allotAct, mailbox_open hm]
  dsimp only
  split
  · rfl
  · next hid =>
    have hcap : 4096 < cap := h.resolve_right (by omega)
    have h0 : ¬(cap == 0) = true := by simp; omega
    rw [if_neg h0, if_pos (by simp [hcap])]
end
/-- Interleave sets that a lease names. -/
theorem isetAct_eq (b : Bool) (v : Nat) (s : State) : isetAct b v s =
    if ∃ t ∈ s.w.hub.tasks, ∃ y ∈ t.runs, y.place = if b then 1 else 0 then s.w
    else s.w.modHub (fun h => if b then { h with isetb := v % 2 + v / 2 ^ 4 % 2 ^ 32 * 2 ^ 4 }
      else { h with iseta := v % 2 + v / 2 ^ 4 % 2 ^ 32 * 2 ^ 4 }) := by
  have hnamed : (s.w.hub.tasks.any (fun t => t.runs.any (fun e => e.place == bit b))) = true ↔
      ∃ t ∈ s.w.hub.tasks, ∃ y ∈ t.runs, y.place = if b then 1 else 0 := by
    simp only [List.any_eq_true, beq_iff_eq]
    rfl
  have hlow : bit (bitOf 0 v) = v % 2 := by
    rcases Nat.mod_two_eq_zero_or_one v with h | h <;> simp [bit, bitOf, h]
  rw [isetAct, hlow]
  exact if_congr hnamed rfl rfl

/-- Settles O53: each write of the management processor by what it leaves, and for tenant 0 alone. -/
theorem managementWrites : Obligations.ManagementWrites := by
  unfold Obligations.ManagementWrites
  intro s k n ten id cap port addr from_ ccw b v r e x same does replies mail refused idle slot slotAfter needed set named setting key again
  have hslot : slot = s.w.slot (slotKey ccw n) := by rw [slotKey_eq]
  have hafter (u : State) : slotAfter u = u.w.slot (slotKey ccw n) := by rw [slotKey_eq]
  have hheld := slot_held s.w ccw n
  have hmirror : (ten == 0 || bitOf 0 (s.w.tenRec ten)) = true ↔ ten = 0 ∨ s.w.tenRec ten % 2 = 1 := by simp [bitOf]
  have hwindow {reg : MgmtReg} {w : World} (hr : exec (.registerWrite reg e) s = done s (only (hubRegister reg x s)))
      (hw : hubRegister reg x s = w) : exec (.registerWrite reg e) s = done s (only w) := hw ▸ hr
  have hmail {w w' : World} (hw : w = w') : done s (only w) = done s (only w') := congrArg (fun w => done s (only w)) hw
  refine ⟨fun hn => ?_, fun hn => ?_, fun hg => ?_, exec_courseMap_gang, fun hn => ?_, fun hp hn => ?_, ?_, ?_, ?_, ?_, ?_, fun hg => ?_,
    fun hn => ?_, fun hn hmx => ?_, fun reg => ?_, fun hf hneed => ?_, fun hh => ?_, fun hn hx hlim => ?_, fun hn hx hlim hph => ?_,
    fun hn => ?_, fun hp hn => ?_, fun hm h0 ht hi => ?_, fun hm h => ?_, fun hm hid h0 hcap hfree htot => ?_, fun hm h => ?_,
    fun hm hf hneed => ?_, fun hm hh => ?_, fun hm hp hn => ?_, fun hm h => ?_, fun hm h0 h => ?_, fun h => ?_⟩
  · have hact := (isetAct_eq b v.toNat s).trans (if_neg hn)
    refine becomes (congrArg (fun w => done s (only w)) hact) ?_
    cases b <;> exact ⟨rfl, rfl⟩
  · exact done_only_eq ((isetAct_eq b v.toNat s).trans (if_pos hn))
  · exact becomes (congrArg (done s) (courseMap_free hg)) (core_modCore_same ..)
  · obtain ⟨h1, h2, h3, h4, h5, h6⟩ := route_image (s.w.route n)
    exact ⟨(s.w.route n).image, h1, h2, h3, h4, h5, h6, answered (v := s.w) (hwindow rfl (hubRegister_routeRead hn)) rfl rfl rfl⟩
  · obtain ⟨h1, h2, h3⟩ := key_image key
    exact ⟨key.image, h1, h2, h3, answered (v := s.w) (hwindow rfl (hubRegister_keyRead hp hn)) rfl rfl rfl⟩
  · exact becomes (v := s.w.modCore k (fun c => { c with trapvec := x % 4096 })) rfl (core_modCore_same ..)
  · exact becomes (v := s.w.modCtx k (fun c => { c with fpflags := x % 32 })) (exec_sysWrite (by decide) (by decide)) ⟨core_modCore_same .., rfl, rfl⟩
  · exact becomes (v := s.w.modCtx k (fun c => { c with fpctrl := x % 32 })) (exec_sysWrite (by decide) (by decide)) ⟨core_modCore_same .., rfl, rfl⟩
  · exact becomes (v := s.w.modCore k (fun c => { c with trappc := x % 2 ^ 16 })) (exec_sysWrite (by decide) (by decide)) ⟨core_modCore_same .., rfl, rfl⟩
  · exact becomes (v := s.w.modCore k (fun c => { c with trapvec := x % 4096 })) rfl ⟨core_modCore_same .., rfl, rfl⟩
  · exact becomes (congrArg (done s) (courseMap_free hg)) ⟨core_modCore_same .., rfl, rfl⟩
  · refine becomes ((exec_sysWrite (by omega) (by omega)).trans (congrArg (fun w => done s (only w)) (putSys_evc hn))) ?_
    show fget (((s.w.modCtx k (fun c => { c with evc := fset c.evc 0 n (x % 2 ^ 48) })).core k).ctx.evc) 0 n = _
    rw [World.modCtx, core_modCore_same, fget_fset_same]
  · refine becomes ((exec_sysWrite (by omega) (by omega)).trans (congrArg (fun w => done s (only w)) (putSys_tshape hn hmx))) ⟨?_, fun _ => rfl⟩
    show fget (((s.w.modDie (k / 8) (fun d => { d with tshape := fset d.tshape 0 n (x % 2 ^ 26) })).die (k / 8)).tshape) 0 n = _
    rw [die_modDie_same, fget_fset_same]
  · exact answered (v := s.w) rfl rfl rfl rfl
  · have hact : hubRegister (.slot ccw n) x s = s.w.setSlot (slotKey ccw n) { Slot.unowned with own := bitOf 0 x, ten := field 31 16 x } :=
      if_neg fun ht => (hheld.1 ht).elim (by rw [hf]; exact Bool.false_ne_true) hneed
    refine becomes (hwindow rfl hact) ?_
    rw [hafter, slot_setSlot_same]
    exact ⟨bitOf_toNat e, rfl, rfl⟩
  · have hact : hubRegister (.slot ccw n) x s = s.w := if_pos (hheld.2 hh)
    exact becomes (hwindow rfl hact) rfl
  · refine becomes (hwindow rfl (hubRegister_ilim hn hx)) ?_
    exact (congrArg Reg.ilim (reg_modReg_same ..)).trans (limit_takes hlim)
  · refine becomes (hwindow rfl (hubRegister_ilim hn hx)) ?_
    exact (reg_modReg_same ..).trans (limit_refuses hlim hph)
  · refine becomes (hwindow rfl (hubRegister_route hn)) ?_
    refine (fget_fput_same ..).trans ?_
    rw [Route.written, bitOf_toNat]
    rfl
  · refine becomes (hwindow rfl (hubRegister_portWheel hp hn b)) ?_
    rw [port_setPort_same]
    have hwheel : wslotOf x = { own := e.getLsbD 0, ten := x / 2 ^ 16 % 2 ^ 16, gang := x / 2 ^ 32 % 2 ^ 12 } := by
      rw [wslotOf, bitOf_toNat]
      rfl
    cases b <;> exact (fget_fput_same ..).trans hwheel
  · exact answered (hmail (tenantAct_written hm h0 ht hi)) rfl rfl (tenRec_written _ rfl)
  · exact answered (v := s.w) (hmail (tenantAct_refused hm h)) rfl rfl rfl
  · exact answered (hmail (allotAct_allotted hm hid h0 hcap hfree htot)) rfl rfl ⟨fget_fput_same .., fun j hj => fget_fput_other _ _ _ _ _ hj⟩
  · exact answered (v := s.w) (hmail (allotAct_refused hm h)) rfl rfl rfl
  · have hact : withdrawAct 0 ccw n s = (s.w.setSlot (slotKey ccw n) Slot.unowned).answer (.status 0) := by
      rw [withdrawAct, mailbox_open hm]
      dsimp only
      rw [if_neg fun ht => (hheld.1 ht).elim (by rw [hf]; exact Bool.false_ne_true) hneed]
    refine answered (hmail hact) rfl rfl ?_
    rw [hafter]
    exact slot_setSlot_same s.w (slotKey ccw n) Slot.unowned
  · have hact : withdrawAct 0 ccw n s =
        (s.w.setSlot (slotKey ccw n) { s.w.slot (slotKey ccw n) with withdraw := true }).answer (.status 0) := by
      rw [withdrawAct, mailbox_open hm]
      dsimp only
      rw [if_pos (hheld.2 hh)]
    refine answered (hmail hact) rfl rfl ?_
    rw [hafter, hslot]
    exact slot_setSlot_same ..
  · refine becomes (hmail (keyAct_written hm hp hn)) ?_
    rw [port_setPort_same]
    refine (fget_fput_same ..).trans ?_
    rw [KeyEntry.written, bitOf_toNat]
    rfl
  · have hact : mirrorAct 0 ten addr s = (s.w.modHub (fun h => { h with mirrors := fput h.mirrors ten addr })).answer (.status 0) := by
      rw [mirrorAct, mailbox_open hm, if_pos (hmirror.2 h)]
    exact answered (hmail hact) rfl rfl (fget_fput_same ..)
  · have hact : mirrorAct 0 ten addr s = s.w.answer .error := by
      rw [mirrorAct, mailbox_open hm, if_neg fun ht => (hmirror.1 ht).elim h0 (by rw [h]; decide)]
    exact answered (v := s.w) (hmail hact) rfl rfl rfl
  · exact ⟨hmail (mailbox_refused h _), hmail (mailbox_refused h _), hmail (mailbox_refused h _), hmail (mailbox_refused h _),
      hmail (mailbox_refused h _)⟩

end Sys2Proof.Machine
end
